-- ==== Sys2Proof/Word.lean ====
section
/-! DEFINITION. The word types of the Ghefean and their plainest arithmetic (R3 to R5, R11). -/
namespace Sys2Proof

/-- One byte of memory. -/
abbrev Byte := BitVec 8
/-- A scalar register, address or long immediate (R11). -/
abbrev Word := BitVec 64
/-- A vector register, 2048 bits (R11). -/
abbrev Vec := BitVec 2048
/-- A mask register, one bit per byte lane (R13). -/
abbrev Mask := BitVec 256
/-- A 48-bit slot operation (R44). -/
abbrev SlotWord := BitVec 48
/-- A 512-bit bundle (R34). -/
abbrev BundleWord := BitVec 512

/-- Bits [hi:lo] of a number, both ends included (R5, R8). -/
def bits (x : Nat) (hi lo : Nat) : Nat := x / 2 ^ lo % 2 ^ (hi + 1 - lo)

/-- Bit k of a number. -/
def bitAt (x : Nat) (k : Nat) : Bool := x.testBit k

end Sys2Proof
end

