-- ==== Sys2Proof/Config.lean ====
section
/-! DEFINITION. What an implementation of the Ghefean fixes, and the free values: the values the spec leaves open.
An opaque constant has no body a proof could see, so a claim that holds of it holds of every value it could take. -/
namespace Sys2Proof.Config

/-- The figures of R1 that the model uses. -/
def cores : Nat := 4096
def clusters : Nat := 256
def hbmBytes : Nat := 720 * 2 ^ 30
def poolBytes : Nat := 786432
def hbmChannels : Nat := 384

/-- The value that vector register n of a core holds at its k-th task dispatch (R31: unpredictable; log 6). -/
opaque freeVec : Nat → Nat → Nat → Vec
/-- The value that row r of half h of tile z of a core holds at its k-th task dispatch (R31: unpredictable; log 6). -/
opaque freeRow : Nat → Nat → Nat → Nat → Nat → Vec
/-- The value that a scratchpad byte of a core holds at its k-th task dispatch (R31: unpredictable; log 6). -/
opaque freeByte : Nat → Nat → Nat → Byte
/-- The value that the k-th read of another package's memory returns (R306: it is the target's; log 15). -/
opaque peerValue : Nat → Word
/-- A telemetry sample of a block, by kind, number, item and moment (R458: a sensor's reading; log 20). -/
opaque sensor : Nat → Nat → Nat → Nat → Word
/-- The LLC slice, set and way in which the package holds a line (R417; the placement is not stated; log 21). -/
opaque llcSlice : Nat → Nat
opaque llcSet : Nat → Nat
opaque llcWay : Nat → Nat
/-- The certificate chain of the device's identity and the capability flags it reports (R455; log 18). -/
opaque certChain : List Byte
opaque spdmFlags : BitVec 32
/-- The bytes of the security processor's ROM, which measurement 1 measures (R455; log 18). -/
opaque rom : List Byte
/-- What the security processor makes of a message with its identity key or an ephemeral one: the k-th value (R455; log 18). -/
opaque spdmSign : List Byte → Nat → BitVec 768

/-- What a 64-bit queue entry or latch entry supplies where 2048 bits are read as bytes (not stated; log 32). -/
opaque wideOf : Word → Vec
/-- Byte i of page p of the image that the k-th save writes (R383: its layout is internal; log 82). -/
opaque imageByte : Nat → Nat → Nat → Byte
/-- Does an access of core n at its step t come before the write of a unit by its command c that it races with (R295, R300, R312: either; log
10)? -/
opaque early : Nat → Nat → Nat → Nat → Bool
/-- The sc that pass on core n before its k-th free value is used (R29: elapsed time is not modelled; log 13). -/
opaque cycles : Nat → Nat → Word

/-- The fc that pass before the k-th moment at which time is read (R407; log 13). -/
opaque elapsed : Nat → Nat

end Sys2Proof.Config
end

