-- ==== Sys2Proof/Syntax.lean ====
section
/-! DEFINITION. The syntax of the machine: operand ports (R49), slot operations (R44), and Instr, one constructor per row
of spec/opcode_table.json. A slot operation's constructor carries its decoded fields; an event's constructor carries
what the event names. -/
namespace Sys2Proof

/-- The eight slots in bundle order (R34). -/
inductive Slot where
  | br | sc | lm | ec | va | vb | xn | mx
  deriving DecidableEq, Repr, Inhabited

/-- Slot number, 0 = BR to 7 = MX (R34). -/
def Slot.num : Slot → Nat
  | .br => 0 | .sc => 1 | .lm => 2 | .ec => 3 | .va => 4 | .vb => 5 | .xn => 6 | .mx => 7

/-- The units that have a latch file (R16). -/
inductive LUnit where
  | sc | va | vb | xn
  deriving DecidableEq, Repr

/-- The four readings of the long immediate (R43). -/
inductive ImmSel where
  | full | lo | hi | loz
  deriving DecidableEq, Repr

/-- The operand port map of R49. `short k` is port 0xE0 + k, whose value is k - 16. -/
inductive Port where
  | s (n : Fin 64)
  | v (n : Fin 64)
  | m (n : Fin 8)
  | dq (n : Fin 4)
  | eq (n : Fin 2)
  | cq
  | zacc
  | latch (u : LUnit) (age : Fin 4)
  | imm (k : ImmSel)
  | loop (k : Fin 6)
  | lid
  | kid
  | ap (n : Fin 8)
  | z (n : Fin 8)
  | f (n : Fin 8)
  | short (k : Fin 32)
  deriving DecidableEq, Repr

/-- The element types of OPC[2:0] (R44). -/
inductive ElemTy where
  | i8 | i16 | i32 | bf16 | f16 | f32 | i4 | i64
  deriving DecidableEq, Repr

/-- The fields of a slot operation besides its opcode (R44). An unused field holds port 0x00, which is s0. -/
structure Op where
  gf : Fin 8
  gn : Bool
  dst : Port
  op1 : Port
  op2 : Port
  op3 : Port
  e1 : Bool
  e2 : Bool
  e3 : Bool
  mod : Bool
  deriving DecidableEq, Repr

/-- The two vector slots (R92). -/
inductive VU where
  | a | b
  deriving DecidableEq, Repr

/-- A unit kind and number of R408; also names a block with a clock of its own (R457). -/
structure BlockId where
  kind : Nat
  num : Nat
  deriving DecidableEq, Repr

/-- One bank request of a pool (R184, R186): its issue step, its slot (8 for an engine), whether it writes, whether it writes every
byte of the sectors it touches (R187), and those sectors (pool offsets div 32). -/
structure PoolReq where
  step : Nat
  slot : Nat
  write : Bool
  whole : Bool
  sectors : List Nat
  deriving DecidableEq, Repr

/-- An access that arrives from another package (R397). -/
inductive PeerAccess where
  | load (off n : Nat)
  | store (off : Nat) (data : List Byte)
  | atomic (off : Nat) (wide : Bool) (operator : Nat) (operand : Word)
  | cas (off : Nat) (wide : Bool) (expected new : Word)
  deriving DecidableEq, Repr

/-- A snoop of a host line (R393): one that leaves the line shared, or one that gives it to the host, with what the host then writes
to it and whether the host marks it poisoned (R303; log 83). -/
inductive Snoop where
  | sharing
  | owning (line : List Byte) (poison : Bool)
  deriving DecidableEq, Repr

/-- A firmware image (R454): the security version number, the public key (x above y) and the signature (r above s) of its header, and its
body. -/
structure Firmware where
  version : Nat
  key : BitVec 768
  sig : BitVec 768
  body : List Byte
  deriving DecidableEq, Repr

/-- The end of a bring-up phase (R452): in phase 2 the FAIL code of its failure, 3 or 4, if it fails; in phase 3 the pool banks that fail
their self-test, as core, group and bank; in phase 0 the new image, if one has been stored since the last reset (R454). -/
structure BootResult where
  fail : Nat
  failed : List (Nat × Nat × Nat)
  image : Option Firmware
  deriving DecidableEq, Repr

/-- What a soft error strikes (R191, R193, R417, R418, R426, R428, R443). `fatal` is whether SECDED can correct it:
true means it is uncorrectable. A sector of the LLC is named by the kind of its memory (R371) and an address there. -/
inductive ErrTarget where
  | pool (k offset : Nat) (fatal : Bool)
  | libero (k group bankrow : Nat) (fatal : Bool)
  | llc (kind pa : Nat) (fatal : Bool)
  | llcTag (kind pa : Nat)
  | hbm (pa : Nat) (fatal : Bool)
  | slice (pa : Nat)
  | flash (la page : Nat)
  | control (structureNo : Nat)
  deriving DecidableEq, Repr

/-- The result of a flash page read at its die (R439, R443): data, a failed decode, or a program or erase failure. -/
inductive FlashResult where
  | good | bad
  deriving DecidableEq, Repr

/-- Every step of the machine: one constructor per row of spec/opcode_table.json. In an event,
`k` is a core's kid. -/
inductive Instr where
  -- bundle, trap, task and pre-emption events
  | bundleExecution (k : Nat)
  | resultDelivery (k : Nat)
  | variableResultWrite (k id : Nat)
  | accumulatorEventAct (k : Nat)
  | bundleRetire (k : Nat)
  | trapEntry (k : Nat)
  | streamDeadlockTrap (k : Nat)
  | taskDispatch (k : Nat)
  | preemptAtPoint (k : Nat)
  | preemptionLimitExpiry (k : Nat)
  | forcedStop (k : Nat)
  | forcedStopEscalation (k : Nat)
  | saveComplete (k : Nat)
  | taskRestore (k id : Nat)
  | nop (sl : Slot)
  -- BR slot (R85)
  | bra (o : Op) | brc (o : Op) | brcZ (o : Op) | brq (o : Op) | brqN (o : Op)
  | call (o : Op) | ret (o : Op) | loop (o : Op) | lbrk (o : Op) | yield (o : Op)
  | trap (o : Op) | tret (o : Op) | twait (o : Op) | twaitAny (o : Op) | tstat (o : Op)
  | fence (o : Op) | bar (o : Op) | bara (o : Op) | halt (o : Op) | exit (o : Op)
  | mfsr (o : Op) | mtsr (o : Op) | bkpt (o : Op) | icinv (o : Op)
  -- SC slot (R86)
  | add (o : Op) | sub (o : Op) | mul (o : Op) | mulh (o : Op) | div (o : Op) | rem (o : Op)
  | and (o : Op) | or (o : Op) | xor (o : Op) | andn (o : Op)
  | shl (o : Op) | shr (o : Op) | sra (o : Op) | rotl (o : Op) | fshl (o : Op) | fshr (o : Op)
  | clz (o : Op) | ctz (o : Op) | popc (o : Op) | min (o : Op) | max (o : Op)
  | cmp (o : Op) | sel (o : Op) | mov (o : Op) | bfx (o : Op) | bfi (o : Op)
  | sext (o : Op) | zext (o : Op) | flagop (o : Op)
  | fadd (o : Op) | fsub (o : Op) | fmul (o : Op) | ffma (o : Op) | fmin (o : Op) | fmax (o : Op)
  | fcmp (o : Op) | fcvt (o : Op) | icvt (o : Op) | apset (o : Op) | apget (o : Op)
  -- LM slot (R88)
  | ldv (o : Op) | ldvt (o : Op) | stv (o : Op) | stvt (o : Op) | ldvu (o : Op) | ldvm (o : Op)
  | stvb (o : Op) | ldm (o : Op) | stm (o : Op) | lds (o : Op) | sts (o : Op)
  | atoml (o : Op) | casl (o : Op) | ldg (o : Op) | stg (o : Op) | atomg (o : Op) | casg (o : Op)
  | sinit (o : Op) | swait (o : Op) | swaitEmpty (o : Op) | swaitPtr (o : Op)
  | sarr (o : Op) | sarrEmpty (o : Op) | bankq (o : Op) | pldl (o : Op)
  | flushl1 (o : Op) | flushl1Inv (o : Op)
  -- EC slot (R90)
  | cpy (o : Op) | cpyr (o : Op) | gath (o : Op) | scat (o : Op) | pfl (o : Op) | coll (o : Op)
  | expf (o : Op) | expc (o : Op) | whq (o : Op) | topki (o : Op) | hpub (o : Op) | htest (o : Op)
  | lnch (o : Op) | ggemm (o : Op) | invl (o : Op) | invlAll (o : Op) | flsh (o : Op) | wptr (o : Op)
  -- VA and VB slots (R92, R93)
  | vadd (u : VU) (t : ElemTy) (o : Op) | vsub (u : VU) (t : ElemTy) (o : Op)
  | vmul (u : VU) (t : ElemTy) (o : Op) | vmulh (u : VU) (t : ElemTy) (o : Op)
  | vfma (u : VU) (t : ElemTy) (o : Op) | vfms (u : VU) (t : ElemTy) (o : Op)
  | vfnma (u : VU) (t : ElemTy) (o : Op)
  | vmin (u : VU) (t : ElemTy) (o : Op) | vmax (u : VU) (t : ElemTy) (o : Op)
  | vabs (u : VU) (t : ElemTy) (o : Op) | vneg (u : VU) (t : ElemTy) (o : Op)
  | vadds (u : VU) (t : ElemTy) (o : Op) | vsubs (u : VU) (t : ElemTy) (o : Op)
  | vavg (u : VU) (t : ElemTy) (o : Op) | vcmp (u : VU) (t : ElemTy) (o : Op)
  | vshl (u : VU) (t : ElemTy) (o : Op) | vshr (u : VU) (t : ElemTy) (o : Op)
  | vsra (u : VU) (t : ElemTy) (o : Op) | vfshl (u : VU) (t : ElemTy) (o : Op)
  | vfshr (u : VU) (t : ElemTy) (o : Op) | vclz (u : VU) (t : ElemTy) (o : Op)
  | vpopc (u : VU) (t : ElemTy) (o : Op) | vcvt (u : VU) (t : ElemTy) (o : Op)
  | vqnt (u : VU) (t : ElemTy) (o : Op) | vdqnt (u : VU) (t : ElemTy) (o : Op)
  | vdot4 (u : VU) (t : ElemTy) (o : Op) | vbcst (u : VU) (t : ElemTy) (o : Op)
  | viota (u : VU) (t : ElemTy) (o : Op)
  | vdiv (t : ElemTy) (o : Op) | vsqrt (t : ElemTy) (o : Op) | vrcp (t : ElemTy) (o : Op)
  | vrsq (t : ElemTy) (o : Op) | vexp2 (t : ElemTy) (o : Op) | vlog2 (t : ElemTy) (o : Op)
  | vtanh (t : ElemTy) (o : Op) | vsigm (t : ElemTy) (o : Op)
  | vand (u : VU) (o : Op) | vor (u : VU) (o : Op) | vxor (u : VU) (o : Op) | vandn (u : VU) (o : Op)
  | vnot (u : VU) (o : Op) | vsel (u : VU) (o : Op) | vmov (u : VU) (o : Op)
  | vmand (u : VU) (o : Op) | vmor (u : VU) (o : Op) | vmnot (u : VU) (o : Op)
  | vmpopc (u : VU) (o : Op) | vmfirst (u : VU) (o : Op)
  -- XN slot (R95)
  | xperm (o : Op) | xpermv (o : Op) | xrot (o : Op) | xrotDn (o : Op)
  | xzip (o : Op) | xzipHi (o : Op) | xunzip (o : Op) | xunzipOdd (o : Op)
  | xbnet (o : Op) | xbnld (o : Op) | xcmpr (o : Op) | xexpd (o : Op)
  | xbench (o : Op) | xdrain (o : Op) | xbcnt (o : Op) | xbclr (o : Op)
  | xred (t : ElemTy) (o : Op) | xscan (t : ElemTy) (o : Op)
  | xgmax (t : ElemTy) (o : Op) | xgmin (t : ElemTy) (o : Op)
  -- MX slot (R97)
  | mxcfg (o : Op) | mxzero (o : Op) | mxzeroAll (o : Op) | mxldb (o : Op) | mxopen (o : Op)
  | mxpush (o : Op) | mxpushz (o : Op) | mxshift (o : Op) | mxdrain (o : Op) | mxcommit (o : Op)
  | mxstage (o : Op) | mxscale (o : Op) | mxq (o : Op)
  -- engine events: `id` is the command's number on its core
  | engineCommandStart (k id : Nat)
  | copySectorDelivery (k id : Nat)
  | commandCompletion (k id : Nat)
  -- launches and lists
  | launchAccept (id : Nat)
  | taskCompletion (k : Nat)
  | listSubmit (j : Nat) (addr : Word)
  -- experts
  | expfAccept (k id : Nat)
  | ggemmWalk (k id : Nat)
  -- contexts
  | create (c : Nat)
  | suspend (c : Nat)
  | resume (c : Nat)
  | terminate (c : Nat)
  | invall (c : Nat)
  | llcWriteback (pa : Nat)
  -- repairs, Referee, ring
  | retireFrame (frame : Nat)
  | retireCore (k : Nat)
  | refereeConfigWrite (seed : Bool) (value : Word)
  | ringConfigWrite (size : Bool) (value : Word)
  | rlheadWrite (value : Word)
  -- host and peers
  | registerWrite (off size : Nat) (value : Word)
  | bpstart (value : Word)
  | bar2Read (pa n : Nat)
  | bar2Write (pa : Nat) (data : List Byte)
  | hostSnoop (hpa : Nat) (kind : Snoop)
  | peerIncomingAccess (acc : PeerAccess)
  -- HBM channels: q is the channel, gran the granule's physical address
  | retireChannel (q : Nat)
  -- flash: u is a unit, st a stack, b a physical block; `failed` says that a program or an erase fails (R437)
  | flashWrite (value : Word) (failed : Bool)
  | flashTrim (value : Word)
  | flashReloc (value : Word)
  | flashRetire (value : Word)
  -- platform
  | bootPhaseComplete (result : BootResult)
  | load (index : Nat) (key : BitVec 512)
  | clear (index : Nat)
  | mgmtResume (k : Nat)
  | mgmtTerminate (k : Nat)
  | softError (t : ErrTarget)
  -- events that only timing or a unit of its own brings about: the compiler builds no value of a constructor that comes
  -- after the 245th and has fields, and no definition of the model does
  | poolArbitration (k : Nat) (reqs : List PoolReq)
  | parityUpdate (k g : Nat)
  | parityRecompute (k g : Nat)
  | poolFreezeEnd (k : Nat)
  | bankRetirementStart (k g j : Nat)
  | bankRetirementComplete (k g : Nat)
  | rangeIterationBegin (k : Nat)
  | workRequest (k : Nat)
  | tileLaunchable (t : Nat)
  | gangDispatch (g : Nat)
  | launchCompletion (l : Nat)
  | tagPublication (p : Nat)
  | launch (j : Nat)
  | waitTokenWord (j : Nat)
  | waitTokenWordSatisfied (j : Nat)
  | publish (j : Nat)
  | condSkip (j : Nat)
  | jump (j : Nat)
  | listCall (j : Nat)
  | listReturn (j : Nat)
  | listEnd (j : Nat)
  | streamClear (j : Nat)
  | bullpenReadStart (h : Nat)
  | stagingComplete (h : Nat)
  | stagingFailure (h code : Nat)
  | deadlineMiss (h : Nat)
  | coreRetirementComplete (k : Nat)
  | refereeReplay (id core : Nat) (sig : Option Word)
  | refereeThirdReplay (id core : Nat) (sig : Option Word)
  | peerStoreNotPerformed (k id code : Nat)
  | portDown (p : Fin 4)
  | portUp (p : Fin 4)
  | hbmRd (q gran : Nat)
  | hbmWr (q gran : Nat) (data : BitVec 256)
  | hbmWrm (q gran : Nat) (byteMask : BitVec 32) (data : BitVec 256)
  | hbmReply (q tag : Nat)
  | channelDrainComplete
  | channelCopyComplete
  | flashPageRead (u page : Nat) (handle : Option Nat)
  | flashPageReadComplete (id : Nat) (result : FlashResult)
  | relocationSwitch (st b : Nat)
  | blockErase (st b : Nat) (failed : Bool)
  | deferredRelocationStart (st : Nat)
  | flcmdComplete
  | reset
  | getVersion
  | getCapabilities
  | negotiateAlgorithms
  | getDigests
  | getCertificate
  | challenge (nonce : BitVec 256)
  | getMeasurements (index : Nat)
  | keyExchange
  | finish
  | thermalThrottleDown (b : BlockId)
  | thermalThrottleUp (b : BlockId)
  | thermalClockStop (b : BlockId)
  | thermalClockRestart (b : BlockId)
  | droopStretch (b : BlockId)
  | peerStoreAcknowledged (k id : Nat)
  | hostLinkDown
  | hostLinkTrain
  deriving DecidableEq, Repr

end Sys2Proof
end

