-- ==== Sys2Proof/Machine/OpTable.lean ====
section
/-! DEFINITION. The opcode map (R83 to R98) as a table: for each slot operation its slot, opcode, operand classes, the
meaning of MOD and its latency class. Decoding, encoding, well-formedness and issue all read this one table. -/
namespace Sys2Proof

/-- Element type codes of R44. -/
def ElemTy.code : ElemTy → Nat
  | .i8 => 0 | .i16 => 1 | .i32 => 2 | .bf16 => 3 | .f16 => 4 | .f32 => 5 | .i4 => 6 | .i64 => 7

def ElemTy.ofCode : Nat → ElemTy
  | 0 => .i8 | 1 => .i16 | 2 => .i32 | 3 => .bf16 | 4 => .f16 | 5 => .f32 | 6 => .i4 | _ => .i64

/-- Element width in bits (R132). -/
def ElemTy.width : ElemTy → Nat
  | .i8 => 8 | .i16 => 16 | .i32 => 32 | .bf16 => 16 | .f16 => 16 | .f32 => 32 | .i4 => 4 | .i64 => 64

def ElemTy.isFloat : ElemTy → Bool
  | .bf16 => true | .f16 => true | .f32 => true | _ => false

/-- The type classes of R92. -/
inductive TyClass where
  | f | i | iF | i4i | i4iF | all | codes | byte
  deriving DecidableEq, Repr

def TyClass.has : TyClass → ElemTy → Bool
  | .f, t => t.isFloat
  | .i, t => !t.isFloat && t != .i4
  | .iF, t => t != .i4
  | .i4i, t => !t.isFloat
  | .i4iF, _ => true
  | .all, _ => true
  | .codes, t => t == .i8 || t == .i4
  | .byte, t => t == .i8

/-- The operand classes of R83, with the one-opcode narrowings of R85 to R97. -/
inductive OpClass where
  | none | sa | sx | sd | xs | vs | vd | vdxs | vr | vr4 | vm | vl | vld | ms | md | fs | fd | ad | ap | z
  | k (lo hi : Nat) | queue | cqOnly | zaccOnly
  deriving DecidableEq, Repr

/-- What MOD means for an operation (R84): nothing (must be 0), a free modifier, or the mnemonic's own value. -/
inductive ModUse where
  | none | any | is (b : Bool)
  deriving DecidableEq, Repr

/-- The latency class of R52 and R84. -/
inductive Lat where
  | cls (c : Nat) | var | none
  deriving DecidableEq, Repr

/-- One row of the opcode map. -/
structure Row where
  slot : Slot
  opc : Nat
  dst : OpClass
  op1 : OpClass
  op2 : OpClass
  op3 : OpClass
  mod : ModUse
  lat : Lat
  deriving DecidableEq, Repr

def VU.slot : VU → Slot
  | .a => .va | .b => .vb

def VU.unit : VU → LUnit
  | .a => .va | .b => .vb

/-- MOD is rounding for float types only (R84: "rnd (F)"). -/
def modF (t : ElemTy) : ModUse := if t.isFloat then .any else .none
/-- MOD is signedness for integer types only (R84: "U (I)"). -/
def modI (t : ElemTy) : ModUse := if t.isFloat then .none else .any

namespace Row
def br (opc : Nat) (d a b c : OpClass) (m : ModUse := .none) (l : Lat := .none) : Row := ⟨.br, opc, d, a, b, c, m, l⟩
def sc (opc : Nat) (d a b c : OpClass) (m : ModUse := .none) (l : Lat := .cls 0) : Row := ⟨.sc, opc, d, a, b, c, m, l⟩
def lm (opc : Nat) (d a b c : OpClass) (m : ModUse := .none) (l : Lat := .none) : Row := ⟨.lm, opc, d, a, b, c, m, l⟩
def ec (opc : Nat) (d a b c : OpClass) (m : ModUse := .none) (l : Lat := .none) : Row := ⟨.ec, opc, d, a, b, c, m, l⟩
def vx (u : VU) (base : Nat) (t : ElemTy) (d a b c : OpClass) (m : ModUse) (l : Nat) : Row :=
  ⟨u.slot, base + t.code, d, a, b, c, m, .cls l⟩
def vu (u : VU) (opc : Nat) (d a b c : OpClass) (l : Lat := .cls 2) : Row := ⟨u.slot, opc, d, a, b, c, .none, l⟩
def xn (opc : Nat) (d a b c : OpClass) (m : ModUse := .none) (l : Lat := .cls 4) : Row := ⟨.xn, opc, d, a, b, c, m, l⟩
def mx (opc : Nat) (d a b c : OpClass) (m : ModUse := .none) (l : Lat := .none) : Row := ⟨.mx, opc, d, a, b, c, m, l⟩
end Row

open OpClass in
/-- The row and the fields of a slot operation; none for NOP and for an event. -/
def Instr.info : Instr → Option (Row × Op)
  -- R85
  | .bra o => some (.br 0x01 none sa none none, o)
  | .brc o => some (.br 0x02 none sa sa none (.is false), o)
  | .brcZ o => some (.br 0x02 none sa sa none (.is true), o)
  | .brq o => some (.br 0x03 none cqOnly sa none (.is false), o)
  | .brqN o => some (.br 0x03 none cqOnly sa none (.is true), o)
  | .call o => some (.br 0x04 sd sa none none .none (.cls 0), o)
  | .ret o => some (.br 0x05 none sa none none, o)
  | .loop o => some (.br 0x06 none sa sa none, o)
  | .lbrk o => some (.br 0x07 none (k 1 6) none none, o)
  | .yield o => some (.br 0x08 none none none none, o)
  | .trap o => some (.br 0x09 none sa none none, o)
  | .tret o => some (.br 0x0A none none none none, o)
  | .twait o => some (.br 0x0B sd sa none none (.is false) (.cls 0), o)
  | .twaitAny o => some (.br 0x0B sd sa none none (.is true) (.cls 0), o)
  | .tstat o => some (.br 0x0C sd sa none none .none (.cls 0), o)
  | .fence o => some (.br 0x0D none (k 0 5) none none, o)
  | .bar o => some (.br 0x0E none (k 0 7) none none, o)
  | .bara o => some (.br 0x0F none (k 0 7) none none, o)
  | .halt o => some (.br 0x10 none none none none, o)
  | .exit o => some (.br 0x11 none none none none, o)
  | .mfsr o => some (.br 0x12 sd sa none none .none (.cls 0), o)
  | .mtsr o => some (.br 0x13 none sa sa none, o)
  | .bkpt o => some (.br 0x14 none none none none, o)
  | .icinv o => some (.br 0x15 none none none none, o)
  -- R86
  | .add o => some (.sc 0x01 sd sa sa none, o)
  | .sub o => some (.sc 0x02 sd sa sa none, o)
  | .mul o => some (.sc 0x03 sd sa sa none .none (.cls 1), o)
  | .mulh o => some (.sc 0x04 sd sa sa none .any (.cls 1), o)
  | .div o => some (.sc 0x05 sd sa sa none .any .var, o)
  | .rem o => some (.sc 0x06 sd sa sa none .any .var, o)
  | .and o => some (.sc 0x07 sd sa sa none, o)
  | .or o => some (.sc 0x08 sd sa sa none, o)
  | .xor o => some (.sc 0x09 sd sa sa none, o)
  | .andn o => some (.sc 0x0A sd sa sa none, o)
  | .shl o => some (.sc 0x0B sd sa sa none, o)
  | .shr o => some (.sc 0x0C sd sa sa none, o)
  | .sra o => some (.sc 0x0D sd sa sa none, o)
  | .rotl o => some (.sc 0x0E sd sa sa none, o)
  | .fshl o => some (.sc 0x0F sd sa sa sa, o)
  | .fshr o => some (.sc 0x10 sd sa sa sa, o)
  | .clz o => some (.sc 0x11 sd sa none none, o)
  | .ctz o => some (.sc 0x12 sd sa none none, o)
  | .popc o => some (.sc 0x13 sd sa none none, o)
  | .min o => some (.sc 0x14 sd sa sa none .any, o)
  | .max o => some (.sc 0x15 sd sa sa none .any, o)
  | .cmp o => some (.sc 0x16 fd sa sa (k 0 5), o)
  | .sel o => some (.sc 0x17 sd fs sa sa, o)
  | .mov o => some (.sc 0x18 sd sa none none, o)
  | .bfx o => some (.sc 0x19 sd sa sa sa .any, o)
  | .bfi o => some (.sc 0x1A sd sa sa sa, o)
  | .sext o => some (.sc 0x1B sd sa sa none, o)
  | .zext o => some (.sc 0x1C sd sa sa none, o)
  | .flagop o => some (.sc 0x1D fd fs fs (k 0 15), o)
  | .fadd o => some (.sc 0x20 sd sa sa none .any (.cls 1), o)
  | .fsub o => some (.sc 0x21 sd sa sa none .any (.cls 1), o)
  | .fmul o => some (.sc 0x22 sd sa sa none .any (.cls 1), o)
  | .ffma o => some (.sc 0x23 sd sa sa sa .any (.cls 1), o)
  | .fmin o => some (.sc 0x24 sd sa sa none, o)
  | .fmax o => some (.sc 0x25 sd sa sa none, o)
  | .fcmp o => some (.sc 0x26 fd sa sa (k 0 4), o)
  | .fcvt o => some (.sc 0x27 sd sa (k 0 11) (k 0 3) .none (.cls 1), o)
  | .icvt o => some (.sc 0x28 sd sa (k 3 5) (k 0 3) .any (.cls 1), o)
  | .apset o => some (.sc 0x30 ap sa sa sa, o)
  | .apget o => some (.sc 0x31 sd ap (k 0 2) none, o)
  -- R88
  | .ldv o => some (.lm 0x01 vld ad none none (.is false) (.cls 9), o)
  | .ldvt o => some (.lm 0x01 vld ad none none (.is true) (.cls 9), o)
  | .stv o => some (.lm 0x02 none ad vl none (.is false), o)
  | .stvt o => some (.lm 0x02 none ad vl none (.is true), o)
  | .ldvu o => some (.lm 0x03 vld ad none none .none (.cls 9), o)
  | .ldvm o => some (.lm 0x04 vld ad ms none .none (.cls 9), o)
  | .stvb o => some (.lm 0x05 none ad vl ms, o)
  | .ldm o => some (.lm 0x06 md ad none none .none (.cls 9), o)
  | .stm o => some (.lm 0x07 none ad ms none, o)
  | .lds o => some (.lm 0x08 sd ad (k 0 3) none .any (.cls 9), o)
  | .sts o => some (.lm 0x09 none ad sa (k 0 3), o)
  | .atoml o => some (.lm 0x0A sd ad sa (k 0 9) .any (.cls 9), o)
  | .casl o => some (.lm 0x0B sd ad sa sa .any (.cls 9), o)
  | .ldg o => some (.lm 0x10 sd sa (k 0 3) none .any .var, o)
  | .stg o => some (.lm 0x11 none sa sa (k 0 3), o)
  | .atomg o => some (.lm 0x12 sd sa sa (k 0 9) .any .var, o)
  | .casg o => some (.lm 0x13 sd sa sa sa .any .var, o)
  | .sinit o => some (.lm 0x18 none ad sa none, o)
  | .swait o => some (.lm 0x19 none ad sa none (.is false), o)
  | .swaitEmpty o => some (.lm 0x19 none ad sa none (.is true), o)
  | .swaitPtr o => some (.lm 0x1A none sa sa none, o)
  | .sarr o => some (.lm 0x1B none ad none none (.is false), o)
  | .sarrEmpty o => some (.lm 0x1B none ad none none (.is true), o)
  | .bankq o => some (.lm 0x20 sd sa none none .none (.cls 9), o)
  | .pldl o => some (.lm 0x21 none sa none none, o)
  | .flushl1 o => some (.lm 0x22 none none none none (.is false), o)
  | .flushl1Inv o => some (.lm 0x22 none none none none (.is true), o)
  -- R90
  | .cpy o => some (.ec 0x01 none sa sa none, o)
  | .cpyr o => some (.ec 0x02 none sa sa none, o)
  | .gath o => some (.ec 0x03 none sa sa none, o)
  | .scat o => some (.ec 0x04 none sa sa none, o)
  | .pfl o => some (.ec 0x05 none sa none none, o)
  | .coll o => some (.ec 0x06 none sa sa none, o)
  | .expf o => some (.ec 0x08 none sa sa none, o)
  | .expc o => some (.ec 0x09 none sa none none, o)
  | .whq o => some (.ec 0x0A sd sa none none .none .var, o)
  | .topki o => some (.ec 0x0B none sa sa sa, o)
  | .hpub o => some (.ec 0x0C none sa sa sa, o)
  | .htest o => some (.ec 0x0D sd sa sa none .none .var, o)
  | .lnch o => some (.ec 0x0E none sa sa none, o)
  | .ggemm o => some (.ec 0x0F none sa sa sa, o)
  | .invl o => some (.ec 0x10 none sa none none (.is false), o)
  | .invlAll o => some (.ec 0x10 none sa none none (.is true), o)
  | .flsh o => some (.ec 0x11 none (k 0 5) sa none, o)
  | .wptr o => some (.ec 0x12 sd sa none none .none .var, o)
  -- R92
  | .vadd u t o => some (.vx u 0x08 t vd vs vs none (modF t) 2, o)
  | .vsub u t o => some (.vx u 0x10 t vd vs vs none (modF t) 2, o)
  | .vmul u t o => some (.vx u 0x18 t vd vs vs none (modF t) 3, o)
  | .vmulh u t o => some (.vx u 0x20 t vd vs vs none .any 3, o)
  | .vfma u t o => some (.vx u 0x28 t vd vs vs vs (modF t) 3, o)
  | .vfms u t o => some (.vx u 0x30 t vd vs vs vs (modF t) 3, o)
  | .vfnma u t o => some (.vx u 0x38 t vd vs vs vs (modF t) 3, o)
  | .vmin u t o => some (.vx u 0x40 t vd vs vs none (modI t) 2, o)
  | .vmax u t o => some (.vx u 0x48 t vd vs vs none (modI t) 2, o)
  | .vabs u t o => some (.vx u 0x50 t vd vs none none (.is false) 2, o)
  | .vneg u t o => some (.vx u 0x50 t vd vs none none (.is true) 2, o)
  | .vadds u t o => some (.vx u 0x58 t vd vs vs none .any 2, o)
  | .vsubs u t o => some (.vx u 0x60 t vd vs vs none .any 2, o)
  | .vavg u t o => some (.vx u 0x68 t vd vs vs none .any 2, o)
  | .vcmp u t o => some (.vx u 0x70 t md vs vs (k 0 5) .none 2, o)
  | .vshl u t o => some (.vx u 0x78 t vd vs vs none .none 2, o)
  | .vshr u t o => some (.vx u 0x80 t vd vs vs none (.is false) 2, o)
  | .vsra u t o => some (.vx u 0x80 t vd vs vs none (.is true) 2, o)
  | .vfshl u t o => some (.vx u 0x88 t vd vs vs vs (.is false) 2, o)
  | .vfshr u t o => some (.vx u 0x88 t vd vs vs vs (.is true) 2, o)
  | .vclz u t o => some (.vx u 0x90 t vd vs none none (.is false) 2, o)
  | .vpopc u t o => some (.vx u 0x90 t vd vs none none (.is true) 2, o)
  | .vcvt u t o => some (.vx u 0x98 t vd vs (k 0 15) (k 0 3) (modI t) 2, o)
  | .vqnt u t o => some (.vx u 0xA0 t vd vs vs (k 0 3) .any 3, o)
  | .vdqnt u t o => some (.vx u 0xA8 t vd vs vs vs .any 3, o)
  | .vdot4 u t o => some (.vx u 0xB0 t vd vs vs vs .any 3, o)
  | .vbcst u t o => some (.vx u 0xB8 t vd vs sx none .none 2, o)
  | .viota u t o => some (.vx u 0xC0 t vd sx sx none .none 2, o)
  | .vdiv t o => some (⟨.vb, 0xC8 + t.code, vd, vs, vs, none, .any, .var⟩, o)
  | .vsqrt t o => some (⟨.vb, 0xD0 + t.code, vd, vs, none, none, .any, .var⟩, o)
  | .vrcp t o => some (.vx .b 0xD8 t vd vs none none (.is false) 10, o)
  | .vrsq t o => some (.vx .b 0xD8 t vd vs none none (.is true) 10, o)
  | .vexp2 t o => some (.vx .b 0xE0 t vd vs none none (.is false) 10, o)
  | .vlog2 t o => some (.vx .b 0xE0 t vd vs none none (.is true) 10, o)
  | .vtanh t o => some (.vx .b 0xE8 t vd vs none none (.is false) 10, o)
  | .vsigm t o => some (.vx .b 0xE8 t vd vs none none (.is true) 10, o)
  -- R93
  | .vand u o => some (.vu u 0xF0 vd vs vs none, o)
  | .vor u o => some (.vu u 0xF1 vd vs vs none, o)
  | .vxor u o => some (.vu u 0xF2 vd vs vs none, o)
  | .vandn u o => some (.vu u 0xF3 vd vs vs none, o)
  | .vnot u o => some (.vu u 0xF4 vd vs none none, o)
  | .vsel u o => some (.vu u 0xF5 vd ms vs vs, o)
  | .vmov u o => some (.vu u 0xF6 vd vs none none, o)
  | .vmand u o => some (.vu u 0xF8 md ms ms none, o)
  | .vmor u o => some (.vu u 0xF9 md ms ms none, o)
  | .vmnot u o => some (.vu u 0xFA md ms none none, o)
  | .vmpopc u o => some (.vu u 0xFB xs ms none none, o)
  | .vmfirst u o => some (.vu u 0xFC xs ms none none, o)
  -- R95
  | .xperm o => some (.xn 0x01 vd vs vs none, o)
  | .xpermv o => some (.xn 0x02 vd vs vs none, o)
  | .xrot o => some (.xn 0x03 vd vs sx none (.is false), o)
  | .xrotDn o => some (.xn 0x03 vd vs sx none (.is true), o)
  | .xzip o => some (.xn 0x04 vd vs vs none (.is false), o)
  | .xzipHi o => some (.xn 0x04 vd vs vs none (.is true), o)
  | .xunzip o => some (.xn 0x05 vd vs vs none (.is false), o)
  | .xunzipOdd o => some (.xn 0x05 vd vs vs none (.is true), o)
  | .xbnet o => some (.xn 0x06 vd vs vs (k 0 7) .none (.cls 5), o)
  | .xbnld o => some (.xn 0x07 none (k 0 7) sx vs .none .none, o)
  | .xcmpr o => some (.xn 0x08 vd vs ms none, o)
  | .xexpd o => some (.xn 0x09 vd vs ms none, o)
  | .xbench o => some (.xn 0x0A none queue ms vr4 .none .none, o)
  | .xdrain o => some (.xn 0x0B vr4 queue none none, o)
  | .xbcnt o => some (.xn 0x0C xs queue none none, o)
  | .xbclr o => some (.xn 0x0D none queue none none .none .none, o)
  | .xred t o => some (.xn (0x40 + t.code) vdxs vs (k 0 5) none (modI t) (.cls 6), o)
  | .xscan t o => some (.xn (0x48 + t.code) vd vs (k 0 5) none (modI t) (.cls 6), o)
  | .xgmax t o => some (.xn (0x50 + t.code) vd vs (k 0 6) none (modI t) (.cls 6), o)
  | .xgmin t o => some (.xn (0x58 + t.code) vd vs (k 0 6) none (modI t) (.cls 6), o)
  -- R97
  | .mxcfg o => some (.mx 0x01 none (k 0 5) none none, o)
  | .mxzero o => some (.mx 0x02 z none none none (.is false), o)
  | .mxzeroAll o => some (.mx 0x02 z none none none (.is true), o)
  | .mxldb o => some (.mx 0x03 none (if o.mod then ad else vm) sx none .any, o)
  | .mxopen o => some (.mx 0x04 z none none none, o)
  | .mxpush o => some (.mx 0x05 z vm none none .none (.cls 7), o)
  | .mxpushz o => some (.mx 0x06 z zaccOnly z sx .none (.cls 7), o)
  | .mxshift o => some (.mx 0x07 z none none none, o)
  | .mxdrain o => some (.mx 0x08 vr z sx none .none (.cls 8), o)
  | .mxcommit o => some (.mx 0x09 z none none none, o)
  | .mxstage o => some (.mx 0x0A none ad none none, o)
  | .mxscale o => some (.mx 0x0B none sx none none, o)
  | .mxq o => some (.mx 0x0C sd (k 0 3) none none .none .var, o)
  | _ => Option.none

/-- The types that R92 and R95 allow a typed operation; untyped operations always pass. -/
def Instr.typeOk : Instr → Bool
  | .vmul _ t _ | .vfma _ t _ | .vfms _ t _ | .vfnma _ t _ | .vabs _ t _ | .vneg _ t _ | .vcmp _ t _ => TyClass.iF.has t
  | .vmulh _ t _ | .vavg _ t _ | .vshl _ t _ | .vshr _ t _ | .vsra _ t _ | .vfshl _ t _ | .vfshr _ t _ | .vclz _ t _
  | .vpopc _ t _ | .viota _ t _ => TyClass.i.has t
  | .vadds _ t _ | .vsubs _ t _ => TyClass.i4i.has t
  | .vqnt _ t _ | .vdqnt _ t _ => TyClass.codes.has t
  | .vdot4 _ t _ => TyClass.byte.has t
  | .vdiv t _ | .vsqrt t _ | .vrcp t _ | .vrsq t _ | .vexp2 t _ | .vlog2 t _ | .vtanh t _ | .vsigm t _ => TyClass.f.has t
  | .xred t _ | .xscan t _ | .xgmax t _ | .xgmin t _ => TyClass.iF.has t
  | _ => true

/-- The sizes that bound register numbers (R12, R96), and what decode check 7 of R60 asks of the kernel and the bundle. -/
structure DecodeEnv where
  v : Nat
  t : Nat
  n : Nat
  pre : Bool
  rpt : Bool
  deriving DecidableEq, Repr

/-- The value of a short immediate port that a selector names (R83, class K). -/
def Port.kValue : Port → Option Nat
  | .short k => if 16 ≤ k.val then some (k.val - 16) else Option.none
  | _ => Option.none

/-- The scalar ports every slot reads (SX of R83). -/
def Port.isSx : Port → Bool
  | .s _ | .imm _ | .loop _ | .kid | .short _ => true
  | _ => false

/-- Port 0xFF as a destination: the latch file only (R49, R51). -/
def Port.isLatchOnly : Port → Bool
  | .short k => k.val == 31
  | _ => false

/-- May a field of this class in this slot hold this port (R49, R83, R12, R51, R96)? `var` says the operation is
variable-latency, for which DST 0xFF is illegal (R54). -/
def OpClass.legal (e : DecodeEnv) (sl : Slot) (var : Bool) (c : OpClass) (p : Port) : Bool :=
  match c, p with
  | .none, p => p == .s 0
  | .sa, .latch u _ => u == .sc
  | .sa, .eq _ => true
  | .sa, p => p.isSx
  | .sx, p => p.isSx
  | .sd, .s _ => true
  | .sd, .dq _ => sl == .sc || sl == .lm
  | .sd, p => sl == .sc && !var && p.isLatchOnly
  | .xs, .s _ | .xs, .eq _ | .xs, .cq => true
  | .xs, p => p.isLatchOnly
  | .vs, .v n => n.val < e.v
  | .vs, .dq _ | .vs, .lid => true
  | .vs, .latch u _ => u != .sc
  | .vs, p => p.isSx
  | .vd, .v n => n.val < e.v
  | .vd, .eq _ | .vd, .cq => true
  | .vd, p => !var && p.isLatchOnly
  | .vdxs, .v n => n.val < e.v
  | .vdxs, .s _ | .vdxs, .eq _ | .vdxs, .cq => true
  | .vdxs, p => p.isLatchOnly
  | .vr, .v n => n.val < e.v
  | .vr4, .v n => n.val + 3 < e.v
  | .vm, .v n => n.val < e.v
  | .vm, .dq _ => true
  | .vm, .latch u _ => u != .sc
  | .vl, .v n => n.val < e.v
  | .vl, .eq _ => true
  | .vld, .v n => n.val < e.v
  | .vld, .dq _ => true
  | .ms, .m _ => true
  | .md, .m n => n.val != 0
  | .fs, .f _ => true
  | .fd, .f n => n.val != 0
  | .ad, .ap _ | .ad, .s _ | .ad, .imm _ | .ad, .short _ => true
  | .ad, .latch u _ => u == .sc && sl == .lm
  | .ap, .ap _ => true
  | .z, .z n => n.val < e.t
  | .k lo hi, p => match p.kValue with
    | some x => lo ≤ x && x ≤ hi
    | Option.none => false
  | .queue, p => match p.kValue with
    | some x => x ≤ 3 && x < e.n
    | Option.none => false
  | .cqOnly, p => p == .cq
  | .zaccOnly, p => p == .zacc
  | _, _ => false

/-- The single-opcode selector rules of R89, R94 and R96: field 2 or 3 that fails, if any. -/
def Instr.selectorBad : Instr → Option Nat
  | .atoml o | .atomg o => if o.op3.kValue == some 9 && !o.mod then some 3 else Option.none
  | .vcmp _ t o => if t.isFloat && (o.op3.kValue == some 4 || o.op3.kValue == some 5) then some 3 else Option.none
  | .vcvt _ _ o => match o.op2.kValue with
    | some x => if 11 ≤ x && x ≤ 13 then some 2 else Option.none
    | Option.none => Option.none
  | .xred t o | .xscan t o => match o.op2.kValue with
    | some x => if t.isFloat && 3 ≤ x then some 2 else Option.none
    | Option.none => Option.none
  | _ => Option.none

/-- Decode check 7 of R60 on one operation: the cause, if it fails (R38, R91). -/
def Instr.scheduleBad (e : DecodeEnv) : Instr → Option Nat
  | .mxcfg _ | .mxopen _ | .mxcommit _ | .mxstage _ => if e.rpt then some 0x05 else Option.none
  | .cpyr _ => if e.pre then some 0x12 else Option.none
  | _ => Option.none

end Sys2Proof
end

