-- ==== Sys2Proof/WellFormed.lean ====
section
/-! DEFINITION. Well-formed instructions: a slot operation that R99 calls legal, an event whose names lie in range. -/
namespace Sys2Proof

/-- An E bit may be set only on a field the opcode uses (R48). -/
def eBitOk (c : OpClass) (e : Bool) : Bool := !(c == .none) || !e

/-- MOD fits its meaning (R48, R84). -/
def ModUse.ok : ModUse → Bool → Bool
  | .none, m => !m
  | .any, _ => true
  | .is b, m => m == b

/-- The fields of a slot operation fit its row. -/
def Row.fits (e : DecodeEnv) (r : Row) (o : Op) : Bool :=
  r.mod.ok o.mod && eBitOk r.op1 o.e1 && eBitOk r.op2 o.e2 && eBitOk r.op3 o.e3 &&
  r.dst.legal e r.slot (r.lat == .var) o.dst && r.op1.legal e r.slot false o.op1 &&
  r.op2.legal e r.slot false o.op2 && r.op3.legal e r.slot false o.op3

def inCores (k : Nat) : Bool := k < 4096

/-- Does a block have a clock of its own (R457)? Cores, clusters, LLC slices, HBM stacks and flash stacks do. -/
def blockExists (b : BlockId) : Bool :=
  match b.kind with
  | 0 => b.num < 4096
  | 1 => b.num < 256
  | 2 => b.num < 512
  | 3 => b.num < 12
  | 4 => b.num < 8
  | _ => false

/-- Does the part that an error strikes exist? -/
def targetExists (t : ErrTarget) : Bool :=
  match t with
  | .pool k _ _ | .libero k _ _ _ => inCores k
  | .slice pa => pa < Config.hbmBytes
  | .control n => n < 4
  | _ => true

/-- The names an event carries lie in the package (R1, R181, R333, R347, R363, R425, R436). -/
def Instr.eventOk : Instr → Bool
  | .bundleExecution k | .resultDelivery k | .variableResultWrite k _ | .accumulatorEventAct k | .bundleRetire k
  | .trapEntry k | .streamDeadlockTrap k | .taskDispatch k | .preemptAtPoint k | .preemptionLimitExpiry k
  | .forcedStop k | .forcedStopEscalation k | .saveComplete k | .taskRestore k _ | .poolArbitration k _
  | .poolFreezeEnd k | .engineCommandStart k _ | .copySectorDelivery k _ | .commandCompletion k _
  | .rangeIterationBegin k | .workRequest k | .taskCompletion k | .expfAccept k _ | .ggemmWalk k _ | .retireCore k
  | .coreRetirementComplete k | .peerStoreNotPerformed k _ _ | .mgmtResume k | .mgmtTerminate k
  | .peerStoreAcknowledged k _ => inCores k
  | .parityUpdate k g | .parityRecompute k g | .bankRetirementComplete k g => inCores k && g < 12
  | .bankRetirementStart k g j => inCores k && g < 12 && j < 8
  | .refereeReplay _ k _ | .refereeThirdReplay _ k _ => inCores k
  | .listSubmit j _ | .launch j | .waitTokenWord j | .waitTokenWordSatisfied j | .publish j | .condSkip j | .jump j
  | .listCall j | .listReturn j | .listEnd j | .streamClear j => j < 64
  | .bullpenReadStart h | .stagingComplete h | .stagingFailure h _ | .deadlineMiss h => h < 16384
  | .create c | .suspend c | .resume c | .terminate c | .invall c => c < 1024
  | .hbmRd q _ | .hbmWr q _ _ | .hbmWrm q _ _ _ | .hbmReply q _ | .retireChannel q => q < Config.hbmChannels
  | .flashPageRead _ p _ => p < 4
  | .relocationSwitch st b | .blockErase st b _ => st < 8 && b < 2 ^ 20
  | .deferredRelocationStart st => st < 8
  | .load i _ | .clear i => i < 4096
  | .llcWriteback pa => pa < Config.hbmBytes
  | .retireFrame f => 65536 * f < Config.hbmBytes
  | .thermalThrottleDown b | .thermalThrottleUp b | .thermalClockStop b | .thermalClockRestart b | .droopStretch b => blockExists b
  | .softError t => targetExists t
  | _ => true

/-- A well-formed instruction: legal in every check of R60 that does not depend on the bundle's repeat. -/
def Instr.wf (e : DecodeEnv) (i : Instr) : Bool :=
  match i.info with
  | some (r, o) => r.fits e o && i.typeOk && i.selectorBad == none
  | none => i.eventOk

end Sys2Proof
end

