-- ==== Sys2Proof/Decode.lean ====
section
/-! DEFINITION. Decoding a bundle (R34 to R60) and, after it, encoding. Decoding is total: it gives the operations or the
first failing check of R60 by cause and trapinfo. -/
namespace Sys2Proof

/-! ## Ports (R49) -/

/-- The port a port number names; none for a reserved number (R49). -/
def Port.ofNat (n : Nat) : Option Port :=
  if n < 0x40 then some (.s (Fin.ofNat 64 n))
  else if n < 0x80 then some (.v (Fin.ofNat 64 n))
  else if n < 0x88 then some (.m (Fin.ofNat 8 n))
  else if n < 0x8C then some (.dq (Fin.ofNat 4 n))
  else if n < 0x8E then some (.eq (Fin.ofNat 2 n))
  else if n = 0x8E then some .cq
  else if n = 0x8F then some .zacc
  else if n < 0x94 then some (.latch .sc (Fin.ofNat 4 n))
  else if n < 0x98 then some (.latch .va (Fin.ofNat 4 n))
  else if n < 0x9C then some (.latch .vb (Fin.ofNat 4 n))
  else if n < 0xA0 then some (.latch .xn (Fin.ofNat 4 n))
  else if n = 0xA0 then some (.imm .full)
  else if n = 0xA1 then some (.imm .lo)
  else if n = 0xA2 then some (.imm .hi)
  else if n = 0xA3 then some (.imm .loz)
  else if n < 0xA8 then none
  else if n < 0xAE then some (.loop (Fin.ofNat 6 (n - 0xA8)))
  else if n = 0xAE then some .lid
  else if n = 0xAF then some .kid
  else if n < 0xB8 then some (.ap (Fin.ofNat 8 n))
  else if n < 0xC0 then some (.z (Fin.ofNat 8 n))
  else if n < 0xC8 then some (.f (Fin.ofNat 8 n))
  else if n < 0xE0 then none
  else if n < 0x100 then some (.short (Fin.ofNat 32 n))
  else none

/-- The number of a port (R49). -/
def Port.toNat : Port → Nat
  | .s n => n.val
  | .v n => 0x40 + n.val
  | .m n => 0x80 + n.val
  | .dq n => 0x88 + n.val
  | .eq n => 0x8C + n.val
  | .cq => 0x8E
  | .zacc => 0x8F
  | .latch .sc a => 0x90 + a.val
  | .latch .va a => 0x94 + a.val
  | .latch .vb a => 0x98 + a.val
  | .latch .xn a => 0x9C + a.val
  | .imm .full => 0xA0
  | .imm .lo => 0xA1
  | .imm .hi => 0xA2
  | .imm .loz => 0xA3
  | .loop k => 0xA8 + k.val
  | .lid => 0xAE
  | .kid => 0xAF
  | .ap n => 0xB0 + n.val
  | .z n => 0xB8 + n.val
  | .f n => 0xC0 + n.val
  | .short k => 0xE0 + k.val

/-! ## Opcodes -/

/-- BR opcodes (R85). -/
def brOp (m : Bool) (o : Op) : Nat → Option Instr
  | 0x01 => some (.bra o)
  | 0x02 => some (if m then .brcZ o else .brc o)
  | 0x03 => some (if m then .brqN o else .brq o)
  | 0x04 => some (.call o)
  | 0x05 => some (.ret o)
  | 0x06 => some (.loop o)
  | 0x07 => some (.lbrk o)
  | 0x08 => some (.yield o)
  | 0x09 => some (.trap o)
  | 0x0A => some (.tret o)
  | 0x0B => some (if m then .twaitAny o else .twait o)
  | 0x0C => some (.tstat o)
  | 0x0D => some (.fence o)
  | 0x0E => some (.bar o)
  | 0x0F => some (.bara o)
  | 0x10 => some (.halt o)
  | 0x11 => some (.exit o)
  | 0x12 => some (.mfsr o)
  | 0x13 => some (.mtsr o)
  | 0x14 => some (.bkpt o)
  | 0x15 => some (.icinv o)
  | _ => none

/-- SC opcodes (R86). -/
def scOp (o : Op) : Nat → Option Instr
  | 0x01 => some (.add o)
  | 0x02 => some (.sub o)
  | 0x03 => some (.mul o)
  | 0x04 => some (.mulh o)
  | 0x05 => some (.div o)
  | 0x06 => some (.rem o)
  | 0x07 => some (.and o)
  | 0x08 => some (.or o)
  | 0x09 => some (.xor o)
  | 0x0A => some (.andn o)
  | 0x0B => some (.shl o)
  | 0x0C => some (.shr o)
  | 0x0D => some (.sra o)
  | 0x0E => some (.rotl o)
  | 0x0F => some (.fshl o)
  | 0x10 => some (.fshr o)
  | 0x11 => some (.clz o)
  | 0x12 => some (.ctz o)
  | 0x13 => some (.popc o)
  | 0x14 => some (.min o)
  | 0x15 => some (.max o)
  | 0x16 => some (.cmp o)
  | 0x17 => some (.sel o)
  | 0x18 => some (.mov o)
  | 0x19 => some (.bfx o)
  | 0x1A => some (.bfi o)
  | 0x1B => some (.sext o)
  | 0x1C => some (.zext o)
  | 0x1D => some (.flagop o)
  | 0x20 => some (.fadd o)
  | 0x21 => some (.fsub o)
  | 0x22 => some (.fmul o)
  | 0x23 => some (.ffma o)
  | 0x24 => some (.fmin o)
  | 0x25 => some (.fmax o)
  | 0x26 => some (.fcmp o)
  | 0x27 => some (.fcvt o)
  | 0x28 => some (.icvt o)
  | 0x30 => some (.apset o)
  | 0x31 => some (.apget o)
  | _ => none

/-- LM opcodes (R88). -/
def lmOp (m : Bool) (o : Op) : Nat → Option Instr
  | 0x01 => some (if m then .ldvt o else .ldv o)
  | 0x02 => some (if m then .stvt o else .stv o)
  | 0x03 => some (.ldvu o)
  | 0x04 => some (.ldvm o)
  | 0x05 => some (.stvb o)
  | 0x06 => some (.ldm o)
  | 0x07 => some (.stm o)
  | 0x08 => some (.lds o)
  | 0x09 => some (.sts o)
  | 0x0A => some (.atoml o)
  | 0x0B => some (.casl o)
  | 0x10 => some (.ldg o)
  | 0x11 => some (.stg o)
  | 0x12 => some (.atomg o)
  | 0x13 => some (.casg o)
  | 0x18 => some (.sinit o)
  | 0x19 => some (if m then .swaitEmpty o else .swait o)
  | 0x1A => some (.swaitPtr o)
  | 0x1B => some (if m then .sarrEmpty o else .sarr o)
  | 0x20 => some (.bankq o)
  | 0x21 => some (.pldl o)
  | 0x22 => some (if m then .flushl1Inv o else .flushl1 o)
  | _ => none

/-- EC opcodes (R90). -/
def ecOp (m : Bool) (o : Op) : Nat → Option Instr
  | 0x01 => some (.cpy o)
  | 0x02 => some (.cpyr o)
  | 0x03 => some (.gath o)
  | 0x04 => some (.scat o)
  | 0x05 => some (.pfl o)
  | 0x06 => some (.coll o)
  | 0x08 => some (.expf o)
  | 0x09 => some (.expc o)
  | 0x0A => some (.whq o)
  | 0x0B => some (.topki o)
  | 0x0C => some (.hpub o)
  | 0x0D => some (.htest o)
  | 0x0E => some (.lnch o)
  | 0x0F => some (.ggemm o)
  | 0x10 => some (if m then .invlAll o else .invl o)
  | 0x11 => some (.flsh o)
  | 0x12 => some (.wptr o)
  | _ => none

/-- Typed operations of both vector slots, by OPC base (R92). -/
def vecTyped (u : VU) (t : ElemTy) (m : Bool) (o : Op) : Nat → Option Instr
  | 0x08 => some (.vadd u t o)
  | 0x10 => some (.vsub u t o)
  | 0x18 => some (.vmul u t o)
  | 0x20 => some (.vmulh u t o)
  | 0x28 => some (.vfma u t o)
  | 0x30 => some (.vfms u t o)
  | 0x38 => some (.vfnma u t o)
  | 0x40 => some (.vmin u t o)
  | 0x48 => some (.vmax u t o)
  | 0x50 => some (if m then .vneg u t o else .vabs u t o)
  | 0x58 => some (.vadds u t o)
  | 0x60 => some (.vsubs u t o)
  | 0x68 => some (.vavg u t o)
  | 0x70 => some (.vcmp u t o)
  | 0x78 => some (.vshl u t o)
  | 0x80 => some (if m then .vsra u t o else .vshr u t o)
  | 0x88 => some (if m then .vfshr u t o else .vfshl u t o)
  | 0x90 => some (if m then .vpopc u t o else .vclz u t o)
  | 0x98 => some (.vcvt u t o)
  | 0xA0 => some (.vqnt u t o)
  | 0xA8 => some (.vdqnt u t o)
  | 0xB0 => some (.vdot4 u t o)
  | 0xB8 => some (.vbcst u t o)
  | 0xC0 => some (.viota u t o)
  | _ => none

/-- Operations of VB alone, by OPC base (R92). -/
def vbTyped (t : ElemTy) (m : Bool) (o : Op) : Nat → Option Instr
  | 0xC8 => some (.vdiv t o)
  | 0xD0 => some (.vsqrt t o)
  | 0xD8 => some (if m then .vrsq t o else .vrcp t o)
  | 0xE0 => some (if m then .vlog2 t o else .vexp2 t o)
  | 0xE8 => some (if m then .vsigm t o else .vtanh t o)
  | _ => none

/-- Untyped operations of both vector slots (R93). -/
def vecUntyped (u : VU) (o : Op) : Nat → Option Instr
  | 0xF0 => some (.vand u o)
  | 0xF1 => some (.vor u o)
  | 0xF2 => some (.vxor u o)
  | 0xF3 => some (.vandn u o)
  | 0xF4 => some (.vnot u o)
  | 0xF5 => some (.vsel u o)
  | 0xF6 => some (.vmov u o)
  | 0xF8 => some (.vmand u o)
  | 0xF9 => some (.vmor u o)
  | 0xFA => some (.vmnot u o)
  | 0xFB => some (.vmpopc u o)
  | 0xFC => some (.vmfirst u o)
  | _ => none

/-- Untyped XN opcodes (R95). -/
def xnUntyped (m : Bool) (o : Op) : Nat → Option Instr
  | 0x01 => some (.xperm o)
  | 0x02 => some (.xpermv o)
  | 0x03 => some (if m then .xrotDn o else .xrot o)
  | 0x04 => some (if m then .xzipHi o else .xzip o)
  | 0x05 => some (if m then .xunzipOdd o else .xunzip o)
  | 0x06 => some (.xbnet o)
  | 0x07 => some (.xbnld o)
  | 0x08 => some (.xcmpr o)
  | 0x09 => some (.xexpd o)
  | 0x0A => some (.xbench o)
  | 0x0B => some (.xdrain o)
  | 0x0C => some (.xbcnt o)
  | 0x0D => some (.xbclr o)
  | _ => none

/-- Typed XN operations, by OPC base (R95). -/
def xnTyped (t : ElemTy) (o : Op) : Nat → Option Instr
  | 0x40 => some (.xred t o)
  | 0x48 => some (.xscan t o)
  | 0x50 => some (.xgmax t o)
  | 0x58 => some (.xgmin t o)
  | _ => none

/-- MX opcodes (R97). -/
def mxOp (m : Bool) (o : Op) : Nat → Option Instr
  | 0x01 => some (.mxcfg o)
  | 0x02 => some (if m then .mxzeroAll o else .mxzero o)
  | 0x03 => some (.mxldb o)
  | 0x04 => some (.mxopen o)
  | 0x05 => some (.mxpush o)
  | 0x06 => some (.mxpushz o)
  | 0x07 => some (.mxshift o)
  | 0x08 => some (.mxdrain o)
  | 0x09 => some (.mxcommit o)
  | 0x0A => some (.mxstage o)
  | 0x0B => some (.mxscale o)
  | 0x0C => some (.mxq o)
  | _ => none

/-- The operation an opcode names in a slot; none is check 4 of R60. -/
def ctorOf (sl : Slot) (opc : Nat) (m : Bool) (o : Op) : Option Instr :=
  let vec (u : VU) : Option Instr :=
    if opc < 8 then none
    else if opc < 0xF0 then
      match vecTyped u (ElemTy.ofCode (opc % 8)) m o (opc / 8 * 8) with
      | some i => some i
      | none => if u = .b then vbTyped (ElemTy.ofCode (opc % 8)) m o (opc / 8 * 8) else none
    else vecUntyped u o opc
  let found := match sl with
    | .br => brOp m o opc
    | .sc => scOp o opc
    | .lm => lmOp m o opc
    | .ec => ecOp m o opc
    | .va => vec .a
    | .vb => vec .b
    | .xn => if opc < 0x40 then xnUntyped m o opc else xnTyped (ElemTy.ofCode (opc % 8)) o (opc / 8 * 8)
    | .mx => mxOp m o opc
  match found with
  | some i => if i.typeOk then some i else none
  | none => none

/-! ## Slot operations (R44) -/

/-- A failing decode check: the trap cause and the low bits of sr.trapinfo (R60, R285). -/
structure DecodeFail where
  cause : Nat
  info : Nat
  deriving DecidableEq, Repr

/-- The raw fields of a 48-bit slot operation (R44). -/
structure RawOp where
  opc : Nat
  gf : Nat
  gn : Bool
  dst : Nat
  op1 : Nat
  op2 : Nat
  op3 : Nat
  e1 : Bool
  e2 : Bool
  e3 : Bool
  mod : Bool
  deriving DecidableEq, Repr

def RawOp.of (w : Nat) : RawOp :=
  { opc := bits w 47 40, gf := bits w 39 37, gn := bitAt w 36, dst := bits w 35 28, op1 := bits w 27 20,
    op2 := bits w 19 12, op3 := bits w 11 4, e1 := bitAt w 3, e2 := bitAt w 2, e3 := bitAt w 1, mod := bitAt w 0 }

/-- The operation with no operand, used to look a row up before the ports are known. -/
def Op.blank (m : Bool) : Op := ⟨0, false, .s 0, .s 0, .s 0, .s 0, false, false, false, m⟩

/-- Check 5 of R60: an unused field, E bit or MOD that is not zero (R48). -/
def RawOp.reservedBad (r : Row) (x : RawOp) : Bool :=
  (r.dst == .none && x.dst != 0) || (r.op1 == .none && (x.op1 != 0 || x.e1)) || (r.op2 == .none && (x.op2 != 0 || x.e2)) ||
  (r.op3 == .none && (x.op3 != 0 || x.e3)) || !(r.mod.ok x.mod)

/-- One field of check 6: its port, or the failure with the field's number (R60). -/
def checkField (e : DecodeEnv) (sl : Slot) (var : Bool) (c : OpClass) (field n : Nat) : Except DecodeFail Port :=
  match Port.ofNat n with
  | some p => if c.legal e sl var p then .ok p else .error ⟨0x04, field * 256 + n⟩
  | none => .error ⟨0x04, field * 256 + n⟩

/-- A selector in field 2 that its opcode does not allow fails before field 3 is looked at (R60, R94). -/
def checkSelector2 (sl : Slot) (x : RawOp) (op2 : Port) : Except DecodeFail Unit :=
  match (ctorOf sl x.opc x.mod { Op.blank x.mod with op2 := op2 }).bind Instr.selectorBad with
  | some 2 => .error ⟨0x04, 2 * 256 + x.op2⟩
  | _ => .ok ()

/-- Decode checks 4 to 7 of R60 on one slot operation. -/
def decodeSlot (e : DecodeEnv) (sl : Slot) (w : Nat) : Except DecodeFail Instr :=
  let x := RawOp.of w
  if x.opc = 0 then (if w % 2 ^ 48 = 0 then .ok (.nop sl) else .error ⟨0x02, w⟩)
  else match ctorOf sl x.opc x.mod (Op.blank x.mod) with
    | none => .error ⟨0x03, w⟩
    | some i0 => match i0.info with
      | none => .error ⟨0x03, w⟩
      | some (r, _) =>
        if x.reservedBad r then .error ⟨0x02, w⟩
        else do
          let dst ← checkField e sl (r.lat == .var) r.dst 0 x.dst
          let op1 ← checkField e sl false r.op1 1 x.op1
          let op2 ← checkField e sl false r.op2 2 x.op2
          checkSelector2 sl x op2
          let op3 ← checkField e sl false r.op3 3 x.op3
          let o : Op := ⟨Fin.ofNat 8 x.gf, x.gn, dst, op1, op2, op3, x.e1, x.e2, x.e3, x.mod⟩
          match ctorOf sl x.opc x.mod o with
          | none => .error ⟨0x03, w⟩
          | some i =>
            match i.selectorBad with
            | some f => .error ⟨0x04, f * 256 + (if f = 2 then x.op2 else x.op3)⟩
            | none =>
              match i.scheduleBad e with
              | some c => .error ⟨c, w⟩
              | none => .ok i

/-! ## Bundles (R34, R36) -/

/-- The header of a bundle (R36). -/
structure Header where
  imm : Word
  brk : Bool
  tsel : Nat
  tokc : List Nat
  tokp : Nat
  rstep : Nat
  rpt : Nat
  sync : Nat
  deriving DecidableEq, Repr

/-- A decoded bundle: header and the eight slot operations in slot order, each with its word. -/
structure Bundle where
  hdr : Header
  ops : List Instr
  words : List Nat
  deriving DecidableEq, Repr

def Header.of (w : Nat) : Header :=
  { imm := BitVec.ofNat 64 (bits w 127 64), brk := bitAt w 49, tsel := bits w 48 46,
    tokc := [bits w 35 31, bits w 40 36, bits w 45 41], tokp := bits w 30 26, rstep := bits w 25 18,
    rpt := bits w 17 12, sync := bits w 11 4 }

def Slot.all : List Slot := [.br, .sc, .lm, .ec, .va, .vb, .xn, .mx]

/-- The word of slot k of a bundle (R34). -/
def slotWord (w : Nat) (k : Nat) : Nat := bits w (128 + 48 * k + 47) (128 + 48 * k)

/-- A decode failure of a bundle: cause, HDR, SLOT and trapinfo (R60). -/
structure BundleFail where
  cause : Nat
  hdr : Bool
  slot : Nat
  info : Nat
  deriving DecidableEq, Repr

/-- Checks 4 to 7 for each slot in rising order (R60). -/
def decodeSlots (e : DecodeEnv) (w : Nat) : List Slot → Except BundleFail (List Instr)
  | [] => .ok []
  | sl :: rest => match decodeSlot e sl (slotWord w sl.num) with
    | .error f => .error ⟨f.cause, false, sl.num, f.info⟩
    | .ok i => match decodeSlots e w rest with
      | .error f => .error f
      | .ok is => .ok (i :: is)

/-- Checks 1 and 2 of R60 on the header. -/
def decodeHeader (w : Nat) : Except BundleFail Header :=
  if bits w 3 0 ≠ 0xA then .error ⟨0x01, true, 0, w % 2 ^ 64⟩
  else if bits w 63 50 ≠ 0 then .error ⟨0x02, true, 0, w % 2 ^ 64⟩
  else .ok (Header.of w)

/-- Decode a 512-bit bundle; `brkExempt` says that R42 exempts it from its BRK bit. -/
def decodeBundle (e : DecodeEnv) (brkExempt : Bool) (w : Nat) : Except BundleFail Bundle :=
  match decodeHeader w with
  | .error f => .error f
  | .ok h =>
    if h.brk && !brkExempt then .error ⟨0x13, true, 0, 0⟩
    else match decodeSlots { e with rpt := h.rpt != 0 } w Slot.all with
      | .error f => .error f
      | .ok ops => .ok ⟨h, ops, Slot.all.map fun sl => slotWord w sl.num⟩

/-! ## Bytes (R5, R35) -/

/-- The little-endian value of a list of bytes, the first byte lowest. -/
def leValue : List Byte → Nat
  | [] => 0
  | b :: bs => b.toNat + 256 * leValue bs

/-- The n bytes of a value, the lowest first. -/
def leBytes : Nat → Nat → List Byte
  | 0, _ => []
  | n + 1, x => BitVec.ofNat 8 x :: leBytes n (x / 256)

/-! ## Encoding -/

def b2n (b : Bool) : Nat := if b then 1 else 0

/-- The 48-bit word of fields and an opcode (R44). -/
def encodeOp (opc : Nat) (o : Op) : Nat :=
  b2n o.mod + 2 * b2n o.e3 + 4 * b2n o.e2 + 8 * b2n o.e1 + 2 ^ 4 * o.op3.toNat + 2 ^ 12 * o.op2.toNat +
  2 ^ 20 * o.op1.toNat + 2 ^ 28 * o.dst.toNat + 2 ^ 36 * b2n o.gn + 2 ^ 37 * o.gf.val + 2 ^ 40 * opc

/-- The slot and the 48-bit word of a slot operation; none for an event, which has no encoding. -/
def encode (i : Instr) : Option (Slot × Nat) :=
  match i with
  | .nop sl => some (sl, 0)
  | i => match i.info with
    | some (r, o) => some (r.slot, encodeOp r.opc o)
    | none => none

/-- The header's 128 bits (R36). -/
def encodeHeader (h : Header) : Nat :=
  0xA + 2 ^ 4 * h.sync + 2 ^ 12 * h.rpt + 2 ^ 18 * h.rstep + 2 ^ 26 * h.tokp + 2 ^ 31 * h.tokc.getD 0 0 +
  2 ^ 36 * h.tokc.getD 1 0 + 2 ^ 41 * h.tokc.getD 2 0 + 2 ^ 46 * h.tsel + 2 ^ 49 * b2n h.brk + 2 ^ 64 * h.imm.toNat

def Header.plain : Header := ⟨0, false, 0, [0, 0, 0], 0, 0, 0, 0⟩

/-- A bundle that holds one slot operation and NOPs, with a plain header. -/
def bundleWith (sl : Slot) (w : Nat) : Nat := encodeHeader Header.plain + 2 ^ (128 + 48 * sl.num) * w

/-! ## The host's word -/

/-- The widest environment: every register a partition can give (R21). -/
def DecodeEnv.widest : DecodeEnv := ⟨64, 8, 4, false, false⟩

/-- An instruction from its bits. The table gives no row any bits, so this fixes how they are laid out: a word of more
than 56 bits is a bundle (R34), whose first operation that is not NOP is answered; otherwise bits [47:0] are the slot operation and
bits [55:48] its slot's number (log 1). -/
def decodeTableWord (nbits w : Nat) : Option Instr :=
  if 56 < nbits then
    match decodeBundle DecodeEnv.widest true w with
    | .ok b => (b.ops.filter fun i => i.info.isSome).head?
    | .error _ => none
  else match Slot.all[w / 2 ^ 48]? with
    | some sl => match decodeSlot DecodeEnv.widest sl (w % 2 ^ 48) with
      | .ok i => some i
      | .error _ => none
    | none => none

end Sys2Proof
end

