-- ==== Sys2Proof/Machine/CoreState.lean ====
section
/-! DEFINITION. The state of one sequencer core (R11 to R33, R41, R173, R177, R194, R222, R236, R255) as plain data. -/
namespace Sys2Proof.Machine

/-- Bytes by address: addresses strictly rising, no entry zero; an unlisted byte reads zero. -/
abbrev Mem := List Host.Cell

/-- A value with the width it was produced in (R15, R16): a vector of 2048 bits, or a scalar in bits [63:0]. -/
structure Val where
  bits : Vec
  wide : Bool
  deriving DecidableEq, Repr

/-- Where a result goes (R134, R206). -/
inductive Dest where
  | none
  | s (n : Nat) | v (n : Nat) | m (n : Nat) | f (n : Nat) | ap (n : Nat)
  | dq (n : Nat) | eq (n : Nat) | cq
  /-- The entry of queue dq n that is reserved under a number (R212). -/
  | entry (n id : Nat)
  deriving DecidableEq, Repr

/-- A queue entry (R15) with the issue step of its producer (R238, R239); a generic load, and a push issued before it that is
not yet delivered, reserve their entries under a number (R212). -/
structure QEntry where
  val : Val
  issue : Nat
  reserved : Option Nat
  deriving DecidableEq, Repr

/-- An issued fixed-latency result (R52): delivery step, issue step, producing slot, destination, value, the latch file it
enters and what it enters there, token it completes (0 for none). -/
structure Pending where
  due : Nat
  issue : Nat
  slot : Nat
  dst : Dest
  val : Val
  latch : Option (LUnit × Val)
  tok : Nat
  deriving DecidableEq, Repr

/-- What a variable-latency operation writes (R54): a value fixed at its issue, the old value of a generic atomic, which is
delivered when its bundle retires (R281), or a sample taken when it is served. -/
inductive VarKind where
  | value (w : Val)
  | held (w : Val)
  | whq (h : Nat)
  | htest (tag : Word) (gen : Nat)
  | wptr (ch : Nat)
  deriving DecidableEq, Repr

/-- An outstanding variable-latency write (R54, R277). Its destination register is empty until it is written (R14). -/
structure VarRes where
  id : Nat
  issue : Nat
  slot : Nat
  dst : Dest
  kind : VarKind
  tok : Nat
  deriving DecidableEq, Repr

/-- A level of the loop stack (R17). -/
structure Level where
  start : Word
  fin : Word
  count : BitVec 32
  index : BitVec 32
  deriving DecidableEq, Repr

/-- The four latch files, newest result first (R16). -/
structure Latches where
  sc : List Val
  va : List Val
  vb : List Val
  xn : List Val
  deriving DecidableEq, Repr

/-- An accumulator tile (R20): two halves of 64 rows, which half is committed, and its kind (R222). -/
structure Tile where
  half0 : Vector Vec 64
  half1 : Vector Vec 64
  commit1 : Bool
  int : Bool
  deriving DecidableEq, Repr

/-- A bench queue (R177): head, and the entries present from the head on. -/
structure Bench where
  head : Nat
  entries : List (BitVec 128)
  deriving DecidableEq, Repr

/-- The state of a token (R41). -/
inductive Token where
  | complete | pending | failed
  deriving DecidableEq, Repr

/-- The breakpoint exemption of R42: of no bundle, of the one that a TRET resumes, or of every bundle of the region it opens. -/
inductive BrkExempt where
  | none | next | region
  deriving DecidableEq, Repr

/-- A stage binding (R241): offset, FGEN, EPH. -/
structure Binding where
  off : Nat
  fgen : Nat
  eph : Bool
  deriving DecidableEq, Repr

/-- An item of a region log (R422): its kind, buffer, row, payload length in bytes and payload. -/
structure LogItem where
  item : Nat
  buffer : Nat
  row : Nat
  len : Nat
  payload : Nat
  deriving DecidableEq, Repr

/-- A complete region log (R422): source core, pair, tile kind, strictness, factor, source signature, items. -/
structure AuditLog where
  core : Nat
  pair : Nat
  int : Bool
  strict : Bool
  factor : BitVec 32
  sig : Word
  items : List LogItem
  deriving DecidableEq, Repr

/-- A region record (R236): tile, address and step of the MXOPEN bundle, loop stack, row cursor, active buffer, the
bindings made since, and the region log if R421 selected the region. -/
structure Region where
  tile : Nat
  pc : Word
  openStep : Nat
  loops : List Level
  rc : Nat
  active : Bool
  bindings : List Binding
  log : Option (List LogItem)
  deriving DecidableEq, Repr

/-- What an accumulator event does when it acts (R225). A push adds its terms to the cells of its row one after the
other: one exact sum for an integer pair, four octets for R80, a term for each completed group for R81. -/
inductive AccAct where
  | opens
  | push (row : Nat) (int : Bool) (terms : List Vec)
  | zero
  | zeroAll (int : Bool)
  | commit (bindings : List Binding) (log : Option (List LogItem)) (pair : Nat)
  deriving DecidableEq, Repr

structure AccEvent where
  due : Nat
  tile : Nat
  act : AccAct
  inRegion : Bool
  tok : Nat
  deriving DecidableEq, Repr

/-- A B buffer (R222): 128 rows of 128 bytes and the metadata rows 64 and 65 of 256 bytes. -/
structure BBuf where
  rows : Vector (BitVec 1024) 128
  scales : Vec
  zeros : Vec
  deriving DecidableEq, Repr

/-- The matrix array of a core besides its tiles (R222). `pair` 15 is none (R98). -/
structure MxArray where
  pair : Nat
  buf0 : BBuf
  buf1 : BBuf
  active : Bool
  rc : Vector Nat 8
  carry : List (Nat × Vec × Vec)
  factor : BitVec 32
  events : List AccEvent
  region : Option Region
  abandoned : Option Region
  deriving DecidableEq, Repr

/-- The kind of an engine command (R90). -/
inductive CmdKind where
  | cpy | cpyr | gath | scat | pfl | coll | expf | expc | topki | hpub | lnch | ggemm | invl | invlAll | flsh
  deriving DecidableEq, Repr

/-- Life of an engine command: held until its bundle retires (`cancelled`: held while its channel halted, R255), queued,
started, or done with a code and detail and only its completion outstanding (R244, R249). -/
inductive CmdPhase where
  | held | cancelled (code detail : Nat) | queued | started | done (code detail : Nat)
  deriving DecidableEq, Repr

/-- An aligned 8-byte unit of its source as a copy has read it (R245): pointer div 8, the place of its first byte (pool 0 with its core,
or memory 1 with its kind, or another package 2), and its value. -/
structure SrcUnit where
  ptr : Nat
  spot : Nat × Nat × Nat
  val : Word
  deriving DecidableEq, Repr

/-- An engine command (R244 to R271): operand words, completion word, descriptor image as read at issue, the layout entries
and the index list as read at its start, token, SEQ, the positions moved and the bytes counted so far, the source units read so
far, the bytes of the element that is under way which are still to be delivered, and the stripes of the pool that the command covers, each with the
bytes written (R187); of an HPUB, the regions committed before it (R423). -/
structure Cmd where
  id : Nat
  kind : CmdKind
  a : Word
  b : Word
  cw : Word
  desc : List Byte
  src : List Byte
  dst : List Byte
  list : List Byte
  tok : Nat
  seq : Nat
  phase : CmdPhase
  moved : Nat
  counted : Nat
  srcUnits : List SrcUnit
  ahead : List Byte
  cover : List (Nat × Nat)
  commits : Nat
  deriving DecidableEq, Repr

/-- A copy channel (R255): write pointer, the code and detail of a halt, the bytes owed by failed commands. -/
structure Channel where
  ptr : Word
  halt : Option (Nat × Nat)
  owed : Nat
  deriving DecidableEq, Repr

/-- An entry of a group's delta store (R188, R190): its bank row, whether it is a recompute entry, and its 32-byte delta. -/
structure DeltaEntry where
  row : Nat
  recompute : Bool
  delta : BitVec 256
  deriving DecidableEq, Repr

/-- The state of a parity group (R194). `state` is 0 protected, 1 rebuilding, 2 degraded. During a rebuild `entries` keeps
the rows that were stale at its start, which are lost, `was` the sectors of the bank that were poisoned then, and `row` the
bank rows rebuilt so far (R196). -/
structure Group where
  cecnt : Nat
  uecnt : Nat
  dbank : Nat
  state : Nat
  entries : List DeltaEntry
  was : Nat
  row : Nat
  deriving DecidableEq, Repr

/-- A bundle being executed: its decoded form, the next execution index, the address chosen by a BR operation. -/
structure Current where
  bundle : Bundle
  addr : Word
  exe : Nat
  startLoops : List Level
  deriving DecidableEq, Repr

/-- What a BR operation does after the other slots of its execution (R101). -/
inductive BrAction where
  | none
  | jump (target : Word) (unwinds : Bool)
  | call (target : Word)
  | loop (count : BitVec 32) (fin : Word)
  | lbrk (n : Nat)
  | yield
  | raise (cause : Nat) (info : Word)
  | tret
  | tokens (all wait : Bool) (set : Word) (dst : Dest) (tok : Nat)
  | fence (scope : Word)
  | bar (level : Nat)
  | bara (level : Nat)
  | mtsr (index : Nat) (v : Word)
  | halt
  | exit
  | icinv
  deriving DecidableEq, Repr

/-- Where a sequencer stands (R114, R115, R288, R419). -/
inductive RunState where
  | idle | running | exiting | halting | halted | saving | retired
  deriving DecidableEq, Repr

/-- A trap (R27): cause, whether it lies in the header, the slot and sr.trapinfo. -/
structure TrapInfo where
  cause : Nat
  hdr : Bool
  slot : Nat
  info : Word
  deriving DecidableEq, Repr

/-- What the checked kernel record of the running task gives (R57): latencies by class, FLAGS, PLEVEL and live sets. -/
structure Kernel where
  lat : List Nat
  pre : Bool
  strict : Bool
  plevel : Nat
  mlive : Nat
  vlive : Nat
  extents : List (Nat × Nat)
  deriving DecidableEq, Repr

/-- A store posted to another package by a task of a context, and not yet acknowledged (R306, R307). -/
structure PeerStore where
  id : Nat
  ctx : Nat
  package : Nat
  ptr : Word
  data : List Byte
  deriving DecidableEq, Repr

/-- Why the next execution of a core waits, for R278 and R289: the slot, the port it waits on (256 when it is no port),
whether it waits on the other stream, and whether the streams are deadlocked (R278). -/
structure Stall where
  slot : Nat
  port : Nat
  queue : Bool
  dead : Bool
  deriving DecidableEq, Repr

/-- An aligned 8-byte unit that a copy of core `core` which is not complete has written (R245, R300): the command, its channel and the
position of the channel's pointer after the write; the kind of memory (3 for the scratchpad) and the unit's offset or address div 8; what
the unit held before, what the command has written there, and which bytes. `live`: nothing is known to have been written there since;
`struck`: something has, on bytes that the command may still write. -/
structure Race where
  core : Nat
  cmd : Nat
  chan : Nat
  pos : Nat
  kind : Nat
  unit : Nat
  old : BitVec 64
  new : BitVec 64
  mask : BitVec 8
  live : Bool
  struck : Bool
  deriving DecidableEq, Repr

/-- One sequencer core. -/
structure Core where
  kid : Nat
  run : RunState
  pc : Word
  step : Nat
  fresh : Nat
  sregs : Vector Word 64
  vregs : Vector Vec 64
  mregs : Vector Mask 8
  flags : BitVec 8
  dq : Vector (List QEntry) 4
  eq : Vector (List QEntry) 2
  cq : List QEntry
  latches : Latches
  loops : List Level
  aps : Vector (BitVec 192) 8
  tiles : Vector Tile 8
  bench : Vector Bench 4
  scratch : Mem
  /-- What the scratchpad is written over (R31; log 6): zeros, or the free values of a core and dispatch. `scratch` holds the
  exclusive or of its bytes and these. -/
  leftover : Option (Nat × Nat)
  -- special registers (R25 to R30)
  trappc : Word
  trapcause : Word
  trapinfo : Word
  tvec : Word
  intrap : Bool
  preq : Bool
  inrpt : Bool
  degr : Bool
  rptidx : Nat
  cycle : Word
  partition : Nat
  ctx : Nat
  level : Nat
  pts : Word
  lgen : BitVec 32
  tls : List Level
  shadow : Latches
  tokens : Vector Token 32
  brkExempt : BrkExempt
  resumed : Bool
  kernel : Kernel
  patterns : Vector (BitVec 32768) 8
  arr : MxArray
  -- results and commands under way
  pending : List Pending
  vars : List VarRes
  nextId : Nat
  cur : Option Current
  act : BrAction
  retiring : Bool
  point : Bool
  raised : Option TrapInfo
  stalled : Option Stall
  /-- Queue ports in whose full queue the access stream's lead frees a place for the execution that is tried, once for each place
  (R273, R279). -/
  room : List Nat
  /-- Pushes of later executions whose entries a pop has already taken (R279): queue dq n, step and slot. -/
  loans : List (Nat × Nat × Nat)
  cmds : List Cmd
  chans : Vector Channel 4
  seq : Nat
  /-- EC operations of the running bundle that hand over no command and are counted at its retirement (R247). -/
  ecHeld : Nat
  prodTok : Nat
  /-- A token that the running bundle produces and that completes at its retirement (R41). -/
  leftTok : Nat
  /-- A FENCE of the running bundle waits, at its retirement, for the acknowledgement of the stores posted (R302). -/
  fenceWait : Bool
  /-- The running bundle has made an ordinary access (R290, R297). -/
  accessed : Bool
  peerStores : List PeerStore
  /-- Loads and atomics of other packages, each a credit until its result is written (R396): number of the result, package. -/
  peerLoads : List (Nat × Nat)
  /-- Posted stores that were not performed and that no FLSH has reported yet (R307): number and code, oldest first. -/
  peerFail : List (Nat × Nat)
  -- barriers (R113)
  arrived : List Nat
  -- the Referee (R421, R424)
  refState : BitVec 32
  refCnt : Nat
  retWhy : Nat
  audits : List AuditLog
  -- the pool (R191 to R197)
  groups : Vector Group 12
  poison : List (Nat × Bool)
  /-- Sectors with an error that no read has detected yet (R191; true: uncorrectable): data sectors by number, the libero
  sector of row y of group g as 24576 + 256 g + y. -/
  latent : List (Nat × Bool)
  bankUe : Vector Nat 108
  freeze : Nat
  poolReqs : List PoolReq
  /-- Banks taken in the running sc, as (group, local bank), 8 for the libero (R184). -/
  taken : List (Nat × Nat)
  /-- Units of the scratchpad for which accesses of this core may race with a command (R295, R300). -/
  races : List Race
  /-- The position of each copy channel's pointer that the sequencer has acquired (R217, R299). -/
  acquired : Vector (BitVec 64) 4
  -- records raised and not yet written: type, code, address, info (R409)
  recs : List (Nat × Nat × Word × Word)
  deriving DecidableEq, Repr

/-! ## Reset values -/

def Latches.empty : Latches := ⟨[], [], [], []⟩
def Tile.zero : Tile := ⟨Vector.replicate 64 0, Vector.replicate 64 0, false, false⟩
def BBuf.zero : BBuf := ⟨Vector.replicate 128 0, 0, 0⟩
/-- The array at dispatch (R222); the factor is 1.0 (R82). -/
def MxArray.zero : MxArray :=
  ⟨15, BBuf.zero, BBuf.zero, false, Vector.replicate 8 0, [], 0x3F800000, [], none, none⟩
def Group.zero : Group := ⟨0, 0, 0, 0, [], 0, 0⟩
/-- The Ghefean's own latencies (R56, R58). -/
def Kernel.own : Kernel := ⟨[1, 3, 2, 4, 2, 2, 6, 68, 4, 5, 12], false, false, 7, 0, 0, []⟩
/-- Every entry of a pattern is 0x1000 at dispatch (R173). -/
def patternZero : BitVec 32768 := BitVec.ofNat 32768 (0x1000 * ((2 ^ 32768 - 1) / (2 ^ 16 - 1)))
/-- The selection state at reset: SEED xor (kid * 0x9E3779B1), 1 in place of 0 (R421); SEED is 1 (R424). -/
def refSeed (seed kid : Nat) : BitVec 32 :=
  let x := BitVec.ofNat 32 seed ^^^ BitVec.ofNat 32 (kid * 0x9E3779B1)
  if x = 0 then 1 else x

/-- Core k after device reset (R31; log 5 for what the spec does not state). -/
def Core.reset (k : Nat) : Core :=
  { kid := k, run := .idle, pc := 0, step := 0, fresh := 0
    sregs := Vector.replicate 64 0, vregs := Vector.replicate 64 0, mregs := Vector.replicate 8 0, flags := 0
    dq := Vector.replicate 4 [], eq := Vector.replicate 2 [], cq := [], latches := Latches.empty, loops := []
    aps := Vector.replicate 8 0, tiles := Vector.replicate 8 Tile.zero, bench := Vector.replicate 4 ⟨0, []⟩
    scratch := [], leftover := none
    trappc := 0, trapcause := 0, trapinfo := 0, tvec := 0, intrap := false, preq := false, inrpt := false
    degr := false, rptidx := 0, cycle := 0, partition := 0, ctx := 0, level := 0, pts := 0, lgen := 0, tls := []
    shadow := Latches.empty, tokens := Vector.replicate 32 .complete, brkExempt := .none, resumed := false
    kernel := Kernel.own, patterns := Vector.replicate 8 patternZero, arr := MxArray.zero
    pending := [], vars := [], nextId := 0, cur := none, act := .none, retiring := false, point := false, raised := none
    stalled := none, room := [], loans := [], cmds := [], chans := Vector.replicate 4 ⟨0, none, 0⟩, seq := 0, ecHeld := 0, prodTok := 0, leftTok := 0, fenceWait := false, accessed := false
    peerStores := [], peerLoads := [], peerFail := [], arrived := []
    refState := refSeed 1 k, refCnt := 0, retWhy := 0, audits := []
    groups := Vector.replicate 12 Group.zero, poison := [], latent := [], bankUe := Vector.replicate 108 0, freeze := 0
    poolReqs := [], taken := [], races := [], acquired := Vector.replicate 4 0, recs := [] }

end Sys2Proof.Machine
end

