-- ==== Sys2Proof/Machine/Float.lean ====
section
/-! DEFINITION. Floating point (R68 to R74): exact values of encodings and one rounding back. -/
namespace Sys2Proof.Machine

/-- A floating-point format: precision with the hidden bit, exponent bits, exponent of the subnormal quantum (R68). -/
structure Fmt where
  p : Nat
  ebits : Nat
  qmin : Int
  deriving DecidableEq, Repr

def Fmt.f32 : Fmt := ⟨24, 8, -149⟩
def Fmt.f16 : Fmt := ⟨11, 5, -24⟩
def Fmt.bf16 : Fmt := ⟨8, 8, -133⟩

/-- The format of a float element type; f32 stands for every other type, whose callers do not ask. -/
def Fmt.of : ElemTy → Fmt
  | .f16 => .f16 | .bf16 => .bf16 | _ => .f32

def Fmt.bits (f : Fmt) : Nat := f.p + f.ebits
/-- The encoding of +infinity. -/
def Fmt.inf (f : Fmt) : Nat := (2 ^ f.ebits - 1) * 2 ^ (f.p - 1)
/-- The default NaN (R68). -/
def Fmt.nan (f : Fmt) : Nat := f.inf + 2 ^ (f.p - 2)
def Fmt.sign (f : Fmt) (neg : Bool) : Nat := if neg then 2 ^ (f.bits - 1) else 0

/-- An exact value (R71): NaN, an infinity, or (-1)^neg * m * 2^e. -/
inductive FVal where
  | nan
  | inf (neg : Bool)
  | fin (neg : Bool) (m : Nat) (e : Int)
  deriving DecidableEq, Repr

/-- val(e, t) of R72. -/
def Fmt.val (f : Fmt) (x : Nat) : FVal :=
  let neg := x.testBit (f.bits - 1)
  let ex := x / 2 ^ (f.p - 1) % 2 ^ f.ebits
  let fr := x % 2 ^ (f.p - 1)
  if ex = 2 ^ f.ebits - 1 then (if fr = 0 then .inf neg else .nan)
  else if ex = 0 then .fin neg fr f.qmin
  else .fin neg (fr + 2 ^ (f.p - 1)) (f.qmin + (ex - 1 : Nat))

/-- Does rounding mode rm move the magnitude up, given the lowest kept bit and the discarded part: `half` is how the
discarded part compares with half the quantum, `exact` says it is zero (R71). -/
def roundsUp (rm : Nat) (neg odd exact : Bool) (half : Ordering) : Bool :=
  match rm with
  | 0 => half == .gt || (half == .eq && odd)
  | 1 => false
  | 2 => !exact && !neg
  | _ => !exact && neg

/-- The magnitude (m + d) * 2^e, with 0 < d < 1 when `sticky` and d = 0 otherwise, as a multiple of 2^q. -/
def roundMag (rm : Nat) (neg : Bool) (m : Nat) (e q : Int) (sticky : Bool) : Nat :=
  if q ≤ e then
    let hi := m * 2 ^ (e - q).toNat
    hi + b2n' (roundsUp rm neg (hi % 2 == 1) (!sticky) .lt)
  else
    let k := (q - e).toNat
    let hi := m / 2 ^ k
    let lo := m % 2 ^ k
    let half := compare lo (2 ^ (k - 1))
    let half := if half == .eq && sticky then .gt else half
    hi + b2n' (roundsUp rm neg (hi % 2 == 1) (lo == 0 && !sticky) half)
where b2n' (b : Bool) : Nat := if b then 1 else 0

/-- round(x, t, rm) of R71 for a non-zero magnitude (m + d) * 2^e. -/
def Fmt.roundFin (f : Fmt) (rm : Nat) (neg : Bool) (m : Nat) (e : Int) (sticky : Bool) : Nat :=
  if m = 0 && !sticky then f.sign neg
  else
    let len : Nat := if m = 0 then 0 else Nat.log2 m + 1
    let q : Int := max (e + len - f.p) f.qmin
    let hi := roundMag rm neg m e q sticky
    let enc := if hi < 2 ^ (f.p - 1) then hi
      else ((q - f.qmin).toNat + 1) * 2 ^ (f.p - 1) + (hi - 2 ^ (f.p - 1))
    let beyond := f.inf ≤ enc
    let toInf := rm == 0 || (rm == 2 && !neg) || (rm == 3 && neg)
    f.sign neg + (if beyond then (if toInf then f.inf else f.inf - 1) else enc)

/-- round(x, t, rm) of R71. -/
def Fmt.round (f : Fmt) (rm : Nat) : FVal → Nat
  | .nan => f.nan
  | .inf neg => f.sign neg + f.inf
  | .fin neg m e => f.roundFin rm neg m e false

/-- round(x, t, rm) for an integer type t of a finite x, without range limiting (R71). -/
def roundInt (rm : Nat) (neg : Bool) (m : Nat) (e : Int) : Int :=
  let r : Int := roundMag rm neg m e 0 false
  if neg then -r else r

/-- The range of an integer type (R64). -/
def intMin (w : Nat) (unsigned : Bool) : Int := if unsigned then 0 else -(2 ^ (w - 1) : Nat)
def intMax (w : Nat) (unsigned : Bool) : Int := if unsigned then (2 ^ w : Nat) - 1 else (2 ^ (w - 1) : Nat) - 1

/-- The w-bit two's complement pattern of an integer. -/
def wrap (w : Nat) (x : Int) : Nat := (x % (2 ^ w : Nat)).toNat

/-- sext(f, n) of R72. -/
def sextN (w : Nat) (x : Nat) : Int := if (x % 2 ^ w).testBit (w - 1) then (x % 2 ^ w : Nat) - (2 ^ w : Nat) else (x % 2 ^ w : Nat)

/-- The integer value of a w-bit pattern, read unsigned or signed. -/
def intVal (w : Nat) (unsigned : Bool) (x : Nat) : Int := if unsigned then (x % 2 ^ w : Nat) else sextN w x

/-- sat(x, t) of R72 on an integer. -/
def satInt (w : Nat) (unsigned : Bool) (x : Int) : Int := max (intMin w unsigned) (min (intMax w unsigned) x)

/-- sat(round(x, t, rm), t) with the special inputs of R72. -/
def satRound (rm w : Nat) (unsigned : Bool) : FVal → Int
  | .nan => 0
  | .inf neg => if neg then intMin w unsigned else intMax w unsigned
  | .fin neg m e => satInt w unsigned (roundInt rm neg m e)

/-! ## Exact arithmetic (R70, R73) -/

def FVal.ofInt (x : Int) : FVal := .fin (x < 0) x.natAbs 0

def FVal.neg : FVal → FVal
  | .nan => .nan | .inf s => .inf (!s) | .fin s m e => .fin (!s) m e

/-- Exact sum; `down` is rounding toward minus infinity, which gives an exact zero sum its sign (R70). -/
def FVal.add (down : Bool) : FVal → FVal → FVal
  | .nan, _ | _, .nan => .nan
  | .inf a, .inf b => if a == b then .inf a else .nan
  | .inf a, _ => .inf a
  | _, .inf b => .inf b
  | .fin s m e, .fin s' m' e' =>
    let lo := min e e'
    let a : Int := (m * 2 ^ (e - lo).toNat : Nat)
    let b : Int := (m' * 2 ^ (e' - lo).toNat : Nat)
    let r := (if s then -a else a) + (if s' then -b else b)
    if r = 0 then .fin (if s == s' then s else down) 0 lo
    else .fin (r < 0) r.natAbs lo

def FVal.mul : FVal → FVal → FVal
  | .nan, _ | _, .nan => .nan
  | .inf a, .inf b => .inf (a != b)
  | .inf a, .fin s m _ | .fin s m _, .inf a => if m = 0 then .nan else .inf (a != s)
  | .fin s m e, .fin s' m' e' => .fin (s != s') (m * m') (e + e')

/-- a * b + c, exact; an invalid product is NaN (R70). -/
def FVal.fma (down : Bool) (a b c : FVal) : FVal := (a.mul b).add down c

/-- Comparison of two values that are not NaN; zeros are equal. -/
def FVal.lt : FVal → FVal → Bool
  | .nan, _ | _, .nan => false
  | .inf a, .inf b => a && !b
  | .inf a, .fin _ _ _ => a
  | .fin _ _ _, .inf b => !b
  | .fin s m e, .fin s' m' e' =>
    let lo := min e e'
    let a : Int := (m * 2 ^ (e - lo).toNat : Nat)
    let b : Int := (m' * 2 ^ (e' - lo).toNat : Nat)
    (if s then -a else a) < (if s' then -b else b)

def FVal.isNan : FVal → Bool
  | .nan => true | _ => false

def FVal.isNeg : FVal → Bool
  | .nan => false | .inf s => s | .fin s _ _ => s

def FVal.isZero : FVal → Bool
  | .fin _ 0 _ => true | _ => false

/-- The conditions eq, ne, lt, le, un by code 0 to 4 (R70, R129). -/
def FVal.cond (c : Nat) (a b : FVal) : Bool :=
  let un := a.isNan || b.isNan
  match c with
  | 0 => !un && !(a.lt b) && !(b.lt a)
  | 1 => un || a.lt b || b.lt a
  | 2 => !un && a.lt b
  | 3 => !un && !(b.lt a)
  | _ => un

/-- minimumNumber (or maximumNumber) of two encodings (R70), with -0 below +0. -/
def Fmt.minmax (f : Fmt) (isMax : Bool) (x y : Nat) : Nat :=
  let a := f.val x
  let b := f.val y
  if a.isNan && b.isNan then f.nan
  else if a.isNan then y
  else if b.isNan then x
  else
    let less := a.lt b || (!(b.lt a) && a.isNeg && !b.isNeg)
    if less == isMax then y else x

/-! ## Correctly rounded division and square root (R70, R159) -/

/-- round(a / b, t, rm) of R159. -/
def Fmt.div (f : Fmt) (rm : Nat) (a b : FVal) : Nat :=
  match a, b with
  | .nan, _ | _, .nan => f.nan
  | .inf _, .inf _ => f.nan
  | .inf s, .fin s' _ _ => f.sign (s != s') + f.inf
  | .fin s _ _, .inf s' => f.sign (s != s')
  | .fin s m e, .fin s' m' e' =>
    if m' = 0 then (if m = 0 then f.nan else f.sign (s != s') + f.inf)
    else f.roundFin rm (s != s') (m * 2 ^ 64 / m') (e - e' - 64) (m * 2 ^ 64 % m' != 0)

/-- The integer square root by its bits, the highest first. -/
def isqrtBits (n : Nat) : Nat → Nat → Nat
  | 0, r => r
  | k + 1, r => isqrtBits n k (if (r + 2 ^ k) * (r + 2 ^ k) ≤ n then r + 2 ^ k else r)

def isqrt (n : Nat) : Nat := isqrtBits n (Nat.log2 n / 2 + 1) 0

/-- round(sqrt(a), t, rm) of R159. -/
def Fmt.sqrt (f : Fmt) (rm : Nat) (a : FVal) : Nat :=
  match a with
  | .nan => f.nan
  | .inf s => if s then f.nan else f.inf
  | .fin s m e =>
    if m = 0 then f.sign s
    else if s then f.nan
    else
      let odd := e % 2 != 0
      let n := m * 2 ^ (if odd then 65 else 64)
      let r := isqrt n
      f.roundFin rm false r ((if odd then e - 65 else e - 64) / 2) (r * r != n)

end Sys2Proof.Machine
end

