-- ==== Sys2Proof/Machine/Ops.lean ====
section
/-! DEFINITION. Operations on one core: registers, pool, queues, latches, results, tokens, accumulator events, and the entry
into and the return from a trap. -/
namespace Sys2Proof.Machine

/-- Why an operation does not act: a trap with its cause and sr.trapinfo (R285), a trap whose sr.trapinfo is the slot word,
a wait on a port (256 for what is no port), which leaves everything as it was, or an error in n bytes of the pool of core k
that has still to be detected, after which the operation is tried again (R191). -/
inductive Stop where
  | trap (cause : Nat) (info : Word)
  | wordTrap (cause : Nat)
  | stall (port : Nat) (queue : Bool)
  | sense (k off n : Nat) (write : Bool)
  deriving DecidableEq, Repr

abbrev Res (α : Type) := Except Stop α

/-! ## Memory as data -/

/-- The byte at an address; an unlisted byte reads zero. -/
def Mem.get : Mem → Nat → Byte
  | [], _ => 0
  | (a, b) :: m, x => if a = x then b else Mem.get m x

/-- A memory without its entry for an address. -/
def Mem.erase (m : Mem) (x : Nat) : Mem := m.filter fun e => e.1 != x

/-- A new entry, before the first that lies higher. -/
def Mem.insert : Mem → Nat → Byte → Mem
  | [], x, v => [(x, v)]
  | (a, b) :: m, x, v => if x < a then (x, v) :: (a, b) :: m else (a, b) :: Mem.insert m x v

/-- Write one byte, keeping the form of Mem. -/
def Mem.put (m : Mem) (x : Nat) (v : Byte) : Mem := if v = 0 then m.erase x else Mem.insert (m.erase x) x v

/-- The entries from an address up that a list of bytes makes. -/
def Mem.cells : Nat → List Byte → Mem
  | _, [] => []
  | a, b :: bs => if b = 0 then Mem.cells (a + 1) bs else (a, b) :: Mem.cells (a + 1) bs

/-- n bytes from an address up are written anew. -/
def Mem.fill (m : Mem) (a n : Nat) (f : Nat → Byte) : Mem :=
  (m.filter fun e => e.1 < a) ++ Mem.cells a ((List.range n).map f) ++ m.filter fun e => a + n ≤ e.1

/-- The n bytes from an address up. -/
def Mem.getN (m : Mem) : Nat → Nat → List Byte
  | _, 0 => []
  | a, n + 1 => m.get a :: m.getN (a + 1) n

/-- Write bytes from an address up. -/
def Mem.putN (m : Mem) : Nat → List Byte → Mem
  | _, [] => m
  | a, b :: bs => (m.put a b).putN (a + 1) bs

/-- Addresses strictly rising from `lo` on and no zero entry: the one form of a memory. -/
def Mem.wfFrom : Nat → Mem → Bool
  | _, [] => true
  | lo, (a, b) :: m => lo ≤ a && b != 0 && Mem.wfFrom (a + 1) m

def Mem.wf (m : Mem) : Bool := Mem.wfFrom 0 m

/-- The little-endian value of n bytes (R24). -/
def Mem.value (m : Mem) (a n : Nat) : Nat := leValue (m.getN a n)

/-- Write the low n bytes of a value, little-endian (R24). -/
def Mem.store (m : Mem) (a n : Nat) (x : Nat) : Mem := m.putN a (leBytes n x)

/-! ## Values -/

def Val.word (w : Word) : Val := ⟨w.setWidth 2048, false⟩
def Val.vec (v : Vec) : Val := ⟨v, true⟩
def Val.toWord (x : Val) : Word := x.bits.setWidth 64
def Val.zero : Val := ⟨0, false⟩

/-- The 2048 bits of an entry read where only a vector makes sense: a 64-bit entry has no stated upper bits (log 32). -/
def Val.toVec (x : Val) : Vec := if x.wide then x.bits else Config.wideOf x.toWord

/-! ## Registers -/

/-- s0 reads zero (R12). -/
def Core.getS (c : Core) (n : Fin 64) : Word := if n = 0 then 0 else c.sregs[n]
/-- A write to s0 is discarded (R12). -/
def Core.setS (c : Core) (n : Fin 64) (w : Word) : Core := if n = 0 then c else { c with sregs := c.sregs.set n w }
/-- m0 reads all ones (R12). -/
def Core.getM (c : Core) (n : Fin 8) : Mask := if n = 0 then BitVec.allOnes 256 else c.mregs[n]
def Core.setM (c : Core) (n : Fin 8) (m : Mask) : Core := if n = 0 then c else { c with mregs := c.mregs.set n m }
/-- f0 reads true (R12). -/
def Core.getF (c : Core) (n : Fin 8) : Bool := n = 0 || c.flags.getLsbD n
def Core.setF (c : Core) (n : Fin 8) (b : Bool) : Core :=
  if n = 0 then c
  else { c with flags := (c.flags &&& ~~~(1#8 <<< n.val)) ||| (if b then 1#8 <<< n.val else 0) }

/-- A register is empty at the running step while a variable-latency write to it of an earlier step is outstanding
(R14, R277); s0 never is (R12, R47). -/
def Core.isEmpty (c : Core) (d : Dest) : Bool := d != .s 0 && c.vars.any fun v => v.dst == d && v.issue < c.step

def Core.lat (c : Core) (cls : Nat) : Nat := c.kernel.lat.getD cls 1

/-! ## The pool (R21, R22, R182) -/

def Core.numV (c : Core) : Nat := 16 * (bits c.partition 1 0 + 1)
def Core.numT (c : Core) : Nat := bits c.partition 5 2
def Core.numN (c : Core) : Nat := bits c.partition 8 6
def Core.benchD (c : Core) : Nat := 2 ^ bits c.partition 11 9
/-- The size S of the scratchpad. -/
def Core.scratchSize (c : Core) : Nat :=
  Config.poolBytes - 256 * c.numV - 32768 * c.numT - 1024 * c.numN * c.benchD
def Core.benchOff (c : Core) (q : Nat) : Nat := c.scratchSize + 1024 * c.benchD * q
def Core.tileOff (c : Core) (z half row : Nat) : Nat :=
  c.scratchSize + 1024 * c.numN * c.benchD + 32768 * z + 16384 * half + 256 * row
def Core.vregOff (c : Core) (n : Nat) : Nat := Config.poolBytes - 256 * c.numV + 256 * n

/-- The parity group of a pool offset (R182). -/
def poolGroup (p : Nat) : Nat := p / 2048 % 12
/-- The bank row of a pool offset (R182). -/
def poolRow (p : Nat) : Nat := 8 * (p / 2048 / 12) + p % 2048 / 32 / 8
/-- The local data bank of a pool offset (R182). -/
def poolBank (p : Nat) : Nat := (p % 2048 / 32 / 8 + p % 2048 / 32 % 8) % 8

/-- The lowest of some sectors. -/
def lowestSector (l : List (Nat × Bool)) : Option (Nat × Bool) :=
  match l with
  | [] => none
  | p :: ps => some (ps.foldl (fun x y => if y.1 < x.1 then y else x) p)

/-- The lowest poisoned sector that n bytes from an offset touch, with its reconstruction bit (R193). -/
def Core.poisonAt (c : Core) (off n : Nat) : Option (Nat × Bool) :=
  lowestSector (c.poison.filter fun p => off < 32 * p.1 + 32 && 32 * p.1 < off + n)

/-- sr.trapinfo of a poisoned sector (R193). -/
def poisonInfo (p : Nat × Bool) : Word := BitVec.ofNat 64 (32 * p.1 + (if p.2 then 2 ^ 63 else 0))

/-- Do n bytes from an offset hold an undetected error that an access would meet? A full-stripe write meets those of its stripe
when it is made (R184, R187). -/
def Core.senses (c : Core) (off n : Nat) (write : Bool) : Bool :=
  c.latent.any fun e => e.1 < 24576 && off < 32 * e.1 + 32 && 32 * e.1 < off + n &&
    !(write && off ≤ e.1 / 8 * 256 && e.1 / 8 * 256 + 256 ≤ off + n)

/-- Does a row of a group hold a poisoned sector. -/
def Core.rowPoisoned (c : Core) (g row : Nat) : Bool :=
  c.poison.any fun p => poolGroup (32 * p.1) == g && poolRow (32 * p.1) == row

def Core.group (c : Core) (g : Nat) : Group := c.groups.toList.getD g Group.zero
def Core.setGroup (c : Core) (g : Nat) (x : Group) : Core := { c with groups := c.groups.setIfInBounds g x }

/-- Are n bytes from an offset in a group whose bank is being rebuilt, so that a request to them is held (R196)? -/
def Core.holds (c : Core) (off n : Nat) : Bool :=
  (c.groups.toList.any fun x => x.state == 1) && n != 0 &&
  (List.range ((off + n - 1) / 32 - off / 32 + 1)).any fun i => (c.group (poolGroup (32 * (off / 32 + i)))).state == 1

/-- A slot operation that reads a poisoned sector traps with cause 0x0C (R193); a request to a group being rebuilt waits. -/
def Core.checkPoison (c : Core) (off n : Nat) : Res Unit :=
  if c.holds off n then .error (.stall 256 false)
  else if c.senses off n false then .error (.sense c.kid off n false)
  else match c.poisonAt off n with
    | some p => .error (.trap 0x0C (poisonInfo p))
    | none => .ok ()

/-- The sectors that a write touches without covering them: their poison traps (R193). -/
def Core.checkPartial (c : Core) (off n : Nat) : Res Unit :=
  if c.holds off n then .error (.stall 256 false)
  else if c.senses off n true then .error (.sense c.kid off n true)
  else match lowestSector (c.poison.filter fun p => off < 32 * p.1 + 32 && 32 * p.1 < off + n &&
      !(off ≤ 32 * p.1 && 32 * p.1 + 32 ≤ off + n)) with
    | some p => .error (.trap 0x0C (poisonInfo p))
    | none => .ok ()

/-- The range test of mem_pool (R24): the offset, or cause 0x0A. -/
def Core.checkRange (c : Core) (a : Int) (n : Nat) : Res Nat :=
  if a < 0 then .error (.trap 0x0A (BitVec.ofInt 64 a))
  else if n = 0 || a.toNat + n ≤ c.scratchSize then .ok a.toNat
  else .error (.trap 0x0A (BitVec.ofNat 64 (max a.toNat c.scratchSize)))

/-- A byte of what the scratchpad is written over (R31). -/
def Core.baseByte (c : Core) (a : Nat) : Byte :=
  match c.leftover with
  | none => 0
  | some (k, n) => Config.freeByte k n a

/-- Bytes of what the scratchpad is written over, combined with others. -/
def Core.overBase (c : Core) (a : Nat) (bs : List Byte) : List Byte :=
  match c.leftover with
  | none => bs
  | some _ => bs.mapIdx fun i b => b ^^^ c.baseByte (a + i)

/-- n bytes of scratchpad. -/
def Core.scrBytes (c : Core) (a n : Nat) : List Byte := c.overBase a (c.scratch.getN a n)

/-- n bytes of scratchpad as a value (R24). -/
def Core.scrValue (c : Core) (a n : Nat) : Nat := leValue (c.scrBytes a n)

/-! ## Accesses that race with a copy (R245, R295, R300, R312; log 10)

Until the sequencer has acquired what a command writes, each of its accesses to a unit may come before or after that write, whichever steps
of the model they take. Locations are the kind of memory and the offset or address of a byte. -/

/-- Byte j of a unit. -/
def unitByteOf (x : BitVec 64) (j : Nat) : Byte := (x >>> (8 * j)).setWidth 8

/-- Does an access of this core at this step come before the write of a race, if that is open? -/
def Core.early (c : Core) (r : Race) : Bool :=
  r.live && r.core == c.kid && (c.acquired.toList.getD r.chan 0).toNat < r.pos && Config.early c.kid c.step r.cmd r.unit

/-- Does a race concern the byte at a location, and has the command written that? -/
def Race.on (r : Race) (x : Nat × Nat) : Bool := r.kind == x.1 && r.unit == x.2 / 8
def Race.wrote (r : Race) (x : Nat × Nat) : Bool := r.on x && r.mask.getLsbD (x.2 % 8)

/-- What an access sees at some locations that hold some bytes: of a unit whose write it comes before, what stood there before. -/
def Core.sees (c : Core) (rs : List Race) (bs : List ((Nat × Nat) × Byte)) : List Byte :=
  bs.map fun p => match rs.find? fun r => r.wrote p.1 && c.early r with
    | some r => unitByteOf r.old (p.1.2 % 8)
    | none => p.2

/-- What a store leaves at some locations, each with the byte held and the byte stored: where it comes before the command's write, that
stays. -/
def Core.leaves (c : Core) (rs : List Race) (bs : List ((Nat × Nat) × Byte × Byte)) : List Byte :=
  bs.map fun p => if rs.any fun r => r.wrote p.1 && c.early r then p.2.1 else p.2.2

/-- Bytes of a unit replaced: those of a list at their locations. -/
def setUnit (x : BitVec 64) (bs : List ((Nat × Nat) × Byte)) : BitVec 64 :=
  bs.foldl (fun (x : BitVec 64) p => (x &&& ~~~(0xFF#64 <<< (8 * (p.1.2 % 8)))) ||| ((p.2.setWidth 64 : BitVec 64) <<< (8 * (p.1.2 % 8)))) x

/-- A race after a store: one whose write the store comes before finds the stored bytes there, another is over. A store to bytes that the
command has not written strikes it. -/
def Core.raceStored (c : Core) (bs : List ((Nat × Nat) × Byte)) (r : Race) : Race :=
  let mine := bs.filter fun p => r.on p.1
  if mine.isEmpty then r
  else
    let r := { r with struck := r.struck || mine.any fun p => !r.wrote p.1 }
    if !mine.any fun p => r.wrote p.1 then r
    else if c.early r then { r with old := setUnit r.old mine } else { r with live := false }

/-- Locations of the scratchpad. -/
def poolLocs (a n : Nat) : List (Nat × Nat) := (List.range n).map fun i => (3, a + i)

/-- n bytes of scratchpad as the sequencer sees them. -/
def Core.seenBytes (c : Core) (a n : Nat) : List Byte :=
  if c.races.isEmpty then c.scrBytes a n else c.sees c.races ((poolLocs a n).zip (c.scrBytes a n))

def Core.seenValue (c : Core) (a n : Nat) : Nat := leValue (c.seenBytes a n)

/-! ## Contents and parity of the pool (R181 to R183, R187 to R190) -/

/-- Group and local bank of a sector (R182); local bank 8 is the libero. -/
def sectorGroup (x : Nat) : Nat := poolGroup (32 * x)
def sectorBank (x : Nat) : Nat := poolBank (32 * x)
/-- The sector of a group, bank row and local data bank (R182). -/
def sectorAt (g row bank : Nat) : Nat := 64 * (row / 8 * 12 + g) + 8 * (row % 8) + (bank + 8 - row % 8) % 8
/-- The pool bank number of a local bank (R409): 96 and up are the liberos. -/
def bankNumber (g bank : Nat) : Nat := if bank = 8 then 96 + g else 8 * g + bank
/-- The number under which `latent` names a libero sector. -/
def liberoKey (g row : Nat) : Nat := 24576 + 256 * g + row

/-- Sector i of a stripe. -/
def stripeSector (v : Vec) (i : Nat) : BitVec 256 := (v >>> (256 * i)).setWidth 256

/-- The bench sector at offset o of the bench region: eight entries' value r; a place without an entry holds zeros. -/
def Core.benchSector (c : Core) (o : Nat) : BitVec 256 :=
  let b := c.bench.toList.getD (o / (1024 * c.benchD)) ⟨0, []⟩
  let o := o % (1024 * c.benchD)
  let cap := 64 * c.benchD
  let cell (i : Nat) : Nat :=
    match b.entries[(64 * (o / 1024) + o % 256 / 4 + i + cap - b.head) % cap]? with
    | some e => e.toNat / 2 ^ (32 * (o % 1024 / 256)) % 2 ^ 32
    | none => 0
  BitVec.ofNat 256 (((List.range 8).map fun i => cell i * 2 ^ (32 * i)).foldl (· + ·) 0)

/-- What data sector x of the pool holds (R22): scratchpad (over what `leftover` says), bench queues, tiles or vector
registers. -/
def Core.sectorData (c : Core) (x : Nat) : BitVec 256 :=
  let p := 32 * x
  if p < c.scratchSize then BitVec.ofNat 256 (c.scrValue p 32)
  else if p < c.scratchSize + 1024 * c.numN * c.benchD then c.benchSector (p - c.scratchSize)
  else if p < c.vregOff 0 then
    let o := p - c.scratchSize - 1024 * c.numN * c.benchD
    let t := c.tiles.toList.getD (o / 32768) Tile.zero
    stripeSector ((if o % 32768 < 16384 then t.half0 else t.half1).toList.getD (o % 16384 / 256) 0) (o % 256 / 32)
  else stripeSector (c.vregs.toList.getD ((p - c.vregOff 0) / 256) 0) (p % 256 / 32)

/-- The exclusive or of the data sectors of a row whose bank is not one left out. -/
def Core.rowXor (c : Core) (g row : Nat) (out : Option Nat) : BitVec 256 :=
  (List.range 8).foldl (fun x j => if out = some j then x else x ^^^ c.sectorData (sectorAt g row j)) 0

/-- What the libero of a group holds in a row (R187 to R190, R196): in a degraded group, and in a row that a rebuild has come past,
the sector of the retired bank; else the parity of the row, short of the delta that the row's entry holds. A row whose parity is void, because it holds poison
or a recompute entry, has parity that nothing reads. -/
def Core.parityRow (c : Core) (g row : Nat) : BitVec 256 :=
  let x := c.group g
  if x.state = 2 || (x.state = 1 && row < x.row) then c.sectorData (sectorAt g row x.dbank)
  else match x.entries.find? fun e => e.row == row with
    | some e => c.rowXor g row none ^^^ e.delta
    | none => c.rowXor g row none

/-- What reconstruction gives for a data sector: the exclusive or of the seven others and the parity (R185, R192). -/
def Core.rebuilt (c : Core) (x : Nat) : BitVec 256 :=
  c.rowXor (sectorGroup x) (poolRow (32 * x)) (some (sectorBank x)) ^^^ c.parityRow (sectorGroup x) (poolRow (32 * x))

/-! ## Errors of the pool (R191 to R193, R195) -/

def Core.record (c : Core) (type code addr info : Nat) : Core :=
  { c with recs := c.recs ++ [(type, code, BitVec.ofNat 64 addr, BitVec.ofNat 64 info)] }

/-- A correction: it is counted and recorded, and the core freezes for 16 sc (R191). -/
def Core.corrected (c : Core) (g bank code addr : Nat) : Core :=
  let x := c.group g
  ({ c.setGroup g { x with cecnt := min 255 (x.cecnt + 1) } with freeze := 16 } : Core).record 0x0001 code addr (bankNumber g bank)

/-- An uncorrectable detection in a bank, unless its own retirement has begun (R195). -/
def Core.countBank (c : Core) (g bank : Nat) : Core :=
  let x := c.group g
  if x.state ≠ 0 && bank = x.dbank then c
  else { c with bankUe := c.bankUe.setIfInBounds (bankNumber g bank) (min 255 (c.bankUe.toList.getD (bankNumber g bank) 0 + 1)) }

/-- Poison a sector; its row's entry is discarded (R193). -/
def Core.poisonSector (c : Core) (x : Nat) (fault : Bool) : Core :=
  let g := sectorGroup x
  let grp := c.group g
  let c := { c with poison := (x, fault) :: c.poison.filter fun p => p.1 != x }
  if grp.state = 1 then c else c.setGroup g { grp with entries := grp.entries.filter fun e => e.row != poolRow (32 * x) }

def Core.countPoison (c : Core) (g : Nat) : Core :=
  let x := c.group g
  c.setGroup g { x with uecnt := min 255 (x.uecnt + 1) }

/-- Is a row fresh: no entry, no poison (R185)? -/
def Core.rowFresh (c : Core) (g row : Nat) : Bool :=
  !(c.rowPoisoned g row) && !(c.group g).entries.any fun e => e.row == row

/-- The row of a group takes a recompute entry (R190). -/
def Core.recompute (c : Core) (g row : Nat) : Core :=
  let x := c.group g
  if x.state ≠ 0 || c.rowPoisoned g row then c
  else c.setGroup g { x with entries := (x.entries.filter fun e => e.row != row) ++ [⟨row, true, 0⟩] }

def Core.hasError (c : Core) (key : Nat) (fatal : Bool) : Bool := c.latent.any fun e => e.1 == key && e.2 == fatal
def Core.dropError (c : Core) (key : Nat) : Core := { c with latent := c.latent.filter fun e => e.1 != key }

/-- A correctable error of a data sector is corrected (R191). -/
def Core.correctData (c : Core) (x : Nat) : Core :=
  if c.hasError x false then (c.dropError x).corrected (sectorGroup x) (sectorBank x) 0 (32 * x) else c

/-- A read of the libero sector of a row detects its error: nothing is lost, and the row is to be recomputed where its
parity was (R191, R192). A libero sector has no pool offset: ADDR of the record is 0 (DESIGN CHOICE, log 95). -/
def Core.readLibero (c : Core) (g row : Nat) : Core :=
  let key := liberoKey g row
  if c.hasError key false then (c.dropError key).corrected g 8 0 0
  else if c.hasError key true then (((c.dropError key).corrected g 8 2 0).countBank g 8).recompute g row
  else c

/-- Sectors of a row that cannot be rebuilt (R193): one reconstruction fault, found at sector x; `more` is poisoned with
them. -/
def Core.rebuildFault (c : Core) (g row x : Nat) (bad more : List Nat) : Core :=
  let key := liberoKey g row
  let libero := c.hasError key true
  let mask := (bad.map fun j => 2 ^ j).foldl (· + ·) (if libero then 256 else 0)
  let c := (if libero then bad ++ [8] else bad).foldl (fun c j => c.countBank g j) c
  let c := (bad ++ more).foldl (fun c j => (c.dropError (sectorAt g row j)).poisonSector (sectorAt g row j) true) c
  ((c.dropError key).countPoison g).record 0x0003 0 (32 * x) mask

/-- An uncorrectable error that a read of data sector x detects (R192, R193): in a fresh row of a protected group it is
rebuilt, for which the whole row is read; what `Core.rebuilt` gives there is what the sector held
(`Core.rebuilt_eq`). -/
def Core.readFatal (c : Core) (x : Nat) : Core :=
  let g := sectorGroup x
  let row := poolRow (32 * x)
  if c.poison.any fun p => p.1 == x then c.dropError x
  else if (c.group g).state ≠ 0 || !c.rowFresh g row then
    let code := if (c.group g).state = 0 then 0 else 1
    ((((c.dropError x).poisonSector x false).countPoison g).countBank g (sectorBank x)).record 0x0002 code (32 * x) (bankNumber g (sectorBank x))
  else
    let c := (List.range 8).foldl (fun (c : Core) j => c.correctData (sectorAt g row j)) c
    let c := if c.hasError (liberoKey g row) false then c.readLibero g row else c
    let bad := (List.range 8).filter fun j => c.hasError (sectorAt g row j) true
    if bad.length = 1 && !c.hasError (liberoKey g row) true then
      ((c.dropError x).corrected g (sectorBank x) 1 (32 * x)).countBank g (sectorBank x)
    else c.rebuildFault g row x bad []

/-- A read of data sector x detects its error (R191). -/
def Core.readSector (c : Core) (x : Nat) : Core :=
  let c := c.correctData x
  if c.hasError x true then c.readFatal x else c

/-- The updater serves an entry of a group. A delta is folded into the libero, unless the read of the libero starts a recompute;
for a recompute the eight data sectors are read and the libero is written with their exclusive or (R189 to R191). The entry is
freed, and with it the parity is what `Core.parityRow` says. -/
def Core.serveEntry (c : Core) (g : Nat) (e : DeltaEntry) : Core :=
  let c := if e.recompute then ((List.range 8).foldl (fun (c : Core) j => c.readSector (sectorAt g e.row j)) c).dropError (liberoKey g e.row)
    else c.readLibero g e.row
  let x := c.group g
  c.setGroup g { x with entries := x.entries.filter fun y => y.row != e.row || y.recompute != e.recompute }

/-- The updater serves the oldest entries of a group until at most n are in use. -/
def Core.shrink (c : Core) (g n : Nat) : Nat → Core
  | 0 => c
  | fuel + 1 =>
    match (c.group g).entries with
    | e :: es => if es.length < n then c else (c.serveEntry g e).shrink g n fuel
    | [] => c

/-- A write that needs an entry waits while all 64 are in use: the updater takes precedence until one is freed (R188). -/
def Core.makeRoom (c : Core) (g fuel : Nat) : Core := c.shrink g 63 fuel

/-- The recompute entries that a read of a libero made have their places in the delta stores of 64 entries (R190): where one was full,
the updater has served its oldest. -/
def Core.fit (c : Core) : Core :=
  if c.groups.toList.all fun x => x.entries.length ≤ 64 then c
  else (List.range 12).foldl (fun (c : Core) g => c.shrink g 64 128) c

/-- An access detects the errors of the sectors it reads: the core after it, and the sectors this poisoned. -/
def Core.detect (c : Core) (off n : Nat) (write : Bool) : Core × List Nat :=
  if !c.senses off n write then (c, [])
  else
    let xs := ((List.range ((off + n - 1) / 32 - off / 32 + 1)).map fun i => off / 32 + i).filter fun x =>
      !(write && off ≤ x / 8 * 256 && x / 8 * 256 + 256 ≤ off + n)
    let d := (xs.foldl Core.readSector c).fit
    (d, (d.poison.map (·.1)).filter fun x => !c.poison.any fun p => p.1 == x)

/-! ## Writes of the pool (R187 to R190, R193) -/

/-- A partial write of a sector takes a delta entry or folds its delta into the row's (R188); `cleared` says it cleared
poison, after which the row takes a recompute entry (R193). -/
def Core.noteSector (c : Core) (sector : Nat) (cleared : Bool) (delta : BitVec 256) : Core :=
  let g := poolGroup (32 * sector)
  let row := poolRow (32 * sector)
  let x := c.group g
  if x.state != 0 || c.rowPoisoned g row then c
  else if x.entries.any fun e => e.row == row then
    c.setGroup g { x with entries := x.entries.map fun (e : DeltaEntry) =>
      if e.row == row && !e.recompute then { e with delta := e.delta ^^^ delta } else e }
  else
    let c := c.makeRoom g 128
    let x := c.group g
    c.setGroup g { x with entries := x.entries ++ [⟨row, cleared, if cleared then 0 else delta⟩] }

/-- The n sectors from `sector` on that a partial write of bytes lo to hi - 1 touches; `delta` is old xor new of each. -/
def Core.noteSectors (c : Core) (delta : Nat → BitVec 256) (lo hi sector : Nat) : Nat → Core
  | 0 => c
  | n + 1 =>
    let whole := lo ≤ 32 * sector && 32 * sector + 32 ≤ hi
    let was := c.poison.any fun p => p.1 == sector
    let c' := if whole then { c with poison := c.poison.filter fun p => p.1 != sector } else c
    (c'.noteSector sector (whole && was) (delta sector)).noteSectors delta lo hi (sector + 1) n

/-- A full-stripe write: the read half of each sector's access and the libero's detect their errors (R184, R191, R193); poison
and errors of the stripe are cleared, and its row's entry is discarded (R187). -/
def Core.noteStripe (c : Core) (stripe : Nat) : Core :=
  let g := poolGroup (256 * stripe)
  let row := poolRow (256 * stripe)
  let c := if !c.latent.any fun e => e.1 / 8 == stripe || e.1 == liberoKey g row then c
    else
      let d := (((List.range 8).foldl (fun (c : Core) i => c.readSector (8 * stripe + i)) c).readLibero g row).fit
      { d with latent := d.latent.filter fun e => e.1 / 8 != stripe && e.1 != liberoKey g row }
  let c := if c.poison.isEmpty then c else { c with poison := c.poison.filter fun p => p.1 / 8 != stripe }
  let x := c.group g
  if x.entries.isEmpty || x.state = 1 then c else c.setGroup g { x with entries := x.entries.filter fun e => e.row != row }

/-- The whole pool is written, as for the zeroing of R31: full-stripe writes, which detect the errors of their stripes (R187, R191). -/
def Core.senseStripes (c : Core) : Core :=
  if c.latent.isEmpty then c
  else (List.range 3072).foldl (fun (c : Core) i =>
    if c.latent.any fun e => e.1 / 8 == i || e.1 == liberoKey (poolGroup (256 * i)) (poolRow (256 * i)) then c.noteStripe i else c) c

/-- The n stripes from `stripe` on that a write of bytes lo to hi - 1 touches (R187). -/
def Core.noteStripes (c : Core) (delta : Nat → BitVec 256) (lo hi stripe : Nat) : Nat → Core
  | 0 => c
  | n + 1 =>
    let a := max lo (256 * stripe)
    let b := min hi (256 * stripe + 256)
    let c := if b - a = 256 then c.noteStripe stripe else c.noteSectors delta a b (a / 32) ((b - 1) / 32 - a / 32 + 1)
    c.noteStripes delta lo hi (stripe + 1) n

/-- A write of the pool, made by `new`, that touches some runs of bytes, each an offset and a length, with what it does to parity
and poison (R187, R188, R193). -/
def Core.writeRuns (c : Core) (runs : List (Nat × Nat)) (new : Core → Core) : Core :=
  let delta (x : Nat) : BitVec 256 := c.sectorData x ^^^ (new c).sectorData x
  let note (c : Core) (r : Nat × Nat) : Core :=
    if r.2 = 0 then c else c.noteStripes delta r.1 (r.1 + r.2) (r.1 / 256) ((r.1 + r.2 - 1) / 256 - r.1 / 256 + 1)
  new (runs.foldl note c)

/-- Write bytes to the scratchpad. -/
def Core.scrWrite (c : Core) (a : Nat) (bs : List Byte) : Core := { c with scratch := c.scratch.putN a (c.overBase a bs) }

/-- Bytes of one sector written for a transfer that covers their stripe (R187): the sector's errors are detected, a sector written whole is
poisoned no longer, and its row takes no entry. -/
def Core.coverPut (c : Core) (a : Nat) (bs : List Byte) : Core :=
  let c := if c.latent.isEmpty then c else (c.readSector (a / 32)).fit
  let c := if bs.length = 32 then { c with poison := c.poison.filter fun p => p.1 != a / 32 } else c
  c.scrWrite a bs

/-- Write bytes to the scratchpad, with what this does to parity and poison (R187, R188, R193). -/
def Core.scrPut (c : Core) (a : Nat) (bs : List Byte) : Core := c.writeRuns [(a, bs.length)] fun d => d.scrWrite a bs

/-- A store of bytes by the sequencer, which may race with a command. -/
def Core.scrKeep (c : Core) (a : Nat) (bs : List Byte) : Core :=
  if c.races.isEmpty then c.scrPut a bs
  else
    let locs := poolLocs a bs.length
    { c with races := c.races.map (c.raceStored (locs.zip bs)) }.scrPut a (c.leaves c.races (locs.zip ((c.scrBytes a bs.length).zip bs)))

/-- Write the low n bytes of a value to the scratchpad (R24). -/
def Core.scrStore (c : Core) (a n x : Nat) : Core := c.scrPut a (leBytes n x)

/-- Read n bytes of scratchpad as a value (R24, R193). -/
def Core.loadPool (c : Core) (a : Int) (n : Nat) : Res Nat := do
  let off ← c.checkRange a n
  c.checkPoison off n
  .ok (c.seenValue off n)

/-- A store of the low n bytes of a value to the scratchpad (R24, R187, R193). -/
def Core.storePool (c : Core) (a : Int) (n : Nat) (x : Nat) : Res Core := do
  let off ← c.checkRange a n
  c.checkPartial off n
  .ok (c.scrKeep off (leBytes n x))

/-- A vector register is written whole: one stripe of the pool (R134, R187). -/
def Core.setV (c : Core) (n : Nat) (v : Vec) : Core :=
  let c := c.noteStripe (c.vregOff n / 256)
  { c with vregs := c.vregs.setIfInBounds n v }

def Core.getV (c : Core) (n : Fin 64) : Vec := c.vregs[n]

/-! ## Latches and loop indices -/

def Latches.get (l : Latches) : LUnit → List Val
  | .sc => l.sc | .va => l.va | .vb => l.vb | .xn => l.xn

/-- A new result moves the ages; the fifth is dropped (R16). -/
def Latches.push (l : Latches) (u : LUnit) (x : Val) : Latches :=
  match u with
  | .sc => { l with sc := (x :: l.sc).take 4 }
  | .va => { l with va := (x :: l.va).take 4 }
  | .vb => { l with vb := (x :: l.vb).take 4 }
  | .xn => { l with xn := (x :: l.xn).take 4 }

/-- Port ik: the index of the k-th active level from the outermost, zero beyond (R17). -/
def Core.idx (c : Core) (k : Nat) : Nat :=
  match c.loops[k]? with
  | some l => l.index.toNat
  | none => 0

def apStride (ap : BitVec 192) (k : Nat) : Int := ((ap >>> (64 + 20 * k)).setWidth 20).toInt
def apModulus (ap : BitVec 192) : Nat := ((ap >>> 24).setWidth 20).toNat
def apEsize (ap : BitVec 192) : Nat := ((ap >>> 20).setWidth 4).toNat
def apBase (ap : BitVec 192) : Nat := (ap.setWidth 20).toNat

/-- The scratchpad offset of an address pattern (R19), exact. -/
def Core.apAddr (c : Core) (n : Fin 8) : Int :=
  let ap := c.aps[n]
  let term (k : Nat) : Int := apStride ap k * (c.idx k : Int) * (2 ^ apEsize ap : Nat)
  let off := term 0 + term 1 + term 2 + term 3 + term 4 + term 5
  (apBase ap : Int) + (if apModulus ap = 0 then off else off % (apModulus ap : Int))

/-! ## Tokens (R41) -/

def Core.setToken (c : Core) (k : Nat) (t : Token) : Core :=
  if k = 0 then c else { c with tokens := c.tokens.setIfInBounds k t }
def Core.token (c : Core) (k : Nat) : Token := if k = 0 then .complete else c.tokens.toList.getD k .complete

/-! ## Results (R52 to R55) -/

def QEntry.of (v : Val) (issue : Nat) : QEntry := ⟨v, issue, none⟩

/-- Write a result to its destination. -/
def Core.writeDest (c : Core) (d : Dest) (v : Val) (issue : Nat) : Core :=
  match d with
  | .none => c
  | .s n => c.setS (Fin.ofNat 64 n) v.toWord
  | .v n => c.setV n v.bits
  | .m n => c.setM (Fin.ofNat 8 n) (v.bits.setWidth 256)
  | .f n => c.setF (Fin.ofNat 8 n) (v.bits.getLsbD 0)
  | .ap n => { c with aps := c.aps.setIfInBounds n (v.bits.setWidth 192) }
  | .dq n => { c with dq := c.dq.setIfInBounds n (c.dq.toList.getD n [] ++ [QEntry.of v issue]) }
  | .eq n => { c with eq := c.eq.setIfInBounds n (c.eq.toList.getD n [] ++ [QEntry.of v issue]) }
  | .cq => { c with cq := c.cq ++ [QEntry.of v issue] }
  | .entry n id =>
    let fill (e : QEntry) : QEntry := if e.reserved == some id then { e with val := v, reserved := none } else e
    { c with dq := c.dq.setIfInBounds n ((c.dq.toList.getD n []).map fill) }

/-- The value a destination takes of a result: a push to eq is a 2048-bit entry (R134), a push to cq keeps bit 0 (R50). -/
def Dest.takes (d : Dest) (v : Val) : Val :=
  match d with
  | .eq _ => ⟨v.bits, true⟩
  | .cq => .word (if v.bits.getLsbD 0 then 1 else 0)
  | _ => v

/-- The latch entry of a result is the value written (R16, R134); an APSET enters bits [63:0] of the register (R118). -/
def Dest.enters (d : Dest) (v : Val) : Val :=
  match d with
  | .ap _ => .word v.toWord
  | _ => d.takes v

/-- One delivery: the destination, then the latch file, then the token (R41, R52, R53). -/
def Core.deliver (c : Core) (p : Pending) : Core :=
  let c := c.writeDest p.dst p.val p.issue
  let c := match p.latch with
    | some (u, x) => { c with latches := c.latches.push u x }
    | none => c
  c.setToken p.tok .complete

/-- Does a result take effect before another, or with it: by due step, then by issue step, then by slot (R53)? -/
def Pending.upTo (q p : Pending) : Bool :=
  q.due < p.due || (q.due == p.due && (q.issue < p.issue || (q.issue == p.issue && q.slot ≤ p.slot)))

/-- Results wait in the order of their delivery. -/
def insertPending (p : Pending) : List Pending → List Pending
  | [] => [p]
  | q :: ps => if q.upTo p then q :: insertPending p ps else p :: q :: ps

def Core.addPending (c : Core) (p : Pending) : Core := { c with pending := insertPending p c.pending }

/-- Deliver every result due at the running step (R52). -/
def Core.deliverDue (c : Core) : Core :=
  let due := c.pending.filter fun p => p.due ≤ c.step
  if due.isEmpty then c
  else due.foldl Core.deliver { c with pending := c.pending.filter fun p => !(p.due ≤ c.step) }

/-- Write a variable-latency value and fill its register or its reserved entry (R54, R212). -/
def Core.writeVar (c : Core) (v : VarRes) (x : Val) : Core :=
  (({ c with vars := c.vars.filter fun w => w.id != v.id } : Core).writeDest v.dst (v.dst.takes x) v.issue).setToken v.tok .complete

/-- The push that the result of slot `slot` makes, unless its entry was popped before it came (R279). -/
def Core.lent (c : Core) (slot : Nat) (d : Dest) : Core × Dest :=
  match d with
  | .dq n => if c.loans.contains (n, c.step, slot) then ({ c with loans := c.loans.erase (n, c.step, slot) }, .none) else (c, d)
  | _ => (c, d)

/-- Reserve an entry of dq n under a number, behind the pushes issued before it, whose own entries are reserved for that
(R212). -/
def Core.reserve (c : Core) (n id : Nat) : Core :=
  let step (x : Core × List Pending) (p : Pending) : Core × List Pending :=
    let (d, ps) := x
    if p.dst == .dq n then
      ({ d with nextId := d.nextId + 1
                dq := d.dq.setIfInBounds n (d.dq.toList.getD n [] ++ [⟨Val.zero, p.issue, some d.nextId⟩]) },
        ps ++ [{ p with dst := .entry n d.nextId }])
    else (d, ps ++ [p])
  let (d, ps) := c.pending.foldl step (c, [])
  { d with pending := ps, dq := d.dq.setIfInBounds n (d.dq.toList.getD n [] ++ [⟨Val.zero, c.step, some id⟩]) }

/-! ## Stage records (R213, R214) -/

structure StageRec where
  fexp : Nat
  eexp : Nat
  fcnt : Nat
  ecnt : Nat
  fph : Bool
  eph : Bool
  fgen : Nat
  reserved : Bool
  deriving DecidableEq, Repr

def StageRec.of (x : Nat) : StageRec :=
  { fexp := bits x 15 0, eexp := bits x 31 16, fcnt := bits x 47 32, ecnt := bits x 63 48, fph := x.testBit 64
    eph := x.testBit 65, fgen := bits x 127 96, reserved := bits x 95 66 != 0 || bits x 255 128 != 0 }

def StageRec.encode (r : StageRec) : Nat :=
  r.fexp + 2 ^ 16 * r.eexp + 2 ^ 32 * r.fcnt + 2 ^ 48 * r.ecnt + 2 ^ 64 * b2n r.fph + 2 ^ 65 * b2n r.eph + 2 ^ 96 * r.fgen

/-- A record that the stage instructions treat as no stage (R213). -/
def StageRec.noStage (r : StageRec) : Bool := r.fexp == 0 || r.eexp == 0 || r.reserved

/-- One arrival (R214). -/
def StageRec.arrive (r : StageRec) (empty : Bool) : StageRec :=
  if empty then
    (if r.ecnt + 1 = r.eexp then { r with ecnt := 0, eph := !r.eph } else { r with ecnt := (r.ecnt + 1) % 2 ^ 16 })
  else
    (if r.fcnt + 1 = r.fexp then { r with fcnt := 0, fph := !r.fph, fgen := (r.fgen + 1) % 2 ^ 32 }
     else { r with fcnt := (r.fcnt + 1) % 2 ^ 16 })

/-- Post an arrival at a record of the scratchpad; a record that is no stage, or lies in a poisoned sector, takes none. -/
def Core.postArrival (c : Core) (off : Nat) (empty : Bool) : Core :=
  let c := (c.detect off 32 true).1
  let r := StageRec.of (c.scrValue off 32)
  if r.noStage || (c.poisonAt off 32).isSome || c.scratchSize < off + 32 then c
  else c.scrStore off 32 (r.arrive empty).encode

/-! ## Accumulator events (R225, R236, R237, R243, R463) -/

def Core.tile (c : Core) (z : Nat) : Tile := c.tiles.toList.getD z Tile.zero
def Core.setTile (c : Core) (z : Nat) (t : Tile) : Core := { c with tiles := c.tiles.setIfInBounds z t }
def Tile.committed (t : Tile) : Vector Vec 64 := if t.commit1 then t.half1 else t.half0
def Tile.shadow (t : Tile) : Vector Vec 64 := if t.commit1 then t.half0 else t.half1
def Tile.setShadow (t : Tile) (h : Vector Vec 64) : Tile := if t.commit1 then { t with half0 := h } else { t with half1 := h }
def Tile.committedHalf (t : Tile) : Nat := if t.commit1 then 1 else 0
def Tile.shadowHalf (t : Tile) : Nat := if t.commit1 then 0 else 1

/-- Lane i of 32 bits. -/
def lane (v : Vec) (i : Nat) : Nat := bits v.toNat (32 * i + 31) (32 * i)
/-- A vector from its elements of width w, element 0 lowest (R65). -/
def packElems (w : Nat) : List Nat → Nat
  | [] => 0
  | x :: xs => x % 2 ^ w + 2 ^ w * packElems w xs
def ofLanes (f : Nat → Nat) : Vec := BitVec.ofNat 2048 (packElems 32 ((List.range 64).map f))

/-- Rounded FP32 sum (R80). -/
def addF32 (x y : Nat) : Nat := Fmt.f32.round 0 ((Fmt.f32.val x).add false (Fmt.f32.val y))

/-- Add one term to the 64 cells of a row (R79, R80, R81). -/
def addTerm (int : Bool) (row term : Vec) : Vec :=
  ofLanes fun n => if int then lane row n + lane term n else addF32 (lane row n) (lane term n)

/-- The n rows of a tile half from an offset on are written, each a full-stripe write (R187). -/
def Core.noteRows (c : Core) (off n : Nat) : Core := (List.range n).foldl (fun c i => c.noteStripe (off / 256 + i)) c

/-- Poison that the committed half has, carried to the shadow half by an MXOPEN (R236). -/
def Core.copyPoison (c : Core) (src dst : Nat) : Core :=
  let c := (c.detect src 16384 false).1.noteRows dst 64
  let kept := c.poison.filter fun p => !(dst ≤ 32 * p.1 && 32 * p.1 < dst + 16384)
  let moved := (c.poison.filter fun p => src ≤ 32 * p.1 && 32 * p.1 < src + 16384).map
    fun (p : Nat × Bool) => ((32 * p.1 + dst - src) / 32, p.2)
  { c with poison := kept ++ moved }

/-- A tile row is written back whole after it was read: a full-stripe write (R187) under which its poison stays (R463). -/
def Core.rewriteRow (c : Core) (off : Nat) : Core :=
  let kept := c.poison.filter fun p => off ≤ 32 * p.1 && 32 * p.1 < off + 256
  let d := c.noteStripe (off / 256)
  { d with poison := kept ++ d.poison }

/-- A 64-bit count moved on; it stops at its largest value rather than run back. -/
def countOn (w : Word) (n : Nat) : Word := BitVec.ofNat 64 (min (2 ^ 64 - 1) (w.toNat + n))

/-- The core has made an ordinary access: sr.pts moves on to its logical time, a free value, never back (R29, R290, R297). -/
def Core.touch (c : Core) : Core :=
  { c with pts := countOn c.pts (Config.cycles c.kid c.fresh).toNat, fresh := c.fresh + 1, accessed := false }

/-- What the executions done have accessed counts (R290). -/
def Core.stamp (c : Core) : Core := if c.accessed then c.touch else c

/-- The signature of a committed tile (R422). -/
def tileSignature (t : Tile) : Word :=
  let cells := t.committed.toList.flatMap fun v => (List.range 64).map (lane v)
  let step (acc : BitVec 64 × Nat) (x : Nat) : BitVec 64 × Nat :=
    let h := (acc.1 ^^^ BitVec.ofNat 64 (2 ^ 32 * acc.2 + x)) * 0x9E3779B97F4A7C15#64
    (h ^^^ (h >>> 29), acc.2 + 1)
  (cells.foldl step (0x6A09E667F3BCC908#64 ^^^ (if t.int then 1 else 0), 0)).1

/-- An accumulator event acts on its tile (R225). -/
def Core.actEvent (c : Core) (e : AccEvent) : Core :=
  let t := c.tile e.tile
  let c : Core := match e.act with
    | .opens => (c.copyPoison (c.tileOff e.tile t.committedHalf 0) (c.tileOff e.tile t.shadowHalf 0)).setTile e.tile
        (t.setShadow t.committed)
    | .push row int terms =>
      let off := c.tileOff e.tile t.shadowHalf row
      let (c, found) := c.detect off 256 false
      let bad := c.poison.filter fun p => off ≤ 32 * p.1 && 32 * p.1 < off + 256 && !found.contains p.1
      let c := { c with recs := c.recs ++ bad.map fun (p : Nat × Bool) => (0x0025, 0x0C, BitVec.ofNat 64 (32 * p.1), 0#64) }
      (c.rewriteRow off).setTile e.tile (t.setShadow (t.shadow.setIfInBounds row (terms.foldl (addTerm int) (t.shadow.toList.getD row 0))))
    | .zero => (c.noteRows (c.tileOff e.tile t.shadowHalf 0) 64).setTile e.tile
        (t.setShadow (Vector.replicate 64 0))
    | .zeroAll int => (c.noteRows (c.tileOff e.tile 0 0) 128).setTile e.tile { Tile.zero with commit1 := t.commit1, int := int }
    | .commit bindings log pair =>
      let t := { t with commit1 := !t.commit1 }
      let c := bindings.foldl (fun c b => c.postArrival b.off true) (c.setTile e.tile t)
      let c := if bindings.isEmpty then c else c.touch
      match log with
      | some items => { c with audits := c.audits ++
          [⟨c.kid, pair, t.int, c.kernel.strict, c.arr.factor, tileSignature t, items⟩] }
      | none => c
  c.setToken e.tok .complete

/-- Act every accumulator event due at the running step, in issue order (R225). -/
def Core.actDue (c : Core) : Core :=
  let due := c.arr.events.filter fun e => e.due ≤ c.step
  if due.isEmpty then c
  else due.foldl Core.actEvent { c with arr := { c.arr with events := c.arr.events.filter fun e => !(e.due ≤ c.step) } }

/-! ## Issuing results -/

def slotUnit : Slot → Option LUnit
  | .sc => some .sc | .va => some .va | .vb => some .vb | .xn => some .xn | _ => none

/-- The destination a port names (R49). -/
def portDest : Port → Dest
  | .s n => .s n | .v n => .v n | .m n => .m n | .f n => .f n | .ap n => .ap n
  | .dq n => .dq n | .eq n => .eq n | .cq => .cq
  | _ => .none

/-- A result of variable latency: outstanding until it is written. A generic access reserves its entry of a dq (R54, R212); a
result of another unit takes its place in a queue when it is written (DESIGN CHOICE, log 78). -/
def Core.issueVar (c : Core) (slot : Nat) (d : Dest) (k : VarKind) : Core :=
  let (c, d) := c.lent slot d
  let id := c.nextId
  let c := { c with nextId := id + 1 }
  let (c, d) : Core × Dest := match d with
    | .dq n => if slot = Slot.num .lm then (c.reserve n id, .entry n id) else (c, d)
    | _ => (c, d)
  { c with vars := c.vars ++ [⟨id, c.step, slot, d, k, c.prodTok⟩], prodTok := 0 }

/-- A result of fixed latency (R52), and what enters the latch file of its unit (R16). -/
def Core.issueBoth (c : Core) (cls : Nat) (slot : Slot) (d : Dest) (x y : Val) : Core :=
  let (c, d') := c.lent slot.num d
  { c with prodTok := 0 }.addPending
    ⟨c.step + c.lat cls, c.step, slot.num, d', d.takes x, (slotUnit slot).map fun u => (u, y), c.prodTok⟩

/-- A result of fixed latency that enters its latch file as it is written. -/
def Core.issueFixed (c : Core) (cls : Nat) (slot : Slot) (d : Dest) (x : Val) : Core := c.issueBoth cls slot d x (d.enters x)

/-- Is this result a write across streams (R276)? -/
def crossStream (sl : Slot) (p : Port) : Bool :=
  match sl, p with
  | .va, .s _ | .vb, .s _ | .xn, .s _ | .mx, .s _ => true
  | _, _ => false

/-- Issue an operation's result by its row (R52, R54). -/
def Core.issueResult (c : Core) (i : Instr) (x : Val) : Core :=
  match i.info with
  | none => c
  | some (r, o) =>
    match r.lat with
    | .var => c.issueVar r.slot.num (portDest o.dst) (.value x)
    | .cls k => if crossStream r.slot o.dst then c.issueVar r.slot.num (portDest o.dst) (.value x)
      else c.issueFixed k r.slot (portDest o.dst) x
    | .none => c

/-! ## Region abandonment, trap entry and return -/

/-- Entries whose producers issued before the region's MXOPEN step are kept (R239). -/
def keepBefore (step : Nat) (q : List QEntry) : List QEntry := q.filter fun e => e.issue < step

/-- Abandon the open region (R239). A token that a discarded event or push was to complete completes, and so does the one that an
interrupted repeat was to complete, but for a command's (R41; log 75). -/
def Core.abandon (c : Core) : Core :=
  match c.arr.region with
  | none => c
  | some r =>
    let isPush (d : Dest) : Bool := match d with
      | .dq _ | .eq _ | .cq | .entry .. => true
      | _ => false
    let arr := { c.arr with
      events := c.arr.events.filter fun e => !e.inRegion
      carry := [], rc := c.arr.rc.setIfInBounds r.tile r.rc, active := r.active, region := none
      abandoned := some { r with log := none } }
    let gone (v : VarRes) : Bool := isPush v.dst && r.openStep ≤ v.issue
    let owed := match c.cur with
      | some u => if u.exe = 0 || u.bundle.hdr.tsel == Slot.num .ec then [] else [u.bundle.hdr.tokp]
      | none => []
    let toks := owed ++ (c.arr.events.filter (·.inRegion)).map (·.tok) ++ (c.vars.filter gone).map (·.tok)
    toks.foldl (fun d k => d.setToken k .complete) { c with
      arr := arr
      dq := c.dq.map (keepBefore r.openStep), eq := c.eq.map (keepBefore r.openStep), cq := keepBefore r.openStep c.cq
      pending := c.pending.map fun p => if isPush p.dst && r.openStep ≤ p.issue then { p with dst := .none } else p
      vars := c.vars.filter fun v => !gone v }

/-- Everything older completes (R284 step 2): fixed results in order of delivery, then accumulator events. Variable
results are written before by the caller, which can sample what they read. -/
def Core.settle (c : Core) : Core :=
  let c := c.pending.foldl Core.deliver { c with pending := [] }
  c.arr.events.foldl Core.actEvent { c with arr := { c.arr with events := [] } }

/-- Variable results whose value is fixed are written (R284 step 2). -/
def Core.settleVars (c : Core) : Core :=
  c.vars.foldl (fun c v => match v.kind with | .value x | .held x => c.writeVar v x | _ => c) c

/-- sr.trapcause (R27). -/
def TrapInfo.encode (t : TrapInfo) : Word :=
  BitVec.ofNat 64 (t.cause % 256 + 256 * (if t.hdr then 0 else t.slot) + 2048 * b2n t.hdr)

/-- Everything older than the trap completes: an open region is abandoned, then every issued result delivers (R284
steps 1 and 2). -/
def Core.completeOlder (c : Core) : Core := c.stamp.abandon.settleVars.settle

/-- Trap entry (R284, R32, R240): everything older completes, with the token that the executions already done owe (R41), the trap
registers, the loop stack and the latch files are saved, INTRAP is set and PC := sr.tvec. `pc` is the address of the trapping
bundle, `j` the index of its execution, `rpt` says that its RPT is not zero, `loops` is its loop stack. For an abandoned region
R240 replaces what is saved; cause 0x15 discards the abandoned record (R242). -/
def Core.enterTrap (c : Core) (t : TrapInfo) (pc : Word) (j : Nat) (rpt : Bool) (loops : List Level) : Core :=
  let d := c.completeOlder
  { d with
    arr := if t.cause = 0x15 then { d.arr with abandoned := none } else d.arr
    trappc := match c.arr.region with | some r => r.pc | none => pc
    rptidx := match c.arr.region with | some _ => 0 | none => j
    tls := match c.arr.region with | some r => r.loops | none => loops
    shadow := match c.arr.region with | some _ => Latches.empty | none => d.latches
    inrpt := match c.arr.region with | some _ => false | none => rpt
    trapcause := t.encode, trapinfo := t.info, loops := [], intrap := true, latches := Latches.empty
    pc := d.tvec, step := d.step + 1, tokens := (d.setToken c.leftTok .complete).tokens
    cur := none, act := .none, retiring := false, point := false, raised := none, stalled := none, prodTok := 0, leftTok := 0, brkExempt := .none
    fenceWait := false, resumed := false, room := [], loans := [] }

/-- The levels of sr.tls up to the first zero count (R110). -/
def tlsDepth : List Level → List Level
  | [] => []
  | l :: ls => if l.count = 0 then [] else l :: tlsDepth ls

/-- The return from a trap (R110): loop stack and latch files restored, INTRAP and RPT cleared, PC := sr.trappc, which
resumes at execution sr.rptidx. The bundle resumed is exempt from its BRK bit, and where it opens a restart region, so is every
bundle until that region commits or is abandoned (R42, R240). -/
def Core.returnTrap (c : Core) : Core :=
  { c with
    loops := tlsDepth c.tls, latches := c.shadow, intrap := false, inrpt := false, pc := c.trappc, resumed := true
    tls := [], shadow := Latches.empty, brkExempt := .next }

/-! ## Elapsed time -/

/-- sr.cycle at the issue of the next bundle that reads it: a free number of sc, at least one, has passed (R29, R116). -/
def Core.passTime (c : Core) : Core :=
  { c with cycle := countOn c.cycle (1 + (Config.cycles c.kid c.fresh).toNat), fresh := c.fresh + 1 }

end Sys2Proof.Machine
end

