-- ==== Sys2Proof/Machine/Operands.lean ====
section
/-! DEFINITION. Operand forms: reading the ports of R49 under the empty policies of R47, pops (R50, R279), stepping (R39),
and the legality and room of a destination (R12, R15, R277). -/
namespace Sys2Proof.Machine

/-- sr.trapinfo of cause 0x06: source field and port (R285). -/
def emptyInfo (field : Nat) (p : Port) : Word := BitVec.ofNat 64 (256 * field + p.toNat)

/-- An empty source blocks or traps (R14, R47). -/
def emptyStop (field : Nat) (p : Port) (e queue : Bool) : Stop :=
  if e then .trap 0x06 (emptyInfo field p) else .stall p.toNat queue

/-- The first push under way to a destination, in delivery order, is taken: its place is kept, so that its result enters its
latch file where it would have (R53). -/
def takePush (d : Dest) : List Pending → Option (Pending × List Pending)
  | [] => none
  | p :: ps =>
    if p.dst == d then some (p, { p with dst := .none } :: ps)
    else match takePush d ps with
      | some (x, rest) => some (x, p :: rest)
      | none => none

/-- The queue entry a reserved number stands for, if its data has come (R212), with what is left outstanding. With E = 0 a
push of fixed latency is taken before its delivery step (R279). -/
def Core.reserved? (c : Core) (e : Bool) (d : Dest) (id : Nat) : Option (Core × Val) :=
  match c.vars.find? fun v => v.id == id with
  | some ⟨_, _, _, _, .value y, _⟩ =>
    let taken (v : VarRes) : VarRes := if v.id = id then { v with dst := .none } else v
    some ({ c with vars := c.vars.map taken }, y)
  | some _ => none
  | none => match d with
    | .dq n => if e then none else (takePush (.entry n id) c.pending).map fun x => ({ c with pending := x.2 }, x.1.val)
    | _ => none

/-- May an execution of the running bundle still to come push to dq n before a push under way is delivered (R279)? A younger bundle's
push never serves an older pop (R281). -/
def Core.overtaken (c : Core) (d : Dest) (x : Pending) : Bool :=
  match d, c.cur with
  | .dq _, some u => u.exe < u.bundle.hdr.rpt && c.step + 1 < x.due
  | _, _ => false

/-- Pop a queue (R50, R279): the oldest entry. The data of a generic load has come before its entry is read (R212, R273). With
E = 0 and none delivered, the next push in delivery order is taken although its delivery step is later, unless a later execution
could overtake it, for which the lead of the access stream is asked (`State.servedByLead`); with E = 1 the queue counts as empty
then. -/
def Core.pop (c : Core) (field : Nat) (p : Port) (e : Bool) (d : Dest) (q : List QEntry)
    (put : Core → List QEntry → Core) : Res (Core × Val) :=
  match q with
  | x :: rest =>
    match x.reserved with
    | none => .ok (put c rest, x.val)
    | some id => match c.reserved? e d id with
      | some (c, y) => .ok (put c rest, y)
      | none => .error (emptyStop field p e true)
  | [] =>
    match takePush d c.pending with
    | none => .error (emptyStop field p e true)
    | some (x, rest) =>
      if e || c.overtaken d x then .error (emptyStop field p e true) else .ok ({ c with pending := rest }, x.val)

/-- The issue step of the producer of the entry that a pop would take. -/
def Core.popIssue (c : Core) (p : Port) : Option Nat :=
  let first (d : Dest) (q : List QEntry) : Option Nat := match q with
    | x :: _ => some x.issue
    | [] => (takePush d c.pending).map (·.1.issue)
  match p with
  | .dq n => first (.dq n) c.dq[n]
  | .eq n => first (.eq n) c.eq[n]
  | .cq => first .cq c.cq
  | _ => none

/-- Does reading a field pop, inside a region, an entry whose producer issued before the region's MXOPEN (R238)? -/
def Core.oldPop (c : Core) (cls : OpClass) (p : Port) : Bool :=
  match c.arr.region, c.popIssue p with
  | some r, some i => cls != .none && i < r.openStep
  | _, _ => false

/-- The long immediate of the running bundle (R36). -/
def Core.imm (c : Core) : Word :=
  match c.cur with
  | some u => u.bundle.hdr.imm
  | none => 0

/-- The address of the bundle that is executing. -/
def Core.bundleAddr (c : Core) : Word :=
  match c.cur with
  | some u => u.addr
  | none => c.pc

/-- The loop stack as it stood when the bundle issued (R236). -/
def Core.bundleLoops (c : Core) : List Level :=
  match c.cur with
  | some u => u.startLoops
  | none => c.loops

/-- R43. -/
def immValue (imm : Word) : ImmSel → Word
  | .full => imm
  | .lo => (imm.setWidth 32).signExtend 64
  | .hi => ((imm >>> 32).setWidth 32).signExtend 64
  | .loz => (imm.setWidth 32).setWidth 64

/-- A port number 0xE0 + k stands for k - 16 (R49). -/
def shortValue (k : Nat) : Word := BitVec.ofInt 64 ((k : Int) - 16)

/-- The value a source port supplies (R49, R133). An address pattern yields its address (R19); lid is expanded by the
vector operations themselves. -/
def Core.readPort (c : Core) (field : Nat) (p : Port) (e : Bool) : Res (Core × Val) :=
  match p with
  | .s n => if c.isEmpty (.s n) then .error (emptyStop field p e false) else .ok (c, .word (c.getS n))
  | .v n => if c.isEmpty (.v n) then .error (emptyStop field p e false) else .ok (c, .vec (c.getV n))
  | .m n => if c.isEmpty (.m n) then .error (emptyStop field p e false) else .ok (c, .vec ((c.getM n).setWidth 2048))
  | .dq n => c.pop field p e (.dq n) c.dq[n] fun c q => { c with dq := c.dq.set n q }
  | .eq n => c.pop field p e (.eq n) c.eq[n] fun c q => { c with eq := c.eq.set n q }
  | .cq => c.pop field p e .cq c.cq fun c q => { c with cq := q }
  | .latch u a =>
    match (c.latches.get u)[a.val]? with
    | some x => .ok (c, x)
    | none => .error (emptyStop field p e false)
  | .imm k => .ok (c, .word (immValue c.imm k))
  | .loop k => .ok (c, .word (BitVec.ofNat 64 (c.idx k)))
  | .kid => .ok (c, .word (BitVec.ofNat 64 c.kid))
  | .ap n => .ok (c, .word (BitVec.ofInt 64 (c.apAddr n)))
  | .f n => .ok (c, .word (if c.getF n then 1 else 0))
  | .short k => .ok (c, .word (shortValue k))
  | .lid | .z _ | .zacc => .ok (c, Val.zero)

/-- One source field of an opcode's row: a field the opcode does not use is not read; a four-register operand must have
no empty register. -/
def Core.readField (c : Core) (cls : OpClass) (field : Nat) (p : Port) (e : Bool) : Res (Core × Val) :=
  match cls, p with
  | .none, _ => .ok (c, Val.zero)
  | .vr4, .v n =>
    if [0, 1, 2, 3].any fun r => c.isEmpty (.v (n.val + r)) then .error (emptyStop field p e false) else .ok (c, Val.zero)
  | _, p => c.readPort field p e

/-! ## Stepping (R39) -/

def Core.env (c : Core) : DecodeEnv := ⟨c.numV, c.numT, c.numN, c.kernel.pre, false⟩

/-- A port at execution j of a repeat whose RSTEP bit is set (R39). -/
def Core.stepPort (c : Core) (j : Nat) : Port → Port
  | .s n => .s (Fin.ofNat 64 ((n.val + j) % 64))
  | .v n => .v (Fin.ofNat 64 ((n.val + j) % c.numV))
  | .m n => .m (Fin.ofNat 8 ((n.val + j) % 8))
  | .f n => .f (Fin.ofNat 8 ((n.val + j) % 8))
  | .ap n => .ap (Fin.ofNat 8 ((n.val + j) % 8))
  | .z n => .z (Fin.ofNat 8 ((n.val + j) % c.numT))
  | p => p

/-- The fields of an operation that its opcode uses, stepped (R39). -/
def Core.stepOp (c : Core) (r : Row) (j : Nat) (o : Op) : Op :=
  let st (cls : OpClass) (p : Port) : Port := if cls = .none then p else c.stepPort j p
  { o with dst := st r.dst o.dst, op1 := st r.op1 o.op1, op2 := st r.op2 o.op2, op3 := st r.op3 o.op3 }

/-- The legality of the fields at one execution, in the order DST, OP1, OP2, OP3 (R39, R60). -/
def Core.checkLegal (c : Core) (r : Row) (o : Op) : Res Unit :=
  let bad (field : Nat) (p : Port) : Stop := .trap 0x04 (emptyInfo field p)
  if !r.dst.legal c.env r.slot (r.lat == .var) o.dst then .error (bad 0 o.dst)
  else if !r.op1.legal c.env r.slot false o.op1 then .error (bad 1 o.op1)
  else if !r.op2.legal c.env r.slot false o.op2 then .error (bad 2 o.op2)
  else if !r.op3.legal c.env r.slot false o.op3 then .error (bad 3 o.op3)
  else .ok ()

/-! ## Destinations -/

/-- Entries present in a queue and pushes to it under way, those of variable latency among them (R15). -/
def Core.queueUse (c : Core) (d : Dest) (q : List QEntry) : Nat :=
  q.length + (c.pending.filter fun p => p.dst == d).length + (c.vars.filter fun v => v.dst == d).length

/-- Is there room in a queue for n more entries (R11, R15), with the places that the lead of the access stream has freed (R273,
R279)? What is no queue has it. -/
def Core.hasRoom (c : Core) (p : Port) (n : Nat) : Bool :=
  let free (d : Dest) (q : List QEntry) (cap : Nat) : Bool := c.queueUse d q + n ≤ cap + c.room.count p.toNat
  match p with
  | .dq n => free (.dq n) c.dq[n] 16
  | .eq n => free (.eq n) c.eq[n] 8
  | .cq => free .cq c.cq 32
  | _ => true

/-- Room for a push, or a wait (R15). A register left empty by an outstanding write makes the operation wait (R277). -/
def Core.checkRoom (c : Core) (p : Port) : Res Unit :=
  match p with
  | .dq _ | .eq _ | .cq => if c.hasRoom p 1 then .ok () else .error (.stall p.toNat true)
  | .s n => if n != 0 && c.isEmpty (.s n) then .error (.stall p.toNat false) else .ok ()
  | .v n => if c.isEmpty (.v n) then .error (.stall p.toNat false) else .ok ()
  | .m n => if c.isEmpty (.m n) then .error (.stall p.toNat false) else .ok ()
  | _ => .ok ()

/-- Poison of a vector register that a source field reads (R135, R193). -/
def Core.checkSource (c : Core) (cls : OpClass) (p : Port) : Res Unit :=
  match cls, p with
  | .none, _ => .ok ()
  | .vr4, .v n => c.checkPoison (c.vregOff n) 1024
  | _, .v n => c.checkPoison (c.vregOff n) 256
  | _, _ => .ok ()

/-- The three source values of an operation. -/
structure Srcs where
  a : Val
  b : Val
  c : Val
  deriving DecidableEq, Repr

/-- The 48-bit word of an operation, zero-extended (R285). -/
def Instr.slotWord (i : Instr) : Word :=
  match encode i with
  | some (_, w) => BitVec.ofNat 64 w
  | none => 0

/-- The first faults of every operation (R135, R164, R201, R462): empty sources, then the legality of stepped ports, then the
pop of an entry older than the open region (R238), a cause 0x05 that R135 does not place among its causes (DESIGN CHOICE, log 94);
then the wait for room at the destination. -/
def Core.sources (c : Core) (i : Instr) : Res (Core × Srcs) :=
  match i.info with
  | none => .ok (c, ⟨Val.zero, Val.zero, Val.zero⟩)
  | some (r, o) => do
    let old1 := c.oldPop r.op1 o.op1
    let (c, x) ← c.readField r.op1 1 o.op1 o.e1
    let old2 := c.oldPop r.op2 o.op2
    let (c, y) ← c.readField r.op2 2 o.op2 o.e2
    let old3 := c.oldPop r.op3 o.op3
    let (c, z) ← c.readField r.op3 3 o.op3 o.e3
    c.checkLegal r o
    if old1 || old2 || old3 then .error (.wordTrap 0x05)
    c.checkRoom o.dst
    .ok (c, ⟨x, y, z⟩)

/-- Poison of the vector registers that an operation reads (R193). -/
def Core.checkSources (c : Core) (i : Instr) : Res Unit :=
  match i.info with
  | none => .ok ()
  | some (r, o) => do
    c.checkSource r.op1 o.op1
    c.checkSource r.op2 o.op2
    c.checkSource r.op3 o.op3

/-- The source values of an operation whose remaining faults come after the poison of its registers (R135, R164). -/
def Core.operands (c : Core) (i : Instr) : Res (Core × Srcs) := do
  let (c, x) ← c.sources i
  c.checkSources i
  .ok (c, x)

/-- The guard of an operation (R46). -/
def Core.guardHolds (c : Core) (o : Op) : Bool := c.getF o.gf != o.gn

/-- An AD operand as an exact offset (R198): an address pattern is signed and exact, any other value unsigned. -/
def Core.adOffset (c : Core) (p : Port) (x : Val) : Int :=
  match p with
  | .ap n => c.apAddr n
  | _ => (x.toWord.toNat : Int)

/-! ## Elements of vectors (R65, R133) -/

/-- A vector source at element width w: a scalar supplies its low w bits to every element, lid its index (R133). Read at another
width than the operation's, lid is indexed at the width read, and a latch entry that holds a 64-bit word (a count, or the bit of a result
whose destination was cq) supplies its low w bits like a scalar (DESIGN CHOICE, log 79). -/
def srcVec (w : Nat) (p : Port) (x : Val) : Nat :=
  match p with
  | .lid => packElems w (List.range (2048 / w))
  | _ => if x.wide then x.bits.toNat else packElems w (List.replicate (2048 / w) x.toWord.toNat)

/-- Element i of width w. -/
def elem (w : Nat) (v : Nat) (i : Nat) : Nat := v / 2 ^ (w * i) % 2 ^ w

/-- The n lowest elements of width w, lowest first. -/
def elems (w : Nat) (v : Nat) : Nat → List Nat
  | 0 => []
  | n + 1 => v % 2 ^ w :: elems w (v / 2 ^ w) n

end Sys2Proof.Machine
end

