-- ==== Sys2Proof/Machine/Flags.lean ====
section
/-! DEFINITION. Flag and condition computations (R87, R94, R123, R127, R129, R144). -/
namespace Sys2Proof.Machine

/-- An integer condition at width w (R87): eq, ne, lt, le signed, ltn, len unsigned. -/
def intCond (w code : Nat) (a b : Nat) : Bool :=
  match code with
  | 0 => a % 2 ^ w == b % 2 ^ w
  | 1 => a % 2 ^ w != b % 2 ^ w
  | 2 => sextN w a < sextN w b
  | 3 => sextN w a ≤ sextN w b
  | 4 => a % 2 ^ w < b % 2 ^ w
  | _ => a % 2 ^ w ≤ b % 2 ^ w

/-- A float condition on two encodings (R70, R129); VCMP uses codes 0 to 3 alone (R94). -/
def floatCond (f : Fmt) (code a b : Nat) : Bool := FVal.cond code (f.val a) (f.val b)

/-- An element condition of VCMP (R144). -/
def elemCond (t : ElemTy) (code a b : Nat) : Bool :=
  if t.isFloat then floatCond (Fmt.of t) code a b else intCond t.width code a b

/-- FLAGOP: bit 2a + b of the table (R127). -/
def flagTable (table : Nat) (a b : Bool) : Bool := table.testBit (2 * b2n a + b2n b)

/-- A flag result as a value: 0 or 1 (R118). -/
def Val.flag (b : Bool) : Val := Val.word (if b then 1 else 0)

/-- The status word (R28). -/
def Core.status (c : Core) : Word :=
  BitVec.ofNat 64 (b2n c.intrap + 2 * b2n c.preq + 4 * b2n c.arr.region.isSome + 8 * b2n c.inrpt + 16 * b2n c.degr)

end Sys2Proof.Machine
end

