-- ==== Sys2Proof/Machine/Scalar.lean ====
section
/-! DEFINITION. The SC slot (R118 to R131): what each operation does at its step. -/
namespace Sys2Proof.Machine

/-- An operation from three 64-bit sources to a 64-bit result (R118). -/
def scalarOp (i : Instr) (f : Word → Word → Word → Word) (c : Core) : Res Core := do
  let (c, x) ← c.operands i
  .ok (c.issueResult i (.word (f x.a.toWord x.b.toWord x.c.toWord)))

/-- An operation from three 64-bit sources to a flag. -/
def flagResult (i : Instr) (f : Word → Word → Word → Bool) (c : Core) : Res Core := do
  let (c, x) ← c.operands i
  .ok (c.issueResult i (.flag (f x.a.toWord x.b.toWord x.c.toWord)))

/-! ## Integer arithmetic (R67, R119, R120) -/

/-- The high half of the product (R119). -/
def mulHigh (unsigned : Bool) (a b : Word) : Word :=
  if unsigned then BitVec.ofNat 64 (a.toNat * b.toNat / 2 ^ 64)
  else BitVec.ofInt 64 (a.toInt * b.toInt / (2 ^ 64 : Nat))

/-- Quotient under R67. -/
def divWord (unsigned : Bool) (a b : Word) : Word :=
  if b = 0 then BitVec.allOnes 64
  else if unsigned then BitVec.ofNat 64 (a.toNat / b.toNat)
  else BitVec.ofInt 64 (a.toInt.tdiv b.toInt)

/-- Remainder under R67. -/
def remWord (unsigned : Bool) (a b : Word) : Word :=
  if b = 0 then a
  else if unsigned then BitVec.ofNat 64 (a.toNat % b.toNat)
  else BitVec.ofInt 64 (a.toInt.tmod b.toInt)

/-- Shifts by amount[7:0] (R120). -/
def shlWord (a amt : Word) : Word := if 64 ≤ amt.toNat % 256 then 0 else a <<< (amt.toNat % 256)
def shrWord (a amt : Word) : Word := if 64 ≤ amt.toNat % 256 then 0 else a >>> (amt.toNat % 256)
def sraWord (a amt : Word) : Word :=
  if 64 ≤ amt.toNat % 256 then (if a.msb then BitVec.allOnes 64 else 0) else a.sshiftRight (amt.toNat % 256)
def rotlWord (a amt : Word) : Word := (a <<< (amt.toNat % 64)) ||| (a >>> (64 - amt.toNat % 64))

/-- The funnel shifts of R121 on the 128-bit pair, at width w and amount m below 2w (R148). -/
def funnelLeft (w hi lo m : Nat) : Nat :=
  let x := hi % 2 ^ w * 2 ^ w + lo % 2 ^ w
  (x * 2 ^ m + x / 2 ^ (2 * w - m)) % 2 ^ w
def funnelRight (w hi lo m : Nat) : Nat :=
  let x := hi % 2 ^ w * 2 ^ w + lo % 2 ^ w
  (x / 2 ^ m + x * 2 ^ (2 * w - m)) / 2 ^ w % 2 ^ w

def clzNat (w x : Nat) : Nat := if x % 2 ^ w = 0 then w else w - 1 - Nat.log2 (x % 2 ^ w)
/-- Trailing zeros among the low n bits. -/
def ctzNat : Nat → Nat → Nat
  | 0, _ => 0
  | n + 1, x => if x % 2 = 1 then 0 else 1 + ctzNat n (x / 2)
/-- One bits among the low n bits. -/
def popNat : Nat → Nat → Nat
  | 0, _ => 0
  | n + 1, x => x % 2 + popNat n (x / 2)

def minWord (unsigned isMax : Bool) (a b : Word) : Word :=
  let less := if unsigned then a.toNat < b.toNat else a.toInt < b.toInt
  if less == isMax then b else a

/-! ## Bit fields (R125, R126) -/

def bfxWord (signed : Bool) (a pos len : Word) : Word :=
  let p := pos.toNat % 64
  let l := min (len.toNat % 128) (64 - p)
  let f := a.toNat / 2 ^ p % 2 ^ l
  if l = 0 then 0 else if signed then BitVec.ofInt 64 (sextN l f) else BitVec.ofNat 64 f

def bfiWord (base field pl : Word) : Word :=
  let p := pl.toNat % 64
  let l := min (bits pl.toNat 14 8) (64 - p)
  let msk : Word := BitVec.ofNat 64 ((2 ^ l - 1) * 2 ^ p)
  (base &&& ~~~msk) ||| ((field <<< p) &&& msk)

def extWord (signed : Bool) (a n : Word) : Word :=
  let k := n.toNat % 128
  if k = 0 then 0
  else if 64 ≤ k then a
  else if signed then BitVec.ofInt 64 (sextN k a.toNat) else BitVec.ofNat 64 (a.toNat % 2 ^ k)

/-! ## Scalar floating point (R128, R130) -/

def f32Of (a : Word) : FVal := Fmt.f32.val (a.toNat % 2 ^ 32)
def rmOf (m : Bool) : Nat := if m then 1 else 0

def faddWord (m : Bool) (a b : Word) : Word := BitVec.ofNat 64 (Fmt.f32.round (rmOf m) ((f32Of a).add false (f32Of b)))
def fsubWord (m : Bool) (a b : Word) : Word := BitVec.ofNat 64 (Fmt.f32.round (rmOf m) ((f32Of a).add false (f32Of b).neg))
def fmulWord (m : Bool) (a b : Word) : Word := BitVec.ofNat 64 (Fmt.f32.round (rmOf m) ((f32Of a).mul (f32Of b)))
def ffmaWord (m : Bool) (a b x : Word) : Word :=
  BitVec.ofNat 64 (Fmt.f32.round (rmOf m) ((f32Of a).fma false (f32Of b) (f32Of x)))
def fminWord (isMax : Bool) (a b : Word) : Word :=
  BitVec.ofNat 64 (Fmt.f32.minmax isMax (a.toNat % 2 ^ 32) (b.toNat % 2 ^ 32))

/-- FCVT by the selector of R87 in mode rm. -/
def fcvtWord (a : Word) (sel rm : Nat) : Word :=
  let x := a.toNat
  let f32 := Fmt.f32.val (x % 2 ^ 32)
  let f16 := Fmt.f16.val (x % 2 ^ 16)
  let bf := Fmt.bf16.val (x % 2 ^ 16)
  match sel with
  | 0 => BitVec.ofNat 64 (Fmt.f16.round rm f32)
  | 1 => BitVec.ofNat 64 (Fmt.bf16.round rm f32)
  | 2 => BitVec.ofNat 64 (Fmt.f32.round 0 f16)
  | 3 => BitVec.ofNat 64 (Fmt.f32.round 0 bf)
  | 4 => BitVec.ofNat 64 (Fmt.bf16.round rm f16)
  | 5 => BitVec.ofNat 64 (Fmt.f16.round rm bf)
  | 6 => BitVec.ofInt 64 (satRound rm 32 false f32)
  | 7 => BitVec.ofInt 64 (satRound rm 32 true f32)
  | 8 => BitVec.ofInt 64 (satRound rm 64 false f32)
  | 9 => BitVec.ofInt 64 (satRound rm 64 true f32)
  | 10 => BitVec.ofInt 64 (satRound rm 64 false f16)
  | _ => BitVec.ofInt 64 (satRound rm 64 false bf)

/-- ICVT to the type of code 3, 4 or 5 in mode rm (R130). -/
def icvtWord (unsigned : Bool) (a : Word) (code rm : Nat) : Word :=
  BitVec.ofNat 64 ((Fmt.of (ElemTy.ofCode code)).round rm (.ofInt (intVal 64 unsigned a.toNat)))

/-! ## The operations -/

def issueAdd (o : Op) : Core → Res Core := scalarOp (.add o) fun a b _ => a + b
def issueSub (o : Op) : Core → Res Core := scalarOp (.sub o) fun a b _ => a - b
def issueMul (o : Op) : Core → Res Core := scalarOp (.mul o) fun a b _ => a * b
def issueMulh (o : Op) : Core → Res Core := scalarOp (.mulh o) fun a b _ => mulHigh o.mod a b
def issueDiv (o : Op) : Core → Res Core := scalarOp (.div o) fun a b _ => divWord o.mod a b
def issueRem (o : Op) : Core → Res Core := scalarOp (.rem o) fun a b _ => remWord o.mod a b
def issueAnd (o : Op) : Core → Res Core := scalarOp (.and o) fun a b _ => a &&& b
def issueOr (o : Op) : Core → Res Core := scalarOp (.or o) fun a b _ => a ||| b
def issueXor (o : Op) : Core → Res Core := scalarOp (.xor o) fun a b _ => a ^^^ b
def issueAndn (o : Op) : Core → Res Core := scalarOp (.andn o) fun a b _ => a &&& ~~~b
def issueShl (o : Op) : Core → Res Core := scalarOp (.shl o) fun a b _ => shlWord a b
def issueShr (o : Op) : Core → Res Core := scalarOp (.shr o) fun a b _ => shrWord a b
def issueSra (o : Op) : Core → Res Core := scalarOp (.sra o) fun a b _ => sraWord a b
def issueRotl (o : Op) : Core → Res Core := scalarOp (.rotl o) fun a b _ => rotlWord a b
def issueFshl (o : Op) : Core → Res Core := scalarOp (.fshl o) fun hi lo amt =>
  BitVec.ofNat 64 (funnelLeft 64 hi.toNat lo.toNat (amt.toNat % 256 % 128))
def issueFshr (o : Op) : Core → Res Core := scalarOp (.fshr o) fun hi lo amt =>
  BitVec.ofNat 64 (funnelRight 64 hi.toNat lo.toNat (amt.toNat % 256 % 128))
def issueClz (o : Op) : Core → Res Core := scalarOp (.clz o) fun a _ _ => BitVec.ofNat 64 (clzNat 64 a.toNat)
def issueCtz (o : Op) : Core → Res Core := scalarOp (.ctz o) fun a _ _ => BitVec.ofNat 64 (ctzNat 64 a.toNat)
def issuePopc (o : Op) : Core → Res Core := scalarOp (.popc o) fun a _ _ => BitVec.ofNat 64 (popNat 64 a.toNat)
def issueMin (o : Op) : Core → Res Core := scalarOp (.min o) fun a b _ => minWord o.mod false a b
def issueMax (o : Op) : Core → Res Core := scalarOp (.max o) fun a b _ => minWord o.mod true a b
def issueCmp (o : Op) : Core → Res Core := flagResult (.cmp o) fun a b k => intCond 64 k.toNat a.toNat b.toNat
def issueSel (o : Op) : Core → Res Core := scalarOp (.sel o) fun f a b => if f = 0 then b else a
def issueMov (o : Op) : Core → Res Core := scalarOp (.mov o) fun a _ _ => a
def issueBfx (o : Op) : Core → Res Core := scalarOp (.bfx o) fun a p l => bfxWord o.mod a p l
def issueBfi (o : Op) : Core → Res Core := scalarOp (.bfi o) fun a f pl => bfiWord a f pl
def issueSext (o : Op) : Core → Res Core := scalarOp (.sext o) fun a n _ => extWord true a n
def issueZext (o : Op) : Core → Res Core := scalarOp (.zext o) fun a n _ => extWord false a n
def issueFlagop (o : Op) : Core → Res Core := flagResult (.flagop o) fun a b t => flagTable t.toNat (a != 0) (b != 0)
def issueFadd (o : Op) : Core → Res Core := scalarOp (.fadd o) fun a b _ => faddWord o.mod a b
def issueFsub (o : Op) : Core → Res Core := scalarOp (.fsub o) fun a b _ => fsubWord o.mod a b
def issueFmul (o : Op) : Core → Res Core := scalarOp (.fmul o) fun a b _ => fmulWord o.mod a b
def issueFfma (o : Op) : Core → Res Core := scalarOp (.ffma o) fun a b x => ffmaWord o.mod a b x
def issueFmin (o : Op) : Core → Res Core := scalarOp (.fmin o) fun a b _ => fminWord false a b
def issueFmax (o : Op) : Core → Res Core := scalarOp (.fmax o) fun a b _ => fminWord true a b
def issueFcmp (o : Op) : Core → Res Core := flagResult (.fcmp o) fun a b k =>
  floatCond Fmt.f32 k.toNat (a.toNat % 2 ^ 32) (b.toNat % 2 ^ 32)
def issueFcvt (o : Op) : Core → Res Core := scalarOp (.fcvt o) fun a s rm => fcvtWord a s.toNat rm.toNat
def issueIcvt (o : Op) : Core → Res Core := scalarOp (.icvt o) fun a t rm => icvtWord o.mod a t.toNat rm.toNat

/-- Does R18 allow this pattern: no reserved field set and ESIZE at most 8. -/
def apLegal (x : BitVec 192) : Bool := bits x.toNat 191 184 == 0 && bits x.toNat 63 44 == 0 && apEsize x ≤ 8

/-- R131. -/
def issueApset (o : Op) (c : Core) : Res Core := do
  let (c, x) ← c.operands (.apset o)
  let v : BitVec 192 := x.c.toWord ++ x.b.toWord ++ x.a.toWord
  if apLegal v then .ok (c.issueResult (.apset o) (.vec (v.setWidth 2048)))
  else .error (.wordTrap 0x02)

/-- R131: APGET reads the register, not its address. -/
def issueApget (o : Op) (c : Core) : Res Core := do
  let (c, x) ← c.operands (.apget o)
  let ap : BitVec 192 := match o.op1 with
    | .ap n => c.aps[n]
    | _ => 0
  .ok (c.issueResult (.apget o) (.word ((ap >>> (64 * x.b.toWord.toNat)).setWidth 64)))

end Sys2Proof.Machine
end

