-- ==== Sys2Proof/Machine/LocalMem.lean ====
section
/-! DEFINITION. The LM slot's pool accesses, stages and queries (R198 to R207, R213 to R219). -/
namespace Sys2Proof.Machine

/-- An operation that R238 forbids while a region is open. -/
def Core.outsideRegion (c : Core) : Res Unit := if c.arr.region.isSome then .error (.wordTrap 0x05) else .ok ()

/-- A misaligned offset traps with cause 0x0B; a negative one is tested on its two's complement value (R19, R201). -/
def checkAlign (a : Int) (n : Nat) : Res Unit :=
  if (BitVec.ofInt 64 a).toNat % n = 0 then .ok () else .error (.trap 0x0B (BitVec.ofInt 64 a))

/-- The poison of a register operand comes last (R201 order 7). -/
def finishLoad (i : Instr) (c : Core) (x : Val) : Res Core := do
  c.checkSources i
  .ok (c.issueResult i x)

/-! ## Vector and mask transfers (R203) -/

def issueLdv (o : Op) (c : Core) : Res Core := do
  let (c, x) ← c.sources (.ldv o)
  let a := c.adOffset o.op1 x.a
  checkAlign a 256
  let v ← c.loadPool a 256
  finishLoad (.ldv o) c (.vec (BitVec.ofNat 2048 v))

/-- The range test over several pieces of n bytes, each at its own offset: the lowest byte at fault is reported. -/
def Core.checkRanges (c : Core) (n : Nat) : List Int → Res Unit
  | [] => .ok ()
  | a :: as => do
    let _ ← c.checkRange a n
    c.checkRanges n as

def Core.checkPoisons (c : Core) (n : Nat) : List Int → Res Unit
  | [] => .ok ()
  | a :: as => do
    c.checkPoison a.toNat n
    c.checkPoisons n as

/-- The eight sectors of a transposed access (R203, R204). -/
def columnOffsets (a : Int) : List Int := (List.range 8).map fun (r : Nat) => a + 256 * (r : Int)

def issueLdvt (o : Op) (c : Core) : Res Core := do
  let (c, x) ← c.sources (.ldvt o)
  let a := c.adOffset o.op1 x.a
  checkAlign a 32
  c.checkRanges 32 (columnOffsets a)
  c.checkPoisons 32 (columnOffsets a)
  let v := packElems 256 ((columnOffsets a).map fun p => c.seenValue p.toNat 32)
  .ok (c.issueResult (.ldvt o) (.vec (BitVec.ofNat 2048 v)))

def issueStv (o : Op) (c : Core) : Res Core := do
  let (c, x) ← c.sources (.stv o)
  c.outsideRegion
  let a := c.adOffset o.op1 x.a
  checkAlign a 256
  let _ ← c.checkRange a 256
  c.checkSources (.stv o)
  c.storePool a 256 x.b.toVec.toNat

/-- Store the sectors of a transposed access, in rising r (R293). -/
def storeColumn (c : Core) (v : Nat) : List Int → Res Core
  | [] => .ok c
  | a :: as => do
    let c ← c.storePool a 32 (v % 2 ^ 256)
    storeColumn c (v / 2 ^ 256) as

def issueStvt (o : Op) (c : Core) : Res Core := do
  let (c, x) ← c.sources (.stvt o)
  c.outsideRegion
  let a := c.adOffset o.op1 x.a
  checkAlign a 32
  c.checkRanges 32 (columnOffsets a)
  c.checkSources (.stvt o)
  storeColumn c x.b.toVec.toNat (columnOffsets a)

def issueLdvu (o : Op) (c : Core) : Res Core := do
  let (c, x) ← c.sources (.ldvu o)
  let v ← c.loadPool (c.adOffset o.op1 x.a) 256
  finishLoad (.ldvu o) c (.vec (BitVec.ofNat 2048 v))

/-- The offsets of the bytes a mask selects (R203). -/
def selectedBytes (a : Int) (m : Nat) : List Int := ((List.range 256).filter fun j => m.testBit j).map fun (j : Nat) => a + (j : Int)

def issueLdvm (o : Op) (c : Core) : Res Core := do
  let (c, x) ← c.sources (.ldvm o)
  let a := c.adOffset o.op1 x.a
  let m := x.b.bits.toNat
  c.checkRanges 1 (selectedBytes a m)
  c.checkPoisons 1 (selectedBytes a m)
  let v := packElems 8 ((List.range 256).map fun j => if m.testBit j then c.seenValue (a + (j : Int)).toNat 1 else 0)
  finishLoad (.ldvm o) c (.vec (BitVec.ofNat 2048 v))

/-- The selected bytes of each aligned sector are one write to it; a whole stripe is a full-stripe write (R205). The
runs of consecutive selected bytes from j on, as (first, length). -/
def byteRuns (m : Nat) : Nat → Nat → Option (Nat × Nat) → List (Nat × Nat)
  | 0, _, run => run.toList
  | n + 1, j, run =>
    if m.testBit j then
      match run with
      | some (s, l) => byteRuns m n (j + 1) (some (s, l + 1))
      | none => byteRuns m n (j + 1) (some (j, 1))
    else run.toList ++ byteRuns m n (j + 1) none

def storeRuns (c : Core) (a : Int) (v : Nat) : List (Nat × Nat) → Res Core
  | [] => .ok c
  | (s, l) :: rs => do
    let c ← c.storePool (a + (s : Int)) l (v / 2 ^ (8 * s))
    storeRuns c a v rs

def issueStvb (o : Op) (c : Core) : Res Core := do
  let (c, x) ← c.sources (.stvb o)
  c.outsideRegion
  let a := c.adOffset o.op1 x.a
  let m := x.c.bits.toNat
  c.checkRanges 1 (selectedBytes a m)
  if m ≠ 0 then c.checkSources (.stvb o)
  storeRuns c a x.b.toVec.toNat (byteRuns m 256 0 none)

def issueLdm (o : Op) (c : Core) : Res Core := do
  let (c, x) ← c.sources (.ldm o)
  let a := c.adOffset o.op1 x.a
  checkAlign a 32
  let v ← c.loadPool a 32
  finishLoad (.ldm o) c (.vec (BitVec.ofNat 2048 v))

def issueStm (o : Op) (c : Core) : Res Core := do
  let (c, x) ← c.sources (.stm o)
  c.outsideRegion
  let a := c.adOffset o.op1 x.a
  checkAlign a 32
  c.storePool a 32 (x.b.bits.toNat % 2 ^ 256)

/-! ## Scalar accesses and atomics (R89, R206, R207) -/

/-- The bytes of a width code (R89). -/
def widthBytes (code : Nat) : Nat := 2 ^ (code % 4)

/-- A loaded value extended to 64 bits (R206). -/
def extendLoad (signed : Bool) (n v : Nat) : Word := if signed then BitVec.ofInt 64 (sextN (8 * n) v) else BitVec.ofNat 64 v

def issueLds (o : Op) (c : Core) : Res Core := do
  let (c, x) ← c.sources (.lds o)
  let a := c.adOffset o.op1 x.a
  let n := widthBytes x.b.toWord.toNat
  checkAlign a n
  let v ← c.loadPool a n
  .ok (c.issueResult (.lds o) (.word (extendLoad o.mod n v)))

def issueSts (o : Op) (c : Core) : Res Core := do
  let (c, x) ← c.sources (.sts o)
  c.outsideRegion
  let a := c.adOffset o.op1 x.a
  let n := widthBytes x.c.toWord.toNat
  checkAlign a n
  c.storePool a n (x.b.toWord.toNat % 2 ^ (8 * n))

/-- The new value of an atomic on n bytes (R89, R207). -/
def atomicNew (code n old y : Nat) : Nat :=
  let w := 8 * n
  match code with
  | 0 => (old + y) % 2 ^ w
  | 1 => old &&& y
  | 2 => old ||| y
  | 3 => old ^^^ y
  | 4 => if sextN w y < sextN w old then y else old
  | 5 => if sextN w old < sextN w y then y else old
  | 6 => min old y
  | 7 => max old y
  | 8 => y
  | _ => addF32 old y

/-- The width of an atomic: `.32` is MOD = 1. -/
def atomBytes (m : Bool) : Nat := if m then 4 else 8

def issueAtoml (o : Op) (c : Core) : Res Core := do
  let (c, x) ← c.sources (.atoml o)
  c.outsideRegion
  let a := c.adOffset o.op1 x.a
  let n := atomBytes o.mod
  checkAlign a n
  let old ← c.loadPool a n
  let c ← c.storePool a n (atomicNew x.c.toWord.toNat n old (x.b.toWord.toNat % 2 ^ (8 * n)))
  .ok (c.issueResult (.atoml o) (.word (BitVec.ofNat 64 old)))

def issueCasl (o : Op) (c : Core) : Res Core := do
  let (c, x) ← c.sources (.casl o)
  c.outsideRegion
  let a := c.adOffset o.op1 x.a
  let n := atomBytes o.mod
  checkAlign a n
  let old ← c.loadPool a n
  let c ← if old = x.b.toWord.toNat % 2 ^ (8 * n) then c.storePool a n (x.c.toWord.toNat % 2 ^ (8 * n)) else .ok c
  .ok (c.issueResult (.casl o) (.word (BitVec.ofNat 64 old)))

/-! ## Stages (R213 to R217) -/

/-- Read a stage record; a record that is no stage traps with cause 0x05 (R213). -/
def Core.stageAt (c : Core) (a : Int) : Res StageRec := do
  let r := StageRec.of (← c.loadPool a 32)
  if r.noStage then .error (.wordTrap 0x05) else .ok r

/-- R215. -/
def issueSinit (o : Op) (c : Core) : Res Core := do
  let (c, x) ← c.sources (.sinit o)
  c.outsideRegion
  let k := x.b.toWord.toNat
  if k % 2 ^ 16 = 0 || bits k 31 16 = 0 || 2 ^ 32 ≤ k then .error (.trap 0x02 x.b.toWord)
  else
    let a := c.adOffset o.op1 x.a
    checkAlign a 32
    c.storePool a 32 k

/-- A wait for a phase bit to differ from ph[0] (R216). -/
def stageWait (i : Instr) (o : Op) (empty : Bool) (c : Core) : Res Core := do
  let (c, x) ← c.sources i
  let a := c.adOffset o.op1 x.a
  checkAlign a 32
  let r ← c.stageAt a
  if (if empty then r.eph else r.fph) == x.b.toWord.getLsbD 0 then .error (.stall 256 false) else .ok c

def issueSwait (o : Op) : Core → Res Core := stageWait (.swait o) o false
def issueSwaitEmpty (o : Op) : Core → Res Core := stageWait (.swaitEmpty o) o true

/-- R217: the wait acquires what the channel has written up to its pointer (R299). -/
def issueSwaitPtr (o : Op) (c : Core) : Res Core := do
  let (c, x) ← c.sources (.swaitPtr o)
  let ch := x.a.toWord.toNat
  if 3 < ch then .error (.trap 0x04 x.a.toWord)
  else
    let k := c.chans.toList.getD ch ⟨0, none, 0⟩
    if x.b.toWord.toNat ≤ k.ptr.toNat then .ok { c with acquired := c.acquired.setIfInBounds ch k.ptr }
    else match k.halt with
      | some (code, _) => .error (.trap 0x07 (BitVec.ofNat 64 (code % 2 ^ 16)))
      | none => .error (.stall 256 false)

/-- One arrival at a stage record (R214, R216). -/
def stageArrive (i : Instr) (o : Op) (empty : Bool) (c : Core) : Res Core := do
  let (c, x) ← c.sources i
  c.outsideRegion
  let a := c.adOffset o.op1 x.a
  checkAlign a 32
  let r ← c.stageAt a
  c.storePool a 32 (r.arrive empty).encode

def issueSarr (o : Op) : Core → Res Core := stageArrive (.sarr o) o false
def issueSarrEmpty (o : Op) : Core → Res Core := stageArrive (.sarrEmpty o) o true

/-! ## Queries and caches (R219 to R221) -/

/-- The state word of group g (R194). -/
def Core.groupWord (c : Core) (g : Nat) : Word :=
  let x := c.group g
  let pois := (c.poison.filter fun p => poolGroup (32 * p.1) == g).length
  BitVec.ofNat 64 (x.state + 2 ^ 8 * x.dbank + 2 ^ 16 * (if x.state = 0 then x.entries.length else 0) + 2 ^ 40 * min pois 255 +
    2 ^ 48 * min x.uecnt 255 + 2 ^ 56 * min x.cecnt 255)

/-- R219. -/
def issueBankq (o : Op) (c : Core) : Res Core := do
  let (c, x) ← c.sources (.bankq o)
  if 11 < x.a.toWord.toNat then .error (.trap 0x04 x.a.toWord)
  else .ok (c.issueResult (.bankq o) (.word (c.groupWord x.a.toWord.toNat)))

/-- PLDL changes no architectural state and never faults (R220). -/
def issuePldl (o : Op) (c : Core) : Res Core := do
  let (c, _) ← c.sources (.pldl o)
  .ok c

/-- FLUSHL1 changes no value that any access returns (R221); R238 forbids it in a region. -/
def flushL1 (i : Instr) (c : Core) : Res Core := do
  let (c, _) ← c.sources i
  c.outsideRegion
  .ok c

def issueFlushl1 (o : Op) : Core → Res Core := flushL1 (.flushl1 o)
def issueFlushl1Inv (o : Op) : Core → Res Core := flushL1 (.flushl1Inv o)

end Sys2Proof.Machine
end

