-- ==== Sys2Proof/Machine/Control.lean ====
section
/-! DEFINITION. The BR slot (R100 to R117): a BR operation reads its sources at its step and leaves an action, which is
performed after the other slots of its execution (R101). -/
namespace Sys2Proof.Machine

/-! ## Loop ends (R104 to R107) -/

/-- Loop-end processing of the bundle at an address over the levels, innermost first (R106): the levels left, the next
PC if a level branches back, and the number of levels processed. A restored level whose index is 0xFFFF_FFFF ends: index + 1 does not wrap
(DESIGN CHOICE, log 99). -/
def loopEnd (addr : Word) : List Level → List Level × Option Word × Nat
  | [] => ([], none, 0)
  | l :: ls =>
    if l.fin ≠ addr then (l :: ls, none, 0)
    else if l.index.toNat + 1 < l.count.toNat then ({ l with index := l.index + 1 } :: ls, some l.start, 1)
    else
      let (ls', pc, n) := loopEnd addr ls
      (ls', pc, n + 1)

/-- The bundle that runs next in sequence: the loop stack and the PC after the loop end, and the outermost level whose
iteration boundary passed (R106, R287). -/
def Core.sequel (c : Core) (addr : Word) : List Level × Word × Option Nat :=
  let (ls, pc, n) := loopEnd addr c.loops.reverse
  (ls.reverse, pc.getD (addr + 64), if n = 0 then none else some (c.loops.length - n))

/-- Does the body of a level contain an address (R104). -/
def Level.holds (l : Level) (t : Word) : Bool := l.start.toNat ≤ t.toNat && t.toNat ≤ l.fin.toNat

/-- A misaligned target traps with cause 0x0B (R100). -/
def checkTarget (t : Word) : Res Unit := if t.toNat % 64 = 0 then .ok () else .error (.trap 0x0B t)

/-- Is a pre-emption point taken here (R108, R287). -/
def Core.pointTaken (c : Core) : Bool := c.kernel.pre && c.preq && c.arr.region.isNone && !c.intrap

/-- Go on in sequence, with loop ends processed (R106). -/
def Core.advance (c : Core) (addr : Word) (yields : Bool) : Core :=
  let (loops, pc, boundary) := c.sequel addr
  let at' := match boundary with
    | some k => k ≤ c.kernel.plevel && c.kernel.plevel != 7
    | none => false
  { c with loops := loops, pc := pc, point := (yields || at') && c.pointTaken }

/-- The tests of LOOP in their order (R105). -/
def Core.pushLoop (c : Core) (addr : Word) (count : BitVec 32) (fin : Word) : Res Core :=
  if fin.toNat % 64 ≠ 0 then .error (.trap 0x0B fin)
  else
    let beyond := match c.loops.getLast? with
      | some l => l.fin.toNat < fin.toNat || l.fin == addr
      | none => false
    if fin.toNat < addr.toNat + 64 || beyond then .error (.wordTrap 0x05)
    else if count = 0 then .ok { c with pc := fin + 64 }
    else if 6 ≤ c.loops.length then .error (.trap 0x0E (count.setWidth 64))
    else .ok { c with loops := c.loops ++ [⟨addr + 64, fin, count, 0⟩], pc := addr + 64 }

/-! ## Special registers (R25 to R30) -/

/-- Is this index of MFSR and MTSR listed (R25)? -/
def srListed (i : Nat) : Bool := i ≤ 0x0A || (0x10 ≤ i && i ≤ 0x27)

def Level.field (l : Level) : Nat → Word
  | 0 => l.start
  | 1 => l.fin
  | 2 => l.count.setWidth 64
  | _ => l.index.setWidth 64

/-- The value MFSR reads. -/
def Core.readSr (c : Core) (i : Nat) : Word :=
  match i with
  | 0 => c.trappc
  | 1 => c.trapcause
  | 2 => c.trapinfo
  | 3 => c.tvec
  | 4 => c.status
  | 5 => BitVec.ofNat 64 c.rptidx
  | 6 => BitVec.ofNat 64 c.partition
  | 7 => BitVec.ofNat 64 (c.ctx + 2 ^ 10 * c.level)
  | 8 => c.pts
  | 9 => c.lgen.setWidth 64
  | 10 => c.cycle
  | i => match c.tls[(i - 16) / 4]? with
    | some l => l.field ((i - 16) % 4)
    | none => 0

def Level.setField (l : Level) (f : Nat) (v : Word) : Level :=
  match f with
  | 0 => { l with start := v >>> 6 <<< 6 }
  | 1 => { l with fin := v >>> 6 <<< 6 }
  | 2 => { l with count := v.setWidth 32 }
  | _ => { l with index := v.setWidth 32 }

/-- The effect of MTSR: read-only registers and fields ignore it (R7, R25 to R30). -/
def Core.writeSr (c : Core) (i : Nat) (v : Word) : Core :=
  match i with
  | 0 => { c with trappc := v >>> 6 <<< 6 }
  | 1 => { c with trapcause := v &&& 0xFFF }
  | 2 => { c with trapinfo := v }
  | 3 => { c with tvec := v >>> 6 <<< 6 }
  | 5 => { c with rptidx := v.toNat % 64 }
  | 4 | 6 | 7 | 8 | 9 | 10 => c
  | i => match c.tls[(i - 16) / 4]? with
    | some l => { c with tls := c.tls.set ((i - 16) / 4) (l.setField ((i - 16) % 4) v) }
    | none => c

/-! ## Tokens -/

/-- The tokens 1 to 31 of a set that have a state (R111), as bits. -/
def Core.tokenBits (c : Core) (set : Word) (t : Token) : Nat :=
  ((List.range 32).filter fun k => k != 0 && set.getLsbD k && c.token k == t).foldl (fun n k => n + 2 ^ k) 0

/-- The status of a set of tokens: FAILED above DONE (R111). -/
def Core.tokenStatus (c : Core) (set : Word) : Word :=
  BitVec.ofNat 64 (2 ^ 32 * c.tokenBits set .failed + c.tokenBits set .complete)

/-! ## The action of a BR operation -/

/-- Perform the action after the other slots of the execution of the bundle at `addr` (R101): the next PC and what goes
with it. A TRAP or BKPT leaves the trap to be taken after its bundle (R109). An LBRK in the end bundle of a level processes no
loop end: it sets the PC as a taken branch does (DESIGN CHOICE, log 80). What BAR and BARA do to a barrier is done by
`State.performBr`, and what FENCE waits for too. -/
def Core.perform (c : Core) (addr : Word) : Res Core :=
  let c0 := { c with act := .none, point := false }
  match c.act with
  | .none => .ok (c0.advance addr false)
  | .yield => .ok (c0.advance addr true)
  | .icinv => .ok (c0.advance addr false)
  | .mtsr i v => .ok ((c0.advance addr false).writeSr i v)
  | .jump t unwinds => do
    checkTarget t
    .ok { c0 with pc := t, loops := if unwinds then c.loops.filter (·.holds t) else c.loops }
  | .call t => do
    checkTarget t
    .ok { c0.advance addr false with pc := t }
  | .loop count fin => c0.pushLoop addr count fin
  | .lbrk n =>
    if c.loops.length < n then .error (.wordTrap 0x05)
    else
      let fin := match c.loops[c.loops.length - n]? with
        | some l => l.fin
        | none => addr
      .ok { c0 with loops := c.loops.take (c.loops.length - n), pc := fin + 64 }
  | .raise cause info => .ok { c0.advance addr false with raised := some ⟨cause, false, 0, info⟩, point := false }
  | .tokens all wait set dst tok =>
    if wait && c.tokenBits set .pending ≠ 0 && (all || c.tokenStatus set == 0) then .error (.stall 256 false)
    else .ok (({ c0.advance addr false with prodTok := tok } : Core).issueFixed 0 .br dst (.word (c.tokenStatus set)))
  | .bar _ | .bara _ | .fence _ => .ok (c0.advance addr false)
  | .tret => if c.intrap then .ok c0.returnTrap else .error (.wordTrap 0x05)
  | .halt => .ok { c0 with run := .halting, pc := addr + 64 }
  | .exit => .ok { c0 with run := .exiting, pc := addr + 64 }

/-! ## The operations -/

/-- A BR operation that reads its sources and leaves an action. -/
def brAct (i : Instr) (f : Word → Word → Core → BrAction) (c : Core) : Res Core := do
  let (c, x) ← c.operands i
  .ok { c with act := f x.a.toWord x.b.toWord c }

/-- A BR operation that R238 forbids while a region is open. The test is made in slot order, so a region that the MX slot of the
same bundle opens is not yet open (DESIGN CHOICE, log 80). -/
def brActOutside (i : Instr) (f : Word → Word → Core → BrAction) (c : Core) : Res Core := do
  let (c, x) ← c.operands i
  c.outsideRegion
  .ok { c with act := f x.a.toWord x.b.toWord c }

/-- The branches (R102): a target is relative to the bundle; a branch not taken goes on in sequence. -/
def branch (taken : Bool) (t : Word) (c : Core) : BrAction := if taken then .jump (c.bundleAddr + t) true else .none

def issueBra (o : Op) : Core → Res Core := brAct (.bra o) fun t _ c => branch true t c
def issueBrc (o : Op) : Core → Res Core := brAct (.brc o) fun v t c => branch (v != 0) t c
def issueBrcZ (o : Op) : Core → Res Core := brAct (.brcZ o) fun v t c => branch (v == 0) t c
def issueBrq (o : Op) : Core → Res Core := brAct (.brq o) fun v t c => branch (v.getLsbD 0) t c
def issueBrqN (o : Op) : Core → Res Core := brAct (.brqN o) fun v t c => branch (!v.getLsbD 0) t c

/-- R103: the link is the address that would run next without the CALL. -/
def issueCall (o : Op) (c : Core) : Res Core := do
  let (c, x) ← c.operands (.call o)
  let link := (c.sequel c.bundleAddr).2.1
  .ok { c.issueResult (.call o) (.word link) with act := .call (c.bundleAddr + x.a.toWord) }

/-- R103. -/
def issueRet (o : Op) : Core → Res Core := brAct (.ret o) fun t _ _ => .jump t false
/-- R105. -/
def issueLoop (o : Op) : Core → Res Core := brAct (.loop o) fun n e c => .loop (n.setWidth 32) (c.bundleAddr + e)
/-- R107. -/
def issueLbrk (o : Op) : Core → Res Core := brAct (.lbrk o) fun n _ _ => .lbrk n.toNat
/-- R108. -/
def issueYield (o : Op) : Core → Res Core := brAct (.yield o) fun _ _ _ => .yield
/-- R109. -/
def issueTrap (o : Op) : Core → Res Core := brActOutside (.trap o) fun code _ _ => .raise 0x10 code
def issueBkpt (o : Op) : Core → Res Core := brActOutside (.bkpt o) fun _ _ _ => .raise 0x13 0
/-- R110. -/
def issueTret (o : Op) : Core → Res Core := brAct (.tret o) fun _ _ _ => .tret

/-- R111: the tokens are looked at when the operation acts, after the other slots of its bundle (R101). The token that its result is
to complete waits for that result (R41). -/
def tokenAct (i : Instr) (o : Op) (all wait : Bool) (c : Core) : Res Core := do
  let (c, x) ← c.operands i
  .ok { c with act := .tokens all wait x.a.toWord (portDest o.dst) c.prodTok, prodTok := 0 }

/-- R111: TWAIT waits until no named token is pending. -/
def issueTwait (o : Op) : Core → Res Core := tokenAct (.twait o) o true true
/-- R111: TWAIT.ANY waits until a named token is not pending, if any is named. -/
def issueTwaitAny (o : Op) : Core → Res Core := tokenAct (.twaitAny o) o false true
/-- R111: TSTAT does not wait. -/
def issueTstat (o : Op) : Core → Res Core := tokenAct (.tstat o) o true false

/-- R114, R115. -/
def issueExit (o : Op) : Core → Res Core := brActOutside (.exit o) fun _ _ _ => .exit
def issueHalt (o : Op) : Core → Res Core := brActOutside (.halt o) fun _ _ _ => .halt

/-- R112, R302: FENCE acts after the other slots of its execution (R101). -/
def issueFence (o : Op) : Core → Res Core := brAct (.fence o) fun scope _ _ => .fence scope

/-- What MFSR reads: sr.rptidx is 0 in a repeated bundle, all of whose executions are complete when it reads (R28, R40). -/
def Core.srSeen (c : Core) (i : Nat) : Word :=
  match c.cur with
  | some u => if i = 5 && u.bundle.hdr.rpt != 0 then 0 else c.readSr i
  | none => c.readSr i

/-- R25, R116: before each reading of the cycle counter a free time passes. -/
def issueMfsr (o : Op) (c : Core) : Res Core := do
  let (c, x) ← c.operands (.mfsr o)
  let i := x.a.toWord.toNat
  let c := if i = 10 then c.passTime else c
  if srListed i then .ok (c.issueResult (.mfsr o) (.word (c.srSeen i)))
  else .error (.trap 0x04 x.a.toWord)

/-- R25, R116. -/
def issueMtsr (o : Op) (c : Core) : Res Core := do
  let (c, x) ← c.operands (.mtsr o)
  let i := x.a.toWord.toNat
  if srListed i then .ok { c with act := .mtsr i x.b.toWord } else .error (.trap 0x04 x.a.toWord)

/-- R117: every bundle of the model is fetched when it executes, so ICINV leaves nothing to discard. -/
def issueIcinv (o : Op) : Core → Res Core := brAct (.icinv o) fun _ _ _ => .icinv

end Sys2Proof.Machine
end

