-- ==== Sys2Proof/Machine/Cipher.lean ====
section
/-! DEFINITION. AES-256 in XTS mode, which enciphers the stored sectors of data pages (R375, R456). The spec names it; its rounds are those of
FIPS 197 and IEEE 1619 (PRESUMED, log 8). -/
namespace Sys2Proof.Machine

/-- A block of 16 bytes, byte 0 lowest; byte 4 c + r stands in row r of column c. -/
abbrev AesBlock := BitVec 128

def AesBlock.byte (x : AesBlock) (i : Nat) : Byte := x.extractLsb' (8 * i) 8
def AesBlock.of (f : Nat → Byte) : AesBlock :=
  (List.range 16).foldl (fun x i => x ||| (f i).setWidth 128 <<< (8 * i)) 0

/-- The byte substitution and its inverse, entry x at bits 8 x and up. -/
def sboxTable : BitVec 2048 :=
  0x16bb54b00f2d99416842e6bf0d89a18cdf2855cee9871e9b948ed9691198f8e19e1dc186b95735610ef6034866b53e708a8bbd4b1f74dde8c6b4a61c2e2578ba#512 ++
  0x08ae7a65eaf4566ca94ed58d6d37c8e779e4959162acd3c25c2406490a3a32e0db0b5ede14b8ee4688902a22dc4f816073195d643d7ea7c41744975fec130ccd#512 ++
  0xd2f3ff1021dab6bcf5389d928f40a351a89f3c507f02f94585334d43fbaaefd0cf584c4a39becb6a5bb1fc20ed00d153842fe329b3d63b52a05a6e1b1a2c8309#512 ++
  0x75b227ebe28012079a059618c323c7041531d871f1e5a534ccf73f362693fdb7c072a49cafa2d4adf04759fa7dc982ca76abd7fe2b670130c56f6bf27b777c63#512
def sboxInvTable : BitVec 2048 :=
  0x7d0c2155631469e126d677ba7e042b17619953833cbbebc8b0f52aae4d3be0a0ef9cc9939f7ae52d0d4ab519a97f51605fec8027591012b131c7078833a8dd1f#512 ++
  0xf45acd78fec0db9a2079d2c64b3e56fc1bbe18aa0e62b76f89c5291d711af1476edf751ce837f9e28535ade72274ac9673e6b4f0cecff297eadc674f4111913a#512 ++
  0x6b8a130103bdafc1020f3fca8f1e2cd00645b3b80558e4f70ad3bc8c00abd890849d8da75746155edab9edfd5048706c92b6655dcc5ca4d41698688664f6f872#512 ++
  0x25d18b6d49a25b76b224d92866a12e084ec3fa420b954cee3d23c2a632947b54cbe9dec444438e3487ff2f9b8239e37cfbd7f3819ea340bf38a53630d56a0952#512

def sbox (x : Byte) : Byte := sboxTable.extractLsb' (8 * x.toNat) 8
def sboxInv (x : Byte) : Byte := sboxInvTable.extractLsb' (8 * x.toNat) 8

/-- Multiplication by x in the field of 256 elements. -/
def xtime (a : Byte) : Byte := (a <<< 1) ^^^ (if a.msb then 0x1B else 0)

def subBytes (x : AesBlock) : AesBlock := AesBlock.of fun i => sbox (x.byte i)
def subBytesInv (x : AesBlock) : AesBlock := AesBlock.of fun i => sboxInv (x.byte i)
/-- Row r is rotated by r columns. -/
def shiftRows (x : AesBlock) : AesBlock := AesBlock.of fun i => x.byte ((i + 4 * (i % 4)) % 16)
def shiftRowsInv (x : AesBlock) : AesBlock := AesBlock.of fun i => x.byte ((i + 12 * (i % 4)) % 16)

/-- Byte k below byte i in its column, cyclically. -/
def AesBlock.below (x : AesBlock) (i k : Nat) : Byte := x.byte (4 * (i / 4) + (i + k) % 4)
def mixColumns (x : AesBlock) : AesBlock := AesBlock.of fun i =>
  xtime (x.below i 0) ^^^ (xtime (x.below i 1) ^^^ x.below i 1) ^^^ x.below i 2 ^^^ x.below i 3
/-- The products of a byte with 9, 11, 13 and 14. -/
def times9 (a : Byte) : Byte := xtime (xtime (xtime a)) ^^^ a
def times11 (a : Byte) : Byte := xtime (xtime (xtime a)) ^^^ xtime a ^^^ a
def times13 (a : Byte) : Byte := xtime (xtime (xtime a)) ^^^ xtime (xtime a) ^^^ a
def times14 (a : Byte) : Byte := xtime (xtime (xtime a)) ^^^ xtime (xtime a) ^^^ xtime a
def mixColumnsInv (x : AesBlock) : AesBlock := AesBlock.of fun i =>
  times14 (x.below i 0) ^^^ times11 (x.below i 1) ^^^ times13 (x.below i 2) ^^^ times9 (x.below i 3)

/-- Each word of a round key is the exclusive or of the words of an earlier one up to it and of four bytes. -/
def nextKey (x : AesBlock) (t : Nat → Byte) : AesBlock := AesBlock.of fun i =>
  (List.range (i / 4 + 1)).foldl (fun b c => b ^^^ x.byte (4 * c + i % 4)) (t (i % 4))

/-- The round keys that follow two of them, in n pairs. -/
def moreKeys : Nat → Byte → AesBlock → AesBlock → List AesBlock
  | 0, _, _, _ => []
  | n + 1, rcon, a, b =>
    let a := nextKey a fun r => sbox (b.byte (12 + (r + 1) % 4)) ^^^ (if r = 0 then rcon else 0)
    let b := nextKey b fun r => sbox (a.byte (12 + r))
    a :: b :: moreKeys n (xtime rcon) a b

/-- The first round key and the 14 others of an AES-256 key. -/
def roundKeys (key : BitVec 256) : AesBlock × List AesBlock :=
  let a := key.setWidth 128
  let b := (key >>> 128).setWidth 128
  (a, (b :: moreKeys 7 1 a b).take 14)

/-- The rounds, the last of which mixes no columns. -/
def aesRounds (x : AesBlock) : List AesBlock → AesBlock
  | [] => x
  | [k] => shiftRows (subBytes x) ^^^ k
  | k :: ks => aesRounds (mixColumns (shiftRows (subBytes x)) ^^^ k) ks
def aesRoundsInv (x : AesBlock) : List AesBlock → AesBlock
  | [] => x
  | [k] => subBytesInv (shiftRowsInv (x ^^^ k))
  | k :: ks => subBytesInv (shiftRowsInv (mixColumnsInv (aesRoundsInv x ks ^^^ k)))

def aesEncrypt (key : BitVec 256) (x : AesBlock) : AesBlock := aesRounds (x ^^^ (roundKeys key).1) (roundKeys key).2
def aesDecrypt (key : BitVec 256) (x : AesBlock) : AesBlock := aesRoundsInv x (roundKeys key).2 ^^^ (roundKeys key).1

/-- The tweak of the second block of a data unit is that of the first, times x in the field of 2^128 elements. -/
def xtsDouble (t : AesBlock) : AesBlock := (t <<< 1) ^^^ (if t.msb then 0x87 else 0)

/-- The tweaks of the two blocks of a sector: its address, enciphered with the second key. -/
def xtsTweaks (key : BitVec 512) (addr : Nat) : AesBlock × AesBlock :=
  let t := aesEncrypt ((key >>> 256).setWidth 256) (BitVec.ofNat 128 addr)
  (t, xtsDouble t)

def encBlock (key : BitVec 512) (t x : AesBlock) : AesBlock := aesEncrypt (key.setWidth 256) (x ^^^ t) ^^^ t
def decBlock (key : BitVec 512) (t x : AesBlock) : AesBlock := aesDecrypt (key.setWidth 256) (x ^^^ t) ^^^ t

/-- One 32-byte sector is one data unit; the tweak is its target address (R375). -/
def encSector (key : BitVec 512) (addr : Nat) (x : BitVec 256) : BitVec 256 :=
  let t := xtsTweaks key addr
  encBlock key t.2 (x.extractLsb' 128 128) ++ encBlock key t.1 (x.extractLsb' 0 128)
def decSector (key : BitVec 512) (addr : Nat) (x : BitVec 256) : BitVec 256 :=
  let t := xtsTweaks key addr
  decBlock key t.2 (x.extractLsb' 128 128) ++ decBlock key t.1 (x.extractLsb' 0 128)

end Sys2Proof.Machine
end

