-- ==== Sys2Proof/Machine/MemState.lean ====
section
/-! DEFINITION. The package's memory (R291, R363 to R375, R417, R425, R426, R436) as plain data. -/
namespace Sys2Proof.Machine

/-- An event for the reliability engine (R407 to R409): unit, type, the flags HOSTACT to NOREPAIR, context, code, address,
INFO0 to INFO3. -/
structure Rec where
  ukind : Nat
  unum : Nat
  type : Nat
  flags : Nat
  ctx : Option Nat
  code : Nat
  addr : Word
  info0 : Word
  info1 : Word
  info2 : Word
  info3 : Word
  deriving DecidableEq, Repr

/-- A 32-byte sector held in an LLC slice as plaintext (R368, R375): target kind of R371 (0 HBM, 1 flash, 2 host), sector
number, key index, data, dirtiness, owner tag (0 for none), poison. `err` is an error not yet detected: 0 none,
1 correctable, 2 uncorrectable; `tagErr` an uncorrectable error of the owner tag (R417, R418). `shared`: the host holds the line
too (R393). -/
structure Sector where
  kind : Nat
  num : Nat
  key : Nat
  data : BitVec 256
  dirty : Bool
  owner : Nat
  poison : Bool
  err : Nat
  tagErr : Bool
  shared : Bool
  deriving DecidableEq, Repr

/-- The states of CXL.cache (R303, R393). -/
inductive Moesi where
  | modified | owned | exclusive | shared | invalid
  deriving DecidableEq, Repr

/-- What an HBM request asks (R429): a granule, a whole write, one that leaves the poison code (R417), or a write under a byte
mask. -/
inductive HbmKind where
  | rd
  | wr (data : BitVec 256)
  | bad (data : BitVec 256)
  | wrm (mask : BitVec 32) (data : BitVec 256)
  deriving DecidableEq, Repr

/-- A request that holds a tag (R429, R430). Of a read: its value and poison, fixed at acceptance, and whether it is served without a
lookup: from the path of a write accepted before it, or because a later write to its granule is performed already. -/
structure HbmReq where
  tag : Nat
  gran : Nat
  kind : HbmKind
  value : BitVec 256
  poison : Bool
  behind : Bool
  deriving DecidableEq, Repr

/-- An HBM channel that is not as at reset (R427 to R434): the port with its requests, and what is behind it. `lines` are the 64-byte
lines its slice holds by address div 64, newest first, `gaps` the sectors of them that it does not hold (log 29), `bad` those with an
error not yet detected, `ecc` the rows of its ECC cache newest first, `row` the open row. -/
structure Hchan where
  num : Nat
  state : Nat
  lines : List Nat
  ecc : List Nat
  row : Option Nat
  reqs : List HbmReq
  waiting : List (Nat × HbmKind)
  held : List (Nat × HbmKind)
  slhit : BitVec 32
  slmiss : BitVec 32
  act : BitVec 32
  rmw : BitVec 32
  echit : BitVec 32
  ecmiss : BitVec 32
  ce : Nat
  ue : Nat
  bad : List Nat
  gaps : List Nat
  deriving DecidableEq, Repr

/-- A context with the fields of its descriptor (R345, R365). `state`: 0 free to 4 terminating (R366). -/
structure Ctx where
  num : Nat
  state : Nat
  ptroot : Nat
  savebase : Nat
  savecnt : Nat
  plimit : Nat
  keylo : Nat
  keycnt : Nat
  kvpool : Nat
  ovfbase : Nat
  ovfcap : Nat
  edir : Nat
  nexp : Nat
  hlo : Nat
  hcnt : Nat
  hbase : Nat
  hstride : Nat
  btbase : Nat
  recbase : Nat
  quota : Nat
  deriving DecidableEq, Repr

/-- A cached translation (R373): context, page of 64 KiB, leaf entry, 2 MiB page. -/
structure Tlb where
  ctx : Nat
  page : Nat
  leaf : Nat
  large : Bool
  deriving DecidableEq, Repr

/-- How far a context's translations are renewed (R268, R305): those of one page of 64 KiB or 2 MiB, or all of them, are
those of the tables as they stood after so many changes. -/
structure Renewal where
  ctx : Nat
  page : Option (Nat × Bool)
  time : Nat
  deriving DecidableEq, Repr

/-- A page of a staged handle's aperture (R351): HBM address of its frame, key and PFMT. -/
structure AperPage where
  frame : Nat
  key : Nat
  pfmt : Nat
  deriving DecidableEq, Repr

/-- The aperture mapping of a staged handle. -/
structure Aper where
  handle : Nat
  pages : List AperPage
  deriving DecidableEq, Repr

/-- What places markers in the engine queues: an INVL, by core and number (R268), an INVALL (R374), an eviction (R352). -/
inductive Marker where
  | invl (k id : Nat)
  | invall
  | evict
  deriving DecidableEq, Repr

/-- The old mapping that the commands ahead of the markers of an invalidation translate with (R268): what placed them, its context,
what the context's translations were, and the commands, by core and number. -/
structure View where
  by' : Marker
  ctx : Nat
  tlb : List Tlb
  renewals : List Renewal
  aper : List Aper
  ahead : List (Nat × Nat)
  deriving DecidableEq, Repr

/-- A context to be terminated (R369): the TYPE of the causing record, and the sector that proved uncorrectable (R417), by the kind of
its memory and its number. -/
structure Doom where
  ctx : Nat
  type : Nat
  sector : Option (Nat × Nat)
  deriving DecidableEq, Repr

/-- The memory of the package. HBM and flash hold what is stored, which is ciphertext for data pages; host memory is by
host physical address. `hbmErr` lists granules with an error not yet detected (true: uncorrectable), `flashBad` the pages
that stay uncorrectable, as target address div 16384 (R439), `flashErr` those that a read will find so, `flashMet` those
that an access has just found so, `mapped` the flash units that are mapped (R436), `frames` the
retired frames (R416), `doomed` the contexts whose termination is due. `changes` lists the 8-byte words of HBM that
device writes have replaced, oldest first, each with its address div 8 and its old value, and `renewals` the translations that
an INVL has renewed since: a table entry counts as changed from then on only (R305). `views` lists the invalidations whose markers
are not all passed, oldest first. `chans` are the HBM channels, and `redirects` the retired ones in order, each with the base of the
spare unit that it went to (R434). `pageBuf` is the flash page that each stack read last, and `pageReads` the page reads that
accesses have made and that are still to be counted (R443; log 11). `races` are the units for which accesses may race with a
command (R295, R300). -/
structure MemState where
  hbm : Mem
  hbmPoison : List Nat
  hbmErr : List (Nat × Bool)
  flash : Mem
  flashBad : List Nat
  flashErr : List Nat
  flashMet : List Nat
  mapped : List Nat
  host : Mem
  hostPoison : List Nat
  llc : List Sector
  quarantine : List (Nat × Nat × Nat)
  keys : List (Nat × BitVec 512)
  ctxs : List Ctx
  tlb : List Tlb
  changes : List (Nat × Nat)
  renewals : List Renewal
  views : List View
  aper : List Aper
  frames : List Nat
  doomed : List Doom
  capwin : Word
  linkUp : Bool
  recs : List Rec
  chans : List Hchan
  redirects : List (Nat × Nat)
  pageBuf : List Nat
  pageReads : List Nat
  races : List Race
  deriving DecidableEq, Repr

def MemState.reset : MemState :=
  { hbm := [], hbmPoison := [], hbmErr := [], flash := [], flashBad := [], flashErr := [], flashMet := [], mapped := [], host := [], hostPoison := [], llc := []
    quarantine := [], keys := [], ctxs := [], tlb := [], changes := [], renewals := [], views := [], aper := [], frames := [], doomed := [], capwin := 0, linkUp := false
    recs := [], chans := [], redirects := [], pageBuf := [], pageReads := [], races := [] }

end Sys2Proof.Machine
end

