-- ==== Sys2Proof/Machine/Memory.lean ====
section
/-! DEFINITION. Device memory: the stored ciphertext (R375), the LLC (R368), the translation walk (R370 to R373) and the
bytes behind them. -/
namespace Sys2Proof.Machine

/-! ## Below the LLC -/

/-- The number of an address no key was loaded for is none (R375). -/
def MemState.key (m : MemState) (k : Nat) : Option (BitVec 512) := (m.keys.find? fun x => x.1 == k).map fun x => x.2

/-- The stored bytes of a target kind (R371). -/
def MemState.store (m : MemState) (kind : Nat) : Mem :=
  match kind with
  | 0 => m.hbm | 1 => m.flash | _ => m.host

def MemState.setStore (m : MemState) (kind : Nat) (x : Mem) : MemState :=
  match kind with
  | 0 => { m with hbm := x } | 1 => { m with flash := x } | _ => { m with host := x }

/-- What an access to a sector meets: nothing wrong, an error found now (code 0x0010), poison that an earlier record describes
(code 0x0011; R415), or a dirty sector found lost now, of whose poison the access is the first consumer (R417). -/
inductive Bad where
  | ok | fresh | poison | lost
  deriving DecidableEq, Repr

def addOnce (x : Nat) (l : List Nat) : List Nat := if l.contains x then l else x :: l

/-- Bytes lo to lo + n - 1 of a sector replaced. -/
def patch (x : BitVec 256) (lo n v : Nat) : BitVec 256 :=
  let msk := BitVec.ofNat 256 ((2 ^ (8 * n) - 1) * 2 ^ (8 * lo))
  (x &&& ~~~msk) ||| (BitVec.ofNat 256 (v % 2 ^ (8 * n) * 2 ^ (8 * lo)))

/-! ## HBM channels (R425 to R430, R432, R434) -/

/-- The HBM channel of an address (R425). -/
def channelOf (a : Nat) : Nat := a / 1024 % Config.hbmChannels

/-- The DRAM row of an address within its channel (R425). -/
def hbmRow (a : Nat) : Nat := (a / 1024 / Config.hbmChannels * 1024 + a % 1024) / 1920

/-- The i-th chunk of 1 KiB of a spare unit whose channel is none of some (R434). -/
def spareChunk (base : Nat) (out : List Nat) (i : Nat) : Nat :=
  let n := Config.hbmChannels - out.length
  let first := base / 1024 + Config.hbmChannels * (i / n)
  (((List.range Config.hbmChannels).map (first + ·)).filter fun c => !out.contains (c % Config.hbmChannels)).getD (i % n) 0

/-- Follow the redirections of the retirements in turn (R434): what is stored in a retired channel lies, granule by granule, in the
spare unit's channels in service. `out` are the channels retired before. -/
def redirected : List (Nat × Nat) → List Nat → Nat → Nat
  | [], _, a => a
  | (q, base) :: rest, out, a =>
    redirected rest (q :: out) (if channelOf a = q then 1024 * spareChunk base (q :: out) (a / 1024 / Config.hbmChannels) + a % 1024 else a)

/-- Where an address lies. -/
def MemState.location (m : MemState) (a : Nat) : Nat := redirected m.redirects [] a

/-- The channel that serves an address. -/
def MemState.channel (m : MemState) (a : Nat) : Nat := channelOf (m.location a)

def Hchan.zero (q : Nat) : Hchan := ⟨q, 0, [], [], none, [], [], [], 0, 0, 0, 0, 0, 0, 0, 0, [], []⟩

def MemState.chan (m : MemState) (q : Nat) : Hchan := (m.chans.find? fun x => x.num == q).getD (Hchan.zero q)

def MemState.setChan (m : MemState) (x : Hchan) : MemState := { m with chans := x :: m.chans.filter fun y => y.num != x.num }

def HbmKind.write : HbmKind → Bool
  | .rd => false
  | _ => true

/-- The value of a granule under a write (R430). -/
def mergeWrite (old : BitVec 256) : HbmKind → BitVec 256
  | .rd => old
  | .wr d | .bad d => d
  | .wrm m d =>
    let msk := BitVec.ofNat 256 (leValue ((List.range 32).map fun i => if m.getLsbD i then 255#8 else 0#8))
    (old &&& ~~~msk) ||| (d &&& msk)

/-- Its poison under a write: a partial one leaves it (R426). -/
def mergePoison (old : Bool) : HbmKind → Bool
  | .rd | .wrm .. => old
  | .wr _ => false
  | .bad _ => true

/-- The writes to the granule at an address that a port has not performed yet, in arrival order. -/
def Hchan.writesTo (x : Hchan) (a : Nat) : List HbmKind :=
  ((x.reqs.map fun r => (r.gran, r.kind)) ++ x.waiting ++ x.held).filterMap fun r => if r.1 == a && r.2.write then some r.2 else none

def MemState.writesTo (m : MemState) (num : Nat) : List HbmKind := (m.chan (m.channel (32 * num))).writesTo (32 * num)

/-- The stored bytes of a granule as every party finds them: under the writes that came before, performed or not (R430, R434). -/
def MemState.granule (m : MemState) (num : Nat) : BitVec 256 := (m.writesTo num).foldl mergeWrite (BitVec.ofNat 256 (m.hbm.value (32 * num) 32))

/-- Its poison. -/
def MemState.poisoned (m : MemState) (num : Nat) : Bool := (m.writesTo num).foldl mergePoison (m.hbmPoison.contains num)

/-- An HBM event (R409, R432), at the channel that serves the granule. TYPE 0x10030 stands for the repair of a slice's sector, which is
recorded as TYPE 0x0030 and counts toward no frame (R416, R428). -/
def MemState.hbmRec (m : MemState) (num type : Nat) : Rec :=
  ⟨3, m.channel (32 * num), type, 0, none, 0, BitVec.ofNat 64 (32 * num), 0, 0, 0, 0⟩

/-- A read of a granule in DRAM, which detects an error in it (R432): a correctable one is repaired and recorded, the first
uncorrectable read writes the poison code and a record. -/
def MemState.senseHbm (m : MemState) (num : Nat) : MemState × Bad :=
  if m.hbmPoison.contains num then (m, .poison)
  else match m.hbmErr.find? fun x => x.1 == num with
    | none => (m, .ok)
    | some (_, fatal) =>
      let r := m.hbmRec num (if fatal then 0x0031 else 0x0030)
      let m := { m with hbmErr := m.hbmErr.filter fun x => x.1 != num, recs := m.recs ++ [r] }
      if fatal then ({ m with hbmPoison := addOnce num m.hbmPoison }, .fresh) else (m, .ok)

/-- Most recently used first, at most n. -/
def useFirst (n x : Nat) (l : List Nat) : List Nat := (x :: l.filter (· != x)).take n

/-- The slice of a channel has 2048 sets of 16 lines of 64 bytes; the set is a line's place in the channel (log 29). -/
def sliceSet (line : Nat) : Nat := line / 16 / Config.hbmChannels * 16 % 2048 + line % 16

/-- Fill a line: at most 16 of its set stay, the most recently used. What leaves takes its errors with it. -/
def Hchan.fill (x : Hchan) (line : Nat) : Hchan :=
  let same := x.lines.filter fun l => sliceSet l == sliceSet line && l != line
  let gone := same.drop 15
  { x with lines := line :: (same.take 15) ++ x.lines.filter fun l => sliceSet l != sliceSet line
           bad := if gone.isEmpty then x.bad else x.bad.filter fun b => !gone.contains (b / 2)
           gaps := if gone.isEmpty then x.gaps else x.gaps.filter fun b => !gone.contains (b / 2) }

/-- A DRAM access to an address: its row is activated unless it is open, and its check area is looked up (R427, R428, R433). -/
def Hchan.dram (x : Hchan) (a : Nat) : Hchan :=
  let row := hbmRow a
  let x := { x with act := if x.row = some row then x.act else x.act + 1, row := some row }
  let x := if x.ecc.contains row then { x with echit := x.echit + 1 } else { x with ecmiss := x.ecmiss + 1 }
  { x with ecc := useFirst 64 row x.ecc }

/-- Does the slice hold the sector of an address? -/
def Hchan.has (x : Hchan) (a : Nat) : Bool := x.lines.contains (a / 64) && !x.gaps.contains (a / 32)

/-- The other sector of a line that a miss fills (R428). One with an uncorrectable error stays out of the slice, so that the first read
that asks for it is the one that R432 fails (DESIGN CHOICE, log 29). -/
def MemState.fillOther (m : MemState) (num : Nat) : MemState :=
  if m.hbmErr.any fun e => e.1 == num && e.2 then
    let a := m.location (32 * num)
    let x := m.chan (channelOf a)
    m.setChan { x with gaps := addOnce (a / 32) x.gaps }
  else (m.senseHbm num).1

/-- A read of a granule behind the port (R428): a slice hit reads DRAM only to repair its sector, a miss fills both sectors of the
line. -/
def MemState.lookup (m : MemState) (num : Nat) : MemState × Bad :=
  let a := m.location (32 * num)
  let x := m.chan (channelOf a)
  if x.has a then
    let x := ({ x with slhit := x.slhit + 1 } : Hchan).fill (a / 64)
    if x.bad.contains (a / 32) then
      let y := x.dram a
      ({ m.setChan { y with bad := y.bad.filter (· != a / 32) } with recs := m.recs ++ [m.hbmRec num 0x10030] } : MemState).senseHbm num
    else (m.setChan x, if m.hbmPoison.contains num then .poison else .ok)
  else
    let x := (({ x with slmiss := x.slmiss + 1 } : Hchan).dram a).fill (a / 64)
    let m := m.setChan { x with gaps := x.gaps.filter fun b => b / 2 != a / 64, bad := x.bad.filter fun b => b / 2 != a / 64 }
    let (m, b) := m.senseHbm num
    (m.fillOther (num ^^^ 1), b)

/-- A read of a granule by the LLC or BAR2: behind a write that is still to be performed it is served from the write path (R430). -/
def MemState.readHbm (m : MemState) (num : Nat) : MemState × Bad :=
  if (m.writesTo num).isEmpty then m.lookup num else (m, if m.poisoned num then .poison else .ok)

/-- A write of a granule is performed in DRAM (R426, R428): it updates what the slice holds, and a whole one clears the poison and
errors of the granule. -/
def MemState.performWrite (m : MemState) (num : Nat) (k : HbmKind) : MemState :=
  let a := m.location (32 * num)
  let x := (m.chan (channelOf a)).dram a
  let old := BitVec.ofNat 256 (m.hbm.value (32 * num) 32)
  let m := { m.setChan { x with bad := x.bad.filter (· != a / 32) } with hbm := m.hbm.store (32 * num) 32 (mergeWrite old k).toNat }
  match k with
  | .rd | .wrm .. => m
  | .wr _ => { m with hbmPoison := m.hbmPoison.filter (· != num), hbmErr := m.hbmErr.filter fun x => x.1 != num }
  | .bad _ => { m with hbmPoison := addOnce num m.hbmPoison, hbmErr := m.hbmErr.filter fun x => x.1 != num }

/-- Take the lowest free tag for a request; the value of a read is fixed now. -/
def MemState.takeTag (m : MemState) (x : Hchan) (a : Nat) (kind : HbmKind) : Hchan :=
  let tag := ((List.range 8).find? fun t => !x.reqs.any fun r => r.tag == t).getD 0
  let older := (x.reqs.filter fun r => r.gran == a && r.kind.write).map (·.kind)
  { x with reqs := x.reqs ++ [⟨tag, a, kind, older.foldl mergeWrite (BitVec.ofNat 256 (m.hbm.value a 32)),
      older.foldl mergePoison (m.hbmPoison.contains (a / 32)), !older.isEmpty⟩] }

/-- Waiting requests take freed tags in arrival order (R429). `n` bounds the moves. -/
def MemState.refill (m : MemState) (x : Hchan) : Nat → Hchan
  | 0 => x
  | n + 1 =>
    match x.waiting with
    | [] => x
    | (a, kind) :: rest => if 8 ≤ x.reqs.length then x else m.refill (m.takeTag { x with waiting := rest } a kind) n

/-- A request to the granule at an address arrives at the port of its channel. While the channel retires, writes are held, and what
follows a held write of the same granule is held behind it (R434). -/
def MemState.arrive (m : MemState) (a : Nat) (kind : HbmKind) : MemState :=
  let x := m.chan (m.channel a)
  if x.state = 1 && (kind.write || x.held.any fun h => h.1 == a) then m.setChan { x with held := x.held ++ [(a, kind)] }
  else if 8 ≤ x.reqs.length || !x.waiting.isEmpty then m.setChan { x with waiting := x.waiting ++ [(a, kind)] }
  else m.setChan (m.takeTag x a kind)

/-- Does a request to the granule at an address wait at a port? -/
def Hchan.holds (x : Hchan) (a : Nat) : Bool := x.reqs.any (·.gran == a) || (x.waiting ++ x.held).any (·.1 == a)

/-- A whole write of a granule by the LLC, BAR2 or an engine of the I/O die. It is performed at once, unless its port is fenced or
requests to its granule came before it; then it is a request of its own (R430, R434). -/
def MemState.writeHbm (m : MemState) (num : Nat) (k : HbmKind) : MemState :=
  let x := m.chan (m.channel (32 * num))
  if x.state = 1 || x.holds (32 * num) then m.arrive (32 * num) k else m.performWrite num k

/-- A partial write of a granule in place, whose read half comes first (R429, R430): the bytes are `new` of the old ones. -/
def MemState.mergeHbm (m : MemState) (num : Nat) (new : BitVec 256 → BitVec 256) : MemState :=
  let q := m.channel (32 * num)
  let m := (m.readHbm num).1
  let m := m.setChan { m.chan q with rmw := (m.chan q).rmw + 1 }
  let d := new (m.granule num)
  m.writeHbm num (if m.poisoned num then .bad d else .wr d)

/-- Bytes from an HBM address on, written below every cache. `fuel` bounds the granules. -/
def MemState.putHbm (m : MemState) (a : Nat) : Nat → List Byte → MemState
  | 0, _ => m
  | _, [] => m
  | fuel + 1, bs =>
    let n := min bs.length (32 - a % 32)
    let v := leValue (bs.take n)
    let m := if n = 32 then m.writeHbm (a / 32) (.wr (BitVec.ofNat 256 v)) else m.mergeHbm (a / 32) fun d => patch d (a % 32) n v
    m.putHbm (a + n) fuel (bs.drop n)

/-! ## Flash and host memory below the LLC -/

/-- A read of a sector of flash page p. The page that its stack read last serves it without another read of the die (DESIGN CHOICE,
log 11); a page that does not decode is read four times (R443), and stays uncorrectable (R439). -/
def MemState.readFlash (m : MemState) (p : Nat) : MemState × Bad :=
  if m.pageBuf.contains p then (m, .ok)
  else if m.flashErr.contains p then
    ({ m with flashErr := m.flashErr.filter (· != p), flashMet := addOnce p m.flashMet, pageReads := m.pageReads ++ [p, p, p, p] }, .fresh)
  else if m.flashBad.contains p || m.flashMet.contains p then ({ m with pageReads := m.pageReads ++ [p, p, p, p] }, .fresh)
  else ({ m with pageBuf := p :: m.pageBuf.filter fun q => q / 4 % 8 != p / 4 % 8, pageReads := m.pageReads ++ [p] }, .ok)

/-- A read of a stored sector: a host read with the link down is uncorrectable (R393), a flash page may stay
uncorrectable (R439). -/
def MemState.senseBelow (m : MemState) (kind num : Nat) : MemState × Bad :=
  match kind with
  | 0 => m.readHbm num
  | 1 => m.readFlash (32 * num / 16384)
  | _ => (m, if !m.linkUp then .fresh else if m.hostPoison.contains num then .poison else .ok)

/-- The plaintext of a stored sector under a key index; host pages are not encrypted (R375). -/
def MemState.below (m : MemState) (kind num key : Nat) : BitVec 256 :=
  let raw := if kind = 0 then m.granule num else BitVec.ofNat 256 ((m.store kind).value (32 * num) 32)
  if kind = 2 then raw
  else match m.key key with
    | some k => decSector k (32 * num) raw
    | none => raw

/-! ## The LLC -/

def MemState.sector? (m : MemState) (kind num : Nat) : Option Sector := m.llc.find? fun x => x.kind == kind && x.num == num
def MemState.dropSector (m : MemState) (kind num : Nat) : MemState :=
  { m with llc := m.llc.filter fun x => !(x.kind == kind && x.num == num) }

/-- The sets and ways of a slice of 2 MiB (R1) with lines of 64 bytes (log 21). -/
def llcSets : Nat := 2048
def llcWays : Nat := 16

/-- The slice, set and way that hold a sector: a quarantined frame is never allocated again (R417; log 21). -/
def MemState.frame (m : MemState) (num : Nat) : Nat × Nat × Nat :=
  let slice := Config.llcSlice (num / 2) % 512
  let set := Config.llcSet (num / 2) % llcSets
  let ways := (List.range llcWays).map fun i => (Config.llcWay (num / 2) + i) % llcWays
  (slice, set, (ways.find? fun w => !m.quarantine.contains (slice, set, w)).getD (Config.llcWay (num / 2) % llcWays))

/-- A record of an LLC slice (R409). -/
def MemState.llcRec (m : MemState) (num type flags : Nat) (ctx : Option Nat) : Rec :=
  let f := m.frame num
  ⟨2, f.1, type, flags, ctx, 0, if type = 0x0024 then 0 else BitVec.ofNat 64 (32 * num), BitVec.ofNat 64 (2 ^ 16 * f.2.1 + f.2.2), 0, 0, 0⟩

/-- A whole write of a sector of host memory, with its poison. -/
def MemState.putHost (m : MemState) (num v : Nat) (poison : Bool) : MemState :=
  { m with host := m.host.store (32 * num) 32 v, hostPoison := if poison then addOnce num m.hostPoison else m.hostPoison.filter (· != num) }

/-- A dirty sector goes below the LLC as stored bytes (R304): HBM or host memory, for flash is never written so (R351). -/
def MemState.putBack (m : MemState) (kind num : Nat) (raw : BitVec 256) (poison : Bool) : MemState :=
  match kind with
  | 0 => m.writeHbm num (if poison then .bad raw else .wr raw)
  | 1 => m
  | _ => m.putHost num raw.toNat poison

/-- An uncorrectable dirty sector of the line in frame f (R417 steps 1 to 4): poison below, the sector invalidated, the frame
quarantined unless 64 of the slice are, the records; the termination of an owner is left to the caller, in `doomed`. -/
def MemState.loseDirty (m : MemState) (f : Nat × Nat × Nat) (x : Sector) : MemState :=
  let owned := x.owner != 0 && !x.tagErr
  let at' := BitVec.ofNat 64 (2 ^ 16 * f.2.1 + f.2.2)
  let r20 : Rec := ⟨2, f.1, if owned then 0x0020 else 0x0021, 0, if owned then some x.owner else none, 0, BitVec.ofNat 64 (32 * x.num), at', 0, 0, 0⟩
  let here := m.quarantine.filter fun q => q.1 == f.1
  let full := 64 ≤ here.length && !here.contains f
  let r24 : Rec := ⟨2, f.1, 0x0024, if full then 8 else 0, none, 0, 0, at', 0, 0, 0⟩
  let m := (m.dropSector x.kind x.num).putBack x.kind x.num x.data true
  { m with
    quarantine := if full || here.contains f then m.quarantine else f :: m.quarantine
    recs := m.recs ++ [r20, r24]
    doomed := if owned then m.doomed ++ [⟨x.owner, 0x0020, some (x.kind, x.num)⟩] else m.doomed }

/-- Store a dirty sector below the LLC: ciphertext (R375), with its poison (R426). -/
def MemState.storeDirty (m : MemState) (x : Sector) : MemState :=
  let raw := if x.kind = 2 then x.data else match m.key x.key with
    | some k => encSector k (32 * x.num) x.data
    | none => x.data
  let m := if x.err = 1 then { m with recs := m.recs ++ [m.llcRec x.num 0x0023 0 none] } else m
  m.putBack x.kind x.num raw x.poison

/-- A dirty sector that is found lost takes its line with it: the other sector of the line, which lies in the same frame, is written
back, or is lost too, and leaves the LLC (R417). -/
def MemState.dirtyError (m : MemState) (x : Sector) : MemState :=
  let f := m.frame x.num
  let m := m.loseDirty f x
  match m.sector? x.kind (x.num ^^^ 1) with
  | none => m
  | some y =>
    if !y.dirty || (y.kind == 2 && !m.linkUp) then m.dropSector y.kind y.num
    else if y.err = 2 then m.loseDirty f y
    else (m.storeDirty y).dropSector y.kind y.num

/-- Write a dirty sector below the LLC (R304, R368); poison stays poison (R426). An error in it is detected (R417). Dirty
host lines are lost with the link (R393). -/
def MemState.writeBack (m : MemState) (x : Sector) : MemState :=
  if !x.dirty || (x.kind == 2 && !m.linkUp) then m
  else if x.err = 2 then m.dirtyError x
  else m.storeDirty x

/-- The sectors that 512 slices of 2 MiB hold (R1). -/
def llcSectors : Nat := 512 * 65536

/-- Hold a sector that is not held; with every place taken, the one held longest is written back and leaves (log 11). -/
def MemState.holdSector (m : MemState) (x : Sector) : MemState :=
  let m := if m.llc.length < llcSectors then m
    else match m.llc.getLast? with
      | some y => (m.writeBack y).dropSector y.kind y.num
      | none => m
  { m with llc := x :: m.llc }

/-- Hold a sector, in place of the copy of it that is held. -/
def MemState.putSector (m : MemState) (x : Sector) : MemState := (m.dropSector x.kind x.num).holdSector x

/-- Write a sector back and clean it: the tag is cleared (R368). -/
def MemState.clean (m : MemState) (x : Sector) : MemState :=
  let m' := m.writeBack x
  { m' with llc := m'.llc.map fun y =>
      if y.kind == x.kind && y.num == x.num then { y with dirty := false, owner := 0, tagErr := false } else y }

/-- The sector as the stored bytes give it under a key. What is good is held from then on, clean; a sector of host memory in the state
exclusive (R303; which accesses fill the LLC is a DESIGN CHOICE, logs 11 and 28). -/
def MemState.fetch (m : MemState) (kind num key : Nat) : MemState × BitVec 256 × Bad :=
  let (m, b) := m.senseBelow kind num
  let d := m.below kind num key
  (if b = .ok then m.holdSector ⟨kind, num, key, d, false, 0, false, 0, false, false⟩ else m, d, b)

/-- The sector as the LLC or memory gives it under a key, held from then on. A copy held under another key is written back first, since each
mapping reads the stored ciphertext with its own key (R375). An error of the copy is detected: a dirty sector is lost
(R417), a clean one is read again from below (R418). -/
def MemState.look (m : MemState) (kind num key : Nat) : MemState × BitVec 256 × Bad :=
  match m.sector? kind num with
  | some x =>
    if x.err = 2 then
      if x.dirty then let m := m.dirtyError x; (m, m.below kind num key, .lost)
      else { m.dropSector kind num with recs := m.recs ++ [m.llcRec num 0x0022 0 none] }.fetch kind num key
    else if x.key ≠ key then ((m.writeBack x).dropSector kind num).fetch kind num key
    else
      let m := if x.err = 1 then { m.putSector { x with err := 0 } with recs := m.recs ++ [m.llcRec num 0x0023 0 none] } else m
      (m, x.data, if x.poison then .poison else .ok)
  | none => m.fetch kind num key

def elem64 (d : BitVec 256) (i : Nat) : Nat := d.toNat / 2 ^ (64 * i) % 2 ^ 64

/-- Word i of a stored HBM sector as a walk reads it (log 9): the LLC's copy if one is held, else the stored bytes. -/
def MemState.hbmWord (m : MemState) (num i : Nat) : Nat :=
  match m.sector? 0 num with
  | some x => elem64 x.data i
  | none => elem64 (m.granule num) i

/-- The words of an HBM sector that a write of n bytes at lo touches are noted as they stood, for the walks that still use them
(R305). -/
def MemState.noteChange (m : MemState) (kind num lo n : Nat) : MemState :=
  if kind ≠ 0 || n = 0 then m
  else { m with changes := m.changes ++
    (((List.range 4).filter fun i => 8 * i < lo + n && lo < 8 * i + 8).map fun i => (4 * num + i, m.hbmWord num i)) }

/-- Merge bytes into a sector in the LLC, dirty and tagged with the writing context (R368). A whole write reads nothing and leaves no
poison, under a partial one it stays (R426, R461). The second component says what the sector held before. A sector of host memory
that the host shared is then the device's alone (R303). -/
def MemState.write (m : MemState) (kind num key ctx lo n v : Nat) : MemState × Bad :=
  let m := m.noteChange kind num lo n
  if n = 32 then (m.putSector ⟨kind, num, key, BitVec.ofNat 256 v, true, ctx, false, 0, false, false⟩, .ok)
  else
    let (m, d, bad) := m.look kind num key
    (m.putSector ⟨kind, num, key, patch d lo n v, true, ctx, bad != .ok, 0, false, false⟩, bad)

/-! ## The walk (R370 to R372) -/

def MemState.ctx (m : MemState) (c : Nat) : Option Ctx := m.ctxs.find? fun x => x.num == c

def MemState.setCtx (m : MemState) (c : Ctx) : MemState :=
  { m with ctxs := m.ctxs.map fun (x : Ctx) => if x.num == c.num then c else x }

/-- The index of a level and its size of page offset. -/
def levelIndex (va : Nat) : Nat → Nat
  | 0 => bits va 47 39
  | 1 => bits va 38 30
  | 2 => bits va 29 21
  | _ => bits va 20 16

/-- An entry as an engine read gives it (R373; log 9): the LLC's copy if one is held, else the stored bytes. -/
def MemState.entry (m : MemState) (pa : Nat) : MemState × Option Nat :=
  let num := pa / 32
  match m.sector? 0 num with
  | some x =>
    let (m, d, bad) := m.look 0 num x.key
    (m, if bad = .ok then some (elem64 d (pa % 32 / 8)) else none)
  | none =>
    let (m, bad) := m.readHbm num
    (m, if bad = .ok then some (elem64 (m.granule num) (pa % 32 / 8)) else none)

/-- A walk's fault: translation (0x09) or protection (0x0A), with the record it writes, if any: type, INFO0, INFO1. -/
structure WalkFault where
  cause : Nat
  log : Option (Nat × Nat × Nat)
  deriving DecidableEq, Repr

/-- A table entry with a reserved bit set or a misaligned NEXT (R371, R372). -/
def badTable (level e : Nat) : Bool :=
  bits e 63 48 != 0 || e.testBit 7 || bits e 5 1 != 0 || (level ≤ 1 && bits e 11 8 != 0)

/-- A leaf with a reserved bit or KIND, or a misaligned FRAME (R371, R372). -/
def badLeaf (level e : Nat) : Bool :=
  bits e 12 7 != 0 || bits e 2 1 != 0 || 3 ≤ bits e 15 13 || (level == 2 && bits e 20 16 != 0)

/-- An entry as it stood after the first `time` changes: the value that the first later change of it replaced, if there is one. -/
def MemState.entryAt (m : MemState) (time pa : Nat) : MemState × Option Nat :=
  match (m.changes.drop time).find? fun x => x.1 == pa / 8 with
  | some x => (m, some x.2)
  | none => m.entry pa

/-- Walk from a table at a level, in the tables as they stood after `time` changes: the leaf entry and whether the page is
2 MiB. -/
def MemState.walkFrom (m : MemState) (time va : Nat) : Nat → Nat → Nat → MemState × Except WalkFault (Nat × Bool)
  | 0, _, _ => (m, .error ⟨0x09, none⟩)
  | fuel + 1, level, table =>
    match m.entryAt time (table + 8 * levelIndex va level) with
    | (m, none) => (m, .error ⟨0x09, some (0x0051, 0, level)⟩)
    | (m, some e) =>
      let bad : Except WalkFault (Nat × Bool) := .error ⟨0x09, some (0x0050, e, level)⟩
      if !e.testBit 0 then (m, .error ⟨0x09, none⟩)
      else
        let large := e.testBit 6
        if level = 3 then (m, if large || badLeaf 3 e then bad else .ok (e, false))
        else if level = 2 && large then (m, if badLeaf 2 e then bad else .ok (e, true))
        else if large || badTable level e then (m, bad)
        else m.walkFrom time va fuel (level + 1) (bits e 47 8 * 2 ^ 8)

/-- The kinds of access a permission is checked for (R372). A flush needs none (R269). -/
inductive Access where
  | read | write | atomic | fetch | flush
  deriving DecidableEq, Repr

/-- Where a byte of device virtual memory lies: target kind, target address, key index, PFMT. -/
structure Target where
  kind : Nat
  addr : Nat
  key : Nat
  pfmt : Nat
  deriving DecidableEq, Repr

/-- Does a leaf permit an access (R372, R375)? -/
def MemState.permits (m : MemState) (c : Ctx) (e : Nat) (a : Access) : Bool :=
  let k := bits e 63 52
  a == .flush || (c.keylo ≤ k && k < c.keylo + c.keycnt && (bits e 15 13 == 2 || (m.key k).isSome) &&
  match a with
  | .read | .flush => e.testBit 3
  | .write => e.testBit 4
  | .atomic => e.testBit 3 && e.testBit 4
  | .fetch => e.testBit 5)

/-- The state of the tables that translates an address for a context: that of the latest INVL that names its page or every page,
or of the creation of the context (R305). -/
def MemState.renewedAt (m : MemState) (ctx va : Nat) : Nat :=
  (m.renewals.filter fun r => r.ctx == ctx && match r.page with
    | none => true
    | some (p, large) => p == va / 65536 || (large && p / 32 == va / 2097152)).foldl (fun t r => max t r.time) 0

/-- The leaf that translates a page for a context: a cached one until an INVL removes it (R305, R373), else a walk of the tables as
the last INVL left them, whose result is cached. -/
def MemState.leaf (m : MemState) (c : Ctx) (va : Nat) : MemState × Except WalkFault (Nat × Bool) :=
  match m.tlb.find? fun t => t.ctx == c.num && (t.page == va / 65536 || (t.large && t.page / 32 == va / 2097152)) with
  | some t => (m, .ok (t.leaf, t.large))
  | none =>
    match m.walkFrom (m.renewedAt c.num va) va 4 0 c.ptroot with
    | (m, .error f) => (m, .error f)
    | (m, .ok (e, large)) => ({ m with tlb := ⟨c.num, va / 65536, e, large⟩ :: m.tlb }, .ok (e, large))

/-- The handle whose aperture holds an address (R345, R351). -/
def Ctx.handleAt (c : Ctx) (va : Nat) : Option Nat :=
  if c.hcnt = 0 || va < c.hbase || c.hbase + c.hcnt * c.hstride ≤ va then none
  else some (c.hlo + (va - c.hbase) / c.hstride)

/-- A page of a staged handle is read-only; a handle that is not staged has no page (R351). -/
def MemState.translateHandle (m : MemState) (c : Ctx) (va h : Nat) (a : Access) : Except WalkFault Target :=
  let off := (va - c.hbase) % c.hstride
  match (m.aper.find? fun x => x.handle == h).bind fun x => x.pages[off / 65536]? with
  | none => .error ⟨0x09, none⟩
  | some p =>
    if a == .read || a == .flush then
      (if (m.key p.key).isSome || a == .flush then .ok ⟨0, p.frame + off % 65536, p.key, p.pfmt⟩ else .error ⟨0x0A, none⟩)
    else .error ⟨0x0A, none⟩

/-- Translate one device virtual address (R370 to R372, R416). -/
def MemState.translate (m : MemState) (ctx va : Nat) (a : Access) : MemState × Except WalkFault Target :=
  match m.ctx ctx with
  | none => (m, .error ⟨0x09, none⟩)
  | some c =>
    match c.handleAt va with
    | some h => (m, m.translateHandle c va h a)
    | none =>
      match m.leaf c va with
      | (m, .error f) => (m, .error f)
      | (m, .ok (e, large)) =>
        let kind := bits e 15 13
        let addr := bits e 47 16 * 65536 + (if large then va % 2097152 else va % 65536)
        if kind = 1 && (e.testBit 4 || !m.mapped.contains (addr / 65536)) then (m, .error ⟨0x09, none⟩)
        else if kind = 0 && m.frames.contains (addr / 65536) then (m, .error ⟨0x09, none⟩)
        else if !m.permits c e a then (m, .error ⟨0x0A, none⟩)
        else (m, .ok ⟨kind, addr, bits e 63 52, bits e 51 48⟩)

/-- The size of the host capacity window in bytes (R392). -/
def MemState.capSize (m : MemState) : Nat := bits m.capwin.toNat 15 0 * 2 ^ 30
/-- The host physical address of an offset of window 0x4 (R392). -/
def MemState.capAddr (m : MemState) (o : Nat) : Nat := bits m.capwin.toNat 63 30 * 2 ^ 30 + o

/-- A KIND 2 target is an offset of the capacity window (R371): its host physical address. -/
def MemState.place (m : MemState) (t : Target) : Target := if t.kind = 2 then { t with addr := m.capAddr t.addr } else t

/-- The finding of two accesses in order: that of the first at fault. -/
def Bad.worse : Bad → Bad → Bad
  | .ok, b => b
  | a, _ => a

/-- The finding of a store that touches two sectors: older poison is recorded whatever else it meets (R461). -/
def Bad.join : Bad → Bad → Bad
  | .ok, b => b
  | .poison, _ => .poison
  | _, .poison => .poison
  | a, _ => a

/-- Read n bytes at a placed target, lowest first, with what the first sector at fault meets. -/
def MemState.readBytes (m : MemState) (t : Target) : Nat → MemState × List Byte × Bad
  | 0 => (m, [], .ok)
  | n + 1 =>
    let (m, d, bad) := m.look t.kind (t.addr / 32) t.key
    let b := BitVec.ofNat 8 (d.toNat / 2 ^ (8 * (t.addr % 32)))
    let (m, rest, bad') := m.readBytes { t with addr := t.addr + 1 } n
    (m, b :: rest, bad.worse bad')

/-- Write bytes at a placed target, in pieces of one sector each. `fuel` bounds the pieces. -/
def MemState.writeBytes (m : MemState) (t : Target) (ctx : Nat) : Nat → List Byte → MemState × Bad
  | 0, _ => (m, .ok)
  | _, [] => (m, .ok)
  | fuel + 1, bs =>
    let lo := t.addr % 32
    let n := min bs.length (32 - lo)
    let (m, bad) := m.write t.kind (t.addr / 32) t.key ctx lo n (leValue (bs.take n))
    let (m, bad') := m.writeBytes { t with addr := t.addr + n } ctx fuel (bs.drop n)
    (m, bad.worse bad')

/-- The sectors that a store of n bytes at a placed target covers in part are looked at, without a write. `fuel` bounds the pieces. -/
def MemState.lookBytes (m : MemState) (t : Target) : Nat → Nat → MemState × Bad
  | 0, _ => (m, .ok)
  | _, 0 => (m, .ok)
  | fuel + 1, n =>
    let k := min n (32 - t.addr % 32)
    let (m, bad) := if k = 32 then (m, Bad.ok) else
      let (m, _, bad) := m.look t.kind (t.addr / 32) t.key
      (m, bad)
    let (m, bad') := m.lookBytes { t with addr := t.addr + k } fuel (n - k)
    (m, bad.join bad')

/-- Is the page of an address 2 MiB, as the entry gives in the tables after `time` changes (R268)? -/
def MemState.largePage (m : MemState) (time ctx va : Nat) : Bool :=
  match m.ctx ctx with
  | none => false
  | some c => match (m.walkFrom time va 4 0 c.ptroot).2 with
    | .ok (_, large) => large
    | .error _ => false

/-- Remove cached translations, of one page or of a context, and renew them (R268, R305, R373): the tables count as they stand
now. The page that holds the address is the larger of what it is now and what it was before. -/
def MemState.invl (m : MemState) (ctx : Nat) (va : Option Nat) : MemState :=
  let cached (v : Nat) : Bool := m.tlb.any fun t => t.ctx == ctx && t.large && t.page / 32 == v / 2097152
  let large := va.any fun v => m.largePage m.changes.length ctx v || m.largePage (m.renewedAt ctx v) ctx v || cached v
  let page := va.map fun v => (v / 65536, large)
  { m with
    tlb := m.tlb.filter fun t => !(t.ctx == ctx && match va with
      | some v => t.page == v / 65536 || ((t.large || large) && t.page / 32 == v / 2097152)
      | none => true)
    renewals := ⟨ctx, page, m.changes.length⟩ :: m.renewals.filter fun r => !(r.ctx == ctx && (va.isNone || r.page == page)) }

/-- Do something to each sector of a list that is still held. -/
def MemState.each (f : MemState → Sector → MemState) (m : MemState) (l : List Sector) : MemState :=
  l.foldl (fun (m : MemState) x => match m.sector? x.kind x.num with
    | some y => f m y
    | none => m) m

/-- A release at system scope (R302 to R304): the dirty sectors of HBM, which hold what the issuer has written or acquired, are written
below the LLC, where host agents read them. -/
def MemState.release (m : MemState) : MemState := MemState.each MemState.clean m (m.llc.filter fun x => x.dirty && x.kind == 0)

/-- Write back every dirty sector, and drop every sector: FLSH at system scope with p = 0 (R269). -/
def MemState.flushAll (m : MemState) : MemState := { MemState.each MemState.writeBack m m.llc with llc := [] }

/-- The same for one sector. -/
def MemState.flushSector (m : MemState) (kind num : Nat) : MemState :=
  match m.sector? kind num with
  | some x => (m.writeBack x).dropSector kind num
  | none => m

/-- Bytes at an HBM physical address as the device's own tables are read: through the LLC where a copy is held. -/
def MemState.physRead (m : MemState) (pa : Nat) : Nat → MemState × Option (List Byte)
  | 0 => (m, some [])
  | n + 1 =>
    match m.entry (pa / 8 * 8) with
    | (m, none) => (m, none)
    | (m, some e) =>
      let (m, rest) := m.physRead (pa + 1) n
      (m, rest.map (BitVec.ofNat 8 (e / 2 ^ (8 * (pa % 8))) :: ·))

end Sys2Proof.Machine
end

