-- ==== Sys2Proof/Machine/DeviceState.lean ====
section
/-! DEFINITION. The HBM channels, the flash translation engine and the platform (R425 to R460) as plain data. -/
namespace Sys2Proof.Machine

/-- The HBM block (R433, R434). `phase` and `chan` are CHSTAT's. -/
structure HbmState where
  sel : Nat
  spareBase : Nat
  chthr : Nat
  used : Nat
  count : Nat
  chan : Nat
  err : Bool
  phase : Nat
  deriving DecidableEq, Repr

def HbmState.reset : HbmState := ⟨0, 0, 16, 0, 0, 0, false, 0⟩

/-- A flash block that is not as at reset (R437, R438, R464): stack, number; state 0 free, 1 in use, 2 relocating, 3 retired,
4 bad from manufacture; `filled` slots programmed since the last erase; `toBlock` the destination of a relocation with its
CODE `why` and READS at the trigger; `retire` the CODE of the retirement that follows it; `erasing` once its map has
switched. -/
structure Block where
  stack : Nat
  num : Nat
  state : Nat
  reads : Nat
  erases : Nat
  badpg : Nat
  filled : Nat
  toBlock : Option Nat
  why : Nat
  trigger : Nat
  retire : Option Nat
  erasing : Bool
  deriving DecidableEq, Repr

/-- A page read issued to a die (R438, R443). -/
structure PageRead where
  id : Nat
  unit : Nat
  page : Nat
  stack : Nat
  block : Nat
  handle : Option Nat
  tries : Nat
  deriving DecidableEq, Repr

/-- Where a unit of flash lies (R436): its block and one of the 64 unit slots there, which is four consecutive pages. -/
structure UnitPlace where
  unit : Nat
  block : Nat
  slot : Nat
  deriving DecidableEq, Repr

/-- The flash engine (R436 to R440, R464). `map` gives the place of each mapped unit; `deferred` the relocations that wait,
oldest first: stack, block, CODE; `target` the block of a command in progress and `result` its CODE once it ends. -/
structure FlashState where
  rdthr : Nat
  wldiff : Nat
  fhsel : Nat
  fbstack : Nat
  fbblock : Nat
  flarg : Word
  code : Nat
  err : Bool
  busy : Bool
  map : List UnitPlace
  blocks : List Block
  deferred : List (Nat × Nat × Nat)
  target : Option (Nat × Nat)
  result : Nat
  reads : List PageRead
  nextId : Nat
  reloc : Vector (BitVec 32) 8
  uepg : Vector Nat 8
  deriving DecidableEq, Repr

def FlashState.reset : FlashState :=
  { rdthr := 1000000, wldiff := 2000, fhsel := 0, fbstack := 0, fbblock := 0, flarg := 0, code := 0, err := false
    busy := false, map := [], blocks := [], deferred := [], target := none, result := 0, reads := [], nextId := 0
    reloc := Vector.replicate 8 0, uepg := Vector.replicate 8 0 }

/-- The clock of a block (R457, R458): steps of 1/16 below nominal, steps taken since reset, stopped. -/
structure Clock where
  block : BlockId
  steps : Nat
  count : Nat
  stopped : Bool
  deriving DecidableEq, Repr

/-- The platform (R452 to R460): BOOTSTAT, THCFG, TELSEL, MGMTSTAT, the clocks that are not at nominal, the persistent
retirement list as it stood at the last reset (banks as core, group, bank; cores with their reason; LLC frames), the
firmware image in place, the fused minimum version and the fused digest of the public key (R454), where the SPDM exchange stands (0 none, 1 version, 2 capabilities, 3 algorithms,
4 key exchange done, 5 secured) and its last answer. -/
structure PlatState where
  phase : Nat
  fail : Nat
  bootErr : Bool
  tjmax : Nat
  telkind : Nat
  telnum : Nat
  telitem : Nat
  mgmtErr : Bool
  clocks : List Clock
  listBanks : List (Nat × Nat × Nat)
  listCores : List (Nat × Nat)
  listFrames : List (Nat × Nat × Nat)
  image : Firmware
  minVersion : Nat
  keyDigest : BitVec 384
  spdm : Nat
  answer : List Byte
  deriving DecidableEq, Repr

/-- The image that the chip comes with, and the digest fused for its key: version 0, no body, and a signature that verifies (DESIGN CHOICE, log
98). -/
def firstImage : Firmware :=
  { version := 0, body := []
    key :=
      0xaa87ca22be8b05378eb1c71ef320ad746e1d3b628ba79b9859f741e082542a385502f25dbf55296c3a545e3872760ab7#384 ++
      0x3617de4a96262c6f5d9e98bf9292dc29f8f41dbd289a147ce9da3113b5f0b8c00a60b1ce1d7e819d7a431d7c90ea0e5f#384
    sig :=
      0xaa87ca22be8b05378eb1c71ef320ad746e1d3b628ba79b9859f741e082542a385502f25dbf55296c3a545e3872760ab7#384 ++
      0xb41f461f88e90c2082e3f502fc932ce5422bc0797c9d5601738821996028c835097a147186b91a8e95e36d6eddb9affb#384 }

def fusedDigest : BitVec 384 := 0xa19d4db171b582eb8052b0cfe555e17894aa22d1c8a9770950697dd8f796d2fa4bf0a56ad80006b7ea08e1191f814b65

def PlatState.reset : PlatState :=
  { phase := 0, fail := 0, bootErr := false, tjmax := 100, telkind := 0, telnum := 0, telitem := 0, mgmtErr := false
    clocks := [], listBanks := [], listCores := [], listFrames := [], image := firstImage, minVersion := 0, keyDigest := fusedDigest, spdm := 0, answer := [] }

end Sys2Proof.Machine
end

