-- ==== Sys2Proof/Machine/ExpertState.lean ====
section
/-! DEFINITION. Weight handles, the bullpen and the expert cache (R345 to R356) as plain data. -/
namespace Sys2Proof.Machine

/-- A weight handle that is not idle and unbound (R347, R351 to R353). `state`: 0 idle, 1 queued, 2 reading, 3 staged,
4 failed, 5 cancelled. `frames` are the cache frames it holds, `src` and
`len` its image, `got` the flash pages of it that have arrived, `used` its place in the order of use, 0 for one never used, `since` that
in the order in which images became staged. -/
structure Handle where
  num : Nat
  ctx : Nat
  state : Nat
  expert : Option Nat
  code : Nat
  pins : List Nat
  released : Bool
  used : Nat
  since : Nat
  src : Nat
  len : Nat
  frames : List Nat
  got : List Nat
  deriving DecidableEq, Repr

/-- A bullpen entry (R349): absolute deadline in fc, priority, acceptance order; whether its read has started, whether its miss was
counted (R350), and whether BPSTART has named it (R356). -/
structure BpEntry where
  handle : Nat
  deadline : Option Nat
  prio : Nat
  order : Nat
  started : Bool
  missed : Bool
  asked : Bool
  deriving DecidableEq, Repr

structure ExpertState where
  handles : List Handle
  entries : List BpEntry
  order : Nat
  ecbase : Word
  frames : Nat
  hostord : Bool
  en : Bool
  miss : Nat
  deriving DecidableEq, Repr

/-- Has the deadline of an entry passed, and not been counted (R350)? -/
def BpEntry.overdue (e : BpEntry) (clock : Nat) : Bool :=
  !e.missed && match e.deadline with
    | some d => d ≤ clock
    | none => false

/-- Every deadline that has passed is counted once (R350). -/
def ExpertState.countMisses (x : ExpertState) (clock : Nat) : ExpertState :=
  { x with
    miss := (x.miss + (x.entries.filter fun e => e.overdue clock).length) % 2 ^ 32
    entries := x.entries.map fun (e : BpEntry) => if e.overdue clock then { e with missed := true } else e }

def ExpertState.reset : ExpertState := ⟨[], [], 0, 0, 0, false, false, 0⟩

end Sys2Proof.Machine
end

