-- ==== Sys2Proof/Machine/HostState.lean ====
section
/-! DEFINITION. The host link, the context registers, the peer link, the reliability engine and the Referee (R364, R366, R390
to R399, R407 to R424) as plain data. -/
namespace Sys2Proof.Machine

/-- The answer to the last host read or peer access: bytes, Unsupported Request, Completer Abort, or a refusal by its
completion code. -/
inductive Reply where
  | data (bytes : List Byte)
  | unsupported
  | abort
  | refused (code : Nat)
  deriving DecidableEq, Repr

/-- BAR0 registers of R364, R366, R390 to R399, the MSI-X vectors raised (R394: how often each), the fc elapsed since reset,
and the last reply. CTXSTAT's command in progress is `op` (0 none). -/
structure HostState where
  ctxbase : Word
  lastCtx : Nat
  ctxErr : Bool
  op : Nat
  apKey : Nat
  apEn : Bool
  xsize : Nat
  rank : Nat
  npkg : Nat
  peerEn : Bool
  peerCtx : Nat
  peerBase : Nat
  rxcred : Nat
  txcred : Nat
  pevt : Nat
  ports : BitVec 4
  duty : BitVec 5
  cfgdrop : Bool
  msix : Vector Nat 72
  clock : Nat
  reply : Option Reply
  deriving DecidableEq, Repr

def HostState.reset : HostState :=
  { ctxbase := 0, lastCtx := 0, ctxErr := false, op := 0, apKey := 0, apEn := false, xsize := 0, rank := 0, npkg := 0
    peerEn := false, peerCtx := 0, peerBase := 0, rxcred := 0, txcred := 0, pevt := 0, ports := 0, duty := 0
    cfgdrop := false, msix := Vector.replicate 72 0, clock := 0, reply := none }

/-- A region log awaiting the Referee (R422, R423): its number, address and length in the area, the log, the first replay,
and whether it is decided and only waits for those committed before it to be freed. -/
structure AuditEntry where
  num : Nat
  addr : Nat
  len : Nat
  log : AuditLog
  first : Option (Nat × Word)
  done : Bool
  deriving DecidableEq, Repr

/-- The reliability engine (R411, R413, R416) and the Referee (R424). `messages` holds the classes of the AER messages sent,
`unsent` those that wait for the link to train (R414). `retiring` holds the cores whose retirement has begun,
with its reason (R419). `verdicts` are the decided regions that did not confirm, with the DETAIL of R423. -/
structure RelState where
  pagethr : Nat
  bankthr : Nat
  cerec : Bool
  mode : Nat
  dropcnt : Nat
  fatal : Bool
  nfpend : Bool
  ovf : Bool
  rlbase : Word
  rlsize : Nat
  head : Nat
  tail : Nat
  hqcore : Nat
  hqgroup : Nat
  seq : Nat
  corrections : List (Nat × Nat)
  aerCor : Bool
  aerUncor : Bool
  severity : Bool
  /-- AER's masks of Corrected and of Uncorrectable Internal Error (R413; log 87). -/
  maskCor : Bool
  maskUncor : Bool
  headerLog : Option (List Byte)
  messages : List Nat
  unsent : List Nat
  retiring : List (Nat × Nat)
  refEn : Bool
  refF : Nat
  refSF : Nat
  refThr : Nat
  seed : Nat
  audbase : Word
  audsize : Nat
  aud : Nat
  skip : Nat
  mism : Nat
  logs : List AuditEntry
  audTail : Nat
  regions : Nat
  verdicts : List (Nat × Nat)
  deriving DecidableEq, Repr

def RelState.reset : RelState :=
  { pagethr := 8, bankthr := 4, cerec := true, mode := 0, dropcnt := 0, fatal := false, nfpend := false, ovf := false
    rlbase := 0, rlsize := 0, head := 0, tail := 0, hqcore := 0, hqgroup := 0, seq := 0,
    corrections := [], aerCor := false, aerUncor := false, severity := false, maskCor := false, maskUncor := false, headerLog := none, messages := [], unsent := [], retiring := []
    refEn := false, refF := 10, refSF := 0, refThr := 3, seed := 1, audbase := 0, audsize := 0, aud := 0, skip := 0
    mism := 0, logs := [], audTail := 0, regions := 0, verdicts := [] }

end Sys2Proof.Machine
end

