-- ==== Sys2Proof/Machine/LaunchState.lean ====
section
/-! DEFINITION. Launches, tiles, range tasks, gangs, the handoff table, command lists, claims and saved tasks (R320 to R343,
R360, R378 to R385) as plain data. -/
namespace Sys2Proof.Machine

/-- Who submitted a launch (R332, R267): a list, or an LNCH of a core with its command number. -/
inductive Launcher where
  | list (j : Nat)
  | core (k id : Nat)
  deriving DecidableEq, Repr

/-- A launch that waits for the pending-launch pool (R336). `sub` is its submission priority (R333). -/
structure LaunchReq where
  id : Nat
  via : Launcher
  recPtr : Word
  param : Word
  ctx : Nat
  depth : Nat
  sub : Nat
  deriving DecidableEq, Repr

/-- A reported failure (R331): code, detail and the index path of the tile. -/
structure TileFail where
  code : Nat
  detail : Nat
  path : List Nat
  deriving DecidableEq, Repr

/-- A launch that is not complete (R320, R331, R334): its record and the kernel record as read; the parameter pointer in use;
whether it still holds an entry of the pool; the tasks completed; what its tiles reported. -/
structure Launch where
  id : Nat
  recPtr : Word
  bytes : List Byte
  kernel : List Byte
  param : Word
  ctx : Nat
  depth : Nat
  sub : Nat
  entry : Bool
  tasks : Nat
  fails : List TileFail
  deriving DecidableEq, Repr

/-- A group record of a GGEMM command in flight (R359, R360): as read, with its M and kernel record. -/
structure GroupRec where
  bytes : List Byte
  kernel : List Byte
  m : Nat
  deriving DecidableEq, Repr

/-- A GGEMM command whose walk has ended (R360, R361). Its number is a launch number. -/
structure Ggemm where
  id : Nat
  core : Nat
  cmd : Nat
  ctx : Nat
  base : Word
  sub : Nat
  prio : Nat
  depth : Nat
  recs : List GroupRec
  fails : List TileFail
  deriving DecidableEq, Repr

/-- The state of a tile (R327, R330). -/
inductive TileState where
  | waiting | launchable | running | done | failed
  deriving DecidableEq, Repr

/-- A tile (R323): launch, index path down to the tile level, coordinates, cluster (none: the whole launch), which inputs are
satisfied, pinned handles, and the audited regions its tasks committed (R423). -/
structure TileTask where
  id : Nat
  launch : Nat
  path : List Nat
  coord : List Nat
  cluster : Option Nat
  parent : Nat × Nat
  state : TileState
  inputs : List Bool
  pinned : List Nat
  regions : List Nat
  deriving DecidableEq, Repr

/-- A range task (R325). No holder: it waits in the unit (domain code of R320 and number) that confines it. -/
structure RangeTask where
  launch : Nat
  tile : Option Nat
  path : List Nat
  level : Nat
  next : Nat
  hi : Nat
  holder : Option Nat
  dom : Nat
  unit : Nat
  deriving DecidableEq, Repr

/-- A task on a core (R325, R329): its launch, tile and index path, gang and rank, its place in the order of dispatch, the
unit that confines it, the audited regions it committed. `begun` says its dispatch has happened. -/
structure Task where
  core : Nat
  launch : Nat
  tile : Option Nat
  path : List Nat
  gang : Option Nat
  rank : Nat
  order : Nat
  dom : Nat
  unit : Nat
  regions : List Nat
  begun : Bool
  deriving DecidableEq, Repr

/-- A leaf of a gang: its index path and its tile (R328). -/
structure Leaf where
  path : List Nat
  tile : Option Nat
  deriving DecidableEq, Repr

/-- A gang instance (R328): launch, instance path, confining unit, its leaves in rank order, and the ranks that have ended. -/
structure Gang where
  id : Nat
  launch : Nat
  path : List Nat
  dom : Nat
  unit : Nat
  leaves : List Leaf
  dispatched : Bool
  ended : List Nat
  deriving DecidableEq, Repr

/-- The barrier of one level instance of a gang (R113): participants by rank, completed phases, arrivals at each phase. -/
structure Barrier where
  gang : Nat
  level : Nat
  path : List Nat
  phase : Nat
  arrived : List (Nat × Nat)
  deriving DecidableEq, Repr

/-- A COLL issued and not complete (R260): the place of the command among its participant's COLLs of the instance. -/
structure CollCmd where
  core : Nat
  id : Nat
  gang : Nat
  level : Nat
  path : List Nat
  rank : Nat
  index : Nat
  deriving DecidableEq, Repr

/-- A tag of the handoff table (R337, R341): `ovf` is its entry in the context's overflow list. `state` is 1 present, 2 held,
3 poisoned; `deciders` are the audited regions that decide a held tag (R423). -/
structure Tag where
  ctx : Nat
  name : Word
  gen : Nat
  state : Nat
  detail : Nat
  ovf : Option Nat
  deciders : List Nat
  deriving DecidableEq, Repr

/-- Who waits for a publication (R339). -/
inductive Publisher where
  | core (k id : Nat)
  | list (j : Nat)
  | tile (t : Nat)
  deriving DecidableEq, Repr

/-- A publication that has not completed (R265, R339). `poison` is the detail of a tag published poisoned (R330); `commits` is how many
selected regions the task of an HPUB had committed before it (R423); `held` says that it has taken effect and waits for the audit of
`deciders`. -/
structure Pub where
  id : Nat
  via : Publisher
  ctx : Nat
  name : Word
  gen : Nat
  poison : Option Nat
  strict : Bool
  deciders : List Nat
  commits : Nat
  held : Bool
  deriving DecidableEq, Repr

/-- Why a list does not go on (R332). -/
inductive ListWait where
  | none | word | launch | publish
  deriving DecidableEq, Repr

/-- A submission register with the list it runs (R332, R333). -/
structure ListReg where
  addr : Word
  prio : Nat
  ctx : Nat
  en : Bool
  pos : Nat
  code : Nat
  fail : Bool
  drop : Bool
  busy : Bool
  base : Nat
  stack : List Nat
  executed : Nat
  wait : ListWait
  deriving DecidableEq, Repr

/-- A saved task (R383 to R385): its slot, how it was saved, the task and the state of its core; `done` once the slot's
header is written. -/
structure Saved where
  id : Nat
  slot : Nat
  forced : Bool
  task : Task
  image : Core
  done : Bool
  deriving DecidableEq, Repr

/-- What a core is claimed for (R378, R367, R419, R382). -/
inductive Claimant where
  | tile (t : Nat)
  | saved (id : Nat)
  | suspend
  | retire
  | gang (g : Nat)
  deriving DecidableEq, Repr

/-- A claim (R378): victim, claimant, and whether its limit has passed (R380). -/
structure Claim where
  victim : Nat
  by' : Claimant
  limit : Bool
  deriving DecidableEq, Repr

structure LaunchState where
  nextId : Nat
  order : Nat
  reqs : List LaunchReq
  launches : List Launch
  ggemms : List Ggemm
  tiles : List TileTask
  ranges : List RangeTask
  tasks : List Task
  gangs : List Gang
  barriers : List Barrier
  colls : List CollCmd
  tags : List Tag
  pubs : List Pub
  overflowed : List (Nat × Nat)
  lists : Vector ListReg 64
  lpbase : Word
  lpres : Nat
  lpqlen : Nat
  saved : List Saved
  claims : List Claim
  deriving DecidableEq, Repr

def ListReg.zero : ListReg := ⟨0, 0, 0, false, 0, 0, false, false, false, 0, [], 0, .none⟩

def LaunchState.reset : LaunchState :=
  { nextId := 0, order := 0, reqs := [], launches := [], ggemms := [], tiles := [], ranges := [], tasks := [], gangs := []
    barriers := [], colls := [], tags := [], pubs := [], overflowed := [], lists := Vector.replicate 64 ListReg.zero
    lpbase := 0, lpres := 0, lpqlen := 0, saved := [], claims := [] }

end Sys2Proof.Machine
end

