-- ==== Sys2Proof/Machine/State.lean ====
section
/-! DEFINITION. The state of the package, its reset value, and what a step can end in besides a next state. -/
namespace Sys2Proof.Machine

/-- Faults of the model. -/
inductive Fault where
  /-- Raised by an event that names a core, cluster, list, handle, channel or other unit the package does not have (R1). No
  chip performs such an event. Safe. -/
  | noSuchUnit
  deriving DecidableEq, Repr

/-- Refusals of the model. -/
inductive Refusal where
  /-- Raised by Dispatch for an instruction that has no meaning yet. Safe. -/
  | notModelled (mnemonic : String)
  deriving DecidableEq, Repr

/-- The package. `core` is the core the default order looks at; `others` lists the other cores that are not as at reset.
`agenda` holds the events that come next (log 1), `turn` says whether the default order looks at the package before the
cores (log 2), `fresh` counts the free values used (log 3). -/
structure State where
  core : Core
  others : List Core
  mem : MemState
  launch : LaunchState
  expert : ExpertState
  host : HostState
  rel : RelState
  hbm : HbmState
  flash : FlashState
  plat : PlatState
  agenda : List Instr
  turn : Bool
  fresh : Nat
  deriving DecidableEq, Repr

/-- The package right after a reset, before phase 0 of R452 has run. -/
def State.reset : State :=
  { core := Core.reset 0, others := [], mem := MemState.reset, launch := LaunchState.reset, expert := ExpertState.reset
    host := HostState.reset, rel := RelState.reset, hbm := HbmState.reset, flash := FlashState.reset
    plat := PlatState.reset, agenda := [], turn := false, fresh := 0 }

end Sys2Proof.Machine
end

