-- ==== Sys2Proof/Machine/Units.lean ====
section
/-! DEFINITION. Cores and units of the package, its clock, MSI-X (R394), and the reliability engine's numbering, ring and AER
signals (R407 to R414). -/
namespace Sys2Proof.Machine

/-! ## Cores -/

def State.coreAt (s : State) (k : Nat) : Core :=
  if k = s.core.kid then s.core
  else match s.others.find? fun c => c.kid == k with
    | some c => c
    | none => { Core.reset k with refState := refSeed s.rel.seed k }

/-- Replace the core of a number; the package has 4,096 of them (R1). -/
def State.setCore (s : State) (c : Core) : State :=
  if c.kid = s.core.kid then { s with core := c }
  else if inCores c.kid then { s with others := c :: s.others.filter fun d => d.kid != c.kid }
  else s

def State.modCore (s : State) (k : Nat) (f : Core → Core) : State := s.setCore (f (s.coreAt k))

/-- The cores that are not as at reset, and the one in view. -/
def State.cores (s : State) : List Core := s.core :: s.others

def State.modCores (s : State) (f : Core → Core) : State :=
  { s with core := f s.core, others := s.others.map f }

/-- Make core k the one in view. -/
def State.focus (s : State) (k : Nat) : State :=
  if k = s.core.kid then s
  else if inCores k then { s with core := s.coreAt k, others := s.core :: s.others.filter fun d => d.kid != k }
  else s

/-! ## Units (R1, R320, R324) -/

/-- The number of cores in a unit of a domain: core, cluster, die, package. -/
def domSize : Nat → Nat
  | 0 => 1 | 1 => 16 | 2 => 512 | _ => 4096

/-- The unit of a domain that holds a core. -/
def unitOf (dom k : Nat) : Nat := k / domSize dom

def inUnit (dom unit k : Nat) : Bool := unitOf dom k == unit

/-- A core in service: not removed and not being retired (R419). -/
def State.inService (s : State) (k : Nat) : Bool :=
  (s.coreAt k).run != .retired && !s.rel.retiring.any fun x => x.1 == k

/-- The cores of a unit in service. -/
def State.serviceCount (s : State) (dom unit : Nat) : Nat :=
  let out := (s.cores.filter fun c => c.run == .retired || s.rel.retiring.any fun x => x.1 == c.kid).map (·.kid)
  domSize dom - (out.filter (inUnit dom unit)).eraseDups.length

/-- A cluster is in service while one of its cores is (R419). -/
def State.clusterUp (s : State) (c : Nat) : Bool := s.serviceCount 1 c != 0

/-- The clusters of a unit in service, in rising order (R324). -/
def State.clustersOf (s : State) (dom unit : Nat) : List Nat :=
  let n := domSize dom / 16
  ((List.range (max n 1)).map fun i => unit * domSize dom / 16 + i).filter s.clusterUp

/-! ## Clocks (R457) -/

/-- Has a block stopped its clock? -/
def State.clockStopped (s : State) (b : BlockId) : Bool := s.plat.clocks.any fun x => x.stopped && x.block == b

/-- Does core k run: neither its own clock nor that of its cluster is stopped? -/
def State.clockRuns (s : State) (k : Nat) : Bool := !(s.clockStopped ⟨0, k⟩ || s.clockStopped ⟨1, k / 16⟩)

/-! ## Time and free values -/

/-- Time passes, by one fc or more (R407, R450; log 13); the deadlines that it reaches are counted (R350). -/
def State.tick (s : State) : State :=
  let clock := s.host.clock + 1 + Config.elapsed s.fresh
  { s with host := { s.host with clock := clock }, expert := s.expert.countMisses clock, fresh := s.fresh + 1 }

/-- Raise an MSI-X vector (R394). -/
def State.raise (s : State) (v : Nat) : State :=
  { s with host := { s.host with msix := s.host.msix.setIfInBounds v (s.host.msix.toList.getD v 0 + 1) } }

/-- What goes back to the host or to another package. -/
def State.answer (s : State) (r : Reply) : State := { s with host := { s.host with reply := some r } }

/-! ## Records (R407 to R413) -/

/-- The class of an event type (R409). -/
def classOf (t : Nat) : Nat :=
  if [0x0012, 0x0041, 0x0061, 0x0074].contains t then 0
  else if [0x0001, 0x0004, 0x0013, 0x0022, 0x0023, 0x0024, 0x0030, 0x0032, 0x0033, 0x0042, 0x0073].contains t then 1
  else if t = 0x0071 || t = 0x007F then 3
  else 2

/-- The 64 bytes of a record (R407). -/
def Rec.bytes (r : Rec) (seq time : Nat) : List Byte :=
  leBytes 2 r.type ++ leBytes 1 (classOf r.type) ++ leBytes 1 ((if r.ctx.isSome then 1 else 0) + r.flags) ++ leBytes 4 seq ++
  leBytes 8 time ++ leBytes 2 (r.ctx.getD 0) ++ leBytes 2 (2 ^ 12 * r.ukind + r.unum) ++ leBytes 4 r.code ++
  leBytes 8 r.addr.toNat ++ leBytes 8 r.info0.toNat ++ leBytes 8 r.info1.toNat ++ leBytes 8 r.info2.toNat ++
  leBytes 8 r.info3.toNat

/-- Is the record of an event written to the ring (R411)? -/
def RelState.writes (r : RelState) (cls : Nat) : Bool := r.mode != 1 && (r.cerec || 2 ≤ cls)

/-- Is the status of a class masked in AER (R413)? -/
def RelState.masked (r : RelState) (cls : Nat) : Bool := if cls = 1 then r.maskCor else r.maskUncor

/-- Signal an event through AER by its class (R413). The severity reads 1 from the first class-3 event on, in every mode. A masked
status sends no message, and the Header Log holds the first record of an uncorrectable error that is not masked, as AER has it. -/
def State.signal (s : State) (cls : Nat) (bytes : List Byte) : State :=
  let s := { s with rel := { s.rel with severity := s.rel.severity || cls == 3 } }
  if s.rel.mode = 0 || cls = 0 then s
  else
    let r := s.rel
    let r := if cls = 1 then { r with aerCor := true } else { r with aerUncor := true }
    let r := if cls = 2 then { r with nfpend := true } else r
    let r := if r.masked cls then r
      else
        let r := if cls = 1 then r else { r with headerLog := r.headerLog <|> some (bytes.take 16) }
        if s.mem.linkUp then { r with messages := r.messages ++ [cls] } else { r with unsent := r.unsent ++ [cls] }
    { s with rel := r }.raise 64

/-- Bytes of whole granules written to HBM (kind 0), as any write of its ports (R429), or to host memory (kind 2), below every cache: this
clears their poison (R412, R426). -/
def MemState.putBelow (m : MemState) (kind a : Nat) (bytes : List Byte) : MemState :=
  if kind = 0 then m.putHbm a bytes.length bytes
  else
    let nums := (List.range (bytes.length / 32)).map (a / 32 + ·)
    { m with host := m.host.putN a bytes, hostPoison := m.hostPoison.filter fun n => !nums.contains n }

/-- Write a record to the ring (R412). -/
def State.ringWrite (s : State) (bytes : List Byte) : State :=
  let r := s.rel
  let n := r.rlsize
  if n = 0 || (r.tail + 1) % n = r.head then
    { s with rel := { r with ovf := true, dropcnt := min (r.dropcnt + 1) (2 ^ 32 - 1) } }
  else
    let a := bits r.rlbase.toNat 63 6 * 64 + 64 * r.tail
    let m := s.mem.putBelow (if r.rlbase.getLsbD 0 then 2 else 0) a bytes
    { s with mem := m, rel := { r with tail := (r.tail + 1) % n } }.raise 64

/-- Number an event, write its record and signal it (R407, R410, R412, R413). Until phase 5 no ring is configured
(R452). -/
def State.record (s : State) (r : Rec) : State :=
  let s := s.tick
  let cls := classOf r.type
  let bytes := r.bytes (s.rel.seq % 2 ^ 32) s.host.clock
  let s := { s with rel := { s.rel with seq := s.rel.seq + 1 } }
  let s := if s.rel.writes cls then s.ringWrite bytes else s
  s.signal cls bytes

def State.recordAll (s : State) (rs : List Rec) : State := rs.foldl State.record s

/-- A record about core k, in the context its task runs in, if any (R408). -/
def State.coreRec (s : State) (k type code : Nat) (addr info0 info1 : Word) : Rec :=
  let c := s.coreAt k
  ⟨0, k, type, 0, if c.run == .idle || c.run == .retired then none else some c.ctx, code, addr, info0, info1, 0, 0⟩

end Sys2Proof.Machine
end

