-- ==== Sys2Proof/Machine/Generic.lean ====
section
/-! DEFINITION. Generic pointers (R208 to R212, R291, R396): what they name, how sequencers and engines read and write
through them, and the operations LDG, STG, ATOMG and CASG. -/
namespace Sys2Proof.Machine

/-- A result of an operation on the package. An operation that stops may leave behind what its access did to memory before it
stopped: translations cached, errors found. -/
abbrev SRes (α : Type) := Except (Stop × Option MemState) α

def liftRes {α : Type} (r : Res α) : SRes α :=
  match r with
  | .ok x => .ok x
  | .error e => .error (e, none)

/-- What a pointer and a length name: bytes of a pool, bytes of memory, or bytes of another package. -/
inductive Range where
  | pool (k off n : Nat)
  | mem (ts : List Target)
  | peer (pkg off n : Nat)
  deriving DecidableEq, Repr

/-- One byte of a range. -/
inductive Place where
  | pool (k off : Nat)
  | dev (t : Target)
  | peer (pkg off : Nat)
  deriving DecidableEq, Repr

/-- Translate for an access of core k or its engines; a fault that R372 records leaves its record. -/
def State.translate (s : State) (k ctx va : Nat) (a : Access) : State × Except Nat Target :=
  match s.mem.translate ctx va a with
  | (m, .ok t) => ({ s with mem := m }, .ok (m.place t))
  | (m, .error f) =>
    match f.log with
    | none => ({ s with mem := m }, .error f.cause)
    | some (type, e, level) =>
      let r : Rec := ⟨0, k, type, 0, some ctx, 0, BitVec.ofNat 64 va, BitVec.ofNat 64 e, BitVec.ofNat 64 level, 0, 0⟩
      ({ s with mem := { m with recs := m.recs ++ [r] } }, .error f.cause)

/-- Is a core running a task of a context (R291)? -/
def Core.runs (c : Core) (ctx : Nat) : Bool := c.run != .idle && c.run != .retired && c.ctx == ctx

/-- The place of one byte for core k in a context, or the cause of its fault: window, then translation, then protection (R210,
R291, R392, R396; log 47). -/
def State.placeByte (s : State) (k ctx q : Nat) (a : Access) : State × Except Nat Place :=
  let off := bits q 59 0
  match bits q 63 60 with
  | 0 =>
    if bits q 59 48 ≠ 0 then (s, .error 0x08)
    else
      let (s, r) := s.translate k ctx (bits q 47 0) a
      (s, match r with
        | .ok t =>
          if (t.kind = 0 && Config.hbmBytes ≤ t.addr) || (t.kind = 2 && s.mem.capAddr s.mem.capSize ≤ t.addr) then .error 0x09
          else .ok (.dev t)
        | .error c => .error c)
  | 1 => (s, if off < (s.coreAt k).scratchSize then .ok (.pool k off) else .error 0x08)
  | 2 =>
    let t := k / 16 * 16 + bits q 51 48
    let d := s.coreAt t
    if bits q 59 52 ≠ 0 || bits q 47 20 ≠ 0 then (s, .error 0x08)
    else if t ≠ k && !d.runs d.ctx then (s, .error 0x0A)
    else if d.scratchSize ≤ bits q 19 0 then (s, .error 0x08)
    else (s, if t = k || d.ctx = ctx then .ok (.pool t (bits q 19 0)) else .error 0x0A)
  | 4 => (s, if off < s.mem.capSize then .ok (.dev ⟨2, s.mem.capAddr off, 0, 0⟩) else .error 0x08)
  | 5 =>
    let pkg := bits q 56 48
    if bits q 59 57 ≠ 0 || s.host.xsize * 2 ^ 30 ≤ bits q 47 0 then (s, .error 0x08)
    else (s, if !s.host.peerEn || s.host.npkg < pkg then .error 0x0A else .ok (.peer pkg (bits q 47 0)))
  | _ => (s, .error 0x08)

/-- The places of n bytes, or the cause and the address of the lowest byte at fault (R210). -/
def State.placeBytes (s : State) (k ctx : Nat) (a : Access) : Nat → Nat → State × Except (Nat × Nat) (List Place)
  | _, 0 => (s, .ok [])
  | q, n + 1 =>
    match s.placeByte k ctx (q % 2 ^ 64) a with
    | (s, .error c) => (s, .error (c, q % 2 ^ 64))
    | (s, .ok x) =>
      match s.placeBytes k ctx a (q + 1) n with
      | (s, .error e) => (s, .error e)
      | (s, .ok xs) => (s, .ok (x :: xs))

/-- The range that a list of places forms. -/
def Range.of (l : List Place) : Range :=
  match l with
  | .pool k off :: _ => .pool k off l.length
  | .peer pkg off :: _ => .peer pkg off l.length
  | _ => .mem (l.filterMap fun x => match x with | .dev t => some t | _ => none)

def State.resolve (s : State) (k ctx : Nat) (p : Word) (n : Nat) (a : Access) : State × Except (Nat × Nat) Range :=
  match s.placeBytes k ctx a p.toNat n with
  | (s, .error e) => (s, .error e)
  | (s, .ok l) => (s, .ok (Range.of l))

/-- Consecutive bytes of one mapping as one piece: first byte and length. -/
def pieces : List Target → List (Target × Nat)
  | [] => []
  | t :: ts =>
    match pieces ts with
    | (u, n) :: rest =>
      if u.kind = t.kind && u.key = t.key && u.addr = t.addr + 1 then (t, n + 1) :: rest else (t, 1) :: (u, n) :: rest
    | [] => [(t, 1)]

/-- What an access met besides its bytes: a poisoned pool sector (R193), an error of a pool that it would detect (R191), an
error found now or poison in device or host memory (R415), from byte `i` of the access on; or it waits, because the group of the pool is being rebuilt (R196). -/
inductive Met where
  | ok
  | wait
  | pool (info : Word)
  | sense (k off n : Nat) (write : Bool)
  | dev (b : Bad) (i : Nat)
  deriving DecidableEq, Repr

/-- Is the sector of a target uncorrectable as memory stands: poisoned, on a page that stays unreadable, or behind a link that is
down? -/
def MemState.badAt (m : MemState) (t : Target) : Bool :=
  let num := t.addr / 32
  match m.sector? t.kind num with
  | some x => x.poison
  | none => match t.kind with
    | 0 => m.poisoned num
    | 1 => m.flashBad.contains (t.addr / 16384) || m.flashMet.contains (t.addr / 16384)
    | _ => !m.linkUp || m.hostPoison.contains num

/-- The finding of an access to some bytes, which the memory after it shows: the first byte at fault (R201). -/
def MemState.met (m : MemState) (ts : List Target) (b : Bad) : Met := if b = .ok then .ok else .dev b (ts.findIdx m.badAt)

def readPieces (m : MemState) : List (Target × Nat) → MemState × List Byte × Bad
  | [] => (m, [], .ok)
  | (t, n) :: rest =>
    let (m, bs, b) := m.readBytes t n
    let (m, bs', b') := readPieces m rest
    (m, bs ++ bs', b.worse b')

/-- What the sectors of a store meet, looked at before any of it is written. -/
def lookPieces (m : MemState) : List (Target × Nat) → MemState × Bad
  | [] => (m, .ok)
  | (t, n) :: rest =>
    let (m, b) := m.lookBytes t n n
    let (m, b') := lookPieces m rest
    (m, b.join b')

def writePieces (m : MemState) (ctx : Nat) : List (Target × Nat) → List Byte → MemState
  | [], _ => m
  | (t, n) :: rest, bs => writePieces (m.writeBytes t ctx n (bs.take n)).1 ctx rest (bs.drop n)

/-- Read a range. What another package holds is not known here (R306; log 15). -/
def State.readRange (s : State) (r : Range) : State × List Byte × Met :=
  match r with
  | .pool k off n =>
    let c := s.coreAt k
    match c.checkPoison off n with
    | .error (.sense k off n w) => (s, [], .sense k off n w)
    | .error (.trap _ info) => (s, [], .pool info)
    | .error _ => (s, [], .wait)
    | .ok _ => (s, c.scrBytes off n, .ok)
  | .mem ts =>
    let (m, bs, b) := readPieces s.mem (pieces ts)
    ({ s with mem := m }, bs, m.met ts b)
  | .peer _ _ n => ({ s with fresh := s.fresh + 1 }, leBytes n (Config.peerValue s.fresh).toNat, .ok)

/-- Is a range host memory? With the link down its writes are discarded and recorded (R393). -/
def Range.host : Range → Bool
  | .mem (t :: _) => t.kind == 2
  | _ => false

/-- Write a range for a context. A write to another package is posted elsewhere. `ptr` is the pointer of the access and k its core.
A store that finds a sector of its own context lost writes nothing (R449). -/
def State.writeRange (s : State) (k ctx : Nat) (ptr : Word) (r : Range) (bs : List Byte) : State × Met :=
  match r with
  | .pool j off n =>
    let c := s.coreAt j
    match c.checkPartial off n with
    | .error (.sense k off n w) => (s, .sense k off n w)
    | .error (.trap _ info) => (s, .pool info)
    | .error _ => (s, .wait)
    | .ok _ => (s.setCore (c.scrPut off bs), .ok)
  | .mem ts =>
    if r.host && !s.mem.linkUp then
      ({ s with mem := { s.mem with recs := s.mem.recs ++ [⟨0, k, 0x0072, 0, some ctx, 0, ptr, 0, 0, 0, 0⟩] } }, .ok)
    else
      let (m, b) := lookPieces s.mem (pieces ts)
      if (m.doomed.drop s.mem.doomed.length).any fun d => d.ctx == ctx && d.sector.isSome then ({ s with mem := m }, m.met ts b)
      else ({ s with mem := writePieces m ctx (pieces ts) bs }, m.met ts b)
  | .peer .. => (s, .ok)

/-- A record of poison consumed by core k (R409). -/
def MemState.consumed (m : MemState) (k ctx code : Nat) (ptr : Word) : MemState :=
  { m with recs := m.recs ++ [⟨0, k, 0x0025, 0, some ctx, code, ptr, 0, 0, 0, 0⟩] }

/-- Did an access find that a sector of its own context is lost? It is then not performed and its context ends (R417,
R449). -/
def State.ownLoss (s : State) (ctx : Nat) : Bool := s.mem.doomed.any fun d => d.ctx == ctx && d.sector.isSome

/-- The pointer of the first byte at fault of an access to a pool (R201): that of the poisoned sector of R193's offset, if the
access begins before it. The pool windows hold the offset in bits [19:0]. -/
def faultPointer (ptr info : Word) : Word :=
  let sector := bits info.toNat 19 0
  let off := bits ptr.toNat 19 0
  if off < sector then ptr + BitVec.ofNat 64 (sector - off) else ptr

/-- The outcome of what a sequencer's access met (R212, R415). -/
def State.judge (s : State) (ptr : Word) (met : Met) : SRes State :=
  let c := s.core
  if s.ownLoss c.ctx then .error (.stall 256 false, some s.mem)
  else match met with
    | .ok => .ok s
    | .wait => .error (.stall 256 false, none)
    | .pool info => .error (.trap 0x0C (faultPointer ptr info), none)
    | .sense k off n w => .error (.sense k off n w, some s.mem)
    | .dev .fresh i => .error (.trap 0x0C (ptr + BitVec.ofNat 64 i), some s.mem)
    | .dev _ i => .error (.trap 0x0C (ptr + BitVec.ofNat 64 i), some (s.mem.consumed c.kid c.ctx 0x0C (ptr + BitVec.ofNat 64 i)))

/-! ## Other packages (R306, R396) -/

/-- The packages to which a core has operations outstanding: stores not acknowledged, and loads and atomics whose result is not
written (R396). -/
def Core.peerTargets (c : Core) : List Nat :=
  c.peerStores.map (·.package) ++ (c.peerLoads.filter fun x => c.vars.any fun v => v.id == x.1).map (·.2)

/-- Operations outstanding to a package (R395). -/
def State.outstanding (s : State) (pkg : Nat) : Nat := ((s.cores.flatMap Core.peerTargets).filter (· == pkg)).length

/-- A sequencer without a credit toward its target stalls (R396). An atomic waits for the earlier stores to its target, after
which it is performed there (R306). -/
def State.credit (s : State) (r : Range) (atomic : Bool) : SRes Unit :=
  match r with
  | .peer pkg _ _ =>
    if s.host.txcred ≤ s.outstanding pkg || (atomic && s.core.peerStores.any fun p => p.package == pkg) then
      .error (.stall 256 false, none)
    else .ok ()
  | _ => .ok ()

/-- The load or atomic that takes the next number of a result holds a credit toward its target (R396). -/
def Core.holdCredit (c : Core) (r : Range) : Core :=
  match r with
  | .peer pkg _ _ => { c with peerLoads := (c.nextId, pkg) :: c.peerLoads.filter fun x => c.vars.any fun v => v.id == x.1 }
  | _ => c

/-- What an offset of this package's own aperture names in context PEERX.CTX, or the code of a refusal (R397). -/
def State.aperture (s : State) (k off n : Nat) (a : Access) : State × Except Nat (List Place) :=
  let active := match s.mem.ctx s.host.peerCtx with | some c => c.state == 1 | none => false
  if !s.host.peerEn || !active || s.host.xsize * 2 ^ 30 < off + n then (s, .error 0x0022)
  else match s.placeBytes k s.host.peerCtx a (s.host.peerBase * 2 ^ 30 + off) n with
    | (s, .ok l) => (s, .ok l)
    | (s, .error (cause, _)) => (s, .error (if cause = 0x09 then 0x0020 else if cause = 0x0A then 0x0021 else 0x0022))

/-- The aperture of this package, when a range names its own rank (R396, R397), or the code of a refusal: while every port is down no
aperture is reached. -/
def State.ownAperture (s : State) (r : Range) (a : Access) : State × Except Nat Range :=
  match r with
  | .peer pkg off n =>
    if s.host.ports = 0 then (s, .error 0x0022)
    else if pkg ≠ s.host.rank then (s, .ok r)
    else match s.aperture s.core.kid off n a with
      | (s, .ok l) => (s, .ok (Range.of l))
      | (s, .error code) => (s, .error code)
  | _ => (s, .ok r)

/-- The range that a load or an atomic of a sequencer reads: of one that its target refuses no value is stated, and a free
value comes as from another package (R307, R397; log 15). -/
def State.peerRange (s : State) (r : Range) (a : Access) : State × Range :=
  match s.ownAperture r a with
  | (s, .ok r') => (s, r')
  | (s, .error _) => (s, r)

/-- Check a generic access of the core in view: a fault traps with its cause and the first byte at fault (R210). Where its page walk finds a
sector of its own context lost, it raises none (R449). -/
def State.check (s : State) (p : Word) (n : Nat) (a : Access) : SRes (State × Range) :=
  match s.resolve s.core.kid s.core.ctx p n a with
  | (s, .error (cause, q)) =>
    if s.ownLoss s.core.ctx then .error (.stall 256 false, some s.mem) else .error (.trap cause (BitVec.ofNat 64 q), some s.mem)
  | (s, .ok r) => .ok (s, r)

/-! ## The operations -/

/-- Locations of a range for the races of its memory; none of another package. -/
def Range.locs : Range → List (Nat × Nat)
  | .pool _ off n => poolLocs off n
  | .mem ts => ts.map fun t => (t.kind, t.addr)
  | .peer .. => []

/-- The races that accesses to a range may take part in. -/
def State.racesOf (s : State) : Range → List Race
  | .pool k _ _ => (s.coreAt k).races
  | .mem _ => s.mem.races
  | .peer .. => []

/-- Read a range for the sequencer of the core in view (R300). -/
def State.loadRange (s : State) (r : Range) : State × List Byte × Met :=
  let (t, bs, met) := s.readRange r
  (t, if (s.racesOf r).isEmpty then bs else s.core.sees (s.racesOf r) (r.locs.zip bs), met)

/-- Write a range for the sequencer of the core in view (R300). -/
def State.storeRange (s : State) (ptr : Word) (r : Range) (bs : List Byte) : State × Met :=
  let c := s.core
  let rs := s.racesOf r
  if rs.isEmpty then s.writeRange c.kid c.ctx ptr r bs
  else
    let held := (s.readRange r).2.1
    let keep := c.leaves rs (r.locs.zip (held.zip bs))
    let rs := rs.map (c.raceStored (r.locs.zip bs))
    let (s, met) := s.writeRange c.kid c.ctx ptr r keep
    (match r with
      | .pool k _ _ => s.modCore k fun d => { d with races := rs }
      | _ => { s with mem := { s.mem with races := rs } }, met)

def issueLdg (o : Op) (s : State) : SRes State := do
  let (c, x) ← liftRes (s.core.sources (.ldg o))
  let p := x.a.toWord
  let n := widthBytes x.b.toWord.toNat
  let (s, r) ← ({ s with core := c } : State).check p n .read
  s.credit r false
  let (s, r') := s.peerRange r .read
  let (s, bs, met) := s.loadRange r'
  let s ← s.judge p met
  .ok { s with core := (s.core.holdCredit r).issueResult (.ldg o) (.word (extendLoad o.mod n (leValue bs))) }

/-- A store that meets poison merges under it and traps nothing (R461). -/
def State.storeMet (s : State) (ptr : Word) (met : Met) : SRes State :=
  let c := s.core
  if s.ownLoss c.ctx then .error (.stall 256 false, some s.mem)
  else match met with
    | .ok => .ok s
    | .wait => .error (.stall 256 false, none)
    | .pool info => .error (.trap 0x0C (faultPointer ptr info), none)
    | .sense k off n w => .error (.sense k off n w, some s.mem)
    | .dev .poison _ => .ok { s with mem := s.mem.consumed c.kid c.ctx 0x0C ptr }
    | .dev _ _ => .ok s

/-- Post a store to another package (R306). -/
def Core.postPeer (c : Core) (pkg : Nat) (ptr : Word) (bs : List Byte) : Core :=
  { c with peerStores := c.peerStores ++ [⟨c.nextId, c.ctx, pkg, ptr, bs⟩], nextId := c.nextId + 1 }

def issueStg (o : Op) (s : State) : SRes State := do
  let (c, x) ← liftRes (s.core.sources (.stg o))
  liftRes c.outsideRegion
  let p := x.a.toWord
  let n := widthBytes x.c.toWord.toNat
  let bs := leBytes n x.b.toWord.toNat
  let (s, r) ← ({ s with core := c } : State).check p n .write
  s.credit r false
  match r with
  | .peer pkg _ _ => .ok { s with core := s.core.postPeer pkg p bs }
  | r =>
    let (s, met) := s.storeRange p r bs
    s.storeMet p met

/-- The old value of a generic atomic is outstanding; within a bundle it is held until the bundle retires (R281). -/
def Core.issueAtomic (c : Core) (i : Instr) (x : Val) : Core :=
  match i.info with
  | some (r, o) => c.issueVar r.slot.num (portDest o.dst) (if c.cur.isSome then .held x else .value x)
  | none => c

/-- An atomic on n bytes: `f` gives the new value from the old one, or none where nothing is written (R207, R209). -/
def State.atomic (s : State) (i : Instr) (p : Word) (n : Nat) (f : Nat → Option Nat) : SRes State := do
  if p.toNat % n ≠ 0 then .error (.trap 0x0B p, none)
  else
    let (s, r) ← s.check p n .atomic
    s.credit r true
    let (s, r') := s.peerRange r .atomic
    let (s, bs, met) := s.loadRange r'
    let s ← s.judge p met
    let old := leValue bs
    let done (s : State) : SRes State := .ok { s with core := (s.core.holdCredit r).issueAtomic i (.word (BitVec.ofNat 64 old)) }
    match f old with
    | none => done s
    | some v => done (s.storeRange p r' (leBytes n v)).1

def issueAtomg (o : Op) (s : State) : SRes State := do
  let (c, x) ← liftRes (s.core.sources (.atomg o))
  liftRes c.outsideRegion
  let n := atomBytes o.mod
  State.atomic { s with core := c } (.atomg o) x.a.toWord n fun old =>
    some (atomicNew x.c.toWord.toNat n old (x.b.toWord.toNat % 2 ^ (8 * n)))

def issueCasg (o : Op) (s : State) : SRes State := do
  let (c, x) ← liftRes (s.core.sources (.casg o))
  liftRes c.outsideRegion
  let n := atomBytes o.mod
  State.atomic { s with core := c } (.casg o) x.a.toWord n fun old =>
    if old = x.b.toWord.toNat % 2 ^ (8 * n) then some (x.c.toWord.toNat % 2 ^ (8 * n)) else none

/-! ## Engine accesses (R248) -/

/-- The completion code of a fault's cause. -/
def codeOf (cause : Nat) : Nat := if cause = 0x09 then 0x0020 else if cause = 0x0A then 0x0021 else 0x0022

/-- No completion code: the access waits, because a group of a pool is being rebuilt (R196). -/
def heldCode : Nat := 2 ^ 16

def Met.code : Met → Nat
  | .ok => 0
  | .pool _ | .sense .. => 0x0012
  | .wait => heldCode
  | .dev .fresh _ => 0x0010
  | .dev _ _ => 0x0011

/-- An access of an engine detects the errors of the pool sectors it reads (R191): the sectors this poisoned. -/
def State.detectRange (s : State) (r : Range) (write : Bool) : State × List Nat :=
  match r with
  | .pool k off n =>
    let (c, found) := (s.coreAt k).detect off n write
    (if (s.coreAt k).latent.isEmpty then s else s.setCore c, found)
  | _ => (s, [])

/-- Poison that a command of core k consumed is recorded (R409, R415), but for what its own access has just recorded. -/
def State.engineMet (s : State) (k ctx : Nat) (ptr : Word) (met : Met) (found : List Nat) : State :=
  match met with
  | .dev .poison _ | .dev .lost _ => if s.ownLoss ctx then s else { s with mem := s.mem.consumed k ctx 0x0011 ptr }
  | .pool info =>
    if found.contains (bits info.toNat 19 0 / 32) then s
    else { s with mem := s.mem.consumed k ctx 0x0012 (info &&& (BitVec.ofNat 64 (2 ^ 63 - 1))) }
  | _ => s

/-- An engine read of n bytes for a command of core k: the bytes or the completion code. -/
def State.engRead (s : State) (k ctx : Nat) (p : Word) (n : Nat) : State × Except Nat (List Byte) :=
  match s.resolve k ctx p n .read with
  | (s, .error (cause, _)) => (s, .error (codeOf cause))
  | (s, .ok r) => match s.ownAperture r .read with
    | (s, .error code) => (s, .error code)
    | (s, .ok r) =>
      let (s, found) := s.detectRange r false
      let (s, bs, met) := s.readRange r
      if met = .ok then (s, .ok bs) else (s.engineMet k ctx p met found, .error met.code)

/-- The rank and offset of a range in another package are written by the traffic of R306: the model performs an engine's
store there only when the rank is its own (log 15). -/
def State.engWrite (s : State) (k ctx : Nat) (p : Word) (bs : List Byte) : State × Nat :=
  match s.resolve k ctx p bs.length .write with
  | (s, .error (cause, _)) => (s, codeOf cause)
  | (s, .ok r) => match s.ownAperture r .write with
    | (s, .error code) => (s, code)
    | (s, .ok r) =>
      let (s, found) := s.detectRange r true
      match s.writeRange k ctx p r bs with
      | (s, .pool info) => (s.engineMet k ctx p (.pool info) found, 0x0012)
      | (s, .wait) => (s, heldCode)
      | (s, .dev .lost _) => (s, 0)
      | (s, met) => (s.engineMet k ctx p met found, 0)

/-! ## Pools that engines serve (R191) -/

/-- The pool that a pointer of core k names, if it names one. -/
def ptrPools (k : Nat) (p : Nat) : List Nat :=
  match bits p 63 60 with
  | 1 => [k]
  | 2 => [k / 16 * 16 + bits p 51 48]
  | _ => []

/-- Is one of these pools frozen, so that a channel that transfers into or out of it stops (R191)? -/
def State.anyFrozen (s : State) (ks : List Nat) : Bool := ks.any fun k => (s.coreAt k).freeze != 0

/-! ## Fences (R112, R302) -/

/-- What a sequencer has written, or acquired, is released at system scope (R302 to R304; log 81). -/
def State.systemRelease (s : State) : State := { s with mem := s.mem.release }

end Sys2Proof.Machine
end

