-- ==== Sys2Proof/Machine/Work.lean ====
section
/-! DEFINITION. What launches, tiles, tags and weight handles share: records and their fields (R320, R323, R361), completion
words (R247), the handoff table (R337 to R343), handles and the bullpen's entries (R346 to R353), tile states (R327,
R330). -/
namespace Sys2Proof.Machine

/-! ## Records -/

/-- A little-endian field of a record: n bytes at an offset. -/
def field (b : List Byte) (off n : Nat) : Nat := leValue ((b.drop off).take n)

/-- A level of an iteration space (R320). -/
structure LevelSpec where
  n : Nat
  dom : Nat
  scope : Nat
  grain : Nat
  deriving DecidableEq, Repr

/-- What the scheduler needs of a launch or of a GGEMM command: levels, tile level, whether there is a tile-coordinate
function, gang level, AUTO, priority pair, context, depth. -/
structure Spec where
  levels : List LevelSpec
  tlev : Nat
  tcfe : Bool
  gang : Nat
  auto : Bool
  sub : Nat
  prio : Nat
  ctx : Nat
  depth : Nat
  deriving DecidableEq, Repr

def recCtl (b : List Byte) : Nat := field b 0x18 8
def recLevels (b : List Byte) : Nat := bits (recCtl b) 2 0 + 1

def levelSpec (w : Nat) : LevelSpec := ⟨bits w 31 0, bits w 34 32, bits w 38 36, max 1 (bits w 63 40)⟩

def recLevel (b : List Byte) (k : Nat) : LevelSpec := levelSpec (field b (0x40 + 8 * k) 8)

def Launch.spec (l : Launch) : Spec :=
  let c := recCtl l.bytes
  { levels := (List.range (recLevels l.bytes)).map (recLevel l.bytes), tlev := bits c 6 4, tcfe := c.testBit 3
    gang := bits c 11 8, auto := c.testBit 7, sub := l.sub, prio := bits c 22 20, ctx := l.ctx, depth := l.depth }

/-- A GGEMM tile is one range task of one iteration, on the cluster of its coordinates (R361). -/
def Ggemm.spec (g : Ggemm) : Spec :=
  { levels := [⟨1, 1, 1, 1⟩], tlev := 0, tcfe := true, gang := 8, auto := false, sub := g.sub, prio := g.prio, ctx := g.ctx
    depth := g.depth }

def State.launch? (s : State) (l : Nat) : Option Launch := s.launch.launches.find? fun x => x.id == l
def State.ggemm? (s : State) (l : Nat) : Option Ggemm := s.launch.ggemms.find? fun x => x.id == l

def State.spec? (s : State) (l : Nat) : Option Spec :=
  match s.launch? l with
  | some x => some x.spec
  | none => (s.ggemm? l).map Ggemm.spec

def Spec.level (p : Spec) (k : Nat) : LevelSpec := p.levels.getD k ⟨1, 3, 3, 1⟩
def Spec.depthOf (p : Spec) : Nat := p.levels.length

/-- Priority of two pairs (R333): is the first strictly higher? -/
def higher (a b : Nat × Nat) : Bool := b.1 < a.1 || (a.1 == b.1 && b.2 < a.2)

def Spec.pair (p : Spec) : Nat × Nat := (p.sub, p.prio)

/-- The priority of a launch's work. -/
def State.prioOf (s : State) (l : Nat) : Nat × Nat := ((s.spec? l).map Spec.pair).getD (0, 0)

/-- A sum of a base and signed 16-bit coefficients times coordinates, modulo 2^w (R323). -/
def linear (w base : Nat) (b : List Byte) (off : Nat) (c : List Nat) : Nat :=
  let t (d : Nat) : Int := sextN 16 (field b (off + 2 * d) 2) * (c.getD d 0 : Int)
  wrap w ((base : Int) + t 0 + t 1 + t 2)

/-- The coordinates of a tile (R323). -/
def Launch.coords (l : Launch) (path : List Nat) : List Nat :=
  let p := l.spec
  if !p.tcfe then [0, 0, 0]
  else [0, 1, 2].map fun d =>
    let o := 0x80 + 16 * d
    let t (k : Nat) : Int := sextN 8 (field l.bytes (o + 4 + k) 1) * (path.getD k 0 : Int)
    wrap 32 ((field l.bytes o 4 : Nat) + ((List.range (p.tlev + 1)).map t).foldl (· + ·) 0)

/-- The tag word of a stream, tensor and tile (R261). -/
def tagWord (stream tensor tile : Nat) : Word := BitVec.ofNat 64 (2 ^ 48 * stream + 2 ^ 32 * tensor + tile)

/-- Inputs of a tile: tags with their generations (R323). -/
def Launch.inputs (l : Launch) (c : List Nat) : List (Word × Nat) :=
  (List.range (bits (recCtl l.bytes) 15 12)).map fun j =>
    let o := 0xC0 + 16 * j
    (tagWord (field l.bytes o 2) (field l.bytes (o + 2) 2) (linear 32 (field l.bytes (o + 4) 4) l.bytes (o + 8) c),
     field l.bytes (o + 14) 2)

/-- Handles of a tile (R323). -/
def Launch.handles (l : Launch) (c : List Nat) : List Nat :=
  (List.range (bits (recCtl l.bytes) 19 16)).map fun j =>
    linear 14 (field l.bytes (0x140 + 8 * j) 2) l.bytes (0x142 + 8 * j) c

/-- The output tag of a tile and its generation (R323). -/
def Launch.output (l : Launch) (c : List Nat) : Word × Nat :=
  let out := field l.bytes 0x28 8
  (tagWord (bits out 63 48) (bits out 47 32) (linear 32 (field l.bytes 0x30 4) l.bytes 0x34 c), bits out 15 0)

def State.tileInputs (s : State) (t : TileTask) : List (Word × Nat) :=
  match s.launch? t.launch with
  | some l => l.inputs t.coord
  | none => []

def State.tileHandles (s : State) (t : TileTask) : List Nat :=
  match s.launch? t.launch with
  | some l => l.handles t.coord
  | none => match s.ggemm? t.launch with
    | some g => match g.recs[t.path.getD 0 0]? with
      | some r => [bits (field r.bytes 2 2) 13 0]
      | none => []
    | none => []

/-- The kernel record that a task of a tile runs. -/
def State.kernelOf (s : State) (launch : Nat) (path : List Nat) : Word × List Byte :=
  match s.launch? launch with
  | some l => (BitVec.ofNat 64 (field l.bytes 0 8), l.kernel)
  | none => match s.ggemm? launch with
    | some g => match g.recs[path.getD 0 0]? with
      | some r => (BitVec.ofNat 64 (field r.bytes 0x18 8), r.kernel)
      | none => (0, [])
    | none => (0, [])

/-- FLAGS.STRICT of a kernel record (R57). -/
def kernelStrict (b : List Byte) : Bool := (field b 6 2).testBit 1

/-! ## Completion words (R247) -/

def wordOf (code detail seq : Nat) : Nat := 2 ^ 48 * code + 2 ^ 32 * (detail % 2 ^ 16) + seq % 2 ^ 32

/-- Does a completion word wait: its pool is frozen, or its group is being rebuilt (R191, R196)? -/
def State.wordWaits (s : State) (k : Nat) (ptr : Word) : Bool :=
  ptr != 0 && (s.anyFrozen (ptrPools k ptr.toNat) ||
    (ptrPools k ptr.toNat).any fun j => (s.coreAt j).holds (bits ptr.toNat 19 0) 8)

/-- Write a completion word for core k in a context, once it does not wait. A word that cannot be written because of a translation,
protection or uncorrectable fault is not written and is recorded; one in host memory is a release at system scope (R247,
R299). -/
def State.writeWord (s : State) (k ctx : Nat) (ptr : Word) (code detail seq : Nat) : State :=
  if ptr = 0 then s
  else
    let fail (s : State) : State :=
      { s with mem := { s.mem with recs := s.mem.recs ++ [⟨0, k, 0x0052, 0, some ctx, code, ptr, 0, 0, 0, 0⟩] } }
    let (s, sound, host) : State × Bool × Bool := match s.resolve k ctx ptr 8 .write with
      | (s, .ok (.mem ts)) =>
        let (m, b) := lookPieces s.mem (pieces ts)
        ({ s with mem := m }, b == .ok, (Range.mem ts).host)
      | (s, _) => (s, true, false)
    if !sound then fail s
    else
      let s := if host then s.systemRelease else s
      let (s', e) := s.engWrite k ctx ptr (leBytes 8 (wordOf code detail seq))
      if e = 0 then s' else fail s'

/-! ## Markers in the engine queues (R268, R352, R374) -/

/-- The copy commands, which have channels (R255). -/
def CmdKind.onChannel : CmdKind → Bool
  | .cpy | .cpyr | .gath | .scat => true
  | _ => false

/-- The commands that a save squashes or leaves queued, and that do not start while it runs (R250, R384). -/
def Cmd.stays (x : Cmd) : Bool := x.kind.onChannel || x.kind == .coll

/-- Does a command stay in its queue while a save runs, to be issued again at the restore (R250, R384)? -/
def Core.putOff (c : Core) (x : Cmd) : Bool := c.run == .saving && x.stays && x.phase == .queued

/-- The commands of a context in the engine queues, but for invalidations and for what a save has squashed, by core and number. -/
def State.queued (s : State) (ctx : Nat) : List (Nat × Nat) :=
  (s.cores.filter fun c => c.runs ctx).flatMap fun c =>
    (c.cmds.filter fun x => x.kind != .invl && x.kind != .invlAll && x.phase != .held && !c.putOff x &&
      (match x.phase with | .cancelled .. => false | _ => true)).map fun x => (c.kid, x.id)

/-- Markers are placed behind the commands of a context for which `ahead` holds; `renew` makes the new mapping. -/
def State.placeMarkers (s : State) (m : Marker) (ctx : Nat) (aper : List Aper) (ahead : Nat × Nat → Bool) (renew : MemState → MemState) : State :=
  let v : View := ⟨m, ctx, s.mem.tlb.filter (·.ctx == ctx), s.mem.renewals.filter (·.ctx == ctx), aper, (s.queued ctx).filter ahead⟩
  let new := renew s.mem
  { s with mem := { new with views := new.views ++ [v] } }

/-- Have the markers that something placed all been passed? -/
def State.passed (s : State) (m : Marker) : Bool := s.mem.views.all fun v => v.by' != m || v.ahead.isEmpty

/-- The markers that something placed are gone. -/
def State.dropMarkers (s : State) (m : Marker) : State := { s with mem := { s.mem with views := s.mem.views.filter fun v => v.by' != m } }

/-- A command of core k passes every marker behind it; an eviction whose markers are passed is over (R352). -/
def State.passMarkers (s : State) (k id : Nat) : State :=
  if s.mem.views.isEmpty then s
  else
    let vs := s.mem.views.map fun (v : View) => { v with ahead := v.ahead.filter (· != (k, id)) }
    { s with mem := { s.mem with views := vs.filter fun v => v.by' != .evict || !v.ahead.isEmpty } }

/-- The memory as a command ahead of markers sees it: with the old mapping. -/
def MemState.asBefore (m : MemState) (v : View) : MemState :=
  { m with
    tlb := v.tlb ++ m.tlb.filter (·.ctx != v.ctx), renewals := v.renewals ++ m.renewals.filter (·.ctx != v.ctx)
    aper := v.aper ++ m.aper.filter fun a => !v.aper.any fun b => b.handle == a.handle }

/-- What a command of core k does, translated with the mapping that its markers give it: that which stood before the first that it is
ahead of, with every aperture that one of them has unmapped since, else the one in force (R268, R352). -/
def State.under {α : Type} (s : State) (k id : Nat) (f : State → State × α) : State × α :=
  match s.mem.views.filter fun v => v.ahead.contains (k, id) with
  | [] => f s
  | v :: rest =>
    let first : View := { v with aper := rest.foldl (fun l (w : View) => l ++ w.aper.filter fun a => !l.any fun b => b.handle == a.handle) v.aper }
    let (t, r) := f { s with mem := s.mem.asBefore first }
    let old : View := { v with tlb := t.mem.tlb.filter (·.ctx == v.ctx), renewals := t.mem.renewals.filter (·.ctx == v.ctx) }
    let now : MemState := { t.mem with
      tlb := s.mem.tlb.filter (·.ctx == v.ctx) ++ t.mem.tlb.filter (·.ctx != v.ctx)
      renewals := s.mem.renewals.filter (·.ctx == v.ctx) ++ t.mem.renewals.filter (·.ctx != v.ctx)
      aper := s.mem.aper
      views := t.mem.views.map fun w => if w == v then old else w }
    ({ t with mem := now }, r)

/-- The same for what has no result besides the state. -/
def State.underOf (s : State) (k id : Nat) (f : State → State) : State := (s.under k id fun s => (f s, ())).1

/-! ## The handoff table (R337 to R341) -/

/-- The home die of a tag (R337). -/
def homeDie (t : Word) : Nat :=
  ((bits t.toNat 63 48) ^^^ (bits t.toNat 47 32) ^^^ (bits t.toNat 15 0) ^^^ (bits t.toNat 31 16)) % 8

/-- Generation a is newer than b (R338). -/
def newer (a b : Nat) : Bool := let d := (a + 2 ^ 16 - b % 2 ^ 16) % 2 ^ 16; 1 ≤ d && d ≤ 0x7FFF

def State.tag? (s : State) (ctx : Nat) (t : Word) : Option Tag := s.launch.tags.find? fun x => x.ctx == ctx && x.name == t

def LaunchState.dieUse (l : LaunchState) (d : Nat) : Nat := (l.tags.filter fun x => x.ovf.isNone && homeDie x.name == d).length

/-- The image of an overflow entry (R341). -/
def Tag.image (t : Tag) : List Byte := leBytes 8 t.name.toNat ++ leBytes 2 t.gen ++ leBytes 1 t.state ++ leBytes 5 0

/-- An access to entry i of an overflow list, which answers its code; a fault ends the context (R341). -/
def State.onOverflow (s : State) (ctx i : Nat) (f : State → Word → State × Nat) : State :=
  match s.mem.ctx ctx with
  | none => s
  | some c =>
    if s.mem.doomed.any fun d => d.ctx == ctx then s else
    let a := BitVec.ofNat 64 (c.ovfbase + 16 * i)
    let (s', e) := f s a
    if e = 0 then s'
    else { s' with mem := { s'.mem with
      recs := s'.mem.recs ++ [⟨7, 0, 0x0053, 0, some ctx, 1, a, 0, 0, 0, 0⟩]
      doomed := s'.mem.doomed ++ [⟨ctx, 0x0053, none⟩] } }

def State.writeOverflow (s : State) (ctx i : Nat) (bs : List Byte) : State := s.onOverflow ctx i fun s a => s.engWrite 0 ctx a bs

def State.readOverflow (s : State) (ctx i : Nat) : State :=
  s.onOverflow ctx i fun s a => match s.engRead 0 ctx a 16 with
    | (s, .ok _) => (s, 0)
    | (s, .error e) => (s, e)

/-- A tag is looked up on its home die, then in the list, whose entry is then read (R341; log 86). -/
def State.lookTag (s : State) (ctx : Nat) (t : Word) : State :=
  match (s.tag? ctx t).bind (·.ovf) with
  | some i => s.readOverflow ctx i
  | none => s

/-- The lowest free entry of a context's overflow list. -/
def State.freeOverflow (s : State) (ctx : Nat) : Option Nat :=
  let cap := match s.mem.ctx ctx with | some c => c.ovfcap | none => 0
  let used := s.launch.tags.filterMap fun x => if x.ctx == ctx then x.ovf else none
  ((List.range (min cap (used.length + 1))).filter fun i => !used.contains i).head?

/-- Replace the entry of a tag. -/
def LaunchState.setTag (l : LaunchState) (t : Tag) : LaunchState :=
  { l with tags := l.tags.map fun (x : Tag) => if x.ctx == t.ctx && x.name == t.name then t else x }

/-- Put a tag into the table where it stands, on its die, or in the overflow list; none when both are full (R339). -/
def State.placeTag (s : State) (t : Tag) : Option State :=
  match s.tag? t.ctx t.name with
  | some old =>
    let t := { t with ovf := old.ovf }
    let s := { s with launch := s.launch.setTag t }
    some (match t.ovf with
      | some i => s.writeOverflow t.ctx i t.image
      | none => s)
  | none =>
    if s.launch.dieUse (homeDie t.name) < 8192 then
      some { s with launch := { s.launch with tags := s.launch.tags ++ [t] } }
    else match s.freeOverflow t.ctx with
      | none => none
      | some i =>
        let pair := (t.ctx, bits t.name.toNat 63 32)
        let s := { s with launch := { s.launch with
          tags := s.launch.tags ++ [{ t with ovf := some i }]
          overflowed := if s.launch.overflowed.contains pair then s.launch.overflowed else pair :: s.launch.overflowed } }
        some (s.writeOverflow t.ctx i t.image)

/-- Overflowed tags of a die move into its free entries (R340). `n` bounds the moves. -/
def State.moveTags (s : State) (d : Nat) : Nat → State
  | 0 => s
  | n + 1 =>
    if 8192 ≤ s.launch.dieUse d then s
    else match s.launch.tags.find? fun x => x.ovf.isSome && homeDie x.name == d with
      | none => s
      | some t =>
        let s' := { s with launch := s.launch.setTag { t with ovf := none } }
        (match t.ovf with
          | some i => (s'.readOverflow t.ctx i).writeOverflow t.ctx i (List.replicate 16 0)
          | none => s').moveTags d n

/-- Remove tags: their overflow entries become free, and overflowed tags may move in (R340). -/
def State.dropTags (s : State) (p : Tag → Bool) : State :=
  let gone := s.launch.tags.filter p
  let s := { s with launch := { s.launch with tags := s.launch.tags.filter fun x => !p x } }
  let s := gone.foldl (fun s t => match t.ovf with
    | some i => s.writeOverflow t.ctx i (List.replicate 16 0)
    | none => s) s
  let moved := (s.launch.tags.filter fun x => x.ovf.isSome).length
  if moved = 0 then s else [0, 1, 2, 3, 4, 5, 6, 7].foldl (fun s d => s.moveTags d moved) s

/-- How the audit stands for a set of regions (R423): decided well, decided badly with a DETAIL, or not yet. -/
def State.verdict (s : State) (regions : List Nat) : Option (Option Nat) :=
  if s.rel.logs.any fun e => !e.done && regions.contains e.num then none
  else match s.rel.verdicts.find? fun v => regions.contains v.1 with
    | some v => some (some v.2)
    | none => some none

/-- What became of a publication (R339). -/
inductive PubResult where
  | done (code detail : Nat)
  | held
  | waits
  deriving DecidableEq, Repr

/-- A publication takes effect on its tag (R339). -/
def State.applyPub (s : State) (p : Pub) : State × PubResult :=
  let s := s.lookTag p.ctx p.name
  let set (_ : Unit) : State × PubResult :=
    let (st, detail, deciders) : Nat × Nat × List Nat := match p.poison with
      | some d => (3, d, [])
      | none => if !p.strict then (1, 0, []) else match s.verdict p.deciders with
        | none => (2, 0, p.deciders)
        | some none => (1, 0, [])
        | some (some d) => (3, d, [])
    match s.placeTag ⟨p.ctx, p.name, p.gen, st, detail, none, deciders⟩ with
    | none => (s, .waits)
    | some s' => (s', if st = 2 then .held else if st = 3 && p.poison.isNone then .done 0x0051 detail else .done 0 0)
  match s.tag? p.ctx p.name with
  | none => set ()
  | some t =>
    if newer p.gen t.gen then set ()
    else if t.gen = p.gen then
      (match t.state with
        | 1 => (s, .done 0 0)
        | 2 => (s, .held)
        | _ => (s, .done 0x0051 t.detail))
    else (s, .done 0x0050 t.gen)

/-- A new publication; `commits` is how many regions its task had committed before it (R423). -/
def State.addPub (s : State) (via : Publisher) (ctx : Nat) (name : Word) (gen : Nat) (poison : Option Nat) (strict : Bool)
    (deciders : List Nat) (commits : Nat) : State :=
  { s with launch := { s.launch with
      pubs := s.launch.pubs ++ [⟨s.launch.nextId, via, ctx, name, gen, poison, strict, deciders, commits, false⟩]
      nextId := s.launch.nextId + 1 } }

/-! ## Handles (R345 to R353) -/

def Handle.idle (h : Nat) : Handle := ⟨h, 0, 0, none, 0, [], false, 0, 0, 0, 0, [], []⟩

def State.handle (s : State) (h : Nat) : Handle :=
  match s.expert.handles.find? fun x => x.num == h with
  | some x => x
  | none => Handle.idle h

def State.setHandle (s : State) (x : Handle) : State :=
  { s with expert := { s.expert with handles := x :: s.expert.handles.filter fun y => y.num != x.num } }

def Ctx.owns (c : Ctx) (h : Nat) : Bool := c.hlo ≤ h && h < c.hlo + c.hcnt

/-- The context whose range holds a handle. -/
def State.handleCtx (s : State) (h : Nat) : Option Ctx := s.mem.ctxs.find? fun c => c.owns h

/-- A handle leaves staged: its frames are freed and its aperture unmapped (R351, R352); what the LLC holds of the frames is
dropped. -/
def State.unstage (s : State) (x : Handle) (st code : Nat) : State :=
  let s := s.setHandle { x with state := st, code := code, released := false, frames := [] }
  { s with mem := { s.mem with
      aper := s.mem.aper.filter fun a => a.handle != x.num
      llc := s.mem.llc.filter fun y => !(y.kind == 0 && x.frames.contains (32 * y.num / 65536)) } }

/-- A released handle whose pin count is zero becomes idle (R348). -/
def State.dropReleased (s : State) (h : Nat) : State :=
  let x := s.handle h
  if x.state = 3 && x.released && x.pins.isEmpty then s.unstage x 0 0 else s

/-- A tile unpins what it pinned (R353). -/
def State.unpin (s : State) (t : Nat) (hs : List Nat) : State :=
  hs.foldl (fun s h =>
    let x := s.handle h
    (s.setHandle { x with pins := x.pins.erase t }).dropReleased h) s

def State.pin (s : State) (t : Nat) (hs : List Nat) : State :=
  hs.foldl (fun s h => let x := s.handle h; s.setHandle { x with pins := t :: x.pins }) s

/-- The directory entry of an expert (R346): source and length, or the completion code of its failure. -/
def State.directory (s : State) (c : Ctx) (x : Nat) : State × Except Nat (Nat × Nat) :=
  match s.engRead 0 c.num (BitVec.ofNat 64 (c.edir + 16 * x)) 16 with
  | (s, .error e) => (s, .error e)
  | (s, .ok b) =>
    let src := field b 0 8
    let len := field b 8 4
    if field b 12 4 ≠ 0 || src % 65536 ≠ 0 || 2 ^ 48 ≤ src || len = 0 || c.hstride / 65536 < len then (s, .error 0x0031)
    else (s, .ok (src, len))

/-- Add a bullpen entry for a handle, which becomes queued (R347, R349, R353). -/
def State.enqueue (s : State) (x : Handle) (deadline : Option Nat) (prio : Nat) : State :=
  let s := s.setHandle { x with state := 1, code := 0 }
  { s with expert := { s.expert with
      entries := s.expert.entries ++ [⟨x.num, deadline, prio, s.expert.order, false, false, false⟩], order := s.expert.order + 1 } }

/-- Remove a handle's entry; its deadline, if it has passed, has been counted first (R350). -/
def State.dequeue (s : State) (h : Nat) : State :=
  let x := s.expert.countMisses s.host.clock
  { s with expert := { x with entries := x.entries.filter fun e => e.handle != h } }

/-! ## Tiles (R327, R330, R342, R353) -/

def State.tile? (s : State) (t : Nat) : Option TileTask := s.launch.tiles.find? fun x => x.id == t

def State.setTile (s : State) (t : TileTask) : State :=
  { s with launch := { s.launch with tiles := s.launch.tiles.map fun x => if x.id == t.id then t else x } }

/-- A failure that a tile reports to its launch (R331). -/
def State.report (s : State) (launch : Nat) (f : TileFail) : State :=
  { s with launch := { s.launch with
      launches := s.launch.launches.map fun l => if l.id == launch then { l with fails := l.fails ++ [f] } else l
      ggemms := s.launch.ggemms.map fun g => if g.id == launch then { g with fails := g.fails ++ [f] } else g } }

/-- A tile ends: it unpins its handles, and with AUTO its output tag is published (R330). `poison` is none when it
completed. -/
def State.endTile (s : State) (t : TileTask) (poison : Option Nat) : State :=
  let s := s.setTile { t with state := if poison.isNone then .done else .failed, pinned := [] }
  let s := s.unpin t.id t.pinned
  match s.launch? t.launch with
  | some l =>
    if l.spec.auto then
      let out := l.output t.coord
      s.addPub (.tile t.id) l.ctx out.1 out.2 poison (kernelStrict l.kernel) t.regions 0
    else s
  | none => s

/-- A tile of a gang fails: its leaves that have not been dispatched never run, and the gang goes on without them (R328, R330). -/
def State.gangWithout (s : State) (t : Nat) (g : Gang) : Gang :=
  let ran (r : Nat) : Bool := (s.launch.tasks.any fun x => x.gang == some g.id && x.rank == r && x.begun) ||
    s.launch.saved.any fun x => x.task.gang == some g.id && x.task.rank == r
  let out := (List.range g.leaves.length).filter fun r =>
    (g.leaves.getD r ⟨[], none⟩).tile == some t && !g.ended.contains r && !ran r
  { g with ended := g.ended ++ out }

/-- A tile fails: none of its tasks that are not dispatched runs (R330). -/
def State.failTile (s : State) (t : TileTask) (code detail : Nat) : State :=
  let s := { s with launch := { s.launch with
    ranges := s.launch.ranges.filter fun r => r.tile != some t.id
    tasks := s.launch.tasks.filter fun x => !(x.tile == some t.id && !x.begun)
    gangs := (s.launch.gangs.map fun (g : Gang) => s.gangWithout t.id g).filter fun g => g.dispatched || g.ended.length < g.leaves.length } }
  (s.report t.launch ⟨code, detail, t.path⟩).endTile t (some 0xFFFF)

/-- Does a tile still have work that is not finished? -/
def State.tileOpen (s : State) (t : Nat) : Bool :=
  (s.launch.ranges.any fun r => r.tile == some t) || (s.launch.tasks.any fun x => x.tile == some t) ||
  (s.launch.saved.any fun x => x.task.tile == some t) ||
  s.launch.gangs.any fun g => (!g.dispatched) && g.leaves.any fun x => x.tile == some t

/-- A running tile without work left has completed (R330). -/
def State.closeTile (s : State) (t : Nat) : State :=
  match s.tile? t with
  | some x => if x.state == .running && !s.tileOpen t then s.endTile x none else s
  | none => s

/-- The judgement of one input (R342, R343). -/
inductive Judged where
  | satisfied | waits
  | fails (code detail : Nat)
  deriving DecidableEq, Repr

/-- Does the launch boundary hold an input of an overflowed pair back (R343)? -/
def State.heldBack (s : State) (t : TileTask) (ctx : Nat) (name : Word) : Bool :=
  s.launch.overflowed.contains (ctx, bits name.toNat 63 32) &&
  s.launch.launches.any fun l => l.ctx == ctx && l.id < t.launch && bits (field l.bytes 0x28 8) 63 32 == bits name.toNat 63 32

def State.judgeInput (s : State) (t : TileTask) (ctx : Nat) (name : Word) (gen : Nat) : Judged :=
  if s.heldBack t ctx name then .waits
  else match s.tag? ctx name with
    | none => .waits
    | some x =>
      if newer x.gen gen then .fails 0x0050 x.gen
      else if x.gen = gen then
        (match x.state with
          | 1 => .satisfied
          | 2 => .waits
          | _ => .fails 0x0051 x.detail)
      else .waits

/-- Judge the inputs of a tile from index j on. -/
def State.judgeInputs (s : State) (t : TileTask) (ctx : Nat) : Nat → List (Word × Nat) → State
  | _, [] => s
  | j, (name, gen) :: rest =>
    match s.tile? t.id with
    | some x =>
      if x.state != .waiting then s
      else if x.inputs.getD j false then s.judgeInputs t ctx (j + 1) rest
      else
        let s := if s.heldBack t ctx name then s else s.lookTag ctx name
        match s.judgeInput t ctx name gen with
        | .satisfied => (s.setTile { x with inputs := x.inputs.set j true }).judgeInputs t ctx (j + 1) rest
        | .waits => s.judgeInputs t ctx (j + 1) rest
        | .fails code detail => s.failTile x code detail
    | none => s

/-- Judge the handles of a tile from index j on (R353): a failure fails the tile, an idle bound handle is demand-fetched. -/
def State.judgeHandles (s : State) (t : TileTask) (c : Ctx) : Nat → List Nat → State
  | _, [] => s
  | j, h :: rest =>
    let x := s.handle h
    if !c.owns h then s.failTile t 0x0031 (0x4140 + 8 * j)
    else match x.state, x.expert with
      | 0, none => s.failTile t 0x0041 h
      | 5, _ => s.failTile t 0x0041 h
      | 4, _ => s.failTile t x.code h
      | 0, some e =>
        if 1024 ≤ s.expert.entries.length then s.judgeHandles t c (j + 1) rest
        else match s.directory c e with
          | (s, .error code) => (s.setHandle { s.handle h with state := 4, code := code }).failTile t code h
          | (s, .ok (src, len)) =>
            let s := s.tick
            (s.enqueue { s.handle h with src := src, len := len } (some s.host.clock) 7).judgeHandles t c (j + 1) rest
      | _, _ => s.judgeHandles t c (j + 1) rest

/-- Judge one waiting tile. -/
def State.judgeTile (s : State) (t : TileTask) : State :=
  match s.spec? t.launch with
  | none => s
  | some p =>
    let s := s.judgeInputs t p.ctx 0 (s.tileInputs t)
    match s.tile? t.id, s.mem.ctx p.ctx with
    | some x, some c => if x.state == .waiting then s.judgeHandles x c 0 (s.tileHandles x) else s
    | _, _ => s

/-- Judge every waiting tile, after a change of the table or of a handle (R342, R353). -/
def State.judgeAll (s : State) : State :=
  (s.launch.tiles.filter fun t => t.state == .waiting).foldl (fun s t => s.judgeTile t) s

/-- Is a tile launchable (R327)? -/
def State.tileReady (s : State) (t : TileTask) : Bool :=
  t.state == .waiting && t.inputs.all id && (s.tileHandles t).all fun h => (s.handle h).state == 3

/-! ## Results that wait for others -/

/-- Change a command of core k. -/
def State.modCmd (s : State) (k id : Nat) (f : Cmd → Cmd) : State :=
  s.modCore k fun c => { c with cmds := c.cmds.map fun x => if x.id == id then f x else x }

def Cmd.finish (code detail : Nat) (x : Cmd) : Cmd := { x with phase := .done code detail }

/-- A list stops (R332, R333). One whose read finds a sector of its own context lost stops as its context ends (R369, R449). -/
def State.stopList (s : State) (j : Nat) (fail : Option Nat) : State :=
  let l := s.launch.lists.toList.getD j ListReg.zero
  if s.ownLoss l.ctx && fail.isSome && fail != some 0x0070 then s
  else
  let l := { l with busy := false, wait := .none, stack := [] }
  let l := match fail with | some code => { l with fail := true, code := code } | none => l
  { s with launch := { s.launch with lists := s.launch.lists.setIfInBounds j l } }.raise j

/-- The outcome of a publication reaches its publisher (R265, R330, R332). -/
def State.finishPub (s : State) (p : Pub) (code detail : Nat) : State :=
  let s := { s with launch := { s.launch with pubs := s.launch.pubs.filter fun x => x.id != p.id } }
  match p.via with
  | .core k id => s.modCmd k id (Cmd.finish code detail)
  | .list j =>
    if code ≠ 0 then s.stopList j (some code)
    else
      let l := s.launch.lists.toList.getD j ListReg.zero
      { s with launch := { s.launch with lists := s.launch.lists.setIfInBounds j { l with wait := .none, pos := l.pos + 1 } } }
  | .tile t =>
    match s.tile? t with
    | some x => if code = 0 then s else s.report x.launch ⟨code, detail, x.path⟩
    | none => s

/-- The audit's decisions reach the held tags, and the publications that they hold, whether or not their tags still stand (R339,
R423). -/
def State.decideTags (s : State) : State :=
  let step (s : State) (t : Tag) : State :=
    match s.verdict t.deciders with
    | none => s
    | some v =>
      let t' := { t with state := if v.isNone then 1 else 3, detail := v.getD 0, deciders := [] }
      (s.placeTag t').getD s
  let complete (s : State) (p : Pub) : State :=
    match s.verdict p.deciders with
    | none => s
    | some v => s.finishPub p (if v.isNone then 0 else 0x0051) (v.getD 0)
  let s := (s.launch.tags.filter fun t => t.state == 2).foldl step s
  ((s.launch.pubs.filter fun p => p.held).foldl complete s).judgeAll

end Sys2Proof.Machine
end

