-- ==== Sys2Proof/Machine/Engine.lean ====
section
/-! DEFINITION. The EC slot at issue (R244 to R246, R253, R261 to R270, R346): the checks in the order of R246, then the
command enters the queue of its engine, or the variable-latency query is made. -/
namespace Sys2Proof.Machine

/-! ## Queues (R244) -/

/-- The engine of a command; each holds 16 commands of a core. -/
def CmdKind.engine : CmdKind → Nat
  | .cpy | .cpyr | .pfl => 0
  | .gath | .scat => 1
  | .coll => 2
  | .expf | .expc => 3
  | .topki => 4
  | .hpub => 5
  | .lnch => 6
  | .ggemm => 7
  | .invl | .invlAll | .flsh => 8

def Cmd.open (x : Cmd) : Bool := match x.phase with | .done .. => false | _ => true

/-- A command enters its queue, or its operation waits for an entry (R244). -/
def Core.queueCmd (c : Core) (kind : CmdKind) (a b cw : Word) (desc : List Byte) : Res Core :=
  if 16 ≤ (c.cmds.filter fun x => x.kind.engine == kind.engine).length then .error (.stall 256 false)
  else .ok { c with
    cmds := c.cmds ++ [⟨c.nextId, kind, a, b, cw, desc, [], [], [], c.prodTok, 0, .held, 0, 0, [], [], [], 0⟩]
    nextId := c.nextId + 1, prodTok := 0 }

/-- The newest command keeps how many they are. -/
def Core.markCommits (c : Core) (n : Nat) : Core :=
  { c with cmds := c.cmds.map fun x => if x.id + 1 = c.nextId then { x with commits := n } else x }

/-! ## Checks (R246) -/

/-- A pointer or offset that is not a multiple of n (order 3). -/
def checkMult (n : Nat) (p : Word) : Res Unit := if p.toNat % n = 0 then .ok () else .error (.trap 0x0B p)

/-- A pointer outside the windows its command allows (order 5). -/
def checkWindow (ws : List Nat) (p : Word) : Res Unit :=
  if ws.contains (bits p.toNat 63 60) then .ok () else .error (.trap 0x08 p)

/-- An operand value outside its limits (order 7). -/
def checkValue (ok : Bool) (v : Word) : Res Unit := if ok then .ok () else .error (.trap 0x04 v)

/-! ## Copy descriptors (R253) -/

/-- The bits of CTL that an opcode uses. -/
def ctlMask (k : CmdKind) (cop : Nat) : Nat :=
  let ch := 0x3
  let stage := 0xFFFFF8
  let rop := 0x7 * 2 ^ 40
  match k with
  | .cpy | .gath => ch + stage
  | .cpyr => ch + rop
  | .scat => ch
  | .coll => 0xFFFFF8 * 2 ^ 40 + (if 2 ≤ cop then rop else 0)
  | _ => 0

/-- The bits of the 8-byte word at offset 8w of a descriptor that an opcode uses. -/
def descMask (k : CmdKind) (cop w : Nat) : Nat :=
  let all := 2 ^ 64 - 1
  if w = 1 || w = 4 || w = 5 then (if k = .pfl then 0 else all)
  else if w < 8 then all
  else if w = 8 then ctlMask k cop
  else if w = 9 && (k = .gath || k = .scat) then 0xFFFFF + (2 ^ 21 - 1) * 2 ^ 32
  else 0

/-- The lowest byte of a descriptor that breaks R253: a bit that must be zero, a zero extent, a reserved ROP, a misaligned STAGE
or index list, a COUNT out of range. -/
def descFault (k : CmdKind) (d : List Byte) : Option Nat :=
  let ctl := field d 0x40 8
  let idx := field d 0x48 8
  let cop := bits ctl 44 43
  let slices := k = .gath || k = .scat
  let byteBad (i : Nat) : Bool :=
    let used := descMask k cop (i / 8) / 2 ^ (8 * (i % 8)) % 256
    field d i 1 &&& (255 - used) != 0
  let fieldBad (i : Nat) : Bool :=
    (0x30 ≤ i && i < 0x40 && i % 4 = 0 && field d i 4 = 0) ||
    (i = 0x40 && (k = .cpy || k = .gath) && bits ctl 23 4 % 32 != 0) ||
    (i = 0x45 && (k = .cpyr || (k = .coll && 2 ≤ cop)) && 3 ≤ bits ctl 42 40) ||
    (i = 0x48 && slices && idx % 4 != 0) ||
    (i = 0x4C && slices && (bits idx 52 32 = 0 || 65536 < bits idx 52 32))
  ((List.range 128).filter fun i => byteBad i || fieldBad i).head?

/-- The descriptor of a copy command, checked in the order of R246. -/
def Core.descriptor (c : Core) (k : CmdKind) (desc cw : Word) : Res (List Byte) := do
  checkMult 64 desc
  checkMult 8 cw
  let off ← c.checkRange desc.toNat 128
  checkWindow [0, 1, 2] cw
  let d := c.scrBytes off 128
  match descFault k d with
  | some i => .error (.trap 0x02 (BitVec.ofNat 64 i))
  | none => do
    c.checkPoison off 128
    .ok d

/-- A copy channel takes up its next command: a halt is cleared and the owed bytes advance the pointer (R255). -/
def Core.clearHalt (c : Core) (ch : Nat) : Core :=
  let k := c.chans.toList.getD ch ⟨0, none, 0⟩
  if k.halt.isNone then c
  else { c with chans := c.chans.setIfInBounds ch ⟨k.ptr + BitVec.ofNat 64 k.owed, none, 0⟩ }

/-- The channel of a copy command. -/
def Cmd.chan (x : Cmd) : Nat := bits (field x.desc 0x40 8) 1 0

/-- CPY, CPYR, GATH, SCAT, PFL and COLL at issue. -/
def issueCopy (i : Instr) (k : CmdKind) (s : State) : SRes State := do
  let (c, x) ← liftRes (s.core.sources i)
  if k ≠ .pfl then liftRes c.outsideRegion
  let cw := if k = .pfl then 0 else x.b.toWord
  let d ← liftRes (c.descriptor k x.a.toWord cw)
  let c ← liftRes (c.queueCmd k x.a.toWord 0 cw d)
  .ok { s with core := c }

def issueCpy (o : Op) : State → SRes State := issueCopy (.cpy o) .cpy
def issueCpyr (o : Op) : State → SRes State := issueCopy (.cpyr o) .cpyr
def issueGath (o : Op) : State → SRes State := issueCopy (.gath o) .gath
def issueScat (o : Op) : State → SRes State := issueCopy (.scat o) .scat
def issuePfl (o : Op) : State → SRes State := issueCopy (.pfl o) .pfl

/-- The task that runs on a core. -/
def State.taskOf (s : State) (k : Nat) : Option Task := s.launch.tasks.find? fun t => t.core == k && t.begun

/-- The selected regions of a strict kernel that the task of a core has committed, in program order (R423): those whose logs are handed over,
and the commits still to act. -/
def State.commitsMade (s : State) (c : Core) : Nat :=
  let due := (c.arr.events.filter fun e => match e.act with | .commit _ (some _) _ => true | _ => false).length + c.audits.length
  ((s.taskOf c.kid).map fun t => t.regions.length).getD 0 + if c.kernel.strict then due else 0

/-- LEVEL of a COLL must name a level of the launch, and one that the task's gang covers, as BAR's must (R113, R260). -/
def issueColl (o : Op) (s : State) : SRes State := do
  let (c, x) ← liftRes (s.core.sources (.coll o))
  liftRes c.outsideRegion
  let d ← liftRes (c.descriptor .coll x.a.toWord x.b.toWord)
  let level := bits (field d 0x40 8) 47 45
  let spec := (s.taskOf c.kid).bind fun t => (s.spec? t.launch).map fun p => (t, p)
  match spec with
  | none => .error (.trap 0x04 (BitVec.ofNat 64 level), none)
  | some (t, p) =>
    if p.depthOf ≤ level then .error (.trap 0x04 (BitVec.ofNat 64 level), none)
    else if t.gang.isNone || level < p.gang then .error (.wordTrap 0x05, none)
    else
      let c ← liftRes (c.queueCmd .coll x.a.toWord 0 x.b.toWord d)
      .ok { s with core := c }

/-! ## Experts and routing (R261 to R264, R346) -/

def issueExpf (o : Op) (s : State) : SRes State := do
  let (c, x) ← liftRes (s.core.sources (.expf o))
  liftRes c.outsideRegion
  let a := x.a.toWord
  let b := x.b.toWord
  let known := match s.mem.ctx c.ctx with
    | some y => y.owns (bits a.toNat 13 0) && bits a.toNat 63 32 < y.nexp
    | none => false
  liftRes (checkValue (bits a.toNat 31 14 = 0 && known) a)
  liftRes (checkValue (bits b.toNat 31 3 = 0) b)
  let c ← liftRes (c.queueCmd .expf a b 0 [])
  .ok { s with core := c }

/-- Does a handle operand name a handle of the running context, with no other bit (R261, R346)? -/
def State.ownHandle (s : State) (ctx : Nat) (a : Word) : Bool :=
  bits a.toNat 63 14 == 0 && match s.mem.ctx ctx with
    | some y => y.owns a.toNat
    | none => false

def issueExpc (o : Op) (s : State) : SRes State := do
  let (c, x) ← liftRes (s.core.sources (.expc o))
  liftRes c.outsideRegion
  liftRes (checkValue (s.ownHandle c.ctx x.a.toWord) x.a.toWord)
  let c ← liftRes (c.queueCmd .expc x.a.toWord 0 0 [])
  .ok { s with core := c }

/-- A query of an engine: variable-latency, and counted as an EC operation (R54, R247). -/
def Core.query (c : Core) (d : Port) (k : VarKind) : Core := { c.issueVar 3 (portDest d) k with ecHeld := c.ecHeld + 1 }

def issueWhq (o : Op) (s : State) : SRes State := do
  let (c, x) ← liftRes (s.core.sources (.whq o))
  liftRes (checkValue (s.ownHandle c.ctx x.a.toWord) x.a.toWord)
  .ok { s with core := c.query o.dst (.whq x.a.toWord.toNat) }

/-- TOPKI (R263): an entry that names no batch entry traps. -/
def issueTopki (o : Op) (s : State) : SRes State := do
  let (c, x) ← liftRes (s.core.sources (.topki o))
  liftRes c.outsideRegion
  let p := x.a.toWord
  let e := x.b.toWord
  let cw := x.c.toWord
  liftRes (checkMult 64 p)
  liftRes (checkMult 8 cw)
  liftRes (checkWindow [0] p)
  liftRes (checkWindow [0, 1, 2] cw)
  let id := bits e.toNat 47 32
  let limit := match s.mem.ctx c.ctx with
    | some y => if y.btbase = 0 then 0xFFFE else min 0xFFFE y.nexp
    | none => 0xFFFE
  liftRes (checkValue (id < limit) e)
  let c ← liftRes (c.queueCmd .topki p e cw [])
  .ok { s with core := c }

def issueGgemm (o : Op) (s : State) : SRes State := do
  let (c, x) ← liftRes (s.core.sources (.ggemm o))
  liftRes c.outsideRegion
  let a := x.a.toWord
  let n := x.b.toWord
  let cw := x.c.toWord
  liftRes (checkMult 64 a)
  liftRes (checkMult 8 cw)
  liftRes (checkWindow [0] a)
  liftRes (checkWindow [0, 1, 2] cw)
  liftRes (checkValue (n != 0 && n.toNat ≤ 4096) n)
  let c ← liftRes (c.queueCmd .ggemm a n cw [])
  .ok { s with core := c }

/-! ## Handoff and launch (R265 to R267) -/

def issueHpub (o : Op) (s : State) : SRes State := do
  let (c, x) ← liftRes (s.core.sources (.hpub o))
  liftRes c.outsideRegion
  let cw := x.c.toWord
  liftRes (checkMult 8 cw)
  liftRes (checkWindow [0, 1, 2] cw)
  liftRes (checkValue (bits x.b.toWord.toNat 63 16 = 0) x.b.toWord)
  let c ← liftRes (c.queueCmd .hpub x.a.toWord x.b.toWord cw [])
  .ok { s with core := c.markCommits (s.commitsMade c) }

def issueHtest (o : Op) (s : State) : SRes State := do
  let (c, x) ← liftRes (s.core.sources (.htest o))
  liftRes (checkValue (bits x.b.toWord.toNat 63 16 = 0) x.b.toWord)
  .ok { s with core := c.query o.dst (.htest x.a.toWord x.b.toWord.toNat) }

/-- The reserve and the size of the pending-launch pool (R334). -/
def State.poolSize (s : State) : Nat := 4096 + s.launch.lpqlen
def State.poolUsed (s : State) : Nat := (s.launch.launches.filter fun l => l.entry).length

/-- Entries promised to children: their LNCH commands that have issued, until they are accepted, so that a child never waits (R336). -/
def State.poolPromised (s : State) : Nat :=
  let child (k : Nat) : Bool := (((s.taskOf k).bind fun t => s.spec? t.launch).map Spec.depth).getD 0 != 0
  let waits (p : CmdPhase) : Bool := match p with | .held | .queued => true | _ => false
  (s.launch.reqs.filter fun r => 2 ≤ r.depth).length +
  ((s.cores.filter fun c => !c.cmds.isEmpty && child c.kid).map fun c => (c.cmds.filter fun x => x.kind == .lnch && waits x.phase).length).foldl (· + ·) 0

/-- Free entries (R334), and those of them that are not promised. -/
def State.poolFree (s : State) : Nat := s.poolSize - s.poolUsed
def State.poolLeft (s : State) : Nat := s.poolFree - s.poolPromised

/-- LNCH: a child task traps when the pool is exhausted, a top-level task waits while only the reserve is free (R246, R267,
R336); an entry is the child's from the issue on. -/
def issueLnch (o : Op) (s : State) : SRes State := do
  let (c, x) ← liftRes (s.core.sources (.lnch o))
  liftRes c.outsideRegion
  let r := x.a.toWord
  let pb := x.b.toWord
  liftRes (checkMult 64 r)
  liftRes (checkMult 64 pb)
  liftRes (checkWindow [0] r)
  liftRes (checkWindow [0] pb)
  let depth := (((s.taskOf c.kid).bind fun t => s.spec? t.launch).map Spec.depth).getD 0
  if depth = 0 then
    (if s.poolLeft ≤ s.launch.lpres then .error (.stall 256 false, none)
     else do
      let c ← liftRes (c.queueCmd .lnch r pb 0 [])
      .ok { s with core := c })
  else if s.poolLeft = 0 then .error (.trap 0x11 r, none)
  else do
    let c ← liftRes (c.queueCmd .lnch r pb 0 [])
    .ok { s with core := c }

/-! ## Upkeep (R268 to R270) -/

def issueInvl (o : Op) (s : State) : SRes State := do
  let (c, x) ← liftRes (s.core.sources (.invl o))
  liftRes c.outsideRegion
  liftRes (checkWindow [0] x.a.toWord)
  let c ← liftRes (c.queueCmd .invl x.a.toWord 0 0 [])
  .ok { s with core := c }

def issueInvlAll (o : Op) (s : State) : SRes State := do
  let (c, _) ← liftRes (s.core.sources (.invlAll o))
  liftRes c.outsideRegion
  let c ← liftRes (c.queueCmd .invlAll 0 0 0 [])
  .ok { s with core := c }

def issueFlsh (o : Op) (s : State) : SRes State := do
  let (c, x) ← liftRes (s.core.sources (.flsh o))
  liftRes c.outsideRegion
  let p := x.b.toWord
  if p ≠ 0 then liftRes (checkWindow [0, 4] p)
  let c ← liftRes (c.queueCmd .flsh x.a.toWord p 0 [])
  .ok { s with core := c }

def issueWptr (o : Op) (s : State) : SRes State := do
  let (c, x) ← liftRes (s.core.sources (.wptr o))
  liftRes (checkValue (x.a.toWord.toNat ≤ 3) x.a.toWord)
  .ok { s with core := c.query o.dst (.wptr x.a.toWord.toNat) }

end Sys2Proof.Machine
end

