-- ==== Sys2Proof/Machine/Barrier.lean ====
section
/-! DEFINITION. BAR and BARA (R113, R328): the barrier of a level instance within a gang. -/
namespace Sys2Proof.Machine

def State.gang? (s : State) (g : Nat) : Option Gang := s.launch.gangs.find? fun x => x.id == g

/-- The ranks under the instance of a level that holds a path (R113, R324). -/
def Gang.members (g : Gang) (level : Nat) (path : List Nat) : List Nat :=
  (List.range g.leaves.length).filter fun r => ((g.leaves.getD r ⟨[], none⟩).path.take level) == path.take level

def Barrier.is (b : Barrier) (g level : Nat) (path : List Nat) : Bool := b.gang == g && b.level == level && b.path == path.take level

def State.barrier (s : State) (g level : Nat) (path : List Nat) : Barrier :=
  match s.launch.barriers.find? fun b => b.is g level path with
  | some b => b
  | none => ⟨g, level, path.take level, 0, []⟩

def State.setBarrier (s : State) (b : Barrier) : State :=
  { s with launch := { s.launch with barriers := b :: s.launch.barriers.filter fun x => !x.is b.gang b.level b.path } }

/-- A phase completes when every participant has arrived or ended (R113). A halted sequencer counts as arrived where a BARA of
its task has arrived, and nowhere else (DESIGN CHOICE, log 80). -/
def Barrier.close (b : Barrier) (g : Gang) : Barrier :=
  let members := g.members b.level b.path
  if members.all fun r => g.ended.contains r || b.arrived.contains (r, b.phase) then { b with phase := b.phase + 1 } else b

/-- Rank r arrives at the current phase. -/
def Barrier.arrive (b : Barrier) (g : Gang) (r : Nat) : Barrier :=
  { b with arrived := (r, b.phase) :: b.arrived.filter fun x => x.1 != r }.close g

/-- The phase rank r last arrived at. -/
def Barrier.last (b : Barrier) (r : Nat) : Option Nat := (b.arrived.find? fun x => x.1 == r).map (·.2)

/-- Phases that the end of a task completes (R113). -/
def State.closeBarriers (s : State) (g : Nat) : State :=
  match s.gang? g with
  | none => s
  | some x => { s with launch := { s.launch with barriers := s.launch.barriers.map fun (b : Barrier) => if b.gang == g then b.close x else b } }

/-- The port of a level operand, K(0–7). -/
def levelPort (level : Nat) : Port := .short (Fin.ofNat 32 (level + 16))

/-- The task, gang and rank for which a BAR of a level acts, with its faults (R113, R328); sr.trapinfo of cause 0x04 names the
field and port of the level (R285). -/
def State.barTask (s : State) (level : Nat) : Res (Task × Gang) :=
  let bad : Stop := .trap 0x04 (emptyInfo 1 (levelPort level))
  match s.taskOf s.core.kid with
  | none => .error bad
  | some t => match s.spec? t.launch with
    | none => .error bad
    | some p =>
      if p.depthOf ≤ level then .error bad
      else match t.gang.bind s.gang? with
        | none => .error (.wordTrap 0x05)
        | some g => if level < p.gang then .error (.wordTrap 0x05) else .ok (t, g)

/-- The scope of a level of a task's launch (R321). -/
def State.scopeOf (s : State) (t : Task) (level : Nat) : Nat := ((s.spec? t.launch).map fun p => (p.level level).scope).getD 0

/-- Rank r of a gang arrives at the barrier of a level, a release at the level's scope (R113, R299): what a system scope or a wider
one covers is released to the host. -/
def State.arriveAt (s : State) (t : Task) (g : Gang) (level : Nat) : State :=
  let s := s.setBarrier ((s.barrier g.id level t.path).arrive g t.rank)
  if 4 ≤ s.scopeOf t level then s.systemRelease else s

/-- A release at peer scope waits for the acknowledgement of the stores it covers (R113, R302): those before its slot, since the
held effects of a bundle come in rising slot order (R281, R293). -/
def State.releaseWaits (s : State) (t : Task) (level : Nat) : Bool := s.scopeOf t level = 5 && !s.core.peerStores.isEmpty

/-- The marks of a BAR that waits, kept in the core while it does: 8 + level where it made the arrival itself, 16 + level where
a BARA had made it. -/
def Core.barMark (c : Core) (level : Nat) : Bool := c.arrived.contains (8 + level) || c.arrived.contains (16 + level)

def Core.dropMarks (c : Core) (level : Nat) : Core := { c with arrived := c.arrived.filter fun n => n != 8 + level && n != 16 + level }

/-- The operands of BAR and BARA, the faults of its slot, and the wait for the stores before it; the barrier is acted on after the
other slots (R101). -/
def barAct (i : Instr) (f : Nat → BrAction) (s : State) : SRes State := do
  let (c, x) ← liftRes (s.core.operands i)
  liftRes c.outsideRegion
  let level := x.a.toWord.toNat
  let s : State := { s with core := c }
  let (t, _) ← liftRes (s.barTask level)
  if s.releaseWaits t level then .error (.stall 256 false, none)
  else .ok { s with core := { c with act := f level } }

def issueBar (o : Op) : State → SRes State := barAct (.bar o) .bar
def issueBara (o : Op) : State → SRes State := barAct (.bara o) .bara

/-- BARA arrives, unless its task has arrived at the phase that is current (R113). -/
def State.actBara (s : State) (level : Nat) : SRes State := do
  let (t, g) ← liftRes (s.barTask level)
  let b := s.barrier g.id level t.path
  .ok (if b.last t.rank = some b.phase then s else s.arriveAt t g level)

/-- BAR arrives, unless a BARA of its task has arrived at the phase that is current, and then waits until that phase completes
(R113). The wait on the barrier of level n is the wait on port 512 + n: every other slot of its bundle has then run without a
stop, the bundle is held back, and its arrival stands (`State.barWait`). -/
def State.actBar (s : State) (level : Nat) : SRes State := do
  let (t, g) ← liftRes (s.barTask level)
  let waits := s.core.barMark level
  let b := s.barrier g.id level t.path
  let s := if waits || b.last t.rank = some b.phase then s else s.arriveAt t g level
  let b := s.barrier g.id level t.path
  match b.last t.rank with
  | some q =>
    if q < b.phase then .ok { s with core := s.core.dropMarks level }
    else .error (.stall (512 + level) false, none)
  | none => .error (.stall (512 + level) false, none)

/-- FENCE (R112, R302). Within the package every ordinary access of the model is performed at its step, so a fence adds something at
two scopes only: at system scope, and the wider peer scope, it releases to the host; at peer scope its bundle waits, at its
retirement, for the acknowledgement of the sequencer's stores to other packages. -/
def State.actFence (s : State) (scope : Word) : State :=
  let t := if scope = 4 || scope = 5 then s.systemRelease else s
  if scope = 5 && !s.core.peerStores.isEmpty then { t with core := { t.core with fenceWait := true } } else t

/-- What a BAR operation does besides moving the PC, after the other slots of its execution (R101). -/
def State.performBr (s : State) (addr : Word) : SRes State := do
  let s ← match s.core.act with
    | .bar level => s.actBar level
    | .bara level => s.actBara level
    | .fence scope => .ok (s.actFence scope)
    | _ => .ok s
  let c ← liftRes (s.core.perform addr)
  .ok { s with core := c }

/-- The arrival of a BAR that waits stands, with its mark. -/
def State.barWait (s : State) (port : Nat) : State :=
  let level := port - 512
  if s.core.barMark level then s
  else match s.barTask level with
    | .ok (t, g) =>
      let b := s.barrier g.id level t.path
      let early := b.last t.rank = some b.phase
      let s := if early then s else s.arriveAt t g level
      { s with core := { s.core with arrived := addOnce ((if early then 16 else 8) + level) s.core.arrived } }
    | .error _ => s

/-- A BAR squashed by a stop or a trap has not arrived (R282, R289, R382): its own arrivals at phases not complete are taken
back. -/
def State.unarrive (s : State) (k : Nat) : State :=
  match s.taskOf k with
  | none => s
  | some t =>
    let undo (s : State) (mark : Nat) : State :=
      let b := s.barrier (t.gang.getD 0) (mark - 8) t.path
      if mark < 8 || 16 ≤ mark || b.last t.rank != some b.phase then s
      else (s.setBarrier { b with arrived := b.arrived.filter fun x => x.1 != t.rank }).modCore k
        fun c => { c with arrived := c.arrived.filter (· != mark) }
    (s.coreAt k).arrived.foldl undo s

end Sys2Proof.Machine
end

