-- ==== Sys2Proof/Machine/Special.lean ====
section
/-! DEFINITION. The special functions of VB (R161, R162), each correctly rounded. VRCP and VRSQ are computed exactly. The
transcendental ones are computed to 640 fraction bits and then rounded once; no float input has a result that lies so
close to a rounding boundary (log 14). -/
namespace Sys2Proof.Machine

/-- Fraction bits of the working precision. -/
def fxBits : Nat := 640
def fxOne : Nat := 2 ^ fxBits

/-- Sum over k from `k` of r^k / k!, given the term for k - 1. -/
def expSeries (r : Nat) : Nat → Nat → Nat → Nat → Nat
  | 0, _, _, acc => acc
  | n + 1, k, term, acc =>
    let t := term * r / fxOne / k
    expSeries r n (k + 1) t (acc + t)

/-- e^r for 0 ≤ r < 1, in fixed point. -/
def fxExp (r : Nat) : Nat := expSeries r 160 1 fxOne fxOne

/-- Sum of z^(2k+1) / (2k+1): atanh z for z ≤ 1/3, in fixed point. -/
def atanhSeries (z2 : Nat) : Nat → Nat → Nat → Nat → Nat
  | 0, _, _, acc => acc
  | n + 1, k, pow, acc => atanhSeries z2 n (k + 2) (pow * z2 / fxOne) (acc + pow / k)

def fxAtanh (z : Nat) : Nat := atanhSeries (z * z / fxOne) 220 1 z 0

/-- ln 2 = 2 atanh(1/3). -/
def fxLn2 : Nat := 2 * fxAtanh (fxOne / 3)

/-- The magnitude m * 2^e in fixed point, truncated. -/
def toFx (m : Nat) (e : Int) : Nat :=
  if 0 ≤ e + fxBits then m * 2 ^ (e + fxBits).toNat else m / 2 ^ (-(e + fxBits)).toNat

/-- 1 / x and 1 / sqrt(x) (R161, R162). -/
def Fmt.rcp (f : Fmt) (x : Nat) : Nat := f.div 0 (.fin false 1 0) (f.val x)

def Fmt.rsq (f : Fmt) (x : Nat) : Nat :=
  match f.val x with
  | .nan => f.nan
  | .inf s => if s then f.nan else 0
  | .fin s m e =>
    if m = 0 then f.sign s + f.inf
    else if s then f.nan
    else
      let odd := e % 2 != 0
      let m' := if odd then 2 * m else m
      let e' := if odd then e - 1 else e
      -- sqrt(2^(2k) / m') with k = 128, an exact root when 2^256 / m' is a perfect square
      let n := 2 ^ 256 / m'
      let r := isqrt n
      f.roundFin 0 false r (-128 - e' / 2) (r * r * m' != 2 ^ 256)

/-- Is m * 2^e an integer, and which. -/
def asInt? (m : Nat) (e : Int) : Option Nat :=
  if 0 ≤ e then some (m * 2 ^ e.toNat)
  else if m % 2 ^ (-e).toNat = 0 then some (m / 2 ^ (-e).toNat) else none

/-- 2^x (R161, R162). -/
def Fmt.exp2 (f : Fmt) (x : Nat) : Nat :=
  match f.val x with
  | .nan => f.nan
  | .inf s => if s then 0 else f.inf
  | .fin s m e =>
    if 0 < m && 2 ^ 9 * 2 ^ fxBits ≤ toFx m (min e 64) then (if s then 0 else f.inf)
    else match asInt? m e with
      | some n => f.roundFin 0 false 1 (if s then -(n : Int) else n) false
      | none =>
        let t := toFx m e
        let t : Int := if s then -(t : Int) else t
        let n := t / (fxOne : Nat)
        let r := (t % (fxOne : Nat)).toNat
        f.roundFin 0 false (fxExp (r * fxLn2 / fxOne)) (n - fxBits) true

/-- log2(x) (R161, R162). -/
def Fmt.lg2 (f : Fmt) (x : Nat) : Nat :=
  match f.val x with
  | .nan => f.nan
  | .inf s => if s then f.nan else f.inf
  | .fin s m e =>
    if m = 0 then f.sign true + f.inf
    else if s then f.nan
    else
      let k : Int := e + Nat.log2 m
      let g := m * 2 ^ (fxBits - Nat.log2 m)
      if g = fxOne then f.round 0 (.ofInt k)
      else
        let z := (g - fxOne) * fxOne / (g + fxOne)
        let frac := 2 * fxAtanh z * fxOne / fxLn2
        let r : Int := k * (fxOne : Nat) + frac
        f.roundFin 0 (r < 0) r.natAbs (-(fxBits : Int)) true

/-- e^(-y) in fixed point for y = m * 2^e with y < 512: 2^-n * e^-r. -/
def fxExpNeg (m : Nat) (e : Int) : Nat :=
  let y := toFx m e
  let n := y / fxLn2
  let r := y % fxLn2
  fxOne * fxOne / fxExp r / 2 ^ n

/-- tanh(x) (R161, R162): odd in x; (1 - e^-2x) / (1 + e^-2x). -/
def Fmt.tanh (f : Fmt) (x : Nat) : Nat :=
  match f.val x with
  | .nan => f.nan
  | .inf s => f.round 0 (.fin s 1 0)
  | .fin s m e =>
    if m = 0 then f.sign s
    else if 2 ^ 6 * 2 ^ fxBits ≤ toFx m (min e 64) then f.roundFin 0 s (2 ^ 100 - 1) (-100) true
    else
      let q := fxExpNeg m (e + 1)
      f.roundFin 0 s ((fxOne - q) * fxOne / (fxOne + q)) (-(fxBits : Int)) true

/-- 1 / (1 + e^-x) (R161, R162). -/
def Fmt.sigm (f : Fmt) (x : Nat) : Nat :=
  match f.val x with
  | .nan => f.nan
  | .inf s => if s then 0 else f.round 0 (.fin false 1 0)
  | .fin s m e =>
    if m = 0 then f.round 0 (.fin false 1 (-1))
    else if 2 ^ 8 * 2 ^ fxBits ≤ toFx m (min e 64) then
      (if s then f.roundFin 0 false 1 (-300) true else f.roundFin 0 false (2 ^ 100 - 1) (-100) true)
    else
      let q := fxExpNeg m e
      let num := if s then q else fxOne
      f.roundFin 0 false (num * fxOne / (fxOne + q)) (-(fxBits : Int)) true

end Sys2Proof.Machine
end

