-- ==== Sys2Proof/Machine/Vector.lean ====
section
/-! DEFINITION. The vector slots VA and VB (R132 to R163): what each operation does at its step. -/
namespace Sys2Proof.Machine

def map3 (f : Nat → Nat → Nat → Nat) : List Nat → List Nat → List Nat → List Nat
  | a :: as, b :: bs, c :: cs => f a b c :: map3 f as bs cs
  | _, _, _ => []

/-- The 2048-bit result of a function of three elements of width w (R132). -/
def mapElems (w : Nat) (f : Nat → Nat → Nat → Nat) (a b c : Nat) : Vec :=
  let n := 2048 / w
  BitVec.ofNat 2048 (packElems w (map3 f (elems w a n) (elems w b n) (elems w c n)))

/-- An elementwise operation at the width of its type, each element modulo 2^w (R132, R133). -/
def elemOp (i : Instr) (t : ElemTy) (o : Op) (f : Nat → Nat → Nat → Nat) (c : Core) : Res Core := do
  let (c, x) ← c.operands i
  let w := t.width
  .ok (c.issueResult i (.vec (mapElems w f (srcVec w o.op1 x.a) (srcVec w o.op2 x.b) (srcVec w o.op3 x.c))))

/-- A source of an untyped operation: a scalar fills each 64-bit piece, lid is read as 64 lanes (R133). -/
def srcBits (p : Port) (x : Val) : Nat :=
  match p with
  | .lid => srcVec 32 p x
  | _ => srcVec 64 p x

/-- A bitwise operation on all 2048 bits (R146). -/
def bitOp (i : Instr) (o : Op) (f : Vec → Vec → Vec) (c : Core) : Res Core := do
  let (c, x) ← c.operands i
  .ok (c.issueResult i (.vec (f (BitVec.ofNat 2048 (srcBits o.op1 x.a)) (BitVec.ofNat 2048 (srcBits o.op2 x.b)))))

/-- An operation on masks (R157). -/
def maskOp (i : Instr) (f : Mask → Mask → Mask) (c : Core) : Res Core := do
  let (c, x) ← c.operands i
  .ok (c.issueResult i (.vec ((f (x.a.bits.setWidth 256) (x.b.bits.setWidth 256)).setWidth 2048)))

/-! ## Elements -/

/-- a + s*b on elements: integer modulo 2^w, float with one rounding (R137). -/
def addElem (t : ElemTy) (m sub : Bool) (a b : Nat) : Nat :=
  if t.isFloat then
    let f := Fmt.of t
    let y := f.val b
    f.round (rmOf m) ((f.val a).add false (if sub then y.neg else y))
  else if sub then a + 2 ^ t.width - b else a + b

/-- R138. -/
def mulElem (t : ElemTy) (m : Bool) (a b : Nat) : Nat :=
  if t.isFloat then (Fmt.of t).round (rmOf m) (((Fmt.of t).val a).mul ((Fmt.of t).val b)) else a * b

def mulhElem (w : Nat) (m : Bool) (a b : Nat) : Nat := wrap w (intVal w m a * intVal w m b / (2 ^ w : Nat))

/-- R139: (s1 a*b) + (s2 c), with the signs of the product and of c. -/
def fmaElem (t : ElemTy) (m negP negC : Bool) (a b c : Nat) : Nat :=
  if t.isFloat then
    let f := Fmt.of t
    let x := f.val a
    let y := f.val c
    f.round (rmOf m) ((if negP then x.neg else x).fma false (f.val b) (if negC then y.neg else y))
  else
    let p : Int := a * b
    wrap t.width ((if negP then -p else p) + (if negC then -(c : Int) else c))

/-- R140. -/
def minmaxElem (t : ElemTy) (m isMax : Bool) (a b : Nat) : Nat :=
  if t.isFloat then (Fmt.of t).minmax isMax a b
  else if (intVal t.width m a < intVal t.width m b) == isMax then b else a

/-- R141. -/
def absElem (t : ElemTy) (a : Nat) : Nat :=
  if t.isFloat then (if ((Fmt.of t).val a).isNan then (Fmt.of t).nan else a % 2 ^ (t.width - 1))
  else (sextN t.width a).natAbs
def negElem (t : ElemTy) (a : Nat) : Nat :=
  if t.isFloat then (if ((Fmt.of t).val a).isNan then (Fmt.of t).nan else a ^^^ 2 ^ (t.width - 1))
  else 2 ^ t.width - a

/-- R142. -/
def satElem (w : Nat) (m sub : Bool) (a b : Nat) : Nat :=
  let x := intVal w m a
  let y := intVal w m b
  wrap w (satInt w m (if sub then x - y else x + y))

/-- R143. -/
def avgElem (w : Nat) (m : Bool) (a b : Nat) : Nat := wrap w ((intVal w m a + intVal w m b + 1) / 2)

/-- R147. -/
def shlElem (w a amt : Nat) : Nat := if w ≤ amt % 256 then 0 else a * 2 ^ (amt % 256)
def shrElem (w a amt : Nat) : Nat := if w ≤ amt % 256 then 0 else a / 2 ^ (amt % 256)
def sraElem (w a amt : Nat) : Nat := wrap w (sextN w a / (2 ^ (min (amt % 256) w) : Nat))

/-- The conversion of one element (R151): source type and signedness, target type and signedness, mode. -/
def cvtElem (s : ElemTy) (su : Bool) (t : ElemTy) (tu : Bool) (rm : Nat) (x : Nat) : Nat :=
  if s.isFloat then
    let v := (Fmt.of s).val x
    if t.isFloat then (Fmt.of t).round rm v else wrap t.width (satRound rm t.width tu v)
  else
    let v := intVal s.width su x
    if t.isFloat then (Fmt.of t).round rm (.ofInt v) else wrap t.width (satInt t.width tu v)

/-- The implicit zero point of R75 and R152. -/
def zeroPoint (t : ElemTy) (u : Bool) : Int := if u then (if t = .i4 then 8 else 128) else 0

/-- R152. -/
def qntElem (t : ElemTy) (u : Bool) (rm a m : Nat) : Nat :=
  match (Fmt.f32.val a).mul (Fmt.f32.val m) with
  | .nan => wrap t.width (zeroPoint t u)
  | .inf s => wrap t.width (if s then intMin t.width u else intMax t.width u)
  | .fin s k e => wrap t.width (satInt t.width u (roundInt rm s k e + zeroPoint t u))

/-- R153. A difference of 0 counts as +0, so a negative scale gives -0 (DESIGN CHOICE, log 76). -/
def dqntElem (w : Nat) (u : Bool) (q s z : Nat) : Nat :=
  Fmt.f32.round 0 ((Fmt.f32.val s).mul (.ofInt (intVal w u q - sextN 32 z)))

/-- R154: four byte products added to a 32-bit lane. -/
def dot4Elem (u : Bool) (a b c : Nat) : Nat :=
  let p (j : Nat) : Int := intVal 8 u (elem 8 a j) * intVal 8 u (elem 8 b j)
  wrap 32 ((c : Int) + p 0 + p 1 + p 2 + p 3)

/-! ## Typed operations of both slots (R92) -/

def issueVadd (u : VU) (t : ElemTy) (o : Op) : Core → Res Core := elemOp (.vadd u t o) t o fun a b _ => addElem t o.mod false a b
def issueVsub (u : VU) (t : ElemTy) (o : Op) : Core → Res Core := elemOp (.vsub u t o) t o fun a b _ => addElem t o.mod true a b
def issueVmul (u : VU) (t : ElemTy) (o : Op) : Core → Res Core := elemOp (.vmul u t o) t o fun a b _ => mulElem t o.mod a b
def issueVmulh (u : VU) (t : ElemTy) (o : Op) : Core → Res Core := elemOp (.vmulh u t o) t o fun a b _ => mulhElem t.width o.mod a b
def issueVfma (u : VU) (t : ElemTy) (o : Op) : Core → Res Core := elemOp (.vfma u t o) t o fun a b c => fmaElem t o.mod false false a b c
def issueVfms (u : VU) (t : ElemTy) (o : Op) : Core → Res Core := elemOp (.vfms u t o) t o fun a b c => fmaElem t o.mod false true a b c
def issueVfnma (u : VU) (t : ElemTy) (o : Op) : Core → Res Core := elemOp (.vfnma u t o) t o fun a b c => fmaElem t o.mod true false a b c
def issueVmin (u : VU) (t : ElemTy) (o : Op) : Core → Res Core := elemOp (.vmin u t o) t o fun a b _ => minmaxElem t o.mod false a b
def issueVmax (u : VU) (t : ElemTy) (o : Op) : Core → Res Core := elemOp (.vmax u t o) t o fun a b _ => minmaxElem t o.mod true a b
def issueVabs (u : VU) (t : ElemTy) (o : Op) : Core → Res Core := elemOp (.vabs u t o) t o fun a _ _ => absElem t a
def issueVneg (u : VU) (t : ElemTy) (o : Op) : Core → Res Core := elemOp (.vneg u t o) t o fun a _ _ => negElem t a
def issueVadds (u : VU) (t : ElemTy) (o : Op) : Core → Res Core := elemOp (.vadds u t o) t o fun a b _ => satElem t.width o.mod false a b
def issueVsubs (u : VU) (t : ElemTy) (o : Op) : Core → Res Core := elemOp (.vsubs u t o) t o fun a b _ => satElem t.width o.mod true a b
def issueVavg (u : VU) (t : ElemTy) (o : Op) : Core → Res Core := elemOp (.vavg u t o) t o fun a b _ => avgElem t.width o.mod a b

/-- The mask of a list of element outcomes, w/8 bits each (R144). -/
def maskOf (k : Nat) (l : List Bool) : Vec :=
  BitVec.ofNat 2048 (packElems k (l.map fun b => if b then 2 ^ k - 1 else 0))

/-- R144. -/
def issueVcmp (u : VU) (t : ElemTy) (o : Op) (c : Core) : Res Core := do
  let (c, x) ← c.operands (.vcmp u t o)
  let w := t.width
  let n := 2048 / w
  let cond := x.c.toWord.toNat
  let r := List.zipWith (elemCond t cond) (elems w (srcVec w o.op1 x.a) n) (elems w (srcVec w o.op2 x.b) n)
  .ok (c.issueResult (.vcmp u t o) (.vec (maskOf (w / 8) r)))

def issueVshl (u : VU) (t : ElemTy) (o : Op) : Core → Res Core := elemOp (.vshl u t o) t o fun a b _ => shlElem t.width a b
def issueVshr (u : VU) (t : ElemTy) (o : Op) : Core → Res Core := elemOp (.vshr u t o) t o fun a b _ => shrElem t.width a b
def issueVsra (u : VU) (t : ElemTy) (o : Op) : Core → Res Core := elemOp (.vsra u t o) t o fun a b _ => sraElem t.width a b
def issueVfshl (u : VU) (t : ElemTy) (o : Op) : Core → Res Core :=
  elemOp (.vfshl u t o) t o fun hi lo amt => funnelLeft t.width hi lo (amt % 256 % (2 * t.width))
def issueVfshr (u : VU) (t : ElemTy) (o : Op) : Core → Res Core :=
  elemOp (.vfshr u t o) t o fun hi lo amt => funnelRight t.width hi lo (amt % 256 % (2 * t.width))
def issueVclz (u : VU) (t : ElemTy) (o : Op) : Core → Res Core := elemOp (.vclz u t o) t o fun a _ _ => clzNat t.width a
def issueVpopc (u : VU) (t : ElemTy) (o : Op) : Core → Res Core := elemOp (.vpopc u t o) t o fun a _ _ => popNat t.width a

/-- R150, R151: the source selector is the type code plus 8 when unsigned. -/
def issueVcvt (u : VU) (t : ElemTy) (o : Op) (c : Core) : Res Core := do
  let (c, x) ← c.operands (.vcvt u t o)
  let sel := x.b.toWord.toNat
  let s := ElemTy.ofCode (sel % 8)
  let n := 2048 / max s.width t.width
  let src := elems s.width (srcVec s.width o.op1 x.a) n
  let r := packElems t.width (src.map (cvtElem s (8 ≤ sel) t o.mod x.c.toWord.toNat))
  .ok (c.issueResult (.vcvt u t o) (.vec (BitVec.ofNat 2048 r)))

/-- R152. -/
def issueVqnt (u : VU) (t : ElemTy) (o : Op) (c : Core) : Res Core := do
  let (c, x) ← c.operands (.vqnt u t o)
  let r := List.zipWith (qntElem t o.mod x.c.toWord.toNat) (elems 32 (srcVec 32 o.op1 x.a) 64) (elems 32 (srcVec 32 o.op2 x.b) 64)
  .ok (c.issueResult (.vqnt u t o) (.vec (BitVec.ofNat 2048 (packElems t.width r))))

/-- R153. -/
def issueVdqnt (u : VU) (t : ElemTy) (o : Op) (c : Core) : Res Core := do
  let (c, x) ← c.operands (.vdqnt u t o)
  let q := elems t.width (srcVec t.width o.op1 x.a) 64
  let r := map3 (dqntElem t.width o.mod) q (elems 32 (srcVec 32 o.op2 x.b) 64) (elems 32 (srcVec 32 o.op3 x.c) 64)
  .ok (c.issueResult (.vdqnt u t o) (.vec (BitVec.ofNat 2048 (packElems 32 r))))

/-- R154. -/
def issueVdot4 (u : VU) (t : ElemTy) (o : Op) (c : Core) : Res Core := do
  let (c, x) ← c.operands (.vdot4 u t o)
  .ok (c.issueResult (.vdot4 u t o) (.vec (mapElems 32 (dot4Elem o.mod) (srcVec 8 o.op1 x.a) (srcVec 8 o.op2 x.b)
    (srcVec 32 o.op3 x.c))))

/-- R155. -/
def issueVbcst (u : VU) (t : ElemTy) (o : Op) (c : Core) : Res Core := do
  let (c, x) ← c.operands (.vbcst u t o)
  let w := t.width
  let e := elem w (srcVec w o.op1 x.a) (x.b.toWord.toNat % (2048 / w))
  .ok (c.issueResult (.vbcst u t o) (.vec (BitVec.ofNat 2048 (packElems w (List.replicate (2048 / w) e)))))

/-- R156. -/
def issueViota (u : VU) (t : ElemTy) (o : Op) (c : Core) : Res Core := do
  let (c, x) ← c.operands (.viota u t o)
  let w := t.width
  let r := (List.range (2048 / w)).map fun k => x.a.toWord.toNat + k * x.b.toWord.toNat
  .ok (c.issueResult (.viota u t o) (.vec (BitVec.ofNat 2048 (packElems w r))))

/-! ## VB alone (R159 to R162) -/

def issueVdiv (t : ElemTy) (o : Op) : Core → Res Core := elemOp (.vdiv t o) t o fun a b _ =>
  (Fmt.of t).div (rmOf o.mod) ((Fmt.of t).val a) ((Fmt.of t).val b)
def issueVsqrt (t : ElemTy) (o : Op) : Core → Res Core := elemOp (.vsqrt t o) t o fun a _ _ =>
  (Fmt.of t).sqrt (rmOf o.mod) ((Fmt.of t).val a)
def issueVrcp (t : ElemTy) (o : Op) : Core → Res Core := elemOp (.vrcp t o) t o fun a _ _ => (Fmt.of t).rcp a
def issueVrsq (t : ElemTy) (o : Op) : Core → Res Core := elemOp (.vrsq t o) t o fun a _ _ => (Fmt.of t).rsq a
def issueVexp2 (t : ElemTy) (o : Op) : Core → Res Core := elemOp (.vexp2 t o) t o fun a _ _ => (Fmt.of t).exp2 a
def issueVlog2 (t : ElemTy) (o : Op) : Core → Res Core := elemOp (.vlog2 t o) t o fun a _ _ => (Fmt.of t).lg2 a
def issueVtanh (t : ElemTy) (o : Op) : Core → Res Core := elemOp (.vtanh t o) t o fun a _ _ => (Fmt.of t).tanh a
def issueVsigm (t : ElemTy) (o : Op) : Core → Res Core := elemOp (.vsigm t o) t o fun a _ _ => (Fmt.of t).sigm a

/-! ## Untyped operations (R93, R145, R146, R157, R158) -/

def issueVand (u : VU) (o : Op) : Core → Res Core := bitOp (.vand u o) o fun a b => a &&& b
def issueVor (u : VU) (o : Op) : Core → Res Core := bitOp (.vor u o) o fun a b => a ||| b
def issueVxor (u : VU) (o : Op) : Core → Res Core := bitOp (.vxor u o) o fun a b => a ^^^ b
def issueVandn (u : VU) (o : Op) : Core → Res Core := bitOp (.vandn u o) o fun a b => a &&& ~~~b
def issueVnot (u : VU) (o : Op) : Core → Res Core := bitOp (.vnot u o) o fun a _ => ~~~a
def issueVmov (u : VU) (o : Op) : Core → Res Core := bitOp (.vmov u o) o fun a _ => a

/-- R145: byte j comes from a where mask bit j is set. -/
def issueVsel (u : VU) (o : Op) (c : Core) : Res Core := do
  let (c, x) ← c.operands (.vsel u o)
  let m := elems 1 x.a.bits.toNat 256
  let r := map3 (fun m a b => if m = 1 then a else b) m (elems 8 (srcBits o.op2 x.b) 256) (elems 8 (srcBits o.op3 x.c) 256)
  .ok (c.issueResult (.vsel u o) (.vec (BitVec.ofNat 2048 (packElems 8 r))))

def issueVmand (u : VU) (o : Op) : Core → Res Core := maskOp (.vmand u o) fun a b => a &&& b
def issueVmor (u : VU) (o : Op) : Core → Res Core := maskOp (.vmor u o) fun a b => a ||| b
def issueVmnot (u : VU) (o : Op) : Core → Res Core := maskOp (.vmnot u o) fun a _ => ~~~a

/-- R158. -/
def issueVmpopc (u : VU) (o : Op) (c : Core) : Res Core := do
  let (c, x) ← c.operands (.vmpopc u o)
  .ok (c.issueResult (.vmpopc u o) (.word (BitVec.ofNat 64 (popNat 256 x.a.bits.toNat))))
def issueVmfirst (u : VU) (o : Op) (c : Core) : Res Core := do
  let (c, x) ← c.operands (.vmfirst u o)
  .ok (c.issueResult (.vmfirst u o) (.word (BitVec.ofNat 64 (ctzNat 256 x.a.bits.toNat))))

end Sys2Proof.Machine
end

