-- ==== Sys2Proof/Machine/Crossbar.lean ====
section
/-! DEFINITION. The XN slot (R164 to R180): crossbar, bit network, reductions and bench. -/
namespace Sys2Proof.Machine

/-- The 64 lanes of a source (R165). -/
def lanes (p : Port) (x : Val) : List Nat := elems 32 (srcBits p x) 64
def ofLaneList (l : List Nat) : Vec := BitVec.ofNat 2048 (packElems 32 l)

/-- A lane operation from the lanes of OP1, the lanes of OP2 and the 64-bit value of OP2. -/
def laneOp (i : Instr) (o : Op) (f : List Nat → List Nat → Nat → List Nat) (c : Core) : Res Core := do
  let (c, x) ← c.operands i
  .ok (c.issueResult i (.vec (ofLaneList (f (lanes o.op1 x.a) (lanes o.op2 x.b) x.b.bits.toNat))))

/-! ## Permutes (R166 to R169) -/

def issueXperm (o : Op) : Core → Res Core := laneOp (.xperm o) o fun a idx _ =>
  idx.map fun x => if x.testBit 31 then 0 else a.getD (x % 64) 0

/-- Of the sent lanes, the lowest target that two name, with its two lowest sources: {target, first, second} (R166). -/
def collision (tgt : List Nat) : Option (Nat × Nat × Nat) :=
  let aims (t : Nat) : List Nat := (List.range 64).filter fun i => !(tgt.getD i 0).testBit 31 && tgt.getD i 0 % 64 == t
  (List.range 64).findSome? fun t => match aims t with
    | a :: b :: _ => some (t, a, b)
    | _ => none

/-- R166: a scatter; a collision traps with cause 0x05. -/
def issueXpermv (o : Op) (c : Core) : Res Core := do
  let (c, x) ← c.operands (.xpermv o)
  let a := lanes o.op1 x.a
  let tgt := lanes o.op2 x.b
  match collision tgt with
  | some (t, i, k) => .error (.trap 0x05 (BitVec.ofNat 64 (t + 2 ^ 8 * i + 2 ^ 16 * k)))
  | none =>
    let r := (List.range 64).map fun t =>
      match (List.range 64).find? fun i => !(tgt.getD i 0).testBit 31 && tgt.getD i 0 % 64 == t with
      | some i => a.getD i 0
      | none => 0
    .ok (c.issueResult (.xpermv o) (.vec (ofLaneList r)))

/-- R167: lane i of the result is lane (i + n) mod 64. -/
def rotDown (n : Nat) (a : List Nat) : List Nat := (List.range 64).map fun i => a.getD ((i + n) % 64) 0

def issueXrot (o : Op) : Core → Res Core := laneOp (.xrot o) o fun a _ n => rotDown (64 - n % 64) a
def issueXrotDn (o : Op) : Core → Res Core := laneOp (.xrotDn o) o fun a _ n => rotDown (n % 64) a

/-- R168, from lane h up. -/
def zipLanes (h : Nat) (a b : List Nat) : List Nat :=
  (List.range 64).map fun i => if i % 2 = 0 then a.getD (h + i / 2) 0 else b.getD (h + i / 2) 0
def unzipLanes (odd : Nat) (a b : List Nat) : List Nat :=
  (List.range 64).map fun i => if i < 32 then a.getD (2 * i + odd) 0 else b.getD (2 * (i - 32) + odd) 0

def issueXzip (o : Op) : Core → Res Core := laneOp (.xzip o) o fun a b _ => zipLanes 0 a b
def issueXzipHi (o : Op) : Core → Res Core := laneOp (.xzipHi o) o fun a b _ => zipLanes 32 a b
def issueXunzip (o : Op) : Core → Res Core := laneOp (.xunzip o) o fun a b _ => unzipLanes 0 a b
def issueXunzipOdd (o : Op) : Core → Res Core := laneOp (.xunzipOdd o) o fun a b _ => unzipLanes 1 a b

/-- The lanes a mask selects, in rising order (R165). -/
def selectedLanes (m : Nat) : List Nat := (List.range 64).filter fun i => m.testBit (4 * i)

/-- R169: pack the selected lanes into the low lanes. -/
def compressLanes (m : Nat) (a : List Nat) : List Nat := (selectedLanes m).map fun i => a.getD i 0

/-- R169: spread the low lanes, from lane j on, into the selected lanes from lane i on. -/
def expandLanes (m : Nat) (a : List Nat) : Nat → Nat → Nat → List Nat
  | 0, _, _ => []
  | n + 1, i, j => if m.testBit (4 * i) then a.getD j 0 :: expandLanes m a n (i + 1) (j + 1)
      else 0 :: expandLanes m a n (i + 1) j

def issueXcmpr (o : Op) : Core → Res Core := laneOp (.xcmpr o) o fun a _ m => compressLanes m a
def issueXexpd (o : Op) : Core → Res Core := laneOp (.xexpd o) o fun a _ m => expandLanes m a 64 0 0

/-! ## Reductions and scans (R170 to R172) -/

/-- The operators of R96 on elements (R170). -/
def redElem (t : ElemTy) (u : Bool) (op a b : Nat) : Nat :=
  match op with
  | 0 => addElem t false false a b % 2 ^ t.width
  | 1 => minmaxElem t u false a b
  | 2 => minmaxElem t u true a b
  | 3 => a &&& b
  | 4 => a ||| b
  | _ => a ^^^ b

/-- One level of the tree: adjacent pairs combined. -/
def pairUp (f : Nat → Nat → Nat) : List Nat → List Nat
  | a :: b :: l => f a b :: pairUp f l
  | l => l

/-- The fixed tree of R170 over a power of two of elements, by its levels. -/
def treeFold (f : Nat → Nat → Nat) : Nat → List Nat → Nat
  | 0, l => l.headD 0
  | n + 1, l => treeFold f n (pairUp f l)

/-- R170: the vector form, which hxn holds also where cq takes bit 0 of it, or the scalar form for a scalar register. The operator
stands in OP2 (log 34). -/
def issueXred (t : ElemTy) (o : Op) (c : Core) : Res Core := do
  let (c, x) ← c.operands (.xred t o)
  let w := t.width
  let n := 2048 / w
  let r := treeFold (redElem t o.mod x.b.toWord.toNat) 8 (elems w (srcVec w o.op1 x.a) n)
  let v := Val.vec (BitVec.ofNat 2048 (packElems w (List.replicate n r)))
  match o.dst with
  | .s _ => .ok (c.issueResult (.xred t o) (.word (if t.isFloat || o.mod then BitVec.ofNat 64 r else BitVec.ofInt 64 (sextN w r))))
  | .cq => .ok (c.issueBoth 6 .xn .cq v v)
  | _ => .ok (c.issueResult (.xred t o) v)

/-- The inclusive prefix from left to right (R171). -/
def scanFrom (f : Nat → Nat → Nat) (acc : Nat) : List Nat → List Nat
  | [] => []
  | a :: l => f acc a :: scanFrom f (f acc a) l

/-- R171. Element 0 is copied as it stands, a NaN of any form too, as the rule's first line has it, although R70 has every NaN
delivered be the default one (DEDUCED, log 93). The operator stands in OP2 (log 34). -/
def issueXscan (t : ElemTy) (o : Op) (c : Core) : Res Core := do
  let (c, x) ← c.operands (.xscan t o)
  let w := t.width
  let r := match elems w (srcVec w o.op1 x.a) (2048 / w) with
    | [] => []
    | a :: l => a :: scanFrom (redElem t o.mod x.b.toWord.toNat) a l
  .ok (c.issueResult (.xscan t o) (.vec (BitVec.ofNat 2048 (packElems w r))))

/-- The extremum of each aligned group of g elements (R172); a lone NaN becomes the default NaN. -/
def groupExt (f : Nat → Nat → Nat) (g : Nat) : Nat → List Nat → List Nat
  | 0, _ => []
  | n + 1, l =>
    let grp := l.take g
    let e := grp.foldl f (grp.headD 0)
    List.replicate grp.length e ++ groupExt f g n (l.drop g)

/-- R172: the group size stands in OP2 (log 34). -/
def groupOp (i : Instr) (t : ElemTy) (o : Op) (isMax : Bool) (c : Core) : Res Core := do
  let (c, x) ← c.operands i
  let w := t.width
  let n := 2048 / w
  let g := min (2 ^ x.b.toWord.toNat) n
  let r := groupExt (minmaxElem t o.mod isMax) g n (elems w (srcVec w o.op1 x.a) n)
  .ok (c.issueResult i (.vec (BitVec.ofNat 2048 (packElems w r))))

def issueXgmax (t : ElemTy) (o : Op) : Core → Res Core := groupOp (.xgmax t o) t o true
def issueXgmin (t : ElemTy) (o : Op) : Core → Res Core := groupOp (.xgmin t o) t o false

/-! ## The bit network (R173 to R175) -/

def Core.pattern (c : Core) (p : Nat) : BitVec 32768 := c.patterns.toList.getD p patternZero

/-- R175. -/
def routeBit (pat x : Nat) (k : Nat) : Nat :=
  let e := elem 16 pat k
  if e.testBit 12 then 0 else (x.testBit (e % 4096)).toNat

def issueXbnet (o : Op) (c : Core) : Res Core := do
  let (c, x) ← c.operands (.xbnet o)
  let src := srcBits o.op1 x.a + 2 ^ 2048 * srcBits o.op2 x.b
  let pat := (c.pattern x.c.toWord.toNat).toNat
  .ok (c.issueResult (.xbnet o) (.vec (BitVec.ofNat 2048 (packElems 1 ((List.range 2048).map (routeBit pat src))))))

/-- R174: a part above 15 traps with cause 0x04. -/
def issueXbnld (o : Op) (c : Core) : Res Core := do
  let (c, x) ← c.operands (.xbnld o)
  let q := x.b.toWord.toNat
  if 15 < q then .error (.trap 0x04 x.b.toWord)
  else
    let p := x.a.toWord.toNat
    let sh := 2048 * q
    let keep := ~~~(BitVec.ofNat 32768 ((2 ^ 2048 - 1) * 2 ^ sh))
    let v := ((c.pattern p) &&& keep) ||| BitVec.ofNat 32768 (srcBits o.op3 x.c * 2 ^ sh)
    .ok { c with patterns := c.patterns.setIfInBounds p v }

/-! ## The bench (R177 to R180) -/

def Core.queue (c : Core) (q : Nat) : Bench := c.bench.toList.getD q ⟨0, []⟩
def Core.setQueue (c : Core) (q : Nat) (b : Bench) : Core := { c with bench := c.bench.setIfInBounds q b }

/-- The pool bytes of entry e of queue q: its value r (R177). -/
def Core.benchByte (c : Core) (q e r : Nat) : Nat := c.benchOff q + 1024 * (e / 64) + 256 * r + 4 * (e % 64)

/-- The k entries of a ring from entry e on, as runs within one batch: first entry and length. `fuel` bounds the runs. -/
def ringRuns (cap e : Nat) : Nat → Nat → List (Nat × Nat)
  | 0, _ => []
  | _, 0 => []
  | fuel + 1, k =>
    let n := min k (64 - e % 64)
    (e, n) :: ringRuns cap ((e + n) % cap) fuel (k - n)

/-- The pool bytes of k entries of queue q from entry e on: four runs for each run of entries (R177). -/
def Core.benchSpans (c : Core) (q e k : Nat) : List (Nat × Nat) :=
  (ringRuns (64 * c.benchD) e (k / 64 + 2) k).flatMap fun x => [0, 1, 2, 3].map fun r => (c.benchByte q x.1 r, 4 * x.2)

/-- R178: append the selected lanes of four registers; too many trap with cause 0x0D. The read half of a write that covers only
part of a poisoned sector traps (R193). -/
def issueXbench (o : Op) (c : Core) : Res Core := do
  let (c, x) ← c.operands (.xbench o)
  let q := x.a.toWord.toNat
  let sel := selectedLanes x.b.bits.toNat
  let b := c.queue q
  let cap := 64 * c.benchD
  if cap < b.entries.length + sel.length then
    .error (.trap 0x0D (BitVec.ofNat 64 (q + 2 ^ 8 * sel.length + 2 ^ 16 * b.entries.length)))
  else
    let n := match o.op3 with | .v n => n.val | _ => 0
    let reg (r : Nat) : Vec := c.vregs.toList.getD (n + r) 0
    let entry (i : Nat) : BitVec 128 := BitVec.ofNat 128 (packElems 32 ([0, 1, 2, 3].map fun r => lane (reg r) i))
    let runs := c.benchSpans q ((b.head + b.entries.length) % cap) sel.length
    match runs.findSome? fun r => match c.checkPartial r.1 r.2 with | .error e => some e | .ok _ => none with
    | some e => .error e
    | none => .ok (c.writeRuns runs fun d => d.setQueue q { b with entries := b.entries ++ sel.map entry })

/-- R179: pop up to 64 entries into four registers; the queue changes now, the registers at delivery. -/
def issueXdrain (o : Op) (c : Core) : Res Core := do
  let (c, x) ← c.operands (.xdrain o)
  let q := x.a.toWord.toNat
  let b := c.queue q
  let cap := 64 * c.benchD
  let k := min 64 b.entries.length
  let cells := (List.range k).flatMap fun e => [0, 1, 2, 3].map fun r => c.benchByte q ((b.head + e) % cap) r
  match cells.findSome? fun p => match c.checkPoison p 4 with | .error e => some e | .ok _ => none with
  | some e => .error e
  | none =>
    let n := match o.dst with | .v n => n.val | _ => 0
    if [1, 2, 3].any fun r => c.isEmpty (.v (n + r)) then .error (.stall o.dst.toNat false)
    else
    let value (r : Nat) : Val := .vec (ofLaneList ((b.entries.take k).map fun e => elem 32 e.toNat r))
    let put (c : Core) (r : Nat) : Core :=
      c.addPending ⟨c.step + c.lat 4, c.step, Slot.num .xn, .v (n + r), value r, if r = 0 then some (.xn, value r) else none,
        if r = 3 then c.prodTok else 0⟩
    let c := [0, 1, 2, 3].foldl put (c.setQueue q ⟨(b.head + k) % cap, b.entries.drop k⟩)
    .ok { c with prodTok := 0 }

/-- R180. -/
def issueXbcnt (o : Op) (c : Core) : Res Core := do
  let (c, x) ← c.operands (.xbcnt o)
  .ok (c.issueResult (.xbcnt o) (.word (BitVec.ofNat 64 (c.queue x.a.toWord.toNat).entries.length)))

/-- R180: the head stays. -/
def issueXbclr (o : Op) (c : Core) : Res Core := do
  let (c, x) ← c.operands (.xbclr o)
  let q := x.a.toWord.toNat
  .ok (c.setQueue q { c.queue q with entries := [] })

end Sys2Proof.Machine
end

