-- ==== Sys2Proof/Machine/Matrix.lean ====
section
/-! DEFINITION. The MX slot (R222 to R243): the array's beats at their issue step. What an accumulator event does when it
acts is in Ops. -/
namespace Sys2Proof.Machine

/-! ## Pairs (R223) -/

/-- K values per beat; no pair has none. -/
def pairKB : Nat → Nat
  | 0 => 64 | 1 => 128 | 2 => 32 | 3 => 32 | 4 => 64 | 5 => 64 | _ => 0
/-- Bytes of a B row. -/
def pairRowBytes : Nat → Nat
  | 0 => 64 | 1 => 64 | 2 => 128 | 3 => 128 | 4 => 32 | 5 => 64 | _ => 0
/-- Element bits of a B row and of an A row. -/
def pairBBits : Nat → Nat
  | 2 => 16 | 3 => 16 | 4 => 4 | _ => 8
def pairABits : Nat → Nat
  | 0 => 8 | 1 => 4 | _ => 16
/-- Tiles of pairs 0 and 1 are of kind integer. -/
def pairInt (p : Nat) : Bool := p ≤ 1
def pairGrouped (p : Nat) : Bool := p == 4 || p == 5
/-- The float format of the A operand. -/
def pairFmt (p : Nat) : Fmt := if p = 3 then .f16 else .bf16

def MxArray.buf (a : MxArray) (k : Bool) : BBuf := if k then a.buf1 else a.buf0
def MxArray.setBuf (a : MxArray) (k : Bool) (b : BBuf) : MxArray := if k then { a with buf1 := b } else { a with buf0 := b }

/-- B[k][n] of a buffer. -/
def BBuf.at (b : BBuf) (p k n : Nat) : Nat := elem (pairBBits p) (b.rows.toList.getD k 0).toNat n
/-- GS and H of the metadata (R229). -/
def BBuf.gs (b : BBuf) : Nat := elem 8 b.zeros.toNat 128
def BBuf.half (b : BBuf) : Nat := elem 8 b.zeros.toNat 129
def BBuf.scale (b : BBuf) (g n : Nat) : FVal := Fmt.f16.val (elem 16 b.scales.toNat (64 * g + n))
def BBuf.zeroPt (b : BBuf) (g n : Nat) : Nat := elem 8 b.zeros.toNat (64 * g + n)

/-! ## The terms of a beat (R79 to R81, R231) -/

/-- The exact sum of an integer pair for column n (R79). -/
def intSum (p : Nat) (b : BBuf) (a : List Nat) (n : Nat) : Int :=
  ((List.range (pairKB p)).map fun k => sextN (pairABits p) (a.getD k 0) * sextN 8 (b.at p k n)).foldl (· + ·) 0

/-- The balanced tree of eight exact values (R80): each addition rounds to FP32. -/
def oct8 (l : List FVal) : Nat :=
  let pair (i : Nat) : Nat := Fmt.f32.round 0 ((l.getD i FVal.nan).add false (l.getD (i + 1) FVal.nan))
  addF32 (addF32 (pair 0) (pair 2)) (addF32 (pair 4) (pair 6))

/-- Octet o of a float pair for column n (R80): each product rounded to FP32. -/
def floatOct (p : Nat) (b : BBuf) (a : List Nat) (o n : Nat) : Nat :=
  let f := pairFmt p
  oct8 ((List.range 8).map fun i =>
    Fmt.f32.val (Fmt.f32.round 0 ((f.val (a.getD (8 * o + i) 0)).mul (f.val (b.at p (8 * o + i) n)))))

/-- The octet sums of codes times activations, whose products are exact, and of activations (R81). An integer code 0 counts as
+0 (DESIGN CHOICE, log 76). -/
def codeOct (p : Nat) (b : BBuf) (a : List Nat) (o n : Nat) : Nat :=
  oct8 ((List.range 8).map fun i => (FVal.ofInt (b.at p (8 * o + i) n)).mul (Fmt.bf16.val (a.getD (8 * o + i) 0)))
def actOct (a : List Nat) (o : Nat) : Nat := oct8 ((List.range 8).map fun i => Fmt.bf16.val (a.getD (8 * o + i) 0))

/-- Octets from `first` on joined in rising order: an accumulated start, or the first octet alone (R81). -/
def joinOcts (start : Option Nat) (f : Nat → Nat) (first count : Nat) : Nat :=
  match start with
  | some x => ((List.range count).map fun i => f (first + i)).foldl addF32 x
  | none => ((List.range (count - 1)).map fun i => f (first + 1 + i)).foldl addF32 (f first)

/-- The term of a group from P, A, its zero point and scale (R81). A zero point 0 counts as +0 (DESIGN CHOICE, log 76). -/
def groupTerm (s : FVal) (z P A : Nat) : Nat :=
  let t := Fmt.f32.round 0 ((Fmt.f32.val P).add false ((FVal.ofInt z).mul (Fmt.f32.val A)).neg)
  Fmt.f32.round 0 (s.mul (Fmt.f32.val t))

/-- The terms a push adds to its row, and the row's carry after it (R230, R231). -/
def beatTerms (p : Nat) (b : BBuf) (a : List Nat) (carry : Option (Vec × Vec)) : List Vec × Option (Vec × Vec) :=
  if pairInt p then ([ofLanes fun n => wrap 32 (intSum p b a n)], carry)
  else if !pairGrouped p then ((List.range 4).map fun o => ofLanes (floatOct p b a o), carry)
  else
    let sums (first count : Nat) (st : Option (Vec × Vec)) : Vec × Vec :=
      (ofLanes fun n => joinOcts (st.map fun x => lane x.1 n) (fun o => codeOct p b a o n) first count,
       ofLanes fun n => joinOcts (st.map fun x => lane x.2 n) (fun o => actOct a o) first count)
    let term (g : Nat) (x : Vec × Vec) : Vec := ofLanes fun n => groupTerm (b.scale g n) (b.zeroPt g n) (lane x.1 n) (lane x.2 n)
    match b.gs with
    | 0 => ([term 0 (sums 0 4 none), term 1 (sums 4 4 none)], carry)
    | 1 => ([term 0 (sums 0 8 none)], carry)
    | _ => if b.half = 0 then ([], some (sums 0 8 none)) else ([term 0 (sums 0 8 carry)], none)

/-! ## Schedule checks (R238, R462 order 2) -/

def schedule (bad : Bool) : Res Unit := if bad then .error (.wordTrap 0x05) else .ok ()

/-- The tile an operand names. -/
def zNum : Port → Nat
  | .z n => n.val
  | _ => 0

/-- Append an item to the open region's log (R422). -/
def Core.logItem (c : Core) (x : LogItem) : Core :=
  match c.arr.region with
  | some r => { c with arr := { c.arr with region := some { r with log := r.log.map (· ++ [x]) } } }
  | none => c

/-- An accumulator event issued now (R225); it carries the token of its operation. -/
def Core.addEvent (c : Core) (z : Nat) (a : AccAct) : Core :=
  { c with
    arr := { c.arr with events := c.arr.events ++ [⟨c.step + c.lat 7, z, a, c.arr.region.isSome, c.prodTok⟩] }
    prodTok := 0 }

/-! ## The operations -/

/-- R224. -/
def issueMxcfg (o : Op) (c : Core) : Res Core := do
  let (c, x) ← c.sources (.mxcfg o)
  schedule (c.arr.region.isSome || !c.arr.events.isEmpty)
  .ok { c with arr := { c.arr with pair := x.a.toWord.toNat, buf0 := BBuf.zero, buf1 := BBuf.zero, active := false, rc := Vector.replicate 8 0 } }

/-- R233: zero the shadow half. -/
def issueMxzero (o : Op) (c : Core) : Res Core := do
  let (c, _) ← c.sources (.mxzero o)
  .ok ((c.addEvent (zNum o.dst) .zero).logItem ⟨6, 0, 0, 0, 0⟩)

/-- R233: zero both halves and set the kind. -/
def issueMxzeroAll (o : Op) (c : Core) : Res Core := do
  let (c, _) ← c.sources (.mxzeroAll o)
  schedule c.arr.region.isSome
  .ok (c.addEvent (zNum o.dst) (.zeroAll (pairInt c.arr.pair)))

/-- Is an AD operand one that R238 forbids inside a region. -/
def adScalar : Port → Bool
  | .s _ | .latch _ _ => true
  | _ => false

/-- Write row idx of a buffer (R227, R229). -/
def BBuf.write (b : BBuf) (idx v : Nat) (grouped : Bool) : BBuf :=
  if grouped && idx = 64 then { b with scales := BitVec.ofNat 2048 v }
  else if grouped && idx = 65 then { b with zeros := BitVec.ofNat 2048 v }
  else { b with rows := b.rows.setIfInBounds idx (BitVec.ofNat 1024 v) }

/-- A metadata row 65 outside R229. -/
def badMeta (v : Nat) : Bool := 2 < elem 8 v 128 || 1 < elem 8 v 129 || (elem 8 v 128 != 2 && elem 8 v 129 != 0)

/-- R227. -/
def issueMxldb (o : Op) (c : Core) : Res Core := do
  let (c, x) ← c.sources (.mxldb o)
  let p := c.arr.pair
  let target := !c.arr.active
  schedule (p == 15 || match c.arr.region with
    | some r => r.active == target || (o.mod && adScalar o.op1)
    | none => false)
  let idx := x.b.toWord.toNat
  let isMeta := pairGrouped p && (idx == 64 || idx == 65)
  let n := if isMeta then 256 else pairRowBytes p
  if !(idx < pairKB p || isMeta) then .error (.trap 0x04 x.b.toWord)
  else
    let a := c.adOffset o.op1 x.a
    let v ← if o.mod then do
        checkAlign a 32
        c.loadPool a n
      else do
        c.checkSources (.mxldb o)
        .ok (x.a.toVec.toNat % 2 ^ (8 * n))
    if isMeta && idx = 65 && badMeta v then .error (.trap 0x04 (BitVec.ofNat 64 (bits v (8 * 130 - 1) (8 * 128))))
    else
      let c := { c with arr := c.arr.setBuf target ((c.arr.buf target).write idx v (pairGrouped p)) }
      .ok (c.logItem ⟨3, b2n target, idx, 256, v⟩)

/-- R228. -/
def issueMxshift (o : Op) (c : Core) : Res Core := do
  let (c, _) ← c.sources (.mxshift o)
  let z := zNum o.dst
  schedule (c.arr.pair == 15 || match c.arr.region with
    | some r => r.tile != z
    | none => false)
  let c := c.logItem ⟨4, b2n (!c.arr.active), 0, 0, 0⟩
  .ok { c with arr := { c.arr with active := !c.arr.active, rc := c.arr.rc.setIfInBounds z 0 } }

/-- The selection state stepped once and whether it selects (R421). `cfg` is REFCFG. -/
def refStep (s : BitVec 32) : BitVec 32 := (s >>> 1) ^^^ (if s.getLsbD 0 then 0x80200003 else 0)
def refSelects (cfg : Nat) (strict : Bool) (s : BitVec 32) : Bool :=
  cfg.testBit 31 && s.toNat % 2 ^ (if strict then bits cfg 20 16 else bits cfg 28 24) == 0

/-- Compare the bindings of an abandoned record with the records as they stand (R242). -/
def Core.replayCheck (c : Core) : List Binding → Res Unit
  | [] => .ok ()
  | b :: bs => do
    let r := StageRec.of (c.scrValue b.off 32)
    if r.fgen != b.fgen || r.eph != b.eph then .error (.trap 0x15 (BitVec.ofNat 64 b.off))
    else c.replayCheck bs

def Core.replayPoison (c : Core) : List Binding → Res Unit
  | [] => .ok ()
  | b :: bs => do
    c.checkPoison b.off 32
    c.replayPoison bs

/-- The check an MXOPEN at an address makes of an abandoned record (R242). -/
def Core.replay (c : Core) (pc : Word) : Res Unit :=
  match c.arr.abandoned with
  | none => .ok ()
  | some r => if r.pc = pc then do
      c.replayPoison r.bindings
      c.replayCheck r.bindings
    else .ok ()

/-- The items a region log starts with (R422): the committed half and both buffers. -/
def Core.openItems (c : Core) (z : Nat) : List LogItem :=
  let rows := (c.tile z).committed.toList.map fun v => v.toNat
  let buf (k : Bool) : Nat := packElems 1024 ((c.arr.buf k).rows.toList.map fun r => r.toNat) +
    2 ^ (128 * 1024) * ((c.arr.buf k).scales.toNat + 2 ^ 2048 * (c.arr.buf k).zeros.toNat)
  [⟨1, 0, 0, 16384, packElems 2048 rows⟩, ⟨2, 0, 0, 16896, buf false⟩, ⟨2, 1, 0, 16896, buf true⟩]

/-- R236, R242, R421; `cfg` is REFCFG and `skip` the reason why the audit area cannot take the log, if it cannot. A strict region
keeps its log all the same: that it exceeds the area shows at its commit. -/
def openRegion (cfg : Nat) (skip : Option Nat) (o : Op) (c : Core) : Res Core := do
  let (c, _) ← c.sources (.mxopen o)
  schedule (c.arr.region.isSome || c.arr.pair == 15)
  let pc := c.bundleAddr
  c.replay pc
  let z := zNum o.dst
  let s := refStep c.refState
  let sel := refSelects cfg c.kernel.strict s
  let log := if sel && (skip.isNone || c.kernel.strict) then some (c.openItems z) else none
  let c := { c with
    refState := s
    recs := if sel && !c.kernel.strict then c.recs ++ skip.toList.map (fun why => (0x0061, why, 0, 0)) else c.recs }
  let c := c.setTile z { c.tile z with int := pairInt c.arr.pair }
  let reg : Region := ⟨z, pc, c.step, c.bundleLoops, c.arr.rc.toList.getD z 0, c.arr.active, [], log⟩
  let c := { c with
    arr := { c.arr with region := some reg, abandoned := none }
    brkExempt := if c.brkExempt = BrkExempt.next then .region else c.brkExempt }
  .ok (c.addEvent z .opens)

/-- The open region's tile, or a schedule fault (R230). -/
def Core.inRegionOn (c : Core) (z : Nat) : Bool :=
  match c.arr.region with
  | some r => r.tile == z
  | none => false

/-- A push of one A row at issue (R230, R231), its schedule tested by `pushSchedule`. -/
def Core.pushRow (c : Core) (z : Nat) (a : List Nat) (raw : Nat) : Core :=
  let p := c.arr.pair
  let r := c.arr.rc.toList.getD z 0
  let b := c.arr.buf c.arr.active
  let carry := (c.arr.carry.find? fun x => x.1 == r).map fun x => x.2
  let (terms, carry') := beatTerms p b a carry
  let others := c.arr.carry.filter fun x => x.1 != r
  let c := { c with arr := { c.arr with
    rc := c.arr.rc.setIfInBounds z ((r + 1) % 64)
    carry := match carry' with | some x => others ++ [(r, x)] | none => others } }
  (c.logItem ⟨5, 0, r, 256, raw⟩).addEvent z (.push r (pairInt p) terms)

/-- Schedule faults of a push: no pair, no region on the tile, or a half group out of turn (R224, R230, R231). -/
def Core.pushSchedule (c : Core) (z : Nat) : Res Unit :=
  let b := c.arr.buf c.arr.active
  let full := c.arr.carry.any fun x => x.1 == c.arr.rc.toList.getD z 0
  schedule (c.arr.pair == 15 || !c.inRegionOn z ||
    (pairGrouped c.arr.pair && b.gs == 2 && (if b.half = 0 then full else !full)))

def issueMxpush (o : Op) (c : Core) : Res Core := do
  let (c, x) ← c.sources (.mxpush o)
  let z := zNum o.dst
  c.pushSchedule z
  c.checkSources (.mxpush o)
  let v := x.a.toVec.toNat
  .ok (c.pushRow z (elems (pairABits c.arr.pair) v (pairKB c.arr.pair)) v)

/-- One cell through the down-converter (R82): the exact product with m, rounded into the A format. An INT32 cell of 0 counts as
+0, so a negative m gives -0 (DESIGN CHOICE, log 76). -/
def downConvert (p : Nat) (int : Bool) (m : BitVec 32) (x : Nat) : Nat :=
  let v := (if int then FVal.ofInt (sextN 32 x) else Fmt.f32.val x).mul (Fmt.f32.val m.toNat)
  if pairInt p then wrap (pairABits p) (satRound 0 (pairABits p) false v) else (pairFmt p).round 0 v

def issueMxpushz (o : Op) (c : Core) : Res Core := do
  let (c, x) ← c.sources (.mxpushz o)
  let z := zNum o.dst
  let zs := zNum o.op2
  let p := c.arr.pair
  c.pushSchedule z
  let idx := x.c.toWord.toNat
  if 128 ≤ idx || (64 ≤ idx && !(p == 2 || p == 3)) then .error (.trap 0x04 x.c.toWord)
  else
    let t := c.tile zs
    let r := idx % 64
    c.checkPoison (c.tileOff zs t.committedHalf r) 256
    let cells := elems 32 (t.committed.toList.getD r 0).toNat 64
    let cells := if p = 2 || p = 3 then (cells.drop (32 * (idx / 64))).take 32 else cells
    let a := cells.map (downConvert p t.int c.arr.factor)
    let a := if p = 1 then a ++ List.replicate 64 0 else a
    .ok (c.pushRow z a (packElems (pairABits p) a))

/-- R232. -/
def issueMxdrain (o : Op) (c : Core) : Res Core := do
  let (c, x) ← c.sources (.mxdrain o)
  let z := zNum o.op1
  let idx := x.b.toWord.toNat
  if 63 < idx then .error (.trap 0x04 x.b.toWord)
  else
    let t := c.tile z
    c.checkPoison (c.tileOff z t.committedHalf idx) 256
    .ok (c.issueResult (.mxdrain o) (.vec (t.committed.toList.getD idx 0)))

/-- After its region's commit no fault undoes an event (R237). -/
def AccEvent.settle (e : AccEvent) : AccEvent := { e with inRegion := false }

/-- R237. -/
def issueMxcommit (o : Op) (c : Core) : Res Core := do
  let (c, _) ← c.sources (.mxcommit o)
  let z := zNum o.dst
  schedule (!c.inRegionOn z || !c.arr.carry.isEmpty)
  match c.arr.region with
  | none => .error (.wordTrap 0x05)
  | some r =>
    let log := r.log.map (· ++ [⟨7, 0, 0, 0, 0⟩])
    let c := { c with
      arr := { c.arr with region := none, events := c.arr.events.map AccEvent.settle }
      brkExempt := if c.brkExempt = BrkExempt.region then .none else c.brkExempt }
    .ok (c.addEvent z (.commit r.bindings log c.arr.pair))

/-- R241. -/
def issueMxstage (o : Op) (c : Core) : Res Core := do
  let (c, x) ← c.sources (.mxstage o)
  let a := c.adOffset o.op1 x.a
  match c.arr.region with
  | none => .error (.wordTrap 0x05)
  | some r =>
    schedule (adScalar o.op1 || 4 ≤ r.bindings.length || r.bindings.any fun b => (b.off : Int) == a)
    checkAlign a 32
    let s ← c.stageAt a
    .ok { c with arr := { c.arr with region := some { r with bindings := r.bindings ++ [⟨a.toNat, s.fgen, s.eph⟩] } } }

/-- R234. -/
def issueMxscale (o : Op) (c : Core) : Res Core := do
  let (c, x) ← c.sources (.mxscale o)
  .ok { c with arr := { c.arr with factor := x.a.toWord.setWidth 32 } }

/-- R98, R235. -/
def issueMxq (o : Op) (c : Core) : Res Core := do
  let (c, x) ← c.sources (.mxq o)
  let v : Word := match x.a.toWord.toNat with
    | 0 => BitVec.ofNat 64 c.arr.pair
    | 1 => match c.arr.region with
      | some r => BitVec.ofNat 64 r.tile
      | none => BitVec.allOnes 64
    | 2 => BitVec.ofNat 64 c.arr.events.length
    | _ => match c.arr.region with
      | some r => BitVec.ofNat 64 r.bindings.length
      | none => 0
  .ok (c.issueResult (.mxq o) (.word v))

end Sys2Proof.Machine
end

