-- ==== Sys2Proof/Machine/Reliab.lean ====
section
/-! DEFINITION. What events cause (R409 to R419, R432, R434): counts, frame, channel and core retirement; the logs of audited
regions (R421, R422); claims and the end of a task. -/
namespace Sys2Proof.Machine

/-! ## HBM channels -/

def State.chan (s : State) (q : Nat) : Hchan := s.mem.chan q

def State.setChan (s : State) (x : Hchan) : State := { s with mem := s.mem.setChan x }

/-- The base of the next spare unit (R434). -/
def State.spareUnit (s : State) : Nat := s.hbm.spareBase * 2 ^ 31 + 2 ^ 31 * s.hbm.used

/-- A TYPE 0x0033 record (R435). -/
def State.chanRec (s : State) (q code : Nat) (copied poisoned held : Nat) : State :=
  s.record ⟨3, q, 0x0033, 0, none, code, BitVec.ofNat 64 s.spareUnit, BitVec.ofNat 64 copied, BitVec.ofNat 64 poisoned, BitVec.ofNat 64 held, 0⟩

/-- Why a retirement of channel q is refused, if it is (R434): 1 in progress or not in service, 2 no spare unit. -/
def State.chanRefused (s : State) (q : Nat) : Nat :=
  if s.hbm.phase != 0 || Config.hbmChannels ≤ q || (s.chan q).state != 0 then 1 else if s.hbm.used = s.hbm.count then 2 else 0

/-- The retirement of a channel begins: the fence closes the port to writes, after which the drain begins (R434). -/
def State.retireChan (s : State) (q : Nat) : State :=
  if s.chanRefused q ≠ 0 then
    ({ s with hbm := { s.hbm with err := true } } : State).chanRec q 5 0 0 0
  else
    let s := s.setChan { s.chan q with state := 1 }
    let s := s.chanRec q 1 0 0 0
    { s with hbm := { s.hbm with chan := q, phase := 2 } }

/-! ## Frames (R416) -/

/-- Is the retired-frame table full? -/
def State.framesFull (s : State) : Bool := 4096 ≤ s.mem.frames.length

/-- A frame enters the table, if it has room: CODE 0 threshold, 1 uncorrectable owned sector, 2 host. In host-assisted mode only
the host retires one. -/
def State.retireFrame (s : State) (frame code : Nat) (ctx : Option Nat) : State :=
  if s.mem.frames.contains frame || s.framesFull || (s.host.duty.getLsbD 1 && code != 2) then s
  else ({ s with mem := { s.mem with frames := frame :: s.mem.frames } } : State).record
    ⟨3, channelOf (65536 * frame), 0x0032, 0, ctx, code, BitVec.ofNat 64 (65536 * frame), 0, 0, 0, 0⟩

/-- What the record of an event that asks for a frame's retirement says of it: HOSTACT in host-assisted mode, NOREPAIR when the
table is full. -/
def State.frameFlags (s : State) (frame : Nat) : Nat :=
  if s.mem.frames.contains frame then 0 else if s.host.duty.getLsbD 1 then 2 else if s.framesFull then 8 else 0

/-- A correction counts toward its frame's threshold (R416, R432): its record, and the retirement. -/
def State.countCorrection (s : State) (r : Rec) : State :=
  let f := r.addr.toNat / 65536
  let n := ((s.rel.corrections.find? fun x => x.1 == f).map (·.2)).getD 0 + 1
  let s := { s with rel := { s.rel with corrections := (f, n) :: s.rel.corrections.filter fun x => x.1 != f } }
  if s.rel.pagethr != 0 && s.rel.pagethr ≤ n then (s.record { r with flags := s.frameFlags f }).retireFrame f 0 none else s.record r

/-- An event with what it counts toward: HBM corrections and uncorrectable reads (R432, R434), repairs of a slice's sector, which count
toward no frame (R428), owned dirty sectors (R416), skipped audits (R424). A class-3
event puts the device in the fatal state, in which every context is terminated (R414). -/
def State.emit (s : State) (r : Rec) : State :=
  match r.type with
  | 0x0030 =>
    let x := s.chan r.unum
    (s.setChan { x with ce := min (x.ce + 1) 65535 }).countCorrection r
  | 0x0031 =>
    let x := s.chan r.unum
    let s := s.setChan { x with ue := min (x.ue + 1) 65535 }
    let due := s.hbm.chthr != 0 && s.hbm.chthr ≤ x.ue + 1 && x.state == 0
    if !due then s.record r
    else if s.host.duty.getLsbD 2 then s.record { r with flags := 2 }
    else (s.record { r with flags := if s.chanRefused r.unum = 2 then 8 else 0 }).retireChan r.unum
  | 0x10030 =>
    let x := s.chan r.unum
    (s.setChan { x with ce := min (x.ce + 1) 65535 }).record { r with type := 0x0030 }
  | 0x0020 => s.record { r with flags := s.frameFlags (r.addr.toNat / 65536) }
  | 0x0061 => { s.record r with rel := { (s.record r).rel with skip := min (s.rel.skip + 1) (2 ^ 16 - 1) } }
  | _ =>
    let s := s.record r
    if classOf r.type ≠ 3 then s
    else { s with
      rel := { s.rel with fatal := true }
      mem := { s.mem with doomed := s.mem.doomed ++ s.mem.ctxs.map fun (c : Ctx) => ⟨c.num, r.type, none⟩ } }

/-! ## Cores (R419) -/

/-- The save slots of a context that are free (R378, R383). -/
def State.freeSlot (s : State) (ctx : Nat) : Option Nat :=
  let cap := match s.mem.ctx ctx with | some c => c.savecnt | none => 0
  let used := (s.launch.saved.filter fun x => x.image.ctx == ctx).map (·.slot)
  ((List.range (min cap (used.length + 1))).filter fun i => !used.contains i).head?

/-- Save slots of a context not in use, less those that claimed cores will take. -/
def State.slotsLeft (s : State) (ctx : Nat) : Nat :=
  let cap := match s.mem.ctx ctx with | some c => c.savecnt | none => 0
  let used := (s.launch.saved.filter fun x => x.image.ctx == ctx).length
  let due := (s.launch.claims.filter fun x => (s.coreAt x.victim).ctx == ctx && (s.coreAt x.victim).run != .saving).length
  cap - used - due

/-- The slots that a claim for a retirement may have: it goes ahead of every claim whose save has not begun but for others of its kind
(R419). -/
def State.slotsFirst (s : State) (ctx : Nat) : Nat :=
  let cap := match s.mem.ctx ctx with | some c => c.savecnt | none => 0
  let used := (s.launch.saved.filter fun x => x.image.ctx == ctx).length
  let due := (s.launch.claims.filter fun x => x.by' == .retire && (s.coreAt x.victim).ctx == ctx && (s.coreAt x.victim).run != .saving).length
  cap - used - due

/-- The cores that are pre-empted with a core: its gang, or it alone (R382). -/
def State.mates (s : State) (t : Task) : Nat :=
  match t.gang with
  | some g => (s.launch.tasks.filter fun (x : Task) => x.gang == some g).length
  | none => 1

/-- Claim a core (R378): PREQ is set on it and on the other members of its gang (R382). -/
def State.claimCore (s : State) (k : Nat) (by' : Claimant) : State :=
  let gang := (s.launch.tasks.find? fun t => t.core == k).bind (·.gang)
  let mates := match gang with
    | some g => (s.launch.tasks.filter fun (t : Task) => t.gang == some g).map Task.core
    | none => [k]
  let claim (m : Nat) : Claim := ⟨m, if m = k then by' else .gang (gang.getD 0), false⟩
  let s := { s with launch := { s.launch with claims := s.launch.claims ++ mates.map claim } }
  mates.foldl (fun s m => s.modCore m fun c => { c with preq := true }) s

/-- A task whose dispatch has not happened returns to the work of its unit, as an orphan of one iteration or as a launchable tile
(R325, R326, R419). -/
def State.returnTask (s : State) (t : Task) : State :=
  let s := { s with launch := { s.launch with tasks := s.launch.tasks.filter fun x => x.core != t.core } }
  match t.tile.bind s.tile?, s.spec? t.launch with
  | some x, some p =>
    if x.path == t.path && p.tcfe then s.setTile { x with state := .launchable }
    else
      let n := t.path.length - 1
      let i := t.path.getD n 0
      let dom := if n = 0 then 3 else min (p.level (n - 1)).dom 3
      { s with launch := { s.launch with ranges := s.launch.ranges ++ [⟨t.launch, t.tile, t.path.take n, n, i, i + 1, none, dom, unitOf dom t.core⟩] } }
  | _, _ => s

/-- The retirement of a core begins (R419): 0 bank, 1 Referee, 2 host. Its idle range tasks, and a task that is not dispatched, become
orphans; its task is claimed if its context has a free slot. -/
def State.retireCoreStart (s : State) (k why : Nat) : State :=
  let c := s.coreAt k
  if c.run == .retired || s.rel.retiring.any (fun x => x.1 == k) then s
  else
    let s : State := { s with
      rel := { s.rel with retiring := s.rel.retiring ++ [(k, why)] }
      launch := { s.launch with ranges := s.launch.ranges.map fun r => if r.holder == some k then { r with holder := none } else r } }
    match s.launch.tasks.find? fun t => t.core == k with
    | none => s
    | some t =>
      if !t.begun then s.returnTask t
      else if s.launch.claims.any fun x => x.victim == k then
        { s with launch := { s.launch with claims := s.launch.claims.map fun (x : Claim) => if x.victim == k then { x with by' := .retire } else x } }
      else if s.slotsFirst c.ctx < s.mates t then s
      else s.claimCore k .retire

/-! ## Region logs (R421 to R424) -/

/-- The size of a region log: a header and its items (R422). -/
def logLength (items : List LogItem) : Nat := 64 + (items.map fun x => 8 + (x.len + 31) / 32 * 32).foldl (· + ·) 0
/-- What it takes of the audit area, where logs begin at 64-byte boundaries. -/
def logSpace (n : Nat) : Nat := (n + 63) / 64 * 64

def AuditLog.length (l : AuditLog) : Nat := logLength l.items

/-- The size of the audit area (R424). -/
def State.auditSize (s : State) : Nat := 65536 * s.rel.audsize

/-- The logs of a core that have not reached the area whole: of its open region, and of commits under way. -/
def Core.openLogs (c : Core) : List (List LogItem) :=
  (c.arr.region.bind (·.log)).toList ++
  c.arr.events.filterMap (fun e => match e.act with | .commit _ log _ => log | _ => none) ++ c.audits.map (·.items)

/-- What is taken of the audit area: the logs that are not freed, which happens in commit order, and those being written, but for
those that the area could never hold (R421, R422). -/
def State.auditTaken (s : State) : Nat :=
  (s.rel.logs.map fun e => logSpace e.len).sum +
  (((s.cores.flatMap Core.openLogs).map logLength).filter (· ≤ s.auditSize)).foldl (fun n x => n + logSpace x) 0

/-- An item of a region log: its head and its payload, padded (R422). -/
def LogItem.bytes (x : LogItem) : List Byte :=
  leBytes 1 x.item ++ leBytes 1 x.buffer ++ leBytes 2 x.row ++ leBytes 4 x.len ++ leBytes ((x.len + 31) / 32 * 32) x.payload

/-- Write into the audit area, a ring, from an offset on (R422). -/
def State.putAudit (s : State) (off : Nat) (bs : List Byte) : State :=
  let size := s.auditSize
  let base := bits s.rel.audbase.toNat 63 16 * 65536
  let fit := min bs.length (size - off % size)
  { s with mem := (s.mem.putBelow 0 (base + off % size) (bs.take fit)).putBelow 0 base (bs.drop fit) }

/-- The items that an operation has added to the log of the open region are written into the audit area while the region runs (R421): behind the
logs handed over, and those that other cores are writing (DESIGN CHOICE, log 56). `old` is the core before. A log that the area could
never hold is not written. -/
def State.writeLog (s : State) (old : Core) : State :=
  match s.core.arr.region.bind (·.log) with
  | none => s
  | some l =>
    let was := (old.arr.region.bind (·.log)).getD []
    let others := s.auditTaken - ((s.rel.logs.map fun e => logSpace e.len).sum + logSpace (logLength l))
    if s.auditSize < logLength l then s
    else s.putAudit (s.rel.audTail + others + logLength was) ((l.drop was.length).flatMap LogItem.bytes)

/-- The bytes of a region log (R422). -/
def AuditLog.image (l : AuditLog) (num : Nat) : List Byte :=
  leBytes 4 l.length ++ leBytes 2 l.core ++ leBytes 1 l.pair ++ leBytes 1 (b2n l.int + 2 * b2n l.strict) ++ leBytes 8 num ++
  leBytes 8 l.sig.toNat ++ leBytes 4 l.factor.toNat ++ leBytes 36 0 ++
  l.items.flatMap LogItem.bytes

/-- A committed region's log, for which its items have found room, is complete in the audit area, unless it exceeds it (R421, R422). -/
def State.takeAudit (s : State) (l : AuditLog) : State :=
  let r := s.rel
  let size := s.auditSize
  let num := r.regions
  let s := { s with rel := { s.rel with regions := num + 1 } }
  let s := if l.strict then { s with launch := { s.launch with
      tasks := s.launch.tasks.map fun t => if t.core == l.core then { t with regions := t.regions ++ [num] } else t
      tiles := s.launch.tiles.map fun t =>
        if s.launch.tasks.any (fun x => x.core == l.core && x.tile == some t.id) then { t with regions := t.regions ++ [num] } else t } }
    else s
  if size < l.length then
    let s := s.emit (s.coreRec l.core 0x0061 1 0 0 0)
    if l.strict then { s with rel := { s.rel with verdicts := s.rel.verdicts ++ [(num, 0xFFFE)] } } else s
  else
    let off := r.audTail % size
    let base := bits r.audbase.toNat 63 16 * 65536
    let s := s.putAudit off (l.image num)
    { s with
      rel := { s.rel with logs := s.rel.logs ++ [⟨num, base + off, l.length, l, none, false⟩]
                          audTail := (off + (l.length + 63) / 64 * 64) % size } }

/-! ## Ends of tasks, claims -/

/-- A task ends: nothing of it is left on the core but the pool and what outlives tasks. -/
def Core.endTask (c : Core) : Core :=
  { c with
    run := .idle, pending := [], vars := [], cur := none, act := .none, retiring := false, point := false, raised := none
    stalled := none, cmds := [], intrap := false, preq := false, inrpt := false, loops := [], tls := []
    latches := Latches.empty, shadow := Latches.empty, dq := Vector.replicate 4 [], eq := Vector.replicate 2 [], cq := []
    arr := { c.arr with events := [], region := none, abandoned := none, carry := [] }
    resumed := false, brkExempt := .none, arrived := [], ecHeld := 0, prodTok := 0, leftTok := 0
    fenceWait := false, accessed := false, room := [], loans := [] }

/-- Has the pre-emption of a core's gang begun: is a task of it saved, or being saved? The gang is then pre-empted whole (R382). -/
def State.gangSaving (s : State) (k : Nat) : Bool :=
  match (s.launch.tasks.find? fun t => t.core == k).bind (·.gang) with
  | some g => s.launch.saved.any fun y => y.task.gang == some g
  | none => false

/-- Is a claim still for work that waits (R379), or for a gang that is being pre-empted (R382)? -/
def State.claimStands (s : State) (x : Claim) : Bool :=
  s.gangSaving x.victim || match x.by' with
  | .tile t => match s.tile? t with | some y => y.state == .launchable | none => false
  | .saved id => s.launch.saved.any fun y => y.id == id
  | .suspend => match s.mem.ctx (s.coreAt x.victim).ctx with | some c => c.state == 2 | none => false
  | .retire => s.rel.retiring.any fun y => y.1 == x.victim
  | .gang g => s.launch.gangs.any (fun y => y.id == g) &&
      s.launch.claims.any fun y => y.victim != x.victim && (match y.by' with | .gang _ => false | _ => true) &&
        s.launch.tasks.any fun t => t.core == y.victim && t.gang == some g

/-- Claims whose work is gone, and claims on cores that run no task, are withdrawn: PREQ returns to 0 unless the victim is
being saved (R379), and a point it has passed is none any more (R108). -/
def State.withdraw (s : State) : State :=
  let busy (x : Claim) : Bool := let r := (s.coreAt x.victim).run; r != .idle && r != .retired
  let dead := s.launch.claims.filter fun x => !(s.claimStands x) || !busy x
  let s := { s with launch := { s.launch with claims := s.launch.claims.filter fun x => s.claimStands x && busy x } }
  dead.foldl (fun s x =>
    if s.launch.claims.any fun y => y.victim == x.victim then s
    else s.modCore x.victim fun c => if c.run == .saving then c else { c with preq := false, point := false }) s

/-! ## After a step -/

/-- Has a data bank of a group, other than a retired one, reached the threshold of R195? -/
def State.bankDue (s : State) (c : Core) (g : Nat) : Option Nat :=
  (List.range 8).find? fun j => s.rel.bankthr != 0 && s.rel.bankthr ≤ c.bankUe.toList.getD (8 * g + j) 0 &&
    ((c.group g).state == 0 || j != (c.group g).dbank)

/-- A further bank of a degraded group at the threshold retires the core (R195). -/
def State.checkDegraded (s : State) (k : Nat) : State :=
  let c := s.coreAt k
  if (List.range 12).any fun g => (c.group g).state == 2 && (s.bankDue c g).isSome then s.retireCoreStart k 0 else s

/-- The place of an event among those of one step (R410): what an error causes comes after it, and of events that no other causes
the lower UNIT comes first. -/
def Rec.rank (r : Rec) : Nat :=
  let stage := if [0x0010, 0x0011, 0x0052, 0x0053, 0x0070].contains r.type then 2 else if [0x0025, 0x0050, 0x0051].contains r.type then 1 else 0
  2 ^ 16 * stage + 2 ^ 12 * r.ukind + r.unum

/-- Records in the order of their numbers (R410). -/
def orderRecs (l : List Rec) : List Rec :=
  l.foldl (fun (l : List Rec) r => (l.takeWhile fun x => x.rank ≤ r.rank) ++ r :: (l.dropWhile fun x => x.rank ≤ r.rank)) []

/-- Records of memory and of the cores are numbered (R410). -/
def State.drainRecs (s : State) : State :=
  let mine := s.mem.recs
  let cores := s.cores.flatMap fun c => c.recs.map fun r => s.coreRec c.kid r.1 r.2.1 r.2.2.1 r.2.2.2 0
  let s := { s with mem := { s.mem with recs := [] } }
  if cores.isEmpty then (orderRecs mine).foldl State.emit s
  else
    let ks := (s.cores.filter fun c => !c.recs.isEmpty).map (·.kid)
    ks.foldl State.checkDegraded ((orderRecs (mine ++ cores)).foldl State.emit (s.modCores fun c => { c with recs := [] }))

def State.drainAudits (s : State) : State :=
  let logs := s.cores.flatMap (·.audits)
  if logs.isEmpty then s else logs.foldl State.takeAudit (s.modCores fun c => { c with audits := [] })

end Sys2Proof.Machine
end

