-- ==== Sys2Proof/Machine/Issue.lean ====
section
/-! DEFINITION. Issue: what each slot operation does at its step, before it is known whether its execution stops. -/
namespace Sys2Proof.Machine

/-- An operation that touches its core alone. -/
def onCore (f : Core → Res Core) (s : State) : SRes State := do
  let c ← liftRes (f s.core)
  .ok { s with core := c }

/-- The REFCFG word (R424). -/
def State.refCfg (s : State) : Nat := 2 ^ 31 * b2n s.rel.refEn + 2 ^ 24 * s.rel.refF + 2 ^ 16 * s.rel.refSF

/-- Why the audit area cannot take a log of `own` bytes where so much else of it is taken (R409, R421): 1, the log exceeds it, or 0, it
is full. -/
def State.logSkip (s : State) (own others : Nat) : Option Nat :=
  if s.auditSize < own then some 1 else if s.auditSize < others + logSpace own then some 0 else none

/-- MXOPEN reads the Referee's configuration (R236, R421). The log of a strict region waits for room. -/
def issueMxopen (o : Op) (s : State) : SRes State := do
  let skip := s.logSkip (logLength (s.core.openItems (zNum o.dst))) s.auditTaken
  let t ← onCore (openRegion s.refCfg skip o) s
  if skip = some 0 && t.core.arr.region.any fun r => r.log.isSome then .error (.stall 256 false, none)
  else .ok (t.writeLog s.core)

/-- Room for a further item of n bytes in the log of the open region, if it keeps one: a strict region waits for it, another one drops
its log (R421). -/
def State.logRoom (s : State) (n : Nat) : SRes State :=
  match s.core.arr.region with
  | none => .ok s
  | some r => match r.log with
    | none => .ok s
    | some l =>
      let own := logLength l
      match s.logSkip (own + n) (s.auditTaken - (if own ≤ s.auditSize then logSpace own else 0)) with
      | none => .ok s
      | some why =>
        if s.core.kernel.strict then (if why = 1 then .ok s else .error (.stall 256 false, none))
        else .ok { s with core := { s.core with
          arr := { s.core.arr with region := some { r with log := none } }, recs := s.core.recs ++ [(0x0061, why, 0, 0)] } }

/-- An operation that appends an item with a payload of n bytes to the log of the open region, which is written at once (R421, R422). -/
def logging (n : Nat) (f : Core → Res Core) (s : State) : SRes State := do
  let s ← s.logRoom (8 + n)
  let t ← onCore f s
  .ok (t.writeLog s.core)

/-- What an operation does at its step when its guard holds. A NOP and an event do nothing here. -/
def issue (i : Instr) (s : State) : SRes State :=
  match i with
  | .bra o => onCore (issueBra o) s
  | .brc o => onCore (issueBrc o) s
  | .brcZ o => onCore (issueBrcZ o) s
  | .brq o => onCore (issueBrq o) s
  | .brqN o => onCore (issueBrqN o) s
  | .call o => onCore (issueCall o) s
  | .ret o => onCore (issueRet o) s
  | .loop o => onCore (issueLoop o) s
  | .lbrk o => onCore (issueLbrk o) s
  | .yield o => onCore (issueYield o) s
  | .trap o => onCore (issueTrap o) s
  | .tret o => onCore (issueTret o) s
  | .twait o => onCore (issueTwait o) s
  | .twaitAny o => onCore (issueTwaitAny o) s
  | .tstat o => onCore (issueTstat o) s
  | .fence o => onCore (issueFence o) s
  | .bar o => issueBar o s
  | .bara o => issueBara o s
  | .halt o => onCore (issueHalt o) s
  | .exit o => onCore (issueExit o) s
  | .mfsr o => onCore (issueMfsr o) s
  | .mtsr o => onCore (issueMtsr o) s
  | .bkpt o => onCore (issueBkpt o) s
  | .icinv o => onCore (issueIcinv o) s
  | .add o => onCore (issueAdd o) s
  | .sub o => onCore (issueSub o) s
  | .mul o => onCore (issueMul o) s
  | .mulh o => onCore (issueMulh o) s
  | .div o => onCore (issueDiv o) s
  | .rem o => onCore (issueRem o) s
  | .and o => onCore (issueAnd o) s
  | .or o => onCore (issueOr o) s
  | .xor o => onCore (issueXor o) s
  | .andn o => onCore (issueAndn o) s
  | .shl o => onCore (issueShl o) s
  | .shr o => onCore (issueShr o) s
  | .sra o => onCore (issueSra o) s
  | .rotl o => onCore (issueRotl o) s
  | .fshl o => onCore (issueFshl o) s
  | .fshr o => onCore (issueFshr o) s
  | .clz o => onCore (issueClz o) s
  | .ctz o => onCore (issueCtz o) s
  | .popc o => onCore (issuePopc o) s
  | .min o => onCore (issueMin o) s
  | .max o => onCore (issueMax o) s
  | .cmp o => onCore (issueCmp o) s
  | .sel o => onCore (issueSel o) s
  | .mov o => onCore (issueMov o) s
  | .bfx o => onCore (issueBfx o) s
  | .bfi o => onCore (issueBfi o) s
  | .sext o => onCore (issueSext o) s
  | .zext o => onCore (issueZext o) s
  | .flagop o => onCore (issueFlagop o) s
  | .fadd o => onCore (issueFadd o) s
  | .fsub o => onCore (issueFsub o) s
  | .fmul o => onCore (issueFmul o) s
  | .ffma o => onCore (issueFfma o) s
  | .fmin o => onCore (issueFmin o) s
  | .fmax o => onCore (issueFmax o) s
  | .fcmp o => onCore (issueFcmp o) s
  | .fcvt o => onCore (issueFcvt o) s
  | .icvt o => onCore (issueIcvt o) s
  | .apset o => onCore (issueApset o) s
  | .apget o => onCore (issueApget o) s
  | .ldv o => onCore (issueLdv o) s
  | .ldvt o => onCore (issueLdvt o) s
  | .stv o => onCore (issueStv o) s
  | .stvt o => onCore (issueStvt o) s
  | .ldvu o => onCore (issueLdvu o) s
  | .ldvm o => onCore (issueLdvm o) s
  | .stvb o => onCore (issueStvb o) s
  | .ldm o => onCore (issueLdm o) s
  | .stm o => onCore (issueStm o) s
  | .lds o => onCore (issueLds o) s
  | .sts o => onCore (issueSts o) s
  | .atoml o => onCore (issueAtoml o) s
  | .casl o => onCore (issueCasl o) s
  | .ldg o => issueLdg o s
  | .stg o => issueStg o s
  | .atomg o => issueAtomg o s
  | .casg o => issueCasg o s
  | .sinit o => onCore (issueSinit o) s
  | .swait o => onCore (issueSwait o) s
  | .swaitEmpty o => onCore (issueSwaitEmpty o) s
  | .swaitPtr o => onCore (issueSwaitPtr o) s
  | .sarr o => onCore (issueSarr o) s
  | .sarrEmpty o => onCore (issueSarrEmpty o) s
  | .bankq o => onCore (issueBankq o) s
  | .pldl o => onCore (issuePldl o) s
  | .flushl1 o => onCore (issueFlushl1 o) s
  | .flushl1Inv o => onCore (issueFlushl1Inv o) s
  | .cpy o => issueCpy o s
  | .cpyr o => issueCpyr o s
  | .gath o => issueGath o s
  | .scat o => issueScat o s
  | .pfl o => issuePfl o s
  | .coll o => issueColl o s
  | .expf o => issueExpf o s
  | .expc o => issueExpc o s
  | .whq o => issueWhq o s
  | .topki o => issueTopki o s
  | .hpub o => issueHpub o s
  | .htest o => issueHtest o s
  | .lnch o => issueLnch o s
  | .ggemm o => issueGgemm o s
  | .invl o => issueInvl o s
  | .invlAll o => issueInvlAll o s
  | .flsh o => issueFlsh o s
  | .wptr o => issueWptr o s
  | .vadd u t o => onCore (issueVadd u t o) s
  | .vsub u t o => onCore (issueVsub u t o) s
  | .vmul u t o => onCore (issueVmul u t o) s
  | .vmulh u t o => onCore (issueVmulh u t o) s
  | .vfma u t o => onCore (issueVfma u t o) s
  | .vfms u t o => onCore (issueVfms u t o) s
  | .vfnma u t o => onCore (issueVfnma u t o) s
  | .vmin u t o => onCore (issueVmin u t o) s
  | .vmax u t o => onCore (issueVmax u t o) s
  | .vabs u t o => onCore (issueVabs u t o) s
  | .vneg u t o => onCore (issueVneg u t o) s
  | .vadds u t o => onCore (issueVadds u t o) s
  | .vsubs u t o => onCore (issueVsubs u t o) s
  | .vavg u t o => onCore (issueVavg u t o) s
  | .vcmp u t o => onCore (issueVcmp u t o) s
  | .vshl u t o => onCore (issueVshl u t o) s
  | .vshr u t o => onCore (issueVshr u t o) s
  | .vsra u t o => onCore (issueVsra u t o) s
  | .vfshl u t o => onCore (issueVfshl u t o) s
  | .vfshr u t o => onCore (issueVfshr u t o) s
  | .vclz u t o => onCore (issueVclz u t o) s
  | .vpopc u t o => onCore (issueVpopc u t o) s
  | .vcvt u t o => onCore (issueVcvt u t o) s
  | .vqnt u t o => onCore (issueVqnt u t o) s
  | .vdqnt u t o => onCore (issueVdqnt u t o) s
  | .vdot4 u t o => onCore (issueVdot4 u t o) s
  | .vbcst u t o => onCore (issueVbcst u t o) s
  | .viota u t o => onCore (issueViota u t o) s
  | .vdiv t o => onCore (issueVdiv t o) s
  | .vsqrt t o => onCore (issueVsqrt t o) s
  | .vrcp t o => onCore (issueVrcp t o) s
  | .vrsq t o => onCore (issueVrsq t o) s
  | .vexp2 t o => onCore (issueVexp2 t o) s
  | .vlog2 t o => onCore (issueVlog2 t o) s
  | .vtanh t o => onCore (issueVtanh t o) s
  | .vsigm t o => onCore (issueVsigm t o) s
  | .vand u o => onCore (issueVand u o) s
  | .vor u o => onCore (issueVor u o) s
  | .vxor u o => onCore (issueVxor u o) s
  | .vandn u o => onCore (issueVandn u o) s
  | .vnot u o => onCore (issueVnot u o) s
  | .vsel u o => onCore (issueVsel u o) s
  | .vmov u o => onCore (issueVmov u o) s
  | .vmand u o => onCore (issueVmand u o) s
  | .vmor u o => onCore (issueVmor u o) s
  | .vmnot u o => onCore (issueVmnot u o) s
  | .vmpopc u o => onCore (issueVmpopc u o) s
  | .vmfirst u o => onCore (issueVmfirst u o) s
  | .xperm o => onCore (issueXperm o) s
  | .xpermv o => onCore (issueXpermv o) s
  | .xrot o => onCore (issueXrot o) s
  | .xrotDn o => onCore (issueXrotDn o) s
  | .xzip o => onCore (issueXzip o) s
  | .xzipHi o => onCore (issueXzipHi o) s
  | .xunzip o => onCore (issueXunzip o) s
  | .xunzipOdd o => onCore (issueXunzipOdd o) s
  | .xbnet o => onCore (issueXbnet o) s
  | .xbnld o => onCore (issueXbnld o) s
  | .xcmpr o => onCore (issueXcmpr o) s
  | .xexpd o => onCore (issueXexpd o) s
  | .xbench o => onCore (issueXbench o) s
  | .xdrain o => onCore (issueXdrain o) s
  | .xbcnt o => onCore (issueXbcnt o) s
  | .xbclr o => onCore (issueXbclr o) s
  | .xred t o => onCore (issueXred t o) s
  | .xscan t o => onCore (issueXscan t o) s
  | .xgmax t o => onCore (issueXgmax t o) s
  | .xgmin t o => onCore (issueXgmin t o) s
  | .mxcfg o => onCore (issueMxcfg o) s
  | .mxzero o => logging 0 (issueMxzero o) s
  | .mxzeroAll o => onCore (issueMxzeroAll o) s
  | .mxldb o => logging 256 (issueMxldb o) s
  | .mxopen o => issueMxopen o s
  | .mxpush o => logging 256 (issueMxpush o) s
  | .mxpushz o => logging 256 (issueMxpushz o) s
  | .mxshift o => logging 0 (issueMxshift o) s
  | .mxdrain o => onCore (issueMxdrain o) s
  | .mxcommit o => logging 0 (issueMxcommit o) s
  | .mxstage o => onCore (issueMxstage o) s
  | .mxscale o => onCore (issueMxscale o) s
  | .mxq o => onCore (issueMxq o) s
  | _ => .ok s

end Sys2Proof.Machine
end

