-- ==== Sys2Proof/Machine/Copy.lean ====
section
/-! DEFINITION. Tensors as engines see them (R251, R252, R376, R377) and the copy, gather, scatter and collective engines
(R253 to R260). -/
namespace Sys2Proof.Machine

/-! ## Group formats (R76, R77) -/

def grouped (efmt : Nat) : Bool := 4 ≤ efmt && efmt < 16

/-- A group-quantised format: code bits, G, explicit zero points, groups per unit, offset of the companions. -/
structure GroupFmt where
  cbits : Nat
  g : Nat
  explicit : Bool
  n : Nat
  a : Nat
  deriving DecidableEq, Repr

def GroupFmt.bc (f : GroupFmt) : Nat := f.g * f.cbits / 8
def GroupFmt.be (f : GroupFmt) : Nat := if f.explicit then 4 else 2

def groupFmt (efmt : Nat) : GroupFmt :=
  let explicit : Bool := decide (10 ≤ efmt)
  let k := (if explicit then efmt - 10 else efmt - 4) % 6
  let cbits := if k < 3 then 4 else 8
  let g := 32 * 2 ^ (k % 3)
  let na : Nat × Nat := match explicit, g * cbits / 8 with
    | false, 16 => (3640, 0xE380) | false, 32 => (1927, 0xF0E0) | false, 64 => (992, 0xF800) | false, _ => (504, 0xFC00)
    | true, 16 => (3276, 0xCCC0) | true, 32 => (1820, 0xE380) | true, 64 => (963, 0xF0C0) | true, _ => (496, 0xF800)
  ⟨cbits, g, explicit, na.1, na.2⟩

/-! ## Layout entries (R251, R252) -/

/-- The bytes of an element; an INT4 element has half a byte. -/
def elemBytes : Nat → Nat
  | 0x01 | 0x02 | 0x11 => 2
  | 0x03 | 0x12 => 4
  | 0x13 => 8
  | _ => 1

structure Layout where
  base : Nat
  space : Nat
  efmt : Nat
  rank : Nat
  paged : Bool
  peer : Nat
  shape : List Nat
  stride : List Int
  cpoff : Nat
  deriving DecidableEq, Repr

def Layout.of (b : List Byte) : Layout :=
  { base := field b 0 8, space := field b 8 1, efmt := field b 9 1, rank := field b 0xA 1, paged := (field b 0xB 1).testBit 0
    peer := field b 0xC 2, shape := [0, 1, 2, 3].map fun k => field b (0x10 + 4 * k) 4
    stride := [0, 1, 2].map fun k => sextN 64 (field b (0x20 + 8 * k) 8), cpoff := field b 0x38 4 }

/-- The lowest offset of a field that makes an entry invalid (R252). -/
def layoutFault (b : List Byte) : Option Nat :=
  let l := Layout.of b
  let gr := grouped l.efmt
  let bad : Nat → Bool
    | 0x00 => gr && l.space = 0 && l.base % 65536 != 0
    | 0x08 => !([0, 1, 2, 4, 5].contains l.space)
    | 0x09 => 0x14 < l.efmt
    | 0x0A => l.rank = 0 || 4 < l.rank
    | 0x0B => 2 ≤ field b 0xB 1 || (l.paged && l.space != 0)
    | 0x0C => (if l.space = 2 then 15 else if l.space = 5 then 511 else 0) < l.peer
    | 0x0E => field b 0xE 2 != 0
    | 0x38 => l.cpoff != 0 && !(gr && (l.space = 1 || l.space = 2))
    | 0x3C => field b 0x3C 4 != 0
    | off =>
      if off = 0x10 && gr && l.shape.getD 0 0 % (groupFmt l.efmt).g != 0 then true
      else if 0x10 ≤ off && off < 0x20 && off % 4 = 0 then
        (l.shape.getD ((off - 0x10) / 4) 0 = 0) != decide (l.rank ≤ (off - 0x10) / 4)
      else if 0x20 ≤ off && off < 0x38 && off % 8 = 0 then
        l.stride.getD ((off - 0x20) / 8) 0 != 0 && l.rank ≤ (off - 0x20) / 8 + 1
      else false
  ((List.range 64).filter bad).head?

/-- The sum of the strided coordinates. -/
def Layout.strided (l : Layout) (x : List Nat) : Int :=
  let t (k : Nat) : Int := l.stride.getD (k - 1) 0 * (x.getD k 0 : Int)
  t 1 + t 2 + t 3

/-- Offsets of a paged tensor count from its first byte (R376). -/
def Layout.origin (l : Layout) : Int := if l.paged then 0 else (l.base : Int)

/-- The address of an element of a format that is not grouped, and for INT4 whether it is the high nibble (R252, R65). -/
def Layout.elemAt (l : Layout) (x : List Nat) : Int × Option Bool :=
  let x0 := x.getD 0 0
  if l.efmt = 0x14 then (l.origin + (x0 / 2 : Nat) + l.strided x, some (x0 % 2 = 1))
  else (l.origin + (x0 * elemBytes l.efmt : Nat) + l.strided x, none)

/-- The addresses of the codes and of the companion entry of the group of an element (R77, R252). Spaces 4 and 5 are taken
in units as space 0 (log 36). -/
def Layout.groupAt (l : Layout) (x : List Nat) : Int × Int :=
  let f := groupFmt l.efmt
  let g : Int := (x.getD 0 0 / f.g : Nat) + l.strided x
  if l.space = 1 || l.space = 2 then (l.origin + g * (f.bc : Int), l.origin + (l.cpoff : Int) + g * (f.be : Int))
  else
    let unit := l.origin + 65536 * (g / (f.n : Int))
    let j := g % (f.n : Int)
    (unit + j * (f.bc : Int), unit + (f.a : Int) + j * (f.be : Int))

/-- The bytes of what a copy of equal formats moves at once: an element or a whole group. -/
def Layout.unitLen (l : Layout) : Nat :=
  if grouped l.efmt then (groupFmt l.efmt).bc + (groupFmt l.efmt).be else elemBytes l.efmt

/-- The address of byte b of such a unit. -/
def Layout.byteAt (l : Layout) (x : List Nat) (b : Nat) : Int × Option Bool :=
  if grouped l.efmt then
    let a := l.groupAt x
    let n := (groupFmt l.efmt).bc
    (if b < n then a.1 + (b : Int) else a.2 + ((b - n : Nat) : Int), none)
  else
    let a := l.elemAt x
    (a.1 + (b : Int), a.2)

/-! ## Reading and writing tensors -/

/-- Why a command fails: code and detail. -/
abbrev Fail := Nat × Nat

/-- The generic pointer of an address in the space of an entry; none lies outside its window. -/
def Layout.pointer (l : Layout) (a : Int) : Option Nat :=
  if a < 0 || 2 ^ 60 ≤ a then none
  else
    let n := a.toNat
    match l.space with
    | 2 | 5 => if n < 2 ^ 48 then some (l.space * 2 ^ 60 + l.peer * 2 ^ 48 + n) else none
    | sp => some (sp * 2 ^ 60 + n)

/-- Fill a zero entry of a page list from the context's pool, as one operation: nothing is written where some of it cannot be
(R377). -/
def State.allocPage (s : State) (k ctx : Nat) (entry : Word) : State × Except Fail Nat :=
  let pool := match s.mem.ctx ctx with | some c => c.kvpool | none => 0
  if pool = 0 then (s, .error (0x0020, 2))
  else match s.engRead k ctx (BitVec.ofNat 64 pool) 24 with
    | (s, .error e) => (s, .error (e, 2))
    | (s, .ok h) =>
      let head := field h 0 8
      let cap := field h 0x10 8
      if head = field h 8 8 || cap = 0 then (s, .error (0x0020, 2))
      else match s.engRead k ctx (BitVec.ofNat 64 (pool + 64 + 8 * (head % cap))) 8 with
        | (s, .error e) => (s, .error (e, 2))
        | (s, .ok b) => match s.resolve k ctx entry 8 .write with
          | (s, .error (cause, _)) => (s, .error (codeOf cause, 2))
          | (s, .ok _) => match s.engWrite k ctx (BitVec.ofNat 64 pool) (leBytes 8 (head + 1)) with
            | (s, 0) => ((s.engWrite k ctx entry b).1, .ok (field b 0 8))
            | (s, e) => (s, .error (e, 2))

/-- The generic pointer of an address of a tensor, through its page list, which is read in space 0 and holds device virtual
addresses (R252, R376, R377). -/
def State.tensorPtr (s : State) (k ctx : Nat) (l : Layout) (a : Int) (writes : Bool) (operand : Nat) : State × Except Fail Word :=
  if !l.paged then
    match l.pointer a with
    | some p => (s, .ok (BitVec.ofNat 64 p))
    | none => (s, .error (0x0022, operand))
  else if a < 0 then (s, .error (0x0022, operand))
  else
    let e := a.toNat / 65536
    let slot := BitVec.ofNat 64 (l.base + 8 * e)
    if 2 ^ 60 ≤ l.base + 8 * e then (s, .error (0x0022, operand))
    else match s.engRead k ctx slot 8 with
    | (s, .error c) => (s, .error (c, operand))
    | (s, .ok b) =>
      let v := field b 0 8
      let (s, r) := if v ≠ 0 then (s, .ok v) else if writes then s.allocPage k ctx slot else (s, .error (0x0020, operand))
      (s, match r with
        | .error x => .error x
        | .ok v =>
          if v % 65536 ≠ 0 then .error (0x0031, 2 ^ 12 * operand + e % 4096)
          else if 2 ^ 60 ≤ v then .error (0x0022, operand)
          else .ok (BitVec.ofNat 64 (v + a.toNat % 65536)))

/-- A page accepts the formats of R251 and R78. One that is reached through the aperture of this package's own rank (R397) is not checked
(DESIGN CHOICE, log 100). -/
def pageAccepts (efmt : Nat) : Range → Bool
  | .mem ts => ts.all fun t => t.pfmt == 0 || t.pfmt == efmt
  | _ => true

/-- Does an entry's format meet only pages that accept it at n bytes? Faults are left to the access itself. -/
def State.acceptsAt (s : State) (k ctx : Nat) (l : Layout) (p : Word) (n : Nat) (a : Access) : Bool :=
  match s.resolve k ctx p n a with
  | (_, .ok r) => pageAccepts l.efmt r
  | _ => true

/-- At most 65,536 bytes of a tensor from an address on, as pieces that one entry of a page list places: address and length (R252, R376). -/
def Layout.pieces (l : Layout) (a : Int) (n : Nat) : List (Int × Nat) :=
  let room := 65536 - (a % 65536).toNat
  if l.paged && room < n then [(a, room), (a + room, n - room)] else [(a, n)]

/-- Read bytes that one entry places. -/
def State.tensorPiece (s : State) (k ctx : Nat) (l : Layout) (operand : Nat) (writes : Bool) (a : Int) (n : Nat) : State × Except Fail (List Byte) :=
  match s.tensorPtr k ctx l a writes operand with
  | (s, .error x) => (s, .error x)
  | (s, .ok p) =>
    if !s.acceptsAt k ctx l p n .read then (s, .error (0x0031, 2 ^ 12 * operand + 0x09))
    else match s.engRead k ctx p n with
      | (s, .error c) => (s, .error (c, operand))
      | (s, .ok b) => (s, .ok b)

def State.tensorPieces (s : State) (k ctx : Nat) (l : Layout) (operand : Nat) (writes : Bool) : List (Int × Nat) → State × Except Fail (List Byte)
  | [] => (s, .ok [])
  | (a, n) :: rest =>
    match s.tensorPiece k ctx l operand writes a n with
    | (s, .error x) => (s, .error x)
    | (s, .ok b) => match s.tensorPieces k ctx l operand writes rest with
      | (s, .error x) => (s, .error x)
      | (s, .ok bs) => (s, .ok (b ++ bs))

/-- Read n bytes of a tensor; `writes` says that they are read to be written, so that a page may be allocated (R377). -/
def State.tensorRead (s : State) (k ctx : Nat) (l : Layout) (operand : Nat) (a : Int) (n : Nat) (writes : Bool) : State × Except Fail (List Byte) :=
  s.tensorPieces k ctx l operand writes (l.pieces a n)

/-- Write bytes of a tensor that one entry places. -/
def State.tensorWrite (s : State) (k ctx : Nat) (l : Layout) (a : Int) (bs : List Byte) : State × Option Fail :=
  match s.tensorPtr k ctx l a true 2 with
  | (s, .error x) => (s, some x)
  | (s, .ok p) =>
    if !s.acceptsAt k ctx l p bs.length .write then (s, some (0x0031, 0x2009))
    else match s.engWrite k ctx p bs with
      | (s, 0) => (s, none)
      | (s, c) => (s, some (c, 2))

/-- The bytes of a place as they stand: the nibble of an INT4 element as one byte. -/
def pickNibble (half : Option Bool) (b : List Byte) : List Byte :=
  match half with
  | none => b
  | some hi => [BitVec.ofNat 8 (field b 0 1 / (if hi then 16 else 1) % 16)]

/-- Read a place of a source tensor. -/
def State.placeRead (s : State) (k ctx : Nat) (l : Layout) (operand : Nat) (p : Int × Option Bool) (n : Nat) : State × Except Fail (List Byte) :=
  match s.tensorRead k ctx l operand p.1 n false with
  | (s, .error x) => (s, .error x)
  | (s, .ok b) => (s, .ok (pickNibble p.2 b))

/-! ## Source units (R245)

A copy reads each aligned 8-byte unit of its source once, so that a store it races with is seen whole or not at all. -/

/-- A place by what is stored there, whatever name or key it is reached by. -/
def Place.spot : Place → Nat × Nat × Nat
  | .pool k off => (0, k, off)
  | .dev t => (1, t.kind, t.addr)
  | .peer pkg off => (2, pkg, off)

/-- The spot a pointer names; one at fault is nowhere. -/
def State.spotOf (s : State) (k ctx q : Nat) (a : Access) : Nat × Nat × Nat :=
  match (s.placeByte k ctx q a).2 with
  | .ok p => p.spot
  | .error _ => (3, 0, 0)

/-- A spot n bytes on. -/
def spotPlus (x : Nat × Nat × Nat) (n : Nat) : Nat × Nat × Nat := (x.1, x.2.1, x.2.2 + n)

/-- The n units from number u on, read if they are not among those read. -/
def State.readUnits (s : State) (k ctx : Nat) (us : List SrcUnit) : Nat → Nat → State × Except Nat (List SrcUnit)
  | _, 0 => (s, .ok us)
  | u, n + 1 =>
    if us.any fun x => x.ptr == u then s.readUnits k ctx us (u + 1) n
    else match s.engRead k ctx (BitVec.ofNat 64 (8 * u)) 8 with
      | (s, .error c) => (s, .error c)
      | (s, .ok b) => s.readUnits k ctx (⟨u, s.spotOf k ctx (8 * u) .read, BitVec.ofNat 64 (leValue b)⟩ :: us) (u + 1) n

/-- The byte at a pointer among the units read, and its spot. -/
def unitByte (us : List SrcUnit) (q : Nat) : Byte × (Nat × Nat × Nat) :=
  match us.find? fun x => x.ptr == q / 8 with
  | some x => ((x.val >>> (8 * (q % 8))).setWidth 8, spotPlus x.spot (q % 8))
  | none => (0, (3, 0, 0))

/-- What a read of the source gives: the units read by now, the bytes, and their spots. -/
structure SrcRead where
  us : List SrcUnit
  bytes : List Byte
  spots : List (Nat × Nat × Nat)

/-- Read bytes of a source tensor that one entry places, through their units. -/
def State.sourcePiece (s : State) (k ctx : Nat) (l : Layout) (us : List SrcUnit) (a : Int) (n : Nat) : State × Except Fail SrcRead :=
  match s.tensorPtr k ctx l a false 1 with
  | (s, .error x) => (s, .error x)
  | (s, .ok p) =>
    let q := p.toNat
    if !s.acceptsAt k ctx l p n .read then (s, .error (0x0031, 0x1009))
    else match s.readUnits k ctx us (q / 8) ((q + n - 1) / 8 - q / 8 + 1) with
      | (s, .error c) => (s, .error (c, 1))
      | (s, .ok us) =>
        let bs := (List.range n).map fun i => unitByte us (q + i)
        (s, .ok ⟨us, bs.map (·.1), bs.map (·.2)⟩)

def State.sourcePieces (s : State) (k ctx : Nat) (l : Layout) (us : List SrcUnit) : List (Int × Nat) → State × Except Fail SrcRead
  | [] => (s, .ok ⟨us, [], []⟩)
  | (a, n) :: rest =>
    match s.sourcePiece k ctx l us a n with
    | (s, .error e) => (s, .error e)
    | (s, .ok r) => match s.sourcePieces k ctx l r.us rest with
      | (s, .error e) => (s, .error e)
      | (s, .ok q) => (s, .ok ⟨q.us, r.bytes ++ q.bytes, r.spots ++ q.spots⟩)

/-- Read n bytes of a source tensor through its units. -/
def State.sourceRead (s : State) (k ctx : Nat) (l : Layout) (us : List SrcUnit) (a : Int) (n : Nat) : State × Except Fail SrcRead :=
  s.sourcePieces k ctx l us (l.pieces a n)

/-! ## The shape of a command (R253, R254, R257, R258) -/

/-- What is done with an element: equal formats copied, dequantised, or reduced. -/
inductive CopyMode where
  | copy | dequant | reduce
  deriving DecidableEq, Repr

/-- The formats that reducing copies and collectives combine, as element types (R257). -/
def redType : Nat → Option ElemTy
  | 0x01 => some .bf16
  | 0x02 => some .f16
  | 0x03 => some .f32
  | 0x12 => some .i32
  | 0x13 => some .i64
  | _ => none

def copyMode (k : CmdKind) (sl dl : Layout) : Option CopyMode :=
  if k = .cpyr then (if sl.efmt = dl.efmt && (redType sl.efmt).isSome then some .reduce else none)
  else if sl.efmt = dl.efmt then some .copy
  else if grouped sl.efmt && [1, 2, 3].contains dl.efmt && (dl.space = 1 || dl.space = 2) then some .dequant
  else none

def Cmd.srcL (x : Cmd) : Layout := Layout.of x.src
def Cmd.dstL (x : Cmd) : Layout := Layout.of x.dst
def Cmd.mode (x : Cmd) : CopyMode := (copyMode x.kind x.srcL x.dstL).getD .copy
def Cmd.sorg (x : Cmd) (k : Nat) : Nat := field x.desc (0x10 + 4 * k) 4
def Cmd.dorg (x : Cmd) (k : Nat) : Nat := field x.desc (0x20 + 4 * k) 4
def Cmd.box (x : Cmd) (k : Nat) : Nat := field x.desc (0x30 + 4 * k) 4
def Cmd.slices (x : Cmd) : Bool := x.kind == .gath || x.kind == .scat
/-- The outermost dimension of the side that an index selects (R258). -/
def Cmd.outer (x : Cmd) : Nat := (if x.kind = .scat then x.dstL.rank else x.srcL.rank) - 1

/-- The list positions that deliver something, with their indices. A scatter skips the index of all ones (R258). -/
def Cmd.entries (x : Cmd) : List (Nat × Nat) :=
  let all := (List.range (x.list.length / 4)).map fun i => (i, field x.list (4 * i) 4)
  if x.kind = .scat then all.filter fun e => e.2 != 0xFFFFFFFF else all

/-- Does a command move whole groups? -/
def Cmd.wholeGroups (x : Cmd) : Bool := x.mode == .copy && grouped x.dstL.efmt

/-- The extents of the box in units. -/
def Cmd.extents (x : Cmd) : List Nat :=
  [0, 1, 2, 3].map fun k =>
    if x.slices && k = x.outer then 1
    else if k = 0 && x.wholeGroups then (x.box 0 + (groupFmt x.dstL.efmt).g - 1) / (groupFmt x.dstL.efmt).g
    else x.box k

/-- Units of one box, and of the whole command. -/
def Cmd.perBox (x : Cmd) : Nat := x.extents.foldl (· * ·) 1
def Cmd.unitCount (x : Cmd) : Nat := if x.slices then x.entries.length * x.perBox else x.perBox
/-- Positions of one unit: its bytes. -/
def Cmd.perUnit (x : Cmd) : Nat := x.dstL.unitLen
def Cmd.positions (x : Cmd) : Nat := x.unitCount * x.perUnit

/-- Coordinates of unit u in box order, x0 fastest. -/
def Cmd.boxCoord (x : Cmd) (u : Nat) : List Nat :=
  let e := x.extents
  let d (k : Nat) : Nat := max 1 (e.getD k 1)
  let x0 := u % d 0
  [if x.wholeGroups then x0 * (groupFmt x.dstL.efmt).g else x0, u / d 0 % d 1, u / (d 0 * d 1) % d 2, u / (d 0 * d 1 * d 2) % d 3]

/-- One unit: source coordinates (none is the zero slice of a gather), destination coordinates, list position. -/
def Cmd.unit (x : Cmd) (u : Nat) : Option (List Nat) × List Nat × Nat :=
  let r := x.outer
  let c := x.boxCoord (u % max 1 x.perBox)
  let e := x.entries.getD (u / max 1 x.perBox) (0, 0)
  let side (org : Nat → Nat) (extra : Nat) : List Nat :=
    [0, 1, 2, 3].map fun k => org k + c.getD k 0 + (if x.slices && k = r then extra else 0)
  match x.kind with
  | .gath => (if e.2 = 0xFFFFFFFF then none else some (side x.sorg e.2), side x.dorg e.1, e.1)
  | .scat => (some (side x.sorg e.1), side x.dorg e.2, e.1)
  | _ => (some (side x.sorg 0), side x.dorg 0, 0)

/-- Does a coordinate of dimension k lie within a shape? A dimension that the entry does not use has extent 1. -/
def Layout.holds (l : Layout) (k c : Nat) : Bool := c < (if k < l.rank then l.shape.getD k 0 else 1)

/-- A slice beyond the shape of its side fails at its list position (R258). -/
def Cmd.sliceBad (x : Cmd) (u : Nat) : Bool :=
  let r := x.outer
  let (a, b, _) := x.unit u
  x.slices && !((match a with | some c => x.srcL.holds r (c.getD r 0) | none => true) && x.dstL.holds r (b.getD r 0))

/-- The checks made when a command starts, after its entries are read (R253, R254, R257): the failure, if any. -/
def Cmd.startFault (x : Cmd) : Option Fail :=
  match copyMode x.kind x.srcL x.dstL with
  | none => some (0x0031, 0x2009)
  | some mode =>
    let f := groupFmt x.srcL.efmt
    let gr := grouped x.srcL.efmt && (mode == .copy || (mode == .dequant && f.explicit))
    let box0 := if x.slices && x.outer = 0 then 1 else x.box 0
    if gr && x.sorg 0 % f.g != 0 then some (0x0031, 0x1010)
    else if gr && box0 % f.g != 0 then some (0x0031, 0x1030)
    else if gr && mode == .copy && x.dorg 0 % f.g != 0 then some (0x0031, 0x2020)
    else
      let skip (k : Nat) : Bool := x.slices && k = x.outer
      let beyond (l : Layout) (org : Nat → Nat) (k : Nat) : Bool := !skip k && !l.holds k (org k + x.box k - 1)
      match ([0, 1, 2, 3].filter fun k => beyond x.srcL x.sorg k || beyond x.dstL x.dorg k).head? with
      | none => none
      | some k => some (0x0031, if beyond x.srcL x.sorg k then 0x1010 + 4 * k else 0x2020 + 4 * k)

/-! ## Delivery (R254, R255, R257) -/

/-- The dequantised value of a code (R78). A difference of 0 counts as +0, so a negative scale gives -0 (DESIGN CHOICE, log
76). -/
def dequantise (efmt s q z : Nat) : Nat :=
  let f := if efmt = 1 then Fmt.bf16 else if efmt = 2 then Fmt.f16 else Fmt.f32
  f.round 0 ((Fmt.f16.val s).mul (FVal.ofInt ((q : Int) - (z : Int))))

/-- The new bytes of a unit, read whole, with what the source gave for them. -/
def State.copyValue (s : State) (k ctx : Nat) (x : Cmd) (src : Option (List Nat)) (dst : List Nat) : State × Except Fail SrcRead :=
  let sl := x.srcL
  let dl := x.dstL
  let n := elemBytes dl.efmt
  match src with
  | none => (s, .ok ⟨x.srcUnits, List.replicate x.perUnit 0, []⟩)
  | some c =>
    match x.mode with
    | .copy =>
      let (p, half) := sl.byteAt c 0
      (match s.sourceRead k ctx sl x.srcUnits p (if grouped sl.efmt then (groupFmt sl.efmt).bc else n) with
        | (s, .error e) => (s, .error e)
        | (s, .ok r) =>
          if !grouped sl.efmt then (s, .ok { r with bytes := pickNibble half r.bytes })
          else match s.sourceRead k ctx sl r.us (sl.groupAt c).2 (groupFmt sl.efmt).be with
            | (s, .error e) => (s, .error e)
            | (s, .ok m) => (s, .ok ⟨m.us, r.bytes ++ m.bytes, r.spots ++ m.spots⟩))
    | .dequant =>
      let f := groupFmt sl.efmt
      let (code, comp) := sl.groupAt c
      let i := c.getD 0 0 % f.g
      let at' : Int × Option Bool := if f.cbits = 4 then (code + (i / 2 : Nat), some (i % 2 = 1)) else (code + (i : Int), none)
      match s.sourceRead k ctx sl x.srcUnits at'.1 1 with
      | (s, .error e) => (s, .error e)
      | (s, .ok q) => match s.sourceRead k ctx sl q.us comp f.be with
        | (s, .error e) => (s, .error e)
        | (s, .ok m) =>
          let z := if f.explicit then field m.bytes 2 1 else if f.cbits = 4 then 8 else 128
          let v := dequantise dl.efmt (field m.bytes 0 2) (leValue (pickNibble at'.2 q.bytes)) z
          (s, .ok ⟨m.us, leBytes n v, q.spots ++ m.spots⟩)
    | .reduce =>
      match s.sourceRead k ctx sl x.srcUnits (sl.elemAt c).1 n with
      | (s, .error e) => (s, .error e)
      | (s, .ok v) => match s.tensorRead k ctx dl 2 (dl.elemAt dst).1 n true with
        | (s, .error e) => (s, .error e)
        | (s, .ok d) =>
          let t := (redType dl.efmt).getD .i32
          let new := redElem t false (bits (field x.desc 0x40 8) 42 40) (leValue d) (leValue v.bytes)
          (s, .ok { v with bytes := leBytes n new })

/-- The place of position p in the destination. -/
def Cmd.target (x : Cmd) (p : Nat) : Int × Option Bool :=
  let (_, d, _) := x.unit (p / x.perUnit)
  x.dstL.byteAt d (p % x.perUnit)

/-- The bytes that position p adds to those of a command: the second nibble of a byte adds none (R255). -/
def Cmd.bytesAt (x : Cmd) (p : Nat) : Nat :=
  if x.dstL.efmt = 0x14 && p ≠ 0 && (x.target p).1 == (x.target (p - 1)).1 then 0
  else 1

/-- The bytes of a command (R255). -/
def Cmd.bytes (x : Cmd) : Nat :=
  if x.dstL.efmt = 0x14 then ((List.range x.positions).map x.bytesAt).foldl (· + ·) 0 else x.positions

/-- The positions from p on, at most n, that lie in one 32-byte sector. -/
def Cmd.run (x : Cmd) (sector : Int) (p : Nat) : Nat → List Nat
  | 0 => []
  | n + 1 =>
    if p < x.positions && (x.target p).1 / 32 == sector && !x.sliceBad (p / x.perUnit) then
      p :: x.run sector (p + 1) n
    else []

/-- The bytes to write, lowest mask first: address, mask, value. Two nibbles of one byte are one write. -/
abbrev ByteWrite := Int × Nat × Nat

def addByte (acc : List ByteWrite) (a : Int) (m v : Nat) : List ByteWrite :=
  match acc with
  | (b, m', v') :: rest => if b = a then (a, m ||| m', (v' &&& (255 - m)) ||| v) :: rest else (a, m, v) :: acc
  | [] => [(a, m, v)]

/-- The writes of bytes at a place. -/
def addPlace (acc : List ByteWrite) (p : Int × Option Bool) (bs : List Byte) : List ByteWrite :=
  match p.2 with
  | some hi => addByte acc p.1 (if hi then 0xF0 else 0x0F) (leValue bs % 16 * (if hi then 16 else 1))
  | none => (bs.foldl (fun (r : List ByteWrite × Int) (b : Byte) => (addByte r.1 r.2 255 b.toNat, r.2 + 1)) (acc, p.1)).1

/-- Read the new values of a run of positions; the writes come out in reverse order. A unit is read whole at its first position, and the
run ends before one whose source, or for a reduction whose destination, the run itself writes, since units are copied one after the
other (R254, R257); `home` is the spot of an address of the destination. A reduced element is written whole with its first byte, for its
update is not divided. The command comes out with the units read, and the positions of the run that are left. -/
def State.gatherRun (s : State) (k ctx : Nat) (home : Int → Nat × Nat × Nat) (x : Cmd) (acc : List ByteWrite) :
    List Nat → State × Except Fail (Cmd × List ByteWrite × List Nat)
  | [] => (s, .ok (x, acc, []))
  | p :: ps =>
    let t := x.target p
    let reduce := x.mode == .reduce
    if p % x.perUnit ≠ 0 then
      s.gatherRun k ctx home { x with ahead := x.ahead.drop 1 } (if reduce then acc else addPlace acc t (x.ahead.take 1)) ps
    else
      let (src, dst, _) := x.unit (p / x.perUnit)
      match s.copyValue k ctx x src dst with
      | (s, .error e) => (s, .error e)
      | (s, .ok r) =>
        if acc.any fun w => r.spots.contains (home w.1) || (reduce && t.1 ≤ w.1 && w.1 < t.1 + (x.perUnit : Int)) then (s, .ok (x, acc, p :: ps))
        else s.gatherRun k ctx home { x with srcUnits := r.us, ahead := r.bytes.drop 1 } (addPlace acc t (if reduce then r.bytes else r.bytes.take 1)) ps

/-- Fill the bytes of which only a nibble is written, from the bytes already made, the latest first, or from memory. -/
def State.fillRun (s : State) (k ctx : Nat) (l : Layout) (made : List (Int × Byte)) : List ByteWrite → State × Except Fail (List (Int × Byte))
  | [] => (s, .ok made.reverse)
  | (a, m, v) :: rest =>
    let (s, old) : State × Except Fail (List Byte) :=
      if m = 255 then (s, .ok [0])
      else match made.find? fun w => w.1 == a with
        | some w => (s, .ok [w.2])
        | none => s.tensorRead k ctx l 2 a 1 true
    match old with
    | .error e => (s, .error e)
    | .ok b => s.fillRun k ctx l ((a, BitVec.ofNat 8 ((leValue b &&& (255 - m)) ||| v)) :: made) rest

/-- Bytes at rising addresses as one write each, cut at multiples of `cut`. -/
def segments (cut : Nat) : List (Int × Byte) → List (Int × List Byte)
  | [] => []
  | (a, b) :: rest =>
    match segments cut rest with
    | (c, bs) :: more => if c = a + 1 && c % (cut : Int) ≠ 0 then (a, b :: bs) :: more else (a, [b]) :: (c, bs) :: more
    | [] => [(a, [b])]

/-- The spot of an address of the destination. -/
def State.homeOf (s : State) (k ctx : Nat) (l : Layout) (a : Int) : Nat × Nat × Nat :=
  match (s.tensorPtr k ctx l a true 2).2 with
  | .error _ => (4, 0, 0)
  | .ok p => s.spotOf k ctx p.toNat .write

/-- The same of every address: the addresses of the sector of `a` lie together. -/
def State.homes (s : State) (k ctx : Nat) (l : Layout) (a : Int) : Int → Nat × Nat × Nat :=
  let x := s.homeOf k ctx l a
  fun b => if b / 32 = a / 32 then (x.1, x.2.1, ((x.2.2 : Int) + (b - a)).toNat) else s.homeOf k ctx l b

/-- The units read that a write at these spots has changed are no longer known. -/
def Cmd.forget (x : Cmd) (spots : List (Nat × Nat × Nat)) : Cmd :=
  { x with srcUnits := x.srcUnits.filter fun u =>
      !spots.any fun y => y.1 == u.spot.1 && y.2.1 == u.spot.2.1 && u.spot.2.2 ≤ y.2.2 && y.2.2 < u.spot.2.2 + 8 }

/-! ### Stripes that a transfer covers (R187) -/

/-- The core whose pool a layout entry names, for a command of core k. -/
def Layout.poolOf (l : Layout) (k : Nat) : Option Nat :=
  if l.space = 1 then some k else if l.space = 2 then some (k / 16 * 16 + l.peer % 16) else none

/-- The runs of destination bytes that a command writes whole, from and to: those of each row of its box along dimension 0. -/
def Cmd.rows (x : Cmd) : List (Int × Int) :=
  let n := max 1 (x.extents.getD 0 1)
  (List.range (x.unitCount / n)).flatMap fun r =>
    let (_, d, _) := x.unit (r * n)
    if x.wholeGroups then
      let (codes, comp) := x.dstL.groupAt d
      let f := groupFmt x.dstL.efmt
      [(codes, codes + (n * f.bc : Nat)), (comp, comp + (n * f.be : Nat))]
    else
      let a := (x.dstL.elemAt d).1
      let x0 := d.getD 0 0
      if x.dstL.efmt = 0x14 then [(a + (x0 % 2 : Nat), a - (x0 / 2 : Nat) + ((x0 + n) / 2 : Nat))]
      else [(a, a + (n * elemBytes x.dstL.efmt : Nat))]

/-- Runs in rising order, joined where they meet. -/
def joinRuns (l : List (Int × Int)) : List (Int × Int) :=
  (l.mergeSort fun x y => x.1 ≤ y.1).foldr (fun r acc => match acc with
    | (a, b) :: rest => if a ≤ r.2 then (r.1, max r.2 b) :: rest else r :: acc
    | [] => [r]) []

/-- The stripes of a pool that a command covers, none of them written yet. -/
def Cmd.covers (k : Nat) (x : Cmd) : List (Nat × Nat) :=
  if (x.dstL.poolOf k).isNone then []
  else (joinRuns x.rows).flatMap fun r =>
    let lo := (r.1.toNat + 255) / 256
    (List.range (r.2.toNat / 256 - lo)).map fun i => (lo + i, 0)

def Cmd.covered (x : Cmd) (a : Int) : Bool := x.cover.any fun y => y.1 == a.toNat / 256

/-- Write bytes of a sector of a stripe that the command covers. -/
def State.coverWrite (s : State) (k ctx : Nat) (l : Layout) (a : Int) (bs : List Byte) : State × Option Fail :=
  match s.tensorPtr k ctx l a true 2 with
  | (s, .error x) => (s, some x)
  | (s, .ok p) => match s.resolve k ctx p bs.length .write with
    | (s, .error (cause, _)) => (s, some (codeOf cause, 2))
    | (s, .ok (.pool j off n)) =>
      if (s.coreAt j).holds off n then (s, some (heldCode, 2)) else (s.modCore j fun c => c.coverPut off bs, none)
    | (s, .ok _) => s.tensorWrite k ctx l a bs

def State.writeSegments (s : State) (k ctx : Nat) (l : Layout) (covered : Int → Bool) : List (Int × List Byte) → State × Option Fail
  | [] => (s, none)
  | (a, bs) :: rest =>
    match if covered a then s.coverWrite k ctx l a bs else s.tensorWrite k ctx l a bs with
    | (s, some e) => (s, some e)
    | (s, none) => s.writeSegments k ctx l covered rest

/-- Bytes at an address have been written. Once every byte of a stripe that the command covers is, that was a full-stripe write. -/
def State.noteCover (s : State) (k : Nat) (x : Cmd) (a : Int) (n : Nat) : State × Cmd :=
  match x.dstL.poolOf k, x.cover.find? fun y => y.1 == a.toNat / 256 with
  | some j, some y =>
    let mask := y.2 ||| ((2 ^ n - 1) * 2 ^ (a.toNat % 256))
    let x : Cmd := { x with cover := x.cover.map fun z => if z.1 == y.1 then (y.1, mask) else z }
    (if mask = 2 ^ 256 - 1 then s.modCore j fun c => c.noteStripe y.1 else s, x)
  | _, _ => (s, x)

/-! ### Races (R245, R271, R300) -/

/-- A command writes bytes of a unit that holds `r.old`: the races of the unit's memory after it, and the bytes of the unit that it writes
again, because something has been written among those that it had still to write (R245, R271). `acquired` tells what the sequencer has
acquired. -/
def raceDelivered (acquired : Nat) (again : Bool) (rs : List Race) (r : Race) : List Race × BitVec 8 :=
  let own (x : Race) : Bool := x.core == r.core && x.cmd == r.cmd && x.kind == r.kind && x.unit == r.unit
  let was := rs.find? own
  let more := match was with | some x => if x.struck && again then x.mask &&& ~~~r.mask else 0 | none => 0
  let strike (x : Race) : Race := if x.kind == r.kind && x.unit == r.unit && (r.mask ||| more) &&& ~~~x.mask != 0 then { x with struck := true } else x
  let now : Race := match was with
    | none => r
    | some x => { r with
        mask := r.mask ||| x.mask
        new := setUnit x.new (((List.range 8).filter fun j => r.mask.getLsbD j).map fun j => ((r.kind, j), unitByteOf r.new j))
        old := if x.live && acquired < x.pos && !x.struck then x.old else r.old }
  (now :: (rs.filter fun x => !own x).map strike, more)

/-- The same for the unit at an address of a destination: the bytes that are written again. A unit that cannot be read is in no race. -/
def State.raceUnit (s : State) (k ctx : Nat) (x : Cmd) (pos : Nat) (ws : List (Int × Byte)) (a : Int) : State × List (Int × Byte) :=
  match (s.tensorPtr k ctx x.dstL a true 2).2 with
  | .error _ => (s, [])
  | .ok p =>
    let mine := ws.filter fun w => w.1 / 8 == a / 8
    let locs := mine.map fun w => ((0, (w.1 - a).toNat), w.2)
    let mask := BitVec.ofNat 8 (((List.range 8).filter fun (j : Nat) => mine.any fun w => w.1 == a + (j : Int)).foldl (fun n j => n + 2 ^ j) 0)
    let acq := ((s.coreAt k).acquired.toList.getD x.chan 0).toNat
    let go (kind unit : Nat) (old : List Byte) (rs : List Race) : List Race × List (Int × Byte) :=
      let (rs', more) := raceDelivered acq (x.mode != .reduce) rs
        ⟨k, x.id, x.chan, pos, kind, unit, BitVec.ofNat 64 (leValue old), setUnit 0 locs, mask, true, false⟩
      let kept := match rs.find? fun r => r.core == k && r.cmd == x.id && r.kind == kind && r.unit == unit with | some r => r.new | none => 0
      (rs', ((List.range 8).filter fun j => more.getLsbD j).map fun (j : Nat) => (a + (j : Int), unitByteOf kept j))
    match s.spotOf k ctx p.toNat .write, (s.engRead k ctx p 8).2 with
    | (0, j, off), .ok b =>
      let (rs, more) := go 3 (off / 8) b (s.coreAt j).races
      (s.modCore j fun c => { c with races := rs }, more)
    | (1, kind, addr), .ok b =>
      let (rs, more) := go kind (addr / 8) b s.mem.races
      ({ s with mem := { s.mem with races := rs } }, more)
    | _, _ => (s, [])

/-- The same for the units that some writes touch. -/
def State.raceUnits (s : State) (k ctx : Nat) (x : Cmd) (pos : Nat) (ws : List (Int × Byte)) : List Int → State × List (Int × Byte)
  | [] => (s, [])
  | a :: rest =>
    let (s, more) := s.raceUnit k ctx x pos ws a
    let (s, others) := s.raceUnits k ctx x pos ws rest
    (s, more ++ others)

/-- A command of core k is complete, or fails, or is squashed: nothing races with it any more. -/
def State.endRaces (s : State) (k id : Nat) : State :=
  if s.mem.races.isEmpty && s.cores.all (·.races.isEmpty) then s
  else
    let gone (r : Race) : Bool := r.core == k && r.cmd == id
    let s := s.modCores fun c => if c.races.isEmpty then c else { c with races := c.races.filter fun r => !gone r }
    { s with mem := { s.mem with races := s.mem.races.filter fun r => !gone r } }

/-- The commands of some cores are gone: nothing races with them any more. -/
def State.dropRaces (s : State) (ks : List Nat) : State :=
  if s.mem.races.isEmpty && s.cores.all (·.races.isEmpty) then s
  else
    let s := s.modCores fun c => if c.races.isEmpty then c else { c with races := c.races.filter fun r => !ks.contains r.core }
    { s with mem := { s.mem with races := s.mem.races.filter fun r => !ks.contains r.core } }

/-- Deliver the next sector of a command: the command with how much moved, and how many bytes, or the failure. -/
def State.deliverSector (s : State) (k ctx : Nat) (x : Cmd) : State × Except Fail (Cmd × Nat) :=
  let p := x.moved
  if x.sliceBad (p / x.perUnit) then (s, .error (0x0031, 0x3000 + (x.unit (p / x.perUnit)).2.2 % 4096))
  else
    let ps := x.run ((x.target p).1 / 32) p 64
    let home := s.homes k ctx x.dstL (x.target p).1
    match s.gatherRun k ctx home x [] ps with
    | (s, .error e) => (s, .error e)
    | (s, .ok (x, acc, left)) => match s.fillRun k ctx x.dstL [] acc.reverse with
      | (s, .error e) => (s, .error e)
      | (s, .ok ws) =>
        let done := ps.take (ps.length - left.length)
        let bytes := (done.map x.bytesAt).foldl (· + ·) 0
        let pos := ((s.coreAt k).chans.toList.getD x.chan ⟨0, none, 0⟩).ptr.toNat + bytes
        let (s, more) := s.raceUnits k ctx x pos ws ((ws.map fun w => w.1 / 8 * 8).eraseDups)
        let segs := segments 32 (ws ++ more)
        (match s.writeSegments k ctx x.dstL x.covered segs with
          | (s, some e) => (s, .error e)
          | (s, none) =>
            let x := x.forget ((ws ++ more).map fun w => home w.1)
            let (s, x) := segs.foldl (fun (y : State × Cmd) g => y.1.noteCover k y.2 g.1 g.2.length) (s, x)
            (s, .ok ({ x with moved := x.moved + done.length, counted := x.counted + bytes }, bytes)))

/-! ## Start, failure and completion -/

/-- Read a layout entry through field `off` of a descriptor, and check it (R251 to R253). -/
def State.readLayout (s : State) (k ctx : Nat) (desc : List Byte) (operand off : Nat) : State × Except Fail (List Byte) :=
  let p := field desc off 8
  if p % 64 ≠ 0 then (s, .error (0x0031, 2 ^ 12 * operand + off))
  else match s.engRead k ctx (BitVec.ofNat 64 p) 64 with
    | (s, .error c) => (s, .error (c, operand))
    | (s, .ok b) => (s, match layoutFault b with
      | some o => .error (0x0031, 2 ^ 12 * operand + o)
      | none => .ok b)

/-- The index list of a gather or scatter (R258). -/
def State.readIndices (s : State) (k : Nat) (x : Cmd) : State × Except Fail (List Byte) :=
  if !x.slices then (s, .ok [])
  else
    let idx := field x.desc 0x48 8
    let off := bits idx 19 0
    let n := 4 * bits idx 52 32
    if (s.coreAt k).scratchSize < off + n then (s, .error (0x0022, 3))
    else
      let (s, found) := s.detectRange (.pool k off n) false
      let c := s.coreAt k
      if c.holds off n then (s, .error (heldCode, 3))
      else match c.poisonAt off n with
      | some p => (s.engineMet k c.ctx 0 (.pool (poisonInfo p)) found, .error (0x0012, 3))
      | none => (s, .ok (c.scrBytes off n))

/-- A command with its entries and index list, as at its start. -/
def State.loadCopy (s : State) (k ctx : Nat) (x : Cmd) : State × Except Fail Cmd :=
  match s.readLayout k ctx x.desc 1 0 with
  | (s, .error e) => (s, .error e)
  | (s, .ok a) => match s.readLayout k ctx x.desc 2 8 with
    | (s, .error e) => (s, .error e)
    | (s, .ok b) =>
      let x := { x with src := a, dst := b, moved := 0, counted := 0, srcUnits := [], ahead := [], cover := [] }
      match s.readIndices k x with
      | (s, .error e) => (s, .error e)
      | (s, .ok l) => (s, .ok { x with list := l })

/-- The bytes a command would deliver, as its descriptor and destination entry fix them (R255): where the index list cannot be read, each of
its COUNT indices delivers. -/
def State.wouldDeliver (s : State) (k ctx : Nat) (x : Cmd) : Nat :=
  match (s.readLayout k ctx x.desc 2 8).2 with
  | .error _ => 0
  | .ok b =>
    let src := if !x.src.isEmpty then x.src else match (s.readLayout k ctx x.desc 1 0).2 with
      | .ok a => a
      | .error _ => b
    let y := { x with src := src, dst := b }
    let y := { y with list := match (s.readIndices k y).2 with | .ok l => l | .error _ => List.replicate (4 * bits (field x.desc 0x48 8) 52 32) 0 }
    let bad (j : Nat) : Bool := !(y.slices && j = y.outer) && !y.dstL.holds j (y.dorg j + y.box j - 1)
    if [0, 1, 2, 3].any bad then 0 else y.bytes

/-- A copy command fails: its channel halts and everything queued behind it on the channel fails with it; the undelivered
bytes are owed (R255). -/
def State.failCopy (s : State) (k : Nat) (x : Cmd) (e : Fail) : State :=
  let ctx := (s.coreAt k).ctx
  let ch := x.chan
  let behind := (s.coreAt k).cmds.filter fun y => y.kind.onChannel && y.chan == ch && y.phase == .queued && y.id != x.id
  let owed := (s.wouldDeliver k ctx x - x.counted) + (behind.map (s.wouldDeliver k ctx)).foldl (· + ·) 0
  (s.endRaces k x.id).modCore k fun c =>
    let old := c.chans.toList.getD ch ⟨0, none, 0⟩
    { c with
      chans := c.chans.setIfInBounds ch { old with halt := some e, owed := old.owed + owed }
      cmds := c.cmds.map fun y =>
        if y.id = x.id then y.finish e.1 e.2
        else if !(y.kind.onChannel && y.chan == ch) then y
        else match y.phase with
          | .queued => y.finish e.1 e.2
          | .held => { y with phase := .cancelled e.1 e.2 }
          | _ => y }

/-- Replace a command of core k. -/
def State.putCmd (s : State) (k : Nat) (x : Cmd) : State := s.modCmd k x.id fun _ => x

/-- The pools that a copy or collective command of core k transfers into or out of (R191). -/
def Cmd.pools (k : Nat) (x : Cmd) : List Nat := [x.srcL, x.dstL].filterMap fun l => l.poolOf k
/-- The pools from which a command is read at its start. -/
def Cmd.startPools (k : Nat) (x : Cmd) : List Nat :=
  ptrPools k (field x.desc 0 8) ++ ptrPools k (field x.desc 8 8) ++ (if x.slices then [k] else [])

/-- A copy command starts; it waits for a pool that is frozen or a group of it that is being rebuilt (R191, R196). -/
def State.startCopy (s : State) (k : Nat) (x : Cmd) : State :=
  if s.anyFrozen (x.startPools k) then s
  else match s.loadCopy k (s.coreAt k).ctx x with
  | (t, .error e) => if e.1 = heldCode then s else t.failCopy k x e
  | (s, .ok x) => match x.startFault with
    | some e => s.failCopy k x e
    | none => s.putCmd k { x with phase := .started, cover := x.covers k }

/-- COPY_SECTOR_DELIVERY for a started command: the channel's pointer rises by the bytes written (R255). It waits for a pool that is
frozen or a group of it that is being rebuilt (R191, R196). -/
def State.stepCopy (s : State) (k : Nat) (x : Cmd) : State :=
  if s.anyFrozen (x.pools k) then s
  else match s.deliverSector k (s.coreAt k).ctx x with
  | (t, .error e) => if e.1 = heldCode then s else t.failCopy k x e
  | (s, .ok (y, bytes)) =>
    let s := s.putCmd k y
    s.modCore k fun c =>
      let old := c.chans.toList.getD x.chan ⟨0, none, 0⟩
      { c with chans := c.chans.setIfInBounds x.chan { old with ptr := old.ptr + BitVec.ofNat 64 bytes } }

/-- Is a group of one of these pools being rebuilt (R196)? -/
def State.rebuilding (s : State) (ks : List Nat) : Bool := ks.any fun k => (s.coreAt k).groups.toList.any fun g => g.state == 1

/-- Does a started copy wait for a pool (R191, R196)? -/
def State.copyHeld (s : State) (k : Nat) (x : Cmd) : Bool :=
  s.anyFrozen (x.pools k) ||
  (s.rebuilding (x.pools k) && match (s.deliverSector k (s.coreAt k).ctx x).2 with | .error e => e.1 == heldCode | .ok _ => false)

/-- The stage record at which a copy posts its arrival, if it does (R256). -/
def Cmd.stage (x : Cmd) : Option Nat :=
  let ctl := field x.desc 0x40 8
  if ctl.testBit 3 && (x.kind == .cpy || x.kind == .gath) then some (bits ctl 23 4) else none

/-- Does the stage arrival of a copy wait for the pool (R191, R196)? -/
def State.arrivalWaits (s : State) (k : Nat) (x : Cmd) : Bool :=
  match x.stage with
  | none => false
  | some off => s.anyFrozen [k] || (s.coreAt k).holds off 32

/-- The last act of a copy before its completion: the stage arrival (R256). -/
def State.endCopy (s : State) (k : Nat) (x : Cmd) : State :=
  match x.stage with
  | none => (s.endRaces k x.id).putCmd k (x.finish 0 0)
  | some off =>
    if s.arrivalWaits k x then s
    else
    let s := s.endRaces k x.id
    let s := (s.detectRange (.pool k off 32) true).1
    let c := s.coreAt k
    if c.scratchSize < off + 32 then s.failCopy k x (0x0022, 2)
    else if (c.poisonAt off 32).isSome then s.failCopy k x (0x0012, 2)
    else if (StageRec.of (c.scrValue off 32)).noStage then s.failCopy k x (0x0031, 0x2000)
    else (s.modCore k fun c => c.postArrival off false).putCmd k (x.finish 0 0)

/-- Squash a copy, gather, scatter or collective command that has started (R250): it is queued again with its descriptor and
SEQ, and its delivered bytes are taken back from its channel. -/
def Core.squash (c : Core) (x : Cmd) : Core :=
  if !(x.kind.onChannel || x.kind == .coll) || x.kind == .cpyr || x.phase != .started then c
  else
    let old := c.chans.toList.getD x.chan ⟨0, none, 0⟩
    { c with
      chans := if x.kind.onChannel then c.chans.setIfInBounds x.chan { old with ptr := old.ptr - BitVec.ofNat 64 x.counted } else c.chans
      cmds := c.cmds.map fun (y : Cmd) => if y.id = x.id then { y with phase := .queued, moved := 0, counted := 0, srcUnits := [], ahead := [], cover := [] } else y }

/-! ## Release at the retirement of the bundle (R244, R247, R255) -/

/-- The commands of the running bundle take their SEQ and are queued. One that was held while its channel halted fails with
it; one issued to a halted channel clears the halt. -/
def State.releaseHeld (s : State) : State :=
  let c := s.core
  let go (s : State) (x : Cmd) : State :=
    let c := s.core
    let n := (c.seq + 1) % 2 ^ 32
    let put (y : Cmd) : Core := { c with seq := n, cmds := c.cmds.map fun z => if z.id = x.id then y else z }
    match x.phase with
    | .held =>
      let d := put { x with phase := .queued, seq := n }
      { s with core := if x.kind.onChannel then d.clearHalt x.chan else d }
    | .cancelled code detail =>
      let d := put { x with phase := .done code detail, seq := n }
      let old := d.chans.toList.getD x.chan ⟨0, none, 0⟩
      { s with core := { d with chans := d.chans.setIfInBounds x.chan { old with owed := old.owed + s.wouldDeliver c.kid c.ctx x } } }
    | _ => s
  let s := c.cmds.foldl go s
  { s with core := { s.core with seq := (s.core.seq + s.core.ecHeld) % 2 ^ 32, ecHeld := 0 } }

end Sys2Proof.Machine
end

