-- ==== Sys2Proof/Machine/Traps.lean ====
section
/-! DEFINITION. Taking an exception as the package sees it (R26, R33, R284): variable-latency results are sampled, the core's
entry of Ops is made, and a trap without a handler ends the task. -/
namespace Sys2Proof.Machine

/-- The word WHQ reads (R262). -/
def State.handleWord (s : State) (h : Nat) : Word :=
  let x := s.handle h
  BitVec.ofNat 64 (2 ^ 32 * (x.expert.getD 0xFFFFFFFF) + 2 ^ 16 * x.code + x.state)

/-- The word HTEST reads (R266). -/
def State.tagWordOf (s : State) (ctx : Nat) (t : Word) (gen : Nat) : Word :=
  match s.tag? ctx t with
  | none => 0
  | some x =>
    let st := if x.state = 2 then 4 else if x.state = 3 then 5
      else if x.gen = gen then 1 else if newer x.gen gen then 2 else 3
    BitVec.ofNat 64 (st + 256 * b2n x.ovf.isSome)

/-- The value a variable-latency write delivers when it is served (R54, R262, R266, R270). -/
def State.sample (s : State) (c : Core) : VarKind → Val
  | .value x | .held x => x
  | .whq h => .word (s.handleWord h)
  | .htest t g => .word (s.tagWordOf c.ctx t g)
  | .wptr ch => .word (c.chans.toList.getD ch ⟨0, none, 0⟩).ptr

/-- What a sample does besides: HTEST looks its tag up (R266, R341). -/
def State.sampling (s : State) : VarKind → State
  | .htest t _ => s.lookTag s.core.ctx t
  | _ => s

/-- Fix the value of every outstanding variable-latency write of the core in view. -/
def State.sampleVars (s : State) : State :=
  let s := s.core.vars.foldl (fun s v => s.sampling v.kind) s
  let c := s.core
  { s with core := { c with vars := c.vars.map fun v => { v with kind := .value (s.sample c v.kind) } } }

/-- Is an outstanding result that of a WHQ? -/
def VarKind.isWhq : VarKind → Bool
  | .whq _ => true
  | _ => false

/-- May an outstanding result be written? The value of a generic atomic waits for its bundle to retire (R281); WHQ waits for
the earlier EXPF, EXPC and WHQ of its core (R262, R354); results of the divide unit are written in issue order (R160), and so are two
results for one register (R277). -/
def Core.varReady (c : Core) (v : VarRes) : Bool :=
  let unit (d : Dest) : Bool := match d with
    | .v _ | .m _ | .eq _ | .cq => true
    | _ => false
  let register (d : Dest) : Bool := match d with
    | .s _ | .v _ | .m _ => true
    | _ => false
  (match v.kind with
  | .held _ => false
  | .whq _ => (!c.cmds.any fun x => x.kind.engine == CmdKind.expf.engine && x.open && x.id < v.id) &&
      !c.vars.any fun w => w.kind.isWhq && w.id < v.id
  | _ => true) &&
  !c.vars.any fun w => w.id < v.id && ((w.slot == 5 && v.slot == 5 && unit w.dst && unit v.dst) || (register v.dst && w.dst == v.dst))

/-- Must a trap wait before it is entered? What is older completes first (R284): a WHQ behind commands that are not accepted yet,
and results for a group of the pool that is being rebuilt (R196). -/
def Core.entryWaits (c : Core) : Bool :=
  (c.vars.any fun v => match v.kind with
    | .whq _ => c.cmds.any fun x => x.kind.engine == CmdKind.expf.engine && x.open && x.id < v.id
    | _ => false) ||
  ((c.groups.toList.any fun g => g.state == 1) &&
    ((c.pending.any fun p => match p.dst with | .v n => c.holds (c.vregOff n) 256 | _ => false) ||
     (c.vars.any fun v => match v.dst with | .v n => c.holds (c.vregOff n) 256 | _ => false) ||
     (c.arr.events.any fun e => c.holds (c.tileOff e.tile 0 0) 32768)))

/-- Does the core in view run a tile of a GGEMM command? -/
def State.ggemmTask (s : State) : Option Task := (s.taskOf s.core.kid).filter fun t => (s.ggemm? t.launch).isSome

/-- A task that ends where it stands: what it issued completes as at EXIT (R114). -/
def Core.abort (c : Core) : Core :=
  let d := c.completeOlder
  { d with
    run := .exiting, arr := { d.arr with abandoned := none }, cur := none, act := .none, retiring := false, point := false
    tokens := (d.setToken c.leftTok .complete).tokens
    raised := none, stalled := none, prodTok := 0, leftTok := 0, fenceWait := false, room := [], loans := [] }

/-- Take a trap on the core in view (R284): `pc`, `j`, `rpt` and `loops` are those of the trapping bundle. While a handler
runs it is a double fault (R33); a replay operand lost fails a GGEMM tile with code 0x0060 (R242); with sr.tvec = 0 the
task ends and its context is terminated (R26). -/
def State.takeTrap (s : State) (t : TrapInfo) (pc : Word) (j : Nat) (rpt : Bool) (loops : List Level) : State :=
  let s := (s.unarrive s.core.kid).sampleVars.releaseHeld
  let c := s.core
  let d := c.enterTrap t pc j rpt loops
  let doom (type : Nat) (run : RunState) : State :=
    let r : Rec := ⟨0, c.kid, type, 0, some c.ctx, t.cause, d.trappc, d.trapinfo, 0, 0, 0⟩
    { s with
      core := { d with run := run }
      mem := { s.mem with recs := s.mem.recs ++ [r], doomed := s.mem.doomed ++ [⟨c.ctx, type, none⟩] } }
  if c.intrap then doom 0x0011 .halted
  else match (if t.cause = 0x15 then s.ggemmTask else none) with
    | some x => ({ s with core := c.abort } : State).report x.launch ⟨0x0060, x.path.getD 0 0, x.path⟩
    | none => if c.tvec = 0 then doom 0x0010 .running else { s with core := d }

/-- The trap that a stop of slot `sl` is, with sr.trapinfo from the slot word where the cause asks for it (R285). -/
def Stop.trapOf (st : Stop) (sl : Nat) (word : Word) : Option TrapInfo :=
  match st with
  | .trap cause info => some ⟨cause, false, sl, info⟩
  | .wordTrap cause => some ⟨cause, false, sl, word⟩
  | .stall _ _ | .sense .. => none

/-- Poison of the pool that a slot operation met is recorded as consumed (R193, R409), but for what its own reads have just
recorded. -/
def Core.notePoison (c : Core) (st : Stop) (found : List Nat) : Core :=
  match st with
  | .trap 0x0C info =>
    if found.contains (bits info.toNat 19 0 / 32) then c
    else { c with recs := c.recs ++ [(0x0025, 0x0C, info &&& (BitVec.ofNat 64 (2 ^ 63 - 1)), 0)] }
  | _ => c

/-- What runs on a state: it stops, in a slot, or leaves the next state. -/
abbrev Attempt := State → Except (Nat × Stop × Option MemState) State

/-- Run an execution; where it would read an undetected error of a pool, the error is detected first (R191, R193). The state
it ran from, the sectors of its core that this poisoned, and its outcome. -/
def attempt (run : Attempt) : Nat → State → List Nat → State × List Nat × Except (Nat × Stop × Option MemState) State
  | 0, s, found => (s, found, run s)
  | fuel + 1, s, found =>
    match run s with
    | .error (_, .sense k off n w, m) =>
      let s := match m with | some m => { s with mem := m } | none => s
      let (s, xs) := s.detectRange (.pool k off n) w
      attempt run fuel s (if k = s.core.kid then xs ++ found else found)
    | r => (s, found, r)

/-- How many errors of pools are undetected. -/
def State.latents (s : State) : Nat := s.cores.foldl (fun n c => n + c.latent.length) 0

/-- What a stop of slot `sl` leads to: a trap at execution j of the bundle at `pc`, or a stalled core. `s` is the state before
the execution, which had no effect but what an access left in memory; `found` are the sectors it found to be lost, and `dead` says
that the streams are deadlocked. -/
def State.stop (s : State) (e : Stop × Option MemState) (found : List Nat) (sl : Nat) (word pc : Word) (j : Nat) (rpt : Bool)
    (loops : List Level) (dead : Bool) : State :=
  let s' := match e.2 with
    | some m => { s with mem := m }
    | none => { s with core := s.core.notePoison e.1 found }
  match e.1.trapOf sl word with
  | some t =>
    if s.core.entryWaits then { s with core := { s.core with stalled := some ⟨sl, 256, false, false⟩ } }
    else s'.takeTrap t pc j rpt loops
  | none => match e.1 with
    | .stall port queue =>
      let s' := if 512 ≤ port then s'.barWait port else s'
      { s' with core := { s'.core with stalled := some ⟨sl, port, queue, dead⟩ } }
    | _ => s'

end Sys2Proof.Machine
end

