-- ==== Sys2Proof/Machine/Bundle.lean ====
section
/-! DEFINITION. Bundles: fetch (R286), decode (R60), execution under repeat (R38 to R41), retirement (R281) and the deliveries
between steps (R52, R54, R225). -/
namespace Sys2Proof.Machine

/-! ## Fetch and decode -/

/-- Fetch the 512 bits at the PC (R286); none is a wait for the end of the context, whose own lines proved lost (R417). -/
def State.fetchBundle (s : State) : State × Except (Option TrapInfo) Nat :=
  let c := s.core
  let bad (cause : Nat) : Except (Option TrapInfo) Nat := .error (some ⟨cause, true, 0, c.pc⟩)
  if bits c.pc.toNat 63 48 ≠ 0 then (s, bad 0x08)
  else match s.placeByte c.kid c.ctx c.pc.toNat .fetch with
    | (s, .error cause) => (s, bad cause)
    | (s, .ok (.dev t)) =>
      let (m, bs, b) := s.mem.readBytes t 64
      let s' : State := { s with mem := m }
      if s'.ownLoss c.ctx then (s', .error none)
      else match b with
        | .ok => (s', .ok (leValue bs))
        | .poison | .lost => ({ s' with mem := s'.mem.consumed c.kid c.ctx 0x0C c.pc }, bad 0x0C)
        | .fresh => (s', bad 0x0C)
    | (s, .ok _) => (s, bad 0x08)

/-- A fault of fetch or decode stops the bundle at the PC before any slot issues (R60, R286). -/
def State.failBundle (s : State) (t : TrapInfo) (j : Nat) (rpt : Bool) : State × Bool :=
  if s.core.entryWaits then ({ s with core := { s.core with stalled := some ⟨0, 256, false, false⟩ } }, false)
  else (s.takeTrap t s.core.pc j rpt s.core.loops, false)

/-- Fetch and decode the bundle at the PC (R60, R42, R110): the state to go on from, and whether a bundle was entered. The
bundle that a TRET resumes begins at execution sr.rptidx. sr.status.RPT after a trap here is what the header says (R28). -/
def State.beginBundle (s : State) : State × Bool :=
  let c := s.core
  let j := if c.resumed then c.rptidx else 0
  match s.fetchBundle with
  | (s, .error none) => (s, false)
  | (s, .error (some t)) => s.failBundle t 0 false
  | (s, .ok w) =>
    let h := Header.of w
    let fail (f : BundleFail) : State × Bool := s.failBundle ⟨f.cause, f.hdr, f.slot, BitVec.ofNat 64 f.info⟩ j (h.rpt != 0)
    match decodeHeader w with
    | .error f => fail f
    | .ok h =>
      if h.rpt < j then s.failBundle ⟨0x05, true, 0, BitVec.ofNat 64 j⟩ j (h.rpt != 0)
      else match decodeBundle s.core.env (c.brkExempt != .none) w with
        | .error f => fail f
        | .ok b => ({ s with core := { s.core with cur := some ⟨b, c.pc, j, c.loops⟩, resumed := false } }, true)

/-! ## One execution -/

/-- Does a FENCE at peer scope still wait for stores to be acknowledged (R302)? -/
def Core.fenceHeld (c : Core) : Bool := c.fenceWait && !c.peerStores.isEmpty


/-- The token fields of a bundle at its TSEL slot (R41). -/
def Core.takeTokens (c : Core) (h : Header) : Res Core :=
  let named := h.tokc.filter (· != 0)
  match named.find? fun k => c.token k == .failed with
  | some k => .error (.trap 0x07 (BitVec.ofNat 64 k))
  | none =>
    if named.any (fun k => c.token k == .pending) || c.token h.tokp == .pending then .error (.stall 256 false)
    else .ok (c.setToken h.tokp .pending)

/-- An operation as execution j of its slot runs it (R39). -/
def Core.stepped (c : Core) (h : Header) (sl : Slot) (j : Nat) (i : Instr) : Instr :=
  match i.info with
  | none => i
  | some (r, o) =>
    if h.rstep.testBit sl.num && j ≠ 0 then
      let o := c.stepOp r j o
      (ctorOf sl r.opc o.mod o).getD i
    else i

/-- An operation under its guard (R46). At an execution whose guard is false the stepped operands are not looked at either
(DESIGN CHOICE, log 79). -/
def runGuarded (i : Instr) (s : State) : SRes State :=
  match i.info with
  | none => .ok s
  | some (_, o) => if s.core.guardHolds o then issue i s else .ok s

/-- Slot `sl` of execution j (R38, R41). A token that no result of the operation completes completes at retirement. -/
def runSlot (h : Header) (j : Nat) (sl : Slot) (i : Instr) (s : State) : SRes State := do
  let sel := h.tsel == sl.num
  let s ← if sel && j = 0 then (do
      let c ← liftRes (s.core.takeTokens h)
      .ok { s with core := c }) else .ok s
  if (sl = .ec && j ≠ 0) || (sl = .br && j ≠ h.rpt) then .ok s
  else
    let tok := if sel && (sl = .ec || j = h.rpt) then h.tokp else 0
    let s : State := { s with core := { s.core with prodTok := tok } }
    let s ← runGuarded (s.core.stepped h sl j i) s
    .ok { s with core := { s.core with prodTok := 0, leftTok := if s.core.prodTok = 0 then s.core.leftTok else s.core.prodTok } }

/-- The slots of an execution in rising order: the first that stops decides (R283). -/
def runSlots (h : Header) (j : Nat) : List (Slot × Instr) → State → Except (Nat × Stop × Option MemState) State
  | [], s => .ok s
  | (sl, i) :: rest, s =>
    match runSlot h j sl i s with
    | .error e => .error (sl.num, e)
    | .ok s => runSlots h j rest s

/-- What an execution leaves for the next (R39, R52): the step, the index, and after the last execution the bundle waits for
its retirement. -/
def Core.nextExecution (c : Core) (u : Current) (j : Nat) : Core :=
  { c with
    step := c.step + 1, stalled := none, taken := []
    cur := some { u with exe := j + 1 }
    retiring := j == u.bundle.hdr.rpt }

/-- Does a result or an accumulator event that is due wait for a group of the pool that is being rebuilt (R196)? -/
def Core.dueHeld (c : Core) : Bool :=
  (c.groups.toList.any fun g => g.state == 1) &&
  ((c.pending.any fun p => p.due ≤ c.step && match p.dst with | .v n => c.holds (c.vregOff n) 256 | _ => false) ||
   c.arr.events.any fun e => e.due ≤ c.step && c.holds (c.tileOff e.tile 0 0) 32768)

/-- What comes before the slots of an execution: results due are delivered and accumulator events act. -/
def Core.beginStep (c : Core) : Core := { c.deliverDue.actDue with act := .none }

/-- Does an operation make an ordinary access when its guard holds (R290)? One masked to nothing makes none. -/
def Core.accesses (c : Core) (i : Instr) : Bool :=
  let selects (field : Nat) (p : Port) : Bool := match c.readPort field p false with
    | .ok (_, x) => x.bits != 0
    | .error _ => true
  match i with
  | .ldv _ | .ldvt _ | .stv _ | .stvt _ | .ldvu _ | .ldm _ | .stm _ | .lds _ | .sts _ | .atoml _ | .casl _
  | .ldg _ | .stg _ | .atomg _ | .casg _ | .sinit _ | .swait _ | .swaitEmpty _ | .sarr _ | .sarrEmpty _ | .mxstage _ => true
  | .ldvm o => selects 2 o.op2
  | .stvb o => selects 3 o.op3
  | .mxldb o => !adScalar o.op1
  | _ => false

/-- The execution that begins makes an ordinary access, if one of its operations does (R290). -/
def Core.noteAccess (c : Core) (u : Current) : Core :=
  { c with accessed := c.accessed || (Slot.all.zip u.bundle.ops).any fun x =>
      let i := c.stepped u.bundle.hdr x.1 u.exe x.2
      c.accesses i && match i.info with
        | some (_, o) => c.guardHolds o
        | none => false }

/-- sr.rptidx after all executions of a bundle (R40). A TRET keeps it, since it resumes its own bundle there (R110). -/
def Core.endRepeat (c : Core) (h : Header) : Core := if h.rpt = 0 || c.act = .tret then c else { c with rptidx := 0 }

/-- Execution j of the entered bundle: results due are delivered, the slots run, and after the last execution the BR operation
acts (R101). -/
def executeSlots (u : Current) (s : State) : Except (Nat × Stop × Option MemState) State :=
  let h := u.bundle.hdr
  let j := u.exe
  if s.core.dueHeld then .error (0, .stall 256 false, none)
  else match runSlots h j (Slot.all.zip u.bundle.ops) { s with core := s.core.beginStep.noteAccess u } with
  | .error e => .error e
  | .ok s2 =>
    if j ≠ h.rpt then .ok { s2 with core := s2.core.nextExecution u j }
    else match State.performBr { s2 with core := s2.core.endRepeat h } u.addr with
      | .error (e, m) => .error (0, e, m)
      | .ok s3 => .ok { s3 with core := s3.core.nextExecution u j }

/-! ## The lead of the access stream (R273, R274, R277 to R279)

Values are those of one order of steps (R272), but the access stream may be up to 16 executions ahead of the execute stream. Where an
execute slot waits for a queue, the access slots of later executions are looked at on a copy of the state: they may free a place
in a full queue, or push the entry for which a pop waits. -/

/-- How a look at the access slots ends: they do what is waited for, they wait for what time will bring, or they are stalled on
the execute stream themselves. -/
inductive Lead where
  | serves (s : State)
  | waits
  | stuck

/-- Does an access slot of an execution wait for the execute stream: SYNC (R37), or a vector or mask register it reads (R274)? -/
def Core.interlocked (c : Core) (u : Current) (ops : List (Slot × Instr)) : Bool :=
  ops.any fun x => (u.exe == 0 && u.bundle.hdr.sync.testBit x.1.num && x.2 != .nop x.1) ||
    match (c.stepped u.bundle.hdr x.1 u.exe x.2).info with
    | some (r, o) =>
      let reads (cls : OpClass) (p : Port) : Bool := cls != .none && match p with
        | .v _ => true
        | .m n => n != 0
        | _ => false
      c.guardHolds o && (reads r.op1 o.op1 || reads r.op2 o.op2 || reads r.op3 o.op3)
    | none => false

/-- The cross-stream writes of the execute slots, whose registers are empty from the dispatch of their bundle on (R277). -/
def Core.markCross (c : Core) (u : Current) (ops : List (Slot × Instr)) : Core :=
  ops.foldl (fun (c : Core) x => match (c.stepped u.bundle.hdr x.1 u.exe x.2).info with
    | some (r, o) =>
      if c.guardHolds o && crossStream r.slot o.dst then
        { c with vars := c.vars ++ [⟨c.nextId, c.step, x.1.num, portDest o.dst, .held Val.zero, 0⟩], nextId := c.nextId + 1 }
      else c
    | none => c) c

/-- The access slots of one execution alone; `first` says that the execute stream has issued every step before it. A stop says
whether it is a stall on the execute stream. -/
def State.leadSlots (s : State) (u : Current) (first : Bool) : Except Bool State :=
  let ops := Slot.all.zip u.bundle.ops
  let access := ops.filter fun x => x.1.num < 4
  let s1 : State := { s with core := s.core.beginStep }
  if !first && s1.core.interlocked u access then .error true
  else match runSlots u.bundle.hdr u.exe access s1 with
    | .error (_, .stall _ queue, _) => .error queue
    | .error (_, .sense .., _) => .error false
    | .error _ => .error true
    | .ok s2 => .ok { s2 with core := s2.core.markCross u (ops.filter fun x => 4 ≤ x.1.num) }

/-- The exemption from the BRK bit after a bundle (R42): it ends with the bundle that a TRET resumes, unless that opens a region. -/
def Core.endExempt (c : Core) : BrkExempt := if c.brkExempt = .next && !c.resumed then .none else c.brkExempt

/-- The region that the MX operation of a bundle opens or commits, which decides what the later bundles may do (R42, R238). -/
def Core.passRegion (c : Core) (u : Current) : Core :=
  let region (o : Op) (r : Option Region) (b : BrkExempt) : Core :=
    if c.guardHolds o then { c with arr := { c.arr with region := r }, brkExempt := b } else c
  match u.bundle.ops.getD 7 (.nop .mx) with
  | .mxopen o => region o (some ⟨zNum o.dst, u.addr, c.step, u.startLoops, 0, false, [], none⟩)
      (if c.brkExempt = BrkExempt.next then .region else c.brkExempt)
  | .mxcommit o => region o none (if c.brkExempt = BrkExempt.region then .none else c.brkExempt)
  | _ => c

/-- On to the next execution, of the same bundle or, where `across`, of the next one. -/
def State.leadNext (s : State) (u : Current) (across : Bool) : Except Bool State :=
  if u.exe ≠ u.bundle.hdr.rpt then .ok { s with core := s.core.nextExecution u u.exe }
  else if !across then .error true
  else match State.performBr { s with core := (s.core.endRepeat u.bundle.hdr).passRegion u } u.addr with
    | .error (.stall _ _, _) => .error false
    | .error _ => .error true
    | .ok s =>
      let c := { s.core with brkExempt := s.core.endExempt }
      if c.fenceHeld then .error false
      else if c.run != .running || c.raised.isSome || (c.point && c.preq) then .error true
      else match State.beginBundle { s with core := { c with step := c.step + 1, cur := none } } with
        | (s, true) => .ok s
        | (_, false) => .error true

/-- The access slots of up to `fuel` executions from the one in hand on, until `done` answers a state; it is told whether the look
ends here. -/
def State.lead (done : Bool → State → Option State) (across : Bool) : Nat → Bool → State → Lead
  | 0, _, _ => .stuck
  | fuel + 1, first, s =>
    let last (s : State) (stuck : Bool) : Lead := match done stuck s with
      | some s => .serves s
      | none => if stuck then .stuck else .waits
    match s.core.cur with
    | none => .stuck
    | some u =>
      match s.leadSlots u first with
      | .error queue => last s queue
      | .ok s =>
        match done (fuel == 0) s with
        | some s => .serves s
        | none => match s.leadNext u across with
          | .error stuck => last s stuck
          | .ok s => State.lead done across fuel false s

/-- The entry of dq n behind the first `k` that pushes make, in delivery order: its value, step and slot. None while one of those
before it still waits for its data. Where the look goes on, a push whose delivery a later one could overtake is not yet taken. -/
def Core.nextPush (c : Core) (n : Fin 4) (k : Nat) (last : Bool) : Option (Val × Nat × Nat) :=
  let value (v : VarRes) : Option (Val × Nat × Nat) := match v.kind with
    | .value y => some (y, v.issue, v.slot)
    | _ => none
  let ready (e : QEntry) : Bool := match e.reserved with
    | some id => (c.reserved? false (.dq n) id).isSome
    | none => true
  if !(c.dq[n].take k).all ready then none
  else match c.dq[n].drop k with
  | e :: _ => e.reserved.bind fun id => match c.vars.find? fun v => v.id == id with
    | some v => value v
    | none => (c.pending.find? fun p => p.dst == .entry n id).map fun p => (p.val, p.issue, p.slot)
  | [] => ((c.pending.find? fun p => p.dst == .dq n && (last || p.due ≤ c.step + 1)).map fun p => (p.val, p.issue, p.slot)) <|>
    (if last then (c.vars.find? fun v => v.dst == .dq n).bind value else none)

/-- A pop takes an entry of dq n before it is delivered: of a push under way, which then delivers nothing, or on loan from a later
execution. -/
def Core.borrow (c : Core) (n : Fin 4) (x : Val × Nat × Nat) : Core :=
  let isIt (p : Pending) : Bool := p.dst == .dq n && p.issue == x.2.1 && p.slot == x.2.2
  let c := { c with dq := c.dq.set n (c.dq[n] ++ [QEntry.of x.1 x.2.1]) }
  if c.pending.any isIt then { c with pending := c.pending.map fun p => if isIt p then { p with dst := .none } else p }
  else { c with loans := (n.val, x.2.1, x.2.2) :: c.loans }

/-- The state from which a stalled execution can be tried again with what the lead of the access stream brings, if it does: one more
place in a full eq or cq, or the next entry for a pop of dq (R279), of this execution or a later one of the bundle. A younger
bundle's push never serves an older pop (R281). The lead is at most 16 executions (R273). -/
def State.servedByLead (s : State) (port : Nat) : Lead :=
  match Port.ofNat port with
  | some (.dq n) =>
    let served (last : Bool) (d : State) : Option State :=
      (d.core.nextPush n s.core.dq[n].length last).map fun x => { s with core := s.core.borrow n x }
    State.lead served false 16 true s
  | some p =>
    let served (_ : Bool) (d : State) : Option State :=
      if ({ d.core with room := [] } : Core).hasRoom p (s.core.room.count port + 1) then
        some { s with core := { s.core with room := port :: s.core.room } }
      else none
    State.lead served true 16 true s
  | none => .stuck

/-- The stops of the slots of an execution, each tried where the earlier ones that stop are passed over (R278). -/
def stopsOf (h : Header) (j : Nat) : List (Slot × Instr) → State → List (Nat × Stop)
  | [], _ => []
  | (sl, i) :: rest, s =>
    match runSlot h j sl i s with
    | .error (e, _) => (sl.num, e) :: stopsOf h j rest s
    | .ok s => stopsOf h j rest s

/-- Are the streams deadlocked (R278)? Every slot of the execution that stops is stalled on the other stream, the access stream is
too, and nothing under way can end a stall. -/
def State.deadEnd (s : State) (u : Current) : Bool :=
  let c := s.core
  c.vars.all (fun v => match v.kind with | .held _ => true | _ => false) &&
  (stopsOf u.bundle.hdr u.exe (Slot.all.zip u.bundle.ops) { s with core := c.beginStep }).all fun x => match x.2 with
    | .stall _ queue => queue
    | _ => true

/-- Execution j, tried with what the lead of the access stream brings where an execute slot waits for a queue: the state it ran
from and its outcome, and whether the streams are deadlocked. -/
def State.tryExecution (s : State) (u : Current) : Nat → State → State × List Nat × Except (Nat × Stop × Option MemState) State × Bool
  | 0, t => let (t, found, r) := attempt (executeSlots u) t.latents t []; (t, found, r, false)
  | fuel + 1, t =>
    match attempt (executeSlots u) t.latents t [] with
    | (t, found, .error (sl, .stall port true, m)) =>
      let r : Except (Nat × Stop × Option MemState) State := .error (sl, .stall port true, m)
      if sl < 4 then (t, found, r, s.deadEnd u)
      else match t.servedByLead port with
        | .serves t => s.tryExecution u fuel t
        | .waits => (t, found, r, false)
        | .stuck => (t, found, r, s.deadEnd u)
    | (t, found, r) => (t, found, r, false)

/-- Execution j and the stop that ends it. A stop leaves the state as it was before. -/
def State.execute (s : State) (u : Current) : State :=
  match s.tryExecution u 16 s with
  | (_, _, .ok s', _) => { s' with core := { s'.core with room := [] } }
  | (t, found, .error (sl, e), dead) =>
    let t : State := { t with core := { t.core with dq := s.core.dq, room := s.core.room, loans := s.core.loans, pending := s.core.pending } }
    t.stop e found sl (BitVec.ofNat 64 (u.bundle.words.getD sl 0)) u.addr u.exe (u.bundle.hdr.rpt != 0) u.startLoops dead

/-- Does the freeze after a correction hold the core (R191)? -/
def Core.frozen (c : Core) : Bool := c.freeze != 0

/-- May the core in view execute: its task runs, no bundle waits to retire, no trap or point is due (R288), no FENCE waits? -/
def Core.canExecute (c : Core) : Bool :=
  c.run == .running && !c.retiring && c.raised.isNone && !(c.point && c.preq) && !c.frozen && !c.fenceHeld

/-- BUNDLE_EXECUTION: one execution of the bundle at the PC. -/
def State.bundleStep (s : State) : State :=
  if !s.core.canExecute then s
  else match s.core.cur with
    | some u => s.execute u
    | none =>
      match s.beginBundle with
      | (s, false) => s
      | (s, true) => match s.core.cur with
        | some u => s.execute u
        | none => s

/-! ## Retirement (R281) -/

/-- BUNDLE_RETIRE: the old values of generic atomics are delivered from now on, commands are queued, a token that waits for
retirement completes, and sr.pts moves on if the bundle made an ordinary access (R41, R244, R281, R290). A FENCE at peer scope holds
its bundle back until the stores posted are acknowledged (R302). -/
def State.retire (s : State) : State :=
  if !s.core.retiring || s.core.fenceHeld then s
  else
    let s := s.releaseHeld
    let c := s.core.stamp.setToken s.core.leftTok .complete
    let release (v : VarRes) : VarRes := match v.kind with
      | .held x => { v with kind := .value x }
      | _ => v
    { s with
      core := { c with
        retiring := false, cur := none, leftTok := 0, fenceWait := false, vars := c.vars.map release
        brkExempt := c.endExempt } }

/-- TRAP_ENTRY for the trap that TRAP or BKPT raised after its bundle (R109). -/
def State.takeRaised (s : State) : State :=
  match s.core.raised with
  | some t => if s.core.retiring || s.core.entryWaits then s else s.takeTrap t s.core.pc 0 false s.core.loops
  | none => s

/-- The stalled queue operation of a core whose streams are deadlocked, as its last try found them. -/
def Core.deadlocked (c : Core) : Option Stall :=
  match c.stalled with
  | some t => if t.dead && c.canExecute && !c.entryWaits then some t else none
  | none => none

/-- STREAM_DEADLOCK_TRAP (R278): where another try finds the same, the stalled operation, of the lowest slot, traps with cause
0x05. -/
def State.deadlockTrap (s : State) : State :=
  if s.core.deadlocked.isNone then s
  else
    let t := s.bundleStep
    if t.core.step != s.core.step then s
    else match t.core.deadlocked, t.core.cur with
      | some x, some u =>
        t.takeTrap ⟨0x05, false, x.slot, BitVec.ofNat 64 (2 ^ 63 + x.port % 256)⟩ u.addr u.exe (u.bundle.hdr.rpt != 0) u.startLoops
      | _, _ => s

/-! ## Deliveries -/

/-- A task that waits at its end, or for a token, lets the time pass in which results and beats complete. -/
def Core.idles (c : Core) : Bool := c.stalled.isSome || c.run == .exiting || c.run == .halting

/-- Is a destination a vector register in a group of the pool that is being rebuilt (R196)? -/
def Core.heldDest (c : Core) (d : Dest) : Bool := match d with
  | .v n => c.holds (c.vregOff n) 256
  | _ => false

/-- RESULT_DELIVERY (R52): the oldest result that is due is written. While the core waits, time passes and the tokens of its
results complete; each value still arrives at its step (R41). -/
def Core.deliverNext (c : Core) : Core :=
  match c.pending with
  | [] => c
  | p :: rest =>
    if c.frozen || c.heldDest p.dst then c
    else if p.due ≤ c.step || c.run == .exiting || c.run == .halting then { c with pending := rest }.deliver p
    else if c.idles then
      { c with pending := c.pending.map fun (q : Pending) => { q with tok := 0 },
               tokens := (c.pending.foldl (fun (d : Core) q => d.setToken q.tok .complete) c).tokens }
    else c

/-- ACCUMULATOR_EVENT_ACT (R225), with the tokens of a waiting core as above. -/
def Core.actNext (c : Core) : Core :=
  match c.arr.events with
  | [] => c
  | e :: rest =>
    if c.frozen || c.holds (c.tileOff e.tile 0 0) 32768 then c
    else if e.due ≤ c.step || c.run == .exiting || c.run == .halting then { c with arr := { c.arr with events := rest } }.actEvent e
    else if c.idles then
      { c with arr := { c.arr with events := c.arr.events.map fun (x : AccEvent) => { x with tok := 0 } },
               tokens := (c.arr.events.foldl (fun (d : Core) x => d.setToken x.tok .complete) c).tokens }
    else c

/-- VARIABLE_RESULT_WRITE (R54, R277): the value is sampled and written. -/
def State.writeVarNow (s : State) (id : Nat) : State :=
  let c := s.core
  match c.vars.find? fun v => v.id == id with
  | some v =>
    if c.varReady v && v.issue < c.step && !c.frozen && !c.heldDest v.dst then
      let s := s.sampling v.kind
      { s with core := s.core.writeVar v (s.sample s.core v.kind) }
    else s
  | none => s

/-! ## A slot operation on its own -/

/-- A slot operation as in a bundle that holds it alone: what decode rejects for the kernel's schedule traps (R60, R91), it runs
under its guard, and a BR operation then acts (R101). -/
def aloneRun (i : Instr) : Attempt := fun s =>
  match i.info, i.scheduleBad s.core.env with
  | none, _ => .ok s
  | some (r, _), some cause => .error (r.slot.num, .wordTrap cause, none)
  | some (r, _), none =>
    if r.slot = .br then
      match runGuarded i { s with core := { s.core with act := .none } } with
      | .error e => .error (0, e)
      | .ok s1 => match s1.performBr s.core.bundleAddr with
        | .error (e, m) => .error (0, e, m)
        | .ok s2 => .ok s2
    else match runGuarded i s with
      | .error e => .error (r.slot.num, e)
      | .ok s1 => .ok s1

/-- One slot operation on the core in view, alone in its bundle; a stop is taken. -/
def State.runAlone (i : Instr) (s : State) : State :=
  match attempt (aloneRun i) s.latents s [] with
  | (_, _, .ok s') => s'
  | (s', found, .error (sl, e)) => s'.stop e found sl (Instr.slotWord i) s.core.bundleAddr 0 false s.core.bundleLoops false

end Sys2Proof.Machine
end

