-- ==== Sys2Proof/Machine/Launch.lean ====
section
/-! DEFINITION. Kernel records (R57 to R59), launch records and acceptance (R320 to R322, R334 to R336), tiles and range tasks
(R323 to R328), dispatch (R31, R329) and completion (R330, R331). -/
namespace Sys2Proof.Machine

/-! ## Kernel records -/

/-- A reserved code or a non-zero reserved field of a partition word (R21, R23). -/
def partitionBad (w : Nat) : Bool := bits w 31 12 != 0 || 4 < bits w 11 9 || 4 < bits w 8 6 || 8 < bits w 5 2

/-- Vector registers and scratchpad bytes of a partition (R21, R22). -/
def partitionV (w : Nat) : Nat := 16 * (bits w 1 0 + 1)
def partitionS (w : Nat) : Nat :=
  Config.poolBytes - 256 * partitionV w - 32768 * bits w 5 2 - 1024 * bits w 8 6 * 2 ^ bits w 11 9

/-- A latency code (R58). -/
def latencyOf (code : Nat) : Nat :=
  match code with
  | 13 => 20 | 14 => 36 | 15 => 68
  | n => n

def latCode (b : List Byte) (c : Nat) : Nat := bits (field b 8 8) (4 * c + 3) (4 * c)

/-- The lowest offset of a kernel record that breaks R59 or R23, offset 0x10 standing for the partition word. -/
def kernelFault (b : List Byte) : Option Nat :=
  let part := field b 0x10 4
  let next := field b 0x16 1
  let bad : Nat → Bool
    | 0x00 => field b 0 4 != 0x4B4C5942
    | 0x04 => field b 4 2 != 1
    | 0x06 => 4 ≤ field b 6 2
    | 0x08 => (List.range 16).any fun c => (latCode b c == 0) == decide (c ≤ 10)
    | 0x10 => partitionBad part
    | 0x14 => field b 0x14 1 = 6 || 7 < field b 0x14 1
    | 0x15 => (field b 0x15 1).testBit 0
    | 0x16 => 4 < next
    | 0x17 => field b 0x17 1 != 0
    | 0x18 => 2 ^ partitionV part ≤ field b 0x18 8
    | off =>
      if 0x20 ≤ off && off % 8 = 0 then
        let e := field b off 8
        if next ≤ (off - 0x20) / 8 then e != 0
        else 2 ^ 40 ≤ e || bits e 39 20 = 0 || partitionS part < bits e 19 0 + bits e 39 20
      else false
  ((List.range 64).filter bad).head?

/-- sr.trapinfo of a failing kernel record (R23, R59). -/
def kernelInfo (b : List Byte) (off : Nat) : Word :=
  if off = 0x10 then BitVec.ofNat 64 (field b 0x10 4) else BitVec.ofNat 64 (2 ^ 63 + off)

/-- What a core keeps of the record of its kernel (R57, R58). -/
def kernelOfBytes (b : List Byte) : Kernel :=
  { lat := (List.range 11).map fun c => latencyOf (latCode b c), pre := (field b 6 2).testBit 0, strict := kernelStrict b
    plevel := field b 0x14 1, mlive := field b 0x15 1, vlive := field b 0x18 8
    extents := (List.range (min 4 (field b 0x16 1))).map fun k => (bits (field b (0x20 + 8 * k) 8) 19 0, bits (field b (0x20 + 8 * k) 8) 39 20) }

/-! ## Launch records (R320, R321) -/

def launchParam (b : List Byte) (given : Word) : Word := if given ≠ 0 then given else BitVec.ofNat 64 (field b 8 8)

/-- The narrowest scope of a domain (R321). -/
def minScope : Nat → Nat
  | 0 => 0 | 1 => 1 | 2 => 2 | 3 => 3 | _ => 5

def windowIn (ws : List Nat) (p : Nat) : Bool := ws.contains (bits p 63 60)

/-- Does a level word break R320 or R321? -/
def levelBad (b : List Byte) (k : Nat) : Bool :=
  let n := recLevels b
  let c := recCtl b
  let w := field b (0x40 + 8 * k) 8
  let tlev := bits c 6 4
  let dom := (recLevel b k).dom
  if n ≤ k then w != 0
  else
    w.testBit 39 || w.testBit 35 || 5 < bits w 38 36 || 4 < dom || bits w 31 0 = 0 || (dom = 4 && k ≠ 0) ||
    bits w 38 36 < minScope dom || (k ≠ 0 && (recLevel b (k - 1)).dom < dom) ||
    (c.testBit 3 && ((k = tlev && dom ≠ 1) || (k < tlev && dom ≤ 1)))

/-- The leaves of one instance of level g. -/
def leafCount (b : List Byte) (g : Nat) : Nat := ((List.range (recLevels b)).drop g).foldl (fun n k => n * (recLevel b k).n) 1

/-- The most cores in service of a unit that could confine an instance of level g: which one does is not known before a core takes the
instance, and one that does not fit its unit then fails (R324, R419; log 25). -/
def State.gangRoom (s : State) (b : List Byte) (g : Nat) : Nat :=
  let dom := if g = 0 then 3 else (recLevel b (g - 1)).dom
  ((List.range (4096 / domSize dom)).map fun u => s.serviceCount dom u).foldl max 0

/-- Does the control word break R320 or R321? -/
def State.ctlBad (s : State) (ctx : Nat) (b : List Byte) : Bool :=
  let c := recCtl b
  let g := bits c 11 8
  2 ^ 34 ≤ c || c.testBit 23 || 8 < g || 8 < bits c 15 12 || 8 < bits c 19 16 ||
  !(bits c 33 24 = 0 || bits c 33 24 = ctx) || (c.testBit 3 && recLevels b ≤ bits c 6 4) ||
  (g < 8 && (recLevels b ≤ g || (g = 0 && (recLevel b 0).dom = 4) || s.gangRoom b g < leafCount b g))

/-- Does the byte or field at an offset break R321? `kernel` is the kernel record. -/
def State.launchBad (s : State) (ctx : Nat) (given : Word) (b kernel : List Byte) (off : Nat) : Bool :=
  let c := recCtl b
  let plen := field b 0x24 4
  match off with
  | 0x00 => (kernelFault kernel).isSome
  | 0x08 => !windowIn [0, 4] (field b 8 8) || (plen != 0 && launchParam b given == 0)
  | 0x10 => !windowIn [0, 4] (field b 0x10 8)
  | 0x18 => s.ctlBad ctx b
  | 0x20 => field b 0x20 4 % 32 != 0 || partitionS (field kernel 0x10 4) < field b 0x20 4 + plen
  | 0x24 => plen % 32 != 0
  | 0x28 => bits (field b 0x28 8) 31 16 != 0
  | 0x3A => field b 0x3A 6 != 0
  | 0xB0 => field b 0xB0 16 != 0
  | _ =>
    if 0x40 ≤ off && off < 0x80 && off % 8 = 0 then levelBad b ((off - 0x40) / 8)
    else if 0x80 ≤ off && off < 0xB0 then
      let r := (off - 0x80) % 16
      (r = 12 && field b off 4 != 0) || (4 ≤ r && r < 12 && c.testBit 3 && bits c 6 4 < r - 4 && field b off 1 != 0)
    else if 0xC0 ≤ off && off < 0x140 && off % 16 = 0 then bits c 15 12 ≤ (off - 0xC0) / 16 && field b off 16 != 0
    else if 0x140 ≤ off && off % 8 = 0 then
      (bits c 19 16 ≤ (off - 0x140) / 8 && field b off 8 != 0) || 2 ^ 14 ≤ field b off 2
    else false

def State.launchFault (s : State) (ctx : Nat) (given : Word) (b kernel : List Byte) : Option Nat :=
  ((List.range 384).filter (s.launchBad ctx given b kernel)).head?

/-! ## Tiles (R323, R324) -/

/-- The cluster of a tile among the clusters in service of its parent unit (R324). -/
def State.tileCluster (s : State) (c : List Nat) (dom unit : Nat) : Nat :=
  let h := (c.getD 0 0 * 0x9E3779B1 + c.getD 1 0 * 0x85EBCA77 + c.getD 2 0 * 0xC2B2AE3D) % 2 ^ 32
  let cs := s.clustersOf dom unit
  cs.getD (h / 2 ^ 16 * cs.length / 2 ^ 16) 0

/-- Place a tile as pending: it pins its handles and is judged (R325, R342, R353). -/
def State.placeTile (s : State) (launch : Nat) (path coord : List Nat) (cluster : Option Nat) (parent : Nat × Nat) : State × Nat :=
  let id := s.launch.nextId
  let t : TileTask := ⟨id, launch, path, coord, cluster, parent, .waiting, [], [], []⟩
  let s := { s with launch := { s.launch with nextId := id + 1, tiles := s.launch.tiles ++ [t] } }
  let hs := s.tileHandles t
  let t := { t with inputs := (s.tileInputs t).map fun _ => false, pinned := hs }
  let s := (s.setTile t).pin id hs
  (s.judgeTile t, id)

/-- Has a range task above the tiles iterations that are still to begin? Of a peer domain only the one of this package's rank
runs (R324). -/
def State.placesMore (s : State) (r : RangeTask) : Bool :=
  let peer := match s.spec? r.launch with | some p => r.level = 0 && (p.level 0).dom = 4 | none => false
  r.tile.isNone && r.next < r.hi && (!peer || (r.next ≤ s.host.rank && s.host.rank < r.hi))

/-- The entry of the pool is free once the last tile has been placed or has failed (R334). -/
def State.freeEntry (s : State) (launch : Nat) : State :=
  if s.launch.ranges.any fun r => r.launch == launch && s.placesMore r then s
  else { s with launch := { s.launch with
    launches := s.launch.launches.map fun (l : Launch) => if l.id == launch then { l with entry := false } else l } }

/-! ## Acceptance (R321, R334 to R336) -/

/-- Does the pool take a launch now (R336)? A top-level launch, of depth 0 or of a task of depth 0, leaves the reserve and what
children have been promised. -/
def State.poolTakes (s : State) (r : LaunchReq) : Bool :=
  if r.depth ≤ 1 then s.launch.lpres < s.poolLeft else 0 < s.poolFree

/-- A launch has been accepted: its launcher goes on (R267, R332). -/
def State.accepted (s : State) (via : Launcher) : State :=
  match via with
  | .core k id => s.modCmd k id (Cmd.finish 0 0)
  | .list j =>
    let l := s.launch.lists.toList.getD j ListReg.zero
    { s with launch := { s.launch with lists := s.launch.lists.setIfInBounds j { l with wait := .none, pos := l.pos + 1 } } }

/-- A valid launch: with a tile-coordinate function its range task waits in the package, else it is one tile (R323, R325). -/
def State.openLaunch (s : State) (l : Launch) : State :=
  let s := { s with launch := { s.launch with launches := s.launch.launches ++ [l] } }
  let p := l.spec
  if p.tcfe then
    { s with launch := { s.launch with ranges := s.launch.ranges ++ [⟨l.id, none, [], 0, 0, (p.level 0).n, none, 3, 0⟩] } }
  else
    ((s.placeTile l.id [] [0, 0, 0] none (3, 0)).1).freeEntry l.id

/-- LAUNCH_ACCEPT: the scheduler reads and checks the record (R321). Of a record that cannot be read, the code goes to its completion
word if that field alone can be read; 0x0070 where the context ends with a sector lost (R369, R449). -/
def State.acceptLaunch (s : State) (r : LaunchReq) : State :=
  let s := { s with launch := { s.launch with reqs := s.launch.reqs.filter fun x => x.id != r.id } }
  let s := s.accepted r.via
  let told (s : State) (code : Nat) : Nat × Nat := if s.ownLoss r.ctx then (0x0070, 0) else (code, 4)
  match s.engRead 0 r.ctx r.recPtr 384 with
  | (s, .error code) =>
    (match s.engRead 0 r.ctx (r.recPtr + 0x10) 8 with
      | (s, .ok w) => s.writeWord 0 r.ctx (BitVec.ofNat 64 (leValue w)) (told s code).1 (told s code).2 0
      | (s, .error _) => s)
  | (s, .ok b) =>
    let lcw := BitVec.ofNat 64 (field b 0x10 8)
    let kp := field b 0 8
    let refuse (s : State) (code detail : Nat) : State := s.writeWord 0 r.ctx lcw code detail 0
    if kp % 64 ≠ 0 || !windowIn [0] kp then refuse s 0x0031 0x4000
    else match s.engRead 0 r.ctx (BitVec.ofNat 64 kp) 64 with
      | (s, .error code) => refuse s (told s code).1 (told s code).2
      | (s, .ok kernel) => match s.launchFault r.ctx r.param b kernel with
        | some off => refuse s 0x0031 (0x4000 + off)
        | none =>
          let id := s.launch.nextId
          let s := { s with launch := { s.launch with nextId := id + 1 } }
          s.openLaunch ⟨id, r.recPtr, b, kernel, launchParam b r.param, r.ctx, r.depth, r.sub, true, 0, []⟩

/-- A launcher hands a launch to the pool. -/
def State.requestLaunch (s : State) (via : Launcher) (recPtr param : Word) (ctx depth sub : Nat) : State :=
  { s with launch := { s.launch with
      reqs := s.launch.reqs ++ [⟨s.launch.nextId, via, recPtr, param, ctx, depth, sub⟩], nextId := s.launch.nextId + 1 } }

/-! ## Dispatch (R31, R322, R329) -/

/-- The core at dispatch but for its parameter registers. A context change zeroes the pool, by full-stripe writes that detect the
errors there (R187, R191); without one, what vector registers, tiles and scratchpad hold is free (log 6). -/
def Core.atDispatch (d : Core) (ctx level : Nat) (kernel : List Byte) (entry : Word) : Core :=
  let same := d.ctx == ctx
  let c := if same then d else d.senseStripes
  let n := c.fresh
  let fresh := c.endTask
  { fresh with
    run := .running, pc := entry, step := 0, fresh := n + 1
    sregs := Vector.replicate 64 0, mregs := Vector.replicate 8 0, flags := 0
    vregs := if same then Vector.ofFn fun i => Config.freeVec c.kid n i.val else Vector.replicate 64 0
    tiles := if same then Vector.ofFn fun z =>
        ⟨Vector.ofFn fun r => Config.freeRow c.kid n z.val 0 r.val, Vector.ofFn fun r => Config.freeRow c.kid n z.val 1 r.val, false, false⟩
      else Vector.replicate 8 Tile.zero
    aps := Vector.replicate 8 0, bench := Vector.replicate 4 ⟨0, []⟩
    scratch := [], leftover := if same then some (c.kid, n) else none
    tvec := 0, rptidx := 0, partition := field kernel 0x10 4, ctx := ctx, level := level, lgen := c.lgen + 1
    tokens := Vector.replicate 32 .complete, kernel := kernelOfBytes kernel, patterns := Vector.replicate 8 patternZero, arr := MxArray.zero
    chans := Vector.replicate 4 ⟨0, none, 0⟩, acquired := Vector.replicate 4 0, seq := 0
    groups := if same then c.groups else c.groups.map fun (g : Group) => { g with entries := [] }
    poison := if same then c.poison else [], latent := if same then c.latent else [] }

def Core.setMany (c : Core) (l : List (Nat × Nat)) : Core := l.foldl (fun c x => c.setS (Fin.ofNat 64 x.1) (BitVec.ofNat 64 x.2)) c

/-- The parameter registers of a task of a launch (R329). -/
def launchRegs (l : Launch) (coord path : List Nat) (rank : Nat) : List (Nat × Nat) :=
  let out := l.output coord
  (List.range 8).map (fun k => (48 + k, path.getD k 0)) ++
  [(56, 2 ^ 32 * coord.getD 1 0 + coord.getD 0 0), (57, coord.getD 2 0 + 2 ^ 32 * rank), (58, out.1.toNat), (59, out.2),
   (60, l.param.toNat), (61, l.depth % 256 + 256 * (recLevels l.bytes - 1))]

/-- The parameter registers of a task of a GGEMM tile (R361). -/
def ggemmRegs (g : Ggemm) (coord : List Nat) : List (Nat × Nat) :=
  let i := coord.getD 0 0
  let m := match g.recs[i]? with | some r => r.m | none => 0
  [(48, i), (49, coord.getD 1 0), (50, coord.getD 2 0), (51, m), (56, 2 ^ 32 * coord.getD 1 0 + i), (57, coord.getD 2 0),
   (60, g.base.toNat + 64 * i), (61, g.depth % 256)]

def State.setTask (s : State) (t : Task) : State :=
  { s with launch := { s.launch with tasks := s.launch.tasks.map fun (x : Task) => if x.core == t.core then t else x } }

/-- A failing kernel record traps before the first bundle (R23, R59); a record that cannot be read, as a fetch of it would
(R286). -/
def State.checkKernel (s : State) (k ctx : Nat) (kp : Word) : State × Except TrapInfo (List Byte) :=
  match s.resolve k ctx kp 64 .read with
  | (s, .error (cause, _)) => (s, .error ⟨cause, true, 0, kp⟩)
  | (s, .ok r) =>
    let (s, b, met) := s.readRange r
    if met ≠ .ok then (s.engineMet k ctx kp met [], .error ⟨0x0C, true, 0, kp⟩)
    else match kernelFault b with
      | some off => (s, .error ⟨0x02, false, 0, kernelInfo b off⟩)
      | none => (s, .ok b)

/-- A handle becomes the most recently used (R352). -/
def State.useHandle (s : State) (h : Nat) : State :=
  let s' := s.setHandle { s.handle h with used := s.expert.order }
  { s' with expert := { s'.expert with order := s.expert.order + 1 } }

/-- Start a task on its core: the state of R31, the parameter copy of R322, the check of the kernel record, the parameter
registers (R329). A parameter copy that faults fails the tile with DETAIL 1 and runs nothing. -/
def State.startTask (s : State) (t : Task) : State :=
  match s.spec? t.launch with
  | none => s
  | some p =>
    let (kp, kernel) := s.kernelOf t.launch t.path
    let entry := kp + 64
    let tile := t.tile.bind s.tile?
    let coord := match tile with | some x => x.coord | none => [0, 0, 0]
    let s := s.modCore t.core fun c => c.atDispatch p.ctx (p.depthOf - 1) kernel entry
    let hs := match tile with | some x => s.tileHandles x | none => []
    let s := hs.foldl State.useHandle s
    let s := s.setTask { t with begun := true, order := s.launch.order }
    let s := { s with launch := { s.launch with order := s.launch.order + 1 } }
    let (pdst, plen, param) : Nat × Nat × Word := match s.launch? t.launch with
      | some l => (field l.bytes 0x20 4, field l.bytes 0x24 4, l.param)
      | none => (0, 0, 0)
    let copied : State × Nat := if plen = 0 then (s, 0) else match s.engRead t.core p.ctx param plen with
      | (s, .error e) => (s, e)
      | (s, .ok b) => s.engWrite t.core p.ctx (BitVec.ofNat 64 (2 ^ 60 + pdst)) b
    match copied with
    | (s, 0) =>
      let regs := match s.launch? t.launch with
        | some l => launchRegs l coord t.path t.rank
        | none => match s.ggemm? t.launch with | some g => ggemmRegs g coord | none => []
      let s := s.modCore t.core fun c => c.setMany regs
      (match s.checkKernel t.core p.ctx kp with
        | (s, .error f) =>
          let home := s.core.kid
          ((s.focus t.core).takeTrap f entry 0 false []).focus home
        | (s, .ok _) => s)
    | (s, code) =>
      let s := s.modCore t.core Core.endTask
      let s := { s with launch := { s.launch with tasks := s.launch.tasks.filter fun x => x.core != t.core } }
      match tile with
      | some x => s.failTile ((s.tile? x.id).getD x) code 1
      | none => s

/-! ## Range tasks (R325, R326) -/

/-- May the scheduler dispatch work of a launch: is its context active (R366)? -/
def State.dispatches (s : State) (launch : Nat) : Bool :=
  match (s.spec? launch).bind fun p => s.mem.ctx p.ctx with
  | some c => c.state == 1
  | none => false

/-- A core is free when it is in service and runs no task, and its pool serves it (R191, R196). -/
def State.coreFree (s : State) (k : Nat) : Bool :=
  (s.coreAt k).run == .idle && s.inService k && (s.coreAt k).freeze == 0 && !((s.coreAt k).groups.toList.any fun g => g.state == 1) &&
  !s.launch.tasks.any fun t => t.core == k

/-- A core without work (R326). -/
def State.coreIdle (s : State) (k : Nat) : Bool := s.coreFree k && !s.launch.ranges.any fun r => r.holder == some k

def State.setRanges (s : State) (f : List RangeTask → List RangeTask) : State :=
  { s with launch := { s.launch with ranges := f s.launch.ranges } }

/-- The innermost range task that a core holds. -/
def State.heldRange (s : State) (k : Nat) : Option RangeTask :=
  (s.launch.ranges.filter fun r => r.holder == some k).foldl
    (fun (best : Option RangeTask) r => match best with
      | some b => if b.level < r.level then some r else some b
      | none => some r) none

/-- Every index path of one iteration of levels from the path's depth on. -/
def leafPaths (p : Spec) : Nat → List Nat → List (List Nat)
  | 0, path => [path]
  | n + 1, path =>
    if p.depthOf ≤ path.length then [path]
    else (List.range (p.level path.length).n).flatMap fun i => leafPaths p n (path ++ [i])

/-- The units of a domain within a unit, as domain and number. -/
def subUnits (dom unit d : Nat) : List (Nat × Nat) :=
  if d < dom then
    let n := domSize dom / domSize d
    (List.range n).map fun i => (d, unit * n + i)
  else [(dom, unit)]

/-- The unit that confines a tile of a gang, `n` levels below its instance: the iterations of each level take the units of its
domain that are in service in turn (R324; log 85). -/
def State.iterationUnit (s : State) (p : Spec) : Nat → Nat → Nat × Nat → List Nat → Nat × Nat
  | 0, _, u, _ => u
  | n + 1, level, (dom, unit), path =>
    let us := (subUnits dom unit (p.level level).dom).filter fun u => !(s.clustersOf u.1 u.2).isEmpty
    s.iterationUnit p n (level + 1) (us.getD (path.getD level 0 % us.length) (dom, unit)) path

/-- The leaves of a gang instance in a unit, with their tiles placed (R324, R328). -/
def State.gangLeaves (s : State) (launch : Nat) (p : Spec) (tile : Option Nat) (u : Nat × Nat) : List (List Nat) → List Leaf → State × List Leaf
  | [], acc => (s, acc)
  | path :: rest, acc =>
    match tile with
    | some _ => s.gangLeaves launch p tile u rest (acc ++ [⟨path, tile⟩])
    | none =>
      let tp := path.take (p.tlev + 1)
      match s.launch.tiles.find? fun x => x.launch == launch && x.path == tp with
      | some x => s.gangLeaves launch p tile u rest (acc ++ [⟨path, some x.id⟩])
      | none =>
        let coord := match s.launch? launch with | some l => l.coords tp | none => [0, 0, 0]
        let v := s.iterationUnit p (p.tlev - p.gang) p.gang u tp
        let (s, id) := s.placeTile launch tp coord (some (s.tileCluster coord v.1 v.2)) v
        s.gangLeaves launch p tile u rest (acc ++ [⟨path, some id⟩])

/-- A core takes an instance of the gang level: the whole of it becomes one gang (R328). A tile that failed as it was placed runs
none of its leaves. -/
def State.makeGang (s : State) (r : RangeTask) (p : Spec) : State :=
  let s := s.setRanges fun l => l.erase r
  let (s, leaves) := s.gangLeaves r.launch p r.tile (r.dom, r.unit) (leafPaths p p.depthOf r.path) []
  let failed (x : Leaf) : Bool := match x.tile.bind s.tile? with | some t => t.state == .failed | none => false
  let ended := (List.range leaves.length).filter fun i => failed (leaves.getD i ⟨[], none⟩)
  if ended.length = leaves.length then s
  else { s with launch := { s.launch with
      gangs := s.launch.gangs ++ [⟨s.launch.nextId, r.launch, r.path, r.dom, r.unit, leaves, false, ended⟩], nextId := s.launch.nextId + 1 } }

/-- A range task is exhausted: its holder returns to the enclosing one. -/
def State.endRange (s : State) (r : RangeTask) : State :=
  let s := s.setRanges fun l => l.erase r
  match r.tile with
  | some t => s.closeTile t
  | none => s

/-- The holder begins the next iteration of its innermost range task (R325). -/
def State.nextIteration (s : State) (k : Nat) (r : RangeTask) (p : Spec) : State :=
  if r.level = p.gang then s.makeGang r p
  else if r.hi ≤ r.next then s.endRange r
  else
    let path := r.path ++ [r.next]
    let d := p.level r.level
    let r' := { r with next := r.next + 1 }
    let s := s.setRanges fun l => l.map fun x => if x == r then r' else x
    if d.dom = 4 && r.next ≠ s.host.rank then s
    else if r.tile.isNone && r.level = p.tlev then
      let coord := match s.launch? r.launch with | some l => l.coords path | none => [0, 0, 0]
      (s.placeTile r.launch path coord (some (s.tileCluster coord r.dom r.unit)) (r.dom, r.unit)).1
    else
      let dom := min d.dom 3
      if r.level + 1 < p.depthOf then
        s.setRanges fun l => l ++ [⟨r.launch, r.tile, path, r.level + 1, 0, (p.level (r.level + 1)).n, some k, dom, unitOf dom k⟩]
      else
        { s with launch := { s.launch with tasks := s.launch.tasks ++ [⟨k, r.launch, r.tile, path, none, 0, 0, dom, unitOf dom k, [], false⟩] } }

/-- RANGE_ITERATION_BEGIN: with the last tile placed, the launch's entry is free (R325, R334). -/
def State.beginIteration (s : State) (k : Nat) (r : RangeTask) (p : Spec) : State := (s.nextIteration k r p).freeEntry r.launch

/-- A piece of work a core may take (R326). -/
inductive Offer where
  | tile (t : TileTask)
  | orphan (r : RangeTask)
  | split (r : RangeTask)
  deriving DecidableEq, Repr

def Offer.launch : Offer → Nat
  | .tile t => t.launch
  | .orphan r | .split r => r.launch

def Offer.kind : Offer → Nat
  | .tile _ => 0 | .orphan _ => 1 | .split _ => 2

/-- The splittable range task of another core that comes outermost among its own (R326, R328). -/
def State.splittable (s : State) (r : RangeTask) : Bool :=
  r.holder.isSome && match s.spec? r.launch with
    | some p => r.level < p.gang && 2 * (p.level r.level).grain ≤ r.hi - r.next
    | none => false

/-- What the unit of domain d around core k offers it. -/
def State.offers (s : State) (k d : Nat) : List Offer :=
  let inGang (t : TileTask) : Bool := s.launch.gangs.any fun g => g.leaves.any fun x => x.tile == some t.id
  let tiles := (s.launch.tiles.filter fun t => t.state == .launchable && s.dispatches t.launch && !inGang t && (match t.cluster with
    | some c => c == unitOf 1 k
    | none => 3 ≤ d)).map Offer.tile
  let mine (r : RangeTask) : Bool := inUnit r.dom r.unit k && s.dispatches r.launch
  let orphans := (s.launch.ranges.filter fun r => r.holder.isNone && mine r && r.dom ≤ d).map Offer.orphan
  let outer (r : RangeTask) : Bool := !s.launch.ranges.any fun x => x.holder == r.holder && x.level < r.level && s.splittable x
  let splits := (s.launch.ranges.filter fun r => s.splittable r && r.holder != some k && mine r && outer r &&
    inUnit d (unitOf d k) (r.holder.getD 0)).map Offer.split
  tiles ++ orphans ++ splits

/-- Lists of indices in lexicographic order. -/
def pathLt : List Nat → List Nat → Bool
  | [], [] => false
  | [], _ => true
  | _, [] => false
  | a :: as, b :: bs => a < b || (a == b && pathLt as bs)

/-- Is one offer taken before another (R326, R327)? -/
def State.offerBefore (s : State) (a b : Offer) : Bool :=
  let pa := s.prioOf a.launch
  let pb := s.prioOf b.launch
  higher pa pb || (pa == pb && (a.kind < b.kind || (a.kind == b.kind && match a, b with
    | .tile x, .tile y => x.launch < y.launch || (x.launch == y.launch && pathLt x.path y.path)
    | _, _ => false)))

def State.bestOffer (s : State) (l : List Offer) : Option Offer :=
  l.foldl (fun (best : Option Offer) o => match best with
    | some b => if s.offerBefore o b then some o else some b
    | none => some o) none

/-- The unit that confines a task: the cluster of its tile, if it has one (R324, R385). -/
def State.unitFor (s : State) (t : Task) : Nat × Nat :=
  match (t.tile.bind s.tile?).bind (·.cluster) with
  | some c => (1, c)
  | none => (t.dom, t.unit)

/-- A core takes an offer. -/
def State.take (s : State) (k : Nat) (o : Offer) : State :=
  match o with
  | .tile t =>
    let s := s.setTile { t with state := .running }
    let (dom, unit) : Nat × Nat := match t.cluster with | some c => (1, c) | none => (3, 0)
    match s.spec? t.launch with
    | none => s
    | some p =>
      let level := if t.cluster.isNone then 0 else p.tlev + 1
      if level < p.depthOf then
        s.setRanges fun l => l ++ [⟨t.launch, some t.id, t.path, level, 0, (p.level level).n, some k, dom, unit⟩]
      else
        { s with launch := { s.launch with tasks := s.launch.tasks ++ [⟨k, t.launch, some t.id, t.path, none, 0, 0, dom, unit, [], false⟩] } }
  | .orphan r => s.setRanges fun l => l.map fun x => if x == r then { r with holder := some k } else x
  | .split r =>
    let mid := r.next + (r.hi - r.next + 1) / 2
    s.setRanges fun l => (l.map fun x => if x == r then { r with hi := mid } else x) ++ [{ r with next := mid, holder := some k }]

/-- The best offer of the nearest unit around a core that has one (R326). -/
def State.nearest (s : State) (k : Nat) : Option Offer :=
  (([1, 2, 3].map fun d => s.offers k d).find? fun l => !l.isEmpty).bind s.bestOffer

/-! ## Gangs (R328) -/

/-- The units of a level's domain in which an iteration within a unit may run: the cluster of its tile at the tile level (R324). -/
def State.unitsFor (s : State) (p : Spec) (level : Nat) (u : Nat × Nat) (leaves : List Leaf) : List (Nat × Nat) :=
  let cluster := ((leaves.head?.bind fun x => x.tile).bind s.tile?).bind (·.cluster)
  match (if p.tcfe && level = p.tlev then cluster else none) with
  | some c => if inUnit u.1 u.2 (16 * c) then [(1, c)] else []
  | none => subUnits u.1 u.2 (p.level level).dom

/-- Distinct cores of a kind for the leaves of an instance of a level in a unit, as path and core: every iteration runs within one unit of its
domain (R324, R328). The first units that have room are taken. `n` levels are left. -/
def State.fitLeaves (s : State) (p : Spec) (free : Nat → Bool) : Nat → Nat → Nat × Nat → List Leaf → List Nat → Option (List (List Nat × Nat))
  | 0, _, u, leaves, taken =>
    match leaves with
    | [] => some []
    | x :: _ =>
      (((List.range (domSize u.1)).map fun i => u.2 * domSize u.1 + i).find? fun k => free k && !taken.contains k).map fun k => [(x.path, k)]
  | n + 1, level, u, leaves, taken =>
    let place (acc : Option (List (List Nat × Nat))) (i : Nat) : Option (List (List Nat × Nat)) :=
      acc.bind fun got =>
        let mine := leaves.filter fun x => x.path.getD level 0 == i
        (s.unitsFor p level u mine).findSome? fun v =>
          (s.fitLeaves p free n (level + 1) v mine (taken ++ got.map (·.2))).map fun more => got ++ more
    (leaves.map fun x => x.path.getD level 0).eraseDups.foldl place (some [])

/-- Cores of a kind for leaves of a gang, as path and core. -/
def State.fitGang (s : State) (free : Nat → Bool) (g : Gang) (leaves : List Leaf) : Option (List (List Nat × Nat)) :=
  match s.spec? g.launch with
  | some p => s.fitLeaves p free (p.depthOf - p.gang) p.gang (g.dom, g.unit) leaves []
  | none => none

/-- Free cores for leaves of a gang. -/
def State.chooseCores (s : State) (g : Gang) (leaves : List Leaf) : Option (List (List Nat × Nat)) := s.fitGang s.coreFree g leaves

/-- The leaves of a gang that are still to run. -/
def Gang.left (g : Gang) : List Leaf :=
  ((List.range g.leaves.length).filter fun r => !g.ended.contains r).map fun r => g.leaves.getD r ⟨[], none⟩

/-- May a gang be dispatched: are all its tiles launchable or running? -/
def State.gangReady (s : State) (g : Gang) : Bool :=
  !g.dispatched && s.dispatches g.launch && g.left.all fun x => match x.tile.bind s.tile? with
    | some t => t.state == .launchable || t.state == .running
    | none => true

/-! ## Completion (R114, R330, R331) -/

/-- The waits of EXIT and HALT are over (R114). -/
def Core.quiet (c : Core) : Bool := !c.retiring && c.cmds.isEmpty && c.vars.isEmpty && !c.tokens.toList.contains .pending

/-- The end of a task on core k: it leaves its gang, and its tile may complete. -/
def State.leaveTask (s : State) (t : Task) : State :=
  let s := s.modCore t.core Core.endTask
  let s := { s with launch := { s.launch with
    tasks := s.launch.tasks.filter fun x => x.core != t.core
    gangs := s.launch.gangs.map fun (g : Gang) => if t.gang == some g.id then { g with ended := g.ended ++ [t.rank] } else g
    launches := s.launch.launches.map fun (l : Launch) => if l.id == t.launch then { l with tasks := l.tasks + 1 } else l } }
  let s := match t.gang with | some g => s.closeBarriers g | none => s
  match t.tile with
  | some x => s.closeTile x
  | none => s

/-- TASK_COMPLETION. -/
def State.completeTask (s : State) (k : Nat) : State :=
  match s.taskOf k with
  | some t => if (s.coreAt k).run == .exiting && (s.coreAt k).quiet then (s.leaveTask t).withdraw else s
  | none => s

/-- Is nothing of a launch left to do (R331)? -/
def State.launchDone (s : State) (l : Nat) : Bool :=
  (!s.launch.ranges.any fun r => r.launch == l) && (!s.launch.tasks.any fun t => t.launch == l) &&
  (!s.launch.saved.any fun x => x.task.launch == l) && (!s.launch.gangs.any fun g => g.launch == l && !g.dispatched) &&
  (s.launch.tiles.all fun t => t.launch != l || t.state == .done || t.state == .failed) &&
  !s.launch.pubs.any fun p => match p.via with
    | .tile t => match s.tile? t with | some x => x.launch == l | none => false
    | _ => false

/-- The code and detail of a launch: the lowest code, from the tile whose path comes first (R331). -/
def worstFail (fails : List TileFail) : Nat × Nat :=
  match (fails.filter fun f => f.code != 0).foldl (fun (best : Option TileFail) f => match best with
    | some b => if f.code < b.code || (f.code == b.code && pathLt f.path b.path) then some f else some b
    | none => some f) none with
  | some f => (f.code, f.detail)
  | none => (0, 0)

/-- What the scheduler keeps of a launch or a GGEMM command goes. -/
def State.forget (s : State) (l : Nat) : State :=
  { s with launch := { s.launch with
      launches := s.launch.launches.filter fun x => x.id != l
      ggemms := s.launch.ggemms.filter fun x => x.id != l
      tiles := s.launch.tiles.filter fun t => t.launch != l
      barriers := s.launch.barriers.filter fun b => !s.launch.gangs.any fun g => g.id == b.gang && g.launch == l
      gangs := s.launch.gangs.filter fun g => g.launch != l } }

/-- LAUNCH_COMPLETION (R331); consumers of an overflowed pair may then be judged (R343). -/
def State.completeLaunch (s : State) (l : Launch) : State :=
  if !s.launchDone l.id then s
  else
    let (code, detail) := worstFail l.fails
    ((s.writeWord 0 l.ctx (BitVec.ofNat 64 (field l.bytes 0x10 8)) code detail l.tasks).forget l.id).judgeAll

end Sys2Proof.Machine
end

