-- ==== Sys2Proof/Machine/EngineRun.lean ====
section
/-! DEFINITION. Engine commands after issue (R244, R249): collectives (R260), TOPKI (R263, R358), GGEMM (R359 to R361), EXPF
and EXPC at the bullpen (R346 to R349), INVL and FLSH (R268, R269), the start of a command and its completion. -/
namespace Sys2Proof.Machine

/-- The context whose task runs on a core. -/
def State.ctxOf (s : State) (k : Nat) : Nat := (s.coreAt k).ctx

def State.finishCmd (s : State) (k : Nat) (x : Cmd) (code detail : Nat) : State := s.modCmd k x.id (Cmd.finish code detail)

/-! ## Collectives (R260; log 24) -/

def Cmd.cop (x : Cmd) : Nat := bits (field x.desc 0x40 8) 44 43
def Cmd.rop (x : Cmd) : Nat := bits (field x.desc 0x40 8) 42 40
def Cmd.level (x : Cmd) : Nat := bits (field x.desc 0x40 8) 47 45
def Cmd.root (x : Cmd) : Nat := bits (field x.desc 0x40 8) 63 48

def CollCmd.sameInstance (a b : CollCmd) : Bool := a.gang == b.gang && a.level == b.level && a.path == b.path

/-- A COLL starts: it joins the pair of its number at its level instance. -/
def State.startColl (s : State) (k : Nat) (x : Cmd) : State :=
  match s.taskOf k with
  | none => s
  | some t =>
    let level := x.level
    let me : CollCmd := ⟨k, x.id, t.gang.getD 0, level, t.path.take level, t.rank, 0⟩
    let mine := s.launch.colls.filter fun y => y.sameInstance me && y.rank == t.rank
    let joined (s : State) (x : Cmd) : State :=
      ({ s with launch := { s.launch with colls := s.launch.colls ++ [{ me with index := mine.length }] } }).putCmd k x
    if s.anyFrozen (x.startPools k) then s
    else match s.readLayout k (s.ctxOf k) x.desc 1 0 with
    | (t, .error e) => if e.1 = heldCode then s else joined t { x with phase := .done e.1 e.2 }
    | (t, .ok a) => match t.readLayout k (s.ctxOf k) x.desc 2 8 with
      | (t, .error e) => if e.1 = heldCode then s else joined t { x with phase := .done e.1 e.2 }
      | (t, .ok b) => joined t { x with phase := .started, src := a, dst := b }

/-- A participant of a pair: rank in the instance, core, command. -/
structure Part where
  rank : Nat
  core : Nat
  cmd : Cmd
  deriving DecidableEq, Repr

/-- The commands paired with the first COLL of an instance. -/
def State.parts (s : State) (me : CollCmd) : List Part :=
  (s.launch.colls.filter fun y => y.sameInstance me && y.index == 0).filterMap fun y =>
    ((s.coreAt y.core).cmds.find? fun x => x.id == y.id).map fun x => ⟨y.rank, y.core, x⟩

/-- The ranks of an instance that have not ended or have a COLL of the pair. -/
def State.pairReady (s : State) (me : CollCmd) (ps : List Part) : Bool :=
  match s.gang? me.gang with
  | none => true
  | some g => (g.members me.level me.path).all fun r => g.ended.contains r || ps.any fun p => p.rank == r

/-- Does a participant lack its command because it ended? -/
def State.pairBroken (s : State) (me : CollCmd) (ps : List Part) : Bool :=
  match s.gang? me.gang with
  | none => true
  | some g => (g.members me.level me.path).any fun r => g.ended.contains r && !ps.any fun p => p.rank == r

def Cmd.agrees (a b : Cmd) : Bool :=
  a.cop == b.cop && a.rop == b.rop && a.root == b.root && a.srcL.efmt == b.srcL.efmt && a.dstL.efmt == b.dstL.efmt &&
  [0, 1, 2, 3].all fun k => a.box k == b.box k

/-- The dimension along which slices lie, and its thickness for P participants. -/
def Cmd.sliceDim (x : Cmd) : Nat := x.dstL.rank - 1

/-- Extent of dimension k on the destination side. -/
def Cmd.dstBox (x : Cmd) (parts k : Nat) : Nat :=
  if k ≠ x.sliceDim then x.box k
  else match x.cop with
    | 1 => x.box k * parts
    | 2 => x.box k / parts
    | _ => x.box k

/-- The failure of one participant's command on its own, if any. A reduce-scatter whose BOX along the sliced dimension is no multiple of the
number of participants fails too (DESIGN CHOICE, log 96). -/
def Cmd.collFault (x : Cmd) (parts : Nat) : Option Fail :=
  let sl := x.srcL
  let dl := x.dstL
  let gr := grouped sl.efmt
  let g := (groupFmt sl.efmt).g
  if sl.efmt ≠ dl.efmt || (2 ≤ x.cop && (redType sl.efmt).isNone) then some (0x0031, 0x2009)
  else if gr && x.sorg 0 % g != 0 then some (0x0031, 0x1010)
  else if gr && x.box 0 % g != 0 then some (0x0031, 0x1030)
  else if gr && x.dorg 0 % g != 0 then some (0x0031, 0x2020)
  else if x.cop = 2 && x.box x.sliceDim % parts != 0 then some (0x0031, 0x2030 + 4 * x.sliceDim)
  else
    let overS (k : Nat) : Bool := !sl.holds k (x.sorg k + x.box k - 1)
    let overD (k : Nat) : Bool := !dl.holds k (x.dorg k + x.dstBox parts k - 1)
    match ([0, 1, 2, 3].filter fun k => overS k || overD k).head? with
    | none => none
    | some k => some (0x0031, if overS k then 0x1010 + 4 * k else 0x2020 + 4 * k)

/-- The positions of a box: coordinates of the unit, and the byte of it (0 for an element as a whole). -/
def Cmd.boxPositions (x : Cmd) : List (List Nat × Nat) :=
  let per := if 2 ≤ x.cop then 1 else x.srcL.unitLen
  (List.range x.perBox).flatMap fun u => (List.range per).map fun b => (x.boxCoord u, b)

/-- The place of a position on one side, its coordinates moved by an origin. -/
def Cmd.placeOf (x : Cmd) (l : Layout) (org : Nat → Nat) (p : List Nat × Nat) : Int × Option Bool :=
  let c := [0, 1, 2, 3].map fun k => org k + p.1.getD k 0
  if 2 ≤ x.cop then l.elemAt c else l.byteAt c p.2

/-- Read the source box of a participant. -/
def State.readBox (s : State) (k ctx : Nat) (x : Cmd) : List (List Nat × Nat) → State × Except Fail (List (List Byte))
  | [] => (s, .ok [])
  | p :: ps =>
    let n := if 2 ≤ x.cop then elemBytes x.srcL.efmt else 1
    match s.placeRead k ctx x.srcL 1 (x.placeOf x.srcL x.sorg p) n with
    | (s, .error e) => (s, .error e)
    | (s, .ok b) => match s.readBox k ctx x ps with
      | (s, .error e) => (s, .error e)
      | (s, .ok bs) => (s, .ok (b :: bs))

/-- Read the source boxes of the participants, by their numbers: a broadcast reads that of ROOT alone. -/
def State.readBoxes (s : State) : List (Nat × Part) → State × Except Fail (List (List (List Byte)))
  | [] => (s, .ok [])
  | (q, p) :: ps =>
    let needed := p.cmd.cop ≠ 0 || q = p.cmd.root
    match s.under p.core p.cmd.id fun s => if needed then s.readBox p.core (s.ctxOf p.core) p.cmd p.cmd.boxPositions else (s, .ok []) with
    | (s, .error e) => (s, .error e)
    | (s, .ok b) => match s.readBoxes ps with
      | (s, .error e) => (s, .error e)
      | (s, .ok bs) => (s, .ok (b :: bs))

/-- Write places in order; contiguous bytes are one write, so that what is covered whole is written whole (R187, R193). A nibble keeps
the other half of its byte. -/
def State.placeWrites (s : State) (k ctx : Nat) (l : Layout) (ws : List ((Int × Option Bool) × List Byte)) : State × Option Fail :=
  let acc := ws.foldl (fun acc w => addPlace acc w.1 w.2) []
  match s.fillRun k ctx l [] acc.reverse with
  | (s, .error e) => (s, some e)
  | (s, .ok bytes) => s.writeSegments k ctx l (fun _ => false) (segments 65536 bytes)

/-- A reduction of one value per rank in the tree of R170, absent operands passing the other through (R260). -/
def treeOpt (f : Nat → Nat → Nat) : Nat → List (Option Nat) → Option Nat
  | 0, l => l.headD none
  | n + 1, l =>
    let pair (i : Nat) : Option Nat := match l.getD (2 * i) none, l.getD (2 * i + 1) none with
      | some a, some b => some (f a b)
      | some a, none => some a
      | none, b => b
    treeOpt f n ((List.range ((l.length + 1) / 2)).map pair)

/-- Position i of every box, reduced. -/
def reduceAt (x : Cmd) (boxes : List (List (List Byte))) (i : Nat) : List Byte :=
  let t := (redType x.srcL.efmt).getD .i32
  let v := treeOpt (redElem t false x.rop) 13 (boxes.map fun b => some (leValue (b.getD i [])))
  leBytes (elemBytes x.srcL.efmt) (v.getD 0)

/-- What participant number q of the pair receives: places and bytes. -/
def collWrites (x : Cmd) (q : Nat) (boxes : List (List (List Byte))) : List ((Int × Option Bool) × List Byte) :=
  let r := x.sliceDim
  let pos := x.boxPositions
  let whole (org : Nat → Nat) (b : List (List Byte)) : List ((Int × Option Bool) × List Byte) :=
    (pos.zip b).map fun (p, v) => (x.placeOf x.dstL org p, v)
  match x.cop with
  | 0 => whole x.dorg (boxes.getD x.root [])
  | 1 => (List.range boxes.length).flatMap fun i =>
      whole (fun k => x.dorg k + (if k = r then i * x.box r else 0)) (boxes.getD i [])
  | 2 =>
    let t := x.box r / max 1 boxes.length
    ((List.range pos.length).zip pos).filterMap fun (i, p) =>
      let c := p.1.getD r 0
      if q * t ≤ c && c < (q + 1) * t then
        some (x.placeOf x.dstL x.dorg (p.1.set r (c - q * t), p.2), reduceAt x boxes i)
      else none
  | _ => ((List.range pos.length).zip pos).map fun (i, p) => (x.placeOf x.dstL x.dorg p, reduceAt x boxes i)

def State.finishParts (s : State) (ps : List Part) (code detail : Nat) : State :=
  ps.foldl (fun s p => s.finishCmd p.core p.cmd code detail) s

/-- Write to every participant: the failure of the first that fails, if one does. -/
def State.writeParts (s : State) (boxes : List (List (List Byte))) : List (Nat × Part) → State × Option Fail
  | [] => (s, none)
  | (q, p) :: rest =>
    match s.under p.core p.cmd.id fun s => s.placeWrites p.core (s.ctxOf p.core) p.cmd.dstL (collWrites p.cmd q boxes) with
    | (s, some e) => (s, some e)
    | (s, none) => s.writeParts boxes rest

/-- The completion of a collective is a release by every participant at the scope of its level (R260): a system scope, or a wider one,
reaches the host (R302). -/
def State.releaseParts (s : State) (ps : List Part) : State :=
  ps.foldl (fun s p => match s.taskOf p.core with
    | some t => if 4 ≤ s.scopeOf t p.cmd.level then s.systemRelease else s
    | none => s) s

/-- The pair leaves its instance: every later COLL moves up by one. -/
def LaunchState.endPair (l : LaunchState) (me : CollCmd) : LaunchState :=
  { l with colls := (l.colls.filter fun y => !(y.sameInstance me && y.index == 0)).map fun (y : CollCmd) =>
      if y.sameInstance me then { y with index := y.index - 1 } else y }

/-- Does a collective wait: for the command of a participant (R260), for a frozen pool (R191), or at peer scope for the
acknowledgement of a participant's stores (R302)? -/
def State.collWaits (s : State) (me : CollCmd) (ps : List Part) : Bool :=
  !s.pairReady me ps || ps.any fun p => s.anyFrozen (p.cmd.pools p.core) ||
    match s.taskOf p.core with
    | some t => s.scopeOf t p.cmd.level == 5 && !(s.coreAt p.core).peerStores.isEmpty
    | none => false

/-- Perform a collective once every participant has issued its command. -/
def State.performColl (s : State) (me : CollCmd) : State :=
  let ps := s.parts me
  if s.collWaits me ps then s
  else
    let ps := ps.foldl (fun (l : List Part) p => (l.takeWhile fun q => q.rank < p.rank) ++ p :: (l.dropWhile fun q => q.rank < p.rank)) []
    let s' : State := { s with launch := s.launch.endPair me }
    match ps with
    | [] => s'
    | p0 :: _ =>
      let bad := ps.findSome? fun p => match p.cmd.phase with
        | .done code detail => if code = 0 then none else some (code, detail)
        | _ => none
      match bad with
      | some e => s'.finishParts ps e.1 e.2
      | none =>
        if s.pairBroken me ps || (ps.any fun p => !p0.cmd.agrees p.cmd) || ps.length ≤ p0.cmd.root then
          s'.finishParts ps 0x0031 0
        else match ps.findSome? fun p => p.cmd.collFault ps.length with
          | some e => s'.finishParts ps e.1 e.2
          | none => match s'.readBoxes ((List.range ps.length).zip ps) with
            | (t, .error e) => if e.1 = heldCode then s else t.finishParts ps e.1 e.2
            | (t, .ok boxes) => match t.writeParts boxes ((List.range ps.length).zip ps) with
              | (t, some e) => if e.1 = heldCode then s else t.finishParts ps e.1 e.2
              | (t, none) => (t.releaseParts ps).finishParts ps 0 0

/-! ## TOPKI (R263, R358) -/

/-- The order of FP32 scores: NaN lowest, −0 equal to +0. -/
def scoreKey (x : Nat) : Int :=
  let mag : Nat := x % 2 ^ 31
  if 0x7F800000 < mag then -(2 ^ 32 : Int) else if x.testBit 31 then -(mag : Int) else (mag : Int)

def slotScore (w : Nat) : Nat := bits w 31 0
def slotId (w : Nat) : Nat := bits w 47 32

/-- Is slot i (word a) less than slot j (word b)? -/
def slotLess (i a j b : Nat) : Bool :=
  let x := scoreKey (slotScore a)
  let y := scoreKey (slotScore b)
  x < y || (x == y && (slotId b < slotId a || (slotId a == slotId b && j < i)))

/-- The slot that an entry replaces in a record of eight words, if any. -/
def topkSlot (rec' : List Nat) (e : Nat) : Option Nat :=
  let live := ((List.range 8).zip rec').filter fun x => slotId x.2 != 0xFFFE
  match live.foldl (fun (m : Option (Nat × Nat)) x => match m with
    | none => some x
    | some y => if slotLess x.1 x.2 y.1 y.2 then some x else some y) none with
  | none => none
  | some (i, w) =>
    let x := scoreKey (slotScore e)
    let y := scoreKey (slotScore w)
    if 0x7F800000 < slotScore e % 2 ^ 31 then none
    else if y < x || (x == y && slotId e < slotId w) then some i else none

/-- The append of R358: the state, or the failure. -/
def State.appendToken (s : State) (k ctx : Nat) (p e : Nat) : State × Option Fail :=
  match s.mem.ctx ctx with
  | none => (s, none)
  | some c =>
    if c.btbase = 0 then (s, none)
    else
      let b := c.btbase + 64 * slotId e
      match s.engRead k ctx (BitVec.ofNat 64 b) 64 with
      | (s, .error code) => (s, some (code, 4))
      | (s, .ok bs) =>
        let seq := field bs 0 2
        let half := 8 + 24 * (seq % 2)
        let late := bits e 63 48 != seq
        let cnt := half + (if late then 4 else 0)
        let lst := field bs (half + (if late then 16 else 8)) 8
        let n := field bs cnt 4
        if p < c.recbase || 2 ^ 32 ≤ (p - c.recbase) / 64 || field bs 4 4 ≤ n then (s, some (0x0031, 0x4000))
        else match s.engWrite k ctx (BitVec.ofNat 64 (lst + 8 * n)) (leBytes 8 (2 ^ 32 * slotScore e + (p - c.recbase) / 64)) with
          | (s, 0) =>
            (match s.engWrite k ctx (BitVec.ofNat 64 (b + cnt)) (leBytes 4 (n + 1)) with
              | (s, 0) => (s, none)
              | (s, code) => (s, some (code, 4)))
          | (s, code) => (s, some (code, 4))

/-- One indivisible TOPKI. -/
def State.runTopki (s : State) (k : Nat) (x : Cmd) : State :=
  let ctx := s.ctxOf k
  match s.resolve k ctx x.a 64 .atomic with
  | (s, .error (cause, _)) => s.finishCmd k x (codeOf cause) 4
  | (s, .ok _) => match s.engRead k ctx x.a 64 with
    | (s, .error code) => s.finishCmd k x code 4
    | (s, .ok bs) =>
      match topkSlot ((List.range 8).map fun i => field bs (8 * i) 8) x.b.toNat with
      | none => s.finishCmd k x 0 0
      | some i => match s.appendToken k ctx x.a.toNat x.b.toNat with
        | (s, some e) => s.finishCmd k x e.1 e.2
        | (s, none) =>
          let (s, code) := s.engWrite k ctx (x.a + BitVec.ofNat 64 (8 * i)) (leBytes 8 x.b.toNat)
          s.finishCmd k x code (if code = 0 then 0 else 4)

/-! ## GGEMM (R359 to R361) -/

/-- A field of a group record that breaks R359, rising by offset; a kernel record and its own fault are the caller's. -/
def groupFault (c : Ctx) (i : Nat) (b : List Byte) (upTo : Nat) : Option Fail :=
  let kind := field b 0 1
  let h := field b 2 2
  let at' (off : Nat) : Fail := (0x0031, 0x4000 + off)
  let bad : Nat → Option Fail
    | 0x00 => if 2 < kind then some (at' 0) else none
    | 0x01 => if field b 1 1 != 0 then some (at' 1) else none
    | 0x02 => if 2 ^ 14 ≤ h || !c.owns h then some (at' 2) else none
    | 0x08 =>
      if kind = 0 then (if field b 4 4 < field b 8 4 then some (0x0030, i) else none)
      else if field b 8 4 != 0 then some (at' 8) else none
    | 0x0C => if field b 0xC 4 = 0 || field b 0xC 4 % 64 != 0 then some (at' 0xC) else none
    | 0x10 => if field b 0x10 4 = 0 || field b 0x10 4 % 64 != 0 then some (at' 0x10) else none
    | 0x14 => if field b 0x14 4 != 0 then some (at' 0x14) else none
    | 0x18 => if field b 0x18 8 % 64 != 0 || bits (field b 0x18 8) 63 60 != 0 then some (at' 0x18) else none
    | _ => none
  (List.range upTo).findSome? bad

/-- Pass 1 over the records from number i on. -/
def State.walkRecords (s : State) (k : Nat) (c : Ctx) (base : Nat) : Nat → Nat → State × Except Fail (List GroupRec)
  | 0, _ => (s, .ok [])
  | n + 1, i =>
    match s.engRead k c.num (BitVec.ofNat 64 (base + 64 * i)) 64 with
    | (s, .error code) => (s, .error (code, 4))
    | (s, .ok b) => match groupFault c i b 0x19 with
      | some e => (s, .error e)
      | none => match s.engRead k c.num (BitVec.ofNat 64 (field b 0x18 8)) 64 with
        | (s, .error code) => (s, .error (code, 4))
        | (s, .ok kernel) =>
          if (kernelFault kernel).isSome then (s, .error (0x0031, 0x4018))
          else
            let kind := field b 0 1
            let entry : State × Except Fail Unit :=
              if kind = 0 then (s, .ok ())
              else match s.engRead k c.num (BitVec.ofNat 64 (field b 0x38 8)) 64 with
                | (s, .error code) => (s, .error (code, 4))
                | (s, .ok x) => (s,
                  if kind = 1 && field x 2 1 % 2 = 1 then .error (0x0031, 0x4038)
                  else if field b 4 4 < field x 4 4 then .error (0x0030, i)
                  else .ok ())
            match entry with
            | (s, .error e) => (s, .error e)
            | (s, .ok ()) => match s.walkRecords k c base n (i + 1) with
              | (s, .error e) => (s, .error e)
              | (s, .ok rest) => (s, .ok (⟨b, kernel, field b 8 4⟩ :: rest))

def GroupRec.kind (r : GroupRec) : Nat := field r.bytes 0 1
def GroupRec.rows (r : GroupRec) : Nat := field r.bytes 0x38 8

/-- Records checked against one another. -/
def pairFault (rs : List GroupRec) : Bool :=
  (List.range rs.length).any fun i =>
    match rs[i]? with
    | none => false
    | some r =>
      (r.kind == 2 && !rs.any fun x => x.kind == 1 && x.rows == r.rows) ||
      (r.kind == 1 && (rs.take i).any fun x => x.kind == 1 && x.rows == r.rows)

/-- Pass 2 closes the entry of a KIND 1 record: its two sizes. -/
def State.closeEntry (s : State) (k ctx : Nat) (rows : Nat) : State × Except Fail (Nat × Nat) :=
  match s.engRead k ctx (BitVec.ofNat 64 rows) 64 with
  | (s, .error code) => (s, .error (code, 4))
  | (s, .ok b) =>
    let seq := field b 0 2
    let half := 8 + 24 * (seq % 2)
    let other := 8 + 24 * ((seq + 1) % 2)
    let cm := field b half 4
    let ctm := field b (half + 4) 4
    let put (b : List Byte) (off : Nat) (v : List Byte) : List Byte := b.take off ++ v ++ b.drop (off + v.length)
    let b := put b 0 (leBytes 2 (seq + 1))
    let b := put b 2 (leBytes 1 (field b 2 1 ||| 1))
    let b := put b other (leBytes 8 0)
    let b := put b 0x38 (leBytes 4 cm ++ leBytes 4 ctm)
    match s.engWrite k ctx (BitVec.ofNat 64 rows) b with
    | (s, 0) => (s, .ok (cm, ctm))
    | (s, code) => (s, .error (code, 4))

/-- Close every entry: the sizes by entry address, and the failure that ended the closing, if any. -/
def State.closeEntries (s : State) (k ctx : Nat) : List GroupRec → State × List (Nat × Nat × Nat) × Option Fail
  | [] => (s, [], none)
  | r :: rest =>
    if r.kind ≠ 1 then s.closeEntries k ctx rest
    else match s.closeEntry k ctx r.rows with
      | (s, .error e) => (s, [], some e)
      | (s, .ok (cm, ctm)) =>
        let (s, l, e) := s.closeEntries k ctx rest
        (s, (r.rows, cm, ctm) :: l, e)

/-- BUSY clears (R360). -/
def State.clearBusy (s : State) (k ctx rows : Nat) : State :=
  match s.engRead k ctx (BitVec.ofNat 64 (rows + 2)) 1 with
  | (s, .error _) => s
  | (s, .ok b) => (s.engWrite k ctx (BitVec.ofNat 64 (rows + 2)) (leBytes 1 (leValue b / 2 * 2))).1

/-- The tiles of the records, in the order of R361. -/
def ggemmPaths (rs : List GroupRec) : List (List Nat) :=
  ((List.range rs.length).zip rs).flatMap fun (i, r) =>
    (List.range ((r.m + 63) / 64)).flatMap fun mt => (List.range (field r.bytes 0xC 4 / 64)).map fun nt => [i, mt, nt]

/-- GGEMM_WALK: both passes, then the tiles are placed among all clusters in service. -/
def State.walkGgemm (s : State) (k : Nat) (x : Cmd) : State :=
  let ctx := s.ctxOf k
  match s.mem.ctx ctx, (s.taskOf k).bind fun t => s.spec? t.launch with
  | some c, some p =>
    (match s.walkRecords k c x.a.toNat x.b.toNat 0 with
      | (s, .error e) => s.finishCmd k x e.1 e.2
      | (s, .ok rs) =>
        if pairFault rs then s.finishCmd k x 0x0031 0x4038
        else match s.closeEntries k ctx rs with
          | (s, sizes, some e) => (sizes.foldl (fun s z => s.clearBusy k ctx z.1) s).finishCmd k x e.1 e.2
          | (s, sizes, none) =>
            let size (r : GroupRec) : GroupRec := match sizes.find? fun z => z.1 == r.rows with
              | some z => if r.kind = 1 then { r with m := z.2.1 } else if r.kind = 2 then { r with m := z.2.2 } else r
              | none => r
            let rs := rs.map size
            let id := s.launch.nextId
            let g : Ggemm := ⟨id, k, x.id, ctx, x.a, p.sub, p.prio, p.depth, rs, []⟩
            let s : State := { s with launch := { s.launch with ggemms := s.launch.ggemms ++ [g], nextId := id + 1 } }
            let s := s.putCmd k { x with phase := .started }
            (ggemmPaths rs).foldl (fun s c => (s.placeTile id c c (some (s.tileCluster c 3 0)) (3, 0)).1) s)
  | _, _ => s

/-- A GGEMM command whose tiles have all ended: BUSY clears and the command takes the code of R264. -/
def State.endGgemm (s : State) (k : Nat) (x : Cmd) : State :=
  match s.launch.ggemms.find? fun g => g.core == k && g.cmd == x.id with
  | none => s
  | some g =>
    if !s.launchDone g.id then s
    else
      let (code, detail) := worstFail g.fails
      let s := (g.recs.filter fun r => r.kind == 1).foldl (fun s r => s.clearBusy k g.ctx r.rows) s
      (s.forget g.id).finishCmd k x code detail

/-! ## EXPF and EXPC (R347, R348, R354) -/

/-- Does a command wait for an INVL of its core, ahead of it, to place its markers (R268)? -/
def Core.behindMarker (c : Core) (x : Cmd) : Bool :=
  c.cmds.any fun y => (y.kind == .invl || y.kind == .invlAll) && y.phase == .queued && y.id < x.id

/-- Has the bullpen taken every EXPF, EXPC and WHQ that the core issued before a command (R354)? -/
def Core.bullpenFirst (c : Core) (x : Cmd) : Bool :=
  (!c.cmds.any fun y => y.kind.engine == CmdKind.expf.engine && y.open && y.id < x.id) &&
  !c.vars.any fun v => v.kind.isWhq && v.id < x.id

/-- The earlier of two deadlines; none is later than every other. -/
def earlier (a b : Option Nat) : Option Nat :=
  match a, b with
  | some x, some y => some (min x y)
  | some x, none => some x
  | none, y => y

/-- An EXPF that finds its handle in reach takes effect (R347). -/
def State.bindExpf (s : State) (k : Nat) (x : Cmd) (ctx src len : Nat) : State :=
  let h := s.handle (bits x.a.toNat 13 0)
  let e := bits x.a.toNat 63 32
  let s := s.tick
  let deadline := if bits x.b.toNat 63 32 = 0 then none else some (s.host.clock + 2000 * bits x.b.toNat 63 32)
  let prio := bits x.b.toNat 2 0
  let fresh (s : State) : State := (s.enqueue { h with ctx := ctx, expert := some e, src := src, len := len } deadline prio).finishCmd k x 0 0
  match h.state with
  | 1 =>
    if h.expert = some e then
      ({ s with expert := { s.expert with entries := s.expert.entries.map fun (y : BpEntry) =>
          if y.handle == h.num then { y with deadline := earlier y.deadline deadline, prio := max y.prio prio } else y } } : State).finishCmd k x 0 0
    else s.finishCmd k x 0x0031 0
  | 2 => s.finishCmd k x (if h.expert = some e then 0 else 0x0031) 0
  | 3 => if h.expert = some e then (s.useHandle h.num).finishCmd k x 0 0 else s.finishCmd k x 0x0031 0
  | _ => fresh s

/-- May the bullpen accept an EXPF (R349, R356)? -/
def State.expfReady (s : State) (k : Nat) (x : Cmd) : Bool :=
  x.kind == .expf && x.phase == .queued && s.expert.en && s.expert.entries.length + 65 ≤ 1024 &&
  (s.coreAt k).bullpenFirst x && !(s.coreAt k).behindMarker x

/-- EXPF_ACCEPT. -/
def State.acceptExpf (s : State) (k : Nat) (x : Cmd) : State :=
  if !s.expfReady k x then s
  else
    let ctx := s.ctxOf k
    match s.mem.ctx ctx with
    | none => s
    | some c => match s.under k x.id fun s => s.directory c (bits x.a.toNat 63 32) with
      | (s, .error _) => s.finishCmd k x 0x0031 0
      | (s, .ok (src, len)) => (s.bindExpf k x ctx src len).judgeAll

/-- EXPC takes effect (R348). -/
def State.runExpc (s : State) (k : Nat) (x : Cmd) : State :=
  let n := x.a.toNat % 2 ^ 14
  let h := s.handle n
  let s := match h.state with
    | 1 => (s.dequeue n).setHandle { h with state := 5, code := 0x0041 }
    | 2 => (s.dequeue n).setHandle { h with state := 5, code := 0x0041, frames := [] }
    | 3 => (s.setHandle { h with released := true }).dropReleased n
    | _ => s
  (s.finishCmd k x 0 0).judgeAll

/-! ## INVL and FLSH (R268, R269) -/

/-- INVL and INVL.all place their markers, behind which the new mapping is in force (R268). -/
def State.startInvl (s : State) (k : Nat) (x : Cmd) : State :=
  let page := if x.kind = .invl then some x.a.toNat else none
  (s.placeMarkers (.invl k x.id) (s.ctxOf k) [] (fun y => !(y.1 == k && x.id ≤ y.2)) fun m => m.invl (s.ctxOf k) page).putCmd k
    { x with phase := .started }

/-- An INVL whose markers have been passed is complete. -/
def State.endInvl (s : State) (k : Nat) (x : Cmd) : State :=
  if s.passed (.invl k x.id) then (s.dropMarkers (.invl k x.id)).finishCmd k x 0 0 else s

/-! ## PFL (R259) -/

/-- Bring the sector of a pointer into the LLC; a fault, or a sector that does not read well, drops it. -/
def State.prefetchByte (s : State) (k ctx : Nat) (p : Nat) : State :=
  match s.placeByte k ctx p .read with
  | (s, .ok (.dev t)) =>
    if (s.mem.sector? t.kind (t.addr / 32)).isSome then s else { s with mem := (s.mem.look t.kind (t.addr / 32) t.key).1 }
  | (s, _) => s

/-- PFL: the bytes of the source box that lie within the tensor, one by one. It writes nothing visible and never fails. -/
def State.runPfl (s : State) (k : Nat) (x : Cmd) : State :=
  let ctx := s.ctxOf k
  match s.readLayout k ctx x.desc 1 0 with
  | (s, .error _) => s
  | (s, .ok b) =>
    let y : Cmd := { x with src := b, dst := b }
    let l := y.srcL
    let one (s : State) (p : Nat) : State :=
      let c := [0, 1, 2, 3].map fun k => x.sorg k + (y.boxCoord (p / y.perUnit)).getD k 0
      if !([0, 1, 2, 3].all fun k => l.holds k (c.getD k 0)) || !(l.space = 0 || l.space = 4) then s
      else match s.tensorPtr k ctx l (l.byteAt c (p % y.perUnit)).1 false 1 with
        | (s, .ok q) => s.prefetchByte k ctx q.toNat
        | (s, .error _) => s
    (List.range y.positions).foldl one s

/-- Write back and invalidate what a pointer names (R269). -/
def State.flushLine (s : State) (k : Nat) (p : Nat) : State :=
  let ctx := s.ctxOf k
  match s.placeByte k ctx p .flush with
  | (s, .ok (.dev t)) =>
    let n := t.addr / 64 * 2
    { s with mem := (s.mem.flushSector t.kind n).flushSector t.kind (n + 1) }
  | (s, _) => s

/-- FLSH acts. At peer scope it waits for the issuer's earlier stores, and takes the code of the oldest of them that was not
performed (R307). -/
def State.runFlsh (s : State) (k : Nat) (x : Cmd) : State :=
  let scope := x.a.toNat
  let c := s.coreAt k
  if scope = 5 && c.peerStores.any (fun p => p.id < x.id) then s
  else
    let s := if scope < 4 then s else if x.b = 0 then { s with mem := s.mem.flushAll } else s.flushLine k x.b.toNat
    if scope = 5 then
      let code := match c.peerFail.find? fun p => p.1 < x.id with | some p => p.2 | none => 0
      (s.modCore k fun c => { c with peerFail := c.peerFail.filter fun p => x.id ≤ p.1 }).finishCmd k x code 0
    else s.finishCmd k x 0 0

/-! ## Start and completion -/

/-- A queued command starts when nothing ahead of it holds it back. -/
def State.beginCommand (s : State) (k : Nat) (x : Cmd) : State :=
  let c := s.coreAt k
  if x.phase != .queued || c.behindMarker x || c.putOff x then s
  else match x.kind with
    | .cpy | .cpyr | .gath | .scat =>
      if c.cmds.any fun y => y.kind.onChannel && y.chan == x.chan && y.id < x.id then s else s.startCopy k x
    | .pfl => (s.runPfl k x).finishCmd k x 0 0
    | .coll => if c.cmds.any fun y => y.kind == .coll && y.phase == .queued && y.id < x.id then s else s.startColl k x
    | .expf => s
    | .expc => if c.bullpenFirst x then s.runExpc k x else s
    | .topki => s.runTopki k x
    | .hpub =>
      let s := s.addPub (.core k x.id) c.ctx x.a x.b.toNat none c.kernel.strict [] x.commits
      s.putCmd k { x with phase := .started }
    | .lnch =>
      let spec := (s.taskOf k).bind fun t => s.spec? t.launch
      let s := s.requestLaunch (.core k x.id) x.a x.b c.ctx ((spec.map Spec.depth).getD 0 + 1) ((spec.map Spec.sub).getD 0)
      s.putCmd k { x with phase := .started }
    | .ggemm => s
    | .invl | .invlAll => s.startInvl k x
    | .flsh => s.runFlsh k x

/-- ENGINE_COMMAND_START (R244), under the mapping that its markers give it. The handles of EXPC are its context's own. -/
def State.startCommand (s : State) (k : Nat) (x : Cmd) : State :=
  if x.kind == .invl || x.kind == .invlAll || x.kind == .expc then s.beginCommand k x else s.underOf k x.id fun s => s.beginCommand k x

/-- The COLL that waits for its pair, if a command is one. -/
def State.collOf (s : State) (k id : Nat) : Option CollCmd := s.launch.colls.find? fun y => y.core == k && y.id == id

/-- A command whose code is known ends: completion word, token, and its place in the queue (R247, R249). The commands of a
collective end together (R260). -/
def State.endCommand (s : State) (k id : Nat) : State :=
  match (s.coreAt k).cmds.find? fun x => x.id == id with
  | some x => match x.phase with
    | .done code detail =>
      if (s.collOf k id).isSome || s.wordWaits k x.cw then s
      else
        let s := s.underOf k id fun s => s.writeWord k (s.ctxOf k) x.cw code detail x.seq
        (s.passMarkers k id).modCore k fun c => { c with cmds := c.cmds.filter fun y => y.id != id }.setToken x.tok (if code = 0 then .complete else .failed)
    | _ => s
  | none => s

/-- COMMAND_COMPLETION (R249). -/
def State.completeCommand (s : State) (k : Nat) (x : Cmd) : State :=
  let s := match s.collOf k x.id with
    | some me => if me.index = 0 then s.performColl me else s
    | none =>
      if x.phase != CmdPhase.started then s
      else if x.kind.onChannel then (if x.positions ≤ x.moved then s.endCopy k x else s)
      else if x.kind == CmdKind.ggemm then s.underOf k x.id fun s => s.endGgemm k x
      else if x.kind == CmdKind.invl || x.kind == CmdKind.invlAll then s.endInvl k x
      else s
  s.endCommand k x.id

/-- Does a collective wait, for what `collWaits` says or for a group that is being rebuilt (R196)? -/
def State.collHeld (s : State) (me : CollCmd) : Bool :=
  let ps := s.parts me
  s.collWaits me ps ||
  (s.rebuilding (ps.flatMap fun p => p.cmd.pools p.core) && (s.performColl me).launch.colls == s.launch.colls)

/-- What a command may do next. -/
inductive CmdMove where
  | start | deliver | complete | accept | walk
  deriving DecidableEq, Repr

/-- How a command would move on if it were asked to. For the default order. -/
def State.commandMoves (s : State) (k : Nat) (x : Cmd) : Option CmdMove :=
  match s.collOf k x.id with
  | some me => if me.index = 0 && !s.collHeld me then some .complete else none
  | none => match x.phase with
    | .done .. => if s.wordWaits k x.cw then none else some .complete
    | .queued =>
      let c := s.coreAt k
      if x.kind == .expf then (if s.expfReady k x then some .accept else none)
      else if x.kind == .ggemm then (if c.behindMarker x then none else some .walk)
      else
        let s' := s.startCommand k x
        if ((s'.coreAt k).cmds.find? fun y => y.id == x.id) == some x then none else some .start
    | .started =>
      if x.kind.onChannel then
        (if x.positions ≤ x.moved then (if s.arrivalWaits k x then none else some .complete)
          else if s.copyHeld k x then none else some .deliver)
      else if x.kind == .invl || x.kind == .invlAll then (if s.passed (.invl k x.id) then some .complete else none)
      else if x.kind == .ggemm then
        (match s.launch.ggemms.find? fun g => g.core == k && g.cmd == x.id with
          | some g => if s.launchDone g.id then some .complete else none
          | none => none)
      else none
    | .held | .cancelled .. => none

end Sys2Proof.Machine
end

