-- ==== Sys2Proof/Machine/Terminate.lean ====
section
/-! DEFINITION. The termination of a context (R369), and `settle`, which carries out after a step what it left to be done: records,
logs, terminations. -/
namespace Sys2Proof.Machine

/-! ## Termination (R369) -/

/-- The bundle that a core is in runs on to its boundary (R369); `n` bounds its executions. One that cannot go on is squashed. -/
def State.runOut (s : State) : Nat → State
  | 0 => s
  | n + 1 =>
    match s.core.cur with
    | none => s
    | some u =>
      if u.exe = 0 || !s.core.canExecute then s
      else
        let t := s.bundleStep
        if t.core.step = s.core.step then t else t.runOut n

/-- Step 1 for core k: it stops at its next bundle boundary. -/
def State.stopTask (s : State) (k : Nat) : State := ((s.focus k).runOut 256).retire

/-- Step 2 for the commands of one core: each that was started or queued completes with code 0x0070. -/
def State.killCommands (s : State) (k ctx : Nat) (cmds : List Cmd) : State :=
  cmds.foldl (fun s x => if x.phase == .held then s else s.writeWord k ctx x.cw 0x0070 0 x.seq) s

/-- The work of a context that the scheduler and the lists hold (steps 2 and 3). A GGEMM command that ends clears BUSY (R360). -/
def State.dropWork (s : State) (ctx : Nat) : State :=
  let s := (s.launch.ggemms.filter fun g => g.ctx == ctx).foldl
    (fun s g => (g.recs.filter fun r => r.kind == 1).foldl (fun s r => s.clearBusy g.core ctx r.rows) s) s
  let s := (s.launch.launches.filter fun l => l.ctx == ctx).foldl
    (fun s l => s.writeWord 0 ctx (BitVec.ofNat 64 (field l.bytes 0x10 8)) 0x0070 0 l.tasks) s
  let s := (List.range 64).foldl (fun s j =>
    let l := s.launch.lists.toList.getD j ListReg.zero
    if l.busy && l.ctx == ctx then s.stopList j (some 0x0070) else s) s
  let gone (l : Nat) : Bool := (s.launch.launches.any fun x => x.id == l && x.ctx == ctx) || s.launch.ggemms.any fun x => x.id == l && x.ctx == ctx
  let ends := s.launch.tasks.filter fun t => gone t.launch
  let s := { s with launch := { s.launch with
    tiles := s.launch.tiles.filter fun t => !gone t.launch
    ranges := s.launch.ranges.filter fun r => !gone r.launch
    tasks := s.launch.tasks.filter fun t => !gone t.launch
    gangs := s.launch.gangs.filter fun g => !gone g.launch
    saved := s.launch.saved.filter fun x => !gone x.task.launch
    colls := s.launch.colls.filter fun x => !ends.any fun t => t.core == x.core
    barriers := s.launch.barriers.filter fun b => !s.launch.gangs.any fun g => g.id == b.gang && gone g.launch
    reqs := s.launch.reqs.filter fun r => r.ctx != ctx
    pubs := s.launch.pubs.filter fun p => p.ctx != ctx
    overflowed := s.launch.overflowed.filter fun p => p.1 != ctx
    launches := s.launch.launches.filter fun l => l.ctx != ctx
    ggemms := s.launch.ggemms.filter fun g => g.ctx != ctx } }
  s.dropTags fun t => t.ctx == ctx

/-- Handles, bullpen entries and frames of a context (R355). -/
def State.dropHandles (s : State) (c : Ctx) : State :=
  let mine := s.expert.handles.filter fun h => c.owns h.num
  let s := mine.foldl (fun s h => s.unstage h 0 0) s
  { s with expert := { s.expert with
      handles := s.expert.handles.filter fun h => !c.owns h.num
      entries := s.expert.entries.filter fun e => !c.owns e.handle } }

/-- The address of a save slot (R383). -/
def Ctx.slotAddr (c : Ctx) (slot : Nat) : Word := BitVec.ofNat 64 (c.savebase + 2 ^ 20 * slot)

/-- The slot of a saved task becomes free: KIND is 0 (R369, R383). -/
def State.clearSlot (s : State) (x : Saved) : State :=
  match s.mem.ctx x.image.ctx with
  | some c => (s.engWrite 0 c.num (c.slotAddr x.slot) (leBytes 1 0)).1
  | none => s

/-- The save slots of a context become free. -/
def State.freeSlots (s : State) (c : Ctx) : State :=
  (s.launch.saved.filter fun x => x.image.ctx == c.num && x.done).foldl State.clearSlot s

/-- Terminate a context (R369); `type` is the TYPE of the causing record, 0 for a command. The commands of a save that is not
complete are those of its core. -/
def State.terminate (s : State) (ctx type : Nat) : State :=
  match s.mem.ctx ctx with
  | none => s
  | some c =>
    let s := s.record ⟨0, 0, 0x0014, 0, some ctx, type, 0, 0, 0, 0, 0⟩
    let s : State := { s with mem := s.mem.setCtx { c with state := 4 } }
    let home := s.core.kid
    let s := ((s.cores.filter fun k => k.runs ctx).map (·.kid)).foldl State.stopTask s
    let s := s.focus home
    let running := s.cores.filter fun k => k.runs ctx
    let s := running.foldl (fun s k => (s.killCommands k.kid ctx k.cmds)) s
    let s := (s.launch.saved.filter fun x => x.image.ctx == ctx && x.done).foldl (fun s x => s.killCommands x.task.core ctx x.image.cmds) s
    let s := s.freeSlots c
    let s := s.dropRaces (running.map (·.kid))
    let s := s.modCores fun k => if k.runs ctx then k.endTask else k
    let s := s.dropWork ctx
    let s := s.dropHandles c
    let m := s.mem.invl ctx none
    let m := (m.llc.filter fun x => x.owner == ctx && x.dirty).foldl MemState.clean m
    let s : State := { s with mem := { m with
      ctxs := m.ctxs.filter fun x => x.num != ctx
      views := m.views.filter fun v => v.ctx != ctx } }
    s.withdraw

/-! ## After a step -/

/-- Terminations that are due (R341, R369, R417), each with the HBM frames of its sectors (R416). `n` bounds the rounds: a context
ends once, and there are 1024 at most. -/
def State.runDooms (s : State) : Nat → State
  | 0 => { s with mem := { s.mem with doomed := [] } }
  | n + 1 =>
    match s.mem.doomed with
    | [] => s
    | d :: _ =>
      let s := (s.terminate d.ctx d.type).drainRecs
      let sectors := (s.mem.doomed.filter fun x => x.ctx == d.ctx).filterMap (·.sector)
      let s := { s with mem := { s.mem with doomed := s.mem.doomed.filter fun x => x.ctx != d.ctx } }
      let s := sectors.foldl (fun (s : State) x => if x.1 = 0 then s.retireFrame (32 * x.2 / 65536) 1 (some d.ctx) else s) s
      s.runDooms n

/-- Carry out what a step left to be done: records, logs, terminations. -/
def State.settle (s : State) : State :=
  let s := s.drainRecs.drainAudits
  if s.mem.doomed.isEmpty then s else s.runDooms (1024 + s.mem.doomed.length)

end Sys2Proof.Machine
end

