-- ==== Sys2Proof/Machine/Contexts.lean ====
section
/-! DEFINITION. Pre-emption, saves and restores (R287 to R289, R378 to R386) and the context commands (R365 to R369, R374). -/
namespace Sys2Proof.Machine

/-! ## Claims (R378, R379) -/

/-- May a core be claimed for work of a priority? -/
def State.eligible (s : State) (t : Task) (prio : Nat × Nat) : Bool :=
  t.begun && higher prio (s.prioOf t.launch) && s.mates t ≤ s.slotsLeft (s.coreAt t.core).ctx &&
  !(s.launch.claims.any fun x => x.victim == t.core) && (s.coreAt t.core).run != .saving

/-- Is one victim taken before another: lower priority, then later dispatch, then the higher core number? -/
def State.victimBefore (s : State) (a b : Task) : Bool :=
  let pa := s.prioOf a.launch
  let pb := s.prioOf b.launch
  higher pb pa || (pa == pb && (b.order < a.order || (a.order == b.order && b.core < a.core)))

def State.victim (s : State) (dom unit : Nat) (prio : Nat × Nat) : Option Task :=
  (s.launch.tasks.filter fun t => inUnit dom unit t.core && s.eligible t prio).foldl (fun (best : Option Task) t => match best with
    | some b => if s.victimBefore t b then some t else some b
    | none => some t) none

/-- Is a core of a unit free for a piece of waiting work: a tile needs one that holds no range task either (R326)? -/
def State.anyFree (s : State) (by' : Claimant) (dom unit : Nat) : Bool :=
  ((List.range (domSize dom)).map fun i => unit * domSize dom + i).any fun k => match by' with
    | .tile _ => s.coreIdle k
    | _ => s.coreFree k

/-- A piece of waiting work claims a victim when no core of its unit is free. -/
def State.claimFor (s : State) (by' : Claimant) (dom unit : Nat) (prio : Nat × Nat) : State :=
  if (s.launch.claims.any fun x => x.by' == by') || s.anyFree by' dom unit then s
  else match s.victim dom unit prio with
    | some t => s.claimCore t.core by'
    | none => s

/-- Waiting tiles and saved tasks, those of gangs among them, with their units and priorities (R378). -/
def State.waiting (s : State) : List (Claimant × (Nat × Nat) × (Nat × Nat)) :=
  ((s.launch.tiles.filter fun t => t.state == .launchable && s.dispatches t.launch).map fun t =>
    (Claimant.tile t.id, (match t.cluster with | some c => (1, c) | none => (3, 0)), s.prioOf t.launch)) ++
  ((s.launch.saved.filter fun x => x.done && s.dispatches x.task.launch).map fun x =>
    (Claimant.saved x.id, s.unitFor x.task, s.prioOf x.task.launch))

/-- The tasks that must leave their cores, since their context is suspended or their core retired, are claimed while their contexts
have slots (R367, R378, R419). -/
def State.claimLeaving (s : State) : State :=
  let claim (s : State) (t : Task) : State :=
    let suspended := match s.mem.ctx (s.coreAt t.core).ctx with | some c => c.state == 2 | none => false
    let by' : Option Claimant := if suspended then some .suspend else if s.rel.retiring.any (·.1 == t.core) then some .retire else none
    match by' with
    | none => s
    | some m =>
      if (s.launch.claims.any fun y => y.victim == t.core) || (s.coreAt t.core).run == .saving ||
          (if m == .retire then s.slotsFirst else s.slotsLeft) (s.coreAt t.core).ctx < s.mates t then s
      else s.claimCore t.core m
  (s.launch.tasks.filter fun t => t.begun).foldl claim s

/-- Claims are brought up to date: those without work are withdrawn, then tasks that must leave are claimed, and work without a claim
makes one, highest priority first. -/
def State.reclaim (s : State) : State :=
  let s := s.withdraw.claimLeaving
  let ws := s.waiting
  let sorted := ws.foldl (fun (l : List (Claimant × (Nat × Nat) × (Nat × Nat))) w =>
    (l.takeWhile fun x => !higher w.2.2 x.2.2) ++ w :: (l.dropWhile fun x => !higher w.2.2 x.2.2)) []
  sorted.foldl (fun s w => s.claimFor w.1 w.2.1.1 w.2.1.2 w.2.2) s

/-! ## Ends of context commands (R367, R374) -/

/-- A suspension whose tasks are all saved or ended is complete; one whose context has ended is over too. -/
def State.endSuspend (s : State) : State :=
  match s.mem.ctxs.find? fun c => c.state == 2 with
  | none => if s.host.op = 2 then ({ s with host := { s.host with op := 0 } } : State).raise 65 else s
  | some c =>
    if s.cores.any fun k => k.runs c.num then s
    else
      let s' : State := { s with mem := s.mem.setCtx { c with state := 3 } }
      if s.host.op = 2 && s.host.lastCtx = c.num then ({ s' with host := { s.host with op := 0 } } : State).raise 65 else s'

/-- An INVALL whose markers have been passed is complete. -/
def State.endInvall (s : State) : State :=
  if s.host.op = 5 && s.passed .invall then ({ s.dropMarkers .invall with host := { s.host with op := 0 } } : State).raise 65 else s

/-- A HALT whose waits are over (R114, R115) is recorded with the address of the next bundle. -/
def State.endHalts (s : State) : State :=
  (s.cores.filter fun c => c.run == .halting && c.quiet).foldl (fun s c =>
    (s.modCore c.kid fun d => { d with run := .halted }).emit (s.coreRec c.kid 0x0012 0 c.pc 0 0)) s

/-! ## Gangs that no longer fit (R419) -/

/-- May the leaves of a gang that are still to run find room in its unit, and its iterations in theirs (R324), on the cores that have not
been removed from service? -/
def State.gangFits (s : State) (g : Gang) : Bool :=
  let gone := (s.cores.filter fun c => c.run == .retired).map (·.kid)
  gone.isEmpty || (s.fitGang (fun k => !gone.contains k) g g.left).isSome

/-- A gang instance that waits, or is saved whole, and no longer fits its unit fails its tiles; its save slots become free. -/
def State.failGangs (s : State) : State :=
  let waits (g : Gang) : Bool := if g.dispatched then
      (!s.launch.tasks.any fun t => t.gang == some g.id) && s.launch.saved.all fun x => x.task.gang != some g.id || x.done
    else true
  let tight := s.launch.gangs.filter fun g => waits g && !s.gangFits g
  let tiles := tight.flatMap fun g => g.leaves.filterMap (·.tile)
  let out (x : Saved) : Bool := match x.task.gang with | some g => tight.any fun y => y.id == g | none => false
  let s := (s.launch.saved.filter out).foldl State.clearSlot s
  let s := { s with launch := { s.launch with
    gangs := s.launch.gangs.filter fun (g : Gang) => !tight.contains g
    saved := s.launch.saved.filter fun x => !out x } }
  tiles.eraseDups.foldl (fun s t => match s.tile? t with
    | some x => if x.state == .failed || x.state == .done then s else s.failTile x 0x0031 0x4018
    | none => s) s

/-- What the scheduler does after an event that may free a core or end a context command. -/
def State.schedule (s : State) : State :=
  let s := s.endHalts
  (if s.launch.gangs.isEmpty then s else s.failGangs).reclaim.endSuspend.endInvall

/-! ## Saves (R32, R288, R289, R383, R384) -/

/-- The state that a stop keeps, on the core in view: everything older is complete, commands are squashed (R250), which are then ahead
of no marker any more: they are issued again at the restore. A COLL whose pair has been performed is unfinished no more: it completes
before the save does (R260). -/
def State.beginSave (s : State) (forced : Bool) : State :=
  let k := s.core.kid
  match s.taskOf k, s.freeSlot s.core.ctx with
  | some t, some slot =>
    let s := s.sampleVars
    let joined (id : Nat) : Bool := (s.collOf k id).isSome
    let s := { s with launch := { s.launch with colls := s.launch.colls.filter fun (y : CollCmd) => y.core != k } }
    let s := s.unarrive k
    let c := s.core
    let d := c.completeOlder
    let d := d.cmds.foldl Core.squash d
    let d := { d with cmds := d.cmds.map fun (x : Cmd) => if joined x.id then { x with phase := .queued } else x }
    let d := { d with cur := none, point := false, stalled := none, room := [], loans := [] }
    let back := d.cmds.filter fun x => x.stays && x.phase == .queued
    let s := back.foldl (fun s x => (s.passMarkers k x.id).endRaces k x.id) s
    let id := s.launch.nextId
    { s with
      core := { d with run := .saving }
      launch := { s.launch with saved := s.launch.saved ++ [⟨id, slot, forced, t, d, false⟩], nextId := id + 1 } }
  | _, _ => s

/-- PREEMPT_AT_POINT (R288): a claimed task at a point. -/
def State.preemptPoint (s : State) : State :=
  let c := s.core
  if c.run == .running && c.point && c.preq && !c.retiring && !c.entryWaits then s.beginSave false else s

/-- PREEMPTION_LIMIT_EXPIRY (R380). -/
def State.expireLimit (s : State) (k : Nat) : State :=
  { s with launch := { s.launch with claims := s.launch.claims.map fun (x : Claim) => if x.victim == k then { x with limit := true } else x } }

def State.limitPassed (s : State) (k : Nat) : Bool := s.launch.claims.any fun x => x.victim == k && x.limit

/-- Is a core at a bundle boundary with no region open and no repeat in progress (R289)? A TRET to a repeat index other than zero
resumes a repeat (R110). -/
def Core.atBoundary (c : Core) : Bool :=
  c.run != .idle && c.run != .retired && c.run != .saving && !c.retiring && c.raised.isNone && c.arr.region.isNone &&
  match c.cur with
  | some u => u.exe == 0
  | none => !(c.resumed && c.rptidx != 0)

/-- FORCED_STOP (R289). -/
def State.forceStop (s : State) : State :=
  if s.limitPassed s.core.kid && s.core.atBoundary && !s.core.entryWaits then s.beginSave true else s

/-- FORCED_STOP_ESCALATION (R381): an open region is abandoned and the stop lands at its MXOPEN bundle; a stalled repeat
traps, and the stop lands before its handler. -/
def State.escalate (s : State) : State :=
  let c := s.core
  if !s.limitPassed c.kid || c.retiring || c.run == .saving || c.entryWaits then s
  else match c.arr.region with
    | some r =>
      let s := s.sampleVars.releaseHeld
      let d := s.core.completeOlder
      ({ s with core := { d with
          pc := r.pc, loops := r.loops, latches := Latches.empty, shadow := if d.intrap then d.shadow else Latches.empty, rptidx := 0
          cur := none, act := .none, raised := none, stalled := none, resumed := false, brkExempt := .none } } : State).beginSave true
    | none => match c.cur, c.stalled with
      | some u, some t =>
        if u.exe = 0 then s
        else
          let s := s.takeTrap ⟨0x05, false, t.slot, BitVec.ofNat 64 (2 ^ 63 + t.port % 256)⟩ u.addr u.exe (u.bundle.hdr.rpt != 0) u.startLoops
          if s.core.run == .running && s.mem.doomed.isEmpty then s.beginSave true else s
      | _, _ => s

/-- The scratchpad bytes that lie in a set of extents, over zeros. -/
def Core.keepExtents (c : Core) (ext : List (Nat × Nat)) : Mem :=
  match c.leftover with
  | none => c.scratch.filter fun (a, _) => ext.any fun e => e.1 ≤ a && a < e.1 + e.2
  | some _ => ext.foldl (fun (m : Mem) e => m.putN e.1 (c.scrBytes e.1 e.2)) []

/-- The bytes of the entries that the bench queues hold (R177). -/
def Core.benchLive (c : Core) : List (Nat × Nat) :=
  (List.range c.numN).flatMap fun q =>
    let b := c.queue q
    c.benchSpans q b.head b.entries.length

/-- The pool ranges that are live at a point: the extents, the live vector registers and the entries of the bench queues (R32,
R57). -/
def Core.liveRanges (c : Core) : List (Nat × Nat) :=
  c.kernel.extents ++ (((List.range c.numV).filter c.kernel.vlive.testBit).map fun n => (c.vregOff n, 256)) ++ c.benchLive

/-- The image that a point leaves: what is not live reads zero (R32, R384). A poisoned sector of a live vector register, an extent or
an entry of a bench queue stays poisoned (R193), and an abandoned region record is kept (R242). -/
def Core.livePart (c : Core) : Core :=
  { c with
    vregs := Vector.ofFn fun i => if c.kernel.vlive.testBit i.val then c.vregs[i] else 0
    mregs := Vector.ofFn fun i => if c.kernel.mlive.testBit i.val then c.mregs[i] else 0
    tiles := Vector.replicate 8 Tile.zero, arr := { MxArray.zero with abandoned := c.arr.abandoned }
    scratch := c.keepExtents c.kernel.extents, leftover := none
    poison := c.poison.filter fun p => c.liveRanges.any fun e => 32 * p.1 < e.1 + e.2 && e.1 < 32 * p.1 + 32 }

/-- A save reads what it writes to its slot: all of the pool, or what is live at a point (R191, R384). -/
def Core.readSaved (c : Core) (forced : Bool) : Core :=
  if c.latent.isEmpty then c
  else
    (if forced then [(0, Config.poolBytes)] else c.liveRanges).foldl (fun (c : Core) e => (c.detect e.1 e.2 false).1) c

/-- Image size B (R384). -/
def Saved.bytes (x : Saved) (c : Core) : Nat :=
  if x.forced then 917504
  else 65536 + 256 * ((List.range 64).filter c.kernel.vlive.testBit).length + (c.kernel.extents.map (·.2)).foldl (· + ·) 0

/-- Have the commands that a save waits for ended (R250), and does the pool serve it (R191, R196)? -/
def Core.saveReady (c : Core) : Bool :=
  c.run == .saving && c.freeze == 0 && (c.groups.toList.all fun g => g.state != 1) && c.peerStores.isEmpty && c.cmds.all fun x => x.stays && x.phase == .queued

/-- The header of a slot (R383). -/
def saveHeader (kind : Nat) (launch pc : Word) (bytes : Nat) : List Byte :=
  leBytes 8 kind ++ leBytes 8 launch.toNat ++ leBytes 8 pc.toNat ++ leBytes 4 bytes ++ leBytes 36 0

/-- The launch record that a task's header names: of its launch, or the group records of its GGEMM. -/
def State.launchRecord (s : State) (l : Nat) : Word :=
  match s.launch? l with
  | some x => x.recPtr
  | none => match s.ggemm? l with | some g => g.base | none => 0

/-- The frames and keys of the pages from number p on of a save slot, which must allow the access and be of KIND 0 (R383). -/
def State.slotFrames (s : State) (k ctx : Nat) (a : Word) (acc : Access) : Nat → Nat → State × Option (List (Nat × Nat))
  | _, 0 => (s, some [])
  | p, n + 1 =>
    match s.translate k ctx (a.toNat + 65536 * p) acc with
    | (s, .error _) => (s, none)
    | (s, .ok t) =>
      if t.kind ≠ 0 then (s, none)
      else match s.slotFrames k ctx a acc (p + 1) n with
        | (s, none) => (s, none)
        | (s, some l) => (s, some ((t.addr / 65536, t.key) :: l))

/-- The image of a task is written to page p of its slot, behind the 64 bytes of the header. Its layout is internal (R383): what the
page then holds below the LLC are free values (log 82). -/
def MemState.writeImage (m : MemState) (time p frame bytes : Nat) : MemState :=
  let lo := if p = 0 then 64 else 0
  let n := min 65536 (64 + bytes - 65536 * p) - lo
  let a := 65536 * frame + lo
  let inside (num : Nat) : Bool := a ≤ 32 * num && 32 * num < a + n
  { m with
    hbm := m.hbm.fill a n (Config.imageByte time p)
    hbmPoison := m.hbmPoison.filter fun x => !inside x
    hbmErr := m.hbmErr.filter fun x => !inside x.1
    llc := m.llc.filter fun x => !(x.kind == 0 && inside x.num) }

/-- A slot takes the image and then the header (R383): the code of its failure, or 0. -/
def State.writeSlot (s : State) (k : Nat) (c : Ctx) (x : Saved) (launch pc : Word) (bytes : Nat) : State × Nat :=
  let a := c.slotAddr x.slot
  match s.slotFrames k c.num a .write 0 ((64 + bytes + 65535) / 65536) with
  | (s, none) => (s, 0x0020)
  | (s, some fs) =>
    let time := s.fresh
    let m := ((List.range fs.length).zip fs).foldl (fun (m : MemState) p => m.writeImage time p.1 p.2.1 bytes) s.mem
    ({ s with mem := m, fresh := time + 1 } : State).engWrite k c.num a (saveHeader (if x.forced then 2 else 1) launch pc bytes)

/-- A save, or a restore, met a fault in its slot: its context ends (R383; for a restore DESIGN CHOICE, log 97). -/
def State.slotFails (s : State) (k : Nat) (c : Ctx) (slot : Nat) : State :=
  { s with mem := { s.mem with
      recs := s.mem.recs ++ [⟨0, k, 0x0053, 0, some c.num, 0, c.slotAddr slot, 0, 0, 0, 0⟩], doomed := s.mem.doomed ++ [⟨c.num, 0x0053, none⟩] } }

/-- SAVE_COMPLETE (R383): the header is written and the core is free; range tasks it held become orphans. -/
def State.completeSave (s : State) (k : Nat) : State :=
  let c := s.coreAt k
  match s.launch.saved.find? fun x => !x.done && x.task.core == k, s.mem.ctx c.ctx with
  | some x, some y =>
    if !c.saveReady then s
    else
      let c := c.readSaved x.forced
      let full := { c with run := x.image.run, peerFail := [], recs := [], audits := [], latent := [] }
      let s := s.setCore c
      let image := if x.forced then full else full.livePart
      match s.writeSlot k y x (s.launchRecord x.task.launch) c.pc (x.bytes c) with
      | (s, 0) =>
        let s := { s with launch := { s.launch with
          saved := s.launch.saved.map fun (z : Saved) => if z.id == x.id then { z with image := image, done := true } else z
          tasks := s.launch.tasks.filter fun (t : Task) => t.core != k
          claims := s.launch.claims.filter fun (z : Claim) => z.victim != k
          ranges := s.launch.ranges.map fun (r : RangeTask) => if r.holder == some k then { r with holder := none } else r } }
        s.modCore k Core.endTask
      | (s, _) => s.slotFails k y x.slot
  | _, _ => s

/-! ## Restores (R382, R385) -/

/-- A saved state on a core: the pool's repair state, the counts and the Referee's state stay the core's own. The whole pool is
written, stripe by stripe. -/
def Core.restore (d : Core) (image : Core) : Core :=
  let c := d.senseStripes
  { image with
    kid := c.kid, fresh := c.fresh, cycle := c.cycle, taken := c.taken, lgen := c.lgen + 1, preq := false, degr := c.degr, nextId := max c.nextId image.nextId
    peerStores := c.peerStores, peerFail := c.peerFail, refState := c.refState, refCnt := c.refCnt, retWhy := c.retWhy
    audits := c.audits, recs := c.recs, races := [], bankUe := c.bankUe, freeze := c.freeze, poolReqs := c.poolReqs
    groups := c.groups.map fun (g : Group) => { g with entries := [] } }

/-- Read the sectors of an image that may not read well, in a page: does every one of them? -/
def MemState.imageSound (m : MemState) (p frame key bytes : Nat) : MemState × Bool :=
  let a := 65536 * frame
  let n := min 65536 (64 + bytes - 65536 * p)
  let nums := m.hbmErr.map (·.1) ++ m.hbmPoison ++ (m.llc.filter fun x => x.kind == 0).map (·.num)
  (nums.filter fun x => a ≤ 32 * x && 32 * x < a + n).foldl (fun (r : MemState × Bool) x =>
    let (m, _, b) := r.1.look 0 x key
    (m, r.2 && b == .ok)) (m, true)

/-- Read a slot (R385): does all of it read? -/
def State.readSlot (s : State) (k : Nat) (x : Saved) : State × Bool :=
  match s.mem.ctx x.image.ctx with
  | none => (s, true)
  | some c =>
    let bytes := x.bytes x.image
    match s.slotFrames k c.num (c.slotAddr x.slot) .read 0 ((64 + bytes + 65535) / 65536) with
    | (s, none) => (s, false)
    | (s, some fs) =>
      let (m, b) := ((List.range fs.length).zip fs).foldl (fun (r : MemState × Bool) p =>
        let (m, b) := r.1.imageSound p.1 p.2.1 p.2.2 bytes
        (m, r.2 && b)) (s.mem, true)
      ({ s with mem := m }, b)

/-- Restore one task on core k and free its slot. The image is what the save put there: where the slot does not read, the task stays saved and
its context ends. -/
def State.restoreOn (s : State) (k : Nat) (x : Saved) : State :=
  match s.readSlot k x with
  | (s, false) => match s.mem.ctx x.image.ctx with
    | some c => s.slotFails k c x.slot
    | none => s
  | (s, true) =>
    let s := s.modCore k fun c => c.restore x.image
    let s := { s with launch := { s.launch with
      saved := s.launch.saved.filter fun (y : Saved) => y.id != x.id
      tasks := s.launch.tasks ++ [{ x.task with core := k, order := s.launch.order }]
      order := s.launch.order + 1 } }
    s.clearSlot x

/-- Free cores for the saved tasks of a gang, each in its unit, distinct (R324, R382). -/
def State.placeSaved (s : State) (g : Gang) (xs : List Saved) : Option (List (Nat × Saved)) :=
  (s.chooseCores g (xs.map fun x => ⟨x.task.path, x.task.tile⟩)).map fun l =>
    xs.filterMap fun x => (l.find? fun q => q.1 == x.task.path).map fun q => (q.2, x)

/-- The saved tasks that resume together with one, and where, if it may resume on core k now. A gang resumes whole. -/
def State.restorePlan (s : State) (k : Nat) (x : Saved) : Option (List (Nat × Saved)) :=
  if !(s.coreFree k && x.done && inUnit (s.unitFor x.task).1 (s.unitFor x.task).2 k && s.dispatches x.task.launch) then none
  else match x.task.gang with
    | none => some [(k, x)]
    | some g =>
      if s.launch.tasks.any (fun t => t.gang == some g) || s.launch.saved.any (fun y => y.task.gang == some g && !y.done) then none
      else (s.gang? g).bind fun y =>
        (s.placeSaved y (s.launch.saved.filter fun y => y.task.gang == some g)).filter fun l => l.any fun q => q.1 == k && q.2.id == x.id

/-- The saved tasks that may resume on core k now, alone or with their gangs. -/
def State.mayResume (s : State) (k : Nat) : List Saved := s.launch.saved.filter fun x => (s.restorePlan k x).isSome

/-- May a gang of a higher priority be dispatched now, with one of its leaves on core k (R379)? -/
def State.gangSeeks (s : State) (k : Nat) (prio : Nat × Nat) : Bool :=
  s.launch.gangs.any fun g => higher (s.prioOf g.launch) prio && s.gangReady g &&
    ((s.chooseCores g g.left).map fun l => l.any fun q => q.2 == k).getD false

/-- Is there work of a higher priority that a free core may take: an offer, a saved task or a gang (R379)? -/
def State.outranked (s : State) (k : Nat) (prio : Nat × Nat) : Bool :=
  (match s.nearest k with | some o => higher (s.prioOf o.launch) prio | none => false) ||
  ((s.mayResume k).any fun x => higher (s.prioOf x.task.launch) prio) || s.gangSeeks k prio

/-- The plan of a restore in which no core is taken from work of higher priority (R379, R386). -/
def State.restoreNow (s : State) (k : Nat) (x : Saved) : Option (List (Nat × Saved)) :=
  (s.restorePlan k x).filter fun l => !l.any fun p => s.outranked p.1 (s.prioOf x.task.launch)

/-- TASK_RESTORE. -/
def State.restoreTask (s : State) (k : Nat) (x : Saved) : State :=
  match s.restoreNow k x with
  | some l => l.foldl (fun s p => s.restoreOn p.1 p.2) s
  | none => s

/-- What a core without work takes (R326, R379), unless a saved task or a gang of higher priority may start on it. -/
def State.offerFor (s : State) (k : Nat) : Option Offer :=
  if !s.coreIdle k then none
  else (s.nearest k).filter fun o =>
    !((s.mayResume k).any fun x => higher (s.prioOf x.task.launch) (s.prioOf o.launch)) && !s.gangSeeks k (s.prioOf o.launch)

/-- WORK_REQUEST. -/
def State.requestWork (s : State) (k : Nat) : State :=
  match s.offerFor k with
  | some o => s.take k o
  | none => s

/-- The cores on which a gang may be dispatched now, if it may: free, distinct, and sought by no work of higher priority (R328,
R379). -/
def State.gangCores (s : State) (g : Gang) : Option (List (List Nat × Nat)) :=
  if !s.gangReady g then none
  else (s.chooseCores g g.left).filter fun l => !l.any fun q => s.outranked q.2 (s.prioOf g.launch)

/-- GANG_DISPATCH: all leaves at the same time on distinct free cores. -/
def State.dispatchGang (s : State) (g : Gang) : State :=
  match s.gangCores g with
  | none => s
  | some l =>
    let s := { s with launch := { s.launch with gangs := s.launch.gangs.map fun (x : Gang) => if x.id == g.id then { x with dispatched := true } else x } }
    let start (s : State) (r : Nat) : State :=
      let leaf := g.leaves.getD r ⟨[], none⟩
      let tile := leaf.tile.bind s.tile?
      let failed : Bool := match tile with | some t => t.state == .failed | none => false
      match l.find? fun q => q.1 == leaf.path with
      | none => s
      | some (_, k) =>
        if failed then s
        else
          let s := match tile with
            | some t => s.setTile { t with state := .running }
            | none => s
          let t : Task := ⟨k, g.launch, leaf.tile, leaf.path, some g.id, r, 0, g.dom, g.unit, [], false⟩
          ({ s with launch := { s.launch with tasks := s.launch.tasks ++ [t] } }).startTask t
    ((List.range g.leaves.length).filter fun r => !g.ended.contains r).foldl start s

/-! ## Context commands -/

/-- A context command is refused (R366). -/
def State.refuseCtx (s : State) (c : Nat) : State := { s with host := { s.host with lastCtx := c, ctxErr := true } }

/-- A command on a context, from its states: ignored while another is in progress, and refused elsewhere. ERR stays until it
is cleared; the end of a command raises vector 65 (R394). -/
def State.ctxCommand (s : State) (c : Nat) (ok : Option Nat → Bool) (f : State → State) : State :=
  if s.host.op ≠ 0 then { s with host := { s.host with ctxErr := true } }
  else if c = 0 || !ok ((s.mem.ctx c).map (·.state)) then s.refuseCtx c
  else
    let s' := f { s with host := { s.host with lastCtx := c, ctxErr := false } }
    if s'.host.op = 0 && !s'.host.ctxErr then ({ s' with host := { s'.host with ctxErr := s.host.ctxErr } } : State).raise 65
    else { s' with host := { s'.host with ctxErr := s'.host.ctxErr || s.host.ctxErr } }

def Ctx.ofBytes (c : Nat) (b : List Byte) : Ctx :=
  { num := c, state := 1, ptroot := field b 0 8, savebase := field b 8 8, savecnt := field b 0x10 4
    plimit := field b 0x14 2, keylo := field b 0x16 2, keycnt := field b 0x18 2, kvpool := field b 0x20 8, ovfbase := field b 0x28 8
    ovfcap := field b 0x30 4, edir := field b 0x40 8, nexp := field b 0x48 4, hlo := field b 0x4C 2, hcnt := field b 0x4E 2
    hbase := field b 0x50 8, hstride := field b 0x58 8, btbase := field b 0x60 8, recbase := field b 0x68 8, quota := field b 0x70 4 }

/-- Does a descriptor keep the limits of R345 and R365? -/
def Ctx.valid (c : Ctx) (b : List Byte) (others : List Ctx) : Bool :=
  let at' (a n : Nat) : Bool := a % n = 0
  let win0 (a n : Nat) : Bool := a % n = 0 && a < 2 ^ 48
  field b 0x1A 6 = 0 && field b 0x34 12 = 0 && field b 0x74 140 = 0 &&
  at' c.ptroot 4096 && win0 c.savebase (2 ^ 20) && c.savecnt ≤ 65535 && c.keylo + c.keycnt ≤ 4096 && win0 c.kvpool 64 &&
  win0 c.ovfbase 64 && c.ovfcap ≤ 2 ^ 20 && win0 c.edir 64 && at' c.btbase 64 && at' c.recbase 64 &&
  (c.hcnt = 0 || (c.hlo + c.hcnt ≤ 16384 && win0 c.hbase (2 ^ 21) && c.hstride ≠ 0 && at' c.hstride (2 ^ 21))) &&
  !(others.any fun o => c.hcnt ≠ 0 && o.hcnt ≠ 0 && c.hlo < o.hlo + o.hcnt && o.hlo < c.hlo + c.hcnt)

/-- CREATE. -/
def State.createCtx (s : State) (c : Nat) : State :=
  s.ctxCommand c (·.isNone) fun s =>
    match s.mem.physRead (bits s.host.ctxbase.toNat 63 18 * 2 ^ 18 + 256 * c) 256 with
    | (m, none) => ({ s with mem := m } : State).refuseCtx c
    | (m, some b) =>
      let x := Ctx.ofBytes c b
      let renewal : Renewal := ⟨c, none, m.changes.length⟩
      if x.valid b m.ctxs then
        { s with mem := { m with ctxs := m.ctxs ++ [x], renewals := renewal :: m.renewals.filter fun r => r.ctx != c } }
      else ({ s with mem := m } : State).refuseCtx c

/-- SUSPEND: every running task is claimed while its context has slots for it. -/
def State.suspendCtx (s : State) (c : Nat) : State :=
  s.ctxCommand c (· == some 1) fun s =>
    match s.mem.ctx c with
    | none => s
    | some x =>
      ({ s with mem := s.mem.setCtx { x with state := 2 }, host := { s.host with op := 2 } } : State).claimLeaving

/-- RESUME. -/
def State.resumeCtx (s : State) (c : Nat) : State :=
  s.ctxCommand c (· == some 3) fun s =>
    match s.mem.ctx c with
    | none => s
    | some x => { s with mem := s.mem.setCtx { x with state := 1 } }

/-- TERMINATE. -/
def State.terminateCtx (s : State) (c : Nat) : State :=
  s.ctxCommand c (fun st => st == some 1 || st == some 2 || st == some 3) fun s => s.terminate c 0

/-- INVALL (R374). -/
def State.invallCtx (s : State) (c : Nat) : State :=
  s.ctxCommand c (fun st => st == some 1 || st == some 3) fun s =>
    ({ s with mem := s.mem.flushAll, host := { s.host with op := 5 } } : State).placeMarkers .invall c [] (fun _ => true) fun m => m.invl c none

end Sys2Proof.Machine
end

