-- ==== Sys2Proof/Machine/Experts.lean ====
section
/-! DEFINITION. The bullpen's reads, staging, eviction and deadlines (R349 to R352, R356). -/
namespace Sys2Proof.Machine

/-! ## Frames (R351, R352, R416) -/

/-- The frames of the cache, as HBM address div 65536. -/
def State.cacheFrames (s : State) : List Nat := (List.range s.expert.frames).map fun i => s.expert.ecbase.toNat / 65536 + i

/-- Frames of evicted handles whose aperture commands in engine queues still use (R268, R352). -/
def State.leavingFrames (s : State) : List Nat :=
  s.mem.views.flatMap fun v => v.aper.flatMap fun a => a.pages.map fun p => p.frame / 65536

def State.freeFrames (s : State) : List Nat :=
  let leaving := s.leavingFrames
  s.cacheFrames.filter fun f => !s.mem.frames.contains f && !leaving.contains f && !s.expert.handles.any fun h => h.frames.contains f

/-- Frames that a context holds. -/
def State.framesHeld (s : State) (ctx : Nat) : Nat :=
  ((s.expert.handles.filter fun h => h.ctx == ctx).map fun h => h.frames.length).foldl (· + ·) 0

/-- The least recently used staged handle that no tile pins, of one context or of any. Of handles that nothing has used, the one staged
longest ago goes first (DESIGN CHOICE, log 64). -/
def State.evictee (s : State) (ctx : Option Nat) : Option Handle :=
  (s.expert.handles.filter fun h => h.state == 3 && h.pins.isEmpty && (match ctx with | some c => h.ctx == c | none => true)).foldl
    (fun (best : Option Handle) h => match best with
      | some b => if h.used < b.used || (h.used == b.used && h.since < b.since) then some h else some b
      | none => some h) none

/-- A staged handle is evicted: markers are placed behind the commands of its context, and those translate with the old mapping
(R268, R352). -/
def State.evict (s : State) (h : Handle) : State :=
  let s := if (s.queued h.ctx).isEmpty then s
    else s.placeMarkers .evict h.ctx (s.mem.aper.filter fun a => a.handle == h.num) (fun _ => true) fun m => m
  s.unstage h 0 0

/-- Evict until the context's quota and the free frames, with those that become free, allow `len` more; none if they cannot.
`n` bounds the evictions. -/
def State.makeRoom (s : State) (ctx quota len : Nat) : Nat → Option State
  | 0 => none
  | n + 1 =>
    if quota < s.framesHeld ctx + len then
      (match s.evictee (some ctx) with
        | some h => (s.evict h).makeRoom ctx quota len n
        | none => none)
    else if s.freeFrames.length + s.leavingFrames.length < len then
      (match s.evictee none with
        | some h => (s.evict h).makeRoom ctx quota len n
        | none => none)
    else some s

/-! ## Reads -/

/-- Is one entry ahead of another (R349)? -/
def BpEntry.before (a b : BpEntry) : Bool :=
  let prio := b.prio < a.prio || (a.prio == b.prio && a.order < b.order)
  match a.deadline, b.deadline with
  | some x, some y => x < y || (x == y && prio)
  | some _, none => true
  | none, some _ => false
  | none, none => prio

/-- The entry whose read is to start next. -/
def State.firstEntry (s : State) : Option BpEntry :=
  (s.expert.entries.filter fun e => !e.started).foldl (fun (best : Option BpEntry) e => match best with
    | some b => if e.before b then some e else some b
    | none => some e) none

def State.readsInFlight (s : State) : Nat := (s.expert.entries.filter (·.started)).length

def State.stagedCount (s : State) : Nat := (s.expert.handles.filter fun h => h.state == 3).length

/-- Start the read of a handle's entry if frames allow it, after the evictions that this takes: while markers keep the evicted frames,
only these are made. None if there is nothing to do. -/
def State.startRead (s : State) (h : Nat) : Option State :=
  let x := s.handle h
  if x.state ≠ 1 || 64 ≤ s.readsInFlight then none
  else match s.mem.ctx x.ctx with
    | none => none
    | some c => (s.makeRoom x.ctx c.quota x.len 16385).bind fun t =>
      if t.freeFrames.length < x.len then (if t.stagedCount < s.stagedCount then some t else none)
      else
        let t := t.setHandle { x with state := 2, frames := t.freeFrames.take x.len, got := [] }
        some { t with expert := { t.expert with entries := t.expert.entries.map fun (e : BpEntry) => if e.handle == h then { e with started := true } else e } }

/-- Is the read of a handle's entry the one to start: the first by the keys of R349, or in host-assisted mode one that BPSTART has
named (R356)? -/
def State.readDue (s : State) (h : Nat) : Bool :=
  if s.expert.hostord then s.expert.entries.any fun e => e.handle == h && !e.started && e.asked
  else (s.firstEntry.map (·.handle)) == some h

/-- BULLPEN_READ_START. -/
def State.bullpenStart (s : State) (h : Nat) : State :=
  if !s.readDue h then s
  else match s.startRead h with
    | some s => s.judgeAll
    | none => s

/-- BPSTART (R356): the host's order. A read that has to wait, for frames under R351 or for its place among 64, starts when it can. -/
def State.hostStart (s : State) (value : Word) : State :=
  let h := bits value.toNat 13 0
  if !s.expert.hostord || !(s.expert.entries.any fun e => e.handle == h && !e.started) then s
  else
    let entries := s.expert.entries.map fun (e : BpEntry) => if e.handle == h then { e with asked := true } else e
    ({ s with expert := { s.expert with entries := entries } } : State).bullpenStart h

/-! ## Staging (R351) -/

/-- The source page of piece i: its target, or the code of the fault. -/
def State.sourcePage (s : State) (x : Handle) (i : Nat) : State × Except Nat Target :=
  match s.mem.translate x.ctx (x.src + 65536 * i) .read with
  | (m, .error f) => ({ s with mem := m }, .error (if f.cause = 0x0A then 0x0021 else 0x0020))
  | (m, .ok t) => ({ s with mem := m }, if t.kind = 1 then .ok t else .error 0x0020)

/-- The code with which the read of a handle fails, if it does: 0x0040 once a page of flash stays uncorrectable after its retries
(R351, R439). -/
def State.stagingFault (s : State) (x : Handle) : Option Nat :=
  (List.range x.len).findSome? fun i =>
    match s.sourcePage x i with
    | (_, .error e) => some e
    | (s, .ok t) =>
      let bad (p : Nat) : Bool := let p := t.addr / 16384 + p; s.mem.flashBad.contains p && !x.got.contains p
      if [0, 1, 2, 3].any bad then some 0x0040 else none

/-- Copy piece i into its frame, encrypted with the key of the source page. -/
def State.stagePage (s : State) (x : Handle) (i : Nat) : State × AperPage :=
  let frame := 65536 * x.frames.getD i 0
  match s.sourcePage x i with
  | (s, .error _) => (s, ⟨frame, 0, 0⟩)
  | (s, .ok t) =>
    let put (m : MemState) (j : Nat) : MemState :=
      let d := m.below 1 (t.addr / 32 + j) t.key
      let num := frame / 32 + j
      (m.dropSector 0 num).writeHbm num (.wr (match m.key t.key with | some k => encSector k (32 * num) d | none => d))
    ({ s with mem := (List.range 2048).foldl put s.mem }, ⟨frame, t.key, t.pfmt⟩)

def State.stagePages (s : State) (x : Handle) : List Nat → State × List AperPage
  | [] => (s, [])
  | i :: is =>
    let (s, p) := s.stagePage x i
    let (s, ps) := s.stagePages x is
    (s, p :: ps)

/-- STAGING_FAILURE: the read of a handle stops with the code of its fault. -/
def State.failStaging (s : State) (h code : Nat) : State :=
  let x := s.handle h
  if x.state ≠ 2 || s.stagingFault x ≠ some code then s
  else ((s.dequeue h).unstage x 4 code).judgeAll

/-- The next flash page that the read of a handle waits for. -/
def State.missingPage (s : State) (x : Handle) : Option Nat :=
  (List.range (4 * x.len)).findSome? fun i =>
    match (s.sourcePage x (i / 4)).2 with
    | .ok t => let p := (t.addr + 16384 * (i % 4)) / 16384; if x.got.contains p then none else some p
    | .error _ => none

/-- The next flash page whose read is still to be issued. -/
def State.unreadPage (s : State) (x : Handle) : Option Nat :=
  let under (p : Nat) : Bool := s.flash.reads.any fun r => r.handle == some x.num && 4 * r.unit + r.page == p
  (List.range (4 * x.len)).findSome? fun i =>
    match (s.sourcePage x (i / 4)).2 with
    | .ok t => let p := (t.addr + 16384 * (i % 4)) / 16384; if x.got.contains p || under p then none else some p
    | .error _ => none

/-- STAGING_COMPLETE: every byte has arrived, the frames are mapped and the handle is staged. -/
def State.completeStaging (s : State) (h : Nat) : State :=
  let x := s.handle h
  if x.state ≠ 2 || (s.stagingFault x).isSome || (s.missingPage x).isSome then s
  else
    let (s, pages) := s.stagePages x (List.range x.len)
    let s := { s with mem := { s.mem with aper := ⟨h, pages⟩ :: s.mem.aper.filter fun a => a.handle != h } }
    let s := s.setHandle { s.handle h with state := 3, code := 0, since := s.expert.order }
    (({ s with expert := { s.expert with order := s.expert.order + 1 } } : State).dequeue h).judgeAll

/-- DEADLINE_MISS (R350): time has reached the deadline of an entry, and with it every earlier one. -/
def State.missDeadline (s : State) (h : Nat) : State :=
  match (s.expert.entries.find? fun e => e.handle == h && !e.missed).bind (·.deadline) with
  | some d =>
    let clock := max s.host.clock d
    { s with host := { s.host with clock := clock }, expert := s.expert.countMisses clock }
  | none => s

end Sys2Proof.Machine
end

