-- ==== Sys2Proof/Machine/Flash.lean ====
section
/-! DEFINITION. The flash translation engine (R436 to R440, R443, R464); log 30 names what the spec leaves open. -/
namespace Sys2Proof.Machine

/-! ## Blocks and units -/

/-- Blocks of a stack: 262,144 of usable capacity and 4,096 spare ones (log 30). -/
def stackBlocks : Nat := 266240

def Block.fresh (st b : Nat) : Block := ⟨st, b, 0, 0, 0, 0, 0, none, 0, 0, none, false⟩

def State.block (s : State) (st b : Nat) : Block :=
  match s.flash.blocks.find? fun x => x.stack == st && x.num == b with
  | some x => x
  | none => Block.fresh st b

def State.setBlock (s : State) (x : Block) : State :=
  { s with flash := { s.flash with blocks := x :: s.flash.blocks.filter fun y => !(y.stack == x.stack && y.num == x.num) } }

/-- The units whose data lie in a block, lowest first. -/
def State.unitsOf (s : State) (st b : Nat) : List Nat :=
  ((s.flash.map.filter fun x => x.unit % 8 == st && x.block == b).map (·.unit)).mergeSort

def State.blockOf (s : State) (u : Nat) : Option Nat := (s.flash.map.find? fun x => x.unit == u).map (·.block)

/-- The first of the four consecutive pages of its block that a unit occupies (R436). -/
def UnitPlace.firstPage (x : UnitPlace) : Nat := 4 * x.slot

def State.mapUnit (s : State) (u b slot : Nat) : State :=
  { s with
    flash := { s.flash with map := ⟨u, b, slot⟩ :: s.flash.map.filter fun x => x.unit != u }
    mem := { s.mem with mapped := addOnce u s.mem.mapped } }

def State.unmapUnit (s : State) (u : Nat) : State :=
  { s with
    flash := { s.flash with map := s.flash.map.filter fun x => x.unit != u }
    mem := { s.mem with
      mapped := s.mem.mapped.filter (· != u), flashBad := s.mem.flashBad.filter fun p => p / 4 != u
      flashErr := s.mem.flashErr.filter fun p => p / 4 != u
      pageBuf := s.mem.pageBuf.filter fun p => p / 4 != u
      llc := s.mem.llc.filter fun y => !(y.kind == 1 && 32 * y.num / 65536 == u) } }

/-- Is every page of a unit readable (R439)? -/
def State.unitGood (s : State) (u : Nat) : Bool := !s.mem.flashBad.any fun p => p / 4 == u

def State.stackList (s : State) (st : Nat) : List Block := s.flash.blocks.filter fun x => x.stack == st

/-- Free blocks of a stack: SPARE (R440). -/
def State.freeBlocks (s : State) (st : Nat) : Nat := stackBlocks - ((s.stackList st).filter fun x => x.state != 0).length

/-- The free block with the lowest ERASES, then the lowest number (R437). -/
def State.freeBlock (s : State) (st : Nat) : Option Nat :=
  let l := s.stackList st
  match ((List.range (min stackBlocks (l.length + 1))).find? fun n => !l.any fun x => x.num == n), (l.filter fun x => x.state == 0).foldl
      (fun (best : Option Block) x => match best with
        | some b => if x.erases < b.erases || (x.erases == b.erases && x.num < b.num) then some x else some b
        | none => some x) none with
  | some n, some b => if b.erases = 0 && b.num < n then some b.num else some n
  | some n, none => some n
  | none, some b => some b.num
  | none, none => none

/-- Smallest ERASES of in-use and free blocks, and largest of all (R440). -/
def State.eMin (s : State) (st : Nat) : Nat :=
  let l := (s.stackList st).filter fun x => x.state ≤ 2
  if (s.stackList st).length < stackBlocks then 0 else (l.map (·.erases)).foldl min (l.headD (Block.fresh st 0)).erases
def State.eMax (s : State) (st : Nat) : Nat := ((s.stackList st).map (·.erases)).foldl max 0

/-- A flash record (R438, R439). -/
def State.flashRec (s : State) (st type flags code : Nat) (ctx : Option Nat) (addr info0 info1 info2 : Nat) : State :=
  s.emit ⟨4, st, type, flags, ctx, code, BitVec.ofNat 64 addr, BitVec.ofNat 64 info0, BitVec.ofNat 64 info1, BitVec.ofNat 64 info2, 0⟩

/-! ## Relocation and retirement (R437, R438, R464) -/

/-- A retired block's record: CODE, and the units it keeps, which are lost. -/
def State.retireRecord (s : State) (st b code flags : Nat) : State :=
  s.flashRec st 0x0042 flags code none 0 b ((s.unitsOf st b).filter fun u => !s.unitGood u).length 0

/-- Begin the relocation of a block, or defer it when the stack has no free block, or has older deferred ones, of which the oldest
trigger goes first; one for a retirement or for the host takes a free block at once (log 30). `retire` is the CODE of the retirement that
follows it; a block to be retired without a free block is retired at once, in place. One that is deferred already stays so. -/
def State.relocate (s : State) (st b why : Nat) (dest retire : Option Nat) : State :=
  let x := s.block st b
  let waits := s.flash.deferred.any fun y => y.1 == st && y.2.1 == b
  if waits && why < 2 then s
  else match dest <|> (if why < 2 && s.flash.deferred.any (fun y => y.1 == st) then none else s.freeBlock st) with
  | some d =>
    let s := { s with flash := { s.flash with deferred := s.flash.deferred.filter fun y => !(y.1 == st && y.2.1 == b) } }
    let s := s.setBlock { s.block st d with state := 1, filled := (s.unitsOf st b).length }
    s.setBlock { x with state := 2, toBlock := some d, why := why, trigger := x.reads, retire := retire }
  | none =>
    let mark (y : Nat × Nat × Nat) : Nat × Nat × Nat := if y.1 == st && y.2.1 == b then (st, b, why) else y
    let queue := if waits then s.flash.deferred.map mark else s.flash.deferred ++ [(st, b, why)]
    let s : State := { s with flash := { s.flash with deferred := queue } }
    let x := { x with trigger := x.reads }
    match retire with
    | some code => (s.setBlock { x with state := 3 }).retireRecord st b code 8
    | none => s.setBlock x

/-- A block is to be retired: its readable units are relocated first. -/
def State.retireBlock (s : State) (st b code : Nat) : State :=
  let x := s.block st b
  if x.state = 3 || x.state = 4 then s
  else if (s.unitsOf st b).any s.unitGood then
    (if x.state = 2 then s.setBlock { x with retire := some code } else s.relocate st b 2 none (some code))
  else (s.setBlock { x with state := 3, toBlock := none, erasing := false }).retireRecord st b code 0

/-- A page of a block is found to stay uncorrectable (R439): what the caches hold of it goes, and the first time a record says so. -/
def State.notePage (s : State) (st b p : Nat) (handle : Option Nat) : State :=
  let m := { s.mem with
    flashErr := s.mem.flashErr.filter (· != p), pageBuf := s.mem.pageBuf.filter (· != p)
    llc := s.mem.llc.filter fun y => !(y.kind == 1 && 32 * y.num / 16384 == p) }
  if s.mem.flashBad.contains p then { s with mem := m }
  else
    let x := s.block st b
    let n := s.flash.uepg.toList.getD st 0
    let s := s.setBlock { x with badpg := min 255 (x.badpg + 1) }
    let s : State := { s with
      flash := { s.flash with uepg := s.flash.uepg.setIfInBounds st (min 65535 (n + 1)) }
      mem := { m with flashBad := addOnce p m.flashBad } }
    s.flashRec st 0x0040 0 0 (handle.map fun h => (s.handle h).ctx) (16384 * p) (handle.getD 0xFFFFFFFF) 0 0

/-- What follows from an uncorrectable page (R437): in hardware mode the CODE of the retirement of its block. -/
def State.pageRetires (s : State) (st b : Nat) : State × Option Nat :=
  if s.host.duty.getLsbD 0 then (s.retireRecord st b 2 2, none) else (s, some 2)

/-- The copy of a block reads its pages and verifies them (R438): those found uncorrectable stay, and the block is to be retired (R437,
R439). -/
def State.verifyBlock (s : State) (st b : Nat) : State :=
  let units := s.unitsOf st b
  (s.mem.flashErr.filter fun p => units.contains (p / 4)).foldl (fun s p =>
    let (s, why) := (s.notePage st b p none).pageRetires st b
    let x := s.block st b
    if x.state = 2 then s.setBlock { x with retire := why <|> x.retire } else s) s

/-- RELOCATION_SWITCH: the readable units move in one step, to the first slots of the new block. A block that is not retired then waits
for its erase. -/
def State.switchBlock (s : State) (st b : Nat) : State :=
  match (s.block st b).toBlock with
  | none => s
  | some d =>
    let s := s.verifyBlock st b
    let x := s.block st b
    let units := (s.unitsOf st b).filter s.unitGood
    let s := units.zipIdx.foldl (fun s u => s.mapUnit u.1 d u.2) s
    let n := s.flash.reloc.toList.getD (st % 8) 0
    let s := { s with flash := { s.flash with reloc := s.flash.reloc.setIfInBounds st (n + 1) } }
    let s := s.flashRec st 0x0041 0 x.why none (65536 * units.headD 0) b d x.trigger
    match x.retire with
    | some code => (s.setBlock { x with state := 3, toBlock := none }).retireRecord st b code 0
    | none =>
      if x.state = 3 then s.setBlock { x with toBlock := none }
      else s.setBlock { x with toBlock := none, erasing := true }

/-- Wear levelling, evaluated after an erase (R437): in host-assisted mode its record asks the host for it. -/
def State.levelWear (s : State) (st : Nat) : State :=
  let inUse := (s.stackList st).filter fun x => x.state == 1
  let least := inUse.foldl (fun (best : Option Block) x => match best with
    | some b => if x.erases < b.erases || (x.erases == b.erases && x.num < b.num) then some x else some b
    | none => some x) none
  match least with
  | some x =>
    if s.eMax st - s.eMin st ≤ s.flash.wldiff || x.erases ≠ s.eMin st then s
    else if s.host.duty.getLsbD 0 then s.flashRec st 0x0041 2 1 none (65536 * (s.unitsOf st x.num).headD 0) x.num 0 x.reads
    else s.relocate st x.num 1 none none
  | none => s

/-- BLOCK_ERASE: once every read issued to the block has completed. A failure retires the block. -/
def State.eraseBlock (s : State) (st b : Nat) (failed : Bool) : State :=
  let x := s.block st b
  if !x.erasing || s.flash.reads.any (fun r => r.stack == st && r.block == b) then s
  else if failed then
    (if s.host.duty.getLsbD 0 then s.retireRecord st b 1 2
     else (s.setBlock { x with state := 3, erasing := false }).retireRecord st b 1 0)
  else
    (s.setBlock { x with state := 0, reads := 0, erases := x.erases + 1, filled := 0, erasing := false, retire := none }).levelWear st

/-- DEFERRED_RELOCATION_START: the oldest that waits in a stack that has a free block again. In host-assisted mode the engine starts
none. -/
def State.startDeferred (s : State) (st : Nat) : State :=
  match s.flash.deferred.find? fun x => x.1 == st, s.freeBlock st with
  | some (_, b, why), some d =>
    if s.host.duty.getLsbD 0 then s else
    let s := { s with flash := { s.flash with deferred := s.flash.deferred.filter fun x => !(x.1 == st && x.2.1 == b) } }
    let x := s.block st b
    let s := s.setBlock { s.block st d with state := 1, filled := (s.unitsOf st b).length }
    s.setBlock { x with state := if x.state = 3 then 3 else 2, toBlock := some d, why := why }
  | _, _ => s

/-! ## Reads (R437, R439, R443) -/

/-- One page read of a block is counted; at the threshold the block is relocated. -/
def State.countRead (s : State) (st b : Nat) : State :=
  let x := s.block st b
  let n := min (x.reads + 1) (2 ^ 24 - 1)
  let s := s.setBlock { x with reads := n }
  if n < s.flash.rdthr || x.state ≠ 1 then s
  else if s.host.duty.getLsbD 0 then
    (if n = s.flash.rdthr then s.flashRec st 0x0041 2 0 none (65536 * (s.unitsOf st b).headD 0) b 0 n else s)
  else s.relocate st b 0 none none

/-- FLASH_PAGE_READ: a page read is issued to a die, from the block that the map names now (R438). -/
def State.readPage (s : State) (u page : Nat) (handle : Option Nat) : State :=
  match s.blockOf u with
  | none => s
  | some b =>
    let st := u % 8
    let r : PageRead := ⟨s.flash.nextId, u, page % 4, st, b, handle, 0⟩
    ({ s with flash := { s.flash with reads := s.flash.reads ++ [r], nextId := s.flash.nextId + 1 } } : State).countRead st b

/-- The page reads of a unit are issued to the dies together (R445): those of a staging that stops which the agenda has not issued are
counted. -/
def State.countRest (s : State) (r : PageRead) (h : Nat) : State :=
  let got := (s.handle h).got
  let issued (p : Nat) : Bool := p == r.page || got.contains (4 * r.unit + p) ||
    s.flash.reads.any fun x => x.handle == some h && x.unit == r.unit && x.page == p
  ((List.range 4).filter fun p => !issued p).foldl (fun s _ => s.countRead r.stack r.block) s

/-- A page that stays uncorrectable (R437, R439). -/
def State.badPage (s : State) (r : PageRead) : State :=
  let p := 4 * r.unit + r.page
  let fresh := !s.mem.flashBad.contains p
  let s := match r.handle with
    | some h => if (s.handle h).state = 2 then s.countRest r h else s
    | none => s
  let s := s.notePage r.stack r.block p r.handle
  let s := match r.handle with
    | some h => s.failStaging h 0x0040
    | none => s
  if !fresh then s
  else match s.pageRetires r.stack r.block with
    | (s, some why) => s.retireBlock r.stack r.block why
    | (s, none) => s

/-- FLASH_PAGE_READ_COMPLETE: data, one of three retries, or an uncorrectable page. A page that has stayed uncorrectable does so until it is
written again (R439). What a read without a handle gives serves the accesses through the LLC that wait for it (log 11). -/
def State.pageDone (s : State) (id : Nat) (result : FlashResult) : State :=
  match s.flash.reads.find? fun r => r.id == id with
  | none => s
  | some r =>
    let rest := { s with flash := { s.flash with reads := s.flash.reads.filter fun x => x.id != id } }
    let p := 4 * r.unit + r.page
    match (if s.mem.flashErr.contains p || s.mem.flashBad.contains p then .bad else result) with
    | .good => match r.handle with
      | some h =>
        let x := s.handle h
        if x.state = 2 then rest.setHandle { x with got := addOnce p x.got } else rest
      | none => { rest with mem := { rest.mem with pageBuf := p :: rest.mem.pageBuf.filter fun q => q / 4 % 8 != p / 4 % 8 } }
    | .bad =>
      if r.tries < 3 then
        ({ s with flash := { s.flash with reads := s.flash.reads.map fun (x : PageRead) => if x.id == id then { x with tries := x.tries + 1 } else x } } : State).countRead
          r.stack r.block
      else rest.badPage r

/-- Page reads that accesses through the LLC made, which are counted (R443), and pages that they found uncorrectable (R439). -/
def State.drainFlash (s : State) : State :=
  if s.mem.flashMet.isEmpty && s.mem.pageReads.isEmpty then s
  else
    let count (s : State) (p : Nat) : State := match s.blockOf (p / 4) with
      | some b => s.countRead (p / 4 % 8) b
      | none => s
    let one (s : State) (p : Nat) : State := match s.blockOf (p / 4) with
      | some b => s.badPage ⟨0, p / 4, p % 4, p / 4 % 8, b, none, 3⟩
      | none => s
    let s' : State := { s with mem := { s.mem with flashMet := [], pageReads := [] } }
    s.mem.flashMet.foldl one (s.mem.pageReads.foldl count s')

/-! ## Commands (R440) -/

/-- A flash command starts, unless one runs: `f` gives its state, CODE and block. -/
def State.flashCommand (s : State) (f : State → State × Nat × Option (Nat × Nat)) : State :=
  if s.flash.busy then { s with flash := { s.flash with err := true } }
  else
    let (s, code, target) := f s
    { s with flash := { s.flash with busy := true, result := code, target := target } }

/-- The block that takes the next unit of a stack: one in use with a slot left, or a free one. -/
def State.openBlock (s : State) (st : Nat) : Option Nat :=
  match ((s.stackList st).filter fun x => x.state == 1 && x.filled < 64 && !(s.flash.blocks.any fun y => y.stack == st && y.toBlock == some x.num)).map (·.num) with
  | b :: rest => some (rest.foldl min b)
  | [] => s.freeBlock st

/-- Program units in rising order from HBM: the CODE. A stack without a free block refuses writes (R440, STATE 2). A program failure
retires the block it meets (R437), and the unit goes to another. -/
def State.programUnits (s : State) (src u : Nat) (failed : Bool) : Nat → State × Nat
  | 0 => (s, 0)
  | n + 1 =>
    let st := u % 8
    if s.freeBlocks st = 0 then (s, 0x0022) else
    match s.openBlock st with
    | none => (s, 0x0022)
    | some b0 =>
      let s := if failed then
          (if s.host.duty.getLsbD 0 then s.retireRecord st b0 0 2
           else (s.setBlock { s.block st b0 with state := 1 }).retireBlock st b0 0) else s
      match s.openBlock st with
      | none => (s, 0x0022)
      | some b =>
        let (m, bad) := (List.range 2048).foldl (fun (x : MemState × Bool) i =>
          let (m, e) := x.1.readHbm (src / 32 + i)
          (m, x.2 || e != .ok)) (s.mem, false)
        if bad then ({ s with mem := m }, 0x0010)
        else
          let s := ({ s with mem := m } : State).unmapUnit u
          let data := (List.range 2048).flatMap fun i => leBytes 32 (s.mem.granule (src / 32 + i)).toNat
          let s := { s with mem := { s.mem with flash := s.mem.flash.putN (65536 * u) data } }
          let x := s.block st b
          ((s.setBlock { x with state := 1, filled := x.filled + 1 }).mapUnit u b x.filled).programUnits (src + 65536) (u + 1) false n

def unitsBad (first count : Nat) : Bool := count = 0 || 2 ^ 27 < first + count

/-- FLASH_WRITE. -/
def State.flashWrite (s : State) (value : Word) (failed : Bool) : State :=
  s.flashCommand fun s =>
    let count := bits value.toNat 51 32
    let u := bits value.toNat 26 0
    let src := s.flash.flarg.toNat
    if unitsBad u count || src % 65536 ≠ 0 || Config.hbmBytes < src + 65536 * count then (s, 0x0031, none)
    else
      let (s, code) := s.programUnits src u failed count
      (s, code, none)

/-- FLASH_TRIM. -/
def State.flashTrim (s : State) (value : Word) : State :=
  s.flashCommand fun s =>
    let count := bits value.toNat 51 32
    let u := bits value.toNat 26 0
    if unitsBad u count then (s, 0x0031, none)
    else
      let mine := (s.flash.map.map (·.unit)).filter fun x => u ≤ x && x < u + count
      (mine.foldl State.unmapUnit s, 0, none)

/-- FLASH_RELOC. -/
def State.flashReloc (s : State) (value : Word) : State :=
  s.flashCommand fun s =>
    let st := bits value.toNat 22 20
    let b := bits value.toNat 19 0
    let arg := s.flash.flarg.toNat
    let d := arg % 2 ^ 20
    if (s.block st b).state ≠ 1 || stackBlocks ≤ b then (s, 0x0031, none)
    else if (s.freeBlock st).isNone then (s, 0x0022, none)
    else if arg % 2 ^ 32 = 0xFFFFFFFF then (s.relocate st b 3 none none, 0, some (st, b))
    else if stackBlocks ≤ d || (s.block st d).state ≠ 0 then (s, 0x0031, none)
    else (s.relocate st b 3 (some d) none, 0, some (st, b))

/-- FLASH_RETIRE. -/
def State.flashRetire (s : State) (value : Word) : State :=
  s.flashCommand fun s =>
    let st := bits value.toNat 22 20
    let b := bits value.toNat 19 0
    if 3 ≤ (s.block st b).state || stackBlocks ≤ b then (s, 0x0031, none)
    else (s.retireBlock st b 3, 0, some (st, b))

/-- Does the command in progress wait for its block's relocation? -/
def State.flashWaits (s : State) : Bool :=
  match s.flash.target with
  | some (st, b) => (s.block st b).toBlock.isSome
  | none => false

/-- FLCMD_COMPLETE. -/
def State.flashDone (s : State) : State :=
  if !s.flash.busy || s.flashWaits then s
  else ({ s with flash := { s.flash with busy := false, code := s.flash.result, err := s.flash.err || s.flash.result != 0, target := none } } : State).raise 64

end Sys2Proof.Machine
end

