-- ==== Sys2Proof/Machine/Hbm.lean ====
section
/-! DEFINITION. Requests to an HBM channel (R427 to R430) and the phases of its retirement (R434, R435). -/
namespace Sys2Proof.Machine

/-- HBM_RD, HBM_WR, HBM_WRM: a request for a granule arrives, at the port of its channel or, once a retirement has redirected it, at that
of the channel that holds its copy (R434). -/
def State.hbmRequest (s : State) (q a : Nat) (kind : HbmKind) : State :=
  if (channelOf a ≠ q && s.mem.channel a ≠ q) || Config.hbmBytes ≤ a || a % 32 ≠ 0 then s else { s with mem := s.mem.arrive a kind }

/-- The reads of a granule that were accepted before a write are made before the write is performed (R430). -/
def MemState.readOlder (m : MemState) (a : Nat) : List HbmReq → MemState × List HbmReq
  | [] => (m, [])
  | r :: rest =>
    let (m, r) : MemState × HbmReq := if r.gran != a || r.kind.write || r.behind then (m, r) else
      let (m, b) := m.lookup (a / 32)
      (m, { r with behind := true, poison := b != .ok })
    let (m, rest) := m.readOlder a rest
    (m, r :: rest)

/-- HBM_REPLY: the request of a tag is performed. A read replies after the writes to its granule accepted before it (R430), and the
read half of a partial write comes first (R429). -/
def State.hbmPerform (s : State) (q tag : Nat) : State :=
  let x := s.chan q
  match x.reqs.find? fun r => r.tag == tag with
  | none => s
  | some r =>
    let num := r.gran / 32
    let earlier := x.reqs.takeWhile fun y => y.tag != tag
    if earlier.any fun y => y.gran == r.gran && y.kind.write then s
    else
      let rest := x.reqs.filter fun y => y.tag != tag
      let done (m : MemState) (reqs : List HbmReq) : MemState := m.setChan (m.refill { m.chan q with reqs := reqs } 8)
      match r.kind with
      | .rd =>
        let (m, b) := if r.behind then (s.mem, Bad.ok) else s.mem.lookup num
        ({ s with mem := done m rest } : State).answer (if r.poison || b != .ok then .abort else .data (leBytes 32 r.value.toNat))
      | k =>
        let (m, reqs) := s.mem.readOlder r.gran rest
        let m := match k with
          | .wrm .. =>
            let m := (m.lookup num).1
            m.setChan { m.chan q with rmw := (m.chan q).rmw + 1 }
          | _ => m
        { s with mem := done (m.performWrite num k) reqs }

/-! ## Retirement (R434) -/

/-- CHANNEL_DRAIN_COMPLETE: every write accepted before the fence is performed. -/
def State.drainDone (s : State) : State :=
  let x := s.chan s.hbm.chan
  if s.hbm.phase ≠ 2 || (x.reqs.any fun r => r.kind.write) || (x.waiting.any fun r => r.2.write) then s
  else ({ s with hbm := { s.hbm with phase := 3 } } : State).chanRec s.hbm.chan 2 0 0 0

/-- The granules stored in a channel: its own and those that earlier retirements placed there, 1.875 GiB in all. -/
def channelGranules : Nat := 62914560

/-- The requests held at the port take effect in arrival order at the new location: a write is performed, a read behind it is accepted
there (R430, R434). -/
def MemState.applyHeld (m : MemState) : List (Nat × HbmKind) → MemState
  | [] => m
  | (a, k) :: rest => (if k.write then m.performWrite (a / 32) k else m.arrive a k).applyHeld rest

/-- CHANNEL_COPY_COMPLETE: errors met by the copy are recorded, then the remap redirects the channel, applies the held writes and closes
the port. What an address reads does not change, and reads that wait still reply. -/
def State.copyDone (s : State) : State :=
  let q := s.hbm.chan
  let x := s.chan q
  if s.hbm.phase ≠ 3 then s
  else
    let mine (n : Nat) : Bool := s.mem.channel (32 * n) == q
    let found := (s.mem.hbmErr.filter fun e => mine e.1).map (·.1)
    let s := ({ s with mem := found.foldl (fun m n => (m.senseHbm n).1) s.mem } : State).drainRecs
    let bad := (s.mem.hbmPoison.filter mine).length
    let s := s.chanRec q 3 channelGranules bad 0
    let m := s.mem.setChan { s.chan q with state := 2, held := [] }
    let s : State := { s with mem := ({ m with redirects := m.redirects ++ [(q, s.spareUnit)] } : MemState).applyHeld x.held }
    let s := s.chanRec q 4 channelGranules bad (x.held.filter fun h => h.2.write).length
    { s with hbm := { s.hbm with phase := 0, used := s.hbm.used + 1 } }

end Sys2Proof.Machine
end

