-- ==== Sys2Proof/Machine/PoolEvents.lean ====
section
/-! DEFINITION. Events of the pool: arbitration (R184 to R186), parity updates (R189, R190), errors and the freeze (R191 to
R193), and the retirement of a bank (R195, R196). -/
namespace Sys2Proof.Machine

/-! ## Bank retirement (R196) -/

/-- BANK_RETIREMENT_START: a protected group begins its rebuild; the rows that are stale now are lost. -/
def Core.startRebuild (c : Core) (g j : Nat) : Core :=
  let x := c.group g
  if x.state ≠ 0 then c
  else
    let was := (c.poison.filter fun p => sectorGroup p.1 == g && sectorBank p.1 == j).length
    c.setGroup g { x with state := 1, dbank := j, was := was, row := 0 }

/-- One row of the rebuild of bank j: in a fresh row the seven surviving sectors and the parity are read, and the sector is
lost with those that cannot be; in any other row it is lost. -/
def Core.rebuildRow (c : Core) (g j row : Nat) : Core :=
  let x := sectorAt g row j
  if c.rowFresh g row then
    let c := (List.range 8).foldl (fun (c : Core) i => if i = j then c else c.correctData (sectorAt g row i)) c
    let c := if c.hasError (liberoKey g row) false then c.readLibero g row else c
    let bad := (List.range 8).filter fun i => i != j && c.hasError (sectorAt g row i) true
    if bad.isEmpty && !c.hasError (liberoKey g row) true then c
    else c.rebuildFault g row (sectorAt g row (bad.headD j)) bad [j]
  else if c.poison.any fun p => p.1 == x then c
  else ({ c with poison := (x, false) :: c.poison } : Core).record 0x0005 0 (32 * x) (bankNumber g j)

/-- The rebuild of a group comes to its next row (R196), unless the core is frozen. -/
def Core.rebuildNext (c : Core) (g : Nat) : Core :=
  let x := c.group g
  if x.state ≠ 1 || 256 ≤ x.row || c.freeze ≠ 0 then c
  else
    let d := c.rebuildRow g x.dbank x.row
    d.setGroup g { d.group g with row := x.row + 1 }

/-! ## Arbitration (R186; log 16) -/

/-- Banks taken in an sc, as (group, local bank), 8 for the libero. -/
abbrev Taken := List (Nat × Nat)

/-- Is one request granted before another: issue step, then slot, engines last among those of their step? The request of an engine
carries the step at which it came, so an older one goes before slot requests of a later step (DEDUCED, log 16). -/
def reqBefore (a b : PoolReq) : Bool := a.step < b.step || (a.step == b.step && a.slot < b.slot)

/-- The bank that serves a sector: in a degraded group the libero serves the retired bank (R196). -/
def Core.bankOf (c : Core) (x : Nat) : Nat × Nat :=
  let grp := c.group (sectorGroup x)
  (sectorGroup x, if grp.state = 2 && sectorBank x = grp.dbank then 8 else sectorBank x)

/-- The accesses of a request: a full-stripe write, which writes every byte of its stripe, is one, every other sector one of its own
(R184, R187). -/
def accessesOf (r : PoolReq) : List (List Nat) :=
  r.sectors.filterMap fun x =>
    let stripe := (List.range 8).map fun i => x / 8 * 8 + i
    if r.write && r.whole && stripe.all r.sectors.contains then (if x % 8 = 0 then some stripe else none) else some [x]

/-- The banks that an access takes; a full-stripe write takes the libero besides (R184, R187). -/
def Core.banksOf (c : Core) (xs : List Nat) : Taken :=
  let banks := xs.map c.bankOf
  match xs with
  | x :: _ :: _ => if banks.contains (sectorGroup x, 8) then banks else (sectorGroup x, 8) :: banks
  | _ => banks

/-- Must a partial write wait for an entry of its group's delta store (R188)? -/
def Core.lacksEntry (c : Core) (r : PoolReq) (xs : List Nat) : Bool :=
  match xs with
  | [x] =>
    let grp := c.group (sectorGroup x)
    r.write && grp.state == 0 && 64 ≤ grp.entries.length && !(c.rowPoisoned (sectorGroup x) (poolRow (32 * x))) &&
      !grp.entries.any fun e => e.row == poolRow (32 * x)
  | _ => false

/-- May an access be granted: its banks are untaken, its group is not being rebuilt (R196), and it has its entry? -/
def Core.grants (c : Core) (t : Taken) (r : PoolReq) (xs : List Nat) : Bool :=
  (c.banksOf xs).all (fun b => !t.contains b && (c.group b.1).state != 1) && !c.lacksEntry r xs

/-- Grant what can be granted of a request: the rest of it, and the banks taken. -/
def Core.grantReq (c : Core) (t : Taken) (r : PoolReq) : PoolReq × Taken :=
  (accessesOf r).foldl (fun (x : PoolReq × Taken) xs =>
    if c.grants x.2 r xs then ({ x.1 with sectors := x.1.sectors.filter fun y => !xs.contains y }, c.banksOf xs ++ x.2) else x) (r, t)

/-- The requests in order: what is left of each, and the banks taken. -/
def Core.grantAll (c : Core) (t : Taken) : List PoolReq → List PoolReq × Taken
  | [] => ([], t)
  | r :: rs =>
    let (left, t) := c.grantReq t r
    let (rest, t) := c.grantAll t rs
    (left :: rest, t)

/-- The banks of a group. -/
def groupBanks (g : Nat) : Taken := (List.range 9).map fun b => (g, b)

/-- May a read be served by reconstruction: the group is protected, its other eight banks are untaken and the row is fresh at the
start of the sc, as `start` has it (R185)? -/
def Core.rebuilds (start : Core) (t : Taken) (x : Nat) : Bool :=
  let g := sectorGroup x
  (start.group g).state == 0 && start.rowFresh g (poolRow (32 * x)) &&
  (groupBanks g).all fun b => b.2 == sectorBank x || !t.contains b

/-- Read the other sectors of a row and its libero for a reconstruction; each of these reads detects errors (R185, R191). What is
delivered is `Core.rebuilt`, the value of the sector (`Core.rebuilt_eq`). -/
def Core.readOthers (c : Core) (x : Nat) : Core :=
  let g := sectorGroup x
  let row := poolRow (32 * x)
  (((List.range 8).foldl (fun (c : Core) j => if j = sectorBank x then c else c.readSector (sectorAt g row j)) c).readLibero g row).fit

/-- Second pass: reads whose bank is taken are reconstructed, which takes every other bank of the group, so that a group
reconstructs at most one read. It comes after all direct grants of the sc, so that a later request's direct grant keeps its bank
(DESIGN CHOICE, log 16). -/
def Core.rebuildAll (start : Core) (c : Core) (t : Taken) : List PoolReq → List PoolReq × Core × Taken
  | [] => ([], c, t)
  | r :: rs =>
    let one (x : PoolReq × Core × Taken) (y : Nat) : PoolReq × Core × Taken :=
      if !r.write && start.rebuilds x.2.2 y then
        ({ x.1 with sectors := x.1.sectors.erase y }, x.2.1.readOthers y, groupBanks (sectorGroup y) ++ x.2.2)
      else x
    let (r, c, t) := r.sectors.foldl one (r, c, t)
    let (rs, c, t) := start.rebuildAll c t rs
    (r :: rs, c, t)

/-! ## Parity (R188 to R190) -/

/-- The banks that the updater needs for an entry: the libero, or all nine (R189, R190). -/
def DeltaEntry.banks (e : DeltaEntry) (g : Nat) : Taken := if e.recompute then groupBanks g else [(g, 8)]

/-- The updater of a group serves its oldest entry in this sc, if the banks it needs are untaken. A partial write of the same
sc comes after it, so that the row's entry then holds only the new delta (R189). -/
def Core.serveOldest (c : Core) (g : Nat) : Core :=
  match (c.group g).entries with
  | [] => c
  | e :: _ =>
    if (c.group g).state != 0 || c.freeze != 0 || (e.banks g).any c.taken.contains then c
    else { c.serveEntry g e with taken := e.banks g ++ c.taken }

/-- PARITY_UPDATE and PARITY_RECOMPUTE: the updater serves the oldest entry of a group, if it is of the kind named. -/
def Core.updateParity (c : Core) (g : Nat) (recompute : Bool) : Core :=
  match (c.group g).entries with
  | [] => c
  | e :: _ => if e.recompute != recompute then c else c.serveOldest g

/-- While a write waits for an entry of a full delta store, the updater of that group comes before every request (R188). -/
def Core.updateFirst (c : Core) (reqs : List PoolReq) : Core :=
  (List.range 12).foldl (fun (c : Core) g =>
    if reqs.any fun r => (accessesOf r).any fun xs => c.lacksEntry r xs && xs.any fun x => sectorGroup x == g then c.serveOldest g else c) c

/-- POOL_ARBITRATION: one sc, in which the core is not frozen. The requests that stay wait for a later one; `taken` keeps
the banks that this sc has taken, and a bank that is being rebuilt comes to its next row (R196). -/
def Core.arbitrate (c : Core) (reqs : List PoolReq) : Core :=
  let all := (c.poolReqs ++ reqs).foldl (fun (l : List PoolReq) r => (l.takeWhile fun x => !reqBefore r x) ++ r :: (l.dropWhile fun x => !reqBefore r x)) []
  if c.freeze ≠ 0 then { c with poolReqs := all, taken := [] }
  else
    let d := { c with taken := [] }.updateFirst all
    let (left, t) := d.grantAll d.taken all
    let (left, d, t) := c.rebuildAll d t left
    let d : Core := { d with poolReqs := left.filter fun r => !r.sectors.isEmpty, taken := t }
    (List.range 12).foldl Core.rebuildNext d

/-! ## Errors (R191, R195) -/

/-- A soft error strikes a sector of the pool of a core; a read will detect it. A poisoned sector holds nothing to lose, and in
a degraded group the libero holds the sectors of the retired bank (R196). -/
def Core.strike (c : Core) (key : Nat) (fatal : Bool) : Core :=
  if c.poison.any fun p => p.1 == key then c
  else { (c.dropError key) with latent := (c.dropError key).latent ++ [(key, fatal || c.hasError key true)] }

def Core.strikeLibero (c : Core) (g row : Nat) (fatal : Bool) : Core :=
  let x := c.group g
  if x.state = 2 then c.strike (sectorAt g row x.dbank) fatal else c.strike (liberoKey g row) fatal

/-! ## The end of a retirement (R196) -/

/-- BANK_RETIREMENT_COMPLETE: the rows that are left are rebuilt in the sc that pass until then, up to a correction, which freezes the
rebuild with the core; the records of the rows come before the record of the retirement. -/
def State.endRebuild (s : State) (k g : Nat) : State :=
  let x := (s.coreAt k).group g
  let s := s.modCore k fun c => (List.range 256).foldl (fun (c : Core) _ => c.rebuildNext g) c
  if x.state ≠ 1 || ((s.coreAt k).group g).row < 256 || (s.coreAt k).freeze ≠ 0 then s
  else
    let now := ((s.coreAt k).poison.filter fun p => sectorGroup p.1 == g && sectorBank p.1 == x.dbank).length
    let gone (key : Nat) : Bool := if key < 24576 then sectorGroup key == g && sectorBank key == x.dbank else (key - 24576) / 256 == g
    let s := s.modCore k fun c => { (c.setGroup g { c.group g with state := 2, entries := [], row := 0 }) with
      degr := true, latent := c.latent.filter fun e => !gone e.1 }
    let s := s.drainRecs
    (s.emit (s.coreRec k 0x0004 0 0 (BitVec.ofNat 64 (bankNumber g x.dbank)) (BitVec.ofNat 64 (now - x.was)))).checkDegraded k

end Sys2Proof.Machine
end

