-- ==== Sys2Proof/Machine/HostLink.lean ====
section
/-! DEFINITION. BAR2 (R388, R391), snoops and the host link (R393, R414), peer traffic (R306, R307, R395 to R397), LLC
write-backs (R304) and soft errors. -/
namespace Sys2Proof.Machine

/-! ## BAR2 (R388, R391) -/

/-- The key of BAR2 accesses: none without APKEY.EN, the outer none when the index holds no key. -/
def State.apKey (s : State) : Option (Option (BitVec 512)) :=
  if s.host.apEn then (s.mem.key s.host.apKey).map some else some none

/-- A stored granule as it reads under the key of BAR2, and one as it is stored (R391). -/
def openGranule (key : Option (BitVec 512)) (num : Nat) (raw : BitVec 256) : BitVec 256 :=
  match key with | some k => decSector k (32 * num) raw | none => raw
def sealGranule (key : Option (BitVec 512)) (num : Nat) (d : BitVec 256) : BitVec 256 :=
  match key with | some k => encSector k (32 * num) d | none => d

/-- Write bytes lo to lo + n - 1 of a granule (R429). -/
def MemState.barWrite (m : MemState) (key : Option (BitVec 512)) (num lo n v : Nat) : MemState :=
  if n = 32 then m.writeHbm num (.wr (sealGranule key num (BitVec.ofNat 256 v)))
  else m.mergeHbm num fun raw => sealGranule key num (patch (openGranule key num raw) lo n v)

/-- Read n bytes below the LLC, granule by granule, with whether one is bad. `fuel` bounds the granules. -/
def MemState.barReads (m : MemState) (key : Option (BitVec 512)) (pa : Nat) : Nat → Nat → MemState × List Byte × Bool
  | 0, _ => (m, [], false)
  | _, 0 => (m, [], false)
  | fuel + 1, n =>
    let (m, b) := m.readHbm (pa / 32)
    let k := min n (32 - pa % 32)
    let here := ((leBytes 32 (openGranule key (pa / 32) (m.granule (pa / 32))).toNat).drop (pa % 32)).take k
    let (m, bs, bad) := m.barReads key (pa + k) fuel (n - k)
    (m, here ++ bs, b != .ok || bad)

/-- `fuel` bounds the granules. -/
def MemState.barWrites (m : MemState) (key : Option (BitVec 512)) (pa : Nat) : Nat → List Byte → MemState
  | 0, _ => m
  | _, [] => m
  | fuel + 1, bs =>
    let n := min bs.length (32 - pa % 32)
    (m.barWrite key (pa / 32) (pa % 32) n (leValue (bs.take n))).barWrites key (pa + n) fuel (bs.drop n)

/-- Is BAR2 served: in phase 5, and as the link trains in phase 4 but for recovery (R452)? -/
def State.bar2Served (s : State) : Bool := s.plat.phase == 5 || (s.plat.phase == 4 && !s.plat.bootErr)

/-- BAR2_READ: Unsupported Request beyond 720 GiB or before BAR2 is served (R452), Completer Abort without a key. -/
def State.bar2Read (s : State) (pa n : Nat) : State :=
  if !s.bar2Served || Config.hbmBytes < pa + n then s.answer .unsupported
  else match s.apKey with
    | none => s.answer .abort
    | some key =>
      let (m, bs, bad) := s.mem.barReads key pa n n
      ({ s with mem := m } : State).answer (if bad then .abort else .data bs)

/-- BAR2_WRITE: performed at the HBM controller. -/
def State.bar2Write (s : State) (pa : Nat) (data : List Byte) : State :=
  if !s.bar2Served || Config.hbmBytes < pa + data.length then s.answer .unsupported
  else match s.apKey with
    | none => s.answer .abort
    | some key => { s with mem := s.mem.barWrites key pa data.length data }

/-! ## The LLC and the host link (R304, R393, R414) -/

/-- LLC_WRITEBACK: the sector at an HBM address is written back and leaves the LLC. -/
def State.llcWriteback (s : State) (pa : Nat) : State := { s with mem := s.mem.flushSector 0 (pa / 32) }

/-- The state of CXL.cache in which the slices hold a sector of host memory (R303, R393). -/
def MemState.moesi (m : MemState) (num : Nat) : Moesi :=
  match m.sector? 2 num with
  | some x => if x.dirty then (if x.shared then .owned else .modified) else if x.shared then .shared else .exclusive
  | none => .invalid

/-- A sharing snoop of one sector: the host reads it, and a sector that is held is shared from then on. A dirty one is then owned and stays
the device's to write back. -/
def MemState.shareSector (m : MemState) (num : Nat) : MemState × List Byte × Bool :=
  match m.sector? 2 num with
  | some x =>
    let (m, d, b) := m.look 2 num x.key
    ({ m with llc := m.llc.map fun (y : Sector) => if y.kind == 2 && y.num == num then { y with shared := true } else y }, leBytes 32 d.toNat, b != .ok)
  | none => (m, m.host.getN (32 * num) 32, m.hostPoison.contains num)

/-- What the host does to a line that it owns: it writes the line's first bytes, and marks its two sectors poisoned or writes them
whole (R303, R393; log 83). -/
def MemState.hostWrite (m : MemState) (line : Nat) (data : List Byte) (poison : Bool) : MemState :=
  let m := if data.isEmpty then m else { m with host := m.host.store (64 * line) data.length (leValue data) }
  if poison then { m with hostPoison := addOnce (2 * line) (addOnce (2 * line + 1) m.hostPoison) }
  else if data.length = 64 then { m with hostPoison := m.hostPoison.filter fun x => x / 2 != line }
  else m

/-- HOST_SNOOP. A sharing snoop of a line gives the host its bytes as the device holds them, or poison. An invalidating one writes its dirty
sectors back and gives the line to the host, which may then write it. -/
def State.snoop (s : State) (hpa : Nat) (kind : Snoop) : State :=
  let line := hpa / 64
  match kind with
  | .sharing =>
    let (m, lo, bad) := s.mem.shareSector (2 * line)
    let (m, hi, bad') := m.shareSector (2 * line + 1)
    ({ s with mem := m } : State).answer (if bad || bad' then .abort else .data (lo ++ hi))
  | .owning data poison => { s with mem := ((s.mem.flushSector 2 (2 * line)).flushSector 2 (2 * line + 1)).hostWrite line (data.take 64) poison }

/-- HOST_LINK_DOWN: what the LLC holds of the host is lost, and the device is in the fatal state. -/
def State.linkDown (s : State) : State :=
  if !s.mem.linkUp then s
  else ({ s with mem := { s.mem with linkUp := false, llc := s.mem.llc.filter fun x => x.kind != 2 } } : State).emit
    ⟨5, 0, 0x0071, 0, none, 0, 0, 0, 0, 0, 0⟩

/-- HOST_LINK_TRAIN: messages that wait are sent. -/
def State.linkTrain (s : State) : State :=
  if s.mem.linkUp then s
  else { s with
    mem := { s.mem with linkUp := true }
    rel := { s.rel with messages := s.rel.messages ++ s.rel.unsent, unsent := [] } }

/-! ## Peers -/

/-- An access at the target (R397): its places in context PEERX.CTX, or the code of its refusal. -/
def State.peerPlaces (s : State) (off n : Nat) (a : Access) : State × Except Nat (List Place) :=
  if s.host.ports = 0 then (s, .error 0x0022) else s.aperture 0 off n a

/-- A store at this package: its outcome code. -/
def State.peerStore (s : State) (off : Nat) (data : List Byte) : State × Nat :=
  match s.peerPlaces off data.length .write with
  | (s, .error code) => (s, code)
  | (s, .ok l) =>
    match s.writeRange 0 s.host.peerCtx (BitVec.ofNat 64 (s.host.peerBase * 2 ^ 30 + off)) (Range.of l) data with
    | (s, .ok) => (s, 0)
    | (s, _) => (s, 0x0010)

/-- An incoming atomic or CAS of `n` bytes: the old value goes back, and `f` says what replaces it. -/
def State.peerUpdate (s : State) (off n : Nat) (f : Nat → Option Nat) : State :=
  match s.peerPlaces off n .atomic with
  | (s, .error code) => s.answer (.refused code)
  | (s, .ok l) => match s.readRange (Range.of l) with
    | (s, bs, .ok) =>
      let ptr := BitVec.ofNat 64 (s.host.peerBase * 2 ^ 30 + off)
      match f (leValue bs) with
      | some v => ((s.writeRange 0 s.host.peerCtx ptr (Range.of l) (leBytes n v)).1).answer (.data bs)
      | none => s.answer (.data bs)
    | (s, _, _) => s.answer (.refused 0x0010)

/-- PEER_INCOMING_ACCESS: performed or refused; the reply goes back to the sender. -/
def State.peerAccess (s : State) (acc : PeerAccess) : State :=
  match acc with
  | .load off n =>
    (match s.peerPlaces off n .read with
      | (s, .error code) => s.answer (.refused code)
      | (s, .ok l) => match s.readRange (Range.of l) with
        | (s, bs, .ok) => s.answer (.data bs)
        | (s, _, _) => s.answer (.refused 0x0010))
  | .store off data =>
    (match s.peerStore off data with
      | (s, 0) => s.answer (.data [])
      | (s, code) => s.answer (.refused code))
  | .atomic off wide operator operand =>
    let n := if wide then 8 else 4
    s.peerUpdate off n fun old => some (atomicNew operator n old (operand.toNat % 2 ^ (8 * n)))
  | .cas off wide expected new =>
    let n := if wide then 8 else 4
    s.peerUpdate off n fun old => if old = expected.toNat % 2 ^ (8 * n) then some (new.toNat % 2 ^ (8 * n)) else none

/-- The posted store with a number on a core, if every earlier store to its package has been performed (R306). -/
def Core.oldestStore (c : Core) (id : Nat) : Option PeerStore :=
  match c.peerStores.find? fun p => p.id == id with
  | some p => if c.peerStores.any fun q => q.package == p.package && q.id < id then none else some p
  | none => none

def State.dropStore (s : State) (k id : Nat) : State :=
  s.modCore k fun c => { c with peerStores := c.peerStores.filter fun p => p.id != id }

/-- A posted store was not performed (R307): the event, the count, and the code for the next FLSH peer. -/
def State.storeLost (s : State) (k : Nat) (p : PeerStore) (code : Nat) : State :=
  let s := (s.dropStore k p.id).modCore k fun c => { c with peerFail := c.peerFail ++ [(p.id, code)] }
  let s := ({ s with host := { s.host with pevt := (s.host.pevt + 1) % 2 ^ 32 } } : State).raise 66
  { s with mem := { s.mem with recs := s.mem.recs ++ [{ s.coreRec k 0x0070 code p.ptr 0 0 with ctx := some p.ctx }] } }

/-- PEER_STORE_NOT_PERFORMED. -/
def State.storeNotPerformed (s : State) (k id code : Nat) : State :=
  match (s.coreAt k).oldestStore id with
  | some p => if [0x0010, 0x0020, 0x0021, 0x0022].contains code then s.storeLost k p code else s
  | none => s

/-- PEER_STORE_ACKNOWLEDGED: the credit returns. A store to this package's own aperture is performed here (R396). While every port is down
its target cannot be reached (R307, R397). -/
def State.storeAcknowledged (s : State) (k id : Nat) : State :=
  match (s.coreAt k).oldestStore id with
  | none => s
  | some p =>
    if s.host.ports = 0 then s.storeLost k p 0x0022
    else if p.package ≠ s.host.rank then s.dropStore k id
    else match s.peerStore (bits p.ptr.toNat 47 0) p.data with
      | (s, 0) => s.dropStore k id
      | (s, code) => s.storeLost k p code

/-- PORT_DOWN and PORT_UP. -/
def State.setPort (s : State) (p : Fin 4) (up : Bool) : State :=
  let on := s.host.ports.getLsbD p
  if on = up then s
  else
    let s := { s with host := { s.host with ports := s.host.ports ^^^ (1#4 <<< p.val) } }
    (s.emit ⟨6, p.val, if up then 0x0074 else 0x0073, 0, none, 0, 0, 0, 0, 0, 0⟩).raise 66

/-! ## Soft errors -/

/-- SOFT_ERROR: an error strikes a stored sector, and a later read detects it (R191, R417, R418, R428, R432, R439). Of a slice it
strikes the copy of the sector of an address, if it holds one. -/
def State.softError (s : State) (t : ErrTarget) : State :=
  match t with
  | .pool k off fatal => if off < Config.poolBytes then s.modCore k fun c => c.strike (off / 32) fatal else s
  | .libero k g row fatal => if g < 12 && row < 256 then s.modCore k fun c => c.strikeLibero g row fatal else s
  | .llc kind pa fatal =>
    (match s.mem.sector? kind (pa / 32) with
      | some x => { s with mem := s.mem.putSector { x with err := if fatal then 2 else max x.err 1 } }
      | none => s)
  | .llcTag kind pa =>
    (match s.mem.sector? kind (pa / 32) with
      | some x => { s with mem := s.mem.putSector { x with tagErr := true } }
      | none => s)
  | .hbm pa fatal =>
    let n := pa / 32
    if Config.hbmBytes ≤ pa || s.mem.hbmPoison.contains n then s
    else
      let was := s.mem.hbmErr.any fun e => e.1 == n && e.2
      { s with mem := { s.mem with hbmErr := (n, fatal || was) :: s.mem.hbmErr.filter fun e => e.1 != n } }
  | .slice pa =>
    let a := s.mem.location pa
    let x := s.chan (channelOf a)
    if x.has a then s.setChan { x with bad := addOnce (a / 32) x.bad } else s
  | .flash la page =>
    let p := 4 * (la / 65536) + page % 4
    if (s.blockOf (la / 65536)).isNone || s.mem.flashBad.contains p then s
    else { s with mem := { s.mem with flashErr := addOnce p s.mem.flashErr } }
  | .control n => s.emit ⟨7, 0, 0x007F, 0, none, n, 0, 0, 0, 0, 0⟩

end Sys2Proof.Machine
end

