-- ==== Sys2Proof/Machine/Lists.lean ====
section
/-! DEFINITION. Command lists (R332, R333) and publications (R265, R339). -/
namespace Sys2Proof.Machine

def State.list (s : State) (j : Nat) : ListReg := s.launch.lists.toList.getD j ListReg.zero
def State.setList (s : State) (j : Nat) (l : ListReg) : State :=
  { s with launch := { s.launch with lists := s.launch.lists.setIfInBounds j l } }

/-- LIST_SUBMIT: a write of SQADDR (R333). -/
def State.submitList (s : State) (j : Nat) (addr : Word) : State :=
  let l := s.list j
  if l.busy || !l.en then s.setList j { l with drop := true }
  else
    let a := addr >>> 5 <<< 5
    s.setList j { l with addr := a, busy := true, base := a.toNat, pos := 0, stack := [], executed := 0, wait := .none }

/-- May a list run: it is busy, does not wait, and its context is active (R333, R367)? -/
def State.listRuns (s : State) (j : Nat) : Bool :=
  let l := s.list j
  l.busy && l.wait == .none && match s.mem.ctx l.ctx with
    | some c => c.state == 1
    | none => false

/-- The list whose entry the interpreter executes next: the highest PRIO, then the lowest number (R333). -/
def State.chosenList (s : State) : Option Nat :=
  ((List.range 64).filter s.listRuns).foldl (fun (best : Option Nat) j => match best with
    | some b => if (s.list b).prio < (s.list j).prio then some j else some b
    | none => some j) none

/-- A list entry (R332). -/
structure Entry where
  op : Nat
  cond : Nat
  skip : Nat
  bad : Bool
  a : Word
  b : Word
  c : Word
  deriving DecidableEq, Repr

def Entry.of (x : List Byte) : Entry :=
  let op := field x 0 1
  let cond := field x 1 1 % 4
  { op := op, cond := cond, skip := field x 2 2
    bad := op = 0 || 9 < op || field x 4 4 != 0 || ((op = 2 || op = 4) && cond = 3)
    a := BitVec.ofNat 64 (field x 8 8), b := BitVec.ofNat 64 (field x 16 8), c := BitVec.ofNat 64 (field x 24 8) }

/-- The entry a list stands at: the code of its read fault, or the entry. -/
def State.entryAt (s : State) (j : Nat) : State × Except Nat Entry :=
  let l := s.list j
  match s.engRead 0 l.ctx (BitVec.ofNat 64 (l.base + 32 * l.pos)) 32 with
  | (s, .error e) => (s, .error e)
  | (s, .ok b) => (s, .ok (Entry.of b))

/-- Go on at an entry. -/
def State.listGoto (s : State) (j pos : Nat) : State :=
  let l := s.list j
  s.setList j { l with pos := pos % 2 ^ 59, executed := l.executed + 1 }

/-- Wait for a reason. -/
def State.listWait (s : State) (j : Nat) (w : ListWait) (counts : Bool) : State :=
  let l := s.list j
  s.setList j { l with wait := w, executed := if counts then l.executed + 1 else l.executed }

/-- Entry pos + a, with a signed. -/
def relative (pos : Nat) (a : Word) : Nat := (((pos : Int) + a.toInt) % (2 ^ 59 : Nat)).toNat

/-- The condition of an entry on a word (R332). -/
def Entry.holds (e : Entry) (w : Nat) : Bool :=
  let v := BitVec.ofNat 64 w &&& e.b
  match e.cond with
  | 0 => v == e.c
  | 1 => v != e.c
  | _ => e.c.toNat ≤ v.toNat

/-- Is an entry invalid? With DUTYCFG.CLIH only LAUNCH, PUBLISH and END are executed (R399). -/
def State.entryBad (s : State) (e : Entry) : Bool := e.bad || (s.host.duty.getLsbD 4 && !([1, 3, 8].contains e.op))

/-- Execute the entry list j stands at, if the interpreter has reached it and its operation is `op`. An invalid entry and a read
fault fail the list under any name. -/
def State.listEntry (s : State) (j op : Nat) (f : State → Entry → State) : State :=
  if s.chosenList ≠ some j then s
  else match s.entryAt j with
    | (s, .error e) => s.stopList j (some e)
    | (s, .ok e) => if s.entryBad e then s.stopList j (some 0x0031) else if e.op = op then f s e else s

/-- The word an entry names. -/
def State.listWord (s : State) (j : Nat) (e : Entry) : State × Except Nat Nat :=
  match s.engRead 0 (s.list j).ctx e.a 8 with
  | (s, .error x) => (s, .error x)
  | (s, .ok b) => (s, .ok (leValue b))

def State.listLaunch (s : State) (j : Nat) : State :=
  s.listEntry j 1 fun s e =>
    let l := s.list j
    (s.requestLaunch (.list j) e.a e.b l.ctx 0 l.prio).listWait j .launch true

def State.listWaitWord (s : State) (j : Nat) : State :=
  s.listEntry j 2 fun s e => match s.listWord j e with
    | (s, .error x) => s.stopList j (some x)
    | (s, .ok w) => if e.holds w then s.listGoto j ((s.list j).pos + 1) else s.listWait j .word false

/-- The word a list waits for meets its condition; a list of a suspended context stays where it is (R367). -/
def State.listWordMet (s : State) (j : Nat) : State :=
  let l := s.list j
  let active := match s.mem.ctx l.ctx with
    | some c => c.state == 1
    | none => false
  if !(l.busy && l.wait == .word && active) then s
  else match s.entryAt j with
    | (s, .error x) => s.stopList j (some x)
    | (s, .ok e) =>
      if s.entryBad e || e.op ≠ 2 then s.stopList j (some 0x0031)
      else match s.listWord j e with
        | (s, .error x) => s.stopList j (some x)
        | (s, .ok w) =>
          if e.holds w then (s.setList j { s.list j with wait := .none }).listGoto j (l.pos + 1) else s

def State.listPublish (s : State) (j : Nat) : State :=
  s.listEntry j 3 fun s e =>
    (s.addPub (.list j) (s.list j).ctx e.a (e.b.toNat % 2 ^ 16) none false [] 0).listWait j .publish true

def State.listSkip (s : State) (j : Nat) : State :=
  s.listEntry j 4 fun s e => match s.listWord j e with
    | (s, .error x) => s.stopList j (some x)
    | (s, .ok w) => s.listGoto j ((s.list j).pos + 1 + (if e.holds w then e.skip else 0))

def State.listJump (s : State) (j : Nat) : State :=
  s.listEntry j 5 fun s e => s.listGoto j (relative (s.list j).pos e.a)

def State.listCallEntry (s : State) (j : Nat) : State :=
  s.listEntry j 6 fun s e =>
    let l := s.list j
    if 8 ≤ l.stack.length then s.stopList j (some 0x0031)
    else (s.setList j { l with stack := (l.pos + 1) :: l.stack }).listGoto j (relative l.pos e.a)

def State.listReturnEntry (s : State) (j : Nat) : State :=
  s.listEntry j 7 fun s _ =>
    let l := s.list j
    match l.stack with
    | [] => s.stopList j (some 0x0031)
    | p :: rest => (s.setList j { l with stack := rest }).listGoto j p

def State.listEndEntry (s : State) (j : Nat) : State :=
  s.listEntry j 8 fun s e =>
    let l := s.list j
    (s.writeWord 0 l.ctx e.a 0 0 (l.executed + 1)).stopList j none

def State.listClear (s : State) (j : Nat) : State :=
  s.listEntry j 9 fun s e =>
    let l := s.list j
    (s.dropTags fun t => t.ctx == l.ctx && bits t.name.toNat 63 48 == e.a.toNat % 2 ^ 16).listGoto j (l.pos + 1)

/-- The operation code of the entry a list stands at, for the default order. -/
def State.listOp (s : State) (j : Nat) : Nat :=
  match (s.entryAt j).2 with
  | .ok e => if s.entryBad e then 0 else e.op
  | .error _ => 0

/-- The selected regions that decide a publication, in the order of their commits: of an HPUB those that its task committed before it in
program order, as far as they have handed over their logs (R423). -/
def State.decidersOf (s : State) (p : Pub) : List Nat :=
  match p.via with
  | .core k _ => (((s.taskOf k).map Task.regions).getD []).take p.commits
  | _ => p.deciders

/-- May a publication act now? One of a strict kernel waits until the commits before it have handed over their logs (R423). -/
def State.pubReady (s : State) (p : Pub) : Bool :=
  !p.held && match p.via with
    | .core _ _ => !p.strict || p.commits ≤ (s.decidersOf p).length
    | _ => true

/-- TAG_PUBLICATION (R339); every waiting tile is judged before the next publication (R342). -/
def State.publishTag (s : State) (p : Pub) : State :=
  if !s.pubReady p then s
  else
    match s.applyPub { p with deciders := s.decidersOf p } with
    | (s, .done code detail) => (s.finishPub p code detail).judgeAll
    | (s, .held) =>
      let by' := match s.tag? p.ctx p.name with | some t => t.deciders | none => []
      let hold (x : Pub) : Pub := if x.id == p.id then { x with held := true, deciders := by' } else x
      ({ s with launch := { s.launch with pubs := s.launch.pubs.map hold } } : State).judgeAll
    | (s, .waits) => s

/-- Would a publication have an effect now, or does it wait for a free entry (R339)? -/
def State.pubMoves (s : State) (p : Pub) : Bool :=
  s.pubReady p && match (s.applyPub p).2 with
    | .waits => false
    | _ => true

end Sys2Proof.Machine
end

