-- ==== Sys2Proof/Machine/Crypto.lean ====
section
/-! DEFINITION. SHA-384 and the verification of ECDSA P-384 signatures, by which the ROM accepts a firmware image (R454) and which attestation
uses (R455). The spec names them; their rounds, constants and formulas are those of FIPS 180-4 and FIPS 186-5 (PRESUMED, log 98). -/
namespace Sys2Proof.Machine

/-! ## SHA-384 -/

/-- The 80 round constants, constant t at bits 64 t and up. -/
def shaTable : BitVec 5120 :=
  0x6c44198c4a4758175fcb6fab3ad6faec597f299cfc657e2a4cc5d4becb3e42b6431d67c49c100d4c3c9ebe0a15c9bebc32caab7b40c7249328db77f523047d84#512 ++
  0x1b710b35131c471b113f9804bef90dae0a637dc5a2c898a606f067aa72176fbaf57d4f7fee6ed178eada7dd6cde0eb1ed186b8c721c0c207ca273eceea26619c#512 ++
  0xc67178f2e372532bbef9a3f7b2c67915a4506cebde82bde990befffa23631e288cc702081a6439ec84c87814a1f0ab7278a5636f43172f60748f82ee5defb2fc#512 ++
  0x682e6ff3d6b2b8a35b9cca4f7763e3734ed8aa4ae3418acb391c0cb3c5c95a6334b0bcb5e19b48a82748774cdf8eeb991e376c085141ab5319a4c116b8d2d0c8#512 ++
  0x106aa07032bbd1b8f40e35855771202ad69906245565a910d192e819d6ef5218c76c51a30654be30c24b8b70d0f89791a81a664bbc423001a2bfe8a14cf10364#512 ++
  0x92722c851482353b81c2c92e47edaee6766a0abb3c77b2a8650a73548baf63de53380d139d95b3df4d2c6dfc5ac42aed2e1b21385c26c92627b70a8546d22ffc#512 ++
  0x142929670a0e6e7006ca6351e003826fd5a79147930aa725c6e00bf33da88fc2bf597fc7beef0ee4b00327c898fb213fa831c66d2db43210983e5152ee66dfab#512 ++
  0x76f988da831153b55cb0a9dcbd41fbd44a7484aa6ea6e4832de92c6f592b0275240ca1cc77ac9c650fc19dc68b8cd5b5efbe4786384f25e3e49b69c19ef14ad2#512 ++
  0xc19bf174cf6926949bdc06a725c7123580deb1fe3b1696b172be5d74f27b896f550c7dc3d5ffb4e2243185be4ee4b28c12835b0145706fbed807aa98a3030242#512 ++
  0xab1c5ed5da6d8118923f82a4af194f9b59f111f1b605d0193956c25bf348b538e9b5dba58189dbbcb5c0fbcfec4d3b2f7137449123ef65cd428a2f98d728ae22#512

def shaConst (t : Nat) : Word := shaTable.extractLsb' (64 * t) 64

/-- The eight words of a state, the first at the top. -/
abbrev ShaState := BitVec 512

def ShaState.word (h : ShaState) (i : Nat) : Word := h.extractLsb' (64 * (7 - i)) 64

def ShaState.of (l : List Word) : ShaState := l.foldl (fun (h : ShaState) x => h <<< 64 ||| x.setWidth 512) 0

/-- The state before the first block. -/
def shaStart : ShaState :=
  0xcbbb9d5dc1059ed8629a292a367cd5079159015a3070dd17152fecd8f70e593967332667ffc00b318eb44a8768581511db0c2e0d64f98fa747b5481dbefa4fa4#512

/-- The schedule of a block, newest word first: `n` more words behind the sixteen of the block. -/
def shaWords : Nat → List Word → List Word
  | 0, ws => ws
  | n + 1, ws =>
    let x (i : Nat) : Word := ws.getD i 0
    let s0 := (x 14).rotateRight 1 ^^^ (x 14).rotateRight 8 ^^^ (x 14) >>> 7
    let s1 := (x 1).rotateRight 19 ^^^ (x 1).rotateRight 61 ^^^ (x 1) >>> 6
    shaWords n ((s1 + x 6 + s0 + x 15) :: ws)

/-- A round, with its word and its constant. -/
def shaRound (h : ShaState) (w k : Word) : ShaState :=
  let e := h.word 4
  let a := h.word 0
  let s1 := e.rotateRight 14 ^^^ e.rotateRight 18 ^^^ e.rotateRight 41
  let ch := (e &&& h.word 5) ^^^ (~~~e &&& h.word 6)
  let t1 := h.word 7 + s1 + ch + k + w
  let s0 := a.rotateRight 28 ^^^ a.rotateRight 34 ^^^ a.rotateRight 39
  let maj := (a &&& h.word 1) ^^^ (a &&& h.word 2) ^^^ (h.word 1 &&& h.word 2)
  ShaState.of [t1 + (s0 + maj), a, h.word 1, h.word 2, h.word 3 + t1, e, h.word 5, h.word 6]

/-- A big-endian number. -/
def beNat (l : List Byte) : Nat := l.foldl (fun n b => 256 * n + b.toNat) 0

/-- A block of 128 bytes. -/
def shaBlock (h : ShaState) (b : List Byte) : ShaState :=
  let ws := (List.range 16).map fun i => BitVec.ofNat 64 (beNat ((b.drop (8 * i)).take 8))
  let all := (shaWords 64 ws.reverse).reverse
  let g := ((List.range 80).zip all).foldl (fun g x => shaRound g x.2 (shaConst x.1)) h
  ShaState.of ((List.range 8).map fun i => h.word i + g.word i)

def shaBlocks : Nat → ShaState → List Byte → ShaState
  | 0, h, _ => h
  | n + 1, h, m => shaBlocks n (shaBlock h (m.take 128)) (m.drop 128)

/-- The SHA-384 digest of a message, as a big-endian number. -/
def sha384 (m : List Byte) : BitVec 384 :=
  let pad := m ++ [0x80#8] ++ List.replicate ((111 + 127 * m.length) % 128) 0 ++ (leBytes 16 (8 * m.length)).reverse
  (shaBlocks (pad.length / 128) shaStart pad).extractLsb' 128 384

/-! ## The curve P-384 -/

/-- The prime of the field and the order of the group. -/
def p384 : Nat := 2 ^ 384 - 2 ^ 128 - 2 ^ 96 + 2 ^ 32 - 1
def n384 : Nat :=
  0xffffffffffffffffffffffffffffffffffffffffffffffffc7634d81f4372ddf581a0db248b0a77aecec196accc52973
def b384 : Nat :=
  0xb3312fa7e23ee7e4988e056be3f82d19181d9c6efe8141120314088f5013875ac656398d8a2ed19d2a85c8edd3ec2aef

/-- The base point. -/
def baseX : Nat :=
  0xaa87ca22be8b05378eb1c71ef320ad746e1d3b628ba79b9859f741e082542a385502f25dbf55296c3a545e3872760ab7
def baseY : Nat :=
  0x3617de4a96262c6f5d9e98bf9292dc29f8f41dbd289a147ce9da3113b5f0b8c00a60b1ce1d7e819d7a431d7c90ea0e5f

/-- A point in Jacobian coordinates modulo the prime; z = 0 at infinity. -/
structure CurvePoint where
  x : Nat
  y : Nat
  z : Nat
  deriving DecidableEq, Repr

/-- A difference modulo the prime. -/
def subP (a b : Nat) : Nat := (a + p384 - b % p384) % p384

def CurvePoint.double (a : CurvePoint) : CurvePoint :=
  let d := a.z * a.z % p384
  let g := a.y * a.y % p384
  let b := a.x * g % p384
  let l := 3 * (subP a.x d * (a.x + d) % p384) % p384
  let x := subP (l * l) (8 * b)
  ⟨x, subP (l * subP (4 * b) x) (8 * (g * g)), 2 * a.y * a.z % p384⟩

def CurvePoint.add (a b : CurvePoint) : CurvePoint :=
  if a.z = 0 then b
  else if b.z = 0 then a
  else
    let za := a.z * a.z % p384
    let zb := b.z * b.z % p384
    let u := a.x * zb % p384
    let h := subP (b.x * za) u
    let v := a.y * (b.z * zb % p384) % p384
    let r := subP (b.y * (a.z * za % p384)) v
    if h = 0 then (if r = 0 then a.double else ⟨1, 1, 0⟩)
    else
      let hh := h * h % p384
      let hhh := h * hh % p384
      let w := u * hh % p384
      let x := subP (r * r) (hhh + 2 * w)
      ⟨x, subP (r * subP w x) (v * hhh), a.z * (b.z * h % p384) % p384⟩

/-- The sum of u times a and v times b, bit by bit from bit n - 1 down. -/
def CurvePoint.combine (a b : CurvePoint) (u v : Nat) (n : Nat) : CurvePoint :=
  let ab := a.add b
  (List.range n).reverse.foldl (fun (acc : CurvePoint) i =>
    let acc := acc.double
    match u.testBit i, v.testBit i with
    | false, false => acc
    | true, false => acc.add a
    | false, true => acc.add b
    | true, true => acc.add ab) ⟨1, 1, 0⟩

/-- A power modulo the order. -/
def powN (x e : Nat) : Nat :=
  (List.range 384).reverse.foldl (fun acc i => let acc := acc * acc % n384; if e.testBit i then acc * x % n384 else acc) 1

/-- Does a signature r, s of a message verify under a public key x, y (FIPS 186-5)? -/
def ecdsaVerifies (key sig : BitVec 768) (m : List Byte) : Bool :=
  let x := key.toNat / 2 ^ 384
  let y := key.toNat % 2 ^ 384
  let r := sig.toNat / 2 ^ 384
  let s := sig.toNat % 2 ^ 384
  let onCurve := x < p384 && y < p384 && y * y % p384 == (subP (x * x * x) (3 * x) + b384) % p384
  if !onCurve || r = 0 || n384 ≤ r || s = 0 || n384 ≤ s then false
  else
    let w := powN s (n384 - 2)
    let t := CurvePoint.combine ⟨baseX, baseY, 1⟩ ⟨x, y, 1⟩ ((sha384 m).toNat * w % n384) (r * w % n384) 384
    let zz := t.z * t.z % p384
    t.z != 0 && (r * zz % p384 == t.x || (r + n384 < p384 && (r + n384) * zz % p384 == t.x))

/-! ## Firmware images (R454) -/

/-- The bytes that the signature of an image covers: the rest of its header, then its body (DESIGN CHOICE, log 98). -/
def signedBytes (f : Firmware) : List Byte := leBytes 8 f.version ++ (leBytes 96 f.key.toNat).reverse ++ f.body

/-- The code with which the ROM turns an image away, 0 if it accepts it: 1 the key or the signature, 2 a version below the minimum. -/
def imageRefused (f : Firmware) (fused : BitVec 384) (least : Nat) : Nat :=
  if sha384 (leBytes 96 f.key.toNat).reverse ≠ fused || !ecdsaVerifies f.key f.sig (signedBytes f) then 1
  else if f.version < least then 2 else 0

end Sys2Proof.Machine
end

