-- ==== Sys2Proof/Machine/Platform.lean ====
section
/-! DEFINITION. Reset and bring-up (R452 to R454), SPDM and the keys (R455, R456), clocks (R457, R458) and halted sequencers
(R460). -/
namespace Sys2Proof.Machine

/-! ## Bring-up -/

/-- A list with what it lacks of another. -/
def addMissing {α : Type} [BEq α] (new old : List α) : List α := old ++ new.filter fun x => !old.contains x

/-- The retirement list as it now stands, in the record that keeps it: each retirement since the last reset is added (R453). -/
def State.retirements (s : State) : PlatState :=
  let banks := s.cores.flatMap fun c => ((List.range 12).filter fun g => (c.group g).state == 2).map fun g => (c.kid, g, (c.group g).dbank)
  let cores := (s.cores.filter fun c => c.run == .retired).map fun c => (c.kid, c.retWhy)
  { s.plat with
    listBanks := addMissing banks s.plat.listBanks, listCores := addMissing cores s.plat.listCores
    listFrames := addMissing s.mem.quarantine s.plat.listFrames }

/-- RESET: everything returns to its reset state but flash, host memory, the retirement list, the fuses and the firmware
image. What is to come (agenda) and the count of free values stay. -/
def State.doReset (s : State) : State :=
  let r := State.reset
  let p := s.retirements
  { r with
    mem := { r.mem with flash := s.mem.flash, flashBad := s.mem.flashBad, flashErr := s.mem.flashErr, mapped := s.mem.mapped, host := s.mem.host, hostPoison := s.mem.hostPoison }
    flash := { r.flash with map := s.flash.map, blocks := s.flash.blocks, nextId := s.flash.nextId }
    plat := { r.plat with
      listBanks := p.listBanks, listCores := p.listCores, listFrames := p.listFrames
      image := p.image, minVersion := p.minVersion, keyDigest := p.keyDigest }
    agenda := s.agenda, turn := s.turn, fresh := s.fresh }

/-- Phase 3 retires the banks that fail their self-test, given as (core, group, bank), and applies the retirement list: no sector is lost,
since the pools hold zeros (R452, R453). -/
def State.applyList (s : State) (failed : List (Nat × Nat × Nat)) : State :=
  let s := (addMissing failed s.plat.listBanks).foldl (fun s x => (s.modCore x.1 fun c => c.startRebuild x.2.1 x.2.2).endRebuild x.1 x.2.1) s
  let s := s.plat.listCores.foldl (fun s x => s.modCore x.1 fun c => { c with run := .retired, retWhy := x.2 }) s
  { s with mem := { s.mem with quarantine := s.plat.listFrames } }

/-- The FAIL code of a phase: phase 0 verifies the image to be booted (R454), phase 2 may fail in its two ways, and no failure of the other
phases has a code (R452; log 19). -/
def PlatState.bootFail (p : PlatState) (r : BootResult) : Nat :=
  match p.phase with
  | 0 => imageRefused (r.image.getD p.image) p.keyDigest p.minVersion
  | 2 => if r.fail = 3 || r.fail = 4 then r.fail else 0
  | _ => 0

/-- BOOT_PHASE_COMPLETE. A failure leads to phase 4 in recovery, and an image that fails leaves the previous one in place (R454). Phase 2
writes every granule of HBM (R452). -/
def State.bootPhase (s : State) (r : BootResult) : State :=
  let p := s.plat
  if 5 ≤ p.phase || p.bootErr then s
  else
    let fail := p.bootFail r
    if fail ≠ 0 then { s with plat := { p with phase := 4, bootErr := true, fail := fail } }
    else
      let s := { s with plat := { p with phase := p.phase + 1 } }
      match p.phase with
      | 0 => { s with plat := { s.plat with image := r.image.getD p.image } }
      | 2 => { s with mem := { s.mem with hbm := [], hbmPoison := [], hbmErr := [] } }
      | 3 => s.applyList r.failed
      | 4 => { s with mem := { s.mem with linkUp := true } }
      | _ => s

/-- Is the package ready (R452)? -/
def State.ready (s : State) : Bool := s.plat.phase == 5

/-! ## SPDM (R455; log 18) and keys (R456) -/

/-- The bytes of a big-endian number. -/
def beBytes (n x : Nat) : List Byte := (leBytes n x).reverse

/-- What the security processor is asked for (R455). -/
inductive SpdmRequest where
  | version | capabilities | algorithms | digests | certificate
  | challenge (nonce : BitVec 256)
  | measurement (index : Nat)
  | keyExchange | finish
  deriving DecidableEq, Repr

/-- What the measurement of an index measures: the ROM, the firmware image, the retirement list, the fused minimum version. -/
def State.measured (s : State) (index : Nat) : List Byte :=
  let p := s.retirements
  match index with
  | 1 => Config.rom
  | 2 => signedBytes p.image ++ beBytes 96 p.image.sig.toNat
  | 3 => (p.listBanks.flatMap fun x => leBytes 2 x.1 ++ leBytes 1 x.2.1 ++ leBytes 1 x.2.2) ++
      (p.listCores.flatMap fun x => leBytes 2 x.1 ++ leBytes 1 x.2) ++
      p.listFrames.flatMap fun x => leBytes 2 x.1 ++ leBytes 2 x.2.1 ++ leBytes 2 x.2.2
  | _ => leBytes 8 p.minVersion

/-- The content of an answer: versions 1.2 and 1.3; the algorithms ECDSA P-384, SHA-384 and AES-256-GCM; the certificate chain or its digest; a
digest of what is measured; and what the identity key, or that of an exchange, makes of the request (log 18). -/
def State.spdmContent (s : State) (r : SpdmRequest) : List Byte :=
  let digest (m : List Byte) : List Byte := beBytes 48 (sha384 m).toNat
  let signed (m : List Byte) : List Byte := beBytes 96 (Config.spdmSign m s.fresh).toNat
  match r with
  | .version => leBytes 2 0x1200 ++ leBytes 2 0x1300
  | .capabilities => leBytes 4 Config.spdmFlags.toNat
  | .algorithms => leBytes 4 0x80 ++ leBytes 4 0x02 ++ leBytes 2 0x02
  | .digests => digest Config.certChain
  | .certificate => Config.certChain
  | .challenge nonce => digest Config.certChain ++ signed (leBytes 32 nonce.toNat ++ digest Config.certChain)
  | .measurement index => leBytes 1 index ++ digest (s.measured index)
  | .keyExchange | .finish => signed []

/-- A request out of its order is answered by an error, which has no content here. -/
def State.spdmError (s : State) : State := { s with plat := { s.plat with answer := [] } }

/-- A request that needs the exchange to have come to a state, and leads to another. -/
def State.spdmStep (s : State) (r : SpdmRequest) (ok : Nat → Bool) (after : Nat → Nat) : State :=
  if ok s.plat.spdm then
    { s with plat := { s.plat with spdm := after s.plat.spdm, answer := s.spdmContent r }, fresh := s.fresh + 1 }
  else s.spdmError

/-- LOAD and CLEAR act in a secured session only. -/
def State.keyLoad (s : State) (index : Nat) (key : BitVec 512) : State :=
  if s.plat.spdm ≠ 5 || 4096 ≤ index then s.spdmError
  else { s with mem := { s.mem with keys := (index, key) :: s.mem.keys.filter fun x => x.1 != index } }

def State.keyClear (s : State) (index : Nat) : State :=
  if s.plat.spdm ≠ 5 || 4096 ≤ index then s.spdmError
  else { s with mem := { s.mem with keys := s.mem.keys.filter fun x => x.1 != index } }

/-! ## Clocks (R457, R458) -/

def State.clockOf (s : State) (b : BlockId) : Clock :=
  match s.plat.clocks.find? fun x => x.block == b with
  | some x => x
  | none => ⟨b, 0, 0, false⟩

def State.setClock (s : State) (x : Clock) : State :=
  { s with plat := { s.plat with clocks := x :: s.plat.clocks.filter fun y => y.block != x.block } }

/-- THERMAL_THROTTLE_DOWN: one step of 1/16, down to 1/8. -/
def State.throttleDown (s : State) (b : BlockId) : State :=
  let x := s.clockOf b
  if x.stopped || 14 ≤ x.steps then s else s.setClock { x with steps := x.steps + 1, count := x.count + 1 }

def State.throttleUp (s : State) (b : BlockId) : State :=
  let x := s.clockOf b
  if x.stopped || x.steps = 0 then s else s.setClock { x with steps := x.steps - 1, count := x.count + 1 }

def State.clockStop (s : State) (b : BlockId) : State :=
  let x := s.clockOf b
  if x.steps = 14 then s.setClock { x with stopped := true } else s

def State.clockRestart (s : State) (b : BlockId) : State :=
  let x := s.clockOf b
  if x.stopped then s.setClock { x with stopped := false } else s

/-! ## Halted sequencers (R460) -/

def State.mgmt (s : State) (k : Nat) (f : State → State) : State :=
  if (s.coreAt k).run == .halted then f s else { s with plat := { s.plat with mgmtErr := true } }

/-- MGMT_RESUME: at the next bundle. -/
def State.mgmtResume (s : State) (k : Nat) : State := s.mgmt k fun s => s.modCore k fun c => { c with run := .running }

/-- MGMT_TERMINATE. -/
def State.mgmtTerminate (s : State) (k : Nat) : State := s.mgmt k fun s => s.terminate (s.coreAt k).ctx 0

end Sys2Proof.Machine
end

