-- ==== Sys2Proof/Machine/Repairs.lean ====
section
/-! DEFINITION. The end of a core's retirement (R419), the Referee's replays (R423) and the configuration of ring and Referee
(R411, R412, R421, R424). -/
namespace Sys2Proof.Machine

/-! ## Cores (R419) -/

/-- A tile of a cluster that has left service is placed again in its parent unit, and what it confined moves with it; with no
cluster left there it fails. -/
def State.replaceTile (s : State) (old : Nat) (t : TileTask) : State :=
  if (s.clustersOf t.parent.1 t.parent.2).isEmpty then
    let tlev := match s.spec? t.launch with | some p => p.tlev | none => 0
    s.failTile t 0x0031 (0x4000 + (0x40 + 8 * (tlev - 1)))
  else
    let c := s.tileCluster t.coord t.parent.1 t.parent.2
    let s := s.setTile { t with cluster := some c }
    let dom (d u : Nat) : Nat × Nat := if unitOf 1 (u * domSize d) = old && d ≤ 1 then (1, c) else (d, u)
    { s with launch := { s.launch with
      ranges := s.launch.ranges.map fun (r : RangeTask) => if r.tile == some t.id then { r with dom := (dom r.dom r.unit).1, unit := (dom r.dom r.unit).2 } else r
      saved := s.launch.saved.map fun (x : Saved) =>
        if x.task.tile == some t.id then { x with task := { x.task with dom := (dom x.task.dom x.task.unit).1, unit := (dom x.task.dom x.task.unit).2 } } else x
      gangs := s.launch.gangs.map fun (g : Gang) =>
        if g.leaves.any (fun l => l.tile == some t.id) then { g with dom := (dom g.dom g.unit).1, unit := (dom g.dom g.unit).2 } else g } }

/-- Work confined to a unit is confined to another one, as `f` says of a launch, a level and a unit. -/
def State.moveWork (s : State) (f : Nat → Nat → Nat × Nat → Nat × Nat) : State :=
  { s with launch := { s.launch with
    ranges := s.launch.ranges.map fun (r : RangeTask) =>
      { r with dom := (f r.launch r.level (r.dom, r.unit)).1, unit := (f r.launch r.level (r.dom, r.unit)).2 }
    saved := s.launch.saved.map fun (x : Saved) =>
      let u := f x.task.launch x.task.path.length (x.task.dom, x.task.unit)
      { x with task := { x.task with dom := u.1, unit := u.2 } }
    gangs := s.launch.gangs.map fun (g : Gang) =>
      { g with dom := (f g.launch g.path.length (g.dom, g.unit)).1, unit := (f g.launch g.path.length (g.dom, g.unit)).2 } } }

/-- Range tasks and saved tasks confined to a retired core are confined to its cluster (log 25). -/
def State.widen (s : State) (k : Nat) : State := s.moveWork fun _ _ u => if u = (0, k) then (1, k / 16) else u

/-- Where work of a level goes that a unit without a cluster in service confined, and no tile: to the unit of the same kind of the first
cluster in service of the nearest enclosing domain that has one (R324, R419; log 25). -/
def State.rehome (s : State) (launch level : Nat) (u : Nat × Nat) : Nat × Nat :=
  if u.1 = 3 || !(s.clustersOf u.1 u.2).isEmpty then u
  else
    let doms := ((s.spec? launch).map fun p => ((List.range level).reverse.map fun k => min (p.level k).dom 3).filter (u.1 < ·)).getD []
    match (doms ++ [3]).findSome? fun d => (s.clustersOf d (unitOf d (u.2 * domSize u.1))).head? with
    | some c => if u.1 = 2 then (2, unitOf 2 (16 * c)) else (1, c)
    | none => u

/-- CORE_RETIREMENT_COMPLETE: the core runs nothing any more and leaves service. -/
def State.endCoreRetirement (s : State) (k : Nat) : State :=
  match s.rel.retiring.find? fun x => x.1 == k with
  | none => s
  | some (_, why) =>
    if (s.coreAt k).run != .idle || s.launch.tasks.any (fun t => t.core == k) then s
    else
      let s := s.modCore k fun c => { c with run := .retired, retWhy := why + 1 }
      let s := { s with rel := { s.rel with retiring := s.rel.retiring.filter fun x => x.1 != k } }
      let s := (s.widen k).emit (s.coreRec k 0x0013 why 0 0 0)
      let cl := k / 16
      if s.clusterUp cl then s
      else
        let s := (s.launch.tiles.filter fun t => t.cluster == some cl && t.state != .done && t.state != .failed).foldl (fun s t => s.replaceTile cl t) s
        s.moveWork s.rehome

/-! ## The Referee (R423) -/

/-- The cluster that replays: n further on, or the next in service, other than those excluded. -/
def State.replayCluster (s : State) (c n : Nat) (not' : List Nat) : Option Nat :=
  ((List.range 256).map fun i => (c + n + i) % 256).find? fun x => s.clusterUp x && !not'.contains x

/-- The log that is replayed next: strict logs first, in commit order. -/
def RelState.nextLog (r : RelState) : Option AuditEntry :=
  match r.logs.find? fun e => e.first.isNone && !e.done && e.log.strict with
  | some e => some e
  | none => r.logs.find? fun e => e.first.isNone && !e.done

/-- The logs with one decided: it leaves the area once those committed before it have left (R422). -/
def RelState.decided (r : RelState) (num : Nat) : List AuditEntry :=
  (r.logs.map fun (e : AuditEntry) => if e.num == num then { e with done := true } else e).dropWhile (·.done)

def State.dropLog (s : State) (num : Nat) : State :=
  { s with rel := { s.rel with logs := s.rel.decided num, aud := min (s.rel.aud + 1) (2 ^ 20 - 1) } }

/-- REFEREE_REPLAY: `sig` is what the replaying core computed, none for the source's signature. -/
def State.replay (s : State) (num core : Nat) (sig : Option Word) : State :=
  match s.rel.nextLog with
  | none => s
  | some e =>
    let c := e.log.core / 16
    if e.num ≠ num || s.replayCluster c 128 [c] ≠ some (core / 16) then s
    else
      let v := sig.getD e.log.sig
      if v = e.log.sig then (s.dropLog num).decideTags
      else { s with rel := { s.rel with logs := s.rel.logs.map fun (x : AuditEntry) => if x.num == num then { x with first := some (core, v) } else x } }

/-- A mismatch is counted against a core, which is retired at the threshold (R419, R424). -/
def State.countMismatch (s : State) (e : AuditEntry) (first third culprit : Nat) (v w : Word) (unres : Bool) : State :=
  let n := min 255 ((s.coreAt culprit).refCnt + 1)
  let due := s.rel.refThr != 0 && s.rel.refThr ≤ n
  let hostact := due && s.host.duty.getLsbD 3
  let s := s.modCore culprit fun c => { c with refCnt := n }
  let s := { s with rel := { s.rel with mism := min (s.rel.mism + 1) 4095 } }
  let r : Rec := { s.coreRec culprit 0x0060 0 (BitVec.ofNat 64 e.addr) e.log.sig v with
    flags := (if hostact then 2 else 0) + (if unres then 4 else 0), info2 := w
    info3 := BitVec.ofNat 64 (2 ^ 32 * e.log.core + 2 ^ 16 * first + third) }
  let s := s.emit r
  if due && !hostact then s.retireCoreStart culprit 1 else s

/-- REFEREE_THIRD_REPLAY: the decision. -/
def State.thirdReplay (s : State) (num core : Nat) (sig : Option Word) : State :=
  match s.rel.logs.find? fun e => e.num == num && !e.done with
  | none => s
  | some e => match e.first with
    | none => s
    | some (first, v) =>
      let c := e.log.core / 16
      if s.replayCluster c 64 [c, first / 16] ≠ some (core / 16) then s
      else
        let w := sig.getD e.log.sig
        let good := w = e.log.sig
        let s := s.dropLog num
        let s := s.countMismatch e first core (if good then first else e.log.core) v w (!good && w != v)
        let s := if good || !e.log.strict then s else { s with rel := { s.rel with verdicts := s.rel.verdicts ++ [(num, first / 16)] } }
        s.decideTags

/-! ## Configuration (R411, R412, R421, R424) -/

/-- REFEREE_CONFIG_WRITE: REFSEED or REFCFG; every core's selection state starts again. -/
def State.refConfig (s : State) (seed : Bool) (value : Word) : State :=
  let v := value.toNat
  let r := s.rel
  let r := if seed then { r with seed := bits v 31 0 }
    else { r with refEn := v.testBit 31, refF := min 20 (bits v 28 24), refSF := min 20 (bits v 20 16), refThr := bits v 15 8 }
  ({ s with rel := r } : State).modCores fun c => { c with refState := refSeed r.seed c.kid }

/-- RING_CONFIG_WRITE: RLSIZE or RLBASE; HEAD and TAIL are reset. -/
def State.ringConfig (s : State) (size : Bool) (value : Word) : State :=
  let r := { s.rel with head := 0, tail := 0 }
  { s with rel := if size then { r with rlsize := bits value.toNat 20 0 }
                  else { r with rlbase := value &&& ~~~(0x3E#64) } }

/-- RLHEAD_WRITE: a value at or above N is ignored. -/
def State.headWrite (s : State) (value : Word) : State :=
  let v := bits value.toNat 19 0
  if v < s.rel.rlsize then { s with rel := { s.rel with head := v } } else s

end Sys2Proof.Machine
end

