-- ==== Sys2Proof/Machine/Registers.lean ====
section
/-! DEFINITION. BAR0 (R388 to R390): which accesses are served, every register the host writes, and what it reads from each. -/
namespace Sys2Proof.Machine

/-! ## Which writes are served -/

/-- Is a write to an offset served (R414, R452)? Before phase 5 and in recovery only the platform's block is, once the link
trains; in the fatal state no write is. -/
def State.serves (s : State) (off : Nat) : Bool :=
  (s.plat.phase == 5 || (4 ≤ s.plat.phase && off / 2 ^ 16 == 3)) && !s.rel.fatal

/-- A write of one register, if it is served. -/
def State.served (s : State) (off : Nat) (f : State → State) : State := if s.serves off then f s else s

/-- The registers that the host writes only while every context is free (R390, R424, R433). -/
def configOffsets : List Nat :=
  [0x1000, 0x1008, 0x1100, 0x1200, 0x1208, 0x1300, 0x1308, 0x1400, 0x1408, 0x1410, 0x1500, 0x10110, 0x10118, 0x20040]

/-! ## Lists and launches (R333, R334) -/

/-- SQCFG. -/
def State.writeSqcfg (s : State) (j v : Nat) : State :=
  s.setList j { s.list j with en := v.testBit 31, ctx := bits v 25 16, prio := bits v 3 0 }

/-- SQSTAT: FAIL and DROP clear on a 1. -/
def State.writeSqstat (s : State) (j v : Nat) : State :=
  let l := s.list j
  s.setList j { l with fail := l.fail && !v.testBit 2, drop := l.drop && !v.testBit 1 }

def State.writeSq (s : State) (off : Nat) (value : Word) : State :=
  match off % 32 with
  | 0 => s.submitList (off / 32) value
  | 8 => s.writeSqcfg (off / 32) value.toNat
  | 16 => s.writeSqstat (off / 32) value.toNat
  | _ => s

/-! ## Context commands (R366) -/

/-- CTXCMD: a reserved OP is refused. -/
def State.writeCtxcmd (s : State) (v : Nat) : State :=
  let c := bits v 25 16
  match bits v 3 0 with
  | 1 => s.createCtx c
  | 2 => s.suspendCtx c
  | 3 => s.resumeCtx c
  | 4 => s.terminateCtx c
  | 5 => s.invallCtx c
  | _ => s.ctxCommand c (fun _ => false) id

/-! ## Configuration that waits for free contexts (R390) -/

/-- Write one of the configuration registers. -/
def State.writeConfig (s : State) (off : Nat) (value : Word) : State :=
  let v := value.toNat
  match off with
  | 0x1000 => { s with launch := { s.launch with lpbase := value &&& ~~~(0x3F#64) } }
  | 0x1008 => { s with launch := { s.launch with lpres := bits v 52 32, lpqlen := bits v 20 0 } }
  | 0x1100 => { s with host := { s.host with ctxbase := value &&& ~~~(0x3FFFF#64) } }
  | 0x1200 => { s with expert := { s.expert with ecbase := value &&& ~~~(0xFFFF#64) } }
  | 0x1208 => { s with expert := { s.expert with frames := bits v 39 20, hostord := v.testBit 1, en := v.testBit 0 } }
  | 0x1300 => { s with mem := { s.mem with capwin := value &&& ~~~(0x3FFF0000#64) } }
  | 0x1308 => { s with host := { s.host with apEn := v.testBit 12, apKey := bits v 11 0 } }
  | 0x1400 => { s with host := { s.host with xsize := bits v 63 48, rank := bits v 40 32, npkg := bits v 25 16, peerEn := v.testBit 0 } }
  | 0x1408 => { s with host := { s.host with peerCtx := bits v 57 48, peerBase := bits v 47 30 } }
  | 0x1410 => { s with host := { s.host with rxcred := bits v 43 32, txcred := bits v 11 0 } }
  | 0x1500 => { s with host := { s.host with duty := BitVec.ofNat 5 v } }
  | 0x10110 => { s with rel := { s.rel with audbase := value &&& ~~~(0xFFFF#64) } }
  | 0x10118 => { s with rel := { s.rel with audsize := bits v 31 0 } }
  | 0x20040 => { s with hbm := { s.hbm with spareBase := bits v 63 31, chthr := bits v 23 16, count := min 4 (bits v 2 0) } }
  | _ => s

/-- A configuration write while a context is not free is ignored and sets CFGDROP. -/
def State.configWrite (s : State) (off : Nat) (value : Word) : State :=
  if s.mem.ctxs.isEmpty then s.writeConfig off value else { s with host := { s.host with cfgdrop := true } }

/-! ## Status registers of the host's block -/

/-- PEERSTAT: a 1 in PEVT clears it, which is a change of PEVT (R394, R395). -/
def State.writePeerstat (s : State) (v : Nat) : State :=
  if bits v 63 32 = 0 || s.host.pevt = 0 then s
  else ({ s with host := { s.host with pevt := 0 } } : State).raise 66

def State.writeHost (s : State) (off : Nat) (value : Word) : State :=
  let v := value.toNat
  match off with
  | 0x1108 => s.writeCtxcmd v
  | 0x1110 => { s with host := { s.host with ctxErr := s.host.ctxErr && !v.testBit 1 } }
  | 0x1210 => if bits v 63 32 = 0 then s else { s with expert := { s.expert with miss := 0 } }
  | 0x1218 => s.hostStart value
  | 0x1418 => s.writePeerstat v
  | 0x1508 => { s with host := { s.host with cfgdrop := s.host.cfgdrop && !v.testBit 0 } }
  | _ => s

/-! ## The reliability block (R411, R424) -/

/-- RETCMD: retire a frame or a core. An address beyond HBM names no frame. -/
def State.writeRetcmd (s : State) (v : Nat) : State :=
  let f := bits v 47 16
  match bits v 63 62 with
  | 1 => if 65536 * f < Config.hbmBytes then s.retireFrame f 2 none else s
  | 2 => s.retireCoreStart (bits v 11 0) 2
  | _ => s

/-- RASCFG: a MODE of 3 leaves MODE as it is. -/
def State.writeRascfg (s : State) (v : Nat) : State :=
  let m := bits v 1 0
  { s with rel := { s.rel with
      pagethr := bits v 15 12, bankthr := bits v 11 8, cerec := v.testBit 2, mode := if m = 3 then s.rel.mode else m } }

def State.writeRasstat (s : State) (v : Nat) : State :=
  { s with rel := { s.rel with
      dropcnt := if bits v 63 32 = 0 then s.rel.dropcnt else 0
      nfpend := s.rel.nfpend && !v.testBit 1, ovf := s.rel.ovf && !v.testBit 0 } }

/-- HQSEL: a GROUP of 12 to 15 leaves GROUP as it is. -/
def State.writeHqsel (s : State) (v : Nat) : State :=
  let g := bits v 3 0
  { s with rel := { s.rel with hqcore := bits v 23 12, hqgroup := if g < 12 then g else s.rel.hqgroup } }

def State.writeReliability (s : State) (off : Nat) (value : Word) : State :=
  let v := value.toNat
  match off with
  | 0x000 => s.writeRascfg v
  | 0x008 => s.writeRasstat v
  | 0x010 => s.ringConfig false value
  | 0x018 => s.ringConfig true value
  | 0x020 => s.headWrite value
  | 0x030 => s.writeRetcmd v
  | 0x040 => s.writeHqsel v
  | 0x100 => s.refConfig false value
  | 0x108 => s.refConfig true value
  | _ => s

/-! ## HBM and flash (R433, R440) -/

/-- CHCMD. -/
def State.writeChcmd (s : State) (v : Nat) : State := if bits v 63 62 ≠ 1 then s else s.retireChan (bits v 8 0)

/-- FLCMD by OP: any other OP is an invalid command. -/
def State.writeFlcmd (s : State) (value : Word) : State :=
  match bits value.toNat 63 60 with
  | 1 => s.flashWrite value false
  | 2 => s.flashTrim value
  | 3 => s.flashReloc value
  | 4 => s.flashRetire value
  | _ => s.flashCommand fun s => (s, 0x0031, none)

/-- Writes of the memory block (R433, R440). The limit of HBMSEL and FHSEL is tested on the whole 64-bit value (DESIGN CHOICE, log
38). -/
def State.writeMemories (s : State) (off : Nat) (value : Word) : State :=
  let v := value.toNat
  match off with
  | 0x000 => if 383 < v then s else { s with hbm := { s.hbm with sel := v } }
  | 0x048 => s.writeChcmd v
  | 0x050 => { s with hbm := { s.hbm with err := s.hbm.err && !v.testBit 3 } }
  | 0x100 => { s with flash := { s.flash with rdthr := max 1 (bits v 63 40), wldiff := bits v 39 24 } }
  | 0x108 => if 7 < v then s else { s with flash := { s.flash with fhsel := v } }
  | 0x120 => { s with flash := { s.flash with fbstack := bits v 34 32, fbblock := bits v 19 0 } }
  | 0x140 => { s with flash := { s.flash with flarg := value } }
  | 0x148 => s.writeFlcmd value
  | 0x150 => { s with flash := { s.flash with err := s.flash.err && !v.testBit 1 } }
  | _ => s

/-! ## The platform's block (R458, R460) -/

def State.writeThcfg (s : State) (v : Nat) : State :=
  let t := bits v 15 8
  if t < 85 || 105 < t then s else { s with plat := { s.plat with tjmax := t } }

def State.writePlatform (s : State) (off : Nat) (value : Word) : State :=
  let v := value.toNat
  match off with
  | 0x008 => s.writeThcfg v
  | 0x010 => { s with plat := { s.plat with telkind := bits v 19 16, telnum := bits v 15 4, telitem := bits v 3 0 }, fresh := s.fresh + 1 }
  | 0x020 =>
    (match bits v 63 62 with
      | 1 => s.mgmtResume (bits v 11 0)
      | 2 => s.mgmtTerminate (bits v 11 0)
      | _ => s)
  | 0x028 => { s with plat := { s.plat with mgmtErr := s.plat.mgmtErr && !v.testBit 0 } }
  | _ => s

/-! ## A write of BAR0 -/

/-- REGISTER_WRITE (R388 to R390). -/
def State.registerWrite (s : State) (off size : Nat) (value : Word) : State :=
  if size ≠ 8 || off % 8 ≠ 0 || 2 ^ 24 ≤ off then s
  else s.served off fun s =>
    if configOffsets.contains off then s.configWrite off value
    else if off < 0x800 then s.writeSq off value
    else match off / 2 ^ 16 with
      | 0 => s.writeHost off value
      | 1 => s.writeReliability (off % 2 ^ 16) value
      | 2 => s.writeMemories (off % 2 ^ 16) value
      | 3 => s.writePlatform (off % 2 ^ 16) value
      | _ => s

/-! ## Reads -/

/-- SQADDR, SQCFG, SQSTAT. -/
def State.readSq (s : State) (off : Nat) : Nat :=
  let l := s.list (off / 32)
  match off % 32 with
  | 0 => l.addr.toNat
  | 8 => 2 ^ 31 * b2n l.en + 2 ^ 16 * l.ctx + l.prio
  | 16 => 2 ^ 32 * (l.pos % 2 ^ 32) + 2 ^ 16 * l.code + 4 * b2n l.fail + 2 * b2n l.drop + b2n l.busy
  | _ => 0

def State.ctxState (s : State) (c : Nat) : Nat := ((s.mem.ctx c).map (·.state)).getD 0

def State.readHost (s : State) (off : Nat) : Nat :=
  let h := s.host
  match off with
  | 0x1000 => s.launch.lpbase.toNat
  | 0x1008 => 2 ^ 32 * s.launch.lpres + s.launch.lpqlen
  | 0x1100 => h.ctxbase.toNat
  | 0x1110 => 2 ^ 16 * h.lastCtx + 2 ^ 8 * s.ctxState h.lastCtx + 2 * b2n h.ctxErr + b2n (h.op != 0)
  | 0x1200 => s.expert.ecbase.toNat
  | 0x1208 => 2 ^ 20 * s.expert.frames + 2 * b2n s.expert.hostord + b2n s.expert.en
  | 0x1210 => 2 ^ 32 * s.expert.miss + 2 ^ 11 * s.readsInFlight + s.expert.entries.length
  | 0x1300 => s.mem.capwin.toNat
  | 0x1308 => 2 ^ 12 * b2n h.apEn + h.apKey
  | 0x1400 => 2 ^ 48 * h.xsize + 2 ^ 32 * h.rank + 2 ^ 16 * h.npkg + b2n h.peerEn
  | 0x1408 => 2 ^ 48 * h.peerCtx + 2 ^ 30 * h.peerBase
  | 0x1410 => 2 ^ 32 * h.rxcred + h.txcred
  | 0x1418 => 2 ^ 32 * h.pevt + h.ports.toNat
  | 0x1500 => h.duty.toNat
  | 0x1508 => b2n h.cfgdrop
  | _ => 0

/-- The status word of a core (R420). -/
def State.coreStatus (s : State) (k : Nat) : Nat :=
  let c := s.coreAt k
  2 ^ 15 * b2n (c.run == .retired) + 2 ^ 13 * (if c.run == .retired then c.retWhy else 0) + c.refCnt

def State.readReliability (s : State) (off : Nat) : Nat :=
  let r := s.rel
  let c := s.coreAt r.hqcore
  match off with
  | 0x000 => 2 ^ 12 * r.pagethr + 2 ^ 8 * r.bankthr + 4 * b2n r.cerec + r.mode
  | 0x008 => 2 ^ 32 * r.dropcnt + 4 * b2n r.fatal + 2 * b2n r.nfpend + b2n r.ovf
  | 0x010 => r.rlbase.toNat
  | 0x018 => r.rlsize
  | 0x020 => r.head
  | 0x028 => r.tail
  | 0x038 => 2 ^ 16 * b2n s.framesFull + s.mem.frames.length
  | 0x040 => 2 ^ 12 * r.hqcore + r.hqgroup
  | 0x048 => (c.groupWord r.hqgroup).toNat
  | 0x050 => ((List.range 8).map fun j => 2 ^ (8 * j) * c.bankUe.toList.getD (8 * r.hqgroup + j) 0).foldl (· + ·) 0
  | 0x100 => s.refCfg + 2 ^ 8 * r.refThr
  | 0x108 => r.seed
  | 0x110 => r.audbase.toNat
  | 0x118 => r.audsize
  | 0x120 => 2 ^ 44 * r.aud + 2 ^ 28 * r.skip + 2 ^ 16 * r.mism + min 65535 (r.logs.filter fun e => !e.done).length
  | _ =>
    if 0x2000 ≤ off && off ≤ 0x3FF8 then
      ([0, 1, 2, 3].map fun i => 2 ^ (16 * i) * s.coreStatus ((off - 0x2000) / 2 + i)).foldl (· + ·) 0
    else 0

/-- FHEALTH1.STATE. -/
def State.stackState (s : State) (st : Nat) : Nat :=
  let n := s.freeBlocks st
  if n = 0 then 2 else if n < 1024 then 1 else 0

def State.readMemories (s : State) (off : Nat) : Nat :=
  let x := s.chan s.hbm.sel
  let f := s.flash
  let st := f.fhsel
  let b := s.block f.fbstack f.fbblock
  match off with
  | 0x000 => s.hbm.sel
  | 0x008 => 2 ^ 32 * x.slhit.toNat + x.slmiss.toNat
  | 0x010 => 2 ^ 32 * x.act.toNat + x.rmw.toNat
  | 0x018 => 2 ^ 32 * x.echit.toNat + x.ecmiss.toNat
  | 0x020 => 2 ^ 48 * x.ce + 2 ^ 32 * x.ue + x.state
  | 0x040 => 2 ^ 31 * s.hbm.spareBase + 2 ^ 16 * s.hbm.chthr + 2 ^ 4 * s.hbm.used + s.hbm.count
  | 0x050 => 2 ^ 9 * s.hbm.chan + 2 ^ 3 * b2n s.hbm.err + s.hbm.phase
  | 0x100 => 2 ^ 40 * f.rdthr + 2 ^ 24 * f.wldiff
  | 0x108 => st
  | 0x110 =>
    2 ^ 48 * min 65535 (s.freeBlocks st) + 2 ^ 32 * min 65535 ((s.stackList st).filter fun y => y.state == 3).length +
    2 ^ 16 * min 65535 (s.eMax st) + min 65535 (s.eMin st)
  | 0x118 => 2 ^ 32 * (f.reloc.toList.getD st 0).toNat + 2 ^ 16 * f.uepg.toList.getD st 0 + s.stackState st
  | 0x120 => 2 ^ 32 * f.fbstack + f.fbblock
  | 0x128 =>
    2 ^ 40 * b.reads + 2 ^ 24 * min 65535 b.erases + 2 ^ 16 * b.badpg + 2 ^ 4 * (s.unitsOf f.fbstack f.fbblock).length + b.state
  | 0x140 => f.flarg.toNat
  | 0x150 => 2 ^ 48 * f.code + 2 * b2n f.err + b2n f.busy
  | _ => 0

/-- The nominal clock of a block in kHz (R2): 0.6 GHz of the sc domain for kinds 0 and 1, 2.0 GHz of the fc domain for the others; that HBM
channels and flash stacks stand in the fc domain is PRESUMED (log 77). -/
def nominalKhz (kind : Nat) : Nat := if kind ≤ 1 then 600000 else 2000000

/-- TELDATA: one sample (R458; log 20). Of an HBM channel it is its stack's (R457). -/
def State.telemetry (s : State) : Nat :=
  let p := s.plat
  let b : BlockId := if p.telkind = 3 then ⟨3, p.telnum / 32⟩ else ⟨p.telkind, p.telnum⟩
  let x := s.clockOf b
  if !blockExists b || 3 < p.telitem then 2 ^ 64 - 1
  else match p.telitem with
    | 2 => if x.stopped then 0 else nominalKhz p.telkind * (16 - x.steps) / 16
    | 3 => x.count
    | _ => (Config.sensor b.kind b.num p.telitem s.fresh).toNat

def State.readPlatform (s : State) (off : Nat) : Nat :=
  let p := s.plat
  match off with
  | 0x000 => 2 ^ 8 * p.fail + 2 ^ 3 * b2n p.bootErr + p.phase
  | 0x008 => 2 ^ 8 * p.tjmax
  | 0x010 => 2 ^ 16 * p.telkind + 2 ^ 4 * p.telnum + p.telitem
  | 0x018 => s.telemetry
  | 0x028 => b2n p.mgmtErr
  | _ => 0

/-- What the host reads from BAR0 (R388, R389, R452): all ones for another size or alignment, zero where nothing is assigned,
from a write-only register, and in recovery outside the platform's block. -/
def State.registerRead (s : State) (off size : Nat) : Word :=
  if size ≠ 8 || off % 8 ≠ 0 then BitVec.allOnes 64
  else if s.plat.bootErr && off / 2 ^ 16 ≠ 3 then 0
  else BitVec.ofNat 64 (
    if off < 0x800 then s.readSq off
    else match off / 2 ^ 16 with
      | 0 => s.readHost off
      | 1 => s.readReliability (off % 2 ^ 16)
      | 2 => s.readMemories (off % 2 ^ 16)
      | 3 => s.readPlatform (off % 2 ^ 16)
      | _ => 0)

end Sys2Proof.Machine
end

