-- ==== Sys2Proof/Machine/Meaning.lean ====
section
/-! DEFINITION. The shape of every meaning: a slot operation on the core in view, an event of a unit of the package. -/
namespace Sys2Proof.Machine

/-- What an instruction does to a state. -/
abbrev Meaning := State → Host.Outcome State Fault Refusal

/-- Is nothing left to be done: no page read or found bad, no record, no region log, no termination? -/
def State.isQuiet (s : State) : Bool :=
  s.mem.recs.isEmpty && s.mem.doomed.isEmpty && s.mem.flashMet.isEmpty && s.mem.pageReads.isEmpty && s.cores.all fun c => c.recs.isEmpty && c.audits.isEmpty

/-- The state with nothing left to be done. -/
def State.hush (s : State) : State :=
  let calm (c : Core) : Core := { c with recs := [], audits := [] }
  { s with
    core := calm s.core, others := s.others.map calm
    mem := { s.mem with recs := [], doomed := [], flashMet := [], pageReads := [] } }

/-- Carry out what a step left to be done, round by round, until nothing is left. `n` bounds the rounds: a context ends once, a page
is found bad once. -/
def State.finishIn (s : State) : Nat → State
  | 0 => s.hush
  | n + 1 => if s.isQuiet then s else s.drainFlash.settle.finishIn n

/-- Carry out what a step left to be done: pages found bad, records, terminations (R369, R407, R439). -/
def State.finish (s : State) : State := s.finishIn 4096

/-- What follows an event: what it left to be done is carried out, and the scheduler looks at what it freed. -/
def State.closeEvent (s : State) : State := s.finish.schedule.finish

/-- A slot operation, on the core in view, as in a bundle that holds it alone (R34, R46); what it left to be done is carried
out. -/
def slotMeaning (i : Instr) (s : State) : Host.Outcome State Fault Refusal := .next (s.runAlone i).finish

/-- An event of units that exist (log 31); what it left to be done is carried out, and the scheduler looks at what it freed. -/
def eventMeaning (exists' : Bool) (f : State → State) (s : State) : Host.Outcome State Fault Refusal :=
  if exists' then .next (f s).closeEvent else .fault .noSuchUnit

/-- An event of core k, which comes into view. -/
def coreMeaning (k : Nat) (f : State → State) (s : State) : Host.Outcome State Fault Refusal :=
  eventMeaning (inCores k) (fun s => f (s.focus k)) s

/-- An event that core k performs itself: none while its clock is stopped (R457). -/
def clockedMeaning (k : Nat) (f : State → State) (s : State) : Host.Outcome State Fault Refusal :=
  coreMeaning k (fun s => if s.clockRuns k then f s else s) s

/-- A step of a command of core k; nothing without that command. -/
def cmdMeaning (k id : Nat) (f : State → Cmd → State) (s : State) : Host.Outcome State Fault Refusal :=
  clockedMeaning k (fun s => match s.core.cmds.find? fun x => x.id == id with
    | some x => f s x
    | none => s) s

/-- A write of a BAR0 register that has an event of its own, if the write is served (R414, R452). -/
def hostMeaning (exists' : Bool) (off : Nat) (f : State → State) (s : State) : Host.Outcome State Fault Refusal :=
  eventMeaning exists' (fun s => s.served off f) s

/-- An event of the list of register j. -/
def listMeaning (j : Nat) (f : State → State) (s : State) : Host.Outcome State Fault Refusal := eventMeaning (j < 64) f s

end Sys2Proof.Machine
end

