-- ==== Sys2Proof/Machine/ExecBr.lean ====
section
/-! DEFINITION. The meanings of the slot operations of BR slot (R85): branches, control and special registers. -/
namespace Sys2Proof.Machine

/-- NOP (R45). No operation, apart from the token fields that apply to it. -/
def execNop (sl : Slot) (s : State) : Host.Outcome State Fault Refusal := slotMeaning (.nop sl) s

/-- BRA (R102). Branches unconditionally to a relative target, unwinding loop levels whose body excludes it. -/
def execBra (o : Op) (s : State) : Host.Outcome State Fault Refusal := slotMeaning (.bra o) s

/-- BRC (R102). Branches when the 64-bit value is non-zero. -/
def execBrc (o : Op) (s : State) : Host.Outcome State Fault Refusal := slotMeaning (.brc o) s

/-- BRC_Z (R102). Branches when the 64-bit value is zero. -/
def execBrcZ (o : Op) (s : State) : Host.Outcome State Fault Refusal := slotMeaning (.brcZ o) s

/-- BRQ (R102). Pops one cq bit and branches when it is 1. -/
def execBrq (o : Op) (s : State) : Host.Outcome State Fault Refusal := slotMeaning (.brq o) s

/-- BRQ_N (R102). Pops one cq bit and branches when it is 0. -/
def execBrqN (o : Op) (s : State) : Host.Outcome State Fault Refusal := slotMeaning (.brqN o) s

/-- CALL (R103). Writes the absolute link address and branches to a relative target. -/
def execCall (o : Op) (s : State) : Host.Outcome State Fault Refusal := slotMeaning (.call o) s

/-- RET (R103). Branches to an absolute link address. -/
def execRet (o : Op) (s : State) : Host.Outcome State Fault Refusal := slotMeaning (.ret o) s

/-- LOOP (R105). Checks and pushes a zero-overhead loop level, or skips the body when count is 0. -/
def execLoop (o : Op) (s : State) : Host.Outcome State Fault Refusal := slotMeaning (.loop o) s

/-- LBRK (R107). Pops the n innermost loop levels and continues after the outermost popped end. -/
def execLbrk (o : Op) (s : State) : Host.Outcome State Fault Refusal := slotMeaning (.lbrk o) s

/-- YIELD (R108). Offers a pre-emption point when PREQ is set, no region is open and no handler runs. -/
def execYield (o : Op) (s : State) : Host.Outcome State Fault Refusal := slotMeaning (.yield o) s

/-- TRAP (R109). Raises a software trap with cause 0x10 after its bundle completes. -/
def execTrap (o : Op) (s : State) : Host.Outcome State Fault Refusal := slotMeaning (.trap o) s

/-- TRET (R110). Returns from a trap handler, restoring loop stack and latches and resuming at sr.trappc and sr.rptidx. -/
def execTret (o : Op) (s : State) : Host.Outcome State Fault Refusal := slotMeaning (.tret o) s

/-- TWAIT (R111). Stalls until no named token is pending and writes the done and failed bits. -/
def execTwait (o : Op) (s : State) : Host.Outcome State Fault Refusal := slotMeaning (.twait o) s

/-- TWAIT_ANY (R111). Stalls until at least one named token is not pending and writes the done and failed bits. -/
def execTwaitAny (o : Op) (s : State) : Host.Outcome State Fault Refusal := slotMeaning (.twaitAny o) s

/-- TSTAT (R111). Writes the done and failed bits of the named tokens without stalling. -/
def execTstat (o : Op) (s : State) : Host.Outcome State Fault Refusal := slotMeaning (.tstat o) s

/-- FENCE (R112). Stalls until earlier ordinary accesses are performed for every party in the scope. -/
def execFence (o : Op) (s : State) : Host.Outcome State Fault Refusal := slotMeaning (.fence o) s

/-- BAR (R113). Arrives at the barrier of a hierarchy level and stalls until the phase completes. -/
def execBar (o : Op) (s : State) : Host.Outcome State Fault Refusal := slotMeaning (.bar o) s

/-- BARA (R113). Arrives at the barrier of a hierarchy level and continues. -/
def execBara (o : Op) (s : State) : Host.Outcome State Fault Refusal := slotMeaning (.bara o) s

/-- HALT (R115). Stops the sequencer with its state intact after the EXIT waits, and records a halt event. -/
def execHalt (o : Op) (s : State) : Host.Outcome State Fault Refusal := slotMeaning (.halt o) s

/-- EXIT (R114). Ends the task after earlier stores, commands and tokens have completed. -/
def execExit (o : Op) (s : State) : Host.Outcome State Fault Refusal := slotMeaning (.exit o) s

/-- MFSR (R116). Reads a special register into a scalar register. -/
def execMfsr (o : Op) (s : State) : Host.Outcome State Fault Refusal := slotMeaning (.mfsr o) s

/-- MTSR (R116). Writes a special register under its field access codes when the bundle retires. -/
def execMtsr (o : Op) (s : State) : Host.Outcome State Fault Refusal := slotMeaning (.mtsr o) s

/-- BKPT (R109). Raises a breakpoint trap with cause 0x13 after its bundle completes. -/
def execBkpt (o : Op) (s : State) : Host.Outcome State Fault Refusal := slotMeaning (.bkpt o) s

/-- ICINV (R117). Discards prefetched bundles and the core's instruction cache. -/
def execIcinv (o : Op) (s : State) : Host.Outcome State Fault Refusal := slotMeaning (.icinv o) s

end Sys2Proof.Machine
end

