-- ==== Sys2Proof/Machine/ExecCore.lean ====
section
/-! DEFINITION. The meanings of the events of a core: bundles, results, traps, dispatch, pre-emption, saves and its pool. -/
namespace Sys2Proof.Machine

/-! ## Bundles and results -/

/-- BUNDLE_EXECUTION (R60, R38 to R42). -/
def execBundleExecution (k : Nat) (s : State) : Host.Outcome State Fault Refusal := clockedMeaning k State.bundleStep s

/-- RESULT_DELIVERY (R52). -/
def execResultDelivery (k : Nat) (s : State) : Host.Outcome State Fault Refusal :=
  clockedMeaning k (fun s => { s with core := s.core.deliverNext }) s

/-- VARIABLE_RESULT_WRITE (R54, R277). -/
def execVariableResultWrite (k id : Nat) (s : State) : Host.Outcome State Fault Refusal :=
  clockedMeaning k (fun s => s.writeVarNow id) s

/-- ACCUMULATOR_EVENT_ACT (R225). -/
def execAccumulatorEventAct (k : Nat) (s : State) : Host.Outcome State Fault Refusal :=
  clockedMeaning k (fun s => { s with core := s.core.actNext }) s

/-- BUNDLE_RETIRE (R281). -/
def execBundleRetire (k : Nat) (s : State) : Host.Outcome State Fault Refusal := clockedMeaning k State.retire s

/-! ## Traps (R284, R278) -/

/-- TRAP_ENTRY (R284): the trap that an operation raised after its bundle. A trap that stops a bundle is taken where it stops. -/
def execTrapEntry (k : Nat) (s : State) : Host.Outcome State Fault Refusal := clockedMeaning k State.takeRaised s

/-- STREAM_DEADLOCK_TRAP (R278). -/
def execStreamDeadlockTrap (k : Nat) (s : State) : Host.Outcome State Fault Refusal := clockedMeaning k State.deadlockTrap s

/-! ## Tasks and pre-emption (R287 to R289, R329, R380 to R385) -/

/-- May a task that waits for its dispatch start: its core is idle and its pool serves it (R191, R196), and its context is active? -/
def State.dispatchable (s : State) (t : Task) : Bool :=
  let c := s.coreAt t.core
  c.run == .idle && c.freeze == 0 && !(c.groups.toList.any fun g => g.state == 1) && s.dispatches t.launch

/-- The task that waits for its dispatch on a core starts. -/
def State.dispatchTask (s : State) (k : Nat) : State :=
  match s.launch.tasks.find? fun t => t.core == k && !t.begun with
  | some t => if s.dispatchable t then s.startTask t else s
  | none => s

/-- TASK_DISPATCH (R329). -/
def execTaskDispatch (k : Nat) (s : State) : Host.Outcome State Fault Refusal := clockedMeaning k (fun s => s.dispatchTask k) s

/-- PREEMPT_AT_POINT (R288). -/
def execPreemptAtPoint (k : Nat) (s : State) : Host.Outcome State Fault Refusal := clockedMeaning k State.preemptPoint s

/-- PREEMPTION_LIMIT_EXPIRY (R380). -/
def execPreemptionLimitExpiry (k : Nat) (s : State) : Host.Outcome State Fault Refusal :=
  coreMeaning k (fun s => s.expireLimit k) s

/-- FORCED_STOP (R289). -/
def execForcedStop (k : Nat) (s : State) : Host.Outcome State Fault Refusal := clockedMeaning k State.forceStop s

/-- FORCED_STOP_ESCALATION (R381). -/
def execForcedStopEscalation (k : Nat) (s : State) : Host.Outcome State Fault Refusal := clockedMeaning k State.escalate s

/-- SAVE_COMPLETE (R383). -/
def execSaveComplete (k : Nat) (s : State) : Host.Outcome State Fault Refusal := clockedMeaning k (fun s => s.completeSave k) s

/-- Restore the saved task with a number on core k. -/
def State.restoreById (s : State) (k id : Nat) : State :=
  match s.launch.saved.find? fun x => x.id == id with
  | some x => s.restoreTask k x
  | none => s

/-- TASK_RESTORE (R385). -/
def execTaskRestore (k id : Nat) (s : State) : Host.Outcome State Fault Refusal := clockedMeaning k (fun s => s.restoreById k id) s

/-- TASK_COMPLETION (R114, R330). -/
def execTaskCompletion (k : Nat) (s : State) : Host.Outcome State Fault Refusal := clockedMeaning k (fun s => s.completeTask k) s

/-! ## The pool (R184 to R196) -/

/-- An event of parity group g of core k. -/
def groupMeaning (k g : Nat) (f : State → State) (s : State) : Host.Outcome State Fault Refusal :=
  eventMeaning (inCores k && g < 12) (fun s => let s := s.focus k; if s.clockRuns k then f s else s) s

/-- POOL_ARBITRATION (R186): one sc; `reqs` are the requests new in it. -/
def execPoolArbitration (k : Nat) (reqs : List PoolReq) (s : State) : Host.Outcome State Fault Refusal :=
  clockedMeaning k (fun s => { s with core := s.core.arbitrate reqs }) s

/-- PARITY_UPDATE (R189). -/
def execParityUpdate (k g : Nat) (s : State) : Host.Outcome State Fault Refusal :=
  groupMeaning k g (fun s => { s with core := s.core.updateParity g false }) s

/-- PARITY_RECOMPUTE (R190). -/
def execParityRecompute (k g : Nat) (s : State) : Host.Outcome State Fault Refusal :=
  groupMeaning k g (fun s => { s with core := s.core.updateParity g true }) s

/-- POOL_FREEZE_END (R191). -/
def execPoolFreezeEnd (k : Nat) (s : State) : Host.Outcome State Fault Refusal :=
  clockedMeaning k (fun s => { s with core := { s.core with freeze := 0 } }) s

/-- Has a data bank of a core reached the threshold of uncorrectable detections (R195)? -/
def State.bankReached (s : State) (c : Core) (g j : Nat) : Bool :=
  s.rel.bankthr != 0 && s.rel.bankthr ≤ c.bankUe.toList.getD (8 * g + j) 0

/-- BANK_RETIREMENT_START (R195, R196): firmware retires bank j of the group, which has reached the threshold. A bank that fails its
self-test is retired at bring-up. -/
def execBankRetirementStart (k g j : Nat) (s : State) : Host.Outcome State Fault Refusal :=
  eventMeaning (inCores k && g < 12 && j < 8)
    (fun s => let s := s.focus k; if s.clockRuns k && s.bankReached s.core g j then { s with core := s.core.startRebuild g j } else s) s

/-- BANK_RETIREMENT_COMPLETE (R196). -/
def execBankRetirementComplete (k g : Nat) (s : State) : Host.Outcome State Fault Refusal :=
  groupMeaning k g (fun s => s.endRebuild k g) s

/-! ## Engine commands (R244 to R271) -/

/-- ENGINE_COMMAND_START (R244). -/
def execEngineCommandStart (k id : Nat) (s : State) : Host.Outcome State Fault Refusal :=
  cmdMeaning k id (fun s x => s.startCommand k x) s

/-- A started copy that has sectors left writes the next, under the mapping that its markers give it. -/
def State.deliver (s : State) (k : Nat) (x : Cmd) : State :=
  if x.phase == .started && x.kind.onChannel && x.moved < x.positions then s.underOf k x.id fun s => s.stepCopy k x else s

/-- COPY_SECTOR_DELIVERY (R255). -/
def execCopySectorDelivery (k id : Nat) (s : State) : Host.Outcome State Fault Refusal := cmdMeaning k id (fun s x => s.deliver k x) s

/-- COMMAND_COMPLETION (R249). -/
def execCommandCompletion (k id : Nat) (s : State) : Host.Outcome State Fault Refusal :=
  cmdMeaning k id (fun s x => s.completeCommand k x) s

/-- EXPF_ACCEPT (R347). -/
def execExpfAccept (k id : Nat) (s : State) : Host.Outcome State Fault Refusal := cmdMeaning k id (fun s x => s.acceptExpf k x) s

/-- A GGEMM command that is queued walks its records, once an INVL ahead of it has placed its markers (R268). -/
def State.walk (s : State) (k : Nat) (x : Cmd) : State :=
  if x.kind != .ggemm || x.phase != .queued || s.core.behindMarker x then s else s.underOf k x.id fun s => s.walkGgemm k x

/-- GGEMM_WALK (R360). -/
def execGgemmWalk (k id : Nat) (s : State) : Host.Outcome State Fault Refusal := cmdMeaning k id (fun s x => s.walk k x) s

end Sys2Proof.Machine
end

