-- ==== Sys2Proof/Machine/ExecDevice.lean ====
section
/-! DEFINITION. The meanings of the events of the HBM channels (R425 to R435), the flash engine (R436 to R440, R443, R464) and the
platform (R452 to R460), and of soft errors. -/
namespace Sys2Proof.Machine

/-! ## HBM channels -/

def chanMeaning (q : Nat) (f : State → State) (s : State) : Host.Outcome State Fault Refusal := eventMeaning (q < Config.hbmChannels) f s

/-- HBM_RD (R429, R430). -/
def execHbmRd (q gran : Nat) (s : State) : Host.Outcome State Fault Refusal := chanMeaning q (fun s => s.hbmRequest q gran .rd) s

/-- HBM_WR (R429, R430). -/
def execHbmWr (q gran : Nat) (data : BitVec 256) (s : State) : Host.Outcome State Fault Refusal :=
  chanMeaning q (fun s => s.hbmRequest q gran (.wr data)) s

/-- HBM_WRM (R429). -/
def execHbmWrm (q gran : Nat) (byteMask : BitVec 32) (data : BitVec 256) (s : State) : Host.Outcome State Fault Refusal :=
  chanMeaning q (fun s => s.hbmRequest q gran (.wrm byteMask data)) s

/-- HBM_REPLY (R430, R432). -/
def execHbmReply (q tag : Nat) (s : State) : Host.Outcome State Fault Refusal := chanMeaning q (fun s => s.hbmPerform q tag) s

/-- RETIRE_CHANNEL (R434): CHCMD. -/
def execRetireChannel (q : Nat) (s : State) : Host.Outcome State Fault Refusal :=
  hostMeaning (q < Config.hbmChannels) 0x20048 (fun s => s.retireChan q) s

/-- CHANNEL_DRAIN_COMPLETE (R434). -/
def execChannelDrainComplete (s : State) : Host.Outcome State Fault Refusal := eventMeaning true State.drainDone s

/-- CHANNEL_COPY_COMPLETE (R434). -/
def execChannelCopyComplete (s : State) : Host.Outcome State Fault Refusal := eventMeaning true State.copyDone s

/-! ## Flash -/

/-- FLASH_PAGE_READ (R443). -/
def execFlashPageRead (u page : Nat) (handle : Option Nat) (s : State) : Host.Outcome State Fault Refusal :=
  eventMeaning (page < 4) (fun s => s.readPage u page handle) s

/-- FLASH_PAGE_READ_COMPLETE (R439). -/
def execFlashPageReadComplete (id : Nat) (result : FlashResult) (s : State) : Host.Outcome State Fault Refusal :=
  eventMeaning true (fun s => s.pageDone id result) s

def blockMeaning (st b : Nat) (f : State → State) (s : State) : Host.Outcome State Fault Refusal :=
  eventMeaning (st < 8 && b < 2 ^ 20) f s

/-- RELOCATION_SWITCH (R438). -/
def execRelocationSwitch (st b : Nat) (s : State) : Host.Outcome State Fault Refusal := blockMeaning st b (fun s => s.switchBlock st b) s

/-- BLOCK_ERASE (R437, R438). -/
def execBlockErase (st b : Nat) (failed : Bool) (s : State) : Host.Outcome State Fault Refusal :=
  blockMeaning st b (fun s => s.eraseBlock st b failed) s

/-- DEFERRED_RELOCATION_START (R464). -/
def execDeferredRelocationStart (st : Nat) (s : State) : Host.Outcome State Fault Refusal :=
  eventMeaning (st < 8) (fun s => s.startDeferred st) s

/-- FLASH_WRITE (R440): FLCMD OP 1. -/
def execFlashWrite (value : Word) (failed : Bool) (s : State) : Host.Outcome State Fault Refusal :=
  hostMeaning true 0x20148 (fun s => s.flashWrite value failed) s

/-- FLASH_TRIM (R440): FLCMD OP 2. -/
def execFlashTrim (value : Word) (s : State) : Host.Outcome State Fault Refusal :=
  hostMeaning true 0x20148 (fun s => s.flashTrim value) s

/-- FLASH_RELOC (R440): FLCMD OP 3. -/
def execFlashReloc (value : Word) (s : State) : Host.Outcome State Fault Refusal :=
  hostMeaning true 0x20148 (fun s => s.flashReloc value) s

/-- FLASH_RETIRE (R440): FLCMD OP 4. -/
def execFlashRetire (value : Word) (s : State) : Host.Outcome State Fault Refusal :=
  hostMeaning true 0x20148 (fun s => s.flashRetire value) s

/-- FLCMD_COMPLETE (R440). -/
def execFlcmdComplete (s : State) : Host.Outcome State Fault Refusal := eventMeaning true State.flashDone s

/-! ## Bring-up -/

/-- RESET (R452). -/
def execReset (s : State) : Host.Outcome State Fault Refusal := eventMeaning true State.doReset s

/-- BOOT_PHASE_COMPLETE (R452, R454). -/
def execBootPhaseComplete (result : BootResult) (s : State) : Host.Outcome State Fault Refusal :=
  eventMeaning true (fun s => s.bootPhase result) s

/-! ## SPDM (R455; log 18) and keys (R456) -/

/-- GET_VERSION: begins an exchange. -/
def execGetVersion (s : State) : Host.Outcome State Fault Refusal := eventMeaning true (fun s => s.spdmStep .version (fun _ => true) fun _ => 1) s

/-- GET_CAPABILITIES. -/
def execGetCapabilities (s : State) : Host.Outcome State Fault Refusal := eventMeaning true (fun s => s.spdmStep .capabilities (· == 1) fun _ => 2) s

/-- NEGOTIATE_ALGORITHMS. -/
def execNegotiateAlgorithms (s : State) : Host.Outcome State Fault Refusal := eventMeaning true (fun s => s.spdmStep .algorithms (· == 2) fun _ => 3) s

/-- GET_DIGESTS. -/
def execGetDigests (s : State) : Host.Outcome State Fault Refusal := eventMeaning true (fun s => s.spdmStep .digests (3 ≤ ·) id) s

/-- GET_CERTIFICATE. -/
def execGetCertificate (s : State) : Host.Outcome State Fault Refusal := eventMeaning true (fun s => s.spdmStep .certificate (3 ≤ ·) id) s

/-- CHALLENGE: the answer signs the nonce. -/
def execChallenge (nonce : BitVec 256) (s : State) : Host.Outcome State Fault Refusal :=
  eventMeaning true (fun s => s.spdmStep (.challenge nonce) (3 ≤ ·) id) s

/-- GET_MEASUREMENTS of index 1 to 4. -/
def execGetMeasurements (index : Nat) (s : State) : Host.Outcome State Fault Refusal :=
  eventMeaning true (fun s => s.spdmStep (.measurement index) (fun st => 3 ≤ st && 1 ≤ index && index ≤ 4) id) s

/-- KEY_EXCHANGE: opens a session. -/
def execKeyExchange (s : State) : Host.Outcome State Fault Refusal := eventMeaning true (fun s => s.spdmStep .keyExchange (3 ≤ ·) fun _ => 4) s

/-- FINISH: the session is secured. -/
def execFinish (s : State) : Host.Outcome State Fault Refusal := eventMeaning true (fun s => s.spdmStep .finish (· == 4) fun _ => 5) s

/-- LOAD (R456). -/
def execLoad (index : Nat) (key : BitVec 512) (s : State) : Host.Outcome State Fault Refusal :=
  eventMeaning (index < 4096) (fun s => s.keyLoad index key) s

/-- CLEAR (R456). -/
def execClear (index : Nat) (s : State) : Host.Outcome State Fault Refusal := eventMeaning (index < 4096) (fun s => s.keyClear index) s

/-! ## Clocks (R457, R458) -/

def clockMeaning (b : BlockId) (f : State → State) (s : State) : Host.Outcome State Fault Refusal := eventMeaning (blockExists b) f s

/-- THERMAL_THROTTLE_DOWN (R457). -/
def execThermalThrottleDown (b : BlockId) (s : State) : Host.Outcome State Fault Refusal := clockMeaning b (fun s => s.throttleDown b) s

/-- THERMAL_THROTTLE_UP (R457). -/
def execThermalThrottleUp (b : BlockId) (s : State) : Host.Outcome State Fault Refusal := clockMeaning b (fun s => s.throttleUp b) s

/-- THERMAL_CLOCK_STOP (R457). -/
def execThermalClockStop (b : BlockId) (s : State) : Host.Outcome State Fault Refusal := clockMeaning b (fun s => s.clockStop b) s

/-- THERMAL_CLOCK_RESTART (R457). -/
def execThermalClockRestart (b : BlockId) (s : State) : Host.Outcome State Fault Refusal := clockMeaning b (fun s => s.clockRestart b) s

/-- DROOP_STRETCH (R458): only time passes. -/
def execDroopStretch (b : BlockId) (s : State) : Host.Outcome State Fault Refusal := clockMeaning b State.tick s

/-! ## Halted sequencers (R460) and soft errors -/

/-- MGMT_RESUME: MGMTCMD OP 1. -/
def execMgmtResume (k : Nat) (s : State) : Host.Outcome State Fault Refusal := hostMeaning (inCores k) 0x30020 (fun s => s.mgmtResume k) s

/-- MGMT_TERMINATE: MGMTCMD OP 2. -/
def execMgmtTerminate (k : Nat) (s : State) : Host.Outcome State Fault Refusal :=
  hostMeaning (inCores k) 0x30020 (fun s => s.mgmtTerminate k) s

/-- SOFT_ERROR (R191, R417, R418, R426, R428, R432, R439). -/
def execSoftError (t : ErrTarget) (s : State) : Host.Outcome State Fault Refusal := eventMeaning (targetExists t) (fun s => s.softError t) s

end Sys2Proof.Machine
end

