-- ==== Sys2Proof/Machine/ExecEc.lean ====
section
/-! DEFINITION. The meanings of the slot operations of EC slot (R90): engine commands and queries. -/
namespace Sys2Proof.Machine

/-- CPY (R254). Queues a copy of a tensor box, optionally dequantising and posting a stage arrival. -/
def execCpy (o : Op) (s : State) : Host.Outcome State Fault Refusal := slotMeaning (.cpy o) s

/-- CPYR (R257). Queues a reducing copy that combines source into destination element by element. -/
def execCpyr (o : Op) (s : State) : Host.Outcome State Fault Refusal := slotMeaning (.cpyr o) s

/-- GATH (R258). Queues a gather of slices selected by an index list. -/
def execGath (o : Op) (s : State) : Host.Outcome State Fault Refusal := slotMeaning (.gath o) s

/-- SCAT (R258). Queues a scatter of slices to positions given by an index list. -/
def execScat (o : Op) (s : State) : Host.Outcome State Fault Refusal := slotMeaning (.scat o) s

/-- PFL (R259). Asks the LLC to prefetch a source box. -/
def execPfl (o : Op) (s : State) : Host.Outcome State Fault Refusal := slotMeaning (.pfl o) s

/-- COLL (R260). Joins a collective among the tasks of a hierarchy level instance. -/
def execColl (o : Op) (s : State) : Host.Outcome State Fault Refusal := slotMeaning (.coll o) s

/-- EXPF (R262). Places an expert prefetch request for a handle in the bullpen. -/
def execExpf (o : Op) (s : State) : Host.Outcome State Fault Refusal := slotMeaning (.expf o) s

/-- EXPC (R348). Cancels or releases a weight handle at the bullpen. -/
def execExpc (o : Op) (s : State) : Host.Outcome State Fault Refusal := slotMeaning (.expc o) s

/-- WHQ (R262). Reads a weight handle's state word, variable-latency. -/
def execWhq (o : Op) (s : State) : Host.Outcome State Fault Refusal := slotMeaning (.whq o) s

/-- TOPKI (R263). Inserts a scored expert entry into a top-k record in the LLC atomic unit. -/
def execTopki (o : Op) (s : State) : Host.Outcome State Fault Refusal := slotMeaning (.topki o) s

/-- HPUB (R265). Publishes a handoff tag at a generation. -/
def execHpub (o : Op) (s : State) : Host.Outcome State Fault Refusal := slotMeaning (.hpub o) s

/-- HTEST (R266). Reads a handoff tag's state relative to a generation, variable-latency. -/
def execHtest (o : Op) (s : State) : Host.Outcome State Fault Refusal := slotMeaning (.htest o) s

/-- LNCH (R267). Submits a launch record to the pending-launch pool. -/
def execLnch (o : Op) (s : State) : Host.Outcome State Fault Refusal := slotMeaning (.lnch o) s

/-- GGEMM (R264). Hands an array of group records to the hardware tile scheduler. -/
def execGgemm (o : Op) (s : State) : Host.Outcome State Fault Refusal := slotMeaning (.ggemm o) s

/-- INVL (R268). Invalidates the context's translation of one page. -/
def execInvl (o : Op) (s : State) : Host.Outcome State Fault Refusal := slotMeaning (.invl o) s

/-- INVL_ALL (R268). Invalidates every translation of the context. -/
def execInvlAll (o : Op) (s : State) : Host.Outcome State Fault Refusal := slotMeaning (.invlAll o) s

/-- FLSH (R269). Writes back, and at system and peer scope invalidates, cached copies of a line or all lines. -/
def execFlsh (o : Op) (s : State) : Host.Outcome State Fault Refusal := slotMeaning (.flsh o) s

/-- WPTR (R270). Reads a copy channel's write pointer, variable-latency. -/
def execWptr (o : Op) (s : State) : Host.Outcome State Fault Refusal := slotMeaning (.wptr o) s

end Sys2Proof.Machine
end

