-- ==== Sys2Proof/Machine/ExecHost.lean ====
section
/-! DEFINITION. The meanings of the events of contexts (R366 to R374), of the reliability engine and the Referee (R411 to R424),
of the host link and of peers (R388 to R397). -/
namespace Sys2Proof.Machine

/-! ## Context commands: writes of CTXCMD -/

/-- A context command, which CTXCMD names in ten bits. -/
def ctxMeaning (c : Nat) (f : State → State) (s : State) : Host.Outcome State Fault Refusal := hostMeaning (c < 1024) 0x1108 f s

/-- CREATE (R367). -/
def execCreate (c : Nat) (s : State) : Host.Outcome State Fault Refusal := ctxMeaning c (fun s => s.createCtx c) s

/-- SUSPEND (R367). -/
def execSuspend (c : Nat) (s : State) : Host.Outcome State Fault Refusal := ctxMeaning c (fun s => s.suspendCtx c) s

/-- RESUME (R367). -/
def execResume (c : Nat) (s : State) : Host.Outcome State Fault Refusal := ctxMeaning c (fun s => s.resumeCtx c) s

/-- TERMINATE (R369). -/
def execTerminate (c : Nat) (s : State) : Host.Outcome State Fault Refusal := ctxMeaning c (fun s => s.terminateCtx c) s

/-- INVALL (R374). -/
def execInvall (c : Nat) (s : State) : Host.Outcome State Fault Refusal := ctxMeaning c (fun s => s.invallCtx c) s

/-- LLC_WRITEBACK (R304). -/
def execLlcWriteback (pa : Nat) (s : State) : Host.Outcome State Fault Refusal :=
  eventMeaning (pa < Config.hbmBytes) (fun s => s.llcWriteback pa) s

/-! ## Repairs, the Referee, the ring -/

/-- RETIRE_FRAME (R416): RETCMD OP 1. -/
def execRetireFrame (frame : Nat) (s : State) : Host.Outcome State Fault Refusal :=
  hostMeaning (65536 * frame < Config.hbmBytes) 0x10030 (fun s => s.retireFrame frame 2 none) s

/-- RETIRE_CORE (R419): RETCMD OP 2. -/
def execRetireCore (k : Nat) (s : State) : Host.Outcome State Fault Refusal :=
  hostMeaning (inCores k) 0x10030 (fun s => s.retireCoreStart k 2) s

/-- CORE_RETIREMENT_COMPLETE (R419). -/
def execCoreRetirementComplete (k : Nat) (s : State) : Host.Outcome State Fault Refusal :=
  eventMeaning (inCores k) (fun s => s.endCoreRetirement k) s

/-- REFEREE_REPLAY (R423): `sig` is the signature that the replay computed, none for the source's own. -/
def execRefereeReplay (id core : Nat) (sig : Option Word) (s : State) : Host.Outcome State Fault Refusal :=
  eventMeaning (inCores core) (fun s => s.replay id core sig) s

/-- REFEREE_THIRD_REPLAY (R423). -/
def execRefereeThirdReplay (id core : Nat) (sig : Option Word) (s : State) : Host.Outcome State Fault Refusal :=
  eventMeaning (inCores core) (fun s => s.thirdReplay id core sig) s

/-- REFEREE_CONFIG_WRITE (R421, R424). -/
def execRefereeConfigWrite (seed : Bool) (value : Word) (s : State) : Host.Outcome State Fault Refusal :=
  hostMeaning true (if seed then 0x10108 else 0x10100) (fun s => s.refConfig seed value) s

/-- RING_CONFIG_WRITE (R411). -/
def execRingConfigWrite (size : Bool) (value : Word) (s : State) : Host.Outcome State Fault Refusal :=
  hostMeaning true (if size then 0x10018 else 0x10010) (fun s => s.ringConfig size value) s

/-- RLHEAD_WRITE (R411, R412). -/
def execRlheadWrite (value : Word) (s : State) : Host.Outcome State Fault Refusal :=
  hostMeaning true 0x10020 (fun s => s.headWrite value) s

/-! ## The host -/

/-- REGISTER_WRITE (R388 to R390). -/
def execRegisterWrite (off size : Nat) (value : Word) (s : State) : Host.Outcome State Fault Refusal :=
  eventMeaning true (fun s => s.registerWrite off size value) s

/-- BAR2_READ (R388, R391). -/
def execBar2Read (pa n : Nat) (s : State) : Host.Outcome State Fault Refusal := eventMeaning true (fun s => s.bar2Read pa n) s

/-- BAR2_WRITE (R388, R391). -/
def execBar2Write (pa : Nat) (data : List Byte) (s : State) : Host.Outcome State Fault Refusal :=
  eventMeaning true (fun s => s.bar2Write pa data) s

/-- HOST_SNOOP (R303, R393). -/
def execHostSnoop (hpa : Nat) (kind : Snoop) (s : State) : Host.Outcome State Fault Refusal :=
  eventMeaning true (fun s => s.snoop hpa kind) s

/-- HOST_LINK_DOWN (R393, R414). -/
def execHostLinkDown (s : State) : Host.Outcome State Fault Refusal := eventMeaning true State.linkDown s

/-- HOST_LINK_TRAIN (R414). -/
def execHostLinkTrain (s : State) : Host.Outcome State Fault Refusal := eventMeaning true State.linkTrain s

/-! ## Peers -/

/-- PEER_INCOMING_ACCESS (R397). -/
def execPeerIncomingAccess (acc : PeerAccess) (s : State) : Host.Outcome State Fault Refusal :=
  eventMeaning true (fun s => s.peerAccess acc) s

/-- PEER_STORE_NOT_PERFORMED (R307). -/
def execPeerStoreNotPerformed (k id code : Nat) (s : State) : Host.Outcome State Fault Refusal :=
  coreMeaning k (fun s => s.storeNotPerformed k id code) s

/-- PEER_STORE_ACKNOWLEDGED (R306). -/
def execPeerStoreAcknowledged (k id : Nat) (s : State) : Host.Outcome State Fault Refusal :=
  coreMeaning k (fun s => s.storeAcknowledged k id) s

/-- PORT_DOWN (R397). -/
def execPortDown (p : Fin 4) (s : State) : Host.Outcome State Fault Refusal := eventMeaning true (fun s => s.setPort p false) s

/-- PORT_UP (R395). -/
def execPortUp (p : Fin 4) (s : State) : Host.Outcome State Fault Refusal := eventMeaning true (fun s => s.setPort p true) s

end Sys2Proof.Machine
end

