-- ==== Sys2Proof/Machine/ExecLaunch.lean ====
section
/-! DEFINITION. The meanings of the events of launches, tiles, gangs, publications (R320 to R343), lists (R332, R333) and
experts (R345 to R356). -/
namespace Sys2Proof.Machine

/-! ## Launches and tiles -/

/-- The launch with a number, if the pool takes it now. -/
def State.acceptById (s : State) (id : Nat) : State :=
  match s.launch.reqs.find? fun r => r.id == id with
  | some r => if s.poolTakes r then s.acceptLaunch r else s
  | none => s

/-- LAUNCH_ACCEPT (R336, R321). -/
def execLaunchAccept (id : Nat) (s : State) : Host.Outcome State Fault Refusal := eventMeaning true (fun s => s.acceptById id) s

/-- A core that holds a range task and runs nothing begins its next iteration. -/
def State.iterate (s : State) (k : Nat) : State :=
  match s.heldRange k with
  | some r => match s.spec? r.launch with
    | some p => if s.coreFree k && s.dispatches r.launch then s.beginIteration k r p else s
    | none => s
  | none => s

/-- RANGE_ITERATION_BEGIN (R325). -/
def execRangeIterationBegin (k : Nat) (s : State) : Host.Outcome State Fault Refusal :=
  eventMeaning (inCores k) (fun s => s.iterate k) s

/-- WORK_REQUEST (R326). -/
def execWorkRequest (k : Nat) (s : State) : Host.Outcome State Fault Refusal :=
  eventMeaning (inCores k) (fun s => s.requestWork k) s

/-- A waiting tile whose inputs and handles permit it is launchable. -/
def State.release (s : State) (t : Nat) : State :=
  match s.tile? t with
  | some x => if s.tileReady x then s.setTile { x with state := .launchable } else s
  | none => s

/-- TILE_LAUNCHABLE (R327). -/
def execTileLaunchable (t : Nat) (s : State) : Host.Outcome State Fault Refusal := eventMeaning true (fun s => s.release t) s

def State.gangById (s : State) (g : Nat) : State :=
  match s.gang? g with
  | some x => s.dispatchGang x
  | none => s

/-- GANG_DISPATCH (R328). -/
def execGangDispatch (g : Nat) (s : State) : Host.Outcome State Fault Refusal := eventMeaning true (fun s => s.gangById g) s

def State.completeById (s : State) (l : Nat) : State :=
  match s.launch? l with
  | some x => s.completeLaunch x
  | none => s

/-- LAUNCH_COMPLETION (R331). -/
def execLaunchCompletion (l : Nat) (s : State) : Host.Outcome State Fault Refusal := eventMeaning true (fun s => s.completeById l) s

def State.publishById (s : State) (p : Nat) : State :=
  match s.launch.pubs.find? fun x => x.id == p with
  | some x => s.publishTag x
  | none => s

/-- TAG_PUBLICATION (R339). -/
def execTagPublication (p : Nat) (s : State) : Host.Outcome State Fault Refusal := eventMeaning true (fun s => s.publishById p) s

/-! ## Lists -/

/-- LIST_SUBMIT (R333): a write of SQADDR. -/
def execListSubmit (j : Nat) (addr : Word) (s : State) : Host.Outcome State Fault Refusal :=
  hostMeaning (j < 64) (32 * j) (fun s => s.submitList j addr) s

/-- LAUNCH (R332). -/
def execLaunch (j : Nat) (s : State) : Host.Outcome State Fault Refusal := listMeaning j (fun s => s.listLaunch j) s

/-- WAIT_TOKEN_WORD (R332). -/
def execWaitTokenWord (j : Nat) (s : State) : Host.Outcome State Fault Refusal := listMeaning j (fun s => s.listWaitWord j) s

/-- WAIT_TOKEN_WORD_SATISFIED (R332). -/
def execWaitTokenWordSatisfied (j : Nat) (s : State) : Host.Outcome State Fault Refusal := listMeaning j (fun s => s.listWordMet j) s

/-- PUBLISH (R332). -/
def execPublish (j : Nat) (s : State) : Host.Outcome State Fault Refusal := listMeaning j (fun s => s.listPublish j) s

/-- COND_SKIP (R332). -/
def execCondSkip (j : Nat) (s : State) : Host.Outcome State Fault Refusal := listMeaning j (fun s => s.listSkip j) s

/-- JUMP (R332). -/
def execJump (j : Nat) (s : State) : Host.Outcome State Fault Refusal := listMeaning j (fun s => s.listJump j) s

/-- LIST_CALL (R332). -/
def execListCall (j : Nat) (s : State) : Host.Outcome State Fault Refusal := listMeaning j (fun s => s.listCallEntry j) s

/-- LIST_RETURN (R332). -/
def execListReturn (j : Nat) (s : State) : Host.Outcome State Fault Refusal := listMeaning j (fun s => s.listReturnEntry j) s

/-- END (R332). -/
def execListEnd (j : Nat) (s : State) : Host.Outcome State Fault Refusal := listMeaning j (fun s => s.listEndEntry j) s

/-- STREAM_CLEAR (R332, R340). -/
def execStreamClear (j : Nat) (s : State) : Host.Outcome State Fault Refusal := listMeaning j (fun s => s.listClear j) s

/-! ## Experts -/

/-- BULLPEN_READ_START (R349). -/
def execBullpenReadStart (h : Nat) (s : State) : Host.Outcome State Fault Refusal :=
  eventMeaning (h < 16384) (fun s => s.bullpenStart h) s

/-- STAGING_COMPLETE (R351). -/
def execStagingComplete (h : Nat) (s : State) : Host.Outcome State Fault Refusal :=
  eventMeaning (h < 16384) (fun s => s.completeStaging h) s

/-- STAGING_FAILURE (R351). -/
def execStagingFailure (h code : Nat) (s : State) : Host.Outcome State Fault Refusal :=
  eventMeaning (h < 16384) (fun s => s.failStaging h code) s

/-- DEADLINE_MISS (R350). -/
def execDeadlineMiss (h : Nat) (s : State) : Host.Outcome State Fault Refusal :=
  eventMeaning (h < 16384) (fun s => s.missDeadline h) s

/-- BPSTART (R356). -/
def execBpstart (value : Word) (s : State) : Host.Outcome State Fault Refusal :=
  hostMeaning true 0x1218 (fun s => s.hostStart value) s

end Sys2Proof.Machine
end

