-- ==== Sys2Proof/Machine/ExecLm.lean ====
section
/-! DEFINITION. The meanings of the slot operations of LM slot (R88): local and generic memory, stages. -/
namespace Sys2Proof.Machine

/-- LDV (R203). Loads 256 aligned scratchpad bytes into a vector register or dq. -/
def execLdv (o : Op) (s : State) : Host.Outcome State Fault Refusal := slotMeaning (.ldv o) s

/-- LDVT (R203). Loads eight 32-byte sectors at stride 256 into a vector register. -/
def execLdvt (o : Op) (s : State) : Host.Outcome State Fault Refusal := slotMeaning (.ldvt o) s

/-- STV (R203). Stores a vector register to 256 aligned scratchpad bytes. -/
def execStv (o : Op) (s : State) : Host.Outcome State Fault Refusal := slotMeaning (.stv o) s

/-- STVT (R203). Stores a vector register as eight sectors at stride 256. -/
def execStvt (o : Op) (s : State) : Host.Outcome State Fault Refusal := slotMeaning (.stvt o) s

/-- LDVU (R203). Loads 256 unaligned scratchpad bytes. -/
def execLdvu (o : Op) (s : State) : Host.Outcome State Fault Refusal := slotMeaning (.ldvu o) s

/-- LDVM (R203). Loads the mask-selected bytes and zeroes the others. -/
def execLdvm (o : Op) (s : State) : Host.Outcome State Fault Refusal := slotMeaning (.ldvm o) s

/-- STVB (R203). Stores the mask-selected bytes of a vector register. -/
def execStvb (o : Op) (s : State) : Host.Outcome State Fault Refusal := slotMeaning (.stvb o) s

/-- LDM (R203). Loads a mask register from 32 scratchpad bytes. -/
def execLdm (o : Op) (s : State) : Host.Outcome State Fault Refusal := slotMeaning (.ldm o) s

/-- STM (R203). Stores a mask register to 32 scratchpad bytes. -/
def execStm (o : Op) (s : State) : Host.Outcome State Fault Refusal := slotMeaning (.stm o) s

/-- LDS (R206). Loads 1 to 8 scratchpad bytes, zero- or sign-extended. -/
def execLds (o : Op) (s : State) : Host.Outcome State Fault Refusal := slotMeaning (.lds o) s

/-- STS (R206). Stores 1 to 8 bytes to scratchpad. -/
def execSts (o : Op) (s : State) : Host.Outcome State Fault Refusal := slotMeaning (.sts o) s

/-- ATOML (R207). Indivisible read-modify-write of 4 or 8 scratchpad bytes. -/
def execAtoml (o : Op) (s : State) : Host.Outcome State Fault Refusal := slotMeaning (.atoml o) s

/-- CASL (R207). Compare-and-swap of 4 or 8 scratchpad bytes. -/
def execCasl (o : Op) (s : State) : Host.Outcome State Fault Refusal := slotMeaning (.casl o) s

/-- LDG (R209). Variable-latency load of 1 to 8 bytes through a generic pointer. -/
def execLdg (o : Op) (s : State) : Host.Outcome State Fault Refusal := slotMeaning (.ldg o) s

/-- STG (R209). Stores 1 to 8 bytes through a generic pointer at retirement. -/
def execStg (o : Op) (s : State) : Host.Outcome State Fault Refusal := slotMeaning (.stg o) s

/-- ATOMG (R209). Indivisible generic atomic of 4 or 8 bytes. -/
def execAtomg (o : Op) (s : State) : Host.Outcome State Fault Refusal := slotMeaning (.atomg o) s

/-- CASG (R209). Generic compare-and-swap of 4 or 8 bytes. -/
def execCasg (o : Op) (s : State) : Host.Outcome State Fault Refusal := slotMeaning (.casg o) s

/-- SINIT (R215). Initialises a stage record with its expected arrival counts. -/
def execSinit (o : Op) (s : State) : Host.Outcome State Fault Refusal := slotMeaning (.sinit o) s

/-- SWAIT (R216). Stalls until the full barrier's phase bit differs from ph, then acquires. -/
def execSwait (o : Op) (s : State) : Host.Outcome State Fault Refusal := slotMeaning (.swait o) s

/-- SWAIT_EMPTY (R216). Stalls until the empty barrier's phase bit differs from ph, then acquires. -/
def execSwaitEmpty (o : Op) (s : State) : Host.Outcome State Fault Refusal := slotMeaning (.swaitEmpty o) s

/-- SWAIT_PTR (R217). Stalls until a copy channel's write pointer reaches a position, or traps if its command failed. -/
def execSwaitPtr (o : Op) (s : State) : Host.Outcome State Fault Refusal := slotMeaning (.swaitPtr o) s

/-- SARR (R216). Arrives once at a stage's full barrier as a core-scope release. -/
def execSarr (o : Op) (s : State) : Host.Outcome State Fault Refusal := slotMeaning (.sarr o) s

/-- SARR_EMPTY (R216). Arrives once at a stage's empty barrier as a core-scope release. -/
def execSarrEmpty (o : Op) (s : State) : Host.Outcome State Fault Refusal := slotMeaning (.sarrEmpty o) s

/-- BANKQ (R219). Reads the state word of a parity group of the own pool. -/
def execBankq (o : Op) (s : State) : Host.Outcome State Fault Refusal := slotMeaning (.bankq o) s

/-- PLDL (R220). Hints a line into the core's L1 without faulting. -/
def execPldl (o : Op) (s : State) : Host.Outcome State Fault Refusal := slotMeaning (.pldl o) s

/-- FLUSHL1 (R221). Writes every dirty L1 sector back to the LLC. -/
def execFlushl1 (o : Op) (s : State) : Host.Outcome State Fault Refusal := slotMeaning (.flushl1 o) s

/-- FLUSHL1_INV (R221). Writes back and invalidates every L1 line. -/
def execFlushl1Inv (o : Op) (s : State) : Host.Outcome State Fault Refusal := slotMeaning (.flushl1Inv o) s

end Sys2Proof.Machine
end

