-- ==== Sys2Proof/Machine/ExecMx.lean ====
section
/-! DEFINITION. The meanings of the slot operations of MX slot (R97): the matrix array. -/
namespace Sys2Proof.Machine

/-- MXCFG (R224). Sets the matrix format pair and clears the B buffers and row cursors. -/
def execMxcfg (o : Op) (s : State) : Host.Outcome State Fault Refusal := slotMeaning (.mxcfg o) s

/-- MXZERO (R233). Zeroes the shadow half of a tile. -/
def execMxzero (o : Op) (s : State) : Host.Outcome State Fault Refusal := slotMeaning (.mxzero o) s

/-- MXZERO_ALL (R233). Zeroes both halves of a tile and sets its kind. -/
def execMxzeroAll (o : Op) (s : State) : Host.Outcome State Fault Refusal := slotMeaning (.mxzeroAll o) s

/-- MXLDB (R227). Writes one B or metadata row of the loading buffer. -/
def execMxldb (o : Op) (s : State) : Host.Outcome State Fault Refusal := slotMeaning (.mxldb o) s

/-- MXOPEN (R236). Opens a restart region on a tile and records its region record. -/
def execMxopen (o : Op) (s : State) : Host.Outcome State Fault Refusal := slotMeaning (.mxopen o) s

/-- MXPUSH (R230). Pushes one A row against the active B buffer into a tile row. -/
def execMxpush (o : Op) (s : State) : Host.Outcome State Fault Refusal := slotMeaning (.mxpush o) s

/-- MXPUSHZ (R230). Pushes a committed tile row through the down-converter as an A row. -/
def execMxpushz (o : Op) (s : State) : Host.Outcome State Fault Refusal := slotMeaning (.mxpushz o) s

/-- MXSHIFT (R228). Exchanges the active and loading B buffers and resets a row cursor. -/
def execMxshift (o : Op) (s : State) : Host.Outcome State Fault Refusal := slotMeaning (.mxshift o) s

/-- MXDRAIN (R232). Reads one committed tile row into a vector register. -/
def execMxdrain (o : Op) (s : State) : Host.Outcome State Fault Refusal := slotMeaning (.mxdrain o) s

/-- MXCOMMIT (R237). Closes the open restart region so its shadow half becomes committed. -/
def execMxcommit (o : Op) (s : State) : Host.Outcome State Fault Refusal := slotMeaning (.mxcommit o) s

/-- MXSTAGE (R241). Binds a stage record to the open region. -/
def execMxstage (o : Op) (s : State) : Host.Outcome State Fault Refusal := slotMeaning (.mxstage o) s

/-- MXSCALE (R234). Sets the down-converter factor. -/
def execMxscale (o : Op) (s : State) : Host.Outcome State Fault Refusal := slotMeaning (.mxscale o) s

/-- MXQ (R235). Reads an array status item, variable-latency. -/
def execMxq (o : Op) (s : State) : Host.Outcome State Fault Refusal := slotMeaning (.mxq o) s

end Sys2Proof.Machine
end

