-- ==== Sys2Proof/Machine/ExecSc.lean ====
section
/-! DEFINITION. The meanings of the slot operations of SC slot (R86): scalar arithmetic. -/
namespace Sys2Proof.Machine

/-- ADD (R119). 64-bit wrapping addition. -/
def execAdd (o : Op) (s : State) : Host.Outcome State Fault Refusal := slotMeaning (.add o) s

/-- SUB (R119). 64-bit wrapping subtraction. -/
def execSub (o : Op) (s : State) : Host.Outcome State Fault Refusal := slotMeaning (.sub o) s

/-- MUL (R119). Low 64 bits of the product. -/
def execMul (o : Op) (s : State) : Host.Outcome State Fault Refusal := slotMeaning (.mul o) s

/-- MULH (R119). High 64 bits of the signed or unsigned product. -/
def execMulh (o : Op) (s : State) : Host.Outcome State Fault Refusal := slotMeaning (.mulh o) s

/-- DIV (R119). Variable-latency 64-bit quotient under R67. -/
def execDiv (o : Op) (s : State) : Host.Outcome State Fault Refusal := slotMeaning (.div o) s

/-- REM (R119). Variable-latency 64-bit remainder under R67. -/
def execRem (o : Op) (s : State) : Host.Outcome State Fault Refusal := slotMeaning (.rem o) s

/-- AND (R119). Bitwise and. -/
def execAnd (o : Op) (s : State) : Host.Outcome State Fault Refusal := slotMeaning (.and o) s

/-- OR (R119). Bitwise or. -/
def execOr (o : Op) (s : State) : Host.Outcome State Fault Refusal := slotMeaning (.or o) s

/-- XOR (R119). Bitwise exclusive or. -/
def execXor (o : Op) (s : State) : Host.Outcome State Fault Refusal := slotMeaning (.xor o) s

/-- ANDN (R119). a and not b. -/
def execAndn (o : Op) (s : State) : Host.Outcome State Fault Refusal := slotMeaning (.andn o) s

/-- SHL (R120). Logical left shift by the low 8 bits of the amount. -/
def execShl (o : Op) (s : State) : Host.Outcome State Fault Refusal := slotMeaning (.shl o) s

/-- SHR (R120). Logical right shift by the low 8 bits of the amount. -/
def execShr (o : Op) (s : State) : Host.Outcome State Fault Refusal := slotMeaning (.shr o) s

/-- SRA (R120). Arithmetic right shift by the low 8 bits of the amount. -/
def execSra (o : Op) (s : State) : Host.Outcome State Fault Refusal := slotMeaning (.sra o) s

/-- ROTL (R120). Left rotate by the amount modulo 64. -/
def execRotl (o : Op) (s : State) : Host.Outcome State Fault Refusal := slotMeaning (.rotl o) s

/-- FSHL (R121). 128-bit funnel shift left, returning the low word. -/
def execFshl (o : Op) (s : State) : Host.Outcome State Fault Refusal := slotMeaning (.fshl o) s

/-- FSHR (R121). 128-bit funnel shift right, returning the high word. -/
def execFshr (o : Op) (s : State) : Host.Outcome State Fault Refusal := slotMeaning (.fshr o) s

/-- CLZ (R122). Counts leading zero bits. -/
def execClz (o : Op) (s : State) : Host.Outcome State Fault Refusal := slotMeaning (.clz o) s

/-- CTZ (R122). Counts trailing zero bits. -/
def execCtz (o : Op) (s : State) : Host.Outcome State Fault Refusal := slotMeaning (.ctz o) s

/-- POPC (R122). Counts one bits. -/
def execPopc (o : Op) (s : State) : Host.Outcome State Fault Refusal := slotMeaning (.popc o) s

/-- MIN (R119). Signed or unsigned minimum. -/
def execMin (o : Op) (s : State) : Host.Outcome State Fault Refusal := slotMeaning (.min o) s

/-- MAX (R119). Signed or unsigned maximum. -/
def execMax (o : Op) (s : State) : Host.Outcome State Fault Refusal := slotMeaning (.max o) s

/-- CMP (R123). Writes a flag from an integer comparison. -/
def execCmp (o : Op) (s : State) : Host.Outcome State Fault Refusal := slotMeaning (.cmp o) s

/-- SEL (R124). Selects one of two sources by a flag. -/
def execSel (o : Op) (s : State) : Host.Outcome State Fault Refusal := slotMeaning (.sel o) s

/-- MOV (R124). Copies a source to the destination. -/
def execMov (o : Op) (s : State) : Host.Outcome State Fault Refusal := slotMeaning (.mov o) s

/-- BFX (R125). Extracts a bit field, zero- or sign-extended. -/
def execBfx (o : Op) (s : State) : Host.Outcome State Fault Refusal := slotMeaning (.bfx o) s

/-- BFI (R125). Inserts a bit field into a base value. -/
def execBfi (o : Op) (s : State) : Host.Outcome State Fault Refusal := slotMeaning (.bfi o) s

/-- SEXT (R126). Sign-extends the low n bits. -/
def execSext (o : Op) (s : State) : Host.Outcome State Fault Refusal := slotMeaning (.sext o) s

/-- ZEXT (R126). Zero-extends the low n bits. -/
def execZext (o : Op) (s : State) : Host.Outcome State Fault Refusal := slotMeaning (.zext o) s

/-- FLAGOP (R127). Writes a flag from a truth table of two flags. -/
def execFlagop (o : Op) (s : State) : Host.Outcome State Fault Refusal := slotMeaning (.flagop o) s

/-- FADD (R128). Scalar FP32 addition. -/
def execFadd (o : Op) (s : State) : Host.Outcome State Fault Refusal := slotMeaning (.fadd o) s

/-- FSUB (R128). Scalar FP32 subtraction. -/
def execFsub (o : Op) (s : State) : Host.Outcome State Fault Refusal := slotMeaning (.fsub o) s

/-- FMUL (R128). Scalar FP32 multiplication. -/
def execFmul (o : Op) (s : State) : Host.Outcome State Fault Refusal := slotMeaning (.fmul o) s

/-- FFMA (R128). Scalar FP32 fused multiply-add. -/
def execFfma (o : Op) (s : State) : Host.Outcome State Fault Refusal := slotMeaning (.ffma o) s

/-- FMIN (R128). Scalar FP32 minimumNumber. -/
def execFmin (o : Op) (s : State) : Host.Outcome State Fault Refusal := slotMeaning (.fmin o) s

/-- FMAX (R128). Scalar FP32 maximumNumber. -/
def execFmax (o : Op) (s : State) : Host.Outcome State Fault Refusal := slotMeaning (.fmax o) s

/-- FCMP (R129). Writes a flag from an FP32 comparison. -/
def execFcmp (o : Op) (s : State) : Host.Outcome State Fault Refusal := slotMeaning (.fcmp o) s

/-- FCVT (R130). Converts a scalar float under the selector and rounding mode. -/
def execFcvt (o : Op) (s : State) : Host.Outcome State Fault Refusal := slotMeaning (.fcvt o) s

/-- ICVT (R130). Converts a 64-bit integer to FP32, FP16 or BF16. -/
def execIcvt (o : Op) (s : State) : Host.Outcome State Fault Refusal := slotMeaning (.icvt o) s

/-- APSET (R131). Writes a 192-bit address pattern register, trapping on reserved values. -/
def execApset (o : Op) (s : State) : Host.Outcome State Fault Refusal := slotMeaning (.apset o) s

/-- APGET (R131). Reads one 64-bit word of an address pattern register. -/
def execApget (o : Op) (s : State) : Host.Outcome State Fault Refusal := slotMeaning (.apget o) s

end Sys2Proof.Machine
end

