-- ==== Sys2Proof/Machine/ExecVector.lean ====
section
/-! DEFINITION. The meanings of the slot operations of VA and VB slots (R92, R93): vector arithmetic. -/
namespace Sys2Proof.Machine

/-- VADD (R137). Element-wise addition. -/
def execVadd (u : VU) (t : ElemTy) (o : Op) (s : State) : Host.Outcome State Fault Refusal := slotMeaning (.vadd u t o) s

/-- VSUB (R137). Element-wise subtraction. -/
def execVsub (u : VU) (t : ElemTy) (o : Op) (s : State) : Host.Outcome State Fault Refusal := slotMeaning (.vsub u t o) s

/-- VMUL (R138). Element-wise multiplication. -/
def execVmul (u : VU) (t : ElemTy) (o : Op) (s : State) : Host.Outcome State Fault Refusal := slotMeaning (.vmul u t o) s

/-- VMULH (R138). High half of element-wise integer products. -/
def execVmulh (u : VU) (t : ElemTy) (o : Op) (s : State) : Host.Outcome State Fault Refusal := slotMeaning (.vmulh u t o) s

/-- VFMA (R139). Fused a×b+c per element. -/
def execVfma (u : VU) (t : ElemTy) (o : Op) (s : State) : Host.Outcome State Fault Refusal := slotMeaning (.vfma u t o) s

/-- VFMS (R139). Fused a×b−c per element. -/
def execVfms (u : VU) (t : ElemTy) (o : Op) (s : State) : Host.Outcome State Fault Refusal := slotMeaning (.vfms u t o) s

/-- VFNMA (R139). Fused c−a×b per element. -/
def execVfnma (u : VU) (t : ElemTy) (o : Op) (s : State) : Host.Outcome State Fault Refusal := slotMeaning (.vfnma u t o) s

/-- VMIN (R140). Element-wise minimum. -/
def execVmin (u : VU) (t : ElemTy) (o : Op) (s : State) : Host.Outcome State Fault Refusal := slotMeaning (.vmin u t o) s

/-- VMAX (R140). Element-wise maximum. -/
def execVmax (u : VU) (t : ElemTy) (o : Op) (s : State) : Host.Outcome State Fault Refusal := slotMeaning (.vmax u t o) s

/-- VABS (R141). Element-wise absolute value. -/
def execVabs (u : VU) (t : ElemTy) (o : Op) (s : State) : Host.Outcome State Fault Refusal := slotMeaning (.vabs u t o) s

/-- VNEG (R141). Element-wise negation. -/
def execVneg (u : VU) (t : ElemTy) (o : Op) (s : State) : Host.Outcome State Fault Refusal := slotMeaning (.vneg u t o) s

/-- VADDS (R142). Saturating element-wise addition. -/
def execVadds (u : VU) (t : ElemTy) (o : Op) (s : State) : Host.Outcome State Fault Refusal := slotMeaning (.vadds u t o) s

/-- VSUBS (R142). Saturating element-wise subtraction. -/
def execVsubs (u : VU) (t : ElemTy) (o : Op) (s : State) : Host.Outcome State Fault Refusal := slotMeaning (.vsubs u t o) s

/-- VAVG (R143). Element-wise average rounded upward. -/
def execVavg (u : VU) (t : ElemTy) (o : Op) (s : State) : Host.Outcome State Fault Refusal := slotMeaning (.vavg u t o) s

/-- VCMP (R144). Writes a mask from element-wise comparisons. -/
def execVcmp (u : VU) (t : ElemTy) (o : Op) (s : State) : Host.Outcome State Fault Refusal := slotMeaning (.vcmp u t o) s

/-- VSHL (R147). Element-wise logical left shift. -/
def execVshl (u : VU) (t : ElemTy) (o : Op) (s : State) : Host.Outcome State Fault Refusal := slotMeaning (.vshl u t o) s

/-- VSHR (R147). Element-wise logical right shift. -/
def execVshr (u : VU) (t : ElemTy) (o : Op) (s : State) : Host.Outcome State Fault Refusal := slotMeaning (.vshr u t o) s

/-- VSRA (R147). Element-wise arithmetic right shift. -/
def execVsra (u : VU) (t : ElemTy) (o : Op) (s : State) : Host.Outcome State Fault Refusal := slotMeaning (.vsra u t o) s

/-- VFSHL (R148). Element-wise funnel shift left. -/
def execVfshl (u : VU) (t : ElemTy) (o : Op) (s : State) : Host.Outcome State Fault Refusal := slotMeaning (.vfshl u t o) s

/-- VFSHR (R148). Element-wise funnel shift right. -/
def execVfshr (u : VU) (t : ElemTy) (o : Op) (s : State) : Host.Outcome State Fault Refusal := slotMeaning (.vfshr u t o) s

/-- VCLZ (R149). Element-wise leading-zero count. -/
def execVclz (u : VU) (t : ElemTy) (o : Op) (s : State) : Host.Outcome State Fault Refusal := slotMeaning (.vclz u t o) s

/-- VPOPC (R149). Element-wise population count. -/
def execVpopc (u : VU) (t : ElemTy) (o : Op) (s : State) : Host.Outcome State Fault Refusal := slotMeaning (.vpopc u t o) s

/-- VCVT (R150). Element-wise conversion between types. -/
def execVcvt (u : VU) (t : ElemTy) (o : Op) (s : State) : Host.Outcome State Fault Refusal := slotMeaning (.vcvt u t o) s

/-- VQNT (R152). Quantises FP32 lanes to 4- or 8-bit codes. -/
def execVqnt (u : VU) (t : ElemTy) (o : Op) (s : State) : Host.Outcome State Fault Refusal := slotMeaning (.vqnt u t o) s

/-- VDQNT (R153). Dequantises codes to FP32 lanes. -/
def execVdqnt (u : VU) (t : ElemTy) (o : Op) (s : State) : Host.Outcome State Fault Refusal := slotMeaning (.vdqnt u t o) s

/-- VDOT4 (R154). Adds four 8-bit products to each 32-bit lane. -/
def execVdot4 (u : VU) (t : ElemTy) (o : Op) (s : State) : Host.Outcome State Fault Refusal := slotMeaning (.vdot4 u t o) s

/-- VBCST (R155). Broadcasts one element to every element. -/
def execVbcst (u : VU) (t : ElemTy) (o : Op) (s : State) : Host.Outcome State Fault Refusal := slotMeaning (.vbcst u t o) s

/-- VIOTA (R156). Writes start + i×step into each element. -/
def execViota (u : VU) (t : ElemTy) (o : Op) (s : State) : Host.Outcome State Fault Refusal := slotMeaning (.viota u t o) s

/-- VDIV (R159). Variable-latency element-wise float division on VB. -/
def execVdiv (t : ElemTy) (o : Op) (s : State) : Host.Outcome State Fault Refusal := slotMeaning (.vdiv t o) s

/-- VSQRT (R159). Variable-latency element-wise square root on VB. -/
def execVsqrt (t : ElemTy) (o : Op) (s : State) : Host.Outcome State Fault Refusal := slotMeaning (.vsqrt t o) s

/-- VRCP (R161). Correctly rounded reciprocal on VB. -/
def execVrcp (t : ElemTy) (o : Op) (s : State) : Host.Outcome State Fault Refusal := slotMeaning (.vrcp t o) s

/-- VRSQ (R161). Correctly rounded reciprocal square root on VB. -/
def execVrsq (t : ElemTy) (o : Op) (s : State) : Host.Outcome State Fault Refusal := slotMeaning (.vrsq t o) s

/-- VEXP2 (R161). Correctly rounded 2^x on VB. -/
def execVexp2 (t : ElemTy) (o : Op) (s : State) : Host.Outcome State Fault Refusal := slotMeaning (.vexp2 t o) s

/-- VLOG2 (R161). Correctly rounded log2 on VB. -/
def execVlog2 (t : ElemTy) (o : Op) (s : State) : Host.Outcome State Fault Refusal := slotMeaning (.vlog2 t o) s

/-- VTANH (R161). Correctly rounded tanh on VB. -/
def execVtanh (t : ElemTy) (o : Op) (s : State) : Host.Outcome State Fault Refusal := slotMeaning (.vtanh t o) s

/-- VSIGM (R161). Correctly rounded sigmoid on VB. -/
def execVsigm (t : ElemTy) (o : Op) (s : State) : Host.Outcome State Fault Refusal := slotMeaning (.vsigm t o) s

/-- VAND (R146). Bitwise and over 2048 bits. -/
def execVand (u : VU) (o : Op) (s : State) : Host.Outcome State Fault Refusal := slotMeaning (.vand u o) s

/-- VOR (R146). Bitwise or over 2048 bits. -/
def execVor (u : VU) (o : Op) (s : State) : Host.Outcome State Fault Refusal := slotMeaning (.vor u o) s

/-- VXOR (R146). Bitwise exclusive or over 2048 bits. -/
def execVxor (u : VU) (o : Op) (s : State) : Host.Outcome State Fault Refusal := slotMeaning (.vxor u o) s

/-- VANDN (R146). a and not b over 2048 bits. -/
def execVandn (u : VU) (o : Op) (s : State) : Host.Outcome State Fault Refusal := slotMeaning (.vandn u o) s

/-- VNOT (R146). Bitwise not over 2048 bits. -/
def execVnot (u : VU) (o : Op) (s : State) : Host.Outcome State Fault Refusal := slotMeaning (.vnot u o) s

/-- VSEL (R145). Selects bytes of a or b by a mask. -/
def execVsel (u : VU) (o : Op) (s : State) : Host.Outcome State Fault Refusal := slotMeaning (.vsel u o) s

/-- VMOV (R146). Copies 2048 bits. -/
def execVmov (u : VU) (o : Op) (s : State) : Host.Outcome State Fault Refusal := slotMeaning (.vmov u o) s

/-- VMAND (R157). And of two masks. -/
def execVmand (u : VU) (o : Op) (s : State) : Host.Outcome State Fault Refusal := slotMeaning (.vmand u o) s

/-- VMOR (R157). Or of two masks. -/
def execVmor (u : VU) (o : Op) (s : State) : Host.Outcome State Fault Refusal := slotMeaning (.vmor u o) s

/-- VMNOT (R157). Not of a mask. -/
def execVmnot (u : VU) (o : Op) (s : State) : Host.Outcome State Fault Refusal := slotMeaning (.vmnot u o) s

/-- VMPOPC (R158). Counts set mask bits. -/
def execVmpopc (u : VU) (o : Op) (s : State) : Host.Outcome State Fault Refusal := slotMeaning (.vmpopc u o) s

/-- VMFIRST (R158). Finds the lowest set mask bit. -/
def execVmfirst (u : VU) (o : Op) (s : State) : Host.Outcome State Fault Refusal := slotMeaning (.vmfirst u o) s

end Sys2Proof.Machine
end

