-- ==== Sys2Proof/Machine/ExecXn.lean ====
section
/-! DEFINITION. The meanings of the slot operations of XN slot (R95): the crossbar and the bit network. -/
namespace Sys2Proof.Machine

/-- XPERM (R166). Gathers 32-bit lanes by source index. -/
def execXperm (o : Op) (s : State) : Host.Outcome State Fault Refusal := slotMeaning (.xperm o) s

/-- XPERMV (R166). Scatters 32-bit lanes to target indices, trapping on a collision. -/
def execXpermv (o : Op) (s : State) : Host.Outcome State Fault Refusal := slotMeaning (.xpermv o) s

/-- XROT (R167). Rotates lanes toward higher lanes. -/
def execXrot (o : Op) (s : State) : Host.Outcome State Fault Refusal := slotMeaning (.xrot o) s

/-- XROT_DN (R167). Rotates lanes toward lower lanes. -/
def execXrotDn (o : Op) (s : State) : Host.Outcome State Fault Refusal := slotMeaning (.xrotDn o) s

/-- XZIP (R168). Interleaves the low halves of two registers. -/
def execXzip (o : Op) (s : State) : Host.Outcome State Fault Refusal := slotMeaning (.xzip o) s

/-- XZIP_HI (R168). Interleaves the high halves of two registers. -/
def execXzipHi (o : Op) (s : State) : Host.Outcome State Fault Refusal := slotMeaning (.xzipHi o) s

/-- XUNZIP (R168). De-interleaves the even lanes of two registers. -/
def execXunzip (o : Op) (s : State) : Host.Outcome State Fault Refusal := slotMeaning (.xunzip o) s

/-- XUNZIP_ODD (R168). De-interleaves the odd lanes of two registers. -/
def execXunzipOdd (o : Op) (s : State) : Host.Outcome State Fault Refusal := slotMeaning (.xunzipOdd o) s

/-- XBNET (R175). Routes bits of a register pair through a loaded pattern. -/
def execXbnet (o : Op) (s : State) : Host.Outcome State Fault Refusal := slotMeaning (.xbnet o) s

/-- XBNLD (R174). Loads one part of a bit-network routing pattern. -/
def execXbnld (o : Op) (s : State) : Host.Outcome State Fault Refusal := slotMeaning (.xbnld o) s

/-- XCMPR (R169). Packs selected lanes into the low lanes. -/
def execXcmpr (o : Op) (s : State) : Host.Outcome State Fault Refusal := slotMeaning (.xcmpr o) s

/-- XEXPD (R169). Spreads low lanes into selected lanes. -/
def execXexpd (o : Op) (s : State) : Host.Outcome State Fault Refusal := slotMeaning (.xexpd o) s

/-- XBENCH (R178). Appends selected lanes of four registers to a bench queue, trapping on overflow. -/
def execXbench (o : Op) (s : State) : Host.Outcome State Fault Refusal := slotMeaning (.xbench o) s

/-- XDRAIN (R179). Pops up to 64 bench entries into four registers. -/
def execXdrain (o : Op) (s : State) : Host.Outcome State Fault Refusal := slotMeaning (.xdrain o) s

/-- XBCNT (R180). Reads a bench queue's count. -/
def execXbcnt (o : Op) (s : State) : Host.Outcome State Fault Refusal := slotMeaning (.xbcnt o) s

/-- XBCLR (R180). Clears a bench queue's count. -/
def execXbclr (o : Op) (s : State) : Host.Outcome State Fault Refusal := slotMeaning (.xbclr o) s

/-- XRED (R170). Reduces all elements by a fixed tree. -/
def execXred (t : ElemTy) (o : Op) (s : State) : Host.Outcome State Fault Refusal := slotMeaning (.xred t o) s

/-- XSCAN (R171). Inclusive left-to-right prefix scan. -/
def execXscan (t : ElemTy) (o : Op) (s : State) : Host.Outcome State Fault Refusal := slotMeaning (.xscan t o) s

/-- XGMAX (R172). Maximum over aligned groups of elements. -/
def execXgmax (t : ElemTy) (o : Op) (s : State) : Host.Outcome State Fault Refusal := slotMeaning (.xgmax t o) s

/-- XGMIN (R172). Minimum over aligned groups of elements. -/
def execXgmin (t : ElemTy) (o : Op) (s : State) : Host.Outcome State Fault Refusal := slotMeaning (.xgmin t o) s

end Sys2Proof.Machine
end

