-- ==== Sys2Proof/Machine/Dispatch.lean ====
section
/-! DEFINITION. Dispatch: one arm per constructor of Instr. -/
namespace Sys2Proof.Machine

def exec (i : Instr) (s : State) : Host.Outcome State Fault Refusal :=
  match i with
  | .bundleExecution k => Sys2Proof.Machine.execBundleExecution k s
  | .resultDelivery k => Sys2Proof.Machine.execResultDelivery k s
  | .variableResultWrite k id => Sys2Proof.Machine.execVariableResultWrite k id s
  | .accumulatorEventAct k => Sys2Proof.Machine.execAccumulatorEventAct k s
  | .bundleRetire k => Sys2Proof.Machine.execBundleRetire k s
  | .trapEntry k => Sys2Proof.Machine.execTrapEntry k s
  | .streamDeadlockTrap k => Sys2Proof.Machine.execStreamDeadlockTrap k s
  | .taskDispatch k => Sys2Proof.Machine.execTaskDispatch k s
  | .preemptAtPoint k => Sys2Proof.Machine.execPreemptAtPoint k s
  | .preemptionLimitExpiry k => Sys2Proof.Machine.execPreemptionLimitExpiry k s
  | .forcedStop k => Sys2Proof.Machine.execForcedStop k s
  | .forcedStopEscalation k => Sys2Proof.Machine.execForcedStopEscalation k s
  | .saveComplete k => Sys2Proof.Machine.execSaveComplete k s
  | .taskRestore k id => Sys2Proof.Machine.execTaskRestore k id s
  | .nop sl => Sys2Proof.Machine.execNop sl s
  | .bra o => Sys2Proof.Machine.execBra o s
  | .brc o => Sys2Proof.Machine.execBrc o s
  | .brcZ o => Sys2Proof.Machine.execBrcZ o s
  | .brq o => Sys2Proof.Machine.execBrq o s
  | .brqN o => Sys2Proof.Machine.execBrqN o s
  | .call o => Sys2Proof.Machine.execCall o s
  | .ret o => Sys2Proof.Machine.execRet o s
  | .loop o => Sys2Proof.Machine.execLoop o s
  | .lbrk o => Sys2Proof.Machine.execLbrk o s
  | .yield o => Sys2Proof.Machine.execYield o s
  | .trap o => Sys2Proof.Machine.execTrap o s
  | .tret o => Sys2Proof.Machine.execTret o s
  | .twait o => Sys2Proof.Machine.execTwait o s
  | .twaitAny o => Sys2Proof.Machine.execTwaitAny o s
  | .tstat o => Sys2Proof.Machine.execTstat o s
  | .fence o => Sys2Proof.Machine.execFence o s
  | .bar o => Sys2Proof.Machine.execBar o s
  | .bara o => Sys2Proof.Machine.execBara o s
  | .halt o => Sys2Proof.Machine.execHalt o s
  | .exit o => Sys2Proof.Machine.execExit o s
  | .mfsr o => Sys2Proof.Machine.execMfsr o s
  | .mtsr o => Sys2Proof.Machine.execMtsr o s
  | .bkpt o => Sys2Proof.Machine.execBkpt o s
  | .icinv o => Sys2Proof.Machine.execIcinv o s
  | .add o => Sys2Proof.Machine.execAdd o s
  | .sub o => Sys2Proof.Machine.execSub o s
  | .mul o => Sys2Proof.Machine.execMul o s
  | .mulh o => Sys2Proof.Machine.execMulh o s
  | .div o => Sys2Proof.Machine.execDiv o s
  | .rem o => Sys2Proof.Machine.execRem o s
  | .and o => Sys2Proof.Machine.execAnd o s
  | .or o => Sys2Proof.Machine.execOr o s
  | .xor o => Sys2Proof.Machine.execXor o s
  | .andn o => Sys2Proof.Machine.execAndn o s
  | .shl o => Sys2Proof.Machine.execShl o s
  | .shr o => Sys2Proof.Machine.execShr o s
  | .sra o => Sys2Proof.Machine.execSra o s
  | .rotl o => Sys2Proof.Machine.execRotl o s
  | .fshl o => Sys2Proof.Machine.execFshl o s
  | .fshr o => Sys2Proof.Machine.execFshr o s
  | .clz o => Sys2Proof.Machine.execClz o s
  | .ctz o => Sys2Proof.Machine.execCtz o s
  | .popc o => Sys2Proof.Machine.execPopc o s
  | .min o => Sys2Proof.Machine.execMin o s
  | .max o => Sys2Proof.Machine.execMax o s
  | .cmp o => Sys2Proof.Machine.execCmp o s
  | .sel o => Sys2Proof.Machine.execSel o s
  | .mov o => Sys2Proof.Machine.execMov o s
  | .bfx o => Sys2Proof.Machine.execBfx o s
  | .bfi o => Sys2Proof.Machine.execBfi o s
  | .sext o => Sys2Proof.Machine.execSext o s
  | .zext o => Sys2Proof.Machine.execZext o s
  | .flagop o => Sys2Proof.Machine.execFlagop o s
  | .fadd o => Sys2Proof.Machine.execFadd o s
  | .fsub o => Sys2Proof.Machine.execFsub o s
  | .fmul o => Sys2Proof.Machine.execFmul o s
  | .ffma o => Sys2Proof.Machine.execFfma o s
  | .fmin o => Sys2Proof.Machine.execFmin o s
  | .fmax o => Sys2Proof.Machine.execFmax o s
  | .fcmp o => Sys2Proof.Machine.execFcmp o s
  | .fcvt o => Sys2Proof.Machine.execFcvt o s
  | .icvt o => Sys2Proof.Machine.execIcvt o s
  | .apset o => Sys2Proof.Machine.execApset o s
  | .apget o => Sys2Proof.Machine.execApget o s
  | .ldv o => Sys2Proof.Machine.execLdv o s
  | .ldvt o => Sys2Proof.Machine.execLdvt o s
  | .stv o => Sys2Proof.Machine.execStv o s
  | .stvt o => Sys2Proof.Machine.execStvt o s
  | .ldvu o => Sys2Proof.Machine.execLdvu o s
  | .ldvm o => Sys2Proof.Machine.execLdvm o s
  | .stvb o => Sys2Proof.Machine.execStvb o s
  | .ldm o => Sys2Proof.Machine.execLdm o s
  | .stm o => Sys2Proof.Machine.execStm o s
  | .lds o => Sys2Proof.Machine.execLds o s
  | .sts o => Sys2Proof.Machine.execSts o s
  | .atoml o => Sys2Proof.Machine.execAtoml o s
  | .casl o => Sys2Proof.Machine.execCasl o s
  | .ldg o => Sys2Proof.Machine.execLdg o s
  | .stg o => Sys2Proof.Machine.execStg o s
  | .atomg o => Sys2Proof.Machine.execAtomg o s
  | .casg o => Sys2Proof.Machine.execCasg o s
  | .sinit o => Sys2Proof.Machine.execSinit o s
  | .swait o => Sys2Proof.Machine.execSwait o s
  | .swaitEmpty o => Sys2Proof.Machine.execSwaitEmpty o s
  | .swaitPtr o => Sys2Proof.Machine.execSwaitPtr o s
  | .sarr o => Sys2Proof.Machine.execSarr o s
  | .sarrEmpty o => Sys2Proof.Machine.execSarrEmpty o s
  | .bankq o => Sys2Proof.Machine.execBankq o s
  | .pldl o => Sys2Proof.Machine.execPldl o s
  | .flushl1 o => Sys2Proof.Machine.execFlushl1 o s
  | .flushl1Inv o => Sys2Proof.Machine.execFlushl1Inv o s
  | .cpy o => Sys2Proof.Machine.execCpy o s
  | .cpyr o => Sys2Proof.Machine.execCpyr o s
  | .gath o => Sys2Proof.Machine.execGath o s
  | .scat o => Sys2Proof.Machine.execScat o s
  | .pfl o => Sys2Proof.Machine.execPfl o s
  | .coll o => Sys2Proof.Machine.execColl o s
  | .expf o => Sys2Proof.Machine.execExpf o s
  | .expc o => Sys2Proof.Machine.execExpc o s
  | .whq o => Sys2Proof.Machine.execWhq o s
  | .topki o => Sys2Proof.Machine.execTopki o s
  | .hpub o => Sys2Proof.Machine.execHpub o s
  | .htest o => Sys2Proof.Machine.execHtest o s
  | .lnch o => Sys2Proof.Machine.execLnch o s
  | .ggemm o => Sys2Proof.Machine.execGgemm o s
  | .invl o => Sys2Proof.Machine.execInvl o s
  | .invlAll o => Sys2Proof.Machine.execInvlAll o s
  | .flsh o => Sys2Proof.Machine.execFlsh o s
  | .wptr o => Sys2Proof.Machine.execWptr o s
  | .vadd u t o => Sys2Proof.Machine.execVadd u t o s
  | .vsub u t o => Sys2Proof.Machine.execVsub u t o s
  | .vmul u t o => Sys2Proof.Machine.execVmul u t o s
  | .vmulh u t o => Sys2Proof.Machine.execVmulh u t o s
  | .vfma u t o => Sys2Proof.Machine.execVfma u t o s
  | .vfms u t o => Sys2Proof.Machine.execVfms u t o s
  | .vfnma u t o => Sys2Proof.Machine.execVfnma u t o s
  | .vmin u t o => Sys2Proof.Machine.execVmin u t o s
  | .vmax u t o => Sys2Proof.Machine.execVmax u t o s
  | .vabs u t o => Sys2Proof.Machine.execVabs u t o s
  | .vneg u t o => Sys2Proof.Machine.execVneg u t o s
  | .vadds u t o => Sys2Proof.Machine.execVadds u t o s
  | .vsubs u t o => Sys2Proof.Machine.execVsubs u t o s
  | .vavg u t o => Sys2Proof.Machine.execVavg u t o s
  | .vcmp u t o => Sys2Proof.Machine.execVcmp u t o s
  | .vshl u t o => Sys2Proof.Machine.execVshl u t o s
  | .vshr u t o => Sys2Proof.Machine.execVshr u t o s
  | .vsra u t o => Sys2Proof.Machine.execVsra u t o s
  | .vfshl u t o => Sys2Proof.Machine.execVfshl u t o s
  | .vfshr u t o => Sys2Proof.Machine.execVfshr u t o s
  | .vclz u t o => Sys2Proof.Machine.execVclz u t o s
  | .vpopc u t o => Sys2Proof.Machine.execVpopc u t o s
  | .vcvt u t o => Sys2Proof.Machine.execVcvt u t o s
  | .vqnt u t o => Sys2Proof.Machine.execVqnt u t o s
  | .vdqnt u t o => Sys2Proof.Machine.execVdqnt u t o s
  | .vdot4 u t o => Sys2Proof.Machine.execVdot4 u t o s
  | .vbcst u t o => Sys2Proof.Machine.execVbcst u t o s
  | .viota u t o => Sys2Proof.Machine.execViota u t o s
  | .vdiv t o => Sys2Proof.Machine.execVdiv t o s
  | .vsqrt t o => Sys2Proof.Machine.execVsqrt t o s
  | .vrcp t o => Sys2Proof.Machine.execVrcp t o s
  | .vrsq t o => Sys2Proof.Machine.execVrsq t o s
  | .vexp2 t o => Sys2Proof.Machine.execVexp2 t o s
  | .vlog2 t o => Sys2Proof.Machine.execVlog2 t o s
  | .vtanh t o => Sys2Proof.Machine.execVtanh t o s
  | .vsigm t o => Sys2Proof.Machine.execVsigm t o s
  | .vand u o => Sys2Proof.Machine.execVand u o s
  | .vor u o => Sys2Proof.Machine.execVor u o s
  | .vxor u o => Sys2Proof.Machine.execVxor u o s
  | .vandn u o => Sys2Proof.Machine.execVandn u o s
  | .vnot u o => Sys2Proof.Machine.execVnot u o s
  | .vsel u o => Sys2Proof.Machine.execVsel u o s
  | .vmov u o => Sys2Proof.Machine.execVmov u o s
  | .vmand u o => Sys2Proof.Machine.execVmand u o s
  | .vmor u o => Sys2Proof.Machine.execVmor u o s
  | .vmnot u o => Sys2Proof.Machine.execVmnot u o s
  | .vmpopc u o => Sys2Proof.Machine.execVmpopc u o s
  | .vmfirst u o => Sys2Proof.Machine.execVmfirst u o s
  | .xperm o => Sys2Proof.Machine.execXperm o s
  | .xpermv o => Sys2Proof.Machine.execXpermv o s
  | .xrot o => Sys2Proof.Machine.execXrot o s
  | .xrotDn o => Sys2Proof.Machine.execXrotDn o s
  | .xzip o => Sys2Proof.Machine.execXzip o s
  | .xzipHi o => Sys2Proof.Machine.execXzipHi o s
  | .xunzip o => Sys2Proof.Machine.execXunzip o s
  | .xunzipOdd o => Sys2Proof.Machine.execXunzipOdd o s
  | .xbnet o => Sys2Proof.Machine.execXbnet o s
  | .xbnld o => Sys2Proof.Machine.execXbnld o s
  | .xcmpr o => Sys2Proof.Machine.execXcmpr o s
  | .xexpd o => Sys2Proof.Machine.execXexpd o s
  | .xbench o => Sys2Proof.Machine.execXbench o s
  | .xdrain o => Sys2Proof.Machine.execXdrain o s
  | .xbcnt o => Sys2Proof.Machine.execXbcnt o s
  | .xbclr o => Sys2Proof.Machine.execXbclr o s
  | .xred t o => Sys2Proof.Machine.execXred t o s
  | .xscan t o => Sys2Proof.Machine.execXscan t o s
  | .xgmax t o => Sys2Proof.Machine.execXgmax t o s
  | .xgmin t o => Sys2Proof.Machine.execXgmin t o s
  | .mxcfg o => Sys2Proof.Machine.execMxcfg o s
  | .mxzero o => Sys2Proof.Machine.execMxzero o s
  | .mxzeroAll o => Sys2Proof.Machine.execMxzeroAll o s
  | .mxldb o => Sys2Proof.Machine.execMxldb o s
  | .mxopen o => Sys2Proof.Machine.execMxopen o s
  | .mxpush o => Sys2Proof.Machine.execMxpush o s
  | .mxpushz o => Sys2Proof.Machine.execMxpushz o s
  | .mxshift o => Sys2Proof.Machine.execMxshift o s
  | .mxdrain o => Sys2Proof.Machine.execMxdrain o s
  | .mxcommit o => Sys2Proof.Machine.execMxcommit o s
  | .mxstage o => Sys2Proof.Machine.execMxstage o s
  | .mxscale o => Sys2Proof.Machine.execMxscale o s
  | .mxq o => Sys2Proof.Machine.execMxq o s
  | .engineCommandStart k id => Sys2Proof.Machine.execEngineCommandStart k id s
  | .copySectorDelivery k id => Sys2Proof.Machine.execCopySectorDelivery k id s
  | .commandCompletion k id => Sys2Proof.Machine.execCommandCompletion k id s
  | .launchAccept id => Sys2Proof.Machine.execLaunchAccept id s
  | .taskCompletion k => Sys2Proof.Machine.execTaskCompletion k s
  | .listSubmit j addr => Sys2Proof.Machine.execListSubmit j addr s
  | .expfAccept k id => Sys2Proof.Machine.execExpfAccept k id s
  | .ggemmWalk k id => Sys2Proof.Machine.execGgemmWalk k id s
  | .create c => Sys2Proof.Machine.execCreate c s
  | .suspend c => Sys2Proof.Machine.execSuspend c s
  | .resume c => Sys2Proof.Machine.execResume c s
  | .terminate c => Sys2Proof.Machine.execTerminate c s
  | .invall c => Sys2Proof.Machine.execInvall c s
  | .llcWriteback pa => Sys2Proof.Machine.execLlcWriteback pa s
  | .retireFrame frame => Sys2Proof.Machine.execRetireFrame frame s
  | .retireCore k => Sys2Proof.Machine.execRetireCore k s
  | .refereeConfigWrite seed value => Sys2Proof.Machine.execRefereeConfigWrite seed value s
  | .ringConfigWrite size value => Sys2Proof.Machine.execRingConfigWrite size value s
  | .rlheadWrite value => Sys2Proof.Machine.execRlheadWrite value s
  | .registerWrite off size value => Sys2Proof.Machine.execRegisterWrite off size value s
  | .bpstart value => Sys2Proof.Machine.execBpstart value s
  | .bar2Read pa n => Sys2Proof.Machine.execBar2Read pa n s
  | .bar2Write pa data => Sys2Proof.Machine.execBar2Write pa data s
  | .hostSnoop hpa kind => Sys2Proof.Machine.execHostSnoop hpa kind s
  | .peerIncomingAccess acc => Sys2Proof.Machine.execPeerIncomingAccess acc s
  | .retireChannel q => Sys2Proof.Machine.execRetireChannel q s
  | .flashWrite value failed => Sys2Proof.Machine.execFlashWrite value failed s
  | .flashTrim value => Sys2Proof.Machine.execFlashTrim value s
  | .flashReloc value => Sys2Proof.Machine.execFlashReloc value s
  | .flashRetire value => Sys2Proof.Machine.execFlashRetire value s
  | .bootPhaseComplete result => Sys2Proof.Machine.execBootPhaseComplete result s
  | .load index key => Sys2Proof.Machine.execLoad index key s
  | .clear index => Sys2Proof.Machine.execClear index s
  | .mgmtResume k => Sys2Proof.Machine.execMgmtResume k s
  | .mgmtTerminate k => Sys2Proof.Machine.execMgmtTerminate k s
  | .softError t => Sys2Proof.Machine.execSoftError t s
  | .poolArbitration k reqs => Sys2Proof.Machine.execPoolArbitration k reqs s
  | .parityUpdate k g => Sys2Proof.Machine.execParityUpdate k g s
  | .parityRecompute k g => Sys2Proof.Machine.execParityRecompute k g s
  | .poolFreezeEnd k => Sys2Proof.Machine.execPoolFreezeEnd k s
  | .bankRetirementStart k g j => Sys2Proof.Machine.execBankRetirementStart k g j s
  | .bankRetirementComplete k g => Sys2Proof.Machine.execBankRetirementComplete k g s
  | .rangeIterationBegin k => Sys2Proof.Machine.execRangeIterationBegin k s
  | .workRequest k => Sys2Proof.Machine.execWorkRequest k s
  | .tileLaunchable t => Sys2Proof.Machine.execTileLaunchable t s
  | .gangDispatch g => Sys2Proof.Machine.execGangDispatch g s
  | .launchCompletion l => Sys2Proof.Machine.execLaunchCompletion l s
  | .tagPublication p => Sys2Proof.Machine.execTagPublication p s
  | .launch j => Sys2Proof.Machine.execLaunch j s
  | .waitTokenWord j => Sys2Proof.Machine.execWaitTokenWord j s
  | .waitTokenWordSatisfied j => Sys2Proof.Machine.execWaitTokenWordSatisfied j s
  | .publish j => Sys2Proof.Machine.execPublish j s
  | .condSkip j => Sys2Proof.Machine.execCondSkip j s
  | .jump j => Sys2Proof.Machine.execJump j s
  | .listCall j => Sys2Proof.Machine.execListCall j s
  | .listReturn j => Sys2Proof.Machine.execListReturn j s
  | .listEnd j => Sys2Proof.Machine.execListEnd j s
  | .streamClear j => Sys2Proof.Machine.execStreamClear j s
  | .bullpenReadStart h => Sys2Proof.Machine.execBullpenReadStart h s
  | .stagingComplete h => Sys2Proof.Machine.execStagingComplete h s
  | .stagingFailure h code => Sys2Proof.Machine.execStagingFailure h code s
  | .deadlineMiss h => Sys2Proof.Machine.execDeadlineMiss h s
  | .coreRetirementComplete k => Sys2Proof.Machine.execCoreRetirementComplete k s
  | .refereeReplay id core sig => Sys2Proof.Machine.execRefereeReplay id core sig s
  | .refereeThirdReplay id core sig => Sys2Proof.Machine.execRefereeThirdReplay id core sig s
  | .peerStoreNotPerformed k id code => Sys2Proof.Machine.execPeerStoreNotPerformed k id code s
  | .portDown p => Sys2Proof.Machine.execPortDown p s
  | .portUp p => Sys2Proof.Machine.execPortUp p s
  | .hbmRd q gran => Sys2Proof.Machine.execHbmRd q gran s
  | .hbmWr q gran data => Sys2Proof.Machine.execHbmWr q gran data s
  | .hbmWrm q gran byteMask data => Sys2Proof.Machine.execHbmWrm q gran byteMask data s
  | .hbmReply q tag => Sys2Proof.Machine.execHbmReply q tag s
  | .channelDrainComplete => Sys2Proof.Machine.execChannelDrainComplete s
  | .channelCopyComplete => Sys2Proof.Machine.execChannelCopyComplete s
  | .flashPageRead u page handle => Sys2Proof.Machine.execFlashPageRead u page handle s
  | .flashPageReadComplete id result => Sys2Proof.Machine.execFlashPageReadComplete id result s
  | .relocationSwitch st b => Sys2Proof.Machine.execRelocationSwitch st b s
  | .blockErase st b failed => Sys2Proof.Machine.execBlockErase st b failed s
  | .deferredRelocationStart st => Sys2Proof.Machine.execDeferredRelocationStart st s
  | .flcmdComplete => Sys2Proof.Machine.execFlcmdComplete s
  | .reset => Sys2Proof.Machine.execReset s
  | .getVersion => Sys2Proof.Machine.execGetVersion s
  | .getCapabilities => Sys2Proof.Machine.execGetCapabilities s
  | .negotiateAlgorithms => Sys2Proof.Machine.execNegotiateAlgorithms s
  | .getDigests => Sys2Proof.Machine.execGetDigests s
  | .getCertificate => Sys2Proof.Machine.execGetCertificate s
  | .challenge nonce => Sys2Proof.Machine.execChallenge nonce s
  | .getMeasurements index => Sys2Proof.Machine.execGetMeasurements index s
  | .keyExchange => Sys2Proof.Machine.execKeyExchange s
  | .finish => Sys2Proof.Machine.execFinish s
  | .thermalThrottleDown b => Sys2Proof.Machine.execThermalThrottleDown b s
  | .thermalThrottleUp b => Sys2Proof.Machine.execThermalThrottleUp b s
  | .thermalClockStop b => Sys2Proof.Machine.execThermalClockStop b s
  | .thermalClockRestart b => Sys2Proof.Machine.execThermalClockRestart b s
  | .droopStretch b => Sys2Proof.Machine.execDroopStretch b s
  | .peerStoreAcknowledged k id => Sys2Proof.Machine.execPeerStoreAcknowledged k id s
  | .hostLinkDown => Sys2Proof.Machine.execHostLinkDown s
  | .hostLinkTrain => Sys2Proof.Machine.execHostLinkTrain s

end Sys2Proof.Machine
end

