-- ==== Sys2Proof/Machine/Place.lean ====
section
/-! DEFINITION. A program's load from outside: what it takes for one bundle to be the next that a core fetches (log 1). -/
namespace Sys2Proof.Machine

/-- The bundle of a table word (log 1): the word itself, or the slot operation alone. -/
def tableBundle (nbits w : Nat) : Nat :=
  if 56 < nbits then w % 2 ^ 512
  else match Slot.all[w / 2 ^ 48]? with
    | some sl => bundleWith sl (w % 2 ^ 48)
    | none => bundleWith .br 0

/-- The partition with every register there is (R21). -/
def widestPartition : Nat := 3 + 2 ^ 2 * 8 + 2 ^ 6 * 4

/-- A core that is about to fetch at an address in a context. -/
def Core.atFetch (c : Core) (ctx : Nat) (pc : Word) : Core :=
  { c with
    run := .running, pc := pc, ctx := ctx, partition := widestPartition, cur := none, act := .none, retiring := false, point := false
    raised := none, stalled := none, resumed := false, brkExempt := .next, freeze := 0
    groups := c.groups.map fun (g : Group) => if g.state == 1 then { g with state := 0 } else g }

/-- A context able to fetch at an address with its lowest key. -/
def Ctx.forFetch (c : Ctx) (pc : Nat) : Ctx :=
  { c with state := 1, keycnt := max 1 c.keycnt, hcnt := if (c.handleAt pc).isSome then 0 else c.hcnt }

def Ctx.blank (n : Nat) : Ctx := ⟨n, 1, 0, 0, 0, 0, 0, 1, 0, 0, 0, 0, 0, 0, 0, 0, 0, 0, 0, 0⟩

/-- Memory that holds a bundle where a context fetches it: an active context with a loaded key, a translation of the page, the
two sectors in the LLC. -/
def MemState.withBundle (m : MemState) (ctx : Nat) (pc : Nat) (w : Nat) : MemState :=
  let c := ((m.ctx ctx).getD (Ctx.blank ctx)).forFetch pc
  let frame := ((List.range (m.frames.length + 1)).find? fun f => !m.frames.contains f).getD 0
  let a := 65536 * frame + pc % 65536
  let sector (i : Nat) : Sector := ⟨0, a / 32 + i, c.keylo, BitVec.ofNat 256 (w / 2 ^ (256 * i)), true, ctx, false, 0, false, false⟩
  let m := { m with
    ctxs := c :: m.ctxs.filter fun x => x.num != ctx
    keys := if (m.key c.keylo).isSome then m.keys else (c.keylo, 0) :: m.keys
    tlb := ⟨ctx, pc / 65536, 2 ^ 52 * c.keylo + 65536 * frame + 0x29, false⟩ :: m.tlb }
  (m.putSector (sector 1)).putSector (sector 0)

/-- A state in which the core in view executes a bundle next. -/
def State.withBundle (s : State) (w : Nat) : State :=
  let ctx := if s.core.ctx = 0 then 1 else s.core.ctx
  let pc := s.core.pc.toNat % 2 ^ 48 / 64 * 64
  { s with
    core := s.core.atFetch ctx (BitVec.ofNat 64 pc), mem := s.mem.withBundle ctx pc w
    plat := { s.plat with phase := 5, bootErr := false }, agenda := [.bundleExecution s.core.kid] }

end Sys2Proof.Machine
end

