-- ==== Sys2Proof/Machine/Schedule.lean ====
section
/-! DEFINITION. The default order (log 2): the meaning of the event that comes next when the agenda names none. -/
namespace Sys2Proof.Machine

/-! ## One core -/

/-- A meaning under a condition. -/
def when (b : Bool) (i : Meaning) : Option Meaning := if b then some i else none

/-- Can a save begin: is there a task and a slot for it, and can what is older complete? -/
def State.canSave (s : State) (c : Core) : Bool := (s.taskOf c.kid).isSome && (s.freeSlot c.ctx).isSome && !c.entryWaits

def State.claimed (s : State) (k : Nat) : Bool := s.launch.claims.any fun x => x.victim == k && !x.limit

/-- Saves and stops. A task that will not come to a point by itself meets its limit now. -/
def State.saveEvent (s : State) (c : Core) : Option Meaning :=
  let k := c.kid
  if c.run == .saving then when c.saveReady (execSaveComplete k)
  else if c.run == .running && c.point && c.preq && !c.retiring && s.canSave c then some (execPreemptAtPoint k)
  else if s.limitPassed k && c.atBoundary && s.canSave c then some (execForcedStop k)
  else when (s.claimed k && (!c.kernel.pre || c.intrap)) (execPreemptionLimitExpiry k)

/-- The pool of a core: retirements, waiting requests, parity entries. -/
def State.poolEvent (s : State) (c : Core) : Option Meaning :=
  let k := c.kid
  let group (g : Nat) : Option Meaning :=
    let x := c.group g
    if x.state = 1 then some (execBankRetirementComplete k g)
    else if x.state ≠ 0 then none
    else match s.bankDue c g, x.entries with
      | some j, _ => some (execBankRetirementStart k g j)
      | none, e :: _ =>
        if (e.banks g).any c.taken.contains then some (execPoolArbitration k [])
        else some (if e.recompute then execParityRecompute k g else execParityUpdate k g)
      | none, [] => none
  if c.freeze ≠ 0 then some (execPoolFreezeEnd k)
  else (List.range 12).findSome? group <|> when (!c.poolReqs.isEmpty) (execPoolArbitration k [])

/-- Would the stalled execution of a core go on if it were tried again? -/
def State.unstalls (s : State) (c : Core) : Bool :=
  let d := (s.focus c.kid).bundleStep.core
  d.step != c.step || d.run != c.run

/-- What completes while a core waits: tokens of results and of accumulator events, and all of them at the end of a task. -/
def waitEvent (c : Core) : Option Meaning :=
  let k := c.kid
  if c.run == .exiting || c.run == .halting then
    when (!c.pending.isEmpty) (execResultDelivery k) <|> when (!c.arr.events.isEmpty) (execAccumulatorEventAct k)
  else if c.stalled.isSome then
    when (c.pending.any fun p => p.tok != 0) (execResultDelivery k) <|> when (c.arr.events.any fun e => e.tok != 0) (execAccumulatorEventAct k)
  else none

/-- A core that cannot go on: a deadlock, or the limit of a claim and what follows it. -/
def State.stuckEvent (s : State) (c : Core) : Option Meaning :=
  let k := c.kid
  when c.deadlocked.isSome (execStreamDeadlockTrap k) <|>
  (if c.run == .idle || c.run == .retired || c.run == .saving then none
   else if s.claimed k then some (execPreemptionLimitExpiry k)
   else when (s.limitPassed k && !c.retiring && s.canSave c && (c.arr.region.isSome || (c.stalled.isSome && !c.atBoundary)))
     (execForcedStopEscalation k))

/-- A store to this package's own aperture whose turn has come (R396, R306). -/
def State.ownStore (s : State) (c : Core) : Option Meaning :=
  ((c.peerStores.filter fun p => p.package == s.host.rank).find? fun p => (c.oldestStore p.id).isSome).map fun p => execPeerStoreAcknowledged c.kid p.id

/-- The next step of a command of core k. -/
def State.cmdEvent (s : State) (k : Nat) (x : Cmd) : Option Meaning :=
  (s.commandMoves k x).map fun
    | .start => execEngineCommandStart k x.id
    | .deliver => execCopySectorDelivery k x.id
    | .complete => execCommandCompletion k x.id
    | .accept => execExpfAccept k x.id
    | .walk => execGgemmWalk k x.id

/-- What a core does before it executes: retirement, a raised trap, saves, its pool, results that have come, its commands. -/
def State.preludeEvent (s : State) (c : Core) : Option Meaning :=
  let k := c.kid
  when (c.retiring && !c.fenceHeld) (execBundleRetire k) <|>
  when c.raised.isSome (execTrapEntry k) <|>
  s.saveEvent c <|>
  s.poolEvent c <|>
  ((c.vars.find? fun v => c.varReady v && v.issue < c.step).map fun v => execVariableResultWrite k v.id) <|>
  s.ownStore c <|>
  c.cmds.findSome? (s.cmdEvent k)

/-- The next event of a core, if it has one. -/
def State.coreEvent (s : State) (c : Core) : Option Meaning :=
  let k := c.kid
  if !s.clockRuns k then none else
  s.preludeEvent c <|>
  when (c.canExecute && (c.stalled.isNone || s.unstalls c)) (execBundleExecution k) <|>
  waitEvent c <|>
  when (c.run == .exiting && c.quiet && (s.taskOf k).isSome) (execTaskCompletion k) <|>
  s.stuckEvent c

/-- Cores take turns: the one looked at longest ago comes first. -/
def State.coresEvent (s : State) : Option Meaning := (s.others.reverse ++ [s.core]).findSome? s.coreEvent

/-! ## Launches, tiles and tasks -/

/-- May a holder begin the next iteration of its range task: its core runs no task? -/
def State.holderFree (s : State) (r : RangeTask) : Option Nat :=
  match r.holder with
  | some k => if s.coreFree k then some k else none
  | none => none

/-- Is there a tile or a range task that a core could take? -/
def State.anyOffer (s : State) : Bool :=
  (s.launch.tiles.any fun t => t.state == .launchable) || s.launch.ranges.any fun r => r.holder.isNone || s.splittable r

def State.restoreEvent (s : State) : Option Meaning :=
  s.launch.saved.findSome? fun x =>
    if !x.done then none
    else
      let (dom, unit) := s.unitFor x.task
      (((List.range (domSize dom)).map fun i => unit * domSize dom + i).find? fun k => s.clockRuns k && (s.restoreNow k x).isSome).map
        fun k => execTaskRestore k x.id

def State.launchEvent (s : State) : Option Meaning :=
  (s.launch.reqs.find? s.poolTakes).map (fun r => execLaunchAccept r.id) <|>
  (s.launch.tiles.find? s.tileReady).map (fun t => execTileLaunchable t.id) <|>
  (s.launch.pubs.find? s.pubMoves).map (fun p => execTagPublication p.id) <|>
  (s.launch.launches.find? fun l => s.launchDone l.id).map (fun l => execLaunchCompletion l.id) <|>
  (s.launch.gangs.find? fun g => (s.gangCores g).isSome).map (fun g => execGangDispatch g.id) <|>
  s.restoreEvent <|>
  (s.launch.tasks.find? fun t => !t.begun && s.clockRuns t.core && s.dispatchable t).map (fun t => execTaskDispatch t.core) <|>
  (s.launch.ranges.findSome? fun r => if s.dispatches r.launch then s.holderFree r else none).map (fun k => execRangeIterationBegin k) <|>
  (if s.anyOffer then ((List.range Config.cores).find? fun k => (s.offerFor k).isSome).map (fun k => execWorkRequest k) else none)

/-! ## Experts, repairs, devices -/

def State.stagingEvent (s : State) : Option Meaning :=
  (s.expert.handles.find? fun x => x.state == 2).bind fun x =>
    match s.stagingFault x with
    | some code => some (execStagingFailure x.num code)
    | none => match s.missingPage x with
      | some _ => (s.unreadPage x).map fun p => execFlashPageRead (p / 4) (p % 4) (some x.num)
      | none => some (execStagingComplete x.num)

def State.expertEvent (s : State) : Option Meaning :=
  ((s.expert.entries.find? fun e => e.overdue s.host.clock).map fun e => execDeadlineMiss e.handle) <|>
  ((s.expert.entries.find? fun e => s.readDue e.handle && (s.startRead e.handle).isSome).map fun e => execBullpenReadStart e.handle) <|>
  s.stagingEvent

/-- A core in service of a cluster. -/
def State.coreIn (s : State) (cluster : Nat) : Option Nat := ((List.range 16).map fun i => 16 * cluster + i).find? s.inService

def State.auditEvent (s : State) : Option Meaning :=
  match s.rel.logs.find? fun e => e.first.isSome && !e.done with
  | some e =>
    let c := e.log.core / 16
    let first := match e.first with | some (k, _) => k / 16 | none => c
    ((s.replayCluster c 64 [c, first]).bind s.coreIn).map fun k => execRefereeThirdReplay e.num k none
  | none => s.rel.nextLog.bind fun e =>
    let c := e.log.core / 16
    ((s.replayCluster c 128 [c]).bind s.coreIn).map fun k => execRefereeReplay e.num k none

/-- A retirement whose core runs nothing any more. -/
def State.retiredEvent (s : State) : Option Meaning :=
  (s.rel.retiring.find? fun x => (s.coreAt x.1).run == .idle && !s.launch.tasks.any fun t => t.core == x.1).map
    fun x => execCoreRetirementComplete x.1

def State.hbmEvent (s : State) : Option Meaning :=
  let x := s.chan s.hbm.chan
  (s.mem.chans.findSome? fun y => (y.reqs.head?).map fun r => execHbmReply y.num r.tag) <|>
  when (s.hbm.phase == 2 && !(x.reqs.any fun r => r.kind.write) && !(x.waiting.any fun r => r.2.write)) execChannelDrainComplete <|>
  when (s.hbm.phase == 3) execChannelCopyComplete

def State.flashEvent (s : State) : Option Meaning :=
  (s.flash.reads.head?).map (fun r => execFlashPageReadComplete r.id .good) <|>
  (s.flash.blocks.find? fun x => x.toBlock.isSome).map (fun x => execRelocationSwitch x.stack x.num) <|>
  (s.flash.blocks.find? fun x => x.erasing).map (fun x => execBlockErase x.stack x.num false) <|>
  (s.flash.deferred.find? fun x => !s.host.duty.getLsbD 0 && (s.freeBlock x.1).isSome).map (fun x => execDeferredRelocationStart x.1) <|>
  when (s.flash.busy && !s.flashWaits) execFlcmdComplete

/-! ## Lists -/

def State.entryEvent (s : State) (j : Nat) : Meaning :=
  match s.listOp j with
  | 2 => execWaitTokenWord j
  | 3 => execPublish j
  | 4 => execCondSkip j
  | 5 => execJump j
  | 6 => execListCall j
  | 7 => execListReturn j
  | 8 => execListEnd j
  | 9 => execStreamClear j
  | _ => execLaunch j

def State.listEvent (s : State) : Option Meaning :=
  ((List.range 64).find? fun j => (s.list j).wait == .word && (s.listWordMet j).list j != s.list j).map (fun j => execWaitTokenWordSatisfied j) <|>
  s.chosenList.map s.entryEvent

/-! ## The order -/

def State.packageEvent (s : State) : Option Meaning :=
  s.retiredEvent <|> s.launchEvent <|> s.expertEvent <|> s.auditEvent <|> s.hbmEvent <|> s.flashEvent <|> s.listEvent

/-- The event that comes next, if there is one. Until phase 5 only the bring-up goes on. -/
def State.nextEvent (s : State) : Option Meaning :=
  if s.plat.phase ≠ 5 then when (!s.plat.bootErr) (execBootPhaseComplete ⟨0, [], none⟩)
  else if s.turn then s.packageEvent <|> s.coresEvent
  else s.coresEvent <|> s.packageEvent

end Sys2Proof.Machine
end

