-- ==== Sys2Proof/Machine/Step.lean ====
section
/-! DEFINITION. One step: the event that the agenda names next, else the one that the default order gives (log 1, 2). -/
namespace Sys2Proof.Machine

/-- One step of the package. When nothing is to be done, time passes. -/
def step (s : State) : Host.Outcome State Fault Refusal :=
  match s.agenda with
  | i :: rest => exec i { s with agenda := rest }
  | [] => match s.nextEvent with
    | some f => f { s with turn := !s.turn }
    | none => .next s.tick.schedule.finish

/-- The state with one instruction placed where the next step fetches it (log 1). -/
def State.withFetchWord (s : State) (nbits w : Nat) : State := s.withBundle (tableBundle nbits w)

end Sys2Proof.Machine
end

