-- ==== Sys2Proof/Safety.lean ====
section
/-! DEFINITION. The terms in which claims are made: safe runs, the form that every state of a run keeps, what it is to
complete, and the tables of the spec that claims compare the machine with. -/
namespace Sys2Proof

/-- A step that neither faults nor refuses. -/
def Goes (o : Host.Outcome Machine.State Machine.Fault Machine.Refusal) : Prop := ∃ t, o = .next t

/-- n steps of the package go on from a state. -/
def SafeFor (n : Nat) (s : Machine.State) : Prop := Goes (core.run n s)

namespace Machine

/-- Every memory of the package and every scratchpad, those of the saved images too, is in its one form. -/
def State.memoriesOk (s : State) : Prop :=
  s.mem.hbm.wf = true ∧ s.mem.flash.wf = true ∧ s.mem.host.wf = true ∧ (∀ c ∈ s.cores, c.scratch.wf = true) ∧
  ∀ x ∈ s.launch.saved, x.image.scratch.wf = true

/-- Every core's number, and every number that the agenda names, is one the package has (R1). -/
def State.namesOk (s : State) : Prop :=
  (∀ c ∈ s.cores, inCores c.kid = true) ∧ ∀ i ∈ s.agenda, i.eventOk = true

/-- Nothing is left to be done after a step: no record waits, no termination is due, no page was found bad, no page read is still to
be counted, no region log waits (R407, R369, R439, R443, R422). -/
def State.quiet (s : State) : Prop :=
  s.mem.recs = [] ∧ s.mem.doomed = [] ∧ s.mem.flashMet = [] ∧ s.mem.pageReads = [] ∧ ∀ c ∈ s.cores, c.recs = [] ∧ c.audits = []

/-- The form that every step keeps: memories in their one form, names that exist, and nothing left to be done. -/
def State.kept (s : State) : Prop := s.memoriesOk ∧ s.namesOk ∧ s.quiet

/-- No pool of the package holds an error that has not been detected (R191). -/
def State.sound (s : State) : Prop := ∀ c ∈ s.cores, c.latent = []

/-- The state with the core in view replaced. -/
def State.withCore (s : State) (c : Core) : State := { s with core := c }

/-! ## Completing -/

/-- A slot operation completes and leaves t. What it left to be done is then carried out; from a quiet state on nothing was, so
that t is the next state as it stands, and what t does not change is unchanged. -/
def Completes (i : Instr) (s t : State) : Prop :=
  exec i s = .next t.finish ∧ (s.quiet → exec i s = .next t)

/-- A slot operation leaves t, which may hold more to be done: what an access of memory met and what a release found. -/
def Leaves (i : Instr) (s t : State) : Prop := exec i s = .next t.finish ∧ (t.quiet → exec i s = .next t)

/-- An operation of the matrix array leaves the core d. What it added to the log of an open region is written into the audit area at once
(R421); without a log there is nothing else. -/
def Logs (i : Instr) (s : State) (d : Core) : Prop :=
  Leaves i s ((s.withCore d).writeLog s.core) ∧ ((∀ r, d.arr.region = some r → r.log = none) → Completes i s (s.withCore d))

/-- An event completes and leaves t. What it left to be done is then carried out, and the scheduler looks at what it freed. -/
def Happens (i : Instr) (s t : State) : Prop := exec i s = .next t.closeEvent

/-- Was the entry that the result of a slot pushes taken by an older pop before it came (R279)? -/
def Core.lends (c : Core) (sl : Slot) (p : Port) : Bool :=
  match p with
  | .dq n => c.loans.contains (n.val, c.step, sl.num)
  | _ => false

/-- The entries taken in advance, without the one that the result of a slot pushes. -/
def Core.repaid (c : Core) (sl : Slot) (p : Port) : List (Nat × Nat × Nat) :=
  match p with
  | .dq n => if c.lends sl p then c.loans.erase (n.val, c.step, sl.num) else c.loans
  | _ => c.loans

/-- A core to which a result of latency class k was issued at its step (R52): it waits for its delivery step, in the order of
delivery, with the token of the bundle if this operation completes it. Its latch file will take y (R16). -/
def Core.owesBoth (c : Core) (k : Nat) (sl : Slot) (p : Port) (x y : Val) : Core :=
  { c with
    prodTok := 0, loans := c.repaid sl p
    pending := insertPending
      ⟨c.step + c.lat k, c.step, sl.num, if c.lends sl p then .none else portDest p, (portDest p).takes x,
        (slotUnit sl).map fun u => (u, y), c.prodTok⟩ c.pending }

/-- What the latch file takes of a result (R16, R118, R134): the value written, and bits [63:0] of an address pattern. -/
def latchRule (p : Port) (x : Val) : Val :=
  match p with
  | .eq _ => ⟨x.bits, true⟩
  | .cq => ⟨(x.bits.setWidth 1).setWidth 2048, false⟩
  | .ap _ => ⟨(x.bits.setWidth 64).setWidth 2048, false⟩
  | _ => x

/-- The same with the latch entry of the value written. -/
def Core.owes (c : Core) (k : Nat) (sl : Slot) (p : Port) (x : Val) : Core := c.owesBoth k sl p x (latchRule p x)

/-- A core to which a variable-latency result was issued (R54): its destination is empty until it is written; a generic access reserves
the place of its entry in dq, behind the pushes issued before it (R212). -/
def Core.awaits (c : Core) (sl : Slot) (p : Port) (k : VarKind) : Core :=
  let next : Core := { c with nextId := c.nextId + 1 }
  let d : Core := match p with
    | .dq n => if sl = .lm ∧ c.lends sl p = false then next.reserve n c.nextId else next
    | _ => next
  let dst : Dest := if c.lends sl p then .none else match p with
    | .dq n => if sl = .lm then .entry n c.nextId else .dq n
    | _ => portDest p
  { c with
    vars := c.vars ++ [⟨c.nextId, c.step, sl.num, dst, k, c.prodTok⟩], prodTok := 0, loans := c.repaid sl p
    nextId := d.nextId, dq := d.dq, pending := d.pending }

/-! ## Scalar results (R119 to R130) -/

/-- What the spec says of the result of a fixed-latency SC operation from its three source values: its latency class (R86) and
the result, given outright or by what it must satisfy. -/
def scalarRule (i : Instr) (a b x : Word) : Option (Nat × (Word → Prop)) :=
  let n := b.toNat % 256
  match i with
  | .add _ => some (0, fun r => r = BitVec.ofNat 64 (a.toNat + b.toNat))
  | .sub _ => some (0, fun r => r = BitVec.ofInt 64 (a.toNat - b.toNat))
  | .mul _ => some (1, fun r => r = BitVec.ofNat 64 (a.toNat * b.toNat))
  | .mulh o => some (1, fun r => r = (if o.mod then (a.setWidth 128 * b.setWidth 128) >>> 64
      else (a.signExtend 128 * b.signExtend 128) >>> 64).setWidth 64)
  | .and _ => some (0, fun r => ∀ k, r.getLsbD k = (a.getLsbD k && b.getLsbD k))
  | .or _ => some (0, fun r => ∀ k, r.getLsbD k = (a.getLsbD k || b.getLsbD k))
  | .xor _ => some (0, fun r => ∀ k, r.getLsbD k = (a.getLsbD k != b.getLsbD k))
  | .andn _ => some (0, fun r => ∀ k, r.getLsbD k = (a.getLsbD k && !b.getLsbD k))
  | .min o => some (0, fun r => r = if (if o.mod then a.ule b else a.sle b) then a else b)
  | .max o => some (0, fun r => r = if (if o.mod then a.ule b else a.sle b) then b else a)
  | .shl _ => some (0, fun r => r = BitVec.ofNat 64 (a.toNat * 2 ^ n))
  | .shr _ => some (0, fun r => r = BitVec.ofNat 64 (a.toNat / 2 ^ n))
  | .sra _ => some (0, fun r => r = BitVec.ofInt 64 (a.toInt / (2 ^ n : Nat)))
  | .rotl _ => some (0, fun r => r = a.rotateLeft (n % 64))
  | .fshl _ => some (0, fun r => r = ((a ++ b).rotateLeft (x.toNat % 256 % 128)).setWidth 64)
  | .fshr _ => some (0, fun r => r = ((a ++ b).rotateRight (x.toNat % 256 % 128) >>> 64).setWidth 64)
  | .clz _ => some (0, fun r => r.toNat ≤ 64 ∧ (∀ k, k < r.toNat → a.getMsbD k = false) ∧ (r.toNat < 64 → a.getMsbD r.toNat = true))
  | .ctz _ => some (0, fun r => r.toNat ≤ 64 ∧ (∀ k, k < r.toNat → a.getLsbD k = false) ∧ (r.toNat < 64 → a.getLsbD r.toNat = true))
  | .popc _ => some (0, fun r => r.toNat = (List.range 64).countP fun k => a.getLsbD k)
  | .mov _ => some (0, fun r => r = a)
  | .sel _ => some (0, fun r => r = if a = 0 then x else b)
  | .bfx o =>
    let p := b.toNat % 64
    let l := min (x.toNat % 128) (64 - p)
    some (0, fun r => ∀ k, k < 64 → r.getLsbD k =
      if k < l then a.getLsbD (p + k) else o.mod && l != 0 && a.getLsbD (p + l - 1))
  | .bfi _ =>
    let p := x.toNat % 64
    let l := min (x.toNat / 256 % 128) (64 - p)
    some (0, fun r => ∀ k, k < 64 → r.getLsbD k = if p ≤ k ∧ k < p + l then b.getLsbD (k - p) else a.getLsbD k)
  | .sext _ =>
    let l := min (b.toNat % 128) 64
    some (0, fun r => ∀ k, k < 64 → r.getLsbD k = if k < l then a.getLsbD k else l != 0 && a.getLsbD (l - 1))
  | .zext _ => some (0, fun r => ∀ k, k < 64 → r.getLsbD k = (decide (k < b.toNat % 128) && a.getLsbD k))
  | _ => none

/-- The quotient and the remainder of R67 at width 64. -/
def divRule (unsigned : Bool) (a b : Word) : Word × Word :=
  if b = 0 then (BitVec.allOnes 64, a)
  else if unsigned then (a.udiv b, a.umod b)
  else (a.sdiv b, a.srem b)

/-- The condition of R123 by its code. -/
def compareRule (code : Nat) (a b : Word) : Bool :=
  match code with
  | 0 => a == b
  | 1 => a != b
  | 2 => a.slt b
  | 3 => a.sle b
  | 4 => a.ult b
  | _ => a.ule b

/-- The low 32 bits of a word as an exact value (R128). -/
def single (a : Word) : FVal := Fmt.f32.val (a.setWidth 32).toNat

/-- The result of a scalar operation on floating-point values (R128, R130, R73, R74) with its latency class; k is the value of
OP2 as a selector and m that of OP3 as a rounding mode. -/
def floatRule (i : Instr) (a b x : Word) : Option (Nat × Word) :=
  let word (n : Nat) : Word := BitVec.ofNat 64 n
  let half (f : Fmt) : FVal := f.val (a.setWidth 16).toNat
  let rm := x.toNat
  let mode (m : Bool) : Nat := if m then 1 else 0
  match i with
  | .fadd o => some (1, word (Fmt.f32.round (mode o.mod) ((single a).add false (single b))))
  | .fsub o => some (1, word (Fmt.f32.round (mode o.mod) ((single a).add false (single b).neg)))
  | .fmul o => some (1, word (Fmt.f32.round (mode o.mod) ((single a).mul (single b))))
  | .ffma o => some (1, word (Fmt.f32.round (mode o.mod) (((single a).mul (single b)).add false (single x))))
  | .fmin _ => some (0, word (Fmt.f32.minmax false (a.setWidth 32).toNat (b.setWidth 32).toNat))
  | .fmax _ => some (0, word (Fmt.f32.minmax true (a.setWidth 32).toNat (b.setWidth 32).toNat))
  | .fcvt _ =>
    let r : Word := match b.toNat with
      | 0 => word (Fmt.f16.round rm (single a))
      | 1 => word (Fmt.bf16.round rm (single a))
      | 2 => word (Fmt.f32.round 0 (half .f16))
      | 3 => word (Fmt.f32.round 0 (half .bf16))
      | 4 => word (Fmt.bf16.round rm (half .f16))
      | 5 => word (Fmt.f16.round rm (half .bf16))
      | 6 => BitVec.ofInt 64 (satRound rm 32 false (single a))
      | 7 => BitVec.ofInt 64 (satRound rm 32 true (single a))
      | 8 => BitVec.ofInt 64 (satRound rm 64 false (single a))
      | 9 => BitVec.ofInt 64 (satRound rm 64 true (single a))
      | 10 => BitVec.ofInt 64 (satRound rm 64 false (half .f16))
      | _ => BitVec.ofInt 64 (satRound rm 64 false (half .bf16))
    some (1, r)
  | .icvt o =>
    let v : FVal := .ofInt (if o.mod then (a.toNat : Int) else a.toInt)
    some (1, word (match b.toNat with
      | 3 => Fmt.bf16.round rm v
      | 4 => Fmt.f16.round rm v
      | _ => Fmt.f32.round rm v))
  | _ => none

/-! ## Elements (R65, R132, R133) -/

/-- Element e of width w that a vector source supplies: lid its index, a scalar its low bits, a vector the element. -/
def srcElem (w : Nat) (p : Port) (x : Val) (e : Nat) : Nat :=
  match p with
  | .lid => e % 2 ^ w
  | _ => if x.wide then elem w x.bits.toNat e else x.toWord.toNat % 2 ^ w

/-- An element below 2^w as a number, unsigned or signed. -/
def num (w : Nat) (unsigned : Bool) (x : Nat) : Int := if unsigned || x < 2 ^ (w - 1) then (x : Int) else (x : Int) - 2 ^ w

/-- A number limited to the range of a w-bit type (R64, R72). -/
def limit (w : Nat) (unsigned : Bool) (x : Int) : Int :=
  let lo : Int := if unsigned then 0 else -2 ^ (w - 1)
  let hi : Int := if unsigned then 2 ^ w - 1 else 2 ^ (w - 1) - 1
  if x < lo then lo else if hi < x then hi else x

/-- What the spec gives an elementwise operation on elements of an integer type (R137 to R143, R147 to R149): its latency class
and the result, modulo 2^w, from the elements of its sources. -/
def integerElem (i : Instr) (a b c : Nat) : Option (Nat × Int) :=
  let n := b % 256
  match i with
  | .vadd _ _ _ => some (2, (a + b : Int))
  | .vsub _ _ _ => some (2, (a - b : Int))
  | .vmul _ _ _ => some (3, (a * b : Int))
  | .vmulh _ t o => some (3, num t.width o.mod a * num t.width o.mod b / 2 ^ t.width)
  | .vfma _ _ _ => some (3, (a * b + c : Int))
  | .vfms _ _ _ => some (3, (a * b - c : Int))
  | .vfnma _ _ _ => some (3, (c - a * b : Int))
  | .vmin _ t o => some (2, min (num t.width o.mod a) (num t.width o.mod b))
  | .vmax _ t o => some (2, max (num t.width o.mod a) (num t.width o.mod b))
  | .vabs _ t _ => some (2, (num t.width false a).natAbs)
  | .vneg _ _ _ => some (2, (-a : Int))
  | .vadds _ t o => some (2, limit t.width o.mod (num t.width o.mod a + num t.width o.mod b))
  | .vsubs _ t o => some (2, limit t.width o.mod (num t.width o.mod a - num t.width o.mod b))
  | .vavg _ t o => some (2, (num t.width o.mod a + num t.width o.mod b + 1) / 2)
  | .vshl _ t _ => some (2, if n < t.width then (a * 2 ^ n : Nat) else 0)
  | .vshr _ t _ => some (2, if n < t.width then (a / 2 ^ n : Nat) else 0)
  | .vsra _ t _ => some (2, num t.width false a / (2 ^ n : Nat))
  | .vfshl _ t _ => some (2, ((BitVec.ofNat (2 * t.width) (a * 2 ^ t.width + b)).rotateLeft (c % 256 % (2 * t.width))).toNat)
  | .vfshr _ t _ =>
    some (2, ((BitVec.ofNat (2 * t.width) (a * 2 ^ t.width + b)).rotateRight (c % 256 % (2 * t.width))).toNat / 2 ^ t.width)
  | .vclz _ t _ => some (2, ((List.range t.width).countP fun k => a < 2 ^ k : Nat))
  | .vpopc _ t _ => some (2, ((List.range t.width).countP fun k => a.testBit k : Nat))
  | _ => none

/-- The same for elements of a floating-point type (R137 to R141, R159, R161): no class where the latency varies. Every result
is one rounding of the exact one, or what R70 gives. -/
def floatElem (i : Instr) (a b c : Nat) : Option (Option Nat × Nat) :=
  let mode (o : Op) : Nat := if o.mod then 1 else 0
  match i with
  | .vadd _ t o => some (some 2, (Fmt.of t).round (mode o) (((Fmt.of t).val a).add false ((Fmt.of t).val b)))
  | .vsub _ t o => some (some 2, (Fmt.of t).round (mode o) (((Fmt.of t).val a).add false ((Fmt.of t).val b).neg))
  | .vmul _ t o => some (some 3, (Fmt.of t).round (mode o) (((Fmt.of t).val a).mul ((Fmt.of t).val b)))
  | .vfma _ t o => some (some 3, (Fmt.of t).round (mode o) ((((Fmt.of t).val a).mul ((Fmt.of t).val b)).add false ((Fmt.of t).val c)))
  | .vfms _ t o => some (some 3, (Fmt.of t).round (mode o) ((((Fmt.of t).val a).mul ((Fmt.of t).val b)).add false ((Fmt.of t).val c).neg))
  | .vfnma _ t o => some (some 3, (Fmt.of t).round (mode o) ((((Fmt.of t).val a).neg.mul ((Fmt.of t).val b)).add false ((Fmt.of t).val c)))
  | .vmin _ t _ => some (some 2, (Fmt.of t).minmax false a b)
  | .vmax _ t _ => some (some 2, (Fmt.of t).minmax true a b)
  | .vabs _ t _ => some (some 2, if (Fmt.of t).val a = .nan then (Fmt.of t).nan else a % 2 ^ (t.width - 1))
  | .vneg _ t _ => some (some 2, if (Fmt.of t).val a = .nan then (Fmt.of t).nan else (a + 2 ^ (t.width - 1)) % 2 ^ t.width)
  | .vdiv t o => some (none, (Fmt.of t).div (mode o) ((Fmt.of t).val a) ((Fmt.of t).val b))
  | .vsqrt t o => some (none, (Fmt.of t).sqrt (mode o) ((Fmt.of t).val a))
  | .vrcp t _ => some (some 10, (Fmt.of t).rcp a)
  | .vrsq t _ => some (some 10, (Fmt.of t).rsq a)
  | .vexp2 t _ => some (some 10, (Fmt.of t).exp2 a)
  | .vlog2 t _ => some (some 10, (Fmt.of t).lg2 a)
  | .vtanh t _ => some (some 10, (Fmt.of t).tanh a)
  | .vsigm t _ => some (some 10, (Fmt.of t).sigm a)
  | _ => none

/-- The type of a typed vector operation. -/
def elemTyOf : Instr → Option ElemTy
  | .vadd _ t _ | .vsub _ t _ | .vmul _ t _ | .vmulh _ t _ | .vfma _ t _ | .vfms _ t _ | .vfnma _ t _ | .vmin _ t _ | .vmax _ t _
  | .vabs _ t _ | .vneg _ t _ | .vadds _ t _ | .vsubs _ t _ | .vavg _ t _ | .vshl _ t _ | .vshr _ t _ | .vsra _ t _
  | .vfshl _ t _ | .vfshr _ t _ | .vclz _ t _ | .vpopc _ t _ | .vdiv t _ | .vsqrt t _ | .vrcp t _ | .vrsq t _
  | .vexp2 t _ | .vlog2 t _ | .vtanh t _ | .vsigm t _ => some t
  | _ => none

/-- The exact value that VCVT reads from a source element, and the element it gives (R151). -/
def convertRule (s : ElemTy) (su : Bool) (t : ElemTy) (tu : Bool) (rm x : Nat) : Int :=
  let v : FVal := if s.isFloat then (Fmt.of s).val x else .ofInt (num s.width su x)
  if t.isFloat then (Fmt.of t).round rm v
  else if s.isFloat then satRound rm t.width tu v else limit t.width tu (num s.width su x)

/-- The code that VQNT makes of an FP32 value and multiplier (R152). -/
def quantRule (t : ElemTy) (u : Bool) (rm x m : Nat) : Int :=
  let z : Int := if u then (if t = .i4 then 8 else 128) else 0
  match (Fmt.f32.val x).mul (Fmt.f32.val m) with
  | .nan => z
  | .inf neg => limit t.width u (if neg then -2 ^ t.width else 2 ^ t.width)
  | .fin neg k e => limit t.width u (roundInt rm neg k e + z)

/-! ## Lanes (R165 to R172) -/

/-- The lane that the crossbar gives from the lanes of its sources, the mask or the amount (R166 to R169); `sel` says which
lanes the mask selects, n is the amount. -/
def laneRule (i : Instr) (a b : Nat → Nat) (n : Nat) (sel : Nat → Bool) (e : Nat) : Option Nat :=
  let below (k : Nat) : Nat := (List.range k).countP sel
  match i with
  | .xperm _ => some (if (b e).testBit 31 then 0 else a (b e % 64))
  | .xrot _ => some (a ((e + 64 - n % 64) % 64))
  | .xrotDn _ => some (a ((e + n) % 64))
  | .xzip _ => some (if e % 2 = 0 then a (e / 2) else b (e / 2))
  | .xzipHi _ => some (if e % 2 = 0 then a (32 + e / 2) else b (32 + e / 2))
  | .xunzip _ => some (if e < 32 then a (2 * e) else b (2 * (e - 32)))
  | .xunzipOdd _ => some (if e < 32 then a (2 * e + 1) else b (2 * (e - 32) + 1))
  | .xcmpr _ => some (match (List.range 64).find? fun k => sel k && below k == e with | some k => a k | none => 0)
  | .xexpd _ => some (if sel e then a (below e) else 0)
  | _ => none

/-- The tree of R170 over 2^k elements from element j 2^k up. -/
def treeRule (f : Nat → Nat → Nat) (a : Nat → Nat) : Nat → Nat → Nat
  | 0, j => a j
  | k + 1, j => f (treeRule f a k (2 * j)) (treeRule f a k (2 * j + 1))

/-- The number of levels of the tree over the elements of a type. -/
def treeDepth (t : ElemTy) : Nat := Nat.log2 (2048 / t.width)

/-- The operators of reductions and scans on elements (R170, R137, R140). -/
def reduceRule (t : ElemTy) (unsigned : Bool) (op a b : Nat) : Nat :=
  match op with
  | 0 => if t.isFloat then (Fmt.of t).round 0 (((Fmt.of t).val a).add false ((Fmt.of t).val b)) else (a + b) % 2 ^ t.width
  | 1 => if t.isFloat then (Fmt.of t).minmax false a b else if num t.width unsigned a ≤ num t.width unsigned b then a else b
  | 2 => if t.isFloat then (Fmt.of t).minmax true a b else if num t.width unsigned a ≤ num t.width unsigned b then b else a
  | 3 => a &&& b
  | 4 => a ||| b
  | _ => a ^^^ b

/-- An element condition of VCMP (R144, R123, R129). -/
def elemCondRule (t : ElemTy) (code a b : Nat) : Bool :=
  let w := t.width
  if t.isFloat then
    let x := (Fmt.of t).val a
    let y := (Fmt.of t).val b
    let ordered := x ≠ .nan && y ≠ .nan
    match code with
    | 0 => ordered && !x.lt y && !y.lt x
    | 1 => !ordered || x.lt y || y.lt x
    | 2 => ordered && x.lt y
    | 3 => ordered && !y.lt x
    | _ => !ordered
  else match code with
    | 0 => a == b
    | 1 => a != b
    | 2 => num w false a < num w false b
    | 3 => num w false a ≤ num w false b
    | 4 => a < b
    | _ => a ≤ b

/-- Bit k that a source of an untyped operation supplies (R133): lid its 64 lanes, a scalar its word in every 64-bit piece. -/
def srcBit (p : Port) (x : Val) (k : Nat) : Bool :=
  match p with
  | .lid => (k / 32).testBit (k % 32)
  | _ => if x.wide then x.bits.getLsbD k else x.toWord.getLsbD (k % 64)

/-- Lane e that a source of the crossbar supplies (R133, R165). -/
def srcLane (p : Port) (x : Val) (e : Nat) : Nat :=
  match p with
  | .lid => e
  | _ => if x.wide then elem 32 x.bits.toNat e else elem 32 x.toWord.toNat (e % 2)

/-! ## The pool (R24, R187, R193, R198 to R207) -/

/-- A byte of a core's scratchpad. -/
def Core.byteAt (c : Core) (p : Nat) : Nat := c.scrValue p 1

/-- The write that a command under way has made to a byte of the scratchpad and that an access of the sequencer at this step comes before
(R245, R295, R300): which it comes before is free (log 10). -/
def Core.later (c : Core) (p : Nat) : Option Race := c.races.find? fun r => r.wrote (3, p) && c.early r

/-- The byte as an access of the sequencer sees it: what stood there before such a write. -/
def Core.seenAt (c : Core) (p : Nat) : Nat :=
  match c.later p with
  | some r => r.old.toNat / 2 ^ (8 * (p % 8)) % 2 ^ 8
  | none => c.byteAt p

/-- The sector of a pool byte holds neither poison nor an undetected error, and no bank of its group is being rebuilt. -/
def Core.clean (c : Core) (p : Nat) : Prop :=
  (∀ e ∈ c.poison, e.1 ≠ p / 32) ∧ (∀ e ∈ c.latent, e.1 ≠ p / 32) ∧ (c.group (poolGroup p)).state ≠ 1

/-- May bytes be written: no bank of their groups is being rebuilt, a sector that holds poison is written whole, and the pool holds
no undetected error, neither in what is written nor in what the parity updater reads (R188, R193, R196). -/
def Core.mayWrite (c : Core) (stored : Nat → Prop) : Prop :=
  c.latent = [] ∧ ∀ p, stored p → (c.group (poolGroup p)).state ≠ 1 ∧
    ∀ e ∈ c.poison, e.1 = p / 32 → ∀ q, q / 32 = p / 32 → stored q

/-- Where byte k of what a vector or mask transfer moves lies, from its offset up (R203); `m` is its mask. None where it moves
no such byte. -/
def transferMap (i : Instr) (m : Nat → Bool) (k : Nat) : Option Nat :=
  match i with
  | .ldv _ | .ldvu _ | .stv _ => if k < 256 then some k else none
  | .ldvt _ | .stvt _ => if k < 256 then some (256 * (k / 32) + k % 32) else none
  | .ldvm _ | .stvb _ => if k < 256 ∧ m k = true then some k else none
  | .ldm _ | .stm _ => if k < 32 then some k else none
  | _ => none

/-- The alignment that a transfer asks of its offset (R203). -/
def transferAlign : Instr → Int
  | .ldv _ | .stv _ => 256
  | .ldvt _ | .stvt _ | .ldm _ | .stm _ => 32
  | _ => 1

/-- What a store of the pool leaves (R187, R188): the stored bytes have their values, but for one that the write of a command under way
is to follow; every other byte is as it was, and besides the scratchpad only what the pool keeps of parity, poison and errors, and of the
accesses that race, may differ. -/
def Core.Stored (c d : Core) (value : Nat → Option Nat) : Prop :=
  (∀ p, d.byteAt p = if c.later p = none then (value p).getD (c.byteAt p) else c.byteAt p) ∧
  d = { c with scratch := d.scratch, groups := d.groups, poison := d.poison, latent := d.latent, races := d.races }

/-- The new value of an atomic on w bits by its code (R89, R207). -/
def atomicRule (code w old y : Nat) : Nat :=
  match code with
  | 0 => (old + y) % 2 ^ w
  | 1 => old &&& y
  | 2 => old ||| y
  | 3 => old ^^^ y
  | 4 => if num w false y < num w false old then y else old
  | 5 => if num w false old < num w false y then y else old
  | 6 => if y < old then y else old
  | 7 => if old < y then y else old
  | 8 => y
  | _ => Fmt.f32.round 0 ((Fmt.f32.val old).add false (Fmt.f32.val y))

/-! ## The matrix array (R222 to R243) -/

/-- An FP32 sum rounded (R80). -/
def plusRule (a b : Nat) : Nat := Fmt.f32.round 0 ((Fmt.f32.val a).add false (Fmt.f32.val b))

/-- The balanced tree of R80 over eight values. -/
def octetRule (p : Nat → FVal) : Nat :=
  let pair (i : Nat) : Nat := Fmt.f32.round 0 ((p i).add false (p (i + 1)))
  plusRule (plusRule (pair 0) (pair 2)) (plusRule (pair 4) (pair 6))

/-- Octet sums joined in rising order, n of them from octet k on (R81). -/
def joinRule (f : Nat → Nat) (k n : Nat) : Nat := (List.range (n - 1)).foldl (fun acc j => plusRule acc (f (k + 1 + j))) (f k)

/-- The term of a group (R81): its scale, its zero point, and the sums of its products and of its activations. -/
def termRule (s : FVal) (z P A : Nat) : Nat :=
  Fmt.f32.round 0 (s.mul (Fmt.f32.val (Fmt.f32.round 0 ((Fmt.f32.val P).add false ((FVal.ofInt z).mul (Fmt.f32.val A)).neg))))

/-- An accumulator event issued now for a tile (R225), with the token of the bundle if this operation completes it. -/
def Core.plans (c : Core) (z : Nat) (a : AccAct) : Core :=
  { c with
    arr := { c.arr with events := c.arr.events ++ [⟨c.step + c.lat 7, z, a, c.arr.region.isSome, c.prodTok⟩] }
    prodTok := 0 }

/-- The log of the open region, if it keeps one, with a further item (R422). -/
def Core.logs (c : Core) (x : LogItem) : Core :=
  { c with arr := { c.arr with region := c.arr.region.map fun (r : Region) => { r with log := r.log.map fun l => l ++ [x] } } }

/-- What the audit area still holds beside the log of the open region (R421, R422). -/
def State.auditLeft (s : State) (l : List LogItem) : Nat :=
  s.auditSize - (s.auditTaken - (if logLength l ≤ s.auditSize then logSpace (logLength l) else 0))

/-- Does the log of the open region, if it keeps one, find room for a further item with n bytes of payload (R421)? -/
def State.takesItem (s : State) (n : Nat) : Prop :=
  ∀ r l, s.core.arr.region = some r → r.log = some l → logSpace (logLength l + 8 + n) ≤ s.auditLeft l

/-- Is the region of a tile open, with a pair configured (R230)? -/
def Core.openOn (c : Core) (z : Nat) : Prop := c.arr.pair ≤ 5 ∧ ∃ r, c.arr.region = some r ∧ r.tile = z

/-- May a row be pushed (R224, R230, R231): in a grouped pair with groups of two rows, halves come in turn. -/
def Core.inTurn (c : Core) (z : Fin 8) : Prop :=
  (c.arr.pair = 4 ∨ c.arr.pair = 5) → (c.arr.buf c.arr.active).gs = 2 →
    ((c.arr.buf c.arr.active).half = 0 ↔ ∀ x ∈ c.arr.carry, x.1 ≠ c.arr.rc[z])

/-- The state after a push of the row `a` of A elements, as logged `raw` (R230, R231). -/
def Core.pushed (c : Core) (z : Fin 8) (a : List Nat) (raw : Nat) : Core :=
  let r := c.arr.rc[z]
  let kept := c.arr.carry.filter fun x => x.1 != r
  let beat := beatTerms c.arr.pair (c.arr.buf c.arr.active) a ((c.arr.carry.find? fun x => x.1 == r).map (·.2))
  let d : Core := { c with arr := { c.arr with
    rc := c.arr.rc.set z ((r + 1) % 64)
    carry := kept ++ (beat.2.map fun x => (r, x)).toList } }
  (d.logs ⟨5, 0, r, 256, raw⟩).plans z (.push r (c.arr.pair ≤ 1) beat.1)

/-- The committed half and the shadow half of a tile (R20). -/
def Tile.front (t : Tile) : Vector Vec 64 := if t.commit1 then t.half1 else t.half0

/-! ## Commands (R244 to R247) -/

/-- A core that hands a command over (R244): it is held until its bundle retires. An HPUB keeps how many regions were committed before it
(R423). -/
def Core.hands (c : Core) (k : CmdKind) (a b cw : Word) (desc : List Byte) (commits : Nat := 0) : Core :=
  { c with
    cmds := c.cmds ++ [⟨c.nextId, k, a, b, cw, desc, [], [], [], c.prodTok, 0, .held, 0, 0, [], [], [], commits⟩]
    nextId := c.nextId + 1, prodTok := 0 }

/-- Has the queue of a command's engine an entry (R244)? -/
def Core.hasEntry (c : Core) (k : CmdKind) : Prop := (c.cmds.countP fun x => x.kind.engine == k.engine) < 16

/-- A pointer on a boundary of n bytes in one of some windows (R246). -/
def pointsTo (ws : List Nat) (n : Nat) (p : Word) : Prop := p.toNat % n = 0 ∧ p.toNat / 2 ^ 60 ∈ ws

/-! ## Control (R100 to R117) -/

/-- A core in which no BR operation has left an action; so it is between executions (R101). -/
def Core.atBranch (c : Core) : Core := { c with act := .none }

/-- A core that goes on in sequence after the bundle at an address, loop ends processed (R102, R106); `yields` says that a YIELD
offers a pre-emption point (R108). -/
def Core.goesOn (c : Core) (addr : Word) (yields : Bool) : Core := ({ c with act := .none, point := false } : Core).advance addr yields

/-- A core that goes on elsewhere with a loop stack. -/
def Core.goesTo (c : Core) (t : Word) (loops : List Level) : Core := { c with act := .none, point := false, pc := t, loops := loops }

/-- Where a trap of an operation alone in its bundle leads, in the state w that the operation left: it is entered (R283 to R285), or
waits where something older does (R196, R284). -/
def State.trapped (s w : State) (slot cause : Nat) (info : Word) : State :=
  if s.core.entryWaits then s.withCore { s.core with stalled := some ⟨slot, 256, false, false⟩ }
  else w.takeTrap ⟨cause, false, slot, info⟩ s.core.bundleAddr 0 false s.core.bundleLoops

/-- The trap that an operation alone in its bundle takes: slot, cause and sr.trapinfo. -/
def TrapsWith (i : Instr) (s : State) (slot cause : Nat) (info : Word) : Prop :=
  exec i s = .next (s.trapped s slot cause info).finish

/-- What MFSR reads of a register after MTSR wrote v to it, by its field access codes (R7, R25 to R30): `old` is what it read
before. -/
def srAfter (c : Core) (i : Nat) (v old : Word) : Word :=
  if i = 0 ∨ i = 3 then BitVec.ofNat 64 (v.toNat / 64 * 64)
  else if i = 1 then BitVec.ofNat 64 (v.toNat % 2 ^ 12)
  else if i = 2 then v
  else if i = 5 then BitVec.ofNat 64 (v.toNat % 64)
  else if 16 ≤ i ∧ (i - 16) / 4 < c.tls.length then
    if (i - 16) % 4 < 2 then BitVec.ofNat 64 (v.toNat / 64 * 64) else BitVec.ofNat 64 (v.toNat % 2 ^ 32)
  else old

/-- A destination names a register or a queue that exists (R11, R15). -/
def Dest.exists' : Dest → Bool
  | .none | .cq => true
  | .s n | .v n => n < 64
  | .m n | .f n | .ap n => n < 8
  | .dq n => n < 4
  | .eq n => n < 2
  | .entry n _ => n < 4

/-- What the delivery of a value to a destination does (R12, R50, R52, R134, R212): the register, the end of the queue or the reserved
entry named holds it, every other register and queue of the core is as it was. -/
def Core.Wrote (c d : Core) (x : Val) (issue : Nat) (dst : Dest) : Prop :=
  let entry : QEntry := ⟨x, issue, none⟩
  let filled (id : Nat) (e : QEntry) : QEntry := if e.reserved = some id then { e with val := x, reserved := none } else e
  (∀ n : Fin 64, d.getS n = if dst = .s n ∧ n ≠ 0 then x.toWord else c.getS n) ∧
  (∀ n : Fin 64, d.getV n = if dst = .v n then x.bits else c.getV n) ∧
  (∀ n : Fin 8, d.getM n = if dst = .m n ∧ n ≠ 0 then x.bits.setWidth 256 else c.getM n) ∧
  (∀ n : Fin 8, d.getF n = if dst = .f n ∧ n ≠ 0 then x.bits.getLsbD 0 else c.getF n) ∧
  (∀ n : Fin 8, d.aps[n] = if dst = .ap n then x.bits.setWidth 192 else c.aps[n]) ∧
  (∀ n : Fin 4, (dst = .dq n → d.dq[n] = c.dq[n] ++ [entry]) ∧ (∀ id, dst = .entry n id → d.dq[n] = c.dq[n].map (filled id)) ∧
    (dst ≠ .dq n → (∀ id, dst ≠ .entry n id) → d.dq[n] = c.dq[n])) ∧
  (∀ n : Fin 2, d.eq[n] = if dst = .eq n then c.eq[n] ++ [entry] else c.eq[n]) ∧
  (d.cq = if dst = .cq then c.cq ++ [entry] else c.cq)

/-- Nothing of a core differs but its registers, its queues, its latches, its tokens, the results under way and, where a vector
register was written, what the pool keeps of parity and errors, with what it records of those. -/
def Core.sameBut (c d : Core) : Prop :=
  d = { c with
    sregs := d.sregs, vregs := d.vregs, mregs := d.mregs, flags := d.flags, aps := d.aps, dq := d.dq, eq := d.eq, cq := d.cq
    latches := d.latches, tokens := d.tokens, pending := d.pending, vars := d.vars
    groups := d.groups, poison := d.poison, latent := d.latent, bankUe := d.bankUe, freeze := d.freeze, recs := d.recs }

/-- A core whose older results are delivered (R32, R284, R288): variable-latency results with the values they have, then the others in the
order of delivery, then the accumulator events act. -/
def Core.older (b : Core) : Core :=
  let c := b.vars.foldl (fun (d : Core) v => match v.kind with
    | .value x | .held x => d.writeVar v x
    | _ => d) b
  let d := c.pending.foldl Core.deliver { c with pending := [] }
  d.arr.events.foldl Core.actEvent { d with arr := { d.arr with events := [] } }

/-- Two cores with the same registers, queues, tiles, bench and scratchpad. -/
def Core.sameData (c d : Core) : Prop :=
  d.sregs = c.sregs ∧ d.vregs = c.vregs ∧ d.mregs = c.mregs ∧ d.flags = c.flags ∧ d.aps = c.aps ∧ d.tiles = c.tiles ∧ d.dq = c.dq ∧
  d.eq = c.eq ∧ d.cq = c.cq ∧ d.bench = c.bench ∧ d.scratch = c.scratch ∧ d.leftover = c.leftover ∧ d.patterns = c.patterns

/-! ## Tasks (R329, R361) -/

/-- What R329 and R361 put into scalar register n at the dispatch of a task; 0 where they put nothing. -/
def State.paramRule (s : State) (x : Task) (coord : List Nat) (n : Nat) : Nat :=
  let c (j : Nat) : Nat := coord.getD j 0
  match s.launch? x.launch, s.ggemm? x.launch with
  | some l, _ =>
    let out := l.output coord
    if 48 ≤ n ∧ n < 56 then x.path.getD (n - 48) 0
    else if n = 56 then c 0 + 2 ^ 32 * c 1
    else if n = 57 then c 2 + 2 ^ 32 * x.rank
    else if n = 58 then out.1.toNat
    else if n = 59 then out.2
    else if n = 60 then l.param.toNat
    else if n = 61 then l.depth % 2 ^ 8 + 2 ^ 8 * (recLevels l.bytes - 1)
    else 0
  | none, some g =>
    if n = 48 then c 0 else if n = 49 then c 1 else if n = 50 then c 2
    else if n = 51 then (match g.recs[c 0]? with
      | some r => r.m
      | none => 0)
    else if n = 56 then c 0 + 2 ^ 32 * c 1
    else if n = 57 then c 2
    else if n = 60 then g.base.toNat + 64 * c 0
    else if n = 61 then g.depth % 2 ^ 8
    else 0
  | none, none => 0

/-- The state of R31 and R173 at the dispatch of a task, but for its parameter registers; `kernel` is its kernel record. -/
def Core.dispatched (c d : Core) (ctx level : Nat) (entry : Word) (kernel : List Byte) : Prop :=
  d.run = .running ∧ d.pc = entry ∧ d.step = 0 ∧ (∀ n, d.getS n = 0) ∧ (∀ n, n ≠ 0 → d.getM n = 0) ∧
  (∀ n, n ≠ 0 → d.getF n = false) ∧ (∀ n : Fin 8, d.aps[n] = 0) ∧ (∀ n : Fin 4, d.dq[n] = []) ∧ (∀ n : Fin 2, d.eq[n] = []) ∧
  d.cq = [] ∧ d.latches = Latches.empty ∧ d.loops = [] ∧ d.pending = [] ∧ d.vars = [] ∧ d.cmds = [] ∧
  (∀ q : Fin 4, d.bench[q] = ⟨0, []⟩) ∧ (∀ k : Fin 32, d.tokens[k] = .complete) ∧ (∀ q : Fin 4, d.chans[q] = ⟨0, none, 0⟩) ∧
  (∀ (p : Fin 8) (k : Nat), k < 2048 → elem 16 (d.patterns[p]).toNat k = 0x1000) ∧ d.arr = MxArray.zero ∧
  d.tvec = 0 ∧ d.rptidx = 0 ∧ d.intrap = false ∧ d.preq = false ∧ d.inrpt = false ∧ d.degr = c.degr ∧ d.ctx = ctx ∧ d.level = level ∧
  d.lgen = c.lgen + 1 ∧ d.partition = field kernel 0x10 4 ∧ d.kernel = kernelOfBytes kernel ∧
  (c.ctx ≠ ctx → (∀ n, d.getV n = 0) ∧ (∀ z : Fin 8, d.tiles[z] = Tile.zero) ∧ (∀ p, d.byteAt p = 0) ∧ d.poison = [])

/-- What a stop leaves of a core for its save (R32, R250, R284, R384): what is older has completed, and no copy that can be squashed
has moved. -/
def Core.stopped (image : Core) : Prop :=
  image.pending = [] ∧ image.vars = [] ∧ image.arr.events = [] ∧ image.arr.region = none ∧ image.cur = none ∧ image.stalled = none ∧
  ∀ y ∈ image.cmds, y.kind.onChannel = true → y.kind ≠ .cpyr → y.phase ≠ .started

/-! ## Memory behind the LLC (R368, R393, R425 to R430) -/

/-- Nothing is under way below the LLC, and no error waits to be found there or in the LLC. -/
def MemState.still (m : MemState) : Prop :=
  m.hbmErr = [] ∧ m.flashErr = [] ∧ m.flashMet = [] ∧ (∀ x ∈ m.llc, x.err = 0) ∧
  ∀ x ∈ m.chans, x.bad = [] ∧ x.reqs = [] ∧ x.waiting = [] ∧ x.held = [] ∧ x.state ≠ 1

/-- The byte of a target as an access finds it: that of the copy in the LLC, else of what is stored below, read with its key. -/
def MemState.byteRule (m : MemState) (t : Target) : Nat :=
  elem 8 (match m.sector? t.kind (t.addr / 32) with
    | some x => x.data
    | none => m.below t.kind (t.addr / 32) t.key).toNat (t.addr % 32)

/-- Two targets lie in one sector. -/
def Target.joins (t u : Target) : Prop := t.kind = u.kind ∧ t.addr / 32 = u.addr / 32

/-- Bytes that an access reaches with nothing met: all is still below the LLC, which has room for them, their sectors are good, and a
copy that is held is held under their key. -/
def MemState.plain (m : MemState) (ts : List Target) : Prop :=
  m.still ∧ m.llc.length + 8 ≤ llcSectors ∧ m.races = [] ∧ (ts.map fun t => (t.kind, t.addr)).Nodup ∧
  ∀ t ∈ ts, m.badAt t = false ∧ (t.kind = 2 → m.linkUp = true) ∧
    (∀ x, m.sector? t.kind (t.addr / 32) = some x → x.key = t.key) ∧ ∀ u ∈ ts, t.joins u → t.key = u.key

/-- Memory m' is m after accesses of a context to some bytes, which stored the values given there: these stand dirty in the LLC with the tag
of the context (R368), every other byte is as before, and besides the LLC only what reads move of the channels, what they have read of flash
and the notes of what tables held (R305) may change. -/
def MemState.Accessed (m m' : MemState) (ctx : Nat) (ts : List Target) (value : Nat → Option Nat) : Prop :=
  m' = { m with llc := m'.llc, chans := m'.chans, pageBuf := m'.pageBuf, pageReads := m'.pageReads, changes := m'.changes } ∧
  m.changes <+: m'.changes ∧ ((∀ k, value k = none) → m'.changes = m.changes) ∧
  (∀ k t, ts[k]? = some t → m'.byteRule t = (value k).getD (m.byteRule t)) ∧
  (∀ k t, ts[k]? = some t → value k ≠ none → ∃ x, m'.sector? t.kind (t.addr / 32) = some x ∧ x.dirty = true ∧ x.owner = ctx) ∧
  ∀ u, (∀ k t, ts[k]? = some t → t.joins u → t.key = u.key ∧ (t.addr = u.addr → value k = none)) → m'.byteRule u = m.byteRule u

/-! ## Translation (R370 to R372) -/

/-- The entry at a physical address that nothing keeps from being read. -/
def MemState.entryRule (m : MemState) (pa : Nat) : Nat := m.hbmWord (pa / 32) (pa % 32 / 8)

/-- It lies in a good sector of HBM, with nothing under way. -/
def MemState.entryGood (m : MemState) (pa : Nat) : Prop := m.still ∧ m.badAt ⟨0, pa, 0, 0⟩ = false

/-- A valid table entry of a level (R371). -/
def tableEntry (level e : Nat) : Prop :=
  e % 2 = 1 ∧ e / 2 % 2 ^ 5 = 0 ∧ e / 2 ^ 6 % 2 = 0 ∧ e / 2 ^ 7 % 2 = 0 ∧ (level ≤ 1 → e / 2 ^ 8 % 2 ^ 4 = 0) ∧ e / 2 ^ 48 % 2 ^ 16 = 0

/-- A valid leaf of a level (R371): pages are of 2 MiB at level 2. -/
def leafEntry (level e : Nat) : Prop :=
  e % 2 = 1 ∧ e / 2 % 2 ^ 2 = 0 ∧ e / 2 ^ 7 % 2 ^ 6 = 0 ∧ e / 2 ^ 13 % 2 ^ 3 < 3 ∧ e / 2 ^ 6 % 2 = (if level = 2 then 1 else 0) ∧
    (level = 2 → e / 2 ^ 16 % 2 ^ 5 = 0)

/-- What a leaf makes of an access of a context to an offset of its page (R372, R375, R416). -/
def MemState.leafRule (m : MemState) (y : Ctx) (e off : Nat) (a : Access) (r : Except Nat Target) : Prop :=
  let kind := e / 2 ^ 13 % 2 ^ 3
  let addr := e / 2 ^ 16 % 2 ^ 32 * 2 ^ 16 + off
  let key := e / 2 ^ 52 % 2 ^ 12
  let rd := e / 2 ^ 3 % 2 = 1
  let wr := e / 2 ^ 4 % 2 = 1
  let absent : Prop := (kind = 1 ∧ (wr ∨ addr / 2 ^ 16 ∉ m.mapped)) ∨ (kind = 0 ∧ addr / 2 ^ 16 ∈ m.frames)
  let may : Prop := y.keylo ≤ key ∧ key < y.keylo + y.keycnt ∧ (kind = 2 ∨ (m.key key).isSome = true) ∧
    match a with
    | .read => rd
    | .write => wr
    | .atomic => rd ∧ wr
    | .fetch => e / 2 ^ 5 % 2 = 1
    | .flush => True
  (absent → r = .error 0x09) ∧ (¬absent → a ≠ .flush → ¬may → r = .error 0x0A) ∧
    (¬absent → a = .flush ∨ may → r = .ok (m.place ⟨kind, addr, key, e / 2 ^ 48 % 2 ^ 4⟩))

/-! ## Flash blocks (R437, R438, R464) -/

/-- The relocation of a block to the free block d begins: `retire` is the CODE of a retirement that follows it. -/
def State.moving (s : State) (st b d why : Nat) (retire : Option Nat) : State :=
  let x := s.block st b
  let t : State := { s with flash := { s.flash with deferred := s.flash.deferred.filter fun y => !(y.1 == st && y.2.1 == b) } }
  (t.setBlock { s.block st d with state := 1, filled := (s.unitsOf st b).length }).setBlock
    { x with state := 2, toBlock := some d, why := why, trigger := x.reads, retire := retire }

/-- The relocation of a block waits for a free one, behind those that wait already; one that waits itself keeps its place. -/
def State.putOff (s : State) (st b why : Nat) : State :=
  let x := s.block st b
  let this (y : Nat × Nat × Nat) : Bool := y.1 == st && y.2.1 == b
  let queue := if s.flash.deferred.any this then s.flash.deferred.map fun y => if this y then (st, b, why) else y
    else s.flash.deferred ++ [(st, b, why)]
  ({ s with flash := { s.flash with deferred := queue } } : State).setBlock { x with trigger := x.reads }

/-- A relocation that the engine itself asks for (R437, R464): it begins on a free block unless older ones of its stack wait, behind which it
then waits; one that waits already goes on waiting. -/
def State.Relocated (s : State) (st b why : Nat) (P : State → Prop) : Prop :=
  let waits : Prop := ∃ y ∈ s.flash.deferred, y.1 = st ∧ y.2.1 = b
  let older : Prop := ∃ y ∈ s.flash.deferred, y.1 = st
  (waits → P s) ∧ (¬waits → older ∨ s.freeBlock st = none → P (s.putOff st b why)) ∧
  (¬older → ∀ d, s.freeBlock st = some d → P (s.moving st b d why none))

/-! ## Launches and publications (R267, R331, R339) -/

/-- A launcher or publisher goes on: a command takes its code, a list goes to its next entry. -/
def State.goesOnWith (s : State) (via : Publisher) (code detail : Nat) : State :=
  match via with
  | .core k id => s.modCore k fun (c : Core) =>
      { c with cmds := c.cmds.map fun (x : Cmd) => if x.id == id then { x with phase := .done code detail } else x }
  | .list j => s.setList j { s.list j with wait := .none, pos := (s.list j).pos + 1 }
  | .tile _ => s

/-- The outcome of a launch by R331: the lowest code its tiles reported, from the tile whose path comes first. -/
def outcomeRule (fails : List TileFail) (code detail : Nat) : Prop :=
  ((∀ f ∈ fails, f.code = 0) → code = 0 ∧ detail = 0) ∧ (∀ f ∈ fails, f.code ≠ 0 → code ≠ 0 ∧ code ≤ f.code) ∧
  (code ≠ 0 → ∃ f ∈ fails, f.code = code ∧ f.detail = detail ∧ ∀ g ∈ fails, g.code = code → pathLt g.path f.path = false)

/-- The condition of a list entry on a word (R332). -/
def Entry.meets (e : Entry) (w : Nat) : Prop :=
  let v := BitVec.ofNat 64 w &&& e.b
  if e.cond = 0 then v = e.c else if e.cond = 1 then v ≠ e.c else e.c.toNat ≤ v.toNat

/-- A command of a context that ends at once (R366, R367, R394): CTXCMD names it last, and vector 65 is raised. -/
def State.ctxDone (s : State) (c : Nat) : State := { s with host := { s.host with lastCtx := c } }.raise 65

/-- The writable bits of the host's configuration registers (R390). -/
def configMask (off : Nat) : Option Word :=
  match off with
  | 0x1000 => some 0xFFFFFFFFFFFFFFC0
  | 0x1008 => some 0x001FFFFF001FFFFF
  | 0x1100 => some 0xFFFFFFFFFFFC0000
  | 0x1200 => some 0xFFFFFFFFFFFF0000
  | 0x1208 => some 0x000000FFFFF00003
  | 0x1300 => some 0xFFFFFFFFC000FFFF
  | 0x1308 => some 0x0000000000001FFF
  | 0x1400 => some 0xFFFF01FF03FF0001
  | 0x1408 => some 0x03FFFFFFC0000000
  | 0x1410 => some 0x00000FFF00000FFF
  | 0x1500 => some 0x000000000000001F
  | 0x10110 => some 0xFFFFFFFFFFFF0000
  | 0x10118 => some 0x00000000FFFFFFFF
  | _ => none

end Machine
end Sys2Proof
end

