-- ==== Sys2Proof/Certificates/Slice0/Obligations.lean ====
section
/-! DEFINITION. The statements for the provers. -/
open Sys2Proof Sys2Proof.Machine

/-! ## Scalar arithmetic -/

/-- R119 to R122, R124 to R126: every fixed-latency scalar operation on integers and bits owes the result that the rules give,
at its latency class, and changes nothing else but what reading its sources takes. -/
def Obligations.ScalarIntegers : Prop :=
  ∀ (i : Instr) (row : Row) (o : Op) (s : State) (c : Core) (x : Srcs) (k : Nat) (P : Word → Prop),
    i.info = some (row, o) → s.core.guardHolds o = true → s.core.operands i = .ok (c, x) →
    scalarRule i x.a.toWord x.b.toWord x.c.toWord = some (k, P) →
    ∃ r, P r ∧ Completes i s (s.withCore (c.owes k .sc o.dst (.word r)))

/-- R67, R119, R54: DIV and REM leave their destination empty until the quotient or the remainder is written.

R123, R127, R129: the operations that write a flag. -/
def Obligations.DivisionsAndFlags : Prop :=
  (∀ (o : Op) (s : State) (c : Core) (x : Srcs), s.core.guardHolds o = true →
    (s.core.operands (.div o) = .ok (c, x) → Completes (.div o) s
      (s.withCore (c.awaits .sc o.dst (.value (.word (divRule o.mod x.a.toWord x.b.toWord).1))))) ∧
    (s.core.operands (.rem o) = .ok (c, x) → Completes (.rem o) s
      (s.withCore (c.awaits .sc o.dst (.value (.word (divRule o.mod x.a.toWord x.b.toWord).2)))))) ∧
  (∀ (o : Op) (s : State) (c : Core) (x : Srcs), s.core.guardHolds o = true →
    let leaves (i : Instr) (b : Bool) : Prop := s.core.operands i = .ok (c, x) →
      Completes i s (s.withCore (c.owes 0 .sc o.dst (.word (if b then 1 else 0))))
    leaves (.cmp o) (compareRule x.c.toWord.toNat x.a.toWord x.b.toWord) ∧
    leaves (.flagop o) (x.c.toWord.toNat.testBit
      ((if x.a.toWord = 0 then 0 else 2) + (if x.b.toWord = 0 then 0 else 1))) ∧
    leaves (.fcmp o) (elemCondRule .f32 x.c.toWord.toNat (x.a.toWord.setWidth 32).toNat (x.b.toWord.setWidth 32).toNat))

/-- R128, R130: the scalar operations on floating-point values round the exact result once. -/
def Obligations.ScalarFloats : Prop :=
  ∀ (i : Instr) (row : Row) (o : Op) (s : State) (c : Core) (x : Srcs) (k : Nat) (r : Word),
    i.info = some (row, o) → s.core.guardHolds o = true → s.core.operands i = .ok (c, x) →
    floatRule i x.a.toWord x.b.toWord x.c.toWord = some (k, r) →
    Completes i s (s.withCore (c.owes k .sc o.dst (.word r)))

/-- R131, R18: APSET owes the register {w2, w1, w0} where it is a legal pattern, else it traps with cause 0x02 and the slot word;
APGET owes one of the three words of the register. -/
def Obligations.AddressPatterns : Prop :=
  ∀ (o : Op) (s : State) (c : Core) (x : Srcs), s.core.guardHolds o = true →
    (s.core.operands (.apset o) = .ok (c, x) →
      let w0 := x.a.toWord
      let legal := w0.toNat / 2 ^ 20 % 2 ^ 4 ≤ 8 ∧ w0.toNat / 2 ^ 44 = 0 ∧ x.c.toWord.toNat / 2 ^ 56 = 0
      (legal → Completes (.apset o) s (s.withCore (c.owes 0 .sc o.dst
        (.vec ((x.c.toWord ++ x.b.toWord ++ w0).setWidth 2048))))) ∧
      (¬legal → TrapsWith (.apset o) s 1 0x02 (Instr.slotWord (.apset o)))) ∧
    (∀ n : Fin 8, o.op1 = .ap n → s.core.operands (.apget o) = .ok (c, x) →
      ∃ r : Word, (∀ k, k < 64 → r.getLsbD k = (c.aps[n]).getLsbD (64 * x.b.toWord.toNat + k)) ∧
        Completes (.apget o) s (s.withCore (c.owes 0 .sc o.dst (.word r))))

/-! ## Vector operations -/

/-- R137 to R143, R147 to R149: the elementwise operations on integer elements of VA and VB. -/
def Obligations.VectorIntegers : Prop :=
  ∀ (i : Instr) (row : Row) (o : Op) (s : State) (c : Core) (x : Srcs) (t : ElemTy) (k : Nat) (f : Nat → Nat → Nat → Int),
    i.info = some (row, o) → s.core.guardHolds o = true → s.core.operands i = .ok (c, x) →
    elemTyOf i = some t → i.typeOk = true → t.isFloat = false → (∀ a b d, integerElem i a b d = some (k, f a b d)) →
    ∃ v : Vec,
      (∀ e, e < 2048 / t.width → elem t.width v.toNat e =
        wrap t.width (f (srcElem t.width o.op1 x.a e) (srcElem t.width o.op2 x.b e) (srcElem t.width o.op3 x.c e))) ∧
      Completes i s (s.withCore (c.owes k row.slot o.dst (.vec v)))

/-- R137 to R141, R159, R161: the elementwise operations on floating-point elements; VDIV and VSQRT are variable-latency. -/
def Obligations.VectorFloats : Prop :=
  ∀ (i : Instr) (row : Row) (o : Op) (s : State) (c : Core) (x : Srcs) (t : ElemTy) (l : Option Nat) (f : Nat → Nat → Nat → Nat),
    i.info = some (row, o) → s.core.guardHolds o = true → s.core.operands i = .ok (c, x) →
    elemTyOf i = some t → i.typeOk = true → t.isFloat = true → (∀ a b d, floatElem i a b d = some (l, f a b d)) →
    ∃ v : Vec,
      (∀ e, e < 2048 / t.width → elem t.width v.toNat e =
        f (srcElem t.width o.op1 x.a e) (srcElem t.width o.op2 x.b e) (srcElem t.width o.op3 x.c e) % 2 ^ t.width) ∧
      Completes i s (s.withCore (match l with
        | some k => c.owes k row.slot o.dst (.vec v)
        | none => c.awaits row.slot o.dst (.value (.vec v))))

/-- R150 to R154: conversions, quantisation and dot products mix widths; every bit they do not define is zero. The model's
choices: VDQNT counts an integer zero as +0 (log 76), and lid is read at the width of the operand (log 79). -/
def Obligations.VectorConversions : Prop :=
  ∀ (u : VU) (t : ElemTy) (o : Op) (s : State) (c : Core) (x : Srcs), s.core.guardHolds o = true →
    let leaves (i : Instr) (k w : Nat) (f : Nat → Nat) : Prop := s.core.operands i = .ok (c, x) → i.typeOk = true →
      ∃ v : Vec, (∀ e, e < 2048 / w → elem w v.toNat e = f e) ∧ Completes i s (s.withCore (c.owes k u.slot o.dst (.vec v)))
    (leaves (.vcvt u t o) 2 t.width fun e =>
      let st := ElemTy.ofCode (x.b.toWord.toNat % 8)
      if e < 2048 / max st.width t.width then
        wrap t.width (convertRule st (8 ≤ x.b.toWord.toNat) t o.mod x.c.toWord.toNat (srcElem st.width o.op1 x.a e))
      else 0) ∧
    (leaves (.vqnt u t o) 3 t.width fun e =>
      if e < 64 then wrap t.width (quantRule t o.mod x.c.toWord.toNat (srcElem 32 o.op1 x.a e) (srcElem 32 o.op2 x.b e)) else 0) ∧
    (leaves (.vdqnt u t o) 3 32 fun e =>
      Fmt.f32.round 0 ((Fmt.f32.val (srcElem 32 o.op2 x.b e)).mul
        (.ofInt (num t.width o.mod (srcElem t.width o.op1 x.a e) - num 32 false (srcElem 32 o.op3 x.c e))))) ∧
    (leaves (.vdot4 u t o) 3 32 fun e =>
      let p (j : Nat) : Int := num 8 o.mod (srcElem 8 o.op1 x.a (4 * e + j)) * num 8 o.mod (srcElem 8 o.op2 x.b (4 * e + j))
      wrap 32 (srcElem 32 o.op3 x.c e + p 0 + p 1 + p 2 + p 3))

/-- R144, R157, R158: compares and the algebra of masks; VMPOPC and VMFIRST count byte lanes, and to a scalar register their
latency varies (R134). -/
def Obligations.VectorMasks : Prop :=
  ∀ (u : VU) (t : ElemTy) (o : Op) (s : State) (c : Core) (x : Srcs), s.core.guardHolds o = true →
    let masks (i : Instr) (f : Nat → Bool) : Prop := s.core.operands i = .ok (c, x) → i.typeOk = true → i.selectorBad = none →
      ∃ v : Vec, (∀ j, v.getLsbD j = (decide (j < 256) && f j)) ∧ Completes i s (s.withCore (c.owes 2 u.slot o.dst (.vec v)))
    let counts (i : Instr) (n : Nat) : Prop := s.core.operands i = .ok (c, x) →
      Completes i s (s.withCore (match o.dst with
        | .s _ => c.awaits u.slot o.dst (.value (.word (BitVec.ofNat 64 n)))
        | _ => c.owes 2 u.slot o.dst (.word (BitVec.ofNat 64 n))))
    (masks (.vcmp u t o) fun j => elemCondRule t x.c.toWord.toNat (srcElem t.width o.op1 x.a (8 * j / t.width))
      (srcElem t.width o.op2 x.b (8 * j / t.width))) ∧
    (masks (.vmand u o) fun j => x.a.bits.getLsbD j && x.b.bits.getLsbD j) ∧
    (masks (.vmor u o) fun j => x.a.bits.getLsbD j || x.b.bits.getLsbD j) ∧
    (masks (.vmnot u o) fun j => !x.a.bits.getLsbD j) ∧
    counts (.vmpopc u o) ((List.range 256).countP fun j => x.a.bits.getLsbD j) ∧
    counts (.vmfirst u o) (((List.range 256).find? fun j => x.a.bits.getLsbD j).getD 256)

/-- R145, R146, R155, R156: the bitwise operations, selection by byte, broadcast and index vectors. -/
def Obligations.VectorBits : Prop :=
  ∀ (u : VU) (t : ElemTy) (o : Op) (s : State) (c : Core) (x : Srcs), s.core.guardHolds o = true →
    let a := srcBit o.op1 x.a
    let b := srcBit o.op2 x.b
    let leaves (i : Instr) (P : Vec → Prop) : Prop := s.core.operands i = .ok (c, x) → i.typeOk = true →
      ∃ v : Vec, P v ∧ Completes i s (s.withCore (c.owes 2 u.slot o.dst (.vec v)))
    let bits (i : Instr) (f : Nat → Bool) : Prop := leaves i fun v => ∀ k, k < 2048 → v.getLsbD k = f k
    (bits (.vand u o) fun k => a k && b k) ∧ (bits (.vor u o) fun k => a k || b k) ∧ (bits (.vxor u o) fun k => a k != b k) ∧
    (bits (.vandn u o) fun k => a k && !b k) ∧ (bits (.vnot u o) fun k => !a k) ∧ bits (.vmov u o) a ∧
    (bits (.vsel u o) fun k => if x.a.bits.getLsbD (k / 8) then b k else srcBit o.op3 x.c k) ∧
    (leaves (.vbcst u t o) fun v => ∀ e, e < 2048 / t.width →
      elem t.width v.toNat e = srcElem t.width o.op1 x.a (x.b.toWord.toNat % (2048 / t.width))) ∧
    (leaves (.viota u t o) fun v => ∀ e, e < 2048 / t.width →
      elem t.width v.toNat e = (x.a.toWord.toNat + e * x.b.toWord.toNat) % 2 ^ t.width)

/-! ## The crossbar, the bit network and the bench -/

/-- R166 to R169: each lane of a permute, a rotate, an interleave, a compress or an expand.

R166: XPERMV sends each lane to its target; when two lanes name one, it traps with cause 0x05 and names the lowest such
target and its two lowest sources. -/
def Obligations.LaneMoves : Prop :=
  (∀ (i : Instr) (row : Row) (o : Op) (s : State) (c : Core) (x : Srcs),
    i.info = some (row, o) → s.core.guardHolds o = true → s.core.operands i = .ok (c, x) →
    let rule := laneRule i (srcLane o.op1 x.a) (srcLane o.op2 x.b) x.b.bits.toNat fun k => x.b.bits.getLsbD (4 * k)
    (rule 0).isSome →
    ∃ v : Vec, (∀ e, e < 64 → rule e = some (elem 32 v.toNat e)) ∧
      Completes i s (s.withCore (c.owes 4 .xn o.dst (.vec v)))) ∧
  (∀ (o : Op) (s : State) (c : Core) (x : Srcs), s.core.guardHolds o = true → s.core.operands (.xpermv o) = .ok (c, x) →
    let a := srcLane o.op1 x.a
    let aims (i t : Nat) : Prop := i < 64 ∧ (srcLane o.op2 x.b i).testBit 31 = false ∧ srcLane o.op2 x.b i % 64 = t
    ((∀ i j t, aims i t → aims j t → i = j) →
      ∃ v : Vec, (∀ i t, aims i t → elem 32 v.toNat t = a i) ∧ (∀ t, t < 64 → (∀ i, ¬aims i t) → elem 32 v.toNat t = 0) ∧
        Completes (.xpermv o) s (s.withCore (c.owes 4 .xn o.dst (.vec v)))) ∧
    (∀ i j t, aims i t → aims j t → i < j → (∀ k, aims k t → k < j → k = i) →
      (∀ t' k l, t' < t → aims k t' → aims l t' → k = l) →
      TrapsWith (.xpermv o) s 6 0x05 (BitVec.ofNat 64 (t + 2 ^ 8 * i + 2 ^ 16 * j))))

/-- R170 to R172: reductions in the fixed tree, scans from left to right, and extrema of groups. A reduction whose DST is cq pushes bit 0 of
its vector form, which hxn holds whole (R16). The model's choices: the operator and the group size stand in OP2, as R95 has it and R170
to R172 have not (log 34), and a scan copies element 0 as it stands (log 93). -/
def Obligations.Reductions : Prop :=
  ∀ (t : ElemTy) (o : Op) (s : State) (c : Core) (x : Srcs), s.core.guardHolds o = true → TyClass.iF.has t = true →
    let w := t.width
    let n := 2048 / w
    let a := srcElem w o.op1 x.a
    let op := reduceRule t o.mod x.b.toWord.toNat
    let leaves (i : Instr) (f : Nat → Nat) : Prop := s.core.operands i = .ok (c, x) → i.selectorBad = none →
      ∃ v : Vec, (∀ e, e < n → elem w v.toNat e = f e) ∧ Completes i s (s.withCore (c.owes 6 .xn o.dst (.vec v)))
    let group (code e : Nat) : Nat :=
      let g := min (2 ^ x.b.toWord.toNat) n
      (List.range g).foldl (fun acc j => reduceRule t o.mod code acc (a (e / g * g + j))) (a (e / g * g))
    (match o.dst with
      | .s _ => s.core.operands (.xred t o) = .ok (c, x) → (Instr.xred t o).selectorBad = none →
          let r := treeRule op a (treeDepth t) 0
          Completes (.xred t o) s (s.withCore (c.awaits .xn o.dst (.value (.word
            (if t.isFloat then BitVec.ofNat 64 r else BitVec.ofInt 64 (num w o.mod r))))))
      | .cq => s.core.operands (.xred t o) = .ok (c, x) → (Instr.xred t o).selectorBad = none →
          ∃ v : Vec, (∀ e, e < n → elem w v.toNat e = treeRule op a (treeDepth t) 0) ∧
            Completes (.xred t o) s (s.withCore (c.owesBoth 6 .xn .cq (.vec v) (.vec v)))
      | _ => leaves (.xred t o) fun _ => treeRule op a (treeDepth t) 0) ∧
    (leaves (.xscan t o) fun e => (List.range e).foldl (fun acc j => op acc (a (j + 1))) (a 0)) ∧
    leaves (.xgmax t o) (group 2) ∧ leaves (.xgmin t o) (group 1)

/-- R173 to R175: XBNLD replaces one part of a pattern, or traps with cause 0x04 when there is no such part; XBNET routes each bit
through its pattern. -/
def Obligations.BitNetwork : Prop :=
  ∀ (o : Op) (s : State) (c : Core) (x : Srcs), s.core.guardHolds o = true →
    (s.core.operands (.xbnld o) = .ok (c, x) →
      let p := x.a.toWord.toNat
      let q := x.b.toWord.toNat
      (q ≤ 15 → ∃ pats : Vector (BitVec 32768) 8,
        (∀ (r : Fin 8) (k : Nat), pats[r].getLsbD k =
          if r.val = p ∧ 2048 * q ≤ k ∧ k < 2048 * q + 2048 then srcBit o.op3 x.c (k - 2048 * q) else (c.patterns[r]).getLsbD k) ∧
        Completes (.xbnld o) s (s.withCore ({ c with patterns := pats }))) ∧
      (15 < q → TrapsWith (.xbnld o) s 6 0x04 x.b.toWord)) ∧
    (∀ p : Fin 8, x.c.toWord.toNat = p.val → s.core.operands (.xbnet o) = .ok (c, x) →
      let entry (k : Nat) : Nat := elem 16 (c.patterns[p]).toNat k
      let source (j : Nat) : Bool := if j < 2048 then srcBit o.op1 x.a j else srcBit o.op2 x.b (j - 2048)
      ∃ v : Vec, (∀ k, k < 2048 → v.getLsbD k = (!(entry k).testBit 12 && source (entry k % 4096))) ∧
        Completes (.xbnet o) s (s.withCore (c.owes 5 .xn o.dst (.vec v))))

/-- R177 to R180: XBENCH appends the selected lanes of four registers or traps with cause 0x0D when they do not fit; XDRAIN takes up
to 64 entries, which four registers receive at delivery; XBCNT counts; XBCLR empties and leaves the head. -/
def Obligations.BenchQueues : Prop :=
  ∀ (o : Op) (s : State) (c : Core) (x : Srcs) (q : Fin 4), s.core.guardHolds o = true → x.a.toWord.toNat = q.val →
    let b := c.bench[q]
    let cap := 64 * c.benchD
    let cell (e r : Nat) : Nat := c.benchOff q + 1024 * (e / 64) + 256 * r + 4 * (e % 64)
    (∀ n : Fin 64, o.op3 = .v n → s.core.operands (.xbench o) = .ok (c, x) → c.latent = [] →
      let sel := (List.range 64).filter fun i => x.b.bits.getLsbD (4 * i)
      (b.entries.length + sel.length ≤ cap →
        (∀ k r, k < sel.length → r < 4 → c.clean (cell ((b.head + b.entries.length + k) % cap) r)) →
        ∃ (d : Core) (new : List (BitVec 128)), new.length = sel.length ∧
          (∀ k r, k < sel.length → r < 4 → elem 32 (new.getD k 0).toNat r = elem 32 (c.vregs.toList.getD (n + r) 0).toNat (sel.getD k 0)) ∧
          d = { c with bench := c.bench.set q { b with entries := b.entries ++ new }, groups := d.groups } ∧
          Completes (.xbench o) s (s.withCore d)) ∧
      (cap < b.entries.length + sel.length →
        TrapsWith (.xbench o) s 6 0x0D (BitVec.ofNat 64 (q + 2 ^ 8 * sel.length + 2 ^ 16 * b.entries.length)))) ∧
    (∀ n : Fin 64, o.dst = .v n → s.core.operands (.xdrain o) = .ok (c, x) →
      let k := min 64 b.entries.length
      (∀ e r, e < k → r < 4 → c.clean (cell ((b.head + e) % cap) r)) →
      (∀ r, r < 4 → c.isEmpty (.v (n + r)) = false) →
      ∃ v : Fin 4 → Vec,
        (∀ (r : Fin 4) (e : Nat), e < 64 → elem 32 (v r).toNat e = if e < k then elem 32 (b.entries.getD e 0).toNat r else 0) ∧
        let owed (r : Fin 4) : Pending := ⟨c.step + c.lat 4, c.step, 6, .v (n + r), .vec (v r),
          if r = 0 then some (.xn, .vec (v r)) else none, if r = 3 then c.prodTok else 0⟩
        Completes (.xdrain o) s (s.withCore { c with
          bench := c.bench.set q ⟨(b.head + k) % cap, b.entries.drop k⟩, prodTok := 0
          pending := insertPending (owed 3) (insertPending (owed 2) (insertPending (owed 1) (insertPending (owed 0) c.pending))) })) ∧
    (s.core.operands (.xbcnt o) = .ok (c, x) →
      Completes (.xbcnt o) s (s.withCore (match o.dst with
        | .s _ => c.awaits .xn o.dst (.value (.word (BitVec.ofNat 64 b.entries.length)))
        | _ => c.owes 4 .xn o.dst (.word (BitVec.ofNat 64 b.entries.length))))) ∧
    (s.core.operands (.xbclr o) = .ok (c, x) →
      Completes (.xbclr o) s (s.withCore { c with bench := c.bench.set q { b with entries := [] } }))

/-! ## The local pool -/

/-- R198, R203: each byte that a vector or mask load moves is the byte of the scratchpad that R203 names, as it stands before or after the
write of a command that the load races with (R295, R300), and the others are zero. -/
def Obligations.PoolLoads : Prop :=
  ∀ (i : Instr) (row : Row) (o : Op) (s : State) (c : Core) (x : Srcs),
    (i = .ldv o ∨ i = .ldvt o ∨ i = .ldvu o ∨ i = .ldvm o ∨ i = .ldm o) →
    i.info = some (row, o) → s.core.guardHolds o = true → s.core.sources i = .ok (c, x) →
    let a := c.adOffset o.op1 x.a
    let from' := transferMap i fun k => x.b.bits.getLsbD k
    transferAlign i ∣ a →
    (∀ k d, from' k = some d → 0 ≤ a + d ∧ a + d < c.scratchSize ∧ c.clean (a + d).toNat) →
    ∃ v : Vec, (∀ k, k < 256 → elem 8 v.toNat k = match from' k with
        | some d => c.seenAt (a + d).toNat
        | none => 0) ∧
      Completes i s (s.withCore (c.owes 9 .lm o.dst (.vec v)))

/-- R203, R205, R187: each byte that a vector or mask store moves goes to the byte of the scratchpad that R203 names, unless
the write of a command that it races with is to follow it there (R295, R300), and no other byte changes. -/
def Obligations.PoolStores : Prop :=
  ∀ (i : Instr) (row : Row) (o : Op) (s : State) (c : Core) (x : Srcs),
    (i = .stv o ∨ i = .stvt o ∨ i = .stvb o ∨ i = .stm o) →
    i.info = some (row, o) → s.core.guardHolds o = true → s.core.sources i = .ok (c, x) → c.checkSources i = .ok () →
    c.arr.region = none →
    let a := c.adOffset o.op1 x.a
    let to' := transferMap i fun k => x.c.bits.getLsbD k
    let data : Nat := match i with
      | .stm _ => x.b.bits.toNat
      | _ => x.b.toVec.toNat
    transferAlign i ∣ a →
    (∀ k d, to' k = some d → 0 ≤ a + d ∧ a + d < c.scratchSize) →
    c.mayWrite (fun p => ∃ k d, to' k = some d ∧ (p : Int) = a + d) →
    ∃ d : Core,
      c.Stored d (fun p => ((List.range 256).find? fun k => match to' k with
        | some j => a + j == (p : Int)
        | none => false).map fun k => elem 8 data k) ∧
      Completes i s (s.withCore d)

/-- R206: LDS owes the value of 1, 2, 4 or 8 bytes, extended by its sign with MOD = 1; STS stores the low bytes of a word. -/
def Obligations.PoolScalars : Prop :=
  ∀ (o : Op) (s : State) (c : Core) (x : Srcs), s.core.guardHolds o = true →
    let a := (c.adOffset o.op1 x.a).toNat
    let fits (n : Nat) : Prop := 0 ≤ c.adOffset o.op1 x.a ∧ a % n = 0 ∧ a + n ≤ c.scratchSize
    (s.core.sources (.lds o) = .ok (c, x) →
      let n := 2 ^ (x.b.toWord.toNat % 4)
      fits n → (∀ k, k < n → c.clean (a + k)) →
      ∃ v : Nat, v < 2 ^ (8 * n) ∧ (∀ k, k < n → elem 8 v k = c.seenAt (a + k)) ∧
        Completes (.lds o) s (s.withCore (c.owes 9 .lm o.dst (.word (BitVec.ofInt 64 (num (8 * n) (!o.mod) v)))))) ∧
    (s.core.sources (.sts o) = .ok (c, x) → c.arr.region = none →
      let n := 2 ^ (x.c.toWord.toNat % 4)
      fits n → c.mayWrite (fun p => a ≤ p ∧ p < a + n) →
      ∃ d : Core, c.Stored d (fun p => if a ≤ p ∧ p < a + n then some (elem 8 x.b.toWord.toNat (p - a)) else none) ∧
        Completes (.sts o) s (s.withCore d))

/-- R207: ATOML and CASL return the old value of 4 or 8 bytes and leave the new one, CASL only where the old value is the one
expected. -/
def Obligations.PoolAtomics : Prop :=
  ∀ (o : Op) (s : State) (c : Core) (x : Srcs), s.core.guardHolds o = true →
    let a := (c.adOffset o.op1 x.a).toNat
    let n := if o.mod then 4 else 8
    let word (w : Word) : Nat := w.toNat % 2 ^ (8 * n)
    let stored (d : Core) (v : Nat) : Prop :=
      c.Stored d (fun p => if a ≤ p ∧ p < a + n then some (elem 8 v (p - a)) else none)
    0 ≤ c.adOffset o.op1 x.a → a % n = 0 → a + n ≤ c.scratchSize → (∀ k, k < n → c.clean (a + k)) → c.latent = [] →
    c.arr.region = none →
    ∃ old : Nat, old < 2 ^ (8 * n) ∧ (∀ k, k < n → elem 8 old k = c.seenAt (a + k)) ∧
      (s.core.sources (.atoml o) = .ok (c, x) →
        ∃ d, stored d (atomicRule x.c.toWord.toNat (8 * n) old (word x.b.toWord)) ∧
          Completes (.atoml o) s (s.withCore (d.owes 9 .lm o.dst (.word (BitVec.ofNat 64 old))))) ∧
      (s.core.sources (.casl o) = .ok (c, x) →
        ∃ d, (if old = word x.b.toWord then stored d (word x.c.toWord) else d = c) ∧
          Completes (.casl o) s (s.withCore (d.owes 9 .lm o.dst (.word (BitVec.ofNat 64 old)))))

/-- R213 to R217: SINIT writes a stage record, an arrival counts and flips its phase at the expected number, and a wait lets the core
go on when the phase differs from the one it names, or when the pointer of a channel has come.

R217, R219 to R221: SWAIT.PTR goes on when the write pointer of the channel has reached the value, and acquires what was written up to
it; BANKQ owes the state word of a parity group; PLDL, FLUSHL1 and FLUSHL1.INV change no architectural state. -/
def Obligations.StagesAndQueries : Prop :=
  (∀ (o : Op) (s : State) (c : Core) (x : Srcs), s.core.guardHolds o = true →
    let a := (c.adOffset o.op1 x.a).toNat
    let r := StageRec.of (c.seenValue a 32)
    let fits : Prop := 0 ≤ c.adOffset o.op1 x.a ∧ a % 32 = 0 ∧ a + 32 ≤ c.scratchSize ∧ c.clean a
    let becomes (d : Core) (y : StageRec) : Prop := ∃ v : Nat, v < 2 ^ 256 ∧ StageRec.of v = y ∧
      c.Stored d fun p => if a ≤ p ∧ p < a + 32 then some (elem 8 v (p - a)) else none
    let stage : Prop := r.fexp ≠ 0 ∧ r.eexp ≠ 0 ∧ r.reserved = false
    fits →
    (s.core.sources (.sinit o) = .ok (c, x) → c.latent = [] → c.arr.region = none →
      let k := x.b.toWord.toNat
      k % 2 ^ 16 ≠ 0 → k / 2 ^ 16 ≠ 0 → k < 2 ^ 32 →
      ∃ d, becomes d ⟨k % 2 ^ 16, k / 2 ^ 16, 0, 0, false, false, 0, false⟩ ∧ Completes (.sinit o) s (s.withCore d)) ∧
    (stage → s.core.sources (.sarr o) = .ok (c, x) → c.latent = [] → c.arr.region = none →
      ∃ d, becomes d (if r.fcnt + 1 = r.fexp then { r with fcnt := 0, fph := !r.fph, fgen := (r.fgen + 1) % 2 ^ 32 }
          else { r with fcnt := (r.fcnt + 1) % 2 ^ 16 }) ∧
        Completes (.sarr o) s (s.withCore d)) ∧
    (stage → s.core.sources (.sarrEmpty o) = .ok (c, x) → c.latent = [] → c.arr.region = none →
      ∃ d, becomes d (if r.ecnt + 1 = r.eexp then { r with ecnt := 0, eph := !r.eph } else { r with ecnt := (r.ecnt + 1) % 2 ^ 16 }) ∧
        Completes (.sarrEmpty o) s (s.withCore d)) ∧
    (stage → s.core.sources (.swait o) = .ok (c, x) → r.fph ≠ x.b.toWord.getLsbD 0 → Completes (.swait o) s (s.withCore c)) ∧
    (stage → s.core.sources (.swaitEmpty o) = .ok (c, x) → r.eph ≠ x.b.toWord.getLsbD 0 →
      Completes (.swaitEmpty o) s (s.withCore c))) ∧
  (∀ (o : Op) (s : State) (c : Core) (x : Srcs), s.core.guardHolds o = true →
    (∀ k : Fin 4, s.core.sources (.swaitPtr o) = .ok (c, x) → x.a.toWord.toNat = k.val →
      x.b.toWord.toNat ≤ (c.chans[k]).ptr.toNat →
      Completes (.swaitPtr o) s (s.withCore { c with acquired := c.acquired.set k (c.chans[k]).ptr })) ∧
    (∀ g : Fin 12, s.core.sources (.bankq o) = .ok (c, x) → x.a.toWord.toNat = g.val →
      let y := c.groups[g]
      y.state < 4 → y.dbank < 256 → y.entries.length < 2 ^ 16 →
      ∃ r : Word, r.toNat % 2 ^ 8 = y.state ∧ r.toNat / 2 ^ 8 % 2 ^ 8 = y.dbank ∧
        r.toNat / 2 ^ 16 % 2 ^ 16 = (if y.state = 0 then y.entries.length else 0) ∧
        r.toNat / 2 ^ 40 % 2 ^ 8 = min 255 (c.poison.countP fun p => 32 * p.1 / 2048 % 12 == g.val) ∧
        r.toNat / 2 ^ 48 % 2 ^ 8 = min 255 y.uecnt ∧ r.toNat / 2 ^ 56 = min 255 y.cecnt ∧
        Completes (.bankq o) s (s.withCore (c.owes 9 .lm o.dst (.word r)))) ∧
    (s.core.sources (.pldl o) = .ok (c, x) → Completes (.pldl o) s (s.withCore c)) ∧
    (c.arr.region = none →
      (s.core.sources (.flushl1 o) = .ok (c, x) → Completes (.flushl1 o) s (s.withCore c)) ∧
      (s.core.sources (.flushl1Inv o) = .ok (c, x) → Completes (.flushl1Inv o) s (s.withCore c))))

/-- R208 to R210, R212, R306, R368: LDG, STG, ATOMG and CASG. Through windows 1 and 2 they reach the core's own scratchpad and those of the
tasks of its context in the cluster; through a window that leads to memory, the LLC; in window 5, another package, whose loads and atomics
give free values (log 15). Loads and atomics are variable-latency, and only the bytes stored change. The first byte at fault decides the
trap. Stores and atomics act at the operation, where R281 speaks of retirement: alone in a bundle that is one step, and within a bundle that
does not retire they are the model's reading (log 89), as is which accesses fill the LLC (log 11). -/
def Obligations.GenericPool : Prop :=
  ∀ (o : Op) (s : State) (c : Core) (x : Srcs), s.core.guardHolds o = true →
    let p := x.a.toWord.toNat
    let m := if o.mod then 4 else 8
    let wide (k : Nat) : Nat := 2 ^ (k % 4)
    let word (v : Word) : Nat := v.toNat % 2 ^ (8 * m)
    let value (f : Nat → Nat) (n v : Nat) : Prop := v < 2 ^ (8 * n) ∧ ∀ k, k < n → elem 8 v k = f k
    let stored (b d : Core) (a n v : Nat) : Prop := b.Stored d (fun q => if a ≤ q ∧ q < a + n then some (elem 8 v (q - a)) else none)
    let loaded (n v : Nat) : VarKind := .value (.word (BitVec.ofInt 64 (num (8 * n) (!o.mod) v)))
    let old (v : Nat) : VarKind := if c.cur.isSome then .held (.word (BitVec.ofNat 64 v)) else .value (.word (BitVec.ofNat 64 v))
    let pair (d : Core) (v : Nat) : Core := d.awaits .lm o.dst (old v)
    let next (v : Nat) : Nat := atomicRule x.c.toWord.toNat (8 * m) v (word x.b.toWord)
    (let a := if p / 2 ^ 60 = 1 then p % 2 ^ 60 else p % 2 ^ 20;
      p / 2 ^ 60 = 1 ∨ (p / 2 ^ 60 = 2 ∧ p / 2 ^ 20 % 2 ^ 28 = 0 ∧ p / 2 ^ 52 % 2 ^ 8 = 0 ∧ p / 2 ^ 48 % 2 ^ 4 = c.kid % 16 ∧ a + 8 ≤ 2 ^ 20) →
      a + 8 ≤ c.scratchSize → (∀ k, k < 8 → c.clean (a + k)) → s.ownLoss c.ctx = false →
      (s.core.sources (.ldg o) = .ok (c, x) →
        let n := wide x.b.toWord.toNat
        ∃ v, value (fun k => c.seenAt (a + k)) n v ∧ Completes (.ldg o) s (s.withCore (c.awaits .lm o.dst (loaded n v)))) ∧
      (s.core.sources (.stg o) = .ok (c, x) → c.latent = [] → c.arr.region = none →
        ∃ d, stored c d a (wide x.c.toWord.toNat) x.b.toWord.toNat ∧ Completes (.stg o) s (s.withCore d)) ∧
      (p % m = 0 → c.latent = [] → c.arr.region = none → ∃ v, value (fun k => c.seenAt (a + k)) m v ∧
        (s.core.sources (.atomg o) = .ok (c, x) →
          ∃ d, stored c d a m (next v) ∧ Completes (.atomg o) s (s.withCore (pair d v))) ∧
        (s.core.sources (.casg o) = .ok (c, x) →
          ∃ d, (if v = word x.b.toWord then stored c d a m (word x.c.toWord) else d = c) ∧
            Completes (.casg o) s (s.withCore (pair d v))))) ∧
    (let t := c.kid / 16 * 16 + p / 2 ^ 48 % 2 ^ 4
      let a := p % 2 ^ 20
      let b := s.coreAt t
      p / 2 ^ 60 = 2 → p / 2 ^ 20 % 2 ^ 28 = 0 → p / 2 ^ 52 % 2 ^ 8 = 0 → a + 8 ≤ 2 ^ 20 → t ≠ c.kid → inCores t = true →
      b.runs b.ctx = true → b.ctx = c.ctx → a + 8 ≤ b.scratchSize → (∀ k, k < 8 → b.clean (a + k)) → b.races = [] →
      s.ownLoss c.ctx = false →
      (s.core.sources (.ldg o) = .ok (c, x) →
        let n := wide x.b.toWord.toNat
        ∃ v, value (fun k => b.byteAt (a + k)) n v ∧ Completes (.ldg o) s (s.withCore (c.awaits .lm o.dst (loaded n v)))) ∧
      (s.core.sources (.stg o) = .ok (c, x) → b.latent = [] → c.arr.region = none →
        ∃ d, stored b d a (wide x.c.toWord.toNat) x.b.toWord.toNat ∧ Completes (.stg o) s ((s.withCore c).setCore d)) ∧
      (p % m = 0 → b.latent = [] → c.arr.region = none → ∃ v, value (fun k => b.byteAt (a + k)) m v ∧
        (s.core.sources (.atomg o) = .ok (c, x) →
          ∃ d, stored b d a m (next v) ∧ Completes (.atomg o) s ((s.withCore (pair c v)).setCore d)) ∧
        (s.core.sources (.casg o) = .ok (c, x) →
          (v = word x.b.toWord → ∃ d, stored b d a m (word x.c.toWord) ∧ Completes (.casg o) s ((s.withCore (pair c v)).setCore d)) ∧
          (v ≠ word x.b.toWord → Completes (.casg o) s (s.withCore (pair c v)))))) ∧
    (∀ (n : Nat) (acc : Access) (s1 s2 : State) (r : Range) (ts : List Target),
      (s.withCore c).resolve c.kid c.ctx x.a.toWord n acc = (s1, .ok r) → s1.peerRange r acc = (s2, .mem ts) → ts.length = n →
      s2.mem.plain ts → s2.ownLoss c.ctx = false →
      (∀ pkg off k, r = .peer pkg off k → s1.outstanding pkg < s.host.txcred ∧ ∀ q ∈ c.peerStores, q.package ≠ pkg) →
      let owing : Core := match r with
        | .peer pkg _ _ => { c with peerLoads := (c.nextId, pkg) :: c.peerLoads.filter fun q => c.vars.any fun v => v.id == q.1 }
        | _ => c
      let found (v : Nat) : Prop := v < 2 ^ (8 * n) ∧ ∀ k t, ts[k]? = some t → elem 8 v k = s2.mem.byteRule t
      let after (core : Core) (m' : MemState) : State := { s2 with core := core, mem := m' }
      s2 = { s with core := c, mem := s2.mem } ∧
      (acc = .read → n = wide x.b.toWord.toNat → s.core.sources (.ldg o) = .ok (c, x) →
        ∃ v m', found v ∧ s2.mem.Accessed m' c.ctx ts (fun _ => none) ∧
          Leaves (.ldg o) s (after (owing.awaits .lm o.dst (loaded n v)) m')) ∧
      (acc = .write → n = wide x.c.toWord.toNat → r = .mem ts → s.core.sources (.stg o) = .ok (c, x) → c.arr.region = none →
        ∃ m', s2.mem.Accessed m' c.ctx ts (fun k => some (elem 8 x.b.toWord.toNat k)) ∧ Leaves (.stg o) s (after c m')) ∧
      (acc = .atomic → n = m → p % m = 0 → c.arr.region = none → ∃ v, found v ∧
        (s.core.sources (.atomg o) = .ok (c, x) → ∃ m', s2.mem.Accessed m' c.ctx ts (fun k => some (elem 8 (next v) k)) ∧
          Leaves (.atomg o) s (after (pair owing v) m')) ∧
        (s.core.sources (.casg o) = .ok (c, x) → ∃ m', s2.mem.Accessed m' c.ctx ts
            (fun k => if v = word x.b.toWord then some (elem 8 (word x.c.toWord) k) else none) ∧
          Leaves (.casg o) s (after (pair owing v) m')))) ∧
    (let pkg := p / 2 ^ 48 % 2 ^ 9;
      p / 2 ^ 60 = 5 → p / 2 ^ 57 % 2 ^ 3 = 0 → p % 2 ^ 48 + 8 ≤ min (2 ^ 48) (s.host.xsize * 2 ^ 30) → s.host.peerEn = true →
      pkg ≤ s.host.npkg → (s.withCore c).outstanding pkg < s.host.txcred → s.ownLoss c.ctx = false →
      let owing : Core := { c with peerLoads := (c.nextId, pkg) :: c.peerLoads.filter fun q => c.vars.any fun v => v.id == q.1 }
      let came (n : Nat) : Nat := (Config.peerValue s.fresh).toNat % 2 ^ (8 * n)
      let after (core : Core) : State := { s with core := core, fresh := s.fresh + 1 }
      (s.core.sources (.stg o) = .ok (c, x) → c.arr.region = none →
        Completes (.stg o) s (s.withCore { c with
          peerStores := c.peerStores ++ [⟨c.nextId, c.ctx, pkg, x.a.toWord, leBytes (wide x.c.toWord.toNat) x.b.toWord.toNat⟩]
          nextId := c.nextId + 1 })) ∧
      (pkg ≠ s.host.rank ∨ s.host.ports = 0 →
        (s.core.sources (.ldg o) = .ok (c, x) → let n := wide x.b.toWord.toNat
          Completes (.ldg o) s (after (owing.awaits .lm o.dst (loaded n (came n))))) ∧
        (p % m = 0 → c.arr.region = none → (∀ q ∈ c.peerStores, q.package ≠ pkg) →
          (s.core.sources (.atomg o) = .ok (c, x) → Completes (.atomg o) s (after (pair owing (came m)))) ∧
          (s.core.sources (.casg o) = .ok (c, x) → Completes (.casg o) s (after (pair owing (came m))))))) ∧
    ∀ (k cause : Nat) (acc : Access) (u s1 : State) (l : List Place),
      (s.withCore c).placeBytes c.kid c.ctx acc p k = (u, .ok l) → u.placeByte c.kid c.ctx ((p + k) % 2 ^ 64) acc = (s1, .error cause) →
      s1.ownLoss c.ctx = false →
      let traps (j : Instr) : Prop :=
        exec j s = .next (s.trapped { s with mem := s1.mem } 2 cause (BitVec.ofNat 64 ((p + k) % 2 ^ 64))).finish
      (acc = .read → k < wide x.b.toWord.toNat → s.core.sources (.ldg o) = .ok (c, x) → traps (.ldg o)) ∧
      (acc = .write → k < wide x.c.toWord.toNat → c.arr.region = none → s.core.sources (.stg o) = .ok (c, x) → traps (.stg o)) ∧
      (acc = .atomic → k < m → p % m = 0 → c.arr.region = none →
        (s.core.sources (.atomg o) = .ok (c, x) → traps (.atomg o)) ∧ (s.core.sources (.casg o) = .ok (c, x) → traps (.casg o)))

/-! ## The matrix array -/

/-- R224, R227, R228, R233, R234: configuring, loading B rows, exchanging the buffers, zeroing and the factor. What an open region logs
needs room in the audit area (R421): an item of MXZERO that finds none makes a strict region wait, and another one drop its log. -/
def Obligations.MatrixSetup : Prop :=
  ∀ (o : Op) (s : State) (c : Core) (x : Srcs), s.core.guardHolds o = true →
    (s.core.sources (.mxcfg o) = .ok (c, x) → c.arr.region = none → c.arr.events = [] →
      Completes (.mxcfg o) s (s.withCore { c with arr := { c.arr with
        pair := x.a.toWord.toNat, buf0 := BBuf.zero, buf1 := BBuf.zero, active := false, rc := Vector.replicate 8 0 } })) ∧
    (s.core.sources (.mxscale o) = .ok (c, x) →
      Completes (.mxscale o) s (s.withCore { c with arr := { c.arr with factor := x.a.toWord.setWidth 32 } })) ∧
    (∀ z : Fin 8, o.dst = .z z →
      (s.core.sources (.mxzero o) = .ok (c, x) →
        let zeroed (c : Core) : Core := (c.plans z .zero).logs ⟨6, 0, 0, 0, 0⟩
        (s.takesItem 0 → Logs (.mxzero o) s (zeroed c)) ∧
        (∀ r l, s.core.arr.region = some r → r.log = some l → s.auditLeft l < logSpace (logLength l + 8) → s.auditTaken ≤ s.auditSize →
          logLength l + 8 ≤ s.auditSize →
          (s.core.kernel.strict = true → Completes (.mxzero o) s (s.withCore { s.core with stalled := some ⟨7, 256, false, false⟩ })) ∧
          (s.core.kernel.strict = false → Leaves (.mxzero o) s (s.withCore (zeroed { c with
            arr := { c.arr with region := some { r with log := none } }, recs := c.recs ++ [(0x0061, 0, 0, 0)] }))))) ∧
      (s.core.sources (.mxzeroAll o) = .ok (c, x) → c.arr.region = none →
        Completes (.mxzeroAll o) s (s.withCore (c.plans z (.zeroAll (c.arr.pair ≤ 1))))) ∧
      (s.core.sources (.mxshift o) = .ok (c, x) → s.takesItem 0 → c.arr.pair ≠ 15 → (∀ r, c.arr.region = some r → r.tile = z) →
        let d := c.logs ⟨4, if c.arr.active then 0 else 1, 0, 0, 0⟩
        Logs (.mxshift o) s { d with arr := { d.arr with active := !c.arr.active, rc := c.arr.rc.set z 0 } })) ∧
    (s.core.sources (.mxldb o) = .ok (c, x) → s.takesItem 256 → c.checkSources (.mxldb o) = .ok () →
      let p := c.arr.pair
      let idx := x.b.toWord.toNat
      let fill := !c.arr.active
      let extra := (p = 4 ∨ p = 5) ∧ (idx = 64 ∨ idx = 65)
      let n := if extra then 256 else pairRowBytes p
      let a := (c.adOffset o.op1 x.a).toNat
      let held : BBuf := if fill then c.arr.buf1 else c.arr.buf0
      let put (b : BBuf) : MxArray := if fill then { c.arr with buf1 := b } else { c.arr with buf0 := b }
      p ≤ 5 → (idx < pairKB p ∨ extra) →
      (∀ r, c.arr.region = some r → r.active ≠ fill ∧ (o.mod = true → adScalar o.op1 = false)) →
      (o.mod = true → 0 ≤ c.adOffset o.op1 x.a ∧ a % 32 = 0 ∧ a + n ≤ c.scratchSize ∧ ∀ k, k < n → c.clean (a + k)) →
      ∃ v : Nat, v < 2 ^ (8 * n) ∧ (∀ k, k < n → elem 8 v k = if o.mod then c.seenAt (a + k) else elem 8 x.a.toVec.toNat k) ∧
        let filled : BBuf := if extra then
            (if idx = 64 then { held with scales := BitVec.ofNat 2048 v } else { held with zeros := BitVec.ofNat 2048 v })
          else { held with rows := held.rows.setIfInBounds idx (BitVec.ofNat 1024 v) }
        (¬(extra ∧ idx = 65 ∧ badMeta v = true) →
          Logs (.mxldb o) s (({ c with arr := put filled } : Core).logs ⟨3, if fill then 1 else 0, idx, 256, v⟩)))

/-- R230, R231, R225: a push reads the row cursor of its tile, moves it on, and plans the addition of its terms to that row of the
shadow half; MXPUSHZ takes its A row from a committed row through the down-converter of R82. -/
def Obligations.MatrixPush : Prop :=
  ∀ (o : Op) (s : State) (c : Core) (x : Srcs) (z : Fin 8), s.core.guardHolds o = true → o.dst = .z z → c.openOn z → c.inTurn z →
    let p := c.arr.pair
    (s.core.sources (.mxpush o) = .ok (c, x) → s.takesItem 256 → c.checkSources (.mxpush o) = .ok () →
      let v := x.a.toVec.toNat
      Logs (.mxpush o) s (c.pushed z ((List.range (pairKB p)).map fun k => elem (pairABits p) v k) v)) ∧
    (∀ src : Fin 8, o.op2 = .z src → s.core.sources (.mxpushz o) = .ok (c, x) → s.takesItem 256 →
      let idx := x.c.toWord.toNat
      let t := c.tiles[src]
      let row := t.front.toList.getD (idx % 64) 0
      (idx < 64 ∨ ((p = 2 ∨ p = 3) ∧ idx < 128)) →
      (∀ k, k < 256 → c.clean (c.tileOff src (if t.commit1 then 1 else 0) (idx % 64) + k)) →
      let cells := if p = 2 ∨ p = 3 then (List.range 32).map fun k => elem 32 row.toNat (32 * (idx / 64) + k)
        else (List.range 64).map fun k => elem 32 row.toNat k
      let a := cells.map (downConvert p t.int c.arr.factor) ++ if p = 1 then List.replicate 64 0 else []
      Logs (.mxpushz o) s (c.pushed z a (packElems (pairABits p) a)))

/-- R79, R80, R81, R231: what a beat adds to a row in every column. An integer pair: the exact sum of the products of the A row and the column
of B, modulo 2^32. A float pair: four octets, each the balanced tree over its eight rounded products. A grouped pair: the term of each group,
whose first half a group of 128 leaves in the row's carry. A term joins its cell by one addition.

R82: the down-converter scales a cell exactly and rounds once. The model's choice: an integer code, zero point or INT32 cell of 0 counts as
+0 (log 76).

R225, R233, R236, R237: what an accumulator event does to its tile when it acts: an opening copies the committed half to the
shadow half, a push adds its terms to one shadow row, MXZERO clears the shadow half, MXZERO.ALL both, a commit exchanges them. -/
def Obligations.BeatsAndAccumulatorEvents : Prop :=
  (∀ (p : Nat) (b : BBuf) (a : List Nat) (carry : Option (Vec × Vec)), p ≤ 1 → a.length = pairKB p →
    (∀ y ∈ a, y < 2 ^ pairABits p) →
    ∃ t : Vec, beatTerms p b a carry = ([t], carry) ∧
      ∀ n, n < 64 → elem 32 t.toNat n = wrap 32 (((List.range (pairKB p)).map fun k =>
        num (pairABits p) false (a.getD k 0) * num 8 false (elem 8 (b.rows.toList.getD k 0).toNat n)).sum)) ∧
  (∀ (p : Nat) (b : BBuf) (a : List Nat) (carry : Option (Vec × Vec)), (p = 2 ∨ p = 3) →
    let f : Fmt := if p = 3 then .f16 else .bf16
    ∃ t : Fin 4 → Vec, beatTerms p b a carry = ([t 0, t 1, t 2, t 3], carry) ∧
      ∀ (o : Fin 4) (n : Nat), n < 64 → elem 32 (t o).toNat n = octetRule (fun i => Fmt.f32.val (Fmt.f32.round 0
        ((f.val (a.getD (8 * o + i) 0)).mul (f.val (elem 16 (b.rows.toList.getD (8 * o + i) 0).toNat n))))) % 2 ^ 32) ∧
  (∀ (p : Nat) (b : BBuf) (a : List Nat) (carry : Option (Vec × Vec)), (p = 4 ∨ p = 5) →
    let code (k n : Nat) : FVal := .ofInt (elem (if p = 4 then 4 else 8) (b.rows.toList.getD k 0).toNat n)
    let act (k : Nat) : FVal := Fmt.bf16.val (a.getD k 0)
    let P (n o : Nat) : Nat := octetRule fun i => (code (8 * o + i) n).mul (act (8 * o + i))
    let A (o : Nat) : Nat := octetRule fun i => act (8 * o + i)
    let term (g n p a : Nat) : Nat :=
      termRule (Fmt.f16.val (elem 16 b.scales.toNat (64 * g + n))) (elem 8 b.zeros.toNat (64 * g + n)) (p % 2 ^ 32) (a % 2 ^ 32) % 2 ^ 32
    let size := elem 8 b.zeros.toNat 128
    let half := elem 8 b.zeros.toNat 129
    (size = 0 → ∃ t : Fin 2 → Vec, beatTerms p b a carry = ([t 0, t 1], carry) ∧ ∀ (g : Fin 2) (n : Nat), n < 64 →
      elem 32 (t g).toNat n = term g n (joinRule (P n) (4 * g) 4) (joinRule A (4 * g) 4)) ∧
    (size = 1 → ∃ t : Vec, beatTerms p b a carry = ([t], carry) ∧ ∀ n, n < 64 →
      elem 32 t.toNat n = term 0 n (joinRule (P n) 0 8) (joinRule A 0 8)) ∧
    (size = 2 → half = 0 → ∃ x y : Vec, beatTerms p b a carry = ([], some (x, y)) ∧ ∀ n, n < 64 →
      elem 32 x.toNat n = joinRule (P n) 0 8 % 2 ^ 32 ∧ elem 32 y.toNat n = joinRule A 0 8 % 2 ^ 32) ∧
    (∀ x y : Vec, size = 2 → half ≠ 0 → carry = some (x, y) → ∃ t : Vec, beatTerms p b a carry = ([t], none) ∧ ∀ n, n < 64 →
      elem 32 t.toNat n = term 0 n ((List.range 8).foldl (fun acc o => plusRule acc (P n o)) (elem 32 x.toNat n))
        ((List.range 8).foldl (fun acc o => plusRule acc (A o)) (elem 32 y.toNat n)))) ∧
  (∀ (row term : Vec) (n : Nat), n < 64 →
    elem 32 (addTerm true row term).toNat n = (elem 32 row.toNat n + elem 32 term.toNat n) % 2 ^ 32 ∧
    elem 32 (addTerm false row term).toNat n = plusRule (elem 32 row.toNat n) (elem 32 term.toNat n) % 2 ^ 32) ∧
  (∀ (p : Nat) (int : Bool) (m : BitVec 32) (x : Nat), x < 2 ^ 32 →
    let v := (if int then FVal.ofInt (num 32 false x) else Fmt.f32.val x).mul (Fmt.f32.val m.toNat)
    downConvert p int m x = match p with
      | 0 => wrap 8 (satRound 0 8 false v)
      | 1 => wrap 4 (satRound 0 4 false v)
      | 3 => Fmt.f16.round 0 v
      | _ => Fmt.bf16.round 0 v) ∧
  (∀ (c : Core) (e : AccEvent) (z : Fin 8), e.tile = z.val → c.latent = [] → c.poison = [] →
    let t := c.tiles[z]
    let shadow : Vector Vec 64 := if t.commit1 then t.half0 else t.half1
    let withShadow (h : Vector Vec 64) : Tile := if t.commit1 then { t with half0 := h } else { t with half1 := h }
    let d := c.actEvent e
    d.tokens = (c.setToken e.tok .complete).tokens ∧ d.sregs = c.sregs ∧ d.vregs = c.vregs ∧ d.mregs = c.mregs ∧
    (∀ y : Fin 8, y ≠ z → d.tiles[y] = c.tiles[y]) ∧
    match e.act with
    | .opens => d.tiles[z] = withShadow t.front
    | .push row int terms => row < 64 → d.tiles[z] = withShadow (shadow.setIfInBounds row (terms.foldl (addTerm int) (shadow.toList.getD row 0)))
    | .zero => d.tiles[z] = withShadow (Vector.replicate 64 0)
    | .zeroAll int => d.tiles[z] = ⟨Vector.replicate 64 0, Vector.replicate 64 0, t.commit1, int⟩
    | .commit bindings _ _ => bindings = [] → d.tiles[z] = { t with commit1 := !t.commit1 })

/-- R236, R237, R241: MXOPEN records the region, with its first log items if the Referee selects it, and plans the copy of the committed
half; MXSTAGE binds a stage; MXCOMMIT closes the region and plans the exchange of the halves with the arrivals at the bound stages.

R232, R235, R98: MXDRAIN owes a row of the committed half; MXQ gives the pair, the tile of the open region, the number of
accumulator events that have not acted, or the number of bindings. -/
def Obligations.RegionsAndReads : Prop :=
  (∀ (o : Op) (s : State) (c : Core) (x : Srcs), s.core.guardHolds o = true →
    (∀ z : Fin 8, o.dst = .z z → s.core.sources (.mxopen o) = .ok (c, x) → c.arr.region = none → c.arr.pair ≠ 15 →
      c.arr.abandoned = none →
      let selected := refSelects s.refCfg c.kernel.strict (refStep c.refState)
      (selected = true → s.auditTaken + 50304 ≤ s.auditSize) →
      Logs (.mxopen o) s (({ c with
        refState := refStep c.refState
        tiles := c.tiles.set z { c.tiles[z] with int := decide (c.arr.pair ≤ 1) }
        brkExempt := if c.brkExempt = .next then .region else c.brkExempt
        arr := { c.arr with region := some ⟨z, c.bundleAddr, c.step, c.bundleLoops, c.arr.rc[z], c.arr.active, [],
          if selected then some (c.openItems z) else none⟩ } } : Core).plans z .opens)) ∧
    (∀ r, c.arr.region = some r →
      (∀ z : Fin 8, o.dst = .z z → s.core.sources (.mxcommit o) = .ok (c, x) → s.takesItem 0 → r.tile = z → c.arr.carry = [] →
        Completes (.mxcommit o) s (s.withCore (({ c with
          arr := { c.arr with region := none, events := c.arr.events.map fun (e : AccEvent) => { e with inRegion := false } }
          brkExempt := if c.brkExempt = .region then .none else c.brkExempt } : Core).plans z
            (.commit r.bindings (r.log.map fun l => l ++ [⟨7, 0, 0, 0, 0⟩]) c.arr.pair)))) ∧
      (s.core.sources (.mxstage o) = .ok (c, x) → adScalar o.op1 = false → r.bindings.length < 4 →
        let a := (c.adOffset o.op1 x.a).toNat
        let y := StageRec.of (c.seenValue a 32)
        (∀ b ∈ r.bindings, b.off ≠ a) → 0 ≤ c.adOffset o.op1 x.a → a % 32 = 0 → a + 32 ≤ c.scratchSize → c.clean a →
        y.fexp ≠ 0 → y.eexp ≠ 0 → y.reserved = false →
        Completes (.mxstage o) s (s.withCore { c with arr := { c.arr with
          region := some { r with bindings := r.bindings ++ [⟨a, y.fgen, y.eph⟩] } } })))) ∧
  (∀ (o : Op) (s : State) (c : Core) (x : Srcs), s.core.guardHolds o = true →
    (∀ z : Fin 8, o.op1 = .z z → s.core.sources (.mxdrain o) = .ok (c, x) →
      let t := c.tiles[z]
      let idx := x.b.toWord.toNat
      idx < 64 → (∀ k, k < 256 → c.clean (c.tileOff z (if t.commit1 then 1 else 0) idx + k)) →
      Completes (.mxdrain o) s (s.withCore (c.owes 8 .mx o.dst (.vec (t.front.toList.getD idx 0))))) ∧
    (s.core.sources (.mxq o) = .ok (c, x) →
      let r : Word := match x.a.toWord.toNat with
        | 0 => BitVec.ofNat 64 c.arr.pair
        | 1 => (c.arr.region.map fun r => BitVec.ofNat 64 r.tile).getD (BitVec.allOnes 64)
        | 2 => BitVec.ofNat 64 c.arr.events.length
        | _ => (c.arr.region.map fun r => BitVec.ofNat 64 r.bindings.length).getD 0
      Completes (.mxq o) s (s.withCore (c.awaits .mx o.dst (.value (.word r))))))

/-! ## Commands at issue -/

/-- R244, R246, R253: the copy commands are handed over with the image of a descriptor that breaks no rule of R253; PFL takes no
completion word, and is the one that an open region allows. -/
def Obligations.CopyCommands : Prop :=
  ∀ (o : Op) (s : State) (c : Core) (x : Srcs) (i : Instr) (k : CmdKind),
    ((i, k) = (.cpy o, .cpy) ∨ (i, k) = (.cpyr o, .cpyr) ∨ (i, k) = (.gath o, .gath) ∨ (i, k) = (.scat o, .scat) ∨
      (i, k) = (.pfl o, .pfl)) →
    s.core.guardHolds o = true → (k = .cpyr → s.core.kernel.pre = false) → s.core.sources i = .ok (c, x) →
    let off := x.a.toWord.toNat
    let cw : Word := if k = .pfl then 0 else x.b.toWord
    let d := c.scrBytes off 128
    (k = .pfl ∨ c.arr.region = none) → off % 64 = 0 → off + 128 ≤ c.scratchSize → pointsTo [0, 1, 2] 8 cw →
    descFault k d = none → (∀ j, j < 128 → c.clean (off + j)) → c.hasEntry k →
    Completes i s (s.withCore (c.hands k x.a.toWord 0 cw d))

/-- R244 to R246, R261 to R269, R346: the other commands, under the conditions of R246.

R54, R262, R266, R270: the queries of an engine leave their destination empty until they are served, and are counted as EC
operations (R247). -/
def Obligations.EngineCommands : Prop :=
  (∀ (o : Op) (s : State) (c : Core) (x : Srcs), s.core.guardHolds o = true → c.arr.region = none →
    let a := x.a.toWord
    let b := x.b.toWord
    let w := x.c.toWord
    let leaves (i : Instr) (k : CmdKind) (ok : Prop) (p q cw : Word) : Prop :=
      s.core.sources i = .ok (c, x) → ok → c.hasEntry k → Completes i s (s.withCore (c.hands k p q cw []))
    let known : Prop := ∃ y, s.mem.ctx c.ctx = some y ∧ y.owns (a.toNat % 2 ^ 14) = true ∧ a.toNat / 2 ^ 32 < y.nexp
    let limit : Nat := match s.mem.ctx c.ctx with
      | some y => if y.btbase = 0 then 0xFFFE else min 0xFFFE y.nexp
      | none => 0xFFFE
    let depth := ((s.taskOf c.kid).bind fun t => (s.spec? t.launch).map Spec.depth).getD 0
    leaves (.expf o) .expf (a.toNat % 2 ^ 32 / 2 ^ 14 = 0 ∧ b.toNat % 2 ^ 32 / 2 ^ 3 = 0 ∧ known) a b 0 ∧
    leaves (.expc o) .expc (s.ownHandle c.ctx a = true) a 0 0 ∧
    leaves (.topki o) .topki (pointsTo [0] 64 a ∧ pointsTo [0, 1, 2] 8 w ∧ b.toNat / 2 ^ 32 % 2 ^ 16 < limit) a b w ∧
    leaves (.ggemm o) .ggemm (pointsTo [0] 64 a ∧ pointsTo [0, 1, 2] 8 w ∧ 1 ≤ b.toNat ∧ b.toNat ≤ 4096) a b w ∧
    let made : Nat := ((s.taskOf c.kid).map fun t => t.regions.length).getD 0 + if c.kernel.strict then
      (c.arr.events.countP fun (e : AccEvent) => e.act matches .commit _ (some _) _) + c.audits.length else 0
    (s.core.sources (.hpub o) = .ok (c, x) → pointsTo [0, 1, 2] 8 w → b.toNat < 2 ^ 16 → c.hasEntry .hpub →
      (∀ y ∈ c.cmds, y.id ≠ c.nextId) → Completes (.hpub o) s (s.withCore (c.hands .hpub a b w [] made))) ∧
    leaves (.lnch o) .lnch (pointsTo [0] 64 a ∧ pointsTo [0] 64 b ∧
      if depth = 0 then s.launch.lpres < s.poolLeft else 0 < s.poolLeft) a b 0 ∧
    leaves (.invl o) .invl (a.toNat / 2 ^ 60 = 0) a 0 0 ∧
    leaves (.invlAll o) .invlAll True 0 0 0 ∧
    leaves (.flsh o) .flsh (b = 0 ∨ b.toNat / 2 ^ 60 = 0 ∨ b.toNat / 2 ^ 60 = 4) a b 0 ∧
    (s.core.sources (.coll o) = .ok (c, x) →
      let off := a.toNat
      let d := c.scrBytes off 128
      let level := bits (field d 0x40 8) 47 45
      off % 64 = 0 → off + 128 ≤ c.scratchSize → pointsTo [0, 1, 2] 8 b → descFault .coll d = none →
      (∀ j, j < 128 → c.clean (off + j)) → c.hasEntry .coll →
      (∃ t p, s.taskOf c.kid = some t ∧ s.spec? t.launch = some p ∧ level < p.depthOf ∧ t.gang ≠ none ∧ p.gang ≤ level) →
      Completes (.coll o) s (s.withCore (c.hands .coll a 0 b d)))) ∧
  (∀ (o : Op) (s : State) (c : Core) (x : Srcs), s.core.guardHolds o = true →
    let leaves (i : Instr) (ok : Prop) (k : VarKind) : Prop := s.core.sources i = .ok (c, x) → ok →
      Completes i s (s.withCore { c.awaits .ec o.dst k with ecHeld := c.ecHeld + 1 })
    leaves (.whq o) (s.ownHandle c.ctx x.a.toWord = true) (.whq x.a.toWord.toNat) ∧
    leaves (.htest o) (x.b.toWord.toNat < 2 ^ 16) (.htest x.a.toWord x.b.toWord.toNat) ∧
    leaves (.wptr o) (x.a.toWord.toNat ≤ 3) (.wptr x.a.toWord.toNat))

/-! ## Control -/

/-- R100 to R102, R104: a taken branch goes to its target and pops the levels whose bodies do not hold it, or traps with cause 0x0B
on a misaligned target; a branch not taken goes on in sequence whatever its target. -/
def Obligations.Branches : Prop :=
  ∀ (o : Op) (s : State) (c : Core) (x : Srcs) (i : Instr) (taken : Bool) (offset : Word), s.core.guardHolds o = true →
    s.core.atBranch.operands i = .ok (c, x) →
    let a := x.a.toWord
    let b := x.b.toWord
    ((i, taken, offset) = (.bra o, true, a) ∨ (i, taken, offset) = (.brc o, a != 0, b) ∨
      (i, taken, offset) = (.brcZ o, a == 0, b) ∨ (i, taken, offset) = (.brq o, a.getLsbD 0, b) ∨
      (i, taken, offset) = (.brqN o, !a.getLsbD 0, b)) →
    let pc := s.core.bundleAddr
    let t := pc + offset
    (taken = true → t.toNat % 64 = 0 →
      Completes i s (s.withCore (c.goesTo t (c.loops.filter fun l => l.start.toNat ≤ t.toNat && t.toNat ≤ l.fin.toNat)))) ∧
    (taken = true → t.toNat % 64 ≠ 0 → TrapsWith i s 0 0x0B t) ∧
    (taken = false → Completes i s (s.withCore (c.goesOn pc false)))

/-- R106: the loop end at an address. An innermost level that ends there goes back to its start with the next index, or is popped
when its count is reached, and then the next level out is looked at.

R108, R287: a pre-emption point is offered exactly where YIELD acts, or the iteration boundary of a level at or below PLEVEL passes, in a
kernel that may be pre-empted, with PREQ set, no open region and no handler running. -/
def Obligations.LoopEnds : Prop :=
  ∀ (c : Core) (pc : Word) (yields : Bool) (outer : List Level) (l : Level),
    let d := c.advance pc yields
    ((∀ y, c.loops.getLast? = some y → y.fin ≠ pc) → d.loops = c.loops ∧ d.pc = pc + 64) ∧
    (c.loops = outer ++ [l] → l.fin = pc → l.index.toNat + 1 < l.count.toNat →
      d.loops = outer ++ [{ l with index := l.index + 1 }] ∧ d.pc = l.start) ∧
    (c.loops = outer ++ [l] → l.fin = pc → l.count.toNat ≤ l.index.toNat + 1 →
      d.loops = (({ c with loops := outer } : Core).advance pc yields).loops ∧
      d.pc = (({ c with loops := outer } : Core).advance pc yields).pc) ∧
    d = { c with loops := d.loops, pc := d.pc, point := d.point } ∧
    let passes (k : Nat) : Prop := (∃ y, c.loops[k]? = some y ∧ y.fin = pc) ∧
      ∀ j y, k < j → c.loops[j]? = some y → y.fin = pc ∧ y.count.toNat ≤ y.index.toNat + 1
    (d.point = true ↔ (yields = true ∨ ∃ k, passes k ∧ k ≤ c.kernel.plevel ∧ c.kernel.plevel ≠ 7) ∧
      c.kernel.pre = true ∧ c.preq = true ∧ c.arr.region = none ∧ c.intrap = false)

/-- R103, R105, R107: CALL owes the address that would run next and goes to its target; RET goes to the link; LOOP pushes a level or
passes over its body; LBRK leaves levels; each test of R105 traps in its turn. -/
def Obligations.CallsAndLoops : Prop :=
  ∀ (o : Op) (s : State) (c : Core) (x : Srcs), s.core.guardHolds o = true →
    let pc := s.core.bundleAddr
    let a := x.a.toWord
    (s.core.atBranch.operands (.call o) = .ok (c, x) →
      let link := (c.goesOn pc false).pc
      let d := (c.owes 0 .br o.dst (.word link)).goesOn pc false
      ((pc + a).toNat % 64 = 0 → Completes (.call o) s (s.withCore { d with pc := pc + a })) ∧
      ((pc + a).toNat % 64 ≠ 0 → TrapsWith (.call o) s 0 0x0B (pc + a))) ∧
    (s.core.atBranch.operands (.ret o) = .ok (c, x) →
      (a.toNat % 64 = 0 → Completes (.ret o) s (s.withCore (c.goesTo a c.loops))) ∧
      (a.toNat % 64 ≠ 0 → TrapsWith (.ret o) s 0 0x0B a)) ∧
    (s.core.atBranch.operands (.loop o) = .ok (c, x) →
      let count := a.setWidth 32
      let fin := pc + x.b.toWord
      let beyond : Prop := ∃ l, c.loops.getLast? = some l ∧ (l.fin.toNat < fin.toNat ∨ l.fin = pc)
      let wrong : Prop := fin.toNat < pc.toNat + 64 ∨ beyond
      (fin.toNat % 64 ≠ 0 → TrapsWith (.loop o) s 0 0x0B fin) ∧
      (fin.toNat % 64 = 0 → wrong → TrapsWith (.loop o) s 0 0x05 (Machine.Instr.slotWord (.loop o))) ∧
      (fin.toNat % 64 = 0 → ¬wrong →
        (count = 0 → Completes (.loop o) s (s.withCore (c.goesTo (fin + 64) c.loops))) ∧
        (count ≠ 0 → 6 ≤ c.loops.length → TrapsWith (.loop o) s 0 0x0E (count.setWidth 64)) ∧
        (count ≠ 0 → c.loops.length < 6 →
          Completes (.loop o) s (s.withCore (c.goesTo (pc + 64) (c.loops ++ [⟨pc + 64, fin, count, 0⟩])))))) ∧
    (s.core.atBranch.operands (.lbrk o) = .ok (c, x) →
      (∀ (outer inner : List Level) (l : Level), c.loops = outer ++ l :: inner → a.toNat = inner.length + 1 →
        Completes (.lbrk o) s (s.withCore (c.goesTo (l.fin + 64) outer))) ∧
      (c.loops.length < a.toNat → TrapsWith (.lbrk o) s 0 0x05 (Machine.Instr.slotWord (.lbrk o))))

/-- R108, R109, R114, R115, R117: YIELD and ICINV go on in sequence, YIELD offering a pre-emption point; TRAP and BKPT leave a trap to be
taken after their bundle; EXIT and HALT stop issue. While a region is open the last four trap with cause 0x05 (R238). The model's choices: the
PC after EXIT and HALT is that of the next bundle (log 33), and the region test is made in slot order (log 80).

R110: TRET restores the loop stack and the latches, leaves the handler and goes to sr.trappc; outside a handler it traps with
cause 0x05. -/
def Obligations.EndingsAndReturn : Prop :=
  (∀ (o : Op) (s : State) (c : Core) (x : Srcs), s.core.guardHolds o = true →
    let pc := s.core.bundleAddr
    let leaves (i : Instr) (ok : Prop) (d : Core) : Prop :=
      s.core.atBranch.operands i = .ok (c, x) → ok → Completes i s (s.withCore d)
    let closed : Prop := c.arr.region = none
    leaves (.yield o) True (c.goesOn pc true) ∧
    leaves (.icinv o) True (c.goesOn pc false) ∧
    leaves (.trap o) closed { c.goesOn pc false with raised := some ⟨0x10, false, 0, x.a.toWord⟩, point := false } ∧
    leaves (.bkpt o) closed { c.goesOn pc false with raised := some ⟨0x13, false, 0, 0⟩, point := false } ∧
    leaves (.exit o) closed { c.goesTo (pc + 64) c.loops with run := .exiting } ∧
    leaves (.halt o) closed { c.goesTo (pc + 64) c.loops with run := .halting } ∧
    ((∃ r, c.arr.region = some r) →
      ∀ i, (i = .exit o ∨ i = .halt o ∨ i = .trap o ∨ i = .bkpt o) → s.core.atBranch.operands i = .ok (c, x) →
        TrapsWith i s 0 0x05 (Machine.Instr.slotWord i))) ∧
  (∀ (o : Op) (s : State) (c : Core) (x : Srcs), s.core.guardHolds o = true → s.core.atBranch.operands (.tret o) = .ok (c, x) →
    (s.core.intrap = false → TrapsWith (.tret o) s 0 0x05 (Machine.Instr.slotWord (.tret o))) ∧
    (s.core.intrap = true → ∃ d : Core, Completes (.tret o) s (s.withCore d) ∧
      d.intrap = false ∧ d.pc = c.trappc ∧ d.latches = c.shadow ∧ d.resumed = true ∧ d.rptidx = c.rptidx ∧
      (∀ (live rest : List Level), c.tls = live ++ rest → (∀ l ∈ live, l.count ≠ 0) → (∀ l, rest.head? = some l → l.count = 0) →
        d.loops = live) ∧
      d = { c with
        act := .none, point := false, intrap := false, inrpt := false, pc := d.pc, latches := d.latches, loops := d.loops
        resumed := true, tls := [], shadow := Latches.empty, brkExempt := .next }))

/-- R111, R112: TWAIT goes on when no token of its set is pending, TWAIT.ANY when one is not, or none is named, TSTAT always, each with
the states of the tokens; FENCE goes on; from system scope on it releases to the host, and at
peer scope it holds its bundle back until the stores posted to other packages are acknowledged. -/
def Obligations.TokenWaits : Prop :=
  ∀ (o : Op) (s : State) (c : Core) (x : Srcs), s.core.guardHolds o = true →
    let named (k : Fin 32) : Prop := k ≠ 0 ∧ x.a.toWord.getLsbD k = true
    let waits : Prop := ∃ k, named k ∧ c.tokens[k] = .pending
    let leaves (i : Instr) (ok : Prop) : Prop := s.core.atBranch.operands i = .ok (c, x) → ok →
      ∃ r : Word, (∀ k : Fin 32, (r.getLsbD k = true ↔ named k ∧ c.tokens[k] = .complete) ∧
          (r.getLsbD (32 + k) = true ↔ named k ∧ c.tokens[k] = .failed)) ∧
        Completes i s (s.withCore ((c.owes 0 .br o.dst (.word r)).goesOn s.core.bundleAddr false))
    leaves (.twait o) (¬waits) ∧
    leaves (.twaitAny o) (waits → ∃ k, named k ∧ c.tokens[k] ≠ .pending) ∧
    leaves (.tstat o) True ∧
    (s.core.atBranch.operands (.fence o) = .ok (c, x) →
      let d := { c.goesOn s.core.bundleAddr false with fenceWait := c.fenceWait || x.a.toWord == 5 && !c.peerStores.isEmpty }
      (x.a.toWord ≠ 4 → x.a.toWord ≠ 5 → Completes (.fence o) s (s.withCore d)) ∧
      (x.a.toWord = 4 ∨ x.a.toWord = 5 → Leaves (.fence o) s (s.withCore d).systemRelease))

/-- R25 to R30, R40, R116: MFSR owes the value of a listed register, 0 of sr.rptidx in a repeated bundle, whose executions
are then complete; MTSR leaves a listed register as its fields allow and no other differs; an index that is not listed traps with cause 0x04. -/
def Obligations.SpecialRegisters : Prop :=
  ∀ (o : Op) (s : State) (c : Core) (x : Srcs), s.core.guardHolds o = true →
    let i := x.a.toWord.toNat
    let register (j : Nat) : Prop := j ≤ 0x0A ∨ (0x10 ≤ j ∧ j ≤ 0x27)
    let listed : Prop := register i
    (s.core.atBranch.operands (.mfsr o) = .ok (c, x) →
      let repeated : Bool := match c.cur with
        | some u => u.bundle.hdr.rpt != 0
        | none => false
      (listed → ∃ d : Core, (i ≠ 10 → d = c) ∧ d = { c with cycle := d.cycle, fresh := d.fresh } ∧ c.cycle.toNat ≤ d.cycle.toNat ∧
        Completes (.mfsr o) s (s.withCore ((d.owes 0 .br o.dst (.word (if i = 5 ∧ repeated = true then 0 else d.readSr i))).goesOn
          s.core.bundleAddr false))) ∧
      (¬listed → TrapsWith (.mfsr o) s 0 0x04 x.a.toWord)) ∧
    (s.core.atBranch.operands (.mtsr o) = .ok (c, x) →
      (listed → ∃ d : Core, Completes (.mtsr o) s (s.withCore d) ∧
        (∀ j, register j → d.readSr j = if j = i then srAfter c i x.b.toWord (c.readSr i) else c.readSr j) ∧
        d = { c.goesOn s.core.bundleAddr false with
          trappc := d.trappc, trapcause := d.trapcause, trapinfo := d.trapinfo, tvec := d.tvec, rptidx := d.rptidx, tls := d.tls }) ∧
      (¬listed → TrapsWith (.mtsr o) s 0 0x04 x.a.toWord))

/-- R113: BARA arrives, unless it has arrived at the current phase, and goes on; BAR goes on once the phase at which it has arrived is
complete. The model's choice: phases are kept per gang by their count, and BAR waits once for a phase at which a BARA has arrived (log 41).

R113, R285, R238: a level that the launch record does not have traps with cause 0x04, which names the operand; an open region with 0x05. -/
def Obligations.Barriers : Prop :=
  (∀ (o : Op) (s : State) (c : Core) (x : Srcs) (i : Instr), s.core.guardHolds o = true → (i = .bar o ∨ i = .bara o) →
    s.core.atBranch.operands i = .ok (c, x) →
    ((∃ r, c.arr.region = some r) → TrapsWith i s 0 0x05 (Machine.Instr.slotWord i)) ∧
    (∀ t p, c.arr.region = none → x.a.toWord.toNat < 8 → s.taskOf c.kid = some t → s.spec? t.launch = some p →
      p.depthOf ≤ x.a.toWord.toNat → TrapsWith i s 0 0x04 (BitVec.ofNat 64 (2 ^ 8 + 0xF0 + x.a.toWord.toNat)))) ∧
  ∀ (o : Op) (s : State) (c : Core) (x : Srcs) (t : Task) (g : Gang), s.core.guardHolds o = true → c.arr.region = none →
    let level := x.a.toWord.toNat
    let pc := s.core.bundleAddr
    s.barTask level = .ok (t, g) → (s.scopeOf t level = 5 → c.peerStores = []) →
    let b := s.barrier g.id level t.path
    let s' := s.withCore c
    (s.core.atBranch.operands (.bara o) = .ok (c, x) →
      (b.last t.rank = some b.phase → Completes (.bara o) s (s.withCore (c.goesOn pc false))) ∧
      (b.last t.rank ≠ some b.phase →
        let u := s'.arriveAt t g level
        Leaves (.bara o) s (u.withCore (u.core.goesOn pc false)))) ∧
    (s.core.atBranch.operands (.bar o) = .ok (c, x) →
      let u := if 8 + level ∈ c.arrived ∨ 16 + level ∈ c.arrived ∨ b.last t.rank = some b.phase then s' else s'.arriveAt t g level
      let q := u.barrier g.id level t.path
      (∃ p, q.last t.rank = some p ∧ p < q.phase) →
      Leaves (.bar o) s (u.withCore
        (({ u.core with arrived := u.core.arrived.filter fun n => n != 8 + level && n != 16 + level } : Core).goesOn pc false)))

/-! ## What every operation shares -/

/-- R45, R46: a NOP and an operation whose guard is false read nothing and write nothing; in the BR slot the bundle goes on in
sequence. -/
def Obligations.NothingDone : Prop :=
  (∀ (sl : Slot) (s : State), Completes (.nop sl) s s) ∧
  ∀ (i : Instr) (row : Row) (o : Op) (s : State), i.info = some (row, o) → s.core.guardHolds o = false →
    i.scheduleBad s.core.env = none →
    Completes i s (if row.slot = .br then s.withCore (s.core.goesOn s.core.bundleAddr false) else s)

/-- R11 to R13, R16, R17, R19, R43, R49, R50: what each port supplies; a queue supplies its oldest entry, which leaves it.

R19: the address of a pattern is its base and the sum of its six terms, each a stride times a loop index scaled by the element
size, the sum reduced modulo MODULUS where that is not zero. -/
def Obligations.SourceValues : Prop :=
  (∀ (c : Core) (field : Nat) (e : Bool),
    let reads (p : Port) (v : Val) : Prop := c.readPort field p e = .ok (c, v)
    (∀ n : Fin 64, c.isEmpty (.s n) = false → reads (.s n) (.word (if n = 0 then 0 else c.sregs[n]))) ∧
    (∀ n : Fin 64, c.isEmpty (.v n) = false → reads (.v n) (.vec c.vregs[n])) ∧
    (∀ n : Fin 8, c.isEmpty (.m n) = false →
      reads (.m n) (.vec (if n = 0 then (BitVec.allOnes 256).setWidth 2048 else (c.mregs[n]).setWidth 2048))) ∧
    (∀ n : Fin 8, reads (.f n) (.word (if n = 0 ∨ c.flags.getLsbD n = true then 1 else 0))) ∧
    (∀ (u : LUnit) (k : Fin 4) (v : Val), (c.latches.get u)[k.val]? = some v → reads (.latch u k) v) ∧
    reads (.imm .full) (.word c.imm) ∧
    reads (.imm .lo) (.word (BitVec.ofInt 64 (num 32 false (c.imm.toNat % 2 ^ 32)))) ∧
    reads (.imm .hi) (.word (BitVec.ofInt 64 (num 32 false (c.imm.toNat / 2 ^ 32)))) ∧
    reads (.imm .loz) (.word (BitVec.ofNat 64 (c.imm.toNat % 2 ^ 32))) ∧
    (∀ k : Fin 6, reads (.loop k) (.word (match c.loops[k.val]? with
      | some l => l.index.setWidth 64
      | none => 0))) ∧
    reads .kid (.word (BitVec.ofNat 64 c.kid)) ∧
    (∀ k : Fin 32, reads (.short k) (.word (BitVec.ofInt 64 ((k : Int) - 16)))) ∧
    (c.arr.region = none →
      (∀ (n : Fin 4) (y : QEntry) (rest : List QEntry), c.dq[n] = y :: rest → y.reserved = none →
        c.readPort field (.dq n) e = .ok ({ c with dq := c.dq.set n rest }, y.val)) ∧
      (∀ (n : Fin 2) (y : QEntry) (rest : List QEntry), c.eq[n] = y :: rest → y.reserved = none →
        c.readPort field (.eq n) e = .ok ({ c with eq := c.eq.set n rest }, y.val)) ∧
      (∀ (y : QEntry) (rest : List QEntry), c.cq = y :: rest → y.reserved = none →
        c.readPort field .cq e = .ok ({ c with cq := rest }, y.val)))) ∧
  (∀ (c : Core) (n : Fin 8),
    let w := (c.aps[n]).toNat
    let index (k : Nat) : Int := match c.loops[k]? with
      | some l => l.index.toNat
      | none => 0
    let term (k : Nat) : Int := num 20 false (w / 2 ^ (64 + 20 * k) % 2 ^ 20) * index k * 2 ^ (w / 2 ^ 20 % 2 ^ 4)
    let off := ((List.range 6).map term).sum
    let modulus : Int := (w / 2 ^ 24 % 2 ^ 20 : Nat)
    c.apAddr n = (w % 2 ^ 20 : Nat) + if modulus = 0 then off else off % modulus)

/-- R47, R50, R282: reading the sources of an operation changes nothing of a core but its queues and what is under way to them. -/
def Obligations.SourcesFrame : Prop :=
  ∀ (i : Instr) (c d : Core) (x : Srcs), (c.sources i = .ok (d, x) ∨ c.operands i = .ok (d, x)) →
    d = { c with dq := d.dq, eq := d.eq, cq := d.cq, pending := d.pending, vars := d.vars } ∧
    (∀ row o, i.info = some (row, o) →
      (∀ p ∈ [o.op1, o.op2, o.op3], (∀ n, p ≠ .dq n) ∧ (∀ n, p ≠ .eq n) ∧ p ≠ .cq) → d = c)

/-- R14, R47, R285: an operation whose first source is an empty scalar register waits with E1 = 0, which leaves everything but the
note of the wait, and with E1 = 1 traps with cause 0x06 and the port in sr.trapinfo.

R19, R198, R201, R193: an access of the pool traps with cause 0x0B on a misaligned offset, 0x0A beyond the scratchpad, and 0x0C on
poison, of which the lowest sector is named. -/
def Obligations.SourceTraps : Prop :=
  (∀ (o : Op) (s : State) (n : Fin 64), s.core.guardHolds o = true → o.op1 = .s n → s.core.isEmpty (.s n) = true →
    (o.e1 = false → Completes (.add o) s (s.withCore { s.core with stalled := some ⟨1, (Port.s n).toNat, false, false⟩ })) ∧
    (o.e1 = true → TrapsWith (.add o) s 1 0x06 (BitVec.ofNat 64 (256 + (Port.s n).toNat)))) ∧
  (∀ (o : Op) (s : State) (c : Core) (x : Srcs), s.core.guardHolds o = true → s.core.sources (.lds o) = .ok (c, x) →
    let a := c.adOffset o.op1 x.a
    let n := 2 ^ (x.b.toWord.toNat % 4)
    ((BitVec.ofInt 64 a).toNat % n ≠ 0 → TrapsWith (.lds o) s 2 0x0B (BitVec.ofInt 64 a)) ∧
    ((BitVec.ofInt 64 a).toNat % n = 0 → a < 0 → TrapsWith (.lds o) s 2 0x0A (BitVec.ofInt 64 a)) ∧
    ((BitVec.ofInt 64 a).toNat % n = 0 → 0 ≤ a → c.scratchSize < a.toNat + n →
      TrapsWith (.lds o) s 2 0x0A (BitVec.ofNat 64 (max a.toNat c.scratchSize))) ∧
    (∀ fault, (BitVec.ofInt 64 a).toNat % n = 0 → 0 ≤ a → a.toNat + n ≤ c.scratchSize → c.latent = [] →
      c.poison = [(a.toNat / 32, fault)] → (c.group (poolGroup a.toNat)).state ≠ 1 →
      let s' := s.withCore { s.core with recs := s.core.recs ++ [(0x0025, 0x0C, BitVec.ofNat 64 (a.toNat / 32 * 32), 0)] }
      exec (.lds o) s = .next (s.trapped s' 2 0x0C (BitVec.ofNat 64 (a.toNat / 32 * 32 + if fault then 2 ^ 63 else 0))).finish))


/-! ## Encoding and steps -/

/-- R34, R36, R44 and the maps of R85 to R97: words written out from the encodings decode to the operations they stand for. -/
def Obligations.DecodeWords : Prop :=
  let decodes (sl : Slot) (w : Nat) (i : Instr) : Prop := decodeSlot DecodeEnv.widest sl w = .ok i
  let op (dst a b c : Port) : Op := ⟨0, false, dst, a, b, c, false, false, false, false⟩
  decodes .br 0x06000A1A2000 (.loop (op (.s 0) (.imm .lo) (.imm .hi) (.s 0))) ∧
  decodes .sc 0x01004A8F1000 (.add (op (.s 4) (.loop 0) (.short 17) (.s 0))) ∧
  decodes .lm 0x01044B200000 (.ldv (op (.v 4) (.ap 2) (.s 0) (.s 0))) ∧
  decodes .ec 0x010000A0B000 (.cpy (op (.s 0) (.s 10) (.s 11) (.s 0))) ∧
  decodes .va 0x0D4484050008 (.vadd .a .f32 { op (.v 8) (.v 0) (.v 16) (.s 0) with gf := 2, e1 := true }) ∧
  decodes .xn 0x060454343F00 (.xbnet (op (.v 5) (.v 3) (.v 3) (.short 16))) ∧
  decodes .mx 0x050B95000000 (.mxpush (op (.z 1) (.v 16) (.s 0) (.s 0)))

/-- R44, R49, R99: every slot operation that R99 calls legal decodes from the word that encodes it, with every operand. -/
def Obligations.DecodeOfEncode : Prop :=
  ∀ (e : DecodeEnv) (i : Instr) (sl : Slot) (w : Nat),
    encode i = some (sl, w) → i.wf e = true → i.scheduleBad e = none → decodeSlot e sl w = .ok i

/-- R44, R48, R49, R60: a word that decodes is the one word that encodes what it decodes to, which is a legal operation. -/
def Obligations.EncodeOfDecode : Prop :=
  ∀ (e : DecodeEnv) (i : Instr) (sl : Slot) (w : Nat), w < 2 ^ 48 → decodeSlot e sl w = .ok i →
    encode i = some (sl, w) ∧ i.wf e = true ∧ i.scheduleBad e = none

/-- A step runs the event that comes next, an event that names a unit the package does not have faults, and nothing else does:
every slot operation and every event of units that exist goes on. -/
def Obligations.StepsGoOn : Prop :=
  (∀ (i : Instr) (rest : List Instr) (s : State), s.agenda = i :: rest → step s = exec i { s with agenda := rest }) ∧
  (∀ (i : Instr) (s : State), i.eventOk = true → Goes (exec i s)) ∧
  (∀ (i : Instr) (s : State), i.eventOk = false → exec i s = .fault .noSuchUnit)

/-- R60, R110, R286: a core that may execute and stands before a bundle fetches 64 bytes at its PC, decodes them and executes the
bundle, which a TRET resumes at execution sr.rptidx; of a bundle that cannot be fetched, fails a check or has no such execution it takes the
trap, once nothing older has to wait (R196, R284). R457: a core whose clock is stopped does nothing. -/
def Obligations.BundleEntered : Prop :=
  ∀ (k : Nat) (s s' : State), inCores k = true →
    let v := s.focus k
    let c := v.core
    (s.clockRuns k = false → Happens (.bundleExecution k) s v) ∧
    (s.clockRuns k = true → c.canExecute = true → c.cur = none →
      let j := if c.resumed then c.rptidx else 0
      let trapped (t : TrapInfo) (n : Nat) (rpt : Bool) : State :=
        if s'.core.entryWaits then s'.withCore { s'.core with stalled := some ⟨0, 256, false, false⟩ }
        else s'.takeTrap t s'.core.pc n rpt s'.core.loops
      (∀ w, v.fetchBundle = (s', .ok w) →
        let h := Header.of w
        let read := decodeBundle s'.core.env (c.brkExempt != .none) w
        (∀ b, read = .ok b → j ≤ h.rpt →
          let u : Current := ⟨b, c.pc, j, c.loops⟩
          Happens (.bundleExecution k) s ((s'.withCore { s'.core with cur := some u, resumed := false }).execute u)) ∧
        (∀ f, read = .error f → j ≤ h.rpt →
          Happens (.bundleExecution k) s (trapped ⟨f.cause, f.hdr, f.slot, BitVec.ofNat 64 f.info⟩ j (h.rpt != 0))) ∧
        (w % 2 ^ 4 = 0xA → w / 2 ^ 50 % 2 ^ 14 = 0 → h.rpt < j →
          Happens (.bundleExecution k) s (trapped ⟨0x05, true, 0, BitVec.ofNat 64 j⟩ j (h.rpt != 0)))) ∧
      (∀ t, v.fetchBundle = (s', .error (some t)) → Happens (.bundleExecution k) s (trapped t 0 false)))

/-- R34, R38, R101: a bundle that holds one operation besides NOPs does what that operation does alone, ends its execution and
waits for its retirement; without a BR operation the PC goes on in sequence. -/
def Obligations.BundleAlone : Prop :=
  ∀ (k : Nat) (s t : State) (u : Current) (i : Instr) (row : Row) (o : Op), inCores k = true → s.clockRuns k = true →
    let v := s.focus k
    let c := v.core
    i.info = some (row, o) → u.bundle.hdr = Header.plain →
    u.bundle.ops = (Slot.all.map fun sl => if sl = row.slot then i else .nop sl) → u.exe = 0 → c.cur = some u → c.canExecute = true →
    (∀ p ∈ c.pending, c.step < p.due) → (∀ e ∈ c.arr.events, c.step < e.due) → c.act = .none → c.prodTok = 0 →
    aloneRun i (v.withCore (c.noteAccess u)) = .ok t → t.core.prodTok = 0 → (row.slot ≠ .br → t.core.act = .none) →
    let d := if row.slot = .br then t.core else t.core.goesOn u.addr false
    Happens (.bundleExecution k) s (t.withCore { d with
      step := d.step + 1, stalled := none, taken := [], room := [], cur := some { u with exe := 1 }, retiring := true })

/-- R1, R407, R369, R422, R439, R443: every step keeps the form of a state. Every memory, scratchpad and saved scratchpad stays in its one
form, every core and every event that waits names units that exist, and of the records, terminations, region logs, page reads and bad
pages that a step gives rise to none is left when it ends. The model's bound: what 4,096 rounds have not dealt with is dropped (log 92). -/
def Obligations.StepsLeaveNothing : Prop :=
  (∀ s t : State, step s = .next t → t.quiet) ∧ ∀ s t : State, s.kept → step s = .next t → t.kept

/-- R31, R366, R411, R424, R433, R440, R452: the package right after reset. What the spec states no value for is the model's
(log 5). -/
def Obligations.ResetState : Prop :=
  let s := State.reset
  (∀ k, inCores k = true →
    let c := s.coreAt k
    c.kid = k ∧ c.run = .idle ∧ (∀ p, c.byteAt p = 0) ∧ (∀ n, c.getV n = 0) ∧ (∀ z : Fin 8, c.tiles[z] = Tile.zero) ∧
    (∀ g : Fin 12, c.groups[g] = Group.zero) ∧ c.poison = [] ∧ (∀ n : Fin 64, c.isEmpty (.s n) = false) ∧
    c.refState = refSeed 1 k ∧ c.refCnt = 0 ∧ c.races = [] ∧ (∀ q : Fin 4, c.acquired[q] = 0)) ∧
  s.mem.ctxs = [] ∧ s.mem.llc = [] ∧ s.mem.keys = [] ∧ s.mem.frames = [] ∧
  s.rel.pagethr = 8 ∧ s.rel.bankthr = 4 ∧ s.rel.mode = 0 ∧ s.rel.rlsize = 0 ∧ s.rel.refEn = false ∧ s.rel.seed = 1 ∧
  s.hbm.chthr = 16 ∧ s.flash.rdthr = 1000000 ∧ s.flash.wldiff = 2000 ∧ s.plat.phase = 0 ∧ s.plat.tjmax = 100 ∧
  s.memoriesOk ∧ s.namesOk ∧ s.quiet ∧ s.sound

/-! ## Events of a core -/

/-- R41, R50, R52 to R54, R212, R277: the oldest due result is written to its destination, enters its latch file and completes its
token; a variable-latency result is written with the value it has when it is served, and fills its destination. The model's choices: the
moment of that write is free (log 12), and a result of the divide unit or of DIV and REM takes its place in a queue when it is written
(log 78). -/
def Obligations.Deliveries : Prop :=
  ∀ (k : Nat) (s : State), inCores k = true → s.clockRuns k = true →
    let v := s.focus k
    let c := v.core
    (∀ (p : Pending) (rest : List Pending), c.pending = p :: rest → p.due ≤ c.step → p.dst.exists' = true → c.freeze = 0 →
      c.heldDest p.dst = false →
      ∃ d : Core, c.Wrote d p.val p.issue p.dst ∧ c.sameBut d ∧ d.pending = rest ∧ d.vars = c.vars ∧
        d.tokens = (c.setToken p.tok .complete).tokens ∧
        (p.latch = none → d.latches = c.latches) ∧
        (∀ u y, p.latch = some (u, y) →
          ∀ z, d.latches.get z = if z = u then (y :: c.latches.get z).take 4 else c.latches.get z) ∧
        Happens (.resultDelivery k) s (v.withCore d)) ∧
    (∀ (id : Nat) (y : VarRes) (x : Val), c.vars.find? (fun z => z.id == id) = some y → y.issue < c.step → y.dst.exists' = true →
      c.freeze = 0 → c.heldDest y.dst = false → c.varReady y = true →
      let w := v.sampling y.kind
      let b := w.core
      (match y.kind with
        | .value r | .held r => x = r
        | .whq h => x = .word (w.handleWord h)
        | .htest t g => x = .word (w.tagWordOf b.ctx t g)
        | .wptr ch => x = .word (b.chans.toList.getD ch ⟨0, none, 0⟩).ptr) →
      ∃ d : Core, b.Wrote d (y.dst.takes x) y.issue y.dst ∧ b.sameBut d ∧ d.pending = b.pending ∧ d.latches = b.latches ∧
        d.vars = b.vars.filter (fun z => z.id != id) ∧ d.tokens = (b.setToken y.tok .complete).tokens ∧
        Happens (.variableResultWrite k id) s (w.withCore d))

/-- R225, R244, R281, R284, R278, R290, R302: an accumulator event acts at its step; a bundle retires, one with a FENCE at peer scope once the
stores posted are acknowledged, and sr.pts moves on if it made an ordinary access; the trap that TRAP or BKPT raised, and the trap of a
queue operation that nothing can serve, are taken. When nothing can serve it is the model's reading (log 46). -/
def Obligations.BundleEnds : Prop :=
  ∀ (k : Nat) (s : State), inCores k = true → s.clockRuns k = true →
    let v := s.focus k
    let c := v.core
    (∀ (e : AccEvent) (rest : List AccEvent), c.arr.events = e :: rest → e.due ≤ c.step → c.freeze = 0 →
      (∀ g : Fin 12, c.groups[g].state ≠ 1) →
      Happens (.accumulatorEventAct k) s (v.withCore (({ c with arr := { c.arr with events := rest } } : Core).actEvent e))) ∧
    (c.retiring = true → c.fenceWait = true → c.peerStores ≠ [] → Happens (.bundleRetire k) s v) ∧
    (c.retiring = true → (c.fenceWait = true → c.peerStores = []) → (c.cmds.map (·.id)).Nodup →
      let waits (x : Cmd) : Bool := x.phase matches .held | .cancelled _ _
      let seq (n : Nat) : Nat := (c.seq + (c.cmds.take n).countP waits) % 2 ^ 32
      ∃ d : Core, Happens (.bundleRetire k) s (v.withCore d) ∧
        d.cmds.length = c.cmds.length ∧
        (∀ (n : Nat) (x : Cmd), c.cmds[n]? = some x → d.cmds[n]? = some (match x.phase with
          | .held => { x with phase := .queued, seq := seq (n + 1) }
          | .cancelled code detail => { x with phase := .done code detail, seq := seq (n + 1) }
          | _ => x)) ∧
        d.seq = (c.seq + c.cmds.countP waits + c.ecHeld) % 2 ^ 32 ∧
        ((∀ x ∈ c.cmds, (∀ a b, x.phase ≠ .cancelled a b) ∧ (x.phase = .held → x.kind.onChannel = false)) → d.chans = c.chans) ∧
        c.pts.toNat ≤ d.pts.toNat ∧ (c.accessed = false → d.pts = c.pts ∧ d.fresh = c.fresh) ∧
        d = { c with
          retiring := false, cur := none, leftTok := 0, fenceWait := false, accessed := false, ecHeld := 0
          seq := d.seq, cmds := d.cmds, chans := d.chans, pts := d.pts, fresh := d.fresh
          tokens := (c.setToken c.leftTok .complete).tokens
          vars := c.vars.map fun (y : VarRes) => match y.kind with
            | .held x => { y with kind := .value x }
            | _ => y
          brkExempt := if c.brkExempt = .next ∧ c.resumed = false then .none else c.brkExempt }) ∧
    (∀ t, c.raised = some t → c.retiring = false → c.entryWaits = false →
      Happens (.trapEntry k) s (v.takeTrap t c.pc 0 false c.loops)) ∧
    (∀ x u, c.deadlocked.isSome = true →
      let t := v.bundleStep
      t.core.step = c.step → t.core.deadlocked = some x → t.core.cur = some u →
      Happens (.streamDeadlockTrap k) s (t.takeTrap ⟨0x05, false, x.slot, BitVec.ofNat 64 (2 ^ 63 + x.port % 256)⟩ u.addr u.exe
        (u.bundle.hdr.rpt != 0) u.startLoops))

/-- R26, R27, R32, R33, R239, R240, R284: taking a trap. What is older completes, so that registers, queues and scratchpad are those of the
core with its older results delivered, an open region is abandoned with what it pushed, the trap registers, the loop stack and the latches
are saved, and the PC is sr.tvec; with no handler the task ends with its context, and a trap in a handler halts the core too; a replayed
region that lost an operand ends its GGEMM tile (R242; when that is, is the model's reading, log 59). -/
def Obligations.TrapEntry : Prop :=
  ∀ (s : State) (t : TrapInfo) (pc : Word) (j : Nat) (rpt : Bool) (loops : List Level),
    let c := s.core
    let w := (s.unarrive c.kid).sampleVars
    let u := s.takeTrap t pc j rpt loops
    let d := u.core
    let plain : Prop := t.cause ≠ 0x15 ∨ w.ggemmTask = none
    let ends (type : Nat) : Prop := u = { w with
      core := d
      mem := { w.mem with
        recs := w.mem.recs ++ [⟨0, c.kid, type, 0, some c.ctx, t.cause, d.trappc, d.trapinfo, 0, 0, 0⟩]
        doomed := w.mem.doomed ++ [⟨c.ctx, type, none⟩] } }
    (c.arrived = [] → c.vars = [] → w = s) ∧
    (c.intrap = true → ends 0x0011 ∧ d.run = .halted) ∧
    (c.intrap = false → c.tvec = 0 → plain → ends 0x0010) ∧
    (c.intrap = false → c.tvec ≠ 0 → plain → u = w.withCore d) ∧
    (∀ x, c.intrap = false → t.cause = 0x15 → w.ggemmTask = some x →
      d.run = .exiting ∧ d.pending = [] ∧ d.vars = [] ∧ d.arr.events = [] ∧
      u.launch = (w.report x.launch ⟨0x0060, x.path.getD 0 0, x.path⟩).launch) ∧
    (c.intrap = true ∨ plain →
      d.pc = c.tvec ∧ d.tvec = c.tvec ∧ d.intrap = true ∧ d.trapinfo = t.info ∧ d.loops = [] ∧ d.latches = Latches.empty ∧
      d.pending = [] ∧ d.vars = [] ∧ d.arr.events = [] ∧ d.arr.region = none ∧ d.step = c.step + 1 ∧ d.stalled = none ∧ d.cur = none ∧
      (t.cause < 2 ^ 8 → t.slot < 8 →
        d.trapcause = BitVec.ofNat 64 (t.cause + if t.hdr then 2 ^ 11 else 2 ^ 8 * t.slot)) ∧
      let b := w.releaseHeld.core
      let o := b.stamp.abandon.older
      o.sameData d ∧ d.tokens = (o.setToken b.leftTok .complete).tokens ∧ (t.cause ≠ 0x15 → d.arr = o.arr) ∧
      d = { o with
        arr := d.arr, run := d.run, trappc := d.trappc, rptidx := d.rptidx, tls := d.tls, shadow := d.shadow, inrpt := d.inrpt
        trapcause := d.trapcause, trapinfo := t.info, loops := [], intrap := true, latches := Latches.empty, pc := c.tvec
        step := o.step + 1, tokens := d.tokens, cur := none, act := .none, retiring := false, point := false, raised := none
        stalled := none, prodTok := 0, leftTok := 0, brkExempt := .none, fenceWait := false, resumed := false, room := [], loans := [] } ∧
      match c.arr.region with
      | none => d.trappc = pc ∧ d.rptidx = j ∧ d.tls = loops ∧ d.inrpt = rpt ∧ d.shadow = o.latches ∧ b.stamp.abandon = b.stamp
      | some r => (∀ n : Fin 4, ∀ e ∈ d.dq[n], e.issue < r.openStep) ∧ (∀ n : Fin 2, ∀ e ∈ d.eq[n], e.issue < r.openStep) ∧
          (∀ e ∈ d.cq, e.issue < r.openStep) ∧
          d.trappc = r.pc ∧ d.rptidx = 0 ∧ d.tls = r.loops ∧ d.inrpt = false ∧ d.shadow = Latches.empty ∧
          d.arr.carry = [] ∧ d.arr.active = r.active ∧ d.arr.rc = c.arr.rc.setIfInBounds r.tile r.rc)

/-- R31, R57, R58, R173, R322, R329, R361, R23, R59: the dispatch of a task. The core takes the state of R31, the parameter block
is copied, the kernel record is checked and the parameter registers are written; a copy that faults fails the tile, and a
record that fails traps before the first bundle. The model's choices: the core keeps the kernel record as read when the launch was
accepted, and the check reads it again (log 43); what the scratchpad, vector registers and tiles hold in the same context is free
(log 6). -/
def Obligations.TaskDispatch : Prop :=
  ∀ (k : Nat) (s : State) (x : Task) (p : Spec), inCores k = true →
    s.clockRuns k = true → s.launch.tasks.find? (fun t => t.core == k && !t.begun) = some x → (s.coreAt k).run = .idle →
    (s.coreAt k).freeze = 0 → (∀ g : Fin 12, (s.coreAt k).groups[g].state ≠ 1) →
    s.dispatches x.launch = true → s.spec? x.launch = some p →
    let v := s.focus k
    let kp := (s.kernelOf x.launch x.path).1
    let kernel := (s.kernelOf x.launch x.path).2
    let coord := match x.tile.bind s.tile? with
      | some y => y.coord
      | none => [0, 0, 0]
    ∃ u : State, u.core.kid = v.core.kid ∧ v.core.dispatched u.core p.ctx (p.depthOf - 1) (kp + 64) kernel ∧
      u.mem = s.mem ∧ u.others = v.others ∧
      u.launch = { s.launch with
        tasks := s.launch.tasks.map fun (t : Task) => if t.core == k then { x with begun := true, order := s.launch.order } else t
        order := s.launch.order + 1 } ∧
      let copied : State × Nat := match s.launch? x.launch with
        | some l =>
          let n := field l.bytes 0x24 4
          if n = 0 then (u, 0)
          else match u.engRead k p.ctx l.param n with
            | (w, .error e) => (w, e)
            | (w, .ok b) => w.engWrite k p.ctx (BitVec.ofNat 64 (2 ^ 60 + field l.bytes 0x20 4)) b
        | none => (u, 0)
      (copied.2 = 0 → ∃ w : State, w = copied.1.withCore { copied.1.core with sregs := w.core.sregs } ∧
        (∀ n : Fin 64, 48 ≤ n.val → n.val < 62 → w.core.getS n = BitVec.ofNat 64 (s.paramRule x coord n)) ∧
        (∀ n : Fin 64, (n.val < 48 ∨ 62 ≤ n.val) → w.core.getS n = 0) ∧
        match w.checkKernel k p.ctx kp with
        | (y, .ok _) => Happens (.taskDispatch k) s y
        | (y, .error f) => Happens (.taskDispatch k) s (y.takeTrap f (kp + 64) 0 false [])) ∧
      (copied.2 ≠ 0 → ∃ y : State, Happens (.taskDispatch k) s y ∧ y.core.run = .idle ∧ (∀ t ∈ y.launch.tasks, t.core ≠ k))

/-- R288, R289, R380 to R382: a claimed task is saved at a pre-emption point, or by a forced stop at a bundle boundary once its
limit has passed; what prevents the stop is ended, and the stop lands at the MXOPEN bundle of an abandoned region or before the
handler of a repeat that traps. The image is the core with its older results delivered (R32, R284), but for its commands. -/
def Obligations.Preemption : Prop :=
  ∀ (k : Nat) (s : State) (x : Task) (slot : Nat), inCores k = true →
    let v := s.focus k
    let c := v.core
    let limit : Prop := ∃ y ∈ s.launch.claims, y.victim = k ∧ y.limit = true
    let saves (i : Instr) (forced : Bool) (P : Core → Prop) : Prop :=
      ∃ (t : State) (image : Core), Happens i s t ∧ image.stopped ∧ P image ∧ t.core = { image with run := .saving } ∧
        t.launch.saved = s.launch.saved ++ [⟨s.launch.nextId, slot, forced, x, image, false⟩]
    Happens (.preemptionLimitExpiry k) s { v with launch := { v.launch with claims := v.launch.claims.map fun (y : Claim) =>
      if y.victim = k then { y with limit := true } else y } } ∧
    (s.clockRuns k = true → v.taskOf k = some x → v.freeSlot c.ctx = some slot → c.entryWaits = false →
      let stands (o d : Core) : Prop := o.sameData d ∧ d = { o with
        cmds := d.cmds, chans := d.chans, arrived := d.arrived, cur := none, point := false, stalled := none, room := [], loans := [] }
      let older := v.sampleVars.core.stamp.older
      (c.run = .running → c.point = true → c.preq = true → c.retiring = false → c.arr.region = none →
        saves (.preemptAtPoint k) false fun d => stands older d ∧ d.pc = c.pc ∧ d.loops = c.loops ∧ d.point = false) ∧
      (limit → c.atBoundary = true → saves (.forcedStop k) true fun d => stands older d ∧ d.pc = c.pc ∧ d.loops = c.loops) ∧
      (∀ r, limit → c.arr.region = some r → c.retiring = false → c.run ≠ .saving →
        saves (.forcedStopEscalation k) true fun d =>
          stands { v.sampleVars.core.stamp.abandon.older with
            seq := d.seq, ecHeld := 0, pc := r.pc, loops := r.loops, latches := Latches.empty
            shadow := if c.intrap then c.shadow else Latches.empty
            rptidx := 0, act := .none, raised := none, resumed := false, brkExempt := .none } d ∧
          d.pc = r.pc ∧ d.loops = r.loops ∧ d.rptidx = 0 ∧ d.latches = Latches.empty ∧ d.arr.abandoned.isSome = true) ∧
      (∀ u y, limit → c.arr.region = none → c.retiring = false → c.run = .running → c.cur = some u → u.exe ≠ 0 → c.stalled = some y →
        c.intrap = false → c.tvec ≠ 0 → (v.unarrive c.kid).sampleVars.mem.doomed = [] →
        saves (.forcedStopEscalation k) true fun d =>
          stands (v.takeTrap ⟨0x05, false, y.slot, BitVec.ofNat 64 (2 ^ 63 + y.port % 256)⟩ u.addr u.exe (u.bundle.hdr.rpt != 0)
            u.startLoops).core d ∧
          d.pc = c.tvec ∧ d.intrap = true ∧ d.trappc = u.addr ∧ d.rptidx = u.exe ∧
          d.trapcause = BitVec.ofNat 64 (0x05 + 256 * (y.slot % 2 ^ 56)) ∧ d.trapinfo = BitVec.ofNat 64 (2 ^ 63 + y.port % 256)))

/-- R383 to R385, R32: a save writes the header of its slot, keeps what R384 names and frees the core: after a forced stop all of the
core's state, at a point all but the vector and mask registers, tiles, array and scratchpad bytes that are not live, which read zero. A
restore, whose slot reads, sets the saved state on a free core of the task's unit and frees the slot. R114, R330: a task that has ended and
waits for nothing completes. The model's choices: the image is data of the model (log 26), the bytes that the slot holds behind its header
are free (log 82), and range tasks that the core held become orphans (log 50). -/
def Obligations.SavesAndCompletion : Prop :=
  ∀ (k : Nat) (s : State), inCores k = true → s.clockRuns k = true →
    let v := s.focus k
    let c := v.core
    (∀ (x : Saved) (y : Ctx) (u w : State) (fs : List (Nat × Nat)), s.launch.saved.find? (fun z => !z.done && z.task.core == k) = some x →
      s.mem.ctx c.ctx = some y → c.saveReady = true → c.latent = [] →
      let a := BitVec.ofNat 64 (y.savebase + 2 ^ 20 * x.slot)
      let live := (List.range 64).countP c.kernel.vlive.testBit
      let size := if x.forced then 917504 else 65536 + 256 * live + (c.kernel.extents.map (·.2)).foldl (· + ·) 0
      v.slotFrames k y.num a .write 0 ((64 + size + 65535) / 65536) = (u, some fs) →
      let pages := ((List.range fs.length).zip fs).foldl (fun (m : MemState) p => m.writeImage u.fresh p.1 p.2.1 size) u.mem
      ({ u with mem := pages, fresh := u.fresh + 1 } : State).engWrite k y.num a
        (leBytes 8 (if x.forced then 2 else 1) ++ leBytes 8 (v.launchRecord x.task.launch).toNat ++
          leBytes 8 c.pc.toNat ++ leBytes 4 size ++ leBytes 36 0) = (w, 0) →
      let full : Core := { c with run := x.image.run, peerFail := [], recs := [], audits := [] }
      let ranges := c.kernel.extents ++ (((List.range c.numV).filter c.kernel.vlive.testBit).map fun n => (c.vregOff n, 256)) ++ c.benchLive
      ∃ image : Core,
        (if x.forced then image = full
        else
          image = { full with
            vregs := image.vregs, mregs := image.mregs, tiles := Vector.replicate 8 Tile.zero
            arr := { MxArray.zero with abandoned := c.arr.abandoned }, scratch := image.scratch, leftover := none, poison := image.poison } ∧
          (∀ p, p ∈ image.poison ↔ p ∈ c.poison ∧ ∃ e ∈ ranges, 32 * p.1 < e.1 + e.2 ∧ e.1 < 32 * p.1 + 32) ∧
          (∀ n : Fin 64, image.getV n = if c.kernel.vlive.testBit n then c.getV n else 0) ∧
          (∀ n : Fin 8, n ≠ 0 → image.getM n = if c.kernel.mlive.testBit n then c.getM n else 0) ∧
          ∀ p, image.byteAt p = if ∃ e ∈ c.kernel.extents, e.1 ≤ p ∧ p < e.1 + e.2 then c.byteAt p else 0) ∧
        Happens (.saveComplete k) s ({ w with
          core := w.core.endTask
          launch := { w.launch with
            saved := w.launch.saved.map fun (z : Saved) => if z.id == x.id then { z with image := image, done := true } else z
            tasks := w.launch.tasks.filter fun (t : Task) => t.core != k
            claims := w.launch.claims.filter fun (z : Claim) => z.victim != k
            ranges := w.launch.ranges.map fun (r : RangeTask) => if r.holder == some k then { r with holder := none } else r } })) ∧
    (∀ (x : Saved) (y : Ctx) (w : State), s.launch.saved.find? (fun z => z.id == x.id) = some x → x.done = true → x.task.gang = none →
      v.coreFree k = true → inUnit (v.unitFor x.task).1 (v.unitFor x.task).2 k = true → v.dispatches x.task.launch = true →
      v.outranked k (v.prioOf x.task.launch) = false → s.mem.ctx x.image.ctx = some y → c.latent = [] → v.readSlot k x = (w, true) →
      ∃ (d : Core) (t : State), Happens (.taskRestore k x.id) s t ∧
        d = { x.image with
          kid := c.kid, fresh := c.fresh, cycle := c.cycle, taken := c.taken, lgen := c.lgen + 1, preq := false, degr := c.degr
          nextId := max c.nextId x.image.nextId, peerStores := c.peerStores
          peerFail := c.peerFail, refState := c.refState, refCnt := c.refCnt, retWhy := c.retWhy, audits := c.audits, recs := c.recs
          races := [], bankUe := c.bankUe, freeze := c.freeze, poolReqs := c.poolReqs
          groups := c.groups.map fun (g : Group) => { g with entries := [] } } ∧
        let u : State := { w with
          core := d
          launch := { v.launch with
            saved := v.launch.saved.filter fun (z : Saved) => z.id != x.id
            tasks := v.launch.tasks ++ [{ x.task with core := k, order := v.launch.order }]
            order := v.launch.order + 1 } }
        t = (u.engWrite 0 y.num (BitVec.ofNat 64 (y.savebase + 2 ^ 20 * x.slot)) (leBytes 1 0)).1) ∧
    (∀ x : Task, s.taskOf k = some x → c.run = .exiting → c.retiring = false → c.cmds = [] → c.vars = [] →
      (∀ n : Fin 32, c.tokens[n] ≠ .pending) →
      ∃ t : State, Happens (.taskCompletion k) s t ∧ t.core.run = .idle ∧ t.launch.tasks = s.launch.tasks.filter (fun y => y.core != k) ∧
        (∀ l ∈ s.launch.launches, ∃ m ∈ t.launch.launches, m.id = l.id ∧ m.tasks = if l.id = x.launch then l.tasks + 1 else l.tasks))

/-! ## Events of the pool and of commands -/

/-- R186, R189 to R191, R195, R196: arbitration grants the oldest request first; the updater serves the oldest entry of a group; a
freeze ends; a bank's retirement rebuilds its sectors and leaves the group degraded, but not while the core is frozen. The model's choices:
the requests of an sc are those that the event names (log 16), and a bank is retired at or above BANKTHR (log 88). -/
def Obligations.PoolEvents : Prop :=
  ∀ (k : Nat) (s : State), inCores k = true → s.clockRuns k = true →
    let v := s.focus k
    let c := v.core
    (∀ reqs, c.freeze ≠ 0 → ∃ left : List PoolReq, left.Perm (c.poolReqs ++ reqs) ∧
      Happens (.poolArbitration k reqs) s (v.withCore { c with poolReqs := left, taken := [] })) ∧
    (∀ reqs, c.freeze = 0 → c.latent = [] → (∀ g : Fin 12, c.groups[g].state ≠ 1) → ∃ d : Core,
      Happens (.poolArbitration k reqs) s (v.withCore d) ∧
      d = { c with poolReqs := d.poolReqs, taken := d.taken, groups := d.groups } ∧
      let left := d.poolReqs
      (∀ r ∈ left, r.sectors ≠ [] ∧ ∃ q ∈ c.poolReqs ++ reqs, r = { q with sectors := r.sectors } ∧ r.sectors.Sublist q.sectors) ∧
      ((∀ g : Fin 12, c.groups[g].entries.length < 64) → (c.poolReqs ++ reqs).Nodup → ∀ q ∈ c.poolReqs ++ reqs, (q.sectors.map fun x => (sectorGroup x, sectorBank x)).Nodup →
        (∀ r ∈ c.poolReqs ++ reqs, r ≠ q → q.step < r.step ∨ (q.step = r.step ∧ q.slot < r.slot)) →
        ∀ r ∈ left, r.step = q.step → r.slot ≠ q.slot)) ∧
    (∀ (g : Fin 12) (e : DeltaEntry) (rest : List DeltaEntry), c.groups[g].entries = e :: rest → c.groups[g].state = 0 →
      c.freeze = 0 → c.latent = [] → (∀ b ∈ e.banks g, b ∉ c.taken) →
      let after : State := v.withCore { c with taken := e.banks g ++ c.taken, groups := c.groups.set g { c.groups[g] with
        entries := (e :: rest).filter fun y => y.row != e.row || y.recompute != e.recompute } }
      (e.recompute = false → Happens (.parityUpdate k g) s after) ∧ (e.recompute = true → Happens (.parityRecompute k g) s after)) ∧
    Happens (.poolFreezeEnd k) s (v.withCore { c with freeze := 0 }) ∧
    (∀ (g : Fin 12) (j : Nat), j < 8 → c.groups[g].state = 0 → s.rel.bankthr ≠ 0 → s.rel.bankthr ≤ c.bankUe.toList.getD (8 * g + j) 0 →
      Happens (.bankRetirementStart k g j) s (v.withCore { c with groups := c.groups.set g { c.groups[g] with
        state := 1, dbank := j, row := 0, was := c.poison.countP fun p => sectorGroup p.1 == g.val && sectorBank p.1 == j } })) ∧
    (∀ g : Fin 12, c.freeze ≠ 0 → Happens (.bankRetirementComplete k g) s v) ∧
    (∀ g : Fin 12, c.groups[g].state = 1 → c.groups[g].entries = [] → c.poison = [] → c.latent = [] → c.freeze = 0 → s.quiet →
      let x := c.groups[g]
      let u := v.withCore { c with degr := true, groups := c.groups.set g { x with state := 2, entries := [], row := 0 } }
      Happens (.bankRetirementComplete k g) s
        ((u.emit (u.coreRec k 0x0004 0 0 (BitVec.ofNat 64 (bankNumber g x.dbank)) (BitVec.ofNat 64 (0 - x.was)))).checkDegraded k))

/-- R247, R249, R254, R255, R265, R267, R268, R360: commands after issue. A queued command that nothing holds back starts; a started
copy moves sector by sector; a command whose code is known writes its completion word, completes its token and leaves its
queue. A copy within the pool of formats without groups leaves in each byte of the sector delivered the byte of the source element that the
descriptor gives it, and every other byte as it was; a completion word in the pool is CODE, DETAIL and SEQ. The model's choices: a PFL is
performed whole at its start (log 91), and the tiles of a GGEMM are as those of a launch of their own (log 27). -/
def Obligations.CommandEvents : Prop :=
  ∀ (k id : Nat) (s : State) (x : Cmd), inCores k = true → s.clockRuns k = true →
    let v := s.focus k
    let c := v.core
    let replaced (d : Core) (y : Cmd) : Core := { d with cmds := d.cmds.map fun (z : Cmd) => if z.id == id then y else z }
    let done (y : Cmd) (code : Nat) : Cmd := { y with phase := .done code 0 }
    c.cmds.find? (fun y => y.id == id) = some x → (∀ y ∈ s.mem.views, (k, id) ∉ y.ahead) →
    let spec := (v.taskOf k).bind fun t => v.spec? t.launch
    (x.phase = .queued → c.behindMarker x = false → c.run ≠ .saving →
      (x.kind = .pfl →
        let w := v.runPfl k x
        Happens (.engineCommandStart k id) s (w.withCore { w.core with
          cmds := w.core.cmds.map fun (z : Cmd) => if z.id == id then done z 0 else z })) ∧
      (x.kind = .hpub → Happens (.engineCommandStart k id) s { v with
        core := replaced c { x with phase := .started }
        launch := { v.launch with
          pubs := v.launch.pubs ++ [⟨v.launch.nextId, .core k id, c.ctx, x.a, x.b.toNat, none, c.kernel.strict, [], x.commits, false⟩]
          nextId := v.launch.nextId + 1 } }) ∧
      (x.kind = .lnch → Happens (.engineCommandStart k id) s { v with
        core := replaced c { x with phase := .started }
        launch := { v.launch with
          reqs := v.launch.reqs ++ [⟨v.launch.nextId, .core k id, x.a, x.b, c.ctx, (spec.map Spec.depth).getD 0 + 1, (spec.map Spec.sub).getD 0⟩]
          nextId := v.launch.nextId + 1 } }) ∧
      (x.kind.onChannel = true → (∀ y ∈ c.cmds, y.kind.onChannel = true → y.chan = x.chan → x.id ≤ y.id) →
        v.anyFrozen (x.startPools k) = false → ∀ (w : State) (y : Cmd), v.loadCopy k c.ctx x = (w, .ok y) → y.startFault = none →
          Happens (.engineCommandStart k id) s (w.withCore (replaced w.core { y with phase := .started, cover := y.covers k }))) ∧
      (x.kind = .ggemm → ∀ y p, v.mem.ctx c.ctx = some y → spec = some p →
        (∀ (w : State) (code detail : Nat), v.walkRecords k y x.a.toNat x.b.toNat 0 = (w, .error (code, detail)) →
          Happens (.ggemmWalk k id) s (w.withCore { w.core with
            cmds := w.core.cmds.map fun (z : Cmd) => if z.id == id then { z with phase := .done code detail } else z })) ∧
        ∀ (w w' : State) (rs : List GroupRec) (sizes : List (Nat × Nat × Nat)),
          v.walkRecords k y x.a.toNat x.b.toNat 0 = (w, .ok rs) → pairFault rs = false →
          w.closeEntries k c.ctx rs = (w', sizes, none) →
          ∃ t : State, Happens (.ggemmWalk k id) s t ∧ (∃ z ∈ t.core.cmds, z.id = id ∧ z.phase = .started) ∧
            ∃ g ∈ t.launch.ggemms, g.id = w'.launch.nextId ∧ g.core = k ∧ g.cmd = id ∧ g.ctx = c.ctx ∧ g.base = x.a ∧
              g.recs.map (·.bytes) = rs.map (·.bytes) ∧
              ∀ (i mt nt : Nat) (r : GroupRec), g.recs[i]? = some r → 64 * mt < r.m → nt < field r.bytes 0x0C 4 / 64 →
                ∃ z ∈ t.launch.tiles, z.launch = g.id ∧ z.path = [i, mt, nt] ∧ z.coord = [i, mt, nt])) ∧
    (x.phase = .started → x.kind.onChannel = true → x.moved < x.positions → v.anyFrozen (x.pools k) = false →
      ∀ (w : State) (y : Cmd) (bytes : Nat), v.deliverSector k c.ctx x = (w, .ok (y, bytes)) →
        let old := w.core.chans.toList.getD x.chan ⟨0, none, 0⟩
        x.moved ≤ y.moved ∧ y = { x with moved := y.moved, counted := x.counted + bytes, srcUnits := y.srcUnits, ahead := y.ahead, cover := y.cover } ∧
        Happens (.copySectorDelivery k id) s (w.withCore { replaced w.core y with
          chans := w.core.chans.setIfInBounds x.chan { old with ptr := old.ptr + BitVec.ofNat 64 bytes } })) ∧
    (let n := elemBytes x.dstL.efmt
      let at' (l : Layout) (org : Nat → Nat) (p : Nat) : Int :=
        let e := p / n
        let b := x.box
        let y0 := org 0 + e % b 0
        let y1 := org 1 + e / b 0 % b 1
        let y2 := org 2 + e / (b 0 * b 1) % b 2
        let y3 := org 3 + e / (b 0 * b 1 * b 2) % b 3
        (l.base : Int) + n * y0 + l.stride.getD 0 0 * y1 + l.stride.getD 1 0 * y2 + l.stride.getD 2 0 * y3 + (p % n : Nat)
      x.phase = .started → x.kind = .cpy → x.moved < n * (x.box 0 * x.box 1 * x.box 2 * x.box 3) →
      x.moved % n = 0 → x.srcUnits = [] → x.ahead = [] → x.srcL.efmt = x.dstL.efmt → grouped x.dstL.efmt = false → x.dstL.efmt ≠ 0x14 →
      x.srcL.space = 1 → x.dstL.space = 1 → x.srcL.paged = false → x.dstL.paged = false →
      (∀ p, p < n * (x.box 0 * x.box 1 * x.box 2 * x.box 3) →
        0 ≤ at' x.srcL x.sorg p ∧ at' x.srcL x.sorg p < c.scratchSize ∧ 0 ≤ at' x.dstL x.dorg p ∧ at' x.dstL x.dorg p < c.scratchSize) →
      c.freeze = 0 → c.latent = [] → c.poison = [] → c.races = [] → (∀ g : Fin 12, c.groups[g].state ≠ 1) →
      ∃ (m : Nat) (d : Core), 0 < m ∧ x.moved + m ≤ n * (x.box 0 * x.box 1 * x.box 2 * x.box 3) ∧
        (∀ j, j < m → at' x.dstL x.dorg (x.moved + j) / 32 = at' x.dstL x.dorg x.moved / 32) ∧
        (∀ q : Nat, d.byteAt q = match (List.range m).reverse.find? fun j => at' x.dstL x.dorg (x.moved + j) = (q : Int) with
          | some j => c.byteAt (at' x.srcL x.sorg (x.moved + j)).toNat
          | none => c.byteAt q) ∧
        d = { c with scratch := d.scratch, groups := d.groups, races := d.races, cmds := d.cmds, chans := d.chans } ∧
        Happens (.copySectorDelivery k id) s (v.withCore d)) ∧
    (∀ code detail, x.phase = .done code detail → v.collOf k id = none → x.cw.toNat / 2 ^ 60 = 1 →
      let a := x.cw.toNat % 2 ^ 60
      let w := 2 ^ 48 * code + 2 ^ 32 * (detail % 2 ^ 16) + x.seq % 2 ^ 32
      a + 8 ≤ c.scratchSize → (∀ j, j < 8 → c.clean (a + j)) → c.latent = [] → c.races = [] → c.freeze = 0 →
      ∃ d, c.Stored d (fun p => if a ≤ p ∧ p < a + 8 then some (elem 8 w (p - a)) else none) ∧
        Happens (.commandCompletion k id) s (((v.withCore d).passMarkers k id).withCore
          (({ d with cmds := d.cmds.filter fun y => y.id != id } : Core).setToken x.tok (if code = 0 then .complete else .failed)))) ∧
    (∀ code detail, x.phase = .done code detail → v.collOf k id = none → v.wordWaits k x.cw = false →
      let w := v.writeWord k c.ctx x.cw code detail x.seq
      Happens (.commandCompletion k id) s ((w.passMarkers k id).withCore
        (({ w.core with cmds := w.core.cmds.filter fun y => y.id != id } : Core).setToken x.tok (if code = 0 then .complete else .failed))))

/-- R346 to R349: an EXPF at the head of its order is taken by the bullpen once 65 entries are free. A handle that is idle is bound
to the expert and queued with the deadline and priority of the command. -/
def Obligations.FetchAccepted : Prop :=
  ∀ (k id : Nat) (s u : State) (x : Cmd) (y : Ctx) (src len : Nat), inCores k = true → s.clockRuns k = true →
    let v := s.focus k
    let c := v.core
    c.cmds.find? (fun z => z.id == id) = some x → x.kind = .expf → x.phase = .queued → s.expert.en = true →
    s.expert.entries.length + 65 ≤ 1024 → c.behindMarker x = false → (∀ z ∈ s.mem.views, (k, id) ∉ z.ahead) →
    (∀ z ∈ c.cmds, z.kind.engine = x.kind.engine → z.open = true → x.id ≤ z.id) → (∀ z ∈ c.vars, ∀ h, z.kind = .whq h → x.id ≤ z.id) →
    s.mem.ctx c.ctx = some y →
    v.directory y (x.a.toNat / 2 ^ 32) = (u, .ok (src, len)) →
    let h := x.a.toNat % 2 ^ 14
    let late := x.b.toNat / 2 ^ 32
    (u.handle h).state = 0 →
    ∃ t : State, Happens (.expfAccept k id) s t.judgeAll ∧ s.host.clock < t.host.clock ∧
      t.handle h = { u.handle h with state := 1, ctx := c.ctx, expert := some (x.a.toNat / 2 ^ 32), code := 0, src := src, len := len } ∧
      t.expert.entries = (s.expert.entries.map fun (e : BpEntry) => if e.overdue t.host.clock then { e with missed := true } else e) ++
        [⟨(u.handle h).num, if late = 0 then none else some (t.host.clock + 2000 * late), x.b.toNat % 2 ^ 3, s.expert.order,
          false, false, false⟩] ∧
      t.core.cmds = c.cmds.map fun (z : Cmd) => if z.id == id then { z with phase := .done 0 0 } else z

/-! ## Launches, lists, experts and contexts -/

/-- R321, R323, R325 to R328, R331, R334 to R336, R339: launches and their parts. A launch that the pool takes is checked and opens;
ranges are iterated, split and handed on; tiles become launchable; gangs start whole; a launch whose work is done writes its
completion word; a publication enters the handoff table. The model's choices: of a record that cannot be read the code goes to its completion
word where that field alone can be read, and else nothing is written, and of several fields at fault the lowest is named (log 42); the range
task of the outermost level stands in the package (log 50). -/
def Obligations.LaunchEvents : Prop :=
  ∀ s : State,
    (∀ (r : LaunchReq) (w y : State) (code detail : Nat) (b kernel : List Byte), s.launch.reqs.find? (fun x => x.id == r.id) = some r →
      (if r.depth ≤ 1 then s.launch.lpres < s.poolLeft else 0 < s.poolFree) →
      let via : Publisher := match r.via with
        | .core k id => .core k id
        | .list j => .list j
      let v := ({ s with launch := { s.launch with reqs := s.launch.reqs.filter fun x => x.id != r.id } } : State).goesOnWith via 0 0
      let kp := field b 0 8
      (v.engRead 0 r.ctx r.recPtr 384 = (w, .error code) →
        (w.engRead 0 r.ctx (r.recPtr + 0x10) 8 = (y, .ok b) → y.ownLoss r.ctx = false →
          Happens (.launchAccept r.id) s (y.writeWord 0 r.ctx (BitVec.ofNat 64 (leValue b)) code 4 0)) ∧
        (w.engRead 0 r.ctx (r.recPtr + 0x10) 8 = (y, .error detail) → Happens (.launchAccept r.id) s y)) ∧
      (v.engRead 0 r.ctx r.recPtr 384 = (w, .ok b) → kp % 64 = 0 → kp / 2 ^ 60 = 0 →
      w.engRead 0 r.ctx (BitVec.ofNat 64 kp) 64 = (y, .ok kernel) →
      (∀ off, y.launchFault r.ctx r.param b kernel = some off →
        Happens (.launchAccept r.id) s (y.writeWord 0 r.ctx (BitVec.ofNat 64 (field b 0x10 8)) 0x0031 (0x4000 + off) 0)) ∧
      (y.launchFault r.ctx r.param b kernel = none →
        let param := if r.param ≠ 0 then r.param else BitVec.ofNat 64 (field b 8 8)
        let l : Launch := ⟨y.launch.nextId, r.recPtr, b, kernel, param, r.ctx, r.depth, r.sub, true, 0, []⟩
        ∃ t : State, Happens (.launchAccept r.id) s t ∧
          if (field b 0x18 8).testBit 3 then
            t = { y with launch := { y.launch with
              nextId := l.id + 1, launches := y.launch.launches ++ [l]
              ranges := y.launch.ranges ++ [⟨l.id, none, [], 0, 0, field b 0x40 4, none, 3, 0⟩] } }
          else (∃ x ∈ t.launch.tiles, x.launch = l.id ∧ x.path = [] ∧ x.coord = [0, 0, 0] ∧ x.cluster = none) ∧
            ∃ m ∈ t.launch.launches, m.id = l.id ∧ m.bytes = b ∧ m.kernel = kernel ∧ m.param = param ∧ m.ctx = r.ctx))) ∧
    (∀ (k : Nat) (r : RangeTask) (p : Spec), inCores k = true → s.heldRange k = some r → s.spec? r.launch = some p →
      s.coreFree k = true → s.dispatches r.launch = true → r.level < p.depthOf →
      let d := p.level r.level
      let path := r.path ++ [r.next]
      let taken := s.launch.ranges.map fun x => if x == r then { r with next := r.next + 1 } else x
      (r.level = p.gang → ∃ (u : State) (leaves : List Leaf), leaves.map (·.path) = leafPaths p p.depthOf r.path ∧
        let ended := (List.range leaves.length).filter fun i => match ((leaves.getD i ⟨[], none⟩).tile.bind u.tile?) with
          | some t => t.state == .failed
          | none => false
        let t : State := if ended.length = leaves.length then u
          else { u with launch := { u.launch with
            gangs := u.launch.gangs ++ [⟨u.launch.nextId, r.launch, r.path, r.dom, r.unit, leaves, false, ended⟩]
            nextId := u.launch.nextId + 1 } }
        u.launch.ranges = s.launch.ranges.erase r ∧ Happens (.rangeIterationBegin k) s (t.freeEntry r.launch)) ∧
      (r.level ≠ p.gang → r.hi ≤ r.next → ∃ t : State, Happens (.rangeIterationBegin k) s t ∧ t.launch.ranges = s.launch.ranges.erase r) ∧
      (r.level ≠ p.gang → r.next < r.hi →
        (d.dom = 4 → r.next ≠ s.host.rank → Happens (.rangeIterationBegin k) s (({ s with launch := { s.launch with ranges := taken } } : State).freeEntry r.launch)) ∧
        ((d.dom = 4 → r.next = s.host.rank) →
          (r.tile = none → r.level = p.tlev → ∃ t : State, Happens (.rangeIterationBegin k) s t ∧
            ∃ x ∈ t.launch.tiles, x.launch = r.launch ∧ x.path = path ∧ x.parent = (r.dom, r.unit) ∧
              x.cluster = some (s.tileCluster x.coord r.dom r.unit)) ∧
          ((r.tile = none → r.level ≠ p.tlev) → r.level + 1 < p.depthOf →
            Happens (.rangeIterationBegin k) s (({ s with launch := { s.launch with ranges := taken ++
              [⟨r.launch, r.tile, path, r.level + 1, 0, (p.level (r.level + 1)).n, some k, min d.dom 3, unitOf (min d.dom 3) k⟩] } } : State).freeEntry
                r.launch)) ∧
          ((r.tile = none → r.level ≠ p.tlev) → r.level + 1 = p.depthOf →
            Happens (.rangeIterationBegin k) s (({ s with launch := { s.launch with
              ranges := taken
              tasks := s.launch.tasks ++ [⟨k, r.launch, r.tile, path, none, 0, 0, min d.dom 3, unitOf (min d.dom 3) k, [], false⟩] } } :
                State).freeEntry r.launch))))) ∧
    (∀ (k : Nat) (o : Offer), inCores k = true → s.offerFor k = some o → ∃ t : State, Happens (.workRequest k) s t ∧
      match o with
      | .split r =>
        let mid := r.next + (r.hi - r.next + 1) / 2
        t = { s with launch := { s.launch with ranges :=
          (s.launch.ranges.map fun x => if x == r then { r with hi := mid } else x) ++ [{ r with next := mid, holder := some k }] } }
      | .orphan r =>
        t = { s with launch := { s.launch with ranges := s.launch.ranges.map fun x => if x == r then { r with holder := some k } else x } }
      | .tile y => t.launch.tiles = s.launch.tiles.map fun x => if x.id == y.id then { y with state := .running } else x) ∧
    (∀ x : TileTask, s.launch.tiles.find? (fun y => y.id == x.id) = some x → x.state = .waiting → (∀ b ∈ x.inputs, b = true) →
      (∀ h ∈ s.tileHandles x, (s.handle h).state = 3) → Happens (.tileLaunchable x.id) s { s with launch := { s.launch with
        tiles := s.launch.tiles.map fun y => if y.id == x.id then { x with state := .launchable } else y } }) ∧
    (∀ (g : Gang) (ks : List (List Nat × Nat)), s.launch.gangs.find? (fun y => y.id == g.id) = some g → s.gangCores g = some ks →
      ∃ t : State, Happens (.gangDispatch g.id) s t ∧ (ks.map (·.2)).Nodup ∧ (∀ q ∈ ks, s.coreFree q.2 = true) ∧
        (∃ y ∈ t.launch.gangs, y.id = g.id ∧ y.dispatched = true) ∧
        (∀ (l : Launch) (n k : Nat) (y : Leaf), s.launch? g.launch = some l → field l.bytes 0x24 4 = 0 → g.leaves[n]? = some y →
          (g.leaves.map (·.path)).Nodup → n ∉ g.ended → ks.find? (fun q => q.1 == y.path) = some (y.path, k) →
          ∃ x ∈ t.launch.tasks, x.core = k ∧ x.gang = some g.id ∧ x.rank = n ∧ x.path = y.path ∧ x.begun = true)) ∧
    (∀ l : Launch, s.launch.launches.find? (fun y => y.id == l.id) = some l → s.launchDone l.id = true →
      ∃ (code detail : Nat) (t : State), outcomeRule l.fails code detail ∧ Happens (.launchCompletion l.id) s t.judgeAll ∧
        let w := s.writeWord 0 l.ctx (BitVec.ofNat 64 (field l.bytes 0x10 8)) code detail l.tasks
        t.mem = w.mem ∧ t.launch.launches = w.launch.launches.filter (fun x => x.id != l.id) ∧
        t.launch.tiles = w.launch.tiles.filter fun x => x.launch != l.id) ∧
    (∀ p : Pub, s.launch.pubs.find? (fun y => y.id == p.id) = some p → p.held = false → p.strict = false → p.poison = none →
      let gone : State := { s with launch := { s.launch with pubs := s.launch.pubs.filter fun y => y.id != p.id } }
      (s.tag? p.ctx p.name = none → s.launch.dieUse (homeDie p.name) < 8192 → Happens (.tagPublication p.id) s
        (({ gone with launch := { gone.launch with tags := s.launch.tags ++ [⟨p.ctx, p.name, p.gen, 1, 0, none, []⟩] } } : State).goesOnWith
          p.via 0 0).judgeAll) ∧
      (∀ t k id, p.via = .core k id → s.tag? p.ctx p.name = some t → newer p.gen t.gen = false → t.gen ≠ p.gen →
        let w := s.lookTag p.ctx p.name
        Happens (.tagPublication p.id) s
          ((({ w with launch := { w.launch with pubs := w.launch.pubs.filter fun y => y.id != p.id } } : State).goesOnWith p.via 0x0050
            t.gen).judgeAll)))

/-- R332, R333: the entries of command lists. The list that the interpreter chooses executes the entry at which it stands. -/
def Obligations.ListEvents : Prop :=
  ∀ (j : Nat) (s : State), j < 64 →
    let l := s.list j
    (∀ addr, s.serves (32 * j) = true → Happens (.listSubmit j addr) s (s.setList j
      (if l.busy = true ∨ l.en = false then { l with drop := true }
       else { l with
        addr := addr >>> 5 <<< 5, busy := true, base := addr.toNat / 32 * 32, pos := 0, stack := [], executed := 0, wait := .none }))) ∧
    (∀ (w : State) (e : Entry), s.entryAt j = (w, .ok e) → w.entryBad e = false →
      let next (pos : Nat) (l : ListReg) : ListReg := { l with pos := pos % 2 ^ 59, executed := l.executed + 1 }
      let away : Nat := (((l.pos : Int) + e.a.toInt) % (2 ^ 59 : Nat)).toNat
      (s.chosenList = some j →
        (e.op = 1 → Happens (.launch j) s (({ w with launch := { w.launch with
          reqs := w.launch.reqs ++ [⟨w.launch.nextId, .list j, e.a, e.b, l.ctx, 0, l.prio⟩], nextId := w.launch.nextId + 1 } } : State).setList j
            { l with wait := .launch, executed := l.executed + 1 })) ∧
        (e.op = 3 → Happens (.publish j) s (({ w with launch := { w.launch with
          pubs := w.launch.pubs ++ [⟨w.launch.nextId, .list j, l.ctx, e.a, e.b.toNat % 2 ^ 16, none, false, [], 0, false⟩]
          nextId := w.launch.nextId + 1 } } : State).setList j { l with wait := .publish, executed := l.executed + 1 })) ∧
        (∀ (y : State) (n : Nat), w.listWord j e = (y, .ok n) →
          (e.op = 2 → e.meets n → Happens (.waitTokenWord j) s (y.setList j (next (l.pos + 1) l))) ∧
          (e.op = 2 → ¬e.meets n → Happens (.waitTokenWord j) s (y.setList j { l with wait := .word })) ∧
          (e.op = 4 → e.meets n → Happens (.condSkip j) s (y.setList j (next (l.pos + 1 + e.skip) l))) ∧
          (e.op = 4 → ¬e.meets n → Happens (.condSkip j) s (y.setList j (next (l.pos + 1) l)))) ∧
        (e.op = 5 → Happens (.jump j) s (w.setList j (next away l))) ∧
        (e.op = 6 → l.stack.length < 8 → Happens (.listCall j) s (w.setList j (next away { l with stack := (l.pos + 1) :: l.stack }))) ∧
        (e.op = 6 → 8 ≤ l.stack.length → Happens (.listCall j) s (w.stopList j (some 0x0031))) ∧
        (∀ p rest, e.op = 7 → l.stack = p :: rest → Happens (.listReturn j) s (w.setList j (next p { l with stack := rest }))) ∧
        (e.op = 8 → ∃ y : State, y = w.writeWord 0 l.ctx e.a 0 0 (l.executed + 1) ∧
          Happens (.listEnd j) s ((y.setList j { l with busy := false, wait := .none, stack := [] }).raise j)) ∧
        (e.op = 9 → ∃ y : State, y = w.dropTags (fun t => t.ctx == l.ctx && t.name.toNat / 2 ^ 48 == e.a.toNat % 2 ^ 16) ∧
          Happens (.streamClear j) s (y.setList j (next (l.pos + 1) l)))) ∧
      (∀ (y : State) (n : Nat) (c : Ctx), l.busy = true → l.wait = .word → s.mem.ctx l.ctx = some c → c.state = 1 → e.op = 2 →
        w.listWord j e = (y, .ok n) → e.meets n →
        Happens (.waitTokenWordSatisfied j) s (y.setList j (next (l.pos + 1) { l with wait := .none }))))

/-- R349 to R352, R356: the bullpen starts the first read for which the cache has frames, a handle whose image has arrived is staged,
a read that fails leaves its handle failed, a deadline that passes is counted, and BPSTART names the order when the host keeps
it. R367, R369, R374, R304: the context commands and the write-back of a sector. R370 to R372, R375, R416: the walk of a context's tables
that stand as at its last INVL, for each kind of access. R208, R291, R392, R396: the windows, byte by byte; the order of a walk's faults and of
a byte's is the model's reading (log 47), and walks read the tables through the LLC (log 9). -/
def Obligations.ExpertAndContextEvents : Prop :=
  ∀ s : State,
    (∀ (e : BpEntry) (c : Ctx), e ∈ s.expert.entries → e.started = false → e.handle < 16384 →
      let h := e.handle
      let x := s.handle h
      let read (asked : BpEntry → Bool) (t : State) : Prop := t.handle h = { x with state := 2, frames := s.freeFrames.take x.len, got := [] } ∧
        t.expert.entries = s.expert.entries.map (fun (y : BpEntry) => if y.handle == h then { y with started := true, asked := asked y } else y) ∧
        t.mem = s.mem ∧ t.launch = s.launch ∧ t.host = s.host
      x.state = 1 → s.readsInFlight < 64 → s.mem.ctx x.ctx = some c → s.framesHeld x.ctx + x.len ≤ c.quota → x.len ≤ s.freeFrames.length →
      (s.expert.hostord = false → (∀ y ∈ s.expert.entries, y.started = false → y = e ∨ e.before y = true) →
        ∃ t, Happens (.bullpenReadStart h) s t.judgeAll ∧ read BpEntry.asked t) ∧
      (∀ value : Word, s.expert.hostord = true → s.serves 0x1218 = true → value.toNat % 2 ^ 14 = h →
        ∃ t, Happens (.bpstart value) s t.judgeAll ∧ read (fun _ => true) t)) ∧
    (∀ h, h < 16384 → (s.handle h).state = 2 →
      (∀ code, s.stagingFault (s.handle h) = some code → ∃ t : State, Happens (.stagingFailure h code) s t.judgeAll ∧
        (t.handle h).state = 4 ∧ (t.handle h).code = code ∧ (t.handle h).frames = [] ∧ ∀ y ∈ t.expert.entries, y.handle ≠ h) ∧
      (s.stagingFault (s.handle h) = none → s.missingPage (s.handle h) = none → ∃ t : State, Happens (.stagingComplete h) s t.judgeAll ∧
        (t.handle h).state = 3 ∧ (t.handle h).code = 0 ∧ (∀ y ∈ t.expert.entries, y.handle ≠ h) ∧
        ∃ a ∈ t.mem.aper, a.handle = h ∧ a.pages.map (·.frame) = (List.range (s.handle h).len).map fun i => 65536 * (s.handle h).frames.getD i 0)) ∧
    (∀ (h d : Nat) (e : BpEntry), h < 16384 → s.expert.entries.find? (fun y => y.handle == h && !y.missed) = some e → e.deadline = some d →
      let clock := max s.host.clock d
      let due (y : BpEntry) : Bool := !y.missed && y.deadline.getD (clock + 1) ≤ clock
      Happens (.deadlineMiss h) s { s with
        host := { s.host with clock := clock }
        expert := { s.expert with
          miss := (s.expert.miss + s.expert.entries.countP due) % 2 ^ 32
          entries := s.expert.entries.map fun (y : BpEntry) => if due y then { y with missed := true } else y } }) ∧
    (∀ c, c ≠ 0 → c < 1024 → s.serves 0x1108 = true → s.host.op = 0 →
      (∀ (m : MemState) (b : List Byte), s.mem.ctx c = none →
        s.mem.physRead (s.host.ctxbase.toNat / 2 ^ 18 * 2 ^ 18 + 256 * c) 256 = (m, some b) →
        let x := Ctx.ofBytes c b
        (x.valid b m.ctxs = true → Happens (.create c) s (({ s with mem := { m with
          ctxs := m.ctxs ++ [x]
          renewals := ⟨c, none, m.changes.length⟩ :: m.renewals.filter fun r => r.ctx != c } } : State).ctxDone c)) ∧
        (x.valid b m.ctxs = false → Happens (.create c) s { s with mem := m, host := { s.host with lastCtx := c, ctxErr := true } })) ∧
      (∀ x, s.mem.ctx c = some x →
        (x.state = 1 → ∃ t : State, Happens (.suspend c) s t ∧ t.mem = s.mem.setCtx { x with state := 2 } ∧
          t.host = { s.host with lastCtx := c, op := 2 } ∧
          ∀ y, s.launch.tasks = [y] → y.begun = true → y.gang = none → (s.coreAt y.core).runs c = true → s.launch.claims = [] →
            (s.coreAt y.core).run ≠ .saving → 1 ≤ s.slotsLeft c → (t.coreAt y.core).preq = true) ∧
        (x.state = 3 → Happens (.resume c) s (({ s with mem := s.mem.setCtx { x with state := 1 } } : State).ctxDone c)) ∧
        (x.state = 1 ∨ x.state = 2 ∨ x.state = 3 → ∃ t : State, Happens (.terminate c) s (t.ctxDone c) ∧ t.mem.ctx c = none ∧
          (∀ k ∈ t.cores, k.runs c = false) ∧ (∀ y ∈ t.launch.tags, y.ctx ≠ c) ∧ (∀ y ∈ t.launch.launches, y.ctx ≠ c) ∧
          (∀ y ∈ t.mem.tlb, y.ctx ≠ c)) ∧
        (x.state = 1 ∨ x.state = 3 →
          let m := s.mem.flushAll
          let old : View := ⟨.invall, c, m.tlb.filter (·.ctx == c), m.renewals.filter (·.ctx == c), [], s.queued c⟩
          let new := m.invl c none
          Happens (.invall c) s { s with
            mem := { new with views := new.views ++ [old] }
            host := { s.host with lastCtx := c, op := 5 } }))) ∧
    (∀ pa, pa < Config.hbmBytes → Happens (.llcWriteback pa) s { s with mem := s.mem.flushSector 0 (pa / 32) }) ∧
    (∀ (k cx va : Nat) (y : Ctx) (acc : Access), s.mem.ctx cx = some y → y.handleAt va = none → (∀ t ∈ s.mem.tlb, t.ctx ≠ cx) →
      s.mem.changes = [] →
      let m := s.mem
      let out := s.translate k cx va acc
      let at0 := y.ptroot + 8 * (va / 2 ^ 39 % 2 ^ 9)
      let e0 := m.entryRule at0
      let at1 := e0 / 2 ^ 8 % 2 ^ 40 * 2 ^ 8 + 8 * (va / 2 ^ 30 % 2 ^ 9)
      let e1 := m.entryRule at1
      let at2 := e1 / 2 ^ 8 % 2 ^ 40 * 2 ^ 8 + 8 * (va / 2 ^ 21 % 2 ^ 9)
      let e2 := m.entryRule at2
      let at3 := e2 / 2 ^ 8 % 2 ^ 40 * 2 ^ 8 + 8 * (va / 2 ^ 16 % 2 ^ 5)
      let e3 := m.entryRule at3
      let leads (e off : Nat) : Prop := m.leafRule y e off acc out.2 ∧ out.1.mem.recs = m.recs
      let refused (level e : Nat) : Prop := out.2 = .error 0x09 ∧ out.1.mem.recs = m.recs ++ (if e % 2 = 0 then [] else
        [⟨0, k, 0x0050, 0, some cx, 0, BitVec.ofNat 64 va, BitVec.ofNat 64 e, BitVec.ofNat 64 level, 0, 0⟩])
      out.1 = { s with mem := { m with
        hbmErr := out.1.mem.hbmErr, hbmPoison := out.1.mem.hbmPoison, llc := out.1.mem.llc, chans := out.1.mem.chans
        quarantine := out.1.mem.quarantine, hbm := out.1.mem.hbm, tlb := out.1.mem.tlb, recs := out.1.mem.recs, doomed := out.1.mem.doomed } } ∧
      (m.entryGood at0 → (¬tableEntry 0 e0 → refused 0 e0) ∧ (tableEntry 0 e0 → m.entryGood at1 →
        (¬tableEntry 1 e1 → refused 1 e1) ∧ (tableEntry 1 e1 → m.entryGood at2 →
          (leafEntry 2 e2 → leads e2 (va % 2 ^ 21)) ∧ (¬leafEntry 2 e2 → ¬tableEntry 2 e2 → refused 2 e2) ∧
          (tableEntry 2 e2 → m.entryGood at3 →
            (leafEntry 3 e3 → leads e3 (va % 2 ^ 16)) ∧ (¬leafEntry 3 e3 → refused 3 e3)))))) ∧
    ∀ (k cx q : Nat) (acc : Access), q < 2 ^ 64 →
      let off := q % 2 ^ 60
      let r := (s.placeByte k cx q acc).2
      let window := q / 2 ^ 60
      let base := s.mem.capwin.toNat / 2 ^ 30 % 2 ^ 34 * 2 ^ 30
      let size := s.mem.capwin.toNat % 2 ^ 16 * 2 ^ 30
      (window = 0 → (q / 2 ^ 48 % 2 ^ 12 ≠ 0 → r = .error 0x08) ∧ (q / 2 ^ 48 % 2 ^ 12 = 0 →
        (∀ f, (s.translate k cx (q % 2 ^ 48) acc).2 = .error f → r = .error f) ∧
        ∀ t, (s.translate k cx (q % 2 ^ 48) acc).2 = .ok t →
          r = if (t.kind = 0 ∧ Config.hbmBytes ≤ t.addr) ∨ (t.kind = 2 ∧ base + size ≤ t.addr) then .error 0x09 else .ok (.dev t))) ∧
      (window = 1 → r = if off < (s.coreAt k).scratchSize then .ok (.pool k off) else .error 0x08) ∧
      (window = 2 → let n := k / 16 * 16 + q / 2 ^ 48 % 2 ^ 4
        let d := s.coreAt n
        r = if q / 2 ^ 52 % 2 ^ 8 ≠ 0 ∨ q / 2 ^ 20 % 2 ^ 28 ≠ 0 then .error 0x08
          else if n ≠ k ∧ d.runs d.ctx = false then .error 0x0A
          else if d.scratchSize ≤ q % 2 ^ 20 then .error 0x08
          else if n = k ∨ d.ctx = cx then .ok (.pool n (q % 2 ^ 20)) else .error 0x0A) ∧
      (window = 4 → r = if off < size then .ok (.dev ⟨2, base + off, 0, 0⟩) else .error 0x08) ∧
      (window = 5 → let n := q / 2 ^ 48 % 2 ^ 9
        r = if q / 2 ^ 57 % 2 ^ 3 ≠ 0 ∨ s.host.xsize * 2 ^ 30 ≤ q % 2 ^ 48 then .error 0x08
          else if s.host.peerEn = true ∧ n ≤ s.host.npkg then .ok (.peer n (q % 2 ^ 48)) else .error 0x0A) ∧
      (window = 3 ∨ 5 < window → r = .error 0x08)

/-! ## Repairs, the Referee, the host, peers -/

/-- R411, R412, R416, R419, R421, R423, R424: the host retires frames and cores; a core that has stopped leaves service; the replay of a
region log confirms it or asks for a third opinion, which names the core at fault; the configuration of the Referee and the ring. -/
def Obligations.RepairsAndReferee : Prop :=
  ∀ s : State,
    (∀ f, 65536 * f < Config.hbmBytes → s.serves 0x10030 = true →
      (f ∈ s.mem.frames ∨ 4096 ≤ s.mem.frames.length → Happens (.retireFrame f) s s) ∧
      (f ∉ s.mem.frames → s.mem.frames.length < 4096 → Happens (.retireFrame f) s
        (({ s with mem := { s.mem with frames := f :: s.mem.frames } } : State).record
          ⟨3, channelOf (65536 * f), 0x0032, 0, none, 2, BitVec.ofNat 64 (65536 * f), 0, 0, 0, 0⟩))) ∧
    (∀ k, inCores k = true → s.serves 0x10030 = true → (s.coreAt k).run ≠ .retired → (∀ x ∈ s.rel.retiring, x.1 ≠ k) →
      (∀ y ∈ s.launch.tasks, y.core = k → y.begun = true) →
      ∃ t : State, Happens (.retireCore k) s t ∧ t.rel = { s.rel with retiring := s.rel.retiring ++ [(k, 2)] } ∧
        (t.launch.ranges = s.launch.ranges.map fun (r : RangeTask) => if r.holder == some k then { r with holder := none } else r) ∧
        ∀ y, s.launch.tasks.find? (fun x => x.core == k && x.begun) = some y → (∀ x ∈ s.launch.claims, x.victim ≠ k) →
          s.mates y ≤ s.slotsFirst (s.coreAt k).ctx → (t.coreAt k).preq = true) ∧
    (∀ k why, inCores k = true → s.rel.retiring.find? (fun x => x.1 == k) = some (k, why) → (s.coreAt k).run = .idle →
      (∀ y ∈ s.launch.tasks, y.core ≠ k) → ∃ t : State, Happens (.coreRetirementComplete k) s t ∧
        (t.coreAt k).run = .retired ∧ (t.coreAt k).retWhy = why + 1 ∧ t.rel.retiring = s.rel.retiring.filter (fun x => x.1 != k) ∧
        ∀ r ∈ t.launch.ranges, ¬(r.dom = 0 ∧ r.unit = k)) ∧
    (∀ (id core : Nat) (sig : Option Word) (e : AuditEntry), inCores core = true →
      let c := e.log.core / 16
      let v := sig.getD e.log.sig
      (s.rel.nextLog = some e → e.num = id → s.replayCluster c 128 [c] = some (core / 16) →
        (v = e.log.sig → Happens (.refereeReplay id core sig) s (({ s with rel := { s.rel with
          logs := s.rel.decided id, aud := min (s.rel.aud + 1) (2 ^ 20 - 1) } } : State).decideTags)) ∧
        (v ≠ e.log.sig → Happens (.refereeReplay id core sig) s { s with rel := { s.rel with
          logs := s.rel.logs.map fun (y : AuditEntry) => if y.num == id then { y with first := some (core, v) } else y } })) ∧
      (∀ first w, s.rel.logs.find? (fun y => y.num == id && !y.done) = some e → e.first = some (first, w) →
        s.replayCluster c 64 [c, first / 16] = some (core / 16) →
        let culprit := if v = e.log.sig then first else e.log.core
        ∃ t : State, Happens (.refereeThirdReplay id core sig) s t.decideTags ∧
          t.rel.logs = s.rel.decided id ∧ t.rel.mism = min (s.rel.mism + 1) 4095 ∧
          (t.coreAt culprit).refCnt = min 255 ((s.coreAt culprit).refCnt + 1) ∧
          (s.rel.refThr ≠ 0 → s.rel.refThr ≤ min 255 ((s.coreAt culprit).refCnt + 1) → s.host.duty.getLsbD 3 = false →
            (s.coreAt culprit).run ≠ .retired → ∃ x ∈ t.rel.retiring, x.1 = culprit) ∧
          (v ≠ e.log.sig → e.log.strict = true → (id, first / 16) ∈ t.rel.verdicts))) ∧
    (∀ value : Word,
      let v := value.toNat
      (s.serves 0x10108 = true → Happens (.refereeConfigWrite true value) s
        (({ s with rel := { s.rel with seed := v % 2 ^ 32 } } : State).modCores fun c => { c with refState := refSeed (v % 2 ^ 32) c.kid })) ∧
      (s.serves 0x10100 = true → Happens (.refereeConfigWrite false value) s
        (({ s with rel := { s.rel with
            refEn := v.testBit 31, refF := min 20 (v / 2 ^ 24 % 2 ^ 5), refSF := min 20 (v / 2 ^ 16 % 2 ^ 5)
            refThr := v / 2 ^ 8 % 2 ^ 8 } } : State).modCores fun c => { c with refState := refSeed s.rel.seed c.kid })) ∧
      (s.serves 0x10018 = true → Happens (.ringConfigWrite true value) s
        { s with rel := { s.rel with head := 0, tail := 0, rlsize := v % 2 ^ 21 } }) ∧
      (s.serves 0x10010 = true → Happens (.ringConfigWrite false value) s
        { s with rel := { s.rel with head := 0, tail := 0, rlbase := value &&& 0xFFFFFFFFFFFFFFC1#64 } }) ∧
      (s.serves 0x10020 = true → Happens (.rlheadWrite value) s
        (if v % 2 ^ 20 < s.rel.rlsize then { s with rel := { s.rel with head := v % 2 ^ 20 } } else s)))

/-- R388 to R391, R393 to R397, R306, R307, R414: what the host and the peers do. -/
def Obligations.HostAndPeers : Prop :=
  ∀ s : State,
    (∀ (off : Nat) (value mask : Word), configMask off = some mask → s.serves off = true →
      (s.mem.ctxs = [] → s.plat.bootErr = false → ∃ t : State, Happens (.registerWrite off 8 value) s t ∧
        t.registerRead off 8 = value &&& mask) ∧
      (s.mem.ctxs ≠ [] → Happens (.registerWrite off 8 value) s { s with host := { s.host with cfgdrop := true } })) ∧
    (∀ (off size : Nat) (value : Word), size ≠ 8 ∨ off % 8 ≠ 0 ∨ s.serves off = false → Happens (.registerWrite off size value) s s) ∧
    (∀ (pa n : Nat) (data : List Byte),
      let served : Prop := s.plat.phase = 5 ∨ (s.plat.phase = 4 ∧ s.plat.bootErr = false)
      let good (len : Nat) : Prop := served ∧ pa + len ≤ Config.hbmBytes ∧ s.host.apEn = false ∧ s.mem.still ∧
        ∀ i, i < len → (pa + i) / 32 ∉ s.mem.hbmPoison
      (good n → ∃ chans : List Hchan, Happens (.bar2Read pa n) s { s with
        mem := { s.mem with chans := chans }, host := { s.host with reply := some (.data (s.mem.hbm.getN pa n)) } }) ∧
      (good data.length → ∃ (m : Mem) (chans : List Hchan),
        Happens (.bar2Write pa data) s { s with mem := { s.mem with hbm := m, chans := chans } } ∧
        ∀ a, m.get a = if pa ≤ a ∧ a < pa + data.length then data.getD (a - pa) 0 else s.mem.hbm.get a) ∧
      (¬served → Happens (.bar2Read pa n) s { s with host := { s.host with reply := some .unsupported } }) ∧
      (¬served → Happens (.bar2Write pa data) s { s with host := { s.host with reply := some .unsupported } }) ∧
      (Config.hbmBytes < pa + n → Happens (.bar2Read pa n) s { s with host := { s.host with reply := some .unsupported } }) ∧
      (Config.hbmBytes < pa + data.length → Happens (.bar2Write pa data) s { s with host := { s.host with reply := some .unsupported } })) ∧
    (∀ hpa : Nat,
      let n := hpa / 64 * 2
      let m := (s.mem.flushSector 2 n).flushSector 2 (n + 1)
      (∀ (data : List Byte) (poison : Bool), data.length ≤ 64 → ∃ t : State, Happens (.hostSnoop hpa (.owning data poison)) s t ∧
        t = { s with mem := { m with host := t.mem.host, hostPoison := t.mem.hostPoison } } ∧
        (∀ a, t.mem.host.get a = if 32 * n ≤ a ∧ a < 32 * n + data.length then data.getD (a - 32 * n) 0 else m.host.get a) ∧
        (poison = true → n ∈ t.mem.hostPoison ∧ n + 1 ∈ t.mem.hostPoison) ∧
        (poison = false → data.length = 64 → n ∉ t.mem.hostPoison ∧ n + 1 ∉ t.mem.hostPoison)) ∧
      let sound (j : Nat) : Prop := match s.mem.sector? 2 j with
        | some x => x.err = 0 ∧ x.poison = false
        | none => j ∉ s.mem.hostPoison
      (sound n → sound (n + 1) →
        let byte (j : Nat) : Nat := match s.mem.sector? 2 (n + j / 32) with
          | some x => x.data.toNat / 2 ^ (8 * (j % 32))
          | none => (s.mem.host.get (32 * n + j)).toNat
        Happens (.hostSnoop hpa .sharing) s { s with
          mem := { s.mem with llc := s.mem.llc.map fun (y : Sector) => if y.kind == 2 && y.num / 2 == hpa / 64 then { y with shared := true } else y }
          host := { s.host with reply := some (.data ((List.range 64).map fun j => BitVec.ofNat 8 (byte j))) } })) ∧
    (s.mem.linkUp = true → Happens .hostLinkDown s (({ s with mem := { s.mem with
      linkUp := false, llc := s.mem.llc.filter fun x => x.kind != 2 } } : State).emit ⟨5, 0, 0x0071, 0, none, 0, 0, 0, 0, 0, 0⟩)) ∧
    (s.mem.linkUp = false → Happens .hostLinkDown s s) ∧
    (s.mem.linkUp = false → Happens .hostLinkTrain s { s with
      mem := { s.mem with linkUp := true }
      rel := { s.rel with messages := s.rel.messages ++ s.rel.unsent, unsent := [] } }) ∧
    (s.mem.linkUp = true → Happens .hostLinkTrain s s) ∧
    (∀ (w y : State) (l : List Place) (bs : List Byte),
      let at' (off : Nat) : Word := BitVec.ofNat 64 (s.host.peerBase * 2 ^ 30 + off)
      (∀ off n, s.peerPlaces off n .read = (w, .ok l) → w.readRange (Range.of l) = (y, bs, .ok) →
        Happens (.peerIncomingAccess (.load off n)) s (y.answer (.data bs))) ∧
      (∀ off data, s.peerPlaces off data.length .write = (w, .ok l) →
        w.writeRange 0 s.host.peerCtx (at' off) (Range.of l) data = (y, .ok) →
        Happens (.peerIncomingAccess (.store off data)) s (y.answer (.data []))) ∧
      (∀ off wide operator operand, operator ≤ 8 → s.peerPlaces off (if wide then 8 else 4) .atomic = (w, .ok l) →
        w.readRange (Range.of l) = (y, bs, .ok) →
        let n := if wide then 8 else 4
        let v := atomicRule operator (8 * n) (leValue bs) (operand.toNat % 2 ^ (8 * n))
        Happens (.peerIncomingAccess (.atomic off wide operator operand)) s
          ((y.writeRange 0 s.host.peerCtx (at' off) (Range.of l) (leBytes n v)).1.answer (.data bs))) ∧
      (∀ off wide expected new, s.peerPlaces off (if wide then 8 else 4) .atomic = (w, .ok l) → w.readRange (Range.of l) = (y, bs, .ok) →
        let n := if wide then 8 else 4
        Happens (.peerIncomingAccess (.cas off wide expected new)) s (if leValue bs = expected.toNat % 2 ^ (8 * n) then
          (y.writeRange 0 s.host.peerCtx (at' off) (Range.of l) (leBytes n (new.toNat % 2 ^ (8 * n)))).1.answer (.data bs)
          else y.answer (.data bs)))) ∧
    (∀ off n, s.host.peerEn = false → Happens (.peerIncomingAccess (.load off n)) s (s.answer (.refused 0x0022))) ∧
    (∀ (k id : Nat) (p : PeerStore), inCores k = true →
      let v := s.focus k
      let c := v.core
      let d : Core := { c with peerStores := c.peerStores.filter fun q => q.id != id }
      c.peerStores.find? (fun q => q.id == id) = some p → (∀ q ∈ c.peerStores, q.package = p.package → id ≤ q.id) →
      let lost (code : Nat) : State :=
        let w := ({ v with
          core := { d with peerFail := c.peerFail ++ [(id, code)] }
          host := { v.host with pevt := (v.host.pevt + 1) % 2 ^ 32 } } : State).raise 66
        { w with mem := { w.mem with recs := w.mem.recs ++ [{ w.coreRec k 0x0070 code p.ptr 0 0 with ctx := some p.ctx }] } }
      (∀ code, code = 0x0010 ∨ code = 0x0020 ∨ code = 0x0021 ∨ code = 0x0022 → Happens (.peerStoreNotPerformed k id code) s (lost code)) ∧
      (s.host.ports = 0 → Happens (.peerStoreAcknowledged k id) s (lost 0x0022)) ∧
      (s.host.ports ≠ 0 → p.package ≠ s.host.rank → Happens (.peerStoreAcknowledged k id) s (v.withCore d)) ∧
      (s.host.ports ≠ 0 → p.package = s.host.rank → ∀ w, v.peerStore (p.ptr.toNat % 2 ^ 48) p.data = (w, 0) →
        Happens (.peerStoreAcknowledged k id) s (w.modCore k fun e => { e with peerStores := e.peerStores.filter fun q => q.id != id }))) ∧
    (∀ (p : Fin 4) (up : Bool) (i : Instr), i = (if up then .portUp p else .portDown p) →
      (s.host.ports.getLsbD p = up → Happens i s s) ∧
      (s.host.ports.getLsbD p ≠ up → ∃ u : State, u = { s with host := { s.host with ports := u.host.ports } } ∧
        (∀ j : Fin 4, u.host.ports.getLsbD j = if j = p then up else s.host.ports.getLsbD j) ∧
        Happens i s ((u.emit ⟨6, p, if up then 0x0074 else 0x0073, 0, none, 0, 0, 0, 0, 0, 0⟩).raise 66)))

/-! ## HBM, flash and the platform -/

/-- R426, R429, R430, R432, R434, R435, R437 to R440, R443, R464: the events of the HBM channels and of the flash stacks. Which free
block an event takes, and what becomes at a remap of a read that is held, are as logs 29 and 30 say. -/
def Obligations.HbmAndFlash : Prop :=
  ∀ s : State,
    -- A request arrives at the port of the channel that serves its granule: it takes a tag, waits for one or is held.
    (∀ (q a : Nat) (kind : HbmKind), q < Config.hbmChannels → channelOf a = q ∨ s.mem.channel a = q → a < Config.hbmBytes → a % 32 = 0 →
      let x := s.chan (s.mem.channel a)
      let arrives (t : State) : Prop := (kind = .rd → Happens (.hbmRd q a) s t) ∧ (∀ d, kind = .wr d → Happens (.hbmWr q a d) s t) ∧
        ∀ m d, kind = .wrm m d → Happens (.hbmWrm q a m d) s t
      let held : Prop := x.state = 1 ∧ (kind.write = true ∨ ∃ h ∈ x.held, h.1 = a)
      (held → arrives (s.setChan { x with held := x.held ++ [(a, kind)] })) ∧
      (¬held → 8 ≤ x.reqs.length ∨ x.waiting ≠ [] → arrives (s.setChan { x with waiting := x.waiting ++ [(a, kind)] })) ∧
      (¬held → x.reqs.length < 8 → x.waiting = [] → ∃ r : HbmReq, arrives (s.setChan { x with reqs := x.reqs ++ [r] }) ∧
        r.gran = a ∧ r.kind = kind ∧ r.tag < 8 ∧ (∀ y ∈ x.reqs, y.tag ≠ r.tag) ∧
        ((∀ y ∈ x.reqs, y.gran = a → y.kind.write = false) →
          r.value = BitVec.ofNat 256 (s.mem.hbm.value a 32) ∧ (r.poison = true ↔ a / 32 ∈ s.mem.hbmPoison) ∧ r.behind = false) ∧
        ∀ l y d, x.reqs = l ++ [y] → y.gran = a → y.kind = .wr d → r.value = d ∧ r.poison = false ∧ r.behind = true)) ∧
    -- A request is performed, once no older write to its granule is left, and replies; a request that waits takes its tag.
    (∀ (q tag : Nat) (r : HbmReq), q < Config.hbmChannels →
      let x := s.chan q
      let n := r.gran / 32
      let line := s.mem.location (32 * n) / 64
      let slice := s.chan (s.mem.channel (32 * n))
      let clean : Prop := s.mem.hbmErr = [] ∧ ∀ y ∈ s.mem.chans, y.bad = []
      let rest := x.reqs.filter fun y => y.tag != tag
      let older (y : HbmReq) : Prop := y.gran = r.gran ∧ y.kind.write = false ∧ y.behind = false
      let fixed := rest.map fun (y : HbmReq) =>
        if y.gran == r.gran && !y.kind.write && !y.behind then { y with behind := true, poison := s.mem.hbmPoison.contains n } else y
      let behind : Prop := ∃ y ∈ x.reqs.takeWhile fun y => y.tag != tag, y.gran = r.gran ∧ y.kind.write = true
      let served (left : List HbmReq) (y : Hchan) : Prop := (x.waiting = [] → y.reqs = left ∧ y.waiting = []) ∧
        ∀ a k w, x.waiting = (a, k) :: w → left.length = 7 → ∃ z : HbmReq, y.reqs = left ++ [z] ∧ y.waiting = w ∧ z.gran = a ∧ z.kind = k ∧
          z.tag < 8 ∧ ∀ u ∈ left, u.tag ≠ z.tag
      let replies (P : State → Prop) : Prop := ∃ t : State, Happens (.hbmReply q tag) s t ∧ served rest (t.chan q) ∧ P t
      let data (t : State) : Prop := t.mem = { s.mem with chans := t.mem.chans } ∧
        t.host = { s.host with reply := some (.data (leBytes 32 r.value.toNat)) }
      let aborts (t : State) : Prop := t.mem = { s.mem with chans := t.mem.chans } ∧ t.host = { s.host with reply := some .abort }
      x.reqs.find? (fun y => y.tag == tag) = some r →
      (behind → Happens (.hbmReply q tag) s s) ∧
      (¬behind →
        -- A write; the reads of its granule accepted before it are made first.
        ((∀ y ∈ rest, ¬older y) ∨ clean → ∀ d,
          let writes (P : MemState → Prop) : Prop := ∃ t : State, Happens (.hbmReply q tag) s t ∧ served fixed (t.chan q) ∧ t.host = s.host ∧
            t.mem = { s.mem with
              hbm := s.mem.hbm.store (32 * n) 32 d.toNat, hbmPoison := t.mem.hbmPoison
              hbmErr := s.mem.hbmErr.filter fun e => e.1 != n, chans := t.mem.chans } ∧ P t.mem
          (r.kind = .wr d → writes fun m => m.hbmPoison = s.mem.hbmPoison.filter (· != n)) ∧
          (r.kind = .bad d → writes fun m => ∀ g, g ∈ m.hbmPoison ↔ g = n ∨ g ∈ s.mem.hbmPoison)) ∧
        (clean → ∀ m d, r.kind = .wrm m d → ∃ t : State, Happens (.hbmReply q tag) s t ∧ served fixed (t.chan q) ∧ t.host = s.host ∧
          t.mem = { s.mem with hbm := t.mem.hbm, chans := t.mem.chans } ∧ ∀ b, t.mem.hbm.get b =
            if 32 * n ≤ b ∧ b < 32 * n + 32 ∧ m.getLsbD (b - 32 * n) then BitVec.ofNat 8 (d.toNat / 2 ^ (8 * (b - 32 * n)))
            else s.mem.hbm.get b) ∧
        -- A read: of a write accepted before it, of the slice, or of DRAM, which detects an error (R428, R430, R432).
        (r.kind = .rd →
          (r.behind = true → r.poison = false → replies data) ∧
          (r.behind = true → r.poison = true → replies aborts) ∧
          (r.behind = false → line ∈ slice.lines → s.mem.location (32 * n) / 32 ∉ slice.gaps → s.mem.location (32 * n) / 32 ∉ slice.bad →
            (r.poison = false → n ∉ s.mem.hbmPoison → replies data) ∧ (r.poison = true ∨ n ∈ s.mem.hbmPoison → replies aborts)) ∧
          (r.behind = false → clean →
            (r.poison = false → n ∉ s.mem.hbmPoison → replies data) ∧ (r.poison = true ∨ n ∈ s.mem.hbmPoison → replies aborts)) ∧
          (r.behind = false → line ∉ slice.lines ∨ s.mem.location (32 * n) / 32 ∈ slice.gaps → n ∉ s.mem.hbmPoison →
              s.mem.hbmErr = [(n, true)] → replies fun t =>
            t.host = { s.host with reply := some .abort } ∧
            t.mem = { s.mem with
              hbmErr := [], hbmPoison := n :: s.mem.hbmPoison, chans := t.mem.chans
              recs := s.mem.recs ++ [⟨3, s.mem.channel (32 * n), 0x0031, 0, none, 0, BitVec.ofNat 64 (32 * n), 0, 0, 0, 0⟩] })))) ∧
    -- The retirement of a channel: CHCMD, the drain and the copy.
    (∀ q, q < Config.hbmChannels →
      let free : Prop := s.hbm.phase = 0 ∧ (s.chan q).state = 0 ∧ s.hbm.used ≠ s.hbm.count
      (s.serves 0x20048 = false → Happens (.retireChannel q) s s) ∧
      (s.serves 0x20048 = true → free →
        let u := (s.setChan { s.chan q with state := 1 }).chanRec q 1 0 0 0
        Happens (.retireChannel q) s { u with hbm := { u.hbm with chan := q, phase := 2 } }) ∧
      (s.serves 0x20048 = true → ¬free →
        Happens (.retireChannel q) s (({ s with hbm := { s.hbm with err := true } } : State).chanRec q 5 0 0 0))) ∧
    (let q := s.hbm.chan
      let x := s.chan q
      let drained : Prop := (∀ r ∈ x.reqs, r.kind.write = false) ∧ ∀ r ∈ x.waiting, r.2.write = false
      let bad := (s.mem.hbmPoison.filter fun n => s.mem.channel (32 * n) == q).length
      let writes (n : Nat) : List HbmKind := (x.held.filter fun h => h.1 / 32 == n && h.2.write).map (·.2)
      let copied := s.chanRec q 3 62914560 bad 0
      (s.hbm.phase = 2 → drained → Happens .channelDrainComplete s (({ s with hbm := { s.hbm with phase := 3 } } : State).chanRec q 2 0 0 0)) ∧
      (s.hbm.phase ≠ 2 ∨ ¬drained → Happens .channelDrainComplete s s) ∧
      (s.hbm.phase = 3 → s.mem.recs = [] → (∀ c ∈ s.cores, c.recs = []) → (∀ e ∈ s.mem.hbmErr, s.mem.channel (32 * e.1) ≠ q) →
        ∃ m : MemState, m = { copied.mem with
            hbm := m.hbm, hbmPoison := m.hbmPoison, hbmErr := m.hbmErr, chans := m.chans
            redirects := s.mem.redirects ++ [(q, s.hbm.spareBase * 2 ^ 31 + 2 ^ 31 * s.hbm.used)] } ∧
          (∀ n, BitVec.ofNat 256 (m.hbm.value (32 * n) 32) = (writes n).foldl mergeWrite (BitVec.ofNat 256 (s.mem.hbm.value (32 * n) 32))) ∧
          (∀ n, m.hbmPoison.contains n = (writes n).foldl mergePoison (s.mem.hbmPoison.contains n)) ∧
          (m.chan q).state = 2 ∧ (m.chan q).held = [] ∧
          (∀ h ∈ x.held, h.2.write = false → ∃ y ∈ m.chans, (∃ r ∈ y.reqs, r.gran = h.1 ∧ r.kind = h.2) ∨ h ∈ y.waiting ∨ h ∈ y.held) ∧
          let v := ({ copied with mem := m } : State).chanRec q 4 62914560 bad (x.held.filter fun h => h.2.write).length
          Happens .channelCopyComplete s { v with hbm := { v.hbm with phase := 0, used := s.hbm.used + 1 } }) ∧
      (s.hbm.phase ≠ 3 → Happens .channelCopyComplete s s)) ∧
    -- A page read is issued and counted; it completes, is retried and counted again, or leaves the page uncorrectable.
    (let counted (i : Instr) (t : State) (st b : Nat) : Prop :=
        let n := min ((t.block st b).reads + 1) (2 ^ 24 - 1)
        let u := t.setBlock { t.block st b with reads := n }
        (n < s.flash.rdthr ∨ (t.block st b).state ≠ 1 → Happens i s u) ∧
        (s.flash.rdthr ≤ n → (t.block st b).state = 1 →
          (s.host.duty.getLsbD 0 = true → Happens i s (if n = s.flash.rdthr then
            u.flashRec st 0x0041 2 0 none (65536 * (u.unitsOf st b).headD 0) b 0 n else u)) ∧
          (s.host.duty.getLsbD 0 = false → u.Relocated st b 0 (Happens i s)))
      let issued (u page b : Nat) (handle : Option Nat) : State := { s with flash := { s.flash with
        reads := s.flash.reads ++ [⟨s.flash.nextId, u, page, u % 8, b, handle, 0⟩], nextId := s.flash.nextId + 1 } }
      (∀ (u page : Nat) (handle : Option Nat), page < 4 →
        (s.blockOf u = none → Happens (.flashPageRead u page handle) s s) ∧
        ∀ b, s.blockOf u = some b → counted (.flashPageRead u page handle) (issued u page b handle) (u % 8) b) ∧
      ∀ (id : Nat) (r : PageRead) (result : FlashResult), s.flash.reads.find? (fun x => x.id == id) = some r →
        let i : Instr := .flashPageReadComplete id result
        let p := 4 * r.unit + r.page
        let rest : State := { s with flash := { s.flash with reads := s.flash.reads.filter fun x => x.id != id } }
        let bad : Prop := result = .bad ∨ p ∈ s.mem.flashErr ∨ p ∈ s.mem.flashBad
        -- Of the four reads of a unit, made together, those that a staging had still to issue are counted with the last retry (R443, R445).
        let x := s.block r.stack r.block
        let issued (h j : Nat) : Bool := j == r.page || (s.handle h).got.contains (4 * r.unit + j) ||
          rest.flash.reads.any fun y => y.handle == some h && y.unit == r.unit && y.page == j
        let missing : Nat := match r.handle with
          | some h => if (s.handle h).state = 2 then (List.range 4).countP fun j => !issued h j else 0
          | none => 0
        let counting := if missing = 0 then rest else rest.setBlock { x with reads := min (x.reads + missing) (2 ^ 24 - 1) }
        let last : Prop := 3 ≤ r.tries ∧ (missing = 0 ∨ x.state ≠ 1 ∨ x.reads + missing < s.flash.rdthr)
        let known : MemState := { s.mem with
          flashErr := s.mem.flashErr.filter (· != p), pageBuf := s.mem.pageBuf.filter (· != p)
          llc := s.mem.llc.filter fun y => !(y.kind == 1 && 32 * y.num / 16384 == p) }
        let failed (t : State) : State := match r.handle with
          | some h => t.failStaging h 0x0040
          | none => t
        (¬bad → r.handle = none → Happens i s { rest with mem := { s.mem with
          pageBuf := p :: s.mem.pageBuf.filter fun y => y / 4 % 8 != p / 4 % 8 } }) ∧
        (¬bad → ∀ h, r.handle = some h → (s.handle h).state ≠ 2 → Happens i s rest) ∧
        (¬bad → ∀ h, r.handle = some h → (s.handle h).state = 2 → Happens i s
          (rest.setHandle { s.handle h with got := addOnce p (s.handle h).got })) ∧
        (bad → r.tries < 3 → counted i { s with flash := { s.flash with reads := s.flash.reads.map fun (x : PageRead) =>
          if x.id == id then { x with tries := x.tries + 1 } else x } } r.stack r.block) ∧
        (bad → last → p ∈ s.mem.flashBad → Happens i s (failed { counting with mem := known })) ∧
        (bad → last → p ∉ s.mem.flashBad →
          let y := counting.block r.stack r.block
          let b1 := counting.setBlock { y with badpg := min 255 (y.badpg + 1) }
          let b2 : State := { b1 with
            flash := { b1.flash with uepg := s.flash.uepg.setIfInBounds r.stack (min 65535 (s.flash.uepg.toList.getD r.stack 0 + 1)) }
            mem := { known with flashBad := p :: s.mem.flashBad } }
          let b3 := failed (b2.flashRec r.stack 0x0040 0 0 (r.handle.map fun h => (s.handle h).ctx) (16384 * p) (r.handle.getD 0xFFFFFFFF) 0 0)
          Happens i s (if b3.host.duty.getLsbD 0 = true then b3.retireRecord r.stack r.block 2 2 else b3.retireBlock r.stack r.block 2))) ∧
    -- The switch, the erase and the deferred start of a relocation.
    (∀ (st b : Nat), st < 8 → b < 2 ^ 20 →
      let x := s.block st b
      (x.toBlock = none → Happens (.relocationSwitch st b) s s) ∧
      (∀ d, x.toBlock = some d → ∃ t : State, Happens (.relocationSwitch st b) s t ∧
        let found (p : Nat) : Prop := p ∈ s.mem.flashErr ∧ p / 4 ∈ s.unitsOf st b
        let moves (u : Nat) : Prop := u ∈ s.unitsOf st b ∧ s.unitGood u = true ∧ ∀ p, found p → p / 4 ≠ u
        (∀ u, (moves u → t.blockOf u = some d) ∧ (¬moves u → t.blockOf u = s.blockOf u)) ∧ (∀ p, found p → p ∈ t.mem.flashBad) ∧
        ((∀ p, ¬found p) →
          ((s.flash.map.map (·.unit)).Nodup → ∀ j u, ((s.unitsOf st b).filter s.unitGood)[j]? = some u → ⟨u, d, j⟩ ∈ t.flash.map) ∧
          (x.retire ≠ none → t.block st b = { x with state := 3, toBlock := none }) ∧
          (x.retire = none → x.state = 3 → t.block st b = { x with toBlock := none }) ∧
          (x.retire = none → x.state ≠ 3 → t.block st b = { x with toBlock := none, erasing := true }))) ∧
      (x.erasing = false ∨ (∃ r ∈ s.flash.reads, r.stack = st ∧ r.block = b) → ∀ failed, Happens (.blockErase st b failed) s s) ∧
      (x.erasing = true → (∀ r ∈ s.flash.reads, r.stack = st → r.block ≠ b) →
        let e := s.setBlock { x with state := 0, reads := 0, erases := x.erases + 1, filled := 0, erasing := false, retire := none }
        let inUse (y : Block) : Prop := y ∈ e.stackList st ∧ y.state = 1
        let due (y : Block) : Prop := inUse y ∧ (∀ z, inUse z → y.erases < z.erases ∨ (y.erases = z.erases ∧ y.num ≤ z.num)) ∧
          s.flash.wldiff < e.eMax st - e.eMin st ∧ y.erases = e.eMin st
        ((∀ y, ¬due y) → Happens (.blockErase st b false) s e) ∧
        (∀ y, due y → e.block st y.num = y →
          (s.host.duty.getLsbD 0 = true → Happens (.blockErase st b false) s
            (e.flashRec st 0x0041 2 1 none (65536 * (e.unitsOf st y.num).headD 0) y.num 0 y.reads)) ∧
          (s.host.duty.getLsbD 0 = false → e.Relocated st y.num 1 (Happens (.blockErase st b false) s))) ∧
        (s.host.duty.getLsbD 0 = true → Happens (.blockErase st b true) s (s.retireRecord st b 1 2)) ∧
        (s.host.duty.getLsbD 0 = false → Happens (.blockErase st b true) s
          ((s.setBlock { x with state := 3, erasing := false }).retireRecord st b 1 0)))) ∧
    (∀ (st b why d : Nat), st < 8 → s.flash.deferred.find? (fun x => x.1 == st) = some (st, b, why) → s.freeBlock st = some d →
      (s.host.duty.getLsbD 0 = true → Happens (.deferredRelocationStart st) s s) ∧
      (s.host.duty.getLsbD 0 = false → ∃ t : State, Happens (.deferredRelocationStart st) s t ∧
        t.flash.deferred = s.flash.deferred.filter (fun x => !(x.1 == st && x.2.1 == b)) ∧ (d ≠ b → (t.block st d).state = 1) ∧
        t.block st b = { s.block st b with state := if (s.block st b).state = 3 then 3 else 2, toBlock := some d, why := why })) ∧
    -- FLCMD: a command that the host may not give now, an invalid one, and what each does.
    (∀ (value : Word) (failed : Bool),
      let v := value.toNat
      let u := v % 2 ^ 27
      let count := v / 2 ^ 32 % 2 ^ 20
      let st := v / 2 ^ 20 % 2 ^ 3
      let b := v % 2 ^ 20
      let src := s.flash.flarg.toNat
      let x := s.block st b
      let all (f : Instr → Prop) : Prop := f (.flashWrite value failed) ∧ f (.flashTrim value) ∧ f (.flashReloc value) ∧ f (.flashRetire value)
      let runs (t : State) (code : Nat) (target : Option (Nat × Nat)) : State :=
        { t with flash := { t.flash with busy := true, result := code, target := target } }
      (s.serves 0x20148 = false → all fun i => Happens i s s) ∧
      (s.serves 0x20148 = true → s.flash.busy = true → all fun i => Happens i s { s with flash := { s.flash with err := true } }) ∧
      (s.serves 0x20148 = true → s.flash.busy = false →
        let unitsOk : Prop := count ≠ 0 ∧ u + count ≤ 2 ^ 27
        let srcOk : Prop := src % 65536 = 0 ∧ src + 65536 * count ≤ Config.hbmBytes
        (¬(unitsOk ∧ srcOk) → Happens (.flashWrite value failed) s (runs s 0x0031 none)) ∧
        (unitsOk → srcOk → ∃ t code, Happens (.flashWrite value failed) s (runs t code none) ∧ (code = 0 ∨ code = 0x0010 ∨ code = 0x0022) ∧
          (code = 0 → (∀ j, j < count → (t.blockOf (u + j)).isSome = true) ∧
            (failed = false → (∀ y ∈ s.mem.chans, y.reqs = [] ∧ y.waiting = [] ∧ y.held = []) →
              ∀ j, j < 65536 * count → t.mem.flash.get (65536 * u + j) = s.mem.hbm.get (src + j)))) ∧
        (¬unitsOk → Happens (.flashTrim value) s (runs s 0x0031 none)) ∧
        (unitsOk → ∃ t : State, Happens (.flashTrim value) s (runs t 0 none) ∧
          ∀ x, t.blockOf x = if u ≤ x ∧ x < u + count then none else s.blockOf x) ∧
        (x.state ≠ 1 ∨ stackBlocks ≤ b → Happens (.flashReloc value) s (runs s 0x0031 none)) ∧
        (x.state = 1 → b < stackBlocks →
          (s.freeBlock st = none → Happens (.flashReloc value) s (runs s 0x0022 none)) ∧
          (src % 2 ^ 32 = 0xFFFFFFFF → ∀ d, s.freeBlock st = some d →
            Happens (.flashReloc value) s (runs (s.moving st b d 3 none) 0 (some (st, b)))) ∧
          (s.freeBlock st ≠ none → src % 2 ^ 32 ≠ 0xFFFFFFFF → let d := src % 2 ^ 20
            (stackBlocks ≤ d ∨ (s.block st d).state ≠ 0 → Happens (.flashReloc value) s (runs s 0x0031 none)) ∧
            (d < stackBlocks → (s.block st d).state = 0 →
              Happens (.flashReloc value) s (runs (s.moving st b d 3 none) 0 (some (st, b)))))) ∧
        (3 ≤ x.state ∨ stackBlocks ≤ b → Happens (.flashRetire value) s (runs s 0x0031 none)) ∧
        (x.state < 3 → b < stackBlocks →
          let keeps : Prop := ∃ y ∈ s.unitsOf st b, s.unitGood y = true
          let ends (t : State) : Prop := Happens (.flashRetire value) s (runs t 0 (some (st, b)))
          (¬keeps → ends ((s.setBlock { x with state := 3, toBlock := none, erasing := false }).retireRecord st b 3 0)) ∧
          (keeps → x.state = 2 → ends (s.setBlock { x with retire := some 3 })) ∧
          (keeps → x.state ≠ 2 → (∀ d, s.freeBlock st = some d → ends (s.moving st b d 2 (some 3))) ∧
            (s.freeBlock st = none → let t := s.putOff st b 2
              ends ((t.setBlock { t.block st b with state := 3 }).retireRecord st b 3 8)))))) ∧
    (let waits : Prop := ∃ st b, s.flash.target = some (st, b) ∧ (s.block st b).toBlock ≠ none
      let ended : State := { s with flash := { s.flash with
        busy := false, code := s.flash.result, err := s.flash.err || s.flash.result != 0, target := none } }
      (s.flash.busy = true → ¬waits → Happens .flcmdComplete s (ended.raise 64)) ∧
      (s.flash.busy = false ∨ waits → Happens .flcmdComplete s s))

/-- R452 to R460, R191, R432, R443: reset, bring-up, attestation, keys, clocks, halted sequencers and soft errors. The layout of an image is
the model's (log 98), as are which failures the phases can report (log 19), the content and the order of the attestation exchange, whose
chain, flags and signatures are free (log 18), and what RESET keeps (R31, R453, R454; log 61). -/
def Obligations.PlatformEvents : Prop :=
  ∀ s : State,
    (∃ t : State, Happens .reset s t ∧ t.plat.phase = 0 ∧ t.mem.ctxs = [] ∧ t.mem.keys = [] ∧ t.mem.llc = [] ∧ t.mem.hbm = [] ∧
      t.mem.flash = s.mem.flash ∧ t.flash.map = s.flash.map ∧ t.flash.blocks = s.flash.blocks ∧ t.launch = State.reset.launch ∧
      t.rel = State.reset.rel ∧ t.hbm = State.reset.hbm ∧ t.expert = State.reset.expert ∧ t.host = State.reset.host ∧
      (∀ k, t.coreAt k = State.reset.coreAt k) ∧ (∀ c ∈ s.cores, c.run = .retired → (c.kid, c.retWhy) ∈ t.plat.listCores) ∧
      t.plat.image = s.plat.image ∧ t.plat.minVersion = s.plat.minVersion ∧ t.plat.keyDigest = s.plat.keyDigest ∧
      (∀ x ∈ s.plat.listBanks, x ∈ t.plat.listBanks) ∧ (∀ f ∈ s.mem.quarantine, f ∈ t.plat.listFrames) ∧
      ∀ c ∈ s.cores, ∀ g, g < 12 → (c.group g).state = 2 → (c.kid, g, (c.group g).dbank) ∈ t.plat.listBanks) ∧
    (∀ (fail : Nat) (failed : List (Nat × Nat × Nat)) (image : Option Firmware),
      let p := s.plat
      let i : Instr := .bootPhaseComplete ⟨fail, failed, image⟩
      let f := image.getD p.image
      let key := (leBytes 96 f.key.toNat).reverse
      let genuine : Prop := sha384 key = p.keyDigest ∧ ecdsaVerifies f.key f.sig (leBytes 8 f.version ++ key ++ f.body) = true
      let stops (code : Nat) : Prop := Happens i s { s with plat := { p with phase := 4, bootErr := true, fail := code } }
      (5 ≤ p.phase ∨ p.bootErr = true → Happens i s s) ∧
      (p.bootErr = false →
        (p.phase = 0 → (¬genuine → stops 1) ∧ (genuine → f.version < p.minVersion → stops 2) ∧
          (genuine → p.minVersion ≤ f.version → Happens i s { s with plat := { p with phase := 1, image := f } })) ∧
        (p.phase = 1 → Happens i s { s with plat := { p with phase := 2 } }) ∧
        (p.phase = 2 → (fail = 3 ∨ fail = 4 → stops fail) ∧ (fail ≠ 3 → fail ≠ 4 → Happens i s { s with
          plat := { p with phase := 3 }, mem := { s.mem with hbm := [], hbmPoison := [], hbmErr := [] } })) ∧
        (p.phase = 3 → ∃ t : State, Happens i s t ∧ t.plat = { p with phase := 4 } ∧ t.mem.quarantine = p.listFrames ∧
          (∀ x ∈ p.listCores, (t.coreAt x.1).run = .retired) ∧
          ∀ x, x ∈ failed ∨ x ∈ p.listBanks → x.2.1 < 12 → ((s.coreAt x.1).group x.2.1).state ≤ 2 →
            ((t.coreAt x.1).group x.2.1).state = 2) ∧
        (p.phase = 4 → Happens i s { s with plat := { p with phase := 5 }, mem := { s.mem with linkUp := true } }))) ∧
    (let answers (i : Instr) (ok : Nat → Bool) (after : Nat → Nat) (said : List Byte) : Prop :=
        (ok s.plat.spdm = true → Happens i s { s with
          plat := { s.plat with spdm := after s.plat.spdm, answer := said }, fresh := s.fresh + 1 }) ∧
        (ok s.plat.spdm = false → Happens i s { s with plat := { s.plat with answer := [] } })
      let begun (n : Nat) : Bool := 3 ≤ n
      let digest (m : List Byte) : List Byte := (leBytes 48 (sha384 m).toNat).reverse
      let signed (m : List Byte) : List Byte := (leBytes 96 (Config.spdmSign m s.fresh).toNat).reverse
      let chain := Config.certChain
      let p := s.retirements
      let image := p.image
      answers .getVersion (fun _ => true) (fun _ => 1) (leBytes 2 0x1200 ++ leBytes 2 0x1300) ∧
      answers .getCapabilities (fun n => n == 1) (fun _ => 2) (leBytes 4 Config.spdmFlags.toNat) ∧
      answers .negotiateAlgorithms (fun n => n == 2) (fun _ => 3) (leBytes 4 0x80 ++ leBytes 4 0x02 ++ leBytes 2 0x02) ∧
      answers .getDigests begun id (digest chain) ∧ answers .getCertificate begun id chain ∧
      (∀ x, answers (.challenge x) begun id (digest chain ++ signed (leBytes 32 x.toNat ++ digest chain))) ∧
      (∀ j m, (j, m) ∈ [(1, Config.rom),
          (2, leBytes 8 image.version ++ (leBytes 96 image.key.toNat).reverse ++ image.body ++ (leBytes 96 image.sig.toNat).reverse),
          (3, (p.listBanks.flatMap fun x => leBytes 2 x.1 ++ leBytes 1 x.2.1 ++ leBytes 1 x.2.2) ++
            (p.listCores.flatMap fun x => leBytes 2 x.1 ++ leBytes 1 x.2) ++
            p.listFrames.flatMap fun x => leBytes 2 x.1 ++ leBytes 2 x.2.1 ++ leBytes 2 x.2.2),
          (4, leBytes 8 p.minVersion)] → answers (.getMeasurements j) begun id (leBytes 1 j ++ digest m)) ∧
      (∀ j, j = 0 ∨ 4 < j → Happens (.getMeasurements j) s { s with plat := { s.plat with answer := [] } }) ∧
      answers .keyExchange begun (fun _ => 4) (signed []) ∧ answers .finish (fun n => n == 4) (fun _ => 5) (signed [])) ∧
    (∀ (j : Nat) (key : BitVec 512), j < 4096 → s.plat.spdm = 5 →
      (∃ t : State, Happens (.load j key) s t ∧ t = { s with mem := { s.mem with keys := t.mem.keys } } ∧
        ∀ n, t.mem.key n = if n = j then some key else s.mem.key n) ∧
      ∃ t : State, Happens (.clear j) s t ∧ t = { s with mem := { s.mem with keys := t.mem.keys } } ∧
        ∀ n, t.mem.key n = if n = j then none else s.mem.key n) ∧
    (∀ b : BlockId, blockExists b = true →
      let x := s.clockOf b
      let leaves (i : Instr) (y : Clock) : Prop := ∃ t : State, Happens i s t ∧ t = { s with plat := { s.plat with clocks := t.plat.clocks } } ∧
        ∀ c, t.clockOf c = if c = b then y else s.clockOf c
      leaves (.thermalThrottleDown b) (if x.stopped = false ∧ x.steps < 14 then { x with steps := x.steps + 1, count := x.count + 1 } else x) ∧
      leaves (.thermalThrottleUp b) (if x.stopped = false ∧ x.steps ≠ 0 then { x with steps := x.steps - 1, count := x.count + 1 } else x) ∧
      leaves (.thermalClockStop b) (if x.steps = 14 then { x with stopped := true } else x) ∧
      leaves (.thermalClockRestart b) { x with stopped := false } ∧
      let now := s.host.clock + 1 + Config.elapsed s.fresh
      Happens (.droopStretch b) s { s with
        host := { s.host with clock := now }, expert := s.expert.countMisses now, fresh := s.fresh + 1 }) ∧
    (∀ k, inCores k = true → s.serves 0x30020 = true →
      ((s.coreAt k).run = .halted → Happens (.mgmtResume k) s (s.modCore k fun c => { c with run := .running }) ∧
        ∀ y, s.mem.ctx (s.coreAt k).ctx = some y → ∃ t : State, Happens (.mgmtTerminate k) s t ∧ t.mem.ctx (s.coreAt k).ctx = none ∧
          ∀ c ∈ t.cores, c.runs (s.coreAt k).ctx = false) ∧
      ((s.coreAt k).run ≠ .halted → ∀ i, i = .mgmtResume k ∨ i = .mgmtTerminate k →
        Happens i s { s with plat := { s.plat with mgmtErr := true } })) ∧
    (let struck (t : ErrTarget) (k key : Nat) (fatal : Bool) : Prop :=
        ((∃ p ∈ (s.coreAt k).poison, p.1 = key) → Happens (.softError t) s (s.modCore k id)) ∧
        ((∀ p ∈ (s.coreAt k).poison, p.1 ≠ key) → ∃ u : State, Happens (.softError t) s u ∧
          ∃ y, (key, y) ∈ (u.coreAt k).latent ∧ (fatal = true → y = true))
      let core (k : Nat) : Core := s.coreAt k
      (∀ k off fatal, inCores k = true → off < Config.poolBytes → struck (.pool k off fatal) k (off / 32) fatal) ∧
      (∀ k g row fatal, inCores k = true → g < 12 → row < 256 → struck (.libero k g row fatal) k
        (if ((core k).group g).state = 2 then sectorAt g row ((core k).group g).dbank else liberoKey g row) fatal) ∧
      (∀ kind pa x, s.mem.sector? kind (pa / 32) = some x →
        (∀ fatal, Happens (.softError (.llc kind pa fatal)) s
          { s with mem := s.mem.putSector { x with err := if fatal then 2 else max x.err 1 } }) ∧
        Happens (.softError (.llcTag kind pa)) s { s with mem := s.mem.putSector { x with tagErr := true } }) ∧
      (∀ kind pa, s.mem.sector? kind (pa / 32) = none →
        (∀ fatal, Happens (.softError (.llc kind pa fatal)) s s) ∧ Happens (.softError (.llcTag kind pa)) s s) ∧
      (∀ pa fatal, pa < Config.hbmBytes → pa / 32 ∉ s.mem.hbmPoison → ∃ t : State, Happens (.softError (.hbm pa fatal)) s t ∧
        ∃ y, (pa / 32, y) ∈ t.mem.hbmErr ∧ (fatal = true → y = true)) ∧
      (∀ pa fatal, Config.hbmBytes ≤ pa ∨ pa / 32 ∈ s.mem.hbmPoison → Happens (.softError (.hbm pa fatal)) s s) ∧
      (∀ pa, pa < Config.hbmBytes → let a := s.mem.location pa
        let x := s.chan (channelOf a)
        (a / 64 ∉ x.lines ∨ a / 32 ∈ x.gaps → Happens (.softError (.slice pa)) s s) ∧
        (a / 64 ∈ x.lines → a / 32 ∉ x.gaps →
          Happens (.softError (.slice pa)) s (s.setChan { x with bad := addOnce (a / 32) x.bad }))) ∧
      (∀ la page, (s.blockOf (la / 65536)).isSome = true → 4 * (la / 65536) + page % 4 ∉ s.mem.flashBad →
        ∃ t : State, Happens (.softError (.flash la page)) s t ∧ 4 * (la / 65536) + page % 4 ∈ t.mem.flashErr) ∧
      (∀ la page, s.blockOf (la / 65536) = none ∨ 4 * (la / 65536) + page % 4 ∈ s.mem.flashBad →
        Happens (.softError (.flash la page)) s s) ∧
      ∀ n, n < 4 → Happens (.softError (.control n)) s (s.emit ⟨7, 0, 0x007F, 0, none, n, 0, 0, 0, 0, 0⟩))
end

