-- ==== Sys2Proof/Laws/Cipher.lean ====
section
/-! SUPPORT. Decryption undoes encryption with the same key and address (R375). -/
namespace Sys2Proof.Machine

theorem AesBlock.of_getLsbD (f : Nat → Byte) (n j : Nat) (hj : j < 128) :
    ((List.range n).foldl (fun (x : AesBlock) i => x ||| (f i).setWidth 128 <<< (8 * i)) 0).getLsbD j =
      (decide (j < 8 * n) && (f (j / 8)).getLsbD (j % 8)) := by
  induction n with
  | zero => simp
  | succ n ih =>
    rw [List.range_succ, List.foldl_append]
    simp only [List.foldl_cons, List.foldl_nil, BitVec.getLsbD_or, ih, BitVec.getLsbD_shiftLeft, BitVec.getLsbD_setWidth, hj,
      decide_true, Bool.true_and]
    rcases Nat.lt_trichotomy (j / 8) n with h | h | h
    · have h1 : j < 8 * n := by omega
      have h2 : j < 8 * (n + 1) := by omega
      simp [h1, h2]
    · have h1 : ¬ j < 8 * n := by omega
      have h2 : j < 8 * (n + 1) := by omega
      have h3 : j - 8 * n = j % 8 := by omega
      have h4 : j % 8 < 128 := by omega
      simp [h1, h2, h3, h4, h]
    · have h1 : ¬ j < 8 * n := by omega
      have h2 : ¬ j < 8 * (n + 1) := by omega
      have h3 : (f n).getLsbD (j - 8 * n) = false := BitVec.getLsbD_of_ge _ _ (by omega)
      simp [h1, h2, h3]

theorem AesBlock.getLsbD_of (f : Nat → Byte) (j : Nat) (hj : j < 128) : (AesBlock.of f).getLsbD j = (f (j / 8)).getLsbD (j % 8) := by
  rw [AesBlock.of, AesBlock.of_getLsbD f 16 j hj]
  simp [hj]

theorem AesBlock.getLsbD_byte (x : AesBlock) (i j : Nat) (hj : j < 8) : (x.byte i).getLsbD j = x.getLsbD (8 * i + j) := by
  simp [AesBlock.byte, hj]

/-- Byte i of a block made of bytes. -/
theorem AesBlock.byte_of (f : Nat → Byte) (i : Nat) (h : i < 16) : (AesBlock.of f).byte i = f i := by
  refine BitVec.eq_of_getLsbD_eq fun j hj => ?_
  rw [AesBlock.getLsbD_byte _ _ _ hj, AesBlock.getLsbD_of _ _ (by omega)]
  congr 1
  · congr 1; omega
  · omega

/-- A block is made of its bytes. -/
theorem AesBlock.of_byte (x : AesBlock) : AesBlock.of x.byte = x := by
  refine BitVec.eq_of_getLsbD_eq fun j hj => ?_
  rw [AesBlock.getLsbD_of _ _ hj, AesBlock.getLsbD_byte _ _ _ (Nat.mod_lt _ (by omega))]
  congr 1
  omega

theorem AesBlock.of_congr {f g : Nat → Byte} (h : ∀ i < 16, f i = g i) : AesBlock.of f = AesBlock.of g := by
  refine BitVec.eq_of_getLsbD_eq fun j hj => ?_
  rw [AesBlock.getLsbD_of _ _ hj, AesBlock.getLsbD_of _ _ hj, h (j / 8) (by omega)]

theorem sboxInv_sbox (x : Byte) : sboxInv (sbox x) = x := by revert x; decide +kernel

theorem subBytesInv_subBytes (x : AesBlock) : subBytesInv (subBytes x) = x := by
  conv => rhs; rw [← x.of_byte]
  exact AesBlock.of_congr fun i hi => by rw [subBytes, AesBlock.byte_of _ i hi, sboxInv_sbox]

theorem shiftRowsInv_shiftRows (x : AesBlock) : shiftRowsInv (shiftRows x) = x := by
  conv => rhs; rw [← x.of_byte]
  exact AesBlock.of_congr fun i hi => by
    rw [shiftRows, AesBlock.byte_of _ _ (Nat.mod_lt _ (by omega))]
    congr 1
    omega

theorem xtime_xor (a b : Byte) : xtime (a ^^^ b) = xtime a ^^^ xtime b := by
  have lc (x y z : Byte) : x ^^^ (y ^^^ z) = y ^^^ (x ^^^ z) := by ac_rfl
  simp only [xtime, BitVec.shiftLeft_xor_distrib, BitVec.msb_xor]
  cases a.msb <;> cases b.msb <;> simp [BitVec.xor_assoc, lc (27#8), BitVec.xor_comm (27#8)]

theorem times9_xor (a b : Byte) : times9 (a ^^^ b) = times9 a ^^^ times9 b := by simp only [times9, xtime_xor]; ac_rfl
theorem times11_xor (a b : Byte) : times11 (a ^^^ b) = times11 a ^^^ times11 b := by simp only [times11, xtime_xor]; ac_rfl
theorem times13_xor (a b : Byte) : times13 (a ^^^ b) = times13 a ^^^ times13 b := by simp only [times13, xtime_xor]; ac_rfl
theorem times14_xor (a b : Byte) : times14 (a ^^^ b) = times14 a ^^^ times14 b := by simp only [times14, xtime_xor]; ac_rfl

/-- What one byte of a column gives to each byte of the column after both mixings: itself, or nothing. -/
theorem mix_byte : ∀ a : Byte,
    times14 (xtime a) ^^^ times11 a ^^^ times13 a ^^^ times9 (xtime a) ^^^ times9 a = a ∧
    times14 (xtime a) ^^^ times14 a ^^^ times11 (xtime a) ^^^ times13 a ^^^ times9 a = 0 ∧
    times14 a ^^^ times11 (xtime a) ^^^ times11 a ^^^ times13 (xtime a) ^^^ times9 a = 0 ∧
    times14 a ^^^ times11 a ^^^ times13 (xtime a) ^^^ times13 a ^^^ times9 (xtime a) = 0 := by decide +kernel

theorem mix_cancel (a b c d : Byte) :
    times14 (xtime a ^^^ (xtime b ^^^ b) ^^^ c ^^^ d) ^^^ times11 (xtime b ^^^ (xtime c ^^^ c) ^^^ d ^^^ a) ^^^
      times13 (xtime c ^^^ (xtime d ^^^ d) ^^^ a ^^^ b) ^^^ times9 (xtime d ^^^ (xtime a ^^^ a) ^^^ b ^^^ c) = a := by
  simp only [times9_xor, times11_xor, times13_xor, times14_xor]
  calc _ = (times14 (xtime a) ^^^ times11 a ^^^ times13 a ^^^ times9 (xtime a) ^^^ times9 a) ^^^
        (times14 (xtime b) ^^^ times14 b ^^^ times11 (xtime b) ^^^ times13 b ^^^ times9 b) ^^^
        (times14 c ^^^ times11 (xtime c) ^^^ times11 c ^^^ times13 (xtime c) ^^^ times9 c) ^^^
        (times14 d ^^^ times11 d ^^^ times13 (xtime d) ^^^ times13 d ^^^ times9 (xtime d)) := by ac_rfl
    _ = a := by rw [(mix_byte a).1, (mix_byte b).2.1, (mix_byte c).2.2.1, (mix_byte d).2.2.2]; simp

theorem AesBlock.below_of (f : Nat → Byte) (i k : Nat) (hi : i < 16) :
    (AesBlock.of f).below i k = f (4 * (i / 4) + (i + k) % 4) := AesBlock.byte_of _ _ (by omega)

theorem AesBlock.below_below (x : AesBlock) (i k l : Nat) : x.below (4 * (i / 4) + (i + k) % 4) l = x.below i ((k + l) % 4) := by
  unfold AesBlock.below
  congr 1
  omega

theorem mixColumnsInv_mixColumns (x : AesBlock) : mixColumnsInv (mixColumns x) = x := by
  conv => rhs; rw [← x.of_byte]
  refine AesBlock.of_congr fun i hi => ?_
  simp only [mixColumns, AesBlock.below_of _ _ _ hi, AesBlock.below_below]
  have h : x.byte i = x.below i 0 := by unfold AesBlock.below; congr 1; omega
  rw [h]
  exact mix_cancel (x.below i 0) (x.below i 1) (x.below i 2) (x.below i 3)

theorem aesRoundsInv_aesRounds (ks : List AesBlock) (x : AesBlock) : aesRoundsInv (aesRounds x ks) ks = x := by
  induction ks generalizing x with
  | nil => rfl
  | cons k ks ih =>
    cases ks with
    | nil => simp [aesRounds, aesRoundsInv, shiftRowsInv_shiftRows, subBytesInv_subBytes]
    | cons k' ks =>
      simp only [aesRounds, aesRoundsInv]
      rw [show aesRoundsInv _ (k' :: ks) = _ from ih _]
      simp [mixColumnsInv_mixColumns, shiftRowsInv_shiftRows, subBytesInv_subBytes]

theorem aesDecrypt_aesEncrypt (key : BitVec 256) (x : AesBlock) : aesDecrypt key (aesEncrypt key x) = x := by
  simp [aesDecrypt, aesEncrypt, aesRoundsInv_aesRounds]

theorem decBlock_encBlock (key : BitVec 512) (t x : AesBlock) : decBlock key t (encBlock key t x) = x := by
  simp [decBlock, encBlock, aesDecrypt_aesEncrypt]

theorem getLsbD_join (a b : BitVec 128) (j : Nat) :
    (a ++ b : BitVec 256).getLsbD j = if j < 128 then b.getLsbD j else a.getLsbD (j - 128) := BitVec.getLsbD_append

/-- A sector is its two blocks. -/
theorem join_blocks (x : BitVec 256) : (x.extractLsb' 128 128 ++ x.extractLsb' 0 128 : BitVec 256) = x := by
  refine BitVec.eq_of_getLsbD_eq fun j hj => ?_
  rw [getLsbD_join, BitVec.getLsbD_extractLsb', BitVec.getLsbD_extractLsb']
  split
  · simp [*]
  · rw [show 128 + (j - 128) = j by omega]
    simp [show j - 128 < 128 by omega]

theorem high_join (a b : BitVec 128) : (a ++ b : BitVec 256).extractLsb' 128 128 = a := by
  refine BitVec.eq_of_getLsbD_eq fun j hj => ?_
  rw [BitVec.getLsbD_extractLsb', getLsbD_join]
  simp [hj]

theorem low_join (a b : BitVec 128) : (a ++ b : BitVec 256).extractLsb' 0 128 = b := by
  refine BitVec.eq_of_getLsbD_eq fun j hj => ?_
  rw [BitVec.getLsbD_extractLsb', getLsbD_join]
  simp [hj]

/-- R375: a sector reads back under the key and address it was written with. -/
theorem decSector_encSector (key : BitVec 512) (addr : Nat) (x : BitVec 256) : decSector key addr (encSector key addr x) = x := by
  simp only [decSector, encSector, high_join, low_join, decBlock_encBlock, join_blocks]

end Sys2Proof.Machine
end

