-- ==== Sys2Proof/Laws/State.lean ====
section
/-! SUPPORT. What each update of the state leaves in each field. -/
namespace Sys2Proof.Machine

/-! ## withCore -/

@[simp] theorem State.withCore_core (s : State) (c : Core) : (s.withCore c).core = c := rfl
@[simp] theorem State.withCore_others (s : State) (c : Core) : (s.withCore c).others = s.others := rfl
@[simp] theorem State.withCore_mem (s : State) (c : Core) : (s.withCore c).mem = s.mem := rfl
@[simp] theorem State.withCore_launch (s : State) (c : Core) : (s.withCore c).launch = s.launch := rfl
@[simp] theorem State.withCore_expert (s : State) (c : Core) : (s.withCore c).expert = s.expert := rfl
@[simp] theorem State.withCore_host (s : State) (c : Core) : (s.withCore c).host = s.host := rfl
@[simp] theorem State.withCore_rel (s : State) (c : Core) : (s.withCore c).rel = s.rel := rfl
@[simp] theorem State.withCore_hbm (s : State) (c : Core) : (s.withCore c).hbm = s.hbm := rfl
@[simp] theorem State.withCore_flash (s : State) (c : Core) : (s.withCore c).flash = s.flash := rfl
@[simp] theorem State.withCore_plat (s : State) (c : Core) : (s.withCore c).plat = s.plat := rfl
@[simp] theorem State.withCore_agenda (s : State) (c : Core) : (s.withCore c).agenda = s.agenda := rfl
@[simp] theorem State.withCore_turn (s : State) (c : Core) : (s.withCore c).turn = s.turn := rfl
@[simp] theorem State.withCore_fresh (s : State) (c : Core) : (s.withCore c).fresh = s.fresh := rfl

/-! ## setList -/

@[simp] theorem State.setList_core (s : State) (j : Nat) (l : ListReg) : (s.setList j l).core = s.core := rfl
@[simp] theorem State.setList_others (s : State) (j : Nat) (l : ListReg) : (s.setList j l).others = s.others := rfl
@[simp] theorem State.setList_mem (s : State) (j : Nat) (l : ListReg) : (s.setList j l).mem = s.mem := rfl
@[simp] theorem State.setList_launch (s : State) (j : Nat) (l : ListReg) : (s.setList j l).launch = { s.launch with lists := s.launch.lists.setIfInBounds j l } := rfl
@[simp] theorem State.setList_expert (s : State) (j : Nat) (l : ListReg) : (s.setList j l).expert = s.expert := rfl
@[simp] theorem State.setList_host (s : State) (j : Nat) (l : ListReg) : (s.setList j l).host = s.host := rfl
@[simp] theorem State.setList_rel (s : State) (j : Nat) (l : ListReg) : (s.setList j l).rel = s.rel := rfl
@[simp] theorem State.setList_hbm (s : State) (j : Nat) (l : ListReg) : (s.setList j l).hbm = s.hbm := rfl
@[simp] theorem State.setList_flash (s : State) (j : Nat) (l : ListReg) : (s.setList j l).flash = s.flash := rfl
@[simp] theorem State.setList_plat (s : State) (j : Nat) (l : ListReg) : (s.setList j l).plat = s.plat := rfl
@[simp] theorem State.setList_agenda (s : State) (j : Nat) (l : ListReg) : (s.setList j l).agenda = s.agenda := rfl
@[simp] theorem State.setList_turn (s : State) (j : Nat) (l : ListReg) : (s.setList j l).turn = s.turn := rfl
@[simp] theorem State.setList_fresh (s : State) (j : Nat) (l : ListReg) : (s.setList j l).fresh = s.fresh := rfl

/-! ## setTile -/

@[simp] theorem State.setTile_core (s : State) (x : TileTask) : (s.setTile x).core = s.core := rfl
@[simp] theorem State.setTile_others (s : State) (x : TileTask) : (s.setTile x).others = s.others := rfl
@[simp] theorem State.setTile_mem (s : State) (x : TileTask) : (s.setTile x).mem = s.mem := rfl
@[simp] theorem State.setTile_launch (s : State) (x : TileTask) : (s.setTile x).launch = { s.launch with tiles := s.launch.tiles.map fun y => if y.id == x.id then x else y } := rfl
@[simp] theorem State.setTile_expert (s : State) (x : TileTask) : (s.setTile x).expert = s.expert := rfl
@[simp] theorem State.setTile_host (s : State) (x : TileTask) : (s.setTile x).host = s.host := rfl
@[simp] theorem State.setTile_rel (s : State) (x : TileTask) : (s.setTile x).rel = s.rel := rfl
@[simp] theorem State.setTile_hbm (s : State) (x : TileTask) : (s.setTile x).hbm = s.hbm := rfl
@[simp] theorem State.setTile_flash (s : State) (x : TileTask) : (s.setTile x).flash = s.flash := rfl
@[simp] theorem State.setTile_plat (s : State) (x : TileTask) : (s.setTile x).plat = s.plat := rfl
@[simp] theorem State.setTile_agenda (s : State) (x : TileTask) : (s.setTile x).agenda = s.agenda := rfl
@[simp] theorem State.setTile_turn (s : State) (x : TileTask) : (s.setTile x).turn = s.turn := rfl
@[simp] theorem State.setTile_fresh (s : State) (x : TileTask) : (s.setTile x).fresh = s.fresh := rfl

/-! ## setHandle -/

@[simp] theorem State.setHandle_core (s : State) (x : Handle) : (s.setHandle x).core = s.core := rfl
@[simp] theorem State.setHandle_others (s : State) (x : Handle) : (s.setHandle x).others = s.others := rfl
@[simp] theorem State.setHandle_mem (s : State) (x : Handle) : (s.setHandle x).mem = s.mem := rfl
@[simp] theorem State.setHandle_launch (s : State) (x : Handle) : (s.setHandle x).launch = s.launch := rfl
@[simp] theorem State.setHandle_expert (s : State) (x : Handle) : (s.setHandle x).expert = { s.expert with handles := x :: s.expert.handles.filter fun y => y.num != x.num } := rfl
@[simp] theorem State.setHandle_host (s : State) (x : Handle) : (s.setHandle x).host = s.host := rfl
@[simp] theorem State.setHandle_rel (s : State) (x : Handle) : (s.setHandle x).rel = s.rel := rfl
@[simp] theorem State.setHandle_hbm (s : State) (x : Handle) : (s.setHandle x).hbm = s.hbm := rfl
@[simp] theorem State.setHandle_flash (s : State) (x : Handle) : (s.setHandle x).flash = s.flash := rfl
@[simp] theorem State.setHandle_plat (s : State) (x : Handle) : (s.setHandle x).plat = s.plat := rfl
@[simp] theorem State.setHandle_agenda (s : State) (x : Handle) : (s.setHandle x).agenda = s.agenda := rfl
@[simp] theorem State.setHandle_turn (s : State) (x : Handle) : (s.setHandle x).turn = s.turn := rfl
@[simp] theorem State.setHandle_fresh (s : State) (x : Handle) : (s.setHandle x).fresh = s.fresh := rfl

/-! ## setChan -/

@[simp] theorem State.setChan_core (s : State) (x : Hchan) : (s.setChan x).core = s.core := rfl
@[simp] theorem State.setChan_others (s : State) (x : Hchan) : (s.setChan x).others = s.others := rfl
@[simp] theorem State.setChan_mem (s : State) (x : Hchan) : (s.setChan x).mem = s.mem.setChan x := rfl
@[simp] theorem State.setChan_launch (s : State) (x : Hchan) : (s.setChan x).launch = s.launch := rfl
@[simp] theorem State.setChan_expert (s : State) (x : Hchan) : (s.setChan x).expert = s.expert := rfl
@[simp] theorem State.setChan_host (s : State) (x : Hchan) : (s.setChan x).host = s.host := rfl
@[simp] theorem State.setChan_rel (s : State) (x : Hchan) : (s.setChan x).rel = s.rel := rfl
@[simp] theorem State.setChan_hbm (s : State) (x : Hchan) : (s.setChan x).hbm = s.hbm := rfl
@[simp] theorem State.setChan_flash (s : State) (x : Hchan) : (s.setChan x).flash = s.flash := rfl
@[simp] theorem State.setChan_plat (s : State) (x : Hchan) : (s.setChan x).plat = s.plat := rfl
@[simp] theorem State.setChan_agenda (s : State) (x : Hchan) : (s.setChan x).agenda = s.agenda := rfl
@[simp] theorem State.setChan_turn (s : State) (x : Hchan) : (s.setChan x).turn = s.turn := rfl
@[simp] theorem State.setChan_fresh (s : State) (x : Hchan) : (s.setChan x).fresh = s.fresh := rfl

/-! ## setBlock -/

@[simp] theorem State.setBlock_core (s : State) (x : Block) : (s.setBlock x).core = s.core := rfl
@[simp] theorem State.setBlock_others (s : State) (x : Block) : (s.setBlock x).others = s.others := rfl
@[simp] theorem State.setBlock_mem (s : State) (x : Block) : (s.setBlock x).mem = s.mem := rfl
@[simp] theorem State.setBlock_launch (s : State) (x : Block) : (s.setBlock x).launch = s.launch := rfl
@[simp] theorem State.setBlock_expert (s : State) (x : Block) : (s.setBlock x).expert = s.expert := rfl
@[simp] theorem State.setBlock_host (s : State) (x : Block) : (s.setBlock x).host = s.host := rfl
@[simp] theorem State.setBlock_rel (s : State) (x : Block) : (s.setBlock x).rel = s.rel := rfl
@[simp] theorem State.setBlock_hbm (s : State) (x : Block) : (s.setBlock x).hbm = s.hbm := rfl
@[simp] theorem State.setBlock_flash (s : State) (x : Block) : (s.setBlock x).flash = { s.flash with blocks := x :: s.flash.blocks.filter fun y => !(y.stack == x.stack && y.num == x.num) } := rfl
@[simp] theorem State.setBlock_plat (s : State) (x : Block) : (s.setBlock x).plat = s.plat := rfl
@[simp] theorem State.setBlock_agenda (s : State) (x : Block) : (s.setBlock x).agenda = s.agenda := rfl
@[simp] theorem State.setBlock_turn (s : State) (x : Block) : (s.setBlock x).turn = s.turn := rfl
@[simp] theorem State.setBlock_fresh (s : State) (x : Block) : (s.setBlock x).fresh = s.fresh := rfl

/-! ## mapUnit -/

@[simp] theorem State.mapUnit_core (s : State) (u b slot : Nat) : (s.mapUnit u b slot).core = s.core := rfl
@[simp] theorem State.mapUnit_others (s : State) (u b slot : Nat) : (s.mapUnit u b slot).others = s.others := rfl
@[simp] theorem State.mapUnit_mem (s : State) (u b slot : Nat) : (s.mapUnit u b slot).mem = { s.mem with mapped := addOnce u s.mem.mapped } := rfl
@[simp] theorem State.mapUnit_launch (s : State) (u b slot : Nat) : (s.mapUnit u b slot).launch = s.launch := rfl
@[simp] theorem State.mapUnit_expert (s : State) (u b slot : Nat) : (s.mapUnit u b slot).expert = s.expert := rfl
@[simp] theorem State.mapUnit_host (s : State) (u b slot : Nat) : (s.mapUnit u b slot).host = s.host := rfl
@[simp] theorem State.mapUnit_rel (s : State) (u b slot : Nat) : (s.mapUnit u b slot).rel = s.rel := rfl
@[simp] theorem State.mapUnit_hbm (s : State) (u b slot : Nat) : (s.mapUnit u b slot).hbm = s.hbm := rfl
@[simp] theorem State.mapUnit_flash (s : State) (u b slot : Nat) : (s.mapUnit u b slot).flash = { s.flash with map := ⟨u, b, slot⟩ :: s.flash.map.filter fun x => x.unit != u } := rfl
@[simp] theorem State.mapUnit_plat (s : State) (u b slot : Nat) : (s.mapUnit u b slot).plat = s.plat := rfl
@[simp] theorem State.mapUnit_agenda (s : State) (u b slot : Nat) : (s.mapUnit u b slot).agenda = s.agenda := rfl
@[simp] theorem State.mapUnit_turn (s : State) (u b slot : Nat) : (s.mapUnit u b slot).turn = s.turn := rfl
@[simp] theorem State.mapUnit_fresh (s : State) (u b slot : Nat) : (s.mapUnit u b slot).fresh = s.fresh := rfl

/-! ## setClock -/

@[simp] theorem State.setClock_core (s : State) (x : Clock) : (s.setClock x).core = s.core := rfl
@[simp] theorem State.setClock_others (s : State) (x : Clock) : (s.setClock x).others = s.others := rfl
@[simp] theorem State.setClock_mem (s : State) (x : Clock) : (s.setClock x).mem = s.mem := rfl
@[simp] theorem State.setClock_launch (s : State) (x : Clock) : (s.setClock x).launch = s.launch := rfl
@[simp] theorem State.setClock_expert (s : State) (x : Clock) : (s.setClock x).expert = s.expert := rfl
@[simp] theorem State.setClock_host (s : State) (x : Clock) : (s.setClock x).host = s.host := rfl
@[simp] theorem State.setClock_rel (s : State) (x : Clock) : (s.setClock x).rel = s.rel := rfl
@[simp] theorem State.setClock_hbm (s : State) (x : Clock) : (s.setClock x).hbm = s.hbm := rfl
@[simp] theorem State.setClock_flash (s : State) (x : Clock) : (s.setClock x).flash = s.flash := rfl
@[simp] theorem State.setClock_plat (s : State) (x : Clock) : (s.setClock x).plat = { s.plat with clocks := x :: s.plat.clocks.filter fun y => y.block != x.block } := rfl
@[simp] theorem State.setClock_agenda (s : State) (x : Clock) : (s.setClock x).agenda = s.agenda := rfl
@[simp] theorem State.setClock_turn (s : State) (x : Clock) : (s.setClock x).turn = s.turn := rfl
@[simp] theorem State.setClock_fresh (s : State) (x : Clock) : (s.setClock x).fresh = s.fresh := rfl

/-! ## answer -/

@[simp] theorem State.answer_core (s : State) (r : Reply) : (s.answer r).core = s.core := rfl
@[simp] theorem State.answer_others (s : State) (r : Reply) : (s.answer r).others = s.others := rfl
@[simp] theorem State.answer_mem (s : State) (r : Reply) : (s.answer r).mem = s.mem := rfl
@[simp] theorem State.answer_launch (s : State) (r : Reply) : (s.answer r).launch = s.launch := rfl
@[simp] theorem State.answer_expert (s : State) (r : Reply) : (s.answer r).expert = s.expert := rfl
@[simp] theorem State.answer_host (s : State) (r : Reply) : (s.answer r).host = { s.host with reply := some r } := rfl
@[simp] theorem State.answer_rel (s : State) (r : Reply) : (s.answer r).rel = s.rel := rfl
@[simp] theorem State.answer_hbm (s : State) (r : Reply) : (s.answer r).hbm = s.hbm := rfl
@[simp] theorem State.answer_flash (s : State) (r : Reply) : (s.answer r).flash = s.flash := rfl
@[simp] theorem State.answer_plat (s : State) (r : Reply) : (s.answer r).plat = s.plat := rfl
@[simp] theorem State.answer_agenda (s : State) (r : Reply) : (s.answer r).agenda = s.agenda := rfl
@[simp] theorem State.answer_turn (s : State) (r : Reply) : (s.answer r).turn = s.turn := rfl
@[simp] theorem State.answer_fresh (s : State) (r : Reply) : (s.answer r).fresh = s.fresh := rfl

/-! ## raise -/

@[simp] theorem State.raise_core (s : State) (v : Nat) : (s.raise v).core = s.core := rfl
@[simp] theorem State.raise_others (s : State) (v : Nat) : (s.raise v).others = s.others := rfl
@[simp] theorem State.raise_mem (s : State) (v : Nat) : (s.raise v).mem = s.mem := rfl
@[simp] theorem State.raise_launch (s : State) (v : Nat) : (s.raise v).launch = s.launch := rfl
@[simp] theorem State.raise_expert (s : State) (v : Nat) : (s.raise v).expert = s.expert := rfl
@[simp] theorem State.raise_host (s : State) (v : Nat) : (s.raise v).host = { s.host with msix := s.host.msix.setIfInBounds v (s.host.msix.toList.getD v 0 + 1) } := rfl
@[simp] theorem State.raise_rel (s : State) (v : Nat) : (s.raise v).rel = s.rel := rfl
@[simp] theorem State.raise_hbm (s : State) (v : Nat) : (s.raise v).hbm = s.hbm := rfl
@[simp] theorem State.raise_flash (s : State) (v : Nat) : (s.raise v).flash = s.flash := rfl
@[simp] theorem State.raise_plat (s : State) (v : Nat) : (s.raise v).plat = s.plat := rfl
@[simp] theorem State.raise_agenda (s : State) (v : Nat) : (s.raise v).agenda = s.agenda := rfl
@[simp] theorem State.raise_turn (s : State) (v : Nat) : (s.raise v).turn = s.turn := rfl
@[simp] theorem State.raise_fresh (s : State) (v : Nat) : (s.raise v).fresh = s.fresh := rfl

/-! ## tick -/

@[simp] theorem State.tick_core (s : State) : (s.tick).core = s.core := rfl
@[simp] theorem State.tick_others (s : State) : (s.tick).others = s.others := rfl
@[simp] theorem State.tick_mem (s : State) : (s.tick).mem = s.mem := rfl
@[simp] theorem State.tick_launch (s : State) : (s.tick).launch = s.launch := rfl
@[simp] theorem State.tick_expert (s : State) : (s.tick).expert = s.expert.countMisses (s.host.clock + 1 + Config.elapsed s.fresh) := rfl
@[simp] theorem State.tick_host (s : State) : (s.tick).host = { s.host with clock := s.host.clock + 1 + Config.elapsed s.fresh } := rfl
@[simp] theorem State.tick_rel (s : State) : (s.tick).rel = s.rel := rfl
@[simp] theorem State.tick_hbm (s : State) : (s.tick).hbm = s.hbm := rfl
@[simp] theorem State.tick_flash (s : State) : (s.tick).flash = s.flash := rfl
@[simp] theorem State.tick_plat (s : State) : (s.tick).plat = s.plat := rfl
@[simp] theorem State.tick_agenda (s : State) : (s.tick).agenda = s.agenda := rfl
@[simp] theorem State.tick_turn (s : State) : (s.tick).turn = s.turn := rfl
@[simp] theorem State.tick_fresh (s : State) : (s.tick).fresh = s.fresh + 1 := rfl

/-! ## modCores -/

@[simp] theorem State.modCores_core (s : State) (f : Core → Core) : (s.modCores f).core = f s.core := rfl
@[simp] theorem State.modCores_others (s : State) (f : Core → Core) : (s.modCores f).others = s.others.map f := rfl
@[simp] theorem State.modCores_mem (s : State) (f : Core → Core) : (s.modCores f).mem = s.mem := rfl
@[simp] theorem State.modCores_launch (s : State) (f : Core → Core) : (s.modCores f).launch = s.launch := rfl
@[simp] theorem State.modCores_expert (s : State) (f : Core → Core) : (s.modCores f).expert = s.expert := rfl
@[simp] theorem State.modCores_host (s : State) (f : Core → Core) : (s.modCores f).host = s.host := rfl
@[simp] theorem State.modCores_rel (s : State) (f : Core → Core) : (s.modCores f).rel = s.rel := rfl
@[simp] theorem State.modCores_hbm (s : State) (f : Core → Core) : (s.modCores f).hbm = s.hbm := rfl
@[simp] theorem State.modCores_flash (s : State) (f : Core → Core) : (s.modCores f).flash = s.flash := rfl
@[simp] theorem State.modCores_plat (s : State) (f : Core → Core) : (s.modCores f).plat = s.plat := rfl
@[simp] theorem State.modCores_agenda (s : State) (f : Core → Core) : (s.modCores f).agenda = s.agenda := rfl
@[simp] theorem State.modCores_turn (s : State) (f : Core → Core) : (s.modCores f).turn = s.turn := rfl
@[simp] theorem State.modCores_fresh (s : State) (f : Core → Core) : (s.modCores f).fresh = s.fresh := rfl

/-! ## addPending -/

@[simp] theorem Core.addPending_kid (c : Core) (p : Pending) : (c.addPending p).kid = c.kid := rfl
@[simp] theorem Core.addPending_run (c : Core) (p : Pending) : (c.addPending p).run = c.run := rfl
@[simp] theorem Core.addPending_pc (c : Core) (p : Pending) : (c.addPending p).pc = c.pc := rfl
@[simp] theorem Core.addPending_step (c : Core) (p : Pending) : (c.addPending p).step = c.step := rfl
@[simp] theorem Core.addPending_fresh (c : Core) (p : Pending) : (c.addPending p).fresh = c.fresh := rfl
@[simp] theorem Core.addPending_sregs (c : Core) (p : Pending) : (c.addPending p).sregs = c.sregs := rfl
@[simp] theorem Core.addPending_vregs (c : Core) (p : Pending) : (c.addPending p).vregs = c.vregs := rfl
@[simp] theorem Core.addPending_mregs (c : Core) (p : Pending) : (c.addPending p).mregs = c.mregs := rfl
@[simp] theorem Core.addPending_flags (c : Core) (p : Pending) : (c.addPending p).flags = c.flags := rfl
@[simp] theorem Core.addPending_dq (c : Core) (p : Pending) : (c.addPending p).dq = c.dq := rfl
@[simp] theorem Core.addPending_eq (c : Core) (p : Pending) : (c.addPending p).eq = c.eq := rfl
@[simp] theorem Core.addPending_cq (c : Core) (p : Pending) : (c.addPending p).cq = c.cq := rfl
@[simp] theorem Core.addPending_latches (c : Core) (p : Pending) : (c.addPending p).latches = c.latches := rfl
@[simp] theorem Core.addPending_loops (c : Core) (p : Pending) : (c.addPending p).loops = c.loops := rfl
@[simp] theorem Core.addPending_aps (c : Core) (p : Pending) : (c.addPending p).aps = c.aps := rfl
@[simp] theorem Core.addPending_tiles (c : Core) (p : Pending) : (c.addPending p).tiles = c.tiles := rfl
@[simp] theorem Core.addPending_bench (c : Core) (p : Pending) : (c.addPending p).bench = c.bench := rfl
@[simp] theorem Core.addPending_scratch (c : Core) (p : Pending) : (c.addPending p).scratch = c.scratch := rfl
@[simp] theorem Core.addPending_leftover (c : Core) (p : Pending) : (c.addPending p).leftover = c.leftover := rfl
@[simp] theorem Core.addPending_trappc (c : Core) (p : Pending) : (c.addPending p).trappc = c.trappc := rfl
@[simp] theorem Core.addPending_trapcause (c : Core) (p : Pending) : (c.addPending p).trapcause = c.trapcause := rfl
@[simp] theorem Core.addPending_trapinfo (c : Core) (p : Pending) : (c.addPending p).trapinfo = c.trapinfo := rfl
@[simp] theorem Core.addPending_tvec (c : Core) (p : Pending) : (c.addPending p).tvec = c.tvec := rfl
@[simp] theorem Core.addPending_intrap (c : Core) (p : Pending) : (c.addPending p).intrap = c.intrap := rfl
@[simp] theorem Core.addPending_preq (c : Core) (p : Pending) : (c.addPending p).preq = c.preq := rfl
@[simp] theorem Core.addPending_inrpt (c : Core) (p : Pending) : (c.addPending p).inrpt = c.inrpt := rfl
@[simp] theorem Core.addPending_degr (c : Core) (p : Pending) : (c.addPending p).degr = c.degr := rfl
@[simp] theorem Core.addPending_rptidx (c : Core) (p : Pending) : (c.addPending p).rptidx = c.rptidx := rfl
@[simp] theorem Core.addPending_cycle (c : Core) (p : Pending) : (c.addPending p).cycle = c.cycle := rfl
@[simp] theorem Core.addPending_partition (c : Core) (p : Pending) : (c.addPending p).partition = c.partition := rfl
@[simp] theorem Core.addPending_ctx (c : Core) (p : Pending) : (c.addPending p).ctx = c.ctx := rfl
@[simp] theorem Core.addPending_level (c : Core) (p : Pending) : (c.addPending p).level = c.level := rfl
@[simp] theorem Core.addPending_pts (c : Core) (p : Pending) : (c.addPending p).pts = c.pts := rfl
@[simp] theorem Core.addPending_lgen (c : Core) (p : Pending) : (c.addPending p).lgen = c.lgen := rfl
@[simp] theorem Core.addPending_tls (c : Core) (p : Pending) : (c.addPending p).tls = c.tls := rfl
@[simp] theorem Core.addPending_shadow (c : Core) (p : Pending) : (c.addPending p).shadow = c.shadow := rfl
@[simp] theorem Core.addPending_tokens (c : Core) (p : Pending) : (c.addPending p).tokens = c.tokens := rfl
@[simp] theorem Core.addPending_brkExempt (c : Core) (p : Pending) : (c.addPending p).brkExempt = c.brkExempt := rfl
@[simp] theorem Core.addPending_resumed (c : Core) (p : Pending) : (c.addPending p).resumed = c.resumed := rfl
@[simp] theorem Core.addPending_kernel (c : Core) (p : Pending) : (c.addPending p).kernel = c.kernel := rfl
@[simp] theorem Core.addPending_patterns (c : Core) (p : Pending) : (c.addPending p).patterns = c.patterns := rfl
@[simp] theorem Core.addPending_arr (c : Core) (p : Pending) : (c.addPending p).arr = c.arr := rfl
@[simp] theorem Core.addPending_pending (c : Core) (p : Pending) : (c.addPending p).pending = insertPending p c.pending := rfl
@[simp] theorem Core.addPending_vars (c : Core) (p : Pending) : (c.addPending p).vars = c.vars := rfl
@[simp] theorem Core.addPending_nextId (c : Core) (p : Pending) : (c.addPending p).nextId = c.nextId := rfl
@[simp] theorem Core.addPending_cur (c : Core) (p : Pending) : (c.addPending p).cur = c.cur := rfl
@[simp] theorem Core.addPending_act (c : Core) (p : Pending) : (c.addPending p).act = c.act := rfl
@[simp] theorem Core.addPending_retiring (c : Core) (p : Pending) : (c.addPending p).retiring = c.retiring := rfl
@[simp] theorem Core.addPending_point (c : Core) (p : Pending) : (c.addPending p).point = c.point := rfl
@[simp] theorem Core.addPending_raised (c : Core) (p : Pending) : (c.addPending p).raised = c.raised := rfl
@[simp] theorem Core.addPending_stalled (c : Core) (p : Pending) : (c.addPending p).stalled = c.stalled := rfl
@[simp] theorem Core.addPending_room (c : Core) (p : Pending) : (c.addPending p).room = c.room := rfl
@[simp] theorem Core.addPending_loans (c : Core) (p : Pending) : (c.addPending p).loans = c.loans := rfl
@[simp] theorem Core.addPending_cmds (c : Core) (p : Pending) : (c.addPending p).cmds = c.cmds := rfl
@[simp] theorem Core.addPending_chans (c : Core) (p : Pending) : (c.addPending p).chans = c.chans := rfl
@[simp] theorem Core.addPending_seq (c : Core) (p : Pending) : (c.addPending p).seq = c.seq := rfl
@[simp] theorem Core.addPending_ecHeld (c : Core) (p : Pending) : (c.addPending p).ecHeld = c.ecHeld := rfl
@[simp] theorem Core.addPending_prodTok (c : Core) (p : Pending) : (c.addPending p).prodTok = c.prodTok := rfl
@[simp] theorem Core.addPending_leftTok (c : Core) (p : Pending) : (c.addPending p).leftTok = c.leftTok := rfl
@[simp] theorem Core.addPending_fenceWait (c : Core) (p : Pending) : (c.addPending p).fenceWait = c.fenceWait := rfl
@[simp] theorem Core.addPending_accessed (c : Core) (p : Pending) : (c.addPending p).accessed = c.accessed := rfl
@[simp] theorem Core.addPending_peerStores (c : Core) (p : Pending) : (c.addPending p).peerStores = c.peerStores := rfl
@[simp] theorem Core.addPending_peerLoads (c : Core) (p : Pending) : (c.addPending p).peerLoads = c.peerLoads := rfl
@[simp] theorem Core.addPending_peerFail (c : Core) (p : Pending) : (c.addPending p).peerFail = c.peerFail := rfl
@[simp] theorem Core.addPending_arrived (c : Core) (p : Pending) : (c.addPending p).arrived = c.arrived := rfl
@[simp] theorem Core.addPending_refState (c : Core) (p : Pending) : (c.addPending p).refState = c.refState := rfl
@[simp] theorem Core.addPending_refCnt (c : Core) (p : Pending) : (c.addPending p).refCnt = c.refCnt := rfl
@[simp] theorem Core.addPending_retWhy (c : Core) (p : Pending) : (c.addPending p).retWhy = c.retWhy := rfl
@[simp] theorem Core.addPending_audits (c : Core) (p : Pending) : (c.addPending p).audits = c.audits := rfl
@[simp] theorem Core.addPending_groups (c : Core) (p : Pending) : (c.addPending p).groups = c.groups := rfl
@[simp] theorem Core.addPending_poison (c : Core) (p : Pending) : (c.addPending p).poison = c.poison := rfl
@[simp] theorem Core.addPending_latent (c : Core) (p : Pending) : (c.addPending p).latent = c.latent := rfl
@[simp] theorem Core.addPending_bankUe (c : Core) (p : Pending) : (c.addPending p).bankUe = c.bankUe := rfl
@[simp] theorem Core.addPending_freeze (c : Core) (p : Pending) : (c.addPending p).freeze = c.freeze := rfl
@[simp] theorem Core.addPending_poolReqs (c : Core) (p : Pending) : (c.addPending p).poolReqs = c.poolReqs := rfl
@[simp] theorem Core.addPending_taken (c : Core) (p : Pending) : (c.addPending p).taken = c.taken := rfl
@[simp] theorem Core.addPending_races (c : Core) (p : Pending) : (c.addPending p).races = c.races := rfl
@[simp] theorem Core.addPending_acquired (c : Core) (p : Pending) : (c.addPending p).acquired = c.acquired := rfl
@[simp] theorem Core.addPending_recs (c : Core) (p : Pending) : (c.addPending p).recs = c.recs := rfl

/-! ## owesBoth -/

@[simp] theorem Core.owesBoth_kid (c : Core) (k : Nat) (sl : Slot) (p : Port) (x y : Val) : (c.owesBoth k sl p x y).kid = c.kid := rfl
@[simp] theorem Core.owesBoth_run (c : Core) (k : Nat) (sl : Slot) (p : Port) (x y : Val) : (c.owesBoth k sl p x y).run = c.run := rfl
@[simp] theorem Core.owesBoth_pc (c : Core) (k : Nat) (sl : Slot) (p : Port) (x y : Val) : (c.owesBoth k sl p x y).pc = c.pc := rfl
@[simp] theorem Core.owesBoth_step (c : Core) (k : Nat) (sl : Slot) (p : Port) (x y : Val) : (c.owesBoth k sl p x y).step = c.step := rfl
@[simp] theorem Core.owesBoth_fresh (c : Core) (k : Nat) (sl : Slot) (p : Port) (x y : Val) : (c.owesBoth k sl p x y).fresh = c.fresh := rfl
@[simp] theorem Core.owesBoth_sregs (c : Core) (k : Nat) (sl : Slot) (p : Port) (x y : Val) : (c.owesBoth k sl p x y).sregs = c.sregs := rfl
@[simp] theorem Core.owesBoth_vregs (c : Core) (k : Nat) (sl : Slot) (p : Port) (x y : Val) : (c.owesBoth k sl p x y).vregs = c.vregs := rfl
@[simp] theorem Core.owesBoth_mregs (c : Core) (k : Nat) (sl : Slot) (p : Port) (x y : Val) : (c.owesBoth k sl p x y).mregs = c.mregs := rfl
@[simp] theorem Core.owesBoth_flags (c : Core) (k : Nat) (sl : Slot) (p : Port) (x y : Val) : (c.owesBoth k sl p x y).flags = c.flags := rfl
@[simp] theorem Core.owesBoth_dq (c : Core) (k : Nat) (sl : Slot) (p : Port) (x y : Val) : (c.owesBoth k sl p x y).dq = c.dq := rfl
@[simp] theorem Core.owesBoth_eq (c : Core) (k : Nat) (sl : Slot) (p : Port) (x y : Val) : (c.owesBoth k sl p x y).eq = c.eq := rfl
@[simp] theorem Core.owesBoth_cq (c : Core) (k : Nat) (sl : Slot) (p : Port) (x y : Val) : (c.owesBoth k sl p x y).cq = c.cq := rfl
@[simp] theorem Core.owesBoth_latches (c : Core) (k : Nat) (sl : Slot) (p : Port) (x y : Val) : (c.owesBoth k sl p x y).latches = c.latches := rfl
@[simp] theorem Core.owesBoth_loops (c : Core) (k : Nat) (sl : Slot) (p : Port) (x y : Val) : (c.owesBoth k sl p x y).loops = c.loops := rfl
@[simp] theorem Core.owesBoth_aps (c : Core) (k : Nat) (sl : Slot) (p : Port) (x y : Val) : (c.owesBoth k sl p x y).aps = c.aps := rfl
@[simp] theorem Core.owesBoth_tiles (c : Core) (k : Nat) (sl : Slot) (p : Port) (x y : Val) : (c.owesBoth k sl p x y).tiles = c.tiles := rfl
@[simp] theorem Core.owesBoth_bench (c : Core) (k : Nat) (sl : Slot) (p : Port) (x y : Val) : (c.owesBoth k sl p x y).bench = c.bench := rfl
@[simp] theorem Core.owesBoth_scratch (c : Core) (k : Nat) (sl : Slot) (p : Port) (x y : Val) : (c.owesBoth k sl p x y).scratch = c.scratch := rfl
@[simp] theorem Core.owesBoth_leftover (c : Core) (k : Nat) (sl : Slot) (p : Port) (x y : Val) : (c.owesBoth k sl p x y).leftover = c.leftover := rfl
@[simp] theorem Core.owesBoth_trappc (c : Core) (k : Nat) (sl : Slot) (p : Port) (x y : Val) : (c.owesBoth k sl p x y).trappc = c.trappc := rfl
@[simp] theorem Core.owesBoth_trapcause (c : Core) (k : Nat) (sl : Slot) (p : Port) (x y : Val) : (c.owesBoth k sl p x y).trapcause = c.trapcause := rfl
@[simp] theorem Core.owesBoth_trapinfo (c : Core) (k : Nat) (sl : Slot) (p : Port) (x y : Val) : (c.owesBoth k sl p x y).trapinfo = c.trapinfo := rfl
@[simp] theorem Core.owesBoth_tvec (c : Core) (k : Nat) (sl : Slot) (p : Port) (x y : Val) : (c.owesBoth k sl p x y).tvec = c.tvec := rfl
@[simp] theorem Core.owesBoth_intrap (c : Core) (k : Nat) (sl : Slot) (p : Port) (x y : Val) : (c.owesBoth k sl p x y).intrap = c.intrap := rfl
@[simp] theorem Core.owesBoth_preq (c : Core) (k : Nat) (sl : Slot) (p : Port) (x y : Val) : (c.owesBoth k sl p x y).preq = c.preq := rfl
@[simp] theorem Core.owesBoth_inrpt (c : Core) (k : Nat) (sl : Slot) (p : Port) (x y : Val) : (c.owesBoth k sl p x y).inrpt = c.inrpt := rfl
@[simp] theorem Core.owesBoth_degr (c : Core) (k : Nat) (sl : Slot) (p : Port) (x y : Val) : (c.owesBoth k sl p x y).degr = c.degr := rfl
@[simp] theorem Core.owesBoth_rptidx (c : Core) (k : Nat) (sl : Slot) (p : Port) (x y : Val) : (c.owesBoth k sl p x y).rptidx = c.rptidx := rfl
@[simp] theorem Core.owesBoth_cycle (c : Core) (k : Nat) (sl : Slot) (p : Port) (x y : Val) : (c.owesBoth k sl p x y).cycle = c.cycle := rfl
@[simp] theorem Core.owesBoth_partition (c : Core) (k : Nat) (sl : Slot) (p : Port) (x y : Val) : (c.owesBoth k sl p x y).partition = c.partition := rfl
@[simp] theorem Core.owesBoth_ctx (c : Core) (k : Nat) (sl : Slot) (p : Port) (x y : Val) : (c.owesBoth k sl p x y).ctx = c.ctx := rfl
@[simp] theorem Core.owesBoth_level (c : Core) (k : Nat) (sl : Slot) (p : Port) (x y : Val) : (c.owesBoth k sl p x y).level = c.level := rfl
@[simp] theorem Core.owesBoth_pts (c : Core) (k : Nat) (sl : Slot) (p : Port) (x y : Val) : (c.owesBoth k sl p x y).pts = c.pts := rfl
@[simp] theorem Core.owesBoth_lgen (c : Core) (k : Nat) (sl : Slot) (p : Port) (x y : Val) : (c.owesBoth k sl p x y).lgen = c.lgen := rfl
@[simp] theorem Core.owesBoth_tls (c : Core) (k : Nat) (sl : Slot) (p : Port) (x y : Val) : (c.owesBoth k sl p x y).tls = c.tls := rfl
@[simp] theorem Core.owesBoth_shadow (c : Core) (k : Nat) (sl : Slot) (p : Port) (x y : Val) : (c.owesBoth k sl p x y).shadow = c.shadow := rfl
@[simp] theorem Core.owesBoth_tokens (c : Core) (k : Nat) (sl : Slot) (p : Port) (x y : Val) : (c.owesBoth k sl p x y).tokens = c.tokens := rfl
@[simp] theorem Core.owesBoth_brkExempt (c : Core) (k : Nat) (sl : Slot) (p : Port) (x y : Val) : (c.owesBoth k sl p x y).brkExempt = c.brkExempt := rfl
@[simp] theorem Core.owesBoth_resumed (c : Core) (k : Nat) (sl : Slot) (p : Port) (x y : Val) : (c.owesBoth k sl p x y).resumed = c.resumed := rfl
@[simp] theorem Core.owesBoth_kernel (c : Core) (k : Nat) (sl : Slot) (p : Port) (x y : Val) : (c.owesBoth k sl p x y).kernel = c.kernel := rfl
@[simp] theorem Core.owesBoth_patterns (c : Core) (k : Nat) (sl : Slot) (p : Port) (x y : Val) : (c.owesBoth k sl p x y).patterns = c.patterns := rfl
@[simp] theorem Core.owesBoth_arr (c : Core) (k : Nat) (sl : Slot) (p : Port) (x y : Val) : (c.owesBoth k sl p x y).arr = c.arr := rfl
@[simp] theorem Core.owesBoth_pending (c : Core) (k : Nat) (sl : Slot) (p : Port) (x y : Val) : (c.owesBoth k sl p x y).pending = insertPending ⟨c.step + c.lat k, c.step, sl.num, if c.lends sl p then .none else portDest p, (portDest p).takes x, (slotUnit sl).map fun u => (u, y), c.prodTok⟩ c.pending := rfl
@[simp] theorem Core.owesBoth_vars (c : Core) (k : Nat) (sl : Slot) (p : Port) (x y : Val) : (c.owesBoth k sl p x y).vars = c.vars := rfl
@[simp] theorem Core.owesBoth_nextId (c : Core) (k : Nat) (sl : Slot) (p : Port) (x y : Val) : (c.owesBoth k sl p x y).nextId = c.nextId := rfl
@[simp] theorem Core.owesBoth_cur (c : Core) (k : Nat) (sl : Slot) (p : Port) (x y : Val) : (c.owesBoth k sl p x y).cur = c.cur := rfl
@[simp] theorem Core.owesBoth_act (c : Core) (k : Nat) (sl : Slot) (p : Port) (x y : Val) : (c.owesBoth k sl p x y).act = c.act := rfl
@[simp] theorem Core.owesBoth_retiring (c : Core) (k : Nat) (sl : Slot) (p : Port) (x y : Val) : (c.owesBoth k sl p x y).retiring = c.retiring := rfl
@[simp] theorem Core.owesBoth_point (c : Core) (k : Nat) (sl : Slot) (p : Port) (x y : Val) : (c.owesBoth k sl p x y).point = c.point := rfl
@[simp] theorem Core.owesBoth_raised (c : Core) (k : Nat) (sl : Slot) (p : Port) (x y : Val) : (c.owesBoth k sl p x y).raised = c.raised := rfl
@[simp] theorem Core.owesBoth_stalled (c : Core) (k : Nat) (sl : Slot) (p : Port) (x y : Val) : (c.owesBoth k sl p x y).stalled = c.stalled := rfl
@[simp] theorem Core.owesBoth_room (c : Core) (k : Nat) (sl : Slot) (p : Port) (x y : Val) : (c.owesBoth k sl p x y).room = c.room := rfl
@[simp] theorem Core.owesBoth_loans (c : Core) (k : Nat) (sl : Slot) (p : Port) (x y : Val) : (c.owesBoth k sl p x y).loans = c.repaid sl p := rfl
@[simp] theorem Core.owesBoth_cmds (c : Core) (k : Nat) (sl : Slot) (p : Port) (x y : Val) : (c.owesBoth k sl p x y).cmds = c.cmds := rfl
@[simp] theorem Core.owesBoth_chans (c : Core) (k : Nat) (sl : Slot) (p : Port) (x y : Val) : (c.owesBoth k sl p x y).chans = c.chans := rfl
@[simp] theorem Core.owesBoth_seq (c : Core) (k : Nat) (sl : Slot) (p : Port) (x y : Val) : (c.owesBoth k sl p x y).seq = c.seq := rfl
@[simp] theorem Core.owesBoth_ecHeld (c : Core) (k : Nat) (sl : Slot) (p : Port) (x y : Val) : (c.owesBoth k sl p x y).ecHeld = c.ecHeld := rfl
@[simp] theorem Core.owesBoth_prodTok (c : Core) (k : Nat) (sl : Slot) (p : Port) (x y : Val) : (c.owesBoth k sl p x y).prodTok = 0 := rfl
@[simp] theorem Core.owesBoth_leftTok (c : Core) (k : Nat) (sl : Slot) (p : Port) (x y : Val) : (c.owesBoth k sl p x y).leftTok = c.leftTok := rfl
@[simp] theorem Core.owesBoth_fenceWait (c : Core) (k : Nat) (sl : Slot) (p : Port) (x y : Val) : (c.owesBoth k sl p x y).fenceWait = c.fenceWait := rfl
@[simp] theorem Core.owesBoth_accessed (c : Core) (k : Nat) (sl : Slot) (p : Port) (x y : Val) : (c.owesBoth k sl p x y).accessed = c.accessed := rfl
@[simp] theorem Core.owesBoth_peerStores (c : Core) (k : Nat) (sl : Slot) (p : Port) (x y : Val) : (c.owesBoth k sl p x y).peerStores = c.peerStores := rfl
@[simp] theorem Core.owesBoth_peerLoads (c : Core) (k : Nat) (sl : Slot) (p : Port) (x y : Val) : (c.owesBoth k sl p x y).peerLoads = c.peerLoads := rfl
@[simp] theorem Core.owesBoth_peerFail (c : Core) (k : Nat) (sl : Slot) (p : Port) (x y : Val) : (c.owesBoth k sl p x y).peerFail = c.peerFail := rfl
@[simp] theorem Core.owesBoth_arrived (c : Core) (k : Nat) (sl : Slot) (p : Port) (x y : Val) : (c.owesBoth k sl p x y).arrived = c.arrived := rfl
@[simp] theorem Core.owesBoth_refState (c : Core) (k : Nat) (sl : Slot) (p : Port) (x y : Val) : (c.owesBoth k sl p x y).refState = c.refState := rfl
@[simp] theorem Core.owesBoth_refCnt (c : Core) (k : Nat) (sl : Slot) (p : Port) (x y : Val) : (c.owesBoth k sl p x y).refCnt = c.refCnt := rfl
@[simp] theorem Core.owesBoth_retWhy (c : Core) (k : Nat) (sl : Slot) (p : Port) (x y : Val) : (c.owesBoth k sl p x y).retWhy = c.retWhy := rfl
@[simp] theorem Core.owesBoth_audits (c : Core) (k : Nat) (sl : Slot) (p : Port) (x y : Val) : (c.owesBoth k sl p x y).audits = c.audits := rfl
@[simp] theorem Core.owesBoth_groups (c : Core) (k : Nat) (sl : Slot) (p : Port) (x y : Val) : (c.owesBoth k sl p x y).groups = c.groups := rfl
@[simp] theorem Core.owesBoth_poison (c : Core) (k : Nat) (sl : Slot) (p : Port) (x y : Val) : (c.owesBoth k sl p x y).poison = c.poison := rfl
@[simp] theorem Core.owesBoth_latent (c : Core) (k : Nat) (sl : Slot) (p : Port) (x y : Val) : (c.owesBoth k sl p x y).latent = c.latent := rfl
@[simp] theorem Core.owesBoth_bankUe (c : Core) (k : Nat) (sl : Slot) (p : Port) (x y : Val) : (c.owesBoth k sl p x y).bankUe = c.bankUe := rfl
@[simp] theorem Core.owesBoth_freeze (c : Core) (k : Nat) (sl : Slot) (p : Port) (x y : Val) : (c.owesBoth k sl p x y).freeze = c.freeze := rfl
@[simp] theorem Core.owesBoth_poolReqs (c : Core) (k : Nat) (sl : Slot) (p : Port) (x y : Val) : (c.owesBoth k sl p x y).poolReqs = c.poolReqs := rfl
@[simp] theorem Core.owesBoth_taken (c : Core) (k : Nat) (sl : Slot) (p : Port) (x y : Val) : (c.owesBoth k sl p x y).taken = c.taken := rfl
@[simp] theorem Core.owesBoth_races (c : Core) (k : Nat) (sl : Slot) (p : Port) (x y : Val) : (c.owesBoth k sl p x y).races = c.races := rfl
@[simp] theorem Core.owesBoth_acquired (c : Core) (k : Nat) (sl : Slot) (p : Port) (x y : Val) : (c.owesBoth k sl p x y).acquired = c.acquired := rfl
@[simp] theorem Core.owesBoth_recs (c : Core) (k : Nat) (sl : Slot) (p : Port) (x y : Val) : (c.owesBoth k sl p x y).recs = c.recs := rfl

/-! ## owes -/

@[simp] theorem Core.owes_kid (c : Core) (k : Nat) (sl : Slot) (p : Port) (x : Val) : (c.owes k sl p x).kid = c.kid := rfl
@[simp] theorem Core.owes_run (c : Core) (k : Nat) (sl : Slot) (p : Port) (x : Val) : (c.owes k sl p x).run = c.run := rfl
@[simp] theorem Core.owes_pc (c : Core) (k : Nat) (sl : Slot) (p : Port) (x : Val) : (c.owes k sl p x).pc = c.pc := rfl
@[simp] theorem Core.owes_step (c : Core) (k : Nat) (sl : Slot) (p : Port) (x : Val) : (c.owes k sl p x).step = c.step := rfl
@[simp] theorem Core.owes_fresh (c : Core) (k : Nat) (sl : Slot) (p : Port) (x : Val) : (c.owes k sl p x).fresh = c.fresh := rfl
@[simp] theorem Core.owes_sregs (c : Core) (k : Nat) (sl : Slot) (p : Port) (x : Val) : (c.owes k sl p x).sregs = c.sregs := rfl
@[simp] theorem Core.owes_vregs (c : Core) (k : Nat) (sl : Slot) (p : Port) (x : Val) : (c.owes k sl p x).vregs = c.vregs := rfl
@[simp] theorem Core.owes_mregs (c : Core) (k : Nat) (sl : Slot) (p : Port) (x : Val) : (c.owes k sl p x).mregs = c.mregs := rfl
@[simp] theorem Core.owes_flags (c : Core) (k : Nat) (sl : Slot) (p : Port) (x : Val) : (c.owes k sl p x).flags = c.flags := rfl
@[simp] theorem Core.owes_dq (c : Core) (k : Nat) (sl : Slot) (p : Port) (x : Val) : (c.owes k sl p x).dq = c.dq := rfl
@[simp] theorem Core.owes_eq (c : Core) (k : Nat) (sl : Slot) (p : Port) (x : Val) : (c.owes k sl p x).eq = c.eq := rfl
@[simp] theorem Core.owes_cq (c : Core) (k : Nat) (sl : Slot) (p : Port) (x : Val) : (c.owes k sl p x).cq = c.cq := rfl
@[simp] theorem Core.owes_latches (c : Core) (k : Nat) (sl : Slot) (p : Port) (x : Val) : (c.owes k sl p x).latches = c.latches := rfl
@[simp] theorem Core.owes_loops (c : Core) (k : Nat) (sl : Slot) (p : Port) (x : Val) : (c.owes k sl p x).loops = c.loops := rfl
@[simp] theorem Core.owes_aps (c : Core) (k : Nat) (sl : Slot) (p : Port) (x : Val) : (c.owes k sl p x).aps = c.aps := rfl
@[simp] theorem Core.owes_tiles (c : Core) (k : Nat) (sl : Slot) (p : Port) (x : Val) : (c.owes k sl p x).tiles = c.tiles := rfl
@[simp] theorem Core.owes_bench (c : Core) (k : Nat) (sl : Slot) (p : Port) (x : Val) : (c.owes k sl p x).bench = c.bench := rfl
@[simp] theorem Core.owes_scratch (c : Core) (k : Nat) (sl : Slot) (p : Port) (x : Val) : (c.owes k sl p x).scratch = c.scratch := rfl
@[simp] theorem Core.owes_leftover (c : Core) (k : Nat) (sl : Slot) (p : Port) (x : Val) : (c.owes k sl p x).leftover = c.leftover := rfl
@[simp] theorem Core.owes_trappc (c : Core) (k : Nat) (sl : Slot) (p : Port) (x : Val) : (c.owes k sl p x).trappc = c.trappc := rfl
@[simp] theorem Core.owes_trapcause (c : Core) (k : Nat) (sl : Slot) (p : Port) (x : Val) : (c.owes k sl p x).trapcause = c.trapcause := rfl
@[simp] theorem Core.owes_trapinfo (c : Core) (k : Nat) (sl : Slot) (p : Port) (x : Val) : (c.owes k sl p x).trapinfo = c.trapinfo := rfl
@[simp] theorem Core.owes_tvec (c : Core) (k : Nat) (sl : Slot) (p : Port) (x : Val) : (c.owes k sl p x).tvec = c.tvec := rfl
@[simp] theorem Core.owes_intrap (c : Core) (k : Nat) (sl : Slot) (p : Port) (x : Val) : (c.owes k sl p x).intrap = c.intrap := rfl
@[simp] theorem Core.owes_preq (c : Core) (k : Nat) (sl : Slot) (p : Port) (x : Val) : (c.owes k sl p x).preq = c.preq := rfl
@[simp] theorem Core.owes_inrpt (c : Core) (k : Nat) (sl : Slot) (p : Port) (x : Val) : (c.owes k sl p x).inrpt = c.inrpt := rfl
@[simp] theorem Core.owes_degr (c : Core) (k : Nat) (sl : Slot) (p : Port) (x : Val) : (c.owes k sl p x).degr = c.degr := rfl
@[simp] theorem Core.owes_rptidx (c : Core) (k : Nat) (sl : Slot) (p : Port) (x : Val) : (c.owes k sl p x).rptidx = c.rptidx := rfl
@[simp] theorem Core.owes_cycle (c : Core) (k : Nat) (sl : Slot) (p : Port) (x : Val) : (c.owes k sl p x).cycle = c.cycle := rfl
@[simp] theorem Core.owes_partition (c : Core) (k : Nat) (sl : Slot) (p : Port) (x : Val) : (c.owes k sl p x).partition = c.partition := rfl
@[simp] theorem Core.owes_ctx (c : Core) (k : Nat) (sl : Slot) (p : Port) (x : Val) : (c.owes k sl p x).ctx = c.ctx := rfl
@[simp] theorem Core.owes_level (c : Core) (k : Nat) (sl : Slot) (p : Port) (x : Val) : (c.owes k sl p x).level = c.level := rfl
@[simp] theorem Core.owes_pts (c : Core) (k : Nat) (sl : Slot) (p : Port) (x : Val) : (c.owes k sl p x).pts = c.pts := rfl
@[simp] theorem Core.owes_lgen (c : Core) (k : Nat) (sl : Slot) (p : Port) (x : Val) : (c.owes k sl p x).lgen = c.lgen := rfl
@[simp] theorem Core.owes_tls (c : Core) (k : Nat) (sl : Slot) (p : Port) (x : Val) : (c.owes k sl p x).tls = c.tls := rfl
@[simp] theorem Core.owes_shadow (c : Core) (k : Nat) (sl : Slot) (p : Port) (x : Val) : (c.owes k sl p x).shadow = c.shadow := rfl
@[simp] theorem Core.owes_tokens (c : Core) (k : Nat) (sl : Slot) (p : Port) (x : Val) : (c.owes k sl p x).tokens = c.tokens := rfl
@[simp] theorem Core.owes_brkExempt (c : Core) (k : Nat) (sl : Slot) (p : Port) (x : Val) : (c.owes k sl p x).brkExempt = c.brkExempt := rfl
@[simp] theorem Core.owes_resumed (c : Core) (k : Nat) (sl : Slot) (p : Port) (x : Val) : (c.owes k sl p x).resumed = c.resumed := rfl
@[simp] theorem Core.owes_kernel (c : Core) (k : Nat) (sl : Slot) (p : Port) (x : Val) : (c.owes k sl p x).kernel = c.kernel := rfl
@[simp] theorem Core.owes_patterns (c : Core) (k : Nat) (sl : Slot) (p : Port) (x : Val) : (c.owes k sl p x).patterns = c.patterns := rfl
@[simp] theorem Core.owes_arr (c : Core) (k : Nat) (sl : Slot) (p : Port) (x : Val) : (c.owes k sl p x).arr = c.arr := rfl
@[simp] theorem Core.owes_pending (c : Core) (k : Nat) (sl : Slot) (p : Port) (x : Val) : (c.owes k sl p x).pending = (c.owesBoth k sl p x (latchRule p x)).pending := rfl
@[simp] theorem Core.owes_vars (c : Core) (k : Nat) (sl : Slot) (p : Port) (x : Val) : (c.owes k sl p x).vars = c.vars := rfl
@[simp] theorem Core.owes_nextId (c : Core) (k : Nat) (sl : Slot) (p : Port) (x : Val) : (c.owes k sl p x).nextId = c.nextId := rfl
@[simp] theorem Core.owes_cur (c : Core) (k : Nat) (sl : Slot) (p : Port) (x : Val) : (c.owes k sl p x).cur = c.cur := rfl
@[simp] theorem Core.owes_act (c : Core) (k : Nat) (sl : Slot) (p : Port) (x : Val) : (c.owes k sl p x).act = c.act := rfl
@[simp] theorem Core.owes_retiring (c : Core) (k : Nat) (sl : Slot) (p : Port) (x : Val) : (c.owes k sl p x).retiring = c.retiring := rfl
@[simp] theorem Core.owes_point (c : Core) (k : Nat) (sl : Slot) (p : Port) (x : Val) : (c.owes k sl p x).point = c.point := rfl
@[simp] theorem Core.owes_raised (c : Core) (k : Nat) (sl : Slot) (p : Port) (x : Val) : (c.owes k sl p x).raised = c.raised := rfl
@[simp] theorem Core.owes_stalled (c : Core) (k : Nat) (sl : Slot) (p : Port) (x : Val) : (c.owes k sl p x).stalled = c.stalled := rfl
@[simp] theorem Core.owes_room (c : Core) (k : Nat) (sl : Slot) (p : Port) (x : Val) : (c.owes k sl p x).room = c.room := rfl
@[simp] theorem Core.owes_loans (c : Core) (k : Nat) (sl : Slot) (p : Port) (x : Val) : (c.owes k sl p x).loans = c.repaid sl p := rfl
@[simp] theorem Core.owes_cmds (c : Core) (k : Nat) (sl : Slot) (p : Port) (x : Val) : (c.owes k sl p x).cmds = c.cmds := rfl
@[simp] theorem Core.owes_chans (c : Core) (k : Nat) (sl : Slot) (p : Port) (x : Val) : (c.owes k sl p x).chans = c.chans := rfl
@[simp] theorem Core.owes_seq (c : Core) (k : Nat) (sl : Slot) (p : Port) (x : Val) : (c.owes k sl p x).seq = c.seq := rfl
@[simp] theorem Core.owes_ecHeld (c : Core) (k : Nat) (sl : Slot) (p : Port) (x : Val) : (c.owes k sl p x).ecHeld = c.ecHeld := rfl
@[simp] theorem Core.owes_prodTok (c : Core) (k : Nat) (sl : Slot) (p : Port) (x : Val) : (c.owes k sl p x).prodTok = 0 := rfl
@[simp] theorem Core.owes_leftTok (c : Core) (k : Nat) (sl : Slot) (p : Port) (x : Val) : (c.owes k sl p x).leftTok = c.leftTok := rfl
@[simp] theorem Core.owes_fenceWait (c : Core) (k : Nat) (sl : Slot) (p : Port) (x : Val) : (c.owes k sl p x).fenceWait = c.fenceWait := rfl
@[simp] theorem Core.owes_accessed (c : Core) (k : Nat) (sl : Slot) (p : Port) (x : Val) : (c.owes k sl p x).accessed = c.accessed := rfl
@[simp] theorem Core.owes_peerStores (c : Core) (k : Nat) (sl : Slot) (p : Port) (x : Val) : (c.owes k sl p x).peerStores = c.peerStores := rfl
@[simp] theorem Core.owes_peerLoads (c : Core) (k : Nat) (sl : Slot) (p : Port) (x : Val) : (c.owes k sl p x).peerLoads = c.peerLoads := rfl
@[simp] theorem Core.owes_peerFail (c : Core) (k : Nat) (sl : Slot) (p : Port) (x : Val) : (c.owes k sl p x).peerFail = c.peerFail := rfl
@[simp] theorem Core.owes_arrived (c : Core) (k : Nat) (sl : Slot) (p : Port) (x : Val) : (c.owes k sl p x).arrived = c.arrived := rfl
@[simp] theorem Core.owes_refState (c : Core) (k : Nat) (sl : Slot) (p : Port) (x : Val) : (c.owes k sl p x).refState = c.refState := rfl
@[simp] theorem Core.owes_refCnt (c : Core) (k : Nat) (sl : Slot) (p : Port) (x : Val) : (c.owes k sl p x).refCnt = c.refCnt := rfl
@[simp] theorem Core.owes_retWhy (c : Core) (k : Nat) (sl : Slot) (p : Port) (x : Val) : (c.owes k sl p x).retWhy = c.retWhy := rfl
@[simp] theorem Core.owes_audits (c : Core) (k : Nat) (sl : Slot) (p : Port) (x : Val) : (c.owes k sl p x).audits = c.audits := rfl
@[simp] theorem Core.owes_groups (c : Core) (k : Nat) (sl : Slot) (p : Port) (x : Val) : (c.owes k sl p x).groups = c.groups := rfl
@[simp] theorem Core.owes_poison (c : Core) (k : Nat) (sl : Slot) (p : Port) (x : Val) : (c.owes k sl p x).poison = c.poison := rfl
@[simp] theorem Core.owes_latent (c : Core) (k : Nat) (sl : Slot) (p : Port) (x : Val) : (c.owes k sl p x).latent = c.latent := rfl
@[simp] theorem Core.owes_bankUe (c : Core) (k : Nat) (sl : Slot) (p : Port) (x : Val) : (c.owes k sl p x).bankUe = c.bankUe := rfl
@[simp] theorem Core.owes_freeze (c : Core) (k : Nat) (sl : Slot) (p : Port) (x : Val) : (c.owes k sl p x).freeze = c.freeze := rfl
@[simp] theorem Core.owes_poolReqs (c : Core) (k : Nat) (sl : Slot) (p : Port) (x : Val) : (c.owes k sl p x).poolReqs = c.poolReqs := rfl
@[simp] theorem Core.owes_taken (c : Core) (k : Nat) (sl : Slot) (p : Port) (x : Val) : (c.owes k sl p x).taken = c.taken := rfl
@[simp] theorem Core.owes_races (c : Core) (k : Nat) (sl : Slot) (p : Port) (x : Val) : (c.owes k sl p x).races = c.races := rfl
@[simp] theorem Core.owes_acquired (c : Core) (k : Nat) (sl : Slot) (p : Port) (x : Val) : (c.owes k sl p x).acquired = c.acquired := rfl
@[simp] theorem Core.owes_recs (c : Core) (k : Nat) (sl : Slot) (p : Port) (x : Val) : (c.owes k sl p x).recs = c.recs := rfl

/-! ## awaits -/

@[simp] theorem Core.awaits_kid (c : Core) (sl : Slot) (p : Port) (k : VarKind) : (c.awaits sl p k).kid = c.kid := rfl
@[simp] theorem Core.awaits_run (c : Core) (sl : Slot) (p : Port) (k : VarKind) : (c.awaits sl p k).run = c.run := rfl
@[simp] theorem Core.awaits_pc (c : Core) (sl : Slot) (p : Port) (k : VarKind) : (c.awaits sl p k).pc = c.pc := rfl
@[simp] theorem Core.awaits_step (c : Core) (sl : Slot) (p : Port) (k : VarKind) : (c.awaits sl p k).step = c.step := rfl
@[simp] theorem Core.awaits_fresh (c : Core) (sl : Slot) (p : Port) (k : VarKind) : (c.awaits sl p k).fresh = c.fresh := rfl
@[simp] theorem Core.awaits_sregs (c : Core) (sl : Slot) (p : Port) (k : VarKind) : (c.awaits sl p k).sregs = c.sregs := rfl
@[simp] theorem Core.awaits_vregs (c : Core) (sl : Slot) (p : Port) (k : VarKind) : (c.awaits sl p k).vregs = c.vregs := rfl
@[simp] theorem Core.awaits_mregs (c : Core) (sl : Slot) (p : Port) (k : VarKind) : (c.awaits sl p k).mregs = c.mregs := rfl
@[simp] theorem Core.awaits_flags (c : Core) (sl : Slot) (p : Port) (k : VarKind) : (c.awaits sl p k).flags = c.flags := rfl
@[simp] theorem Core.awaits_eq (c : Core) (sl : Slot) (p : Port) (k : VarKind) : (c.awaits sl p k).eq = c.eq := rfl
@[simp] theorem Core.awaits_cq (c : Core) (sl : Slot) (p : Port) (k : VarKind) : (c.awaits sl p k).cq = c.cq := rfl
@[simp] theorem Core.awaits_latches (c : Core) (sl : Slot) (p : Port) (k : VarKind) : (c.awaits sl p k).latches = c.latches := rfl
@[simp] theorem Core.awaits_loops (c : Core) (sl : Slot) (p : Port) (k : VarKind) : (c.awaits sl p k).loops = c.loops := rfl
@[simp] theorem Core.awaits_aps (c : Core) (sl : Slot) (p : Port) (k : VarKind) : (c.awaits sl p k).aps = c.aps := rfl
@[simp] theorem Core.awaits_tiles (c : Core) (sl : Slot) (p : Port) (k : VarKind) : (c.awaits sl p k).tiles = c.tiles := rfl
@[simp] theorem Core.awaits_bench (c : Core) (sl : Slot) (p : Port) (k : VarKind) : (c.awaits sl p k).bench = c.bench := rfl
@[simp] theorem Core.awaits_scratch (c : Core) (sl : Slot) (p : Port) (k : VarKind) : (c.awaits sl p k).scratch = c.scratch := rfl
@[simp] theorem Core.awaits_leftover (c : Core) (sl : Slot) (p : Port) (k : VarKind) : (c.awaits sl p k).leftover = c.leftover := rfl
@[simp] theorem Core.awaits_trappc (c : Core) (sl : Slot) (p : Port) (k : VarKind) : (c.awaits sl p k).trappc = c.trappc := rfl
@[simp] theorem Core.awaits_trapcause (c : Core) (sl : Slot) (p : Port) (k : VarKind) : (c.awaits sl p k).trapcause = c.trapcause := rfl
@[simp] theorem Core.awaits_trapinfo (c : Core) (sl : Slot) (p : Port) (k : VarKind) : (c.awaits sl p k).trapinfo = c.trapinfo := rfl
@[simp] theorem Core.awaits_tvec (c : Core) (sl : Slot) (p : Port) (k : VarKind) : (c.awaits sl p k).tvec = c.tvec := rfl
@[simp] theorem Core.awaits_intrap (c : Core) (sl : Slot) (p : Port) (k : VarKind) : (c.awaits sl p k).intrap = c.intrap := rfl
@[simp] theorem Core.awaits_preq (c : Core) (sl : Slot) (p : Port) (k : VarKind) : (c.awaits sl p k).preq = c.preq := rfl
@[simp] theorem Core.awaits_inrpt (c : Core) (sl : Slot) (p : Port) (k : VarKind) : (c.awaits sl p k).inrpt = c.inrpt := rfl
@[simp] theorem Core.awaits_degr (c : Core) (sl : Slot) (p : Port) (k : VarKind) : (c.awaits sl p k).degr = c.degr := rfl
@[simp] theorem Core.awaits_rptidx (c : Core) (sl : Slot) (p : Port) (k : VarKind) : (c.awaits sl p k).rptidx = c.rptidx := rfl
@[simp] theorem Core.awaits_cycle (c : Core) (sl : Slot) (p : Port) (k : VarKind) : (c.awaits sl p k).cycle = c.cycle := rfl
@[simp] theorem Core.awaits_partition (c : Core) (sl : Slot) (p : Port) (k : VarKind) : (c.awaits sl p k).partition = c.partition := rfl
@[simp] theorem Core.awaits_ctx (c : Core) (sl : Slot) (p : Port) (k : VarKind) : (c.awaits sl p k).ctx = c.ctx := rfl
@[simp] theorem Core.awaits_level (c : Core) (sl : Slot) (p : Port) (k : VarKind) : (c.awaits sl p k).level = c.level := rfl
@[simp] theorem Core.awaits_pts (c : Core) (sl : Slot) (p : Port) (k : VarKind) : (c.awaits sl p k).pts = c.pts := rfl
@[simp] theorem Core.awaits_lgen (c : Core) (sl : Slot) (p : Port) (k : VarKind) : (c.awaits sl p k).lgen = c.lgen := rfl
@[simp] theorem Core.awaits_tls (c : Core) (sl : Slot) (p : Port) (k : VarKind) : (c.awaits sl p k).tls = c.tls := rfl
@[simp] theorem Core.awaits_shadow (c : Core) (sl : Slot) (p : Port) (k : VarKind) : (c.awaits sl p k).shadow = c.shadow := rfl
@[simp] theorem Core.awaits_tokens (c : Core) (sl : Slot) (p : Port) (k : VarKind) : (c.awaits sl p k).tokens = c.tokens := rfl
@[simp] theorem Core.awaits_brkExempt (c : Core) (sl : Slot) (p : Port) (k : VarKind) : (c.awaits sl p k).brkExempt = c.brkExempt := rfl
@[simp] theorem Core.awaits_resumed (c : Core) (sl : Slot) (p : Port) (k : VarKind) : (c.awaits sl p k).resumed = c.resumed := rfl
@[simp] theorem Core.awaits_kernel (c : Core) (sl : Slot) (p : Port) (k : VarKind) : (c.awaits sl p k).kernel = c.kernel := rfl
@[simp] theorem Core.awaits_patterns (c : Core) (sl : Slot) (p : Port) (k : VarKind) : (c.awaits sl p k).patterns = c.patterns := rfl
@[simp] theorem Core.awaits_arr (c : Core) (sl : Slot) (p : Port) (k : VarKind) : (c.awaits sl p k).arr = c.arr := rfl
@[simp] theorem Core.awaits_cur (c : Core) (sl : Slot) (p : Port) (k : VarKind) : (c.awaits sl p k).cur = c.cur := rfl
@[simp] theorem Core.awaits_act (c : Core) (sl : Slot) (p : Port) (k : VarKind) : (c.awaits sl p k).act = c.act := rfl
@[simp] theorem Core.awaits_retiring (c : Core) (sl : Slot) (p : Port) (k : VarKind) : (c.awaits sl p k).retiring = c.retiring := rfl
@[simp] theorem Core.awaits_point (c : Core) (sl : Slot) (p : Port) (k : VarKind) : (c.awaits sl p k).point = c.point := rfl
@[simp] theorem Core.awaits_raised (c : Core) (sl : Slot) (p : Port) (k : VarKind) : (c.awaits sl p k).raised = c.raised := rfl
@[simp] theorem Core.awaits_stalled (c : Core) (sl : Slot) (p : Port) (k : VarKind) : (c.awaits sl p k).stalled = c.stalled := rfl
@[simp] theorem Core.awaits_room (c : Core) (sl : Slot) (p : Port) (k : VarKind) : (c.awaits sl p k).room = c.room := rfl
@[simp] theorem Core.awaits_loans (c : Core) (sl : Slot) (p : Port) (k : VarKind) : (c.awaits sl p k).loans = c.repaid sl p := rfl
@[simp] theorem Core.awaits_cmds (c : Core) (sl : Slot) (p : Port) (k : VarKind) : (c.awaits sl p k).cmds = c.cmds := rfl
@[simp] theorem Core.awaits_chans (c : Core) (sl : Slot) (p : Port) (k : VarKind) : (c.awaits sl p k).chans = c.chans := rfl
@[simp] theorem Core.awaits_seq (c : Core) (sl : Slot) (p : Port) (k : VarKind) : (c.awaits sl p k).seq = c.seq := rfl
@[simp] theorem Core.awaits_ecHeld (c : Core) (sl : Slot) (p : Port) (k : VarKind) : (c.awaits sl p k).ecHeld = c.ecHeld := rfl
@[simp] theorem Core.awaits_prodTok (c : Core) (sl : Slot) (p : Port) (k : VarKind) : (c.awaits sl p k).prodTok = 0 := rfl
@[simp] theorem Core.awaits_leftTok (c : Core) (sl : Slot) (p : Port) (k : VarKind) : (c.awaits sl p k).leftTok = c.leftTok := rfl
@[simp] theorem Core.awaits_fenceWait (c : Core) (sl : Slot) (p : Port) (k : VarKind) : (c.awaits sl p k).fenceWait = c.fenceWait := rfl
@[simp] theorem Core.awaits_accessed (c : Core) (sl : Slot) (p : Port) (k : VarKind) : (c.awaits sl p k).accessed = c.accessed := rfl
@[simp] theorem Core.awaits_peerStores (c : Core) (sl : Slot) (p : Port) (k : VarKind) : (c.awaits sl p k).peerStores = c.peerStores := rfl
@[simp] theorem Core.awaits_peerLoads (c : Core) (sl : Slot) (p : Port) (k : VarKind) : (c.awaits sl p k).peerLoads = c.peerLoads := rfl
@[simp] theorem Core.awaits_peerFail (c : Core) (sl : Slot) (p : Port) (k : VarKind) : (c.awaits sl p k).peerFail = c.peerFail := rfl
@[simp] theorem Core.awaits_arrived (c : Core) (sl : Slot) (p : Port) (k : VarKind) : (c.awaits sl p k).arrived = c.arrived := rfl
@[simp] theorem Core.awaits_refState (c : Core) (sl : Slot) (p : Port) (k : VarKind) : (c.awaits sl p k).refState = c.refState := rfl
@[simp] theorem Core.awaits_refCnt (c : Core) (sl : Slot) (p : Port) (k : VarKind) : (c.awaits sl p k).refCnt = c.refCnt := rfl
@[simp] theorem Core.awaits_retWhy (c : Core) (sl : Slot) (p : Port) (k : VarKind) : (c.awaits sl p k).retWhy = c.retWhy := rfl
@[simp] theorem Core.awaits_audits (c : Core) (sl : Slot) (p : Port) (k : VarKind) : (c.awaits sl p k).audits = c.audits := rfl
@[simp] theorem Core.awaits_groups (c : Core) (sl : Slot) (p : Port) (k : VarKind) : (c.awaits sl p k).groups = c.groups := rfl
@[simp] theorem Core.awaits_poison (c : Core) (sl : Slot) (p : Port) (k : VarKind) : (c.awaits sl p k).poison = c.poison := rfl
@[simp] theorem Core.awaits_latent (c : Core) (sl : Slot) (p : Port) (k : VarKind) : (c.awaits sl p k).latent = c.latent := rfl
@[simp] theorem Core.awaits_bankUe (c : Core) (sl : Slot) (p : Port) (k : VarKind) : (c.awaits sl p k).bankUe = c.bankUe := rfl
@[simp] theorem Core.awaits_freeze (c : Core) (sl : Slot) (p : Port) (k : VarKind) : (c.awaits sl p k).freeze = c.freeze := rfl
@[simp] theorem Core.awaits_poolReqs (c : Core) (sl : Slot) (p : Port) (k : VarKind) : (c.awaits sl p k).poolReqs = c.poolReqs := rfl
@[simp] theorem Core.awaits_taken (c : Core) (sl : Slot) (p : Port) (k : VarKind) : (c.awaits sl p k).taken = c.taken := rfl
@[simp] theorem Core.awaits_races (c : Core) (sl : Slot) (p : Port) (k : VarKind) : (c.awaits sl p k).races = c.races := rfl
@[simp] theorem Core.awaits_acquired (c : Core) (sl : Slot) (p : Port) (k : VarKind) : (c.awaits sl p k).acquired = c.acquired := rfl
@[simp] theorem Core.awaits_recs (c : Core) (sl : Slot) (p : Port) (k : VarKind) : (c.awaits sl p k).recs = c.recs := rfl

/-! ## scrWrite -/

@[simp] theorem Core.scrWrite_kid (c : Core) (a : Nat) (bs : List Byte) : (c.scrWrite a bs).kid = c.kid := rfl
@[simp] theorem Core.scrWrite_run (c : Core) (a : Nat) (bs : List Byte) : (c.scrWrite a bs).run = c.run := rfl
@[simp] theorem Core.scrWrite_pc (c : Core) (a : Nat) (bs : List Byte) : (c.scrWrite a bs).pc = c.pc := rfl
@[simp] theorem Core.scrWrite_step (c : Core) (a : Nat) (bs : List Byte) : (c.scrWrite a bs).step = c.step := rfl
@[simp] theorem Core.scrWrite_fresh (c : Core) (a : Nat) (bs : List Byte) : (c.scrWrite a bs).fresh = c.fresh := rfl
@[simp] theorem Core.scrWrite_sregs (c : Core) (a : Nat) (bs : List Byte) : (c.scrWrite a bs).sregs = c.sregs := rfl
@[simp] theorem Core.scrWrite_vregs (c : Core) (a : Nat) (bs : List Byte) : (c.scrWrite a bs).vregs = c.vregs := rfl
@[simp] theorem Core.scrWrite_mregs (c : Core) (a : Nat) (bs : List Byte) : (c.scrWrite a bs).mregs = c.mregs := rfl
@[simp] theorem Core.scrWrite_flags (c : Core) (a : Nat) (bs : List Byte) : (c.scrWrite a bs).flags = c.flags := rfl
@[simp] theorem Core.scrWrite_dq (c : Core) (a : Nat) (bs : List Byte) : (c.scrWrite a bs).dq = c.dq := rfl
@[simp] theorem Core.scrWrite_eq (c : Core) (a : Nat) (bs : List Byte) : (c.scrWrite a bs).eq = c.eq := rfl
@[simp] theorem Core.scrWrite_cq (c : Core) (a : Nat) (bs : List Byte) : (c.scrWrite a bs).cq = c.cq := rfl
@[simp] theorem Core.scrWrite_latches (c : Core) (a : Nat) (bs : List Byte) : (c.scrWrite a bs).latches = c.latches := rfl
@[simp] theorem Core.scrWrite_loops (c : Core) (a : Nat) (bs : List Byte) : (c.scrWrite a bs).loops = c.loops := rfl
@[simp] theorem Core.scrWrite_aps (c : Core) (a : Nat) (bs : List Byte) : (c.scrWrite a bs).aps = c.aps := rfl
@[simp] theorem Core.scrWrite_tiles (c : Core) (a : Nat) (bs : List Byte) : (c.scrWrite a bs).tiles = c.tiles := rfl
@[simp] theorem Core.scrWrite_bench (c : Core) (a : Nat) (bs : List Byte) : (c.scrWrite a bs).bench = c.bench := rfl
@[simp] theorem Core.scrWrite_scratch (c : Core) (a : Nat) (bs : List Byte) : (c.scrWrite a bs).scratch = c.scratch.putN a (c.overBase a bs) := rfl
@[simp] theorem Core.scrWrite_leftover (c : Core) (a : Nat) (bs : List Byte) : (c.scrWrite a bs).leftover = c.leftover := rfl
@[simp] theorem Core.scrWrite_trappc (c : Core) (a : Nat) (bs : List Byte) : (c.scrWrite a bs).trappc = c.trappc := rfl
@[simp] theorem Core.scrWrite_trapcause (c : Core) (a : Nat) (bs : List Byte) : (c.scrWrite a bs).trapcause = c.trapcause := rfl
@[simp] theorem Core.scrWrite_trapinfo (c : Core) (a : Nat) (bs : List Byte) : (c.scrWrite a bs).trapinfo = c.trapinfo := rfl
@[simp] theorem Core.scrWrite_tvec (c : Core) (a : Nat) (bs : List Byte) : (c.scrWrite a bs).tvec = c.tvec := rfl
@[simp] theorem Core.scrWrite_intrap (c : Core) (a : Nat) (bs : List Byte) : (c.scrWrite a bs).intrap = c.intrap := rfl
@[simp] theorem Core.scrWrite_preq (c : Core) (a : Nat) (bs : List Byte) : (c.scrWrite a bs).preq = c.preq := rfl
@[simp] theorem Core.scrWrite_inrpt (c : Core) (a : Nat) (bs : List Byte) : (c.scrWrite a bs).inrpt = c.inrpt := rfl
@[simp] theorem Core.scrWrite_degr (c : Core) (a : Nat) (bs : List Byte) : (c.scrWrite a bs).degr = c.degr := rfl
@[simp] theorem Core.scrWrite_rptidx (c : Core) (a : Nat) (bs : List Byte) : (c.scrWrite a bs).rptidx = c.rptidx := rfl
@[simp] theorem Core.scrWrite_cycle (c : Core) (a : Nat) (bs : List Byte) : (c.scrWrite a bs).cycle = c.cycle := rfl
@[simp] theorem Core.scrWrite_partition (c : Core) (a : Nat) (bs : List Byte) : (c.scrWrite a bs).partition = c.partition := rfl
@[simp] theorem Core.scrWrite_ctx (c : Core) (a : Nat) (bs : List Byte) : (c.scrWrite a bs).ctx = c.ctx := rfl
@[simp] theorem Core.scrWrite_level (c : Core) (a : Nat) (bs : List Byte) : (c.scrWrite a bs).level = c.level := rfl
@[simp] theorem Core.scrWrite_pts (c : Core) (a : Nat) (bs : List Byte) : (c.scrWrite a bs).pts = c.pts := rfl
@[simp] theorem Core.scrWrite_lgen (c : Core) (a : Nat) (bs : List Byte) : (c.scrWrite a bs).lgen = c.lgen := rfl
@[simp] theorem Core.scrWrite_tls (c : Core) (a : Nat) (bs : List Byte) : (c.scrWrite a bs).tls = c.tls := rfl
@[simp] theorem Core.scrWrite_shadow (c : Core) (a : Nat) (bs : List Byte) : (c.scrWrite a bs).shadow = c.shadow := rfl
@[simp] theorem Core.scrWrite_tokens (c : Core) (a : Nat) (bs : List Byte) : (c.scrWrite a bs).tokens = c.tokens := rfl
@[simp] theorem Core.scrWrite_brkExempt (c : Core) (a : Nat) (bs : List Byte) : (c.scrWrite a bs).brkExempt = c.brkExempt := rfl
@[simp] theorem Core.scrWrite_resumed (c : Core) (a : Nat) (bs : List Byte) : (c.scrWrite a bs).resumed = c.resumed := rfl
@[simp] theorem Core.scrWrite_kernel (c : Core) (a : Nat) (bs : List Byte) : (c.scrWrite a bs).kernel = c.kernel := rfl
@[simp] theorem Core.scrWrite_patterns (c : Core) (a : Nat) (bs : List Byte) : (c.scrWrite a bs).patterns = c.patterns := rfl
@[simp] theorem Core.scrWrite_arr (c : Core) (a : Nat) (bs : List Byte) : (c.scrWrite a bs).arr = c.arr := rfl
@[simp] theorem Core.scrWrite_pending (c : Core) (a : Nat) (bs : List Byte) : (c.scrWrite a bs).pending = c.pending := rfl
@[simp] theorem Core.scrWrite_vars (c : Core) (a : Nat) (bs : List Byte) : (c.scrWrite a bs).vars = c.vars := rfl
@[simp] theorem Core.scrWrite_nextId (c : Core) (a : Nat) (bs : List Byte) : (c.scrWrite a bs).nextId = c.nextId := rfl
@[simp] theorem Core.scrWrite_cur (c : Core) (a : Nat) (bs : List Byte) : (c.scrWrite a bs).cur = c.cur := rfl
@[simp] theorem Core.scrWrite_act (c : Core) (a : Nat) (bs : List Byte) : (c.scrWrite a bs).act = c.act := rfl
@[simp] theorem Core.scrWrite_retiring (c : Core) (a : Nat) (bs : List Byte) : (c.scrWrite a bs).retiring = c.retiring := rfl
@[simp] theorem Core.scrWrite_point (c : Core) (a : Nat) (bs : List Byte) : (c.scrWrite a bs).point = c.point := rfl
@[simp] theorem Core.scrWrite_raised (c : Core) (a : Nat) (bs : List Byte) : (c.scrWrite a bs).raised = c.raised := rfl
@[simp] theorem Core.scrWrite_stalled (c : Core) (a : Nat) (bs : List Byte) : (c.scrWrite a bs).stalled = c.stalled := rfl
@[simp] theorem Core.scrWrite_room (c : Core) (a : Nat) (bs : List Byte) : (c.scrWrite a bs).room = c.room := rfl
@[simp] theorem Core.scrWrite_loans (c : Core) (a : Nat) (bs : List Byte) : (c.scrWrite a bs).loans = c.loans := rfl
@[simp] theorem Core.scrWrite_cmds (c : Core) (a : Nat) (bs : List Byte) : (c.scrWrite a bs).cmds = c.cmds := rfl
@[simp] theorem Core.scrWrite_chans (c : Core) (a : Nat) (bs : List Byte) : (c.scrWrite a bs).chans = c.chans := rfl
@[simp] theorem Core.scrWrite_seq (c : Core) (a : Nat) (bs : List Byte) : (c.scrWrite a bs).seq = c.seq := rfl
@[simp] theorem Core.scrWrite_ecHeld (c : Core) (a : Nat) (bs : List Byte) : (c.scrWrite a bs).ecHeld = c.ecHeld := rfl
@[simp] theorem Core.scrWrite_prodTok (c : Core) (a : Nat) (bs : List Byte) : (c.scrWrite a bs).prodTok = c.prodTok := rfl
@[simp] theorem Core.scrWrite_leftTok (c : Core) (a : Nat) (bs : List Byte) : (c.scrWrite a bs).leftTok = c.leftTok := rfl
@[simp] theorem Core.scrWrite_fenceWait (c : Core) (a : Nat) (bs : List Byte) : (c.scrWrite a bs).fenceWait = c.fenceWait := rfl
@[simp] theorem Core.scrWrite_accessed (c : Core) (a : Nat) (bs : List Byte) : (c.scrWrite a bs).accessed = c.accessed := rfl
@[simp] theorem Core.scrWrite_peerStores (c : Core) (a : Nat) (bs : List Byte) : (c.scrWrite a bs).peerStores = c.peerStores := rfl
@[simp] theorem Core.scrWrite_peerLoads (c : Core) (a : Nat) (bs : List Byte) : (c.scrWrite a bs).peerLoads = c.peerLoads := rfl
@[simp] theorem Core.scrWrite_peerFail (c : Core) (a : Nat) (bs : List Byte) : (c.scrWrite a bs).peerFail = c.peerFail := rfl
@[simp] theorem Core.scrWrite_arrived (c : Core) (a : Nat) (bs : List Byte) : (c.scrWrite a bs).arrived = c.arrived := rfl
@[simp] theorem Core.scrWrite_refState (c : Core) (a : Nat) (bs : List Byte) : (c.scrWrite a bs).refState = c.refState := rfl
@[simp] theorem Core.scrWrite_refCnt (c : Core) (a : Nat) (bs : List Byte) : (c.scrWrite a bs).refCnt = c.refCnt := rfl
@[simp] theorem Core.scrWrite_retWhy (c : Core) (a : Nat) (bs : List Byte) : (c.scrWrite a bs).retWhy = c.retWhy := rfl
@[simp] theorem Core.scrWrite_audits (c : Core) (a : Nat) (bs : List Byte) : (c.scrWrite a bs).audits = c.audits := rfl
@[simp] theorem Core.scrWrite_groups (c : Core) (a : Nat) (bs : List Byte) : (c.scrWrite a bs).groups = c.groups := rfl
@[simp] theorem Core.scrWrite_poison (c : Core) (a : Nat) (bs : List Byte) : (c.scrWrite a bs).poison = c.poison := rfl
@[simp] theorem Core.scrWrite_latent (c : Core) (a : Nat) (bs : List Byte) : (c.scrWrite a bs).latent = c.latent := rfl
@[simp] theorem Core.scrWrite_bankUe (c : Core) (a : Nat) (bs : List Byte) : (c.scrWrite a bs).bankUe = c.bankUe := rfl
@[simp] theorem Core.scrWrite_freeze (c : Core) (a : Nat) (bs : List Byte) : (c.scrWrite a bs).freeze = c.freeze := rfl
@[simp] theorem Core.scrWrite_poolReqs (c : Core) (a : Nat) (bs : List Byte) : (c.scrWrite a bs).poolReqs = c.poolReqs := rfl
@[simp] theorem Core.scrWrite_taken (c : Core) (a : Nat) (bs : List Byte) : (c.scrWrite a bs).taken = c.taken := rfl
@[simp] theorem Core.scrWrite_races (c : Core) (a : Nat) (bs : List Byte) : (c.scrWrite a bs).races = c.races := rfl
@[simp] theorem Core.scrWrite_acquired (c : Core) (a : Nat) (bs : List Byte) : (c.scrWrite a bs).acquired = c.acquired := rfl
@[simp] theorem Core.scrWrite_recs (c : Core) (a : Nat) (bs : List Byte) : (c.scrWrite a bs).recs = c.recs := rfl

/-! ## addEvent -/

@[simp] theorem Core.addEvent_kid (c : Core) (z : Nat) (a : AccAct) : (c.addEvent z a).kid = c.kid := rfl
@[simp] theorem Core.addEvent_run (c : Core) (z : Nat) (a : AccAct) : (c.addEvent z a).run = c.run := rfl
@[simp] theorem Core.addEvent_pc (c : Core) (z : Nat) (a : AccAct) : (c.addEvent z a).pc = c.pc := rfl
@[simp] theorem Core.addEvent_step (c : Core) (z : Nat) (a : AccAct) : (c.addEvent z a).step = c.step := rfl
@[simp] theorem Core.addEvent_fresh (c : Core) (z : Nat) (a : AccAct) : (c.addEvent z a).fresh = c.fresh := rfl
@[simp] theorem Core.addEvent_sregs (c : Core) (z : Nat) (a : AccAct) : (c.addEvent z a).sregs = c.sregs := rfl
@[simp] theorem Core.addEvent_vregs (c : Core) (z : Nat) (a : AccAct) : (c.addEvent z a).vregs = c.vregs := rfl
@[simp] theorem Core.addEvent_mregs (c : Core) (z : Nat) (a : AccAct) : (c.addEvent z a).mregs = c.mregs := rfl
@[simp] theorem Core.addEvent_flags (c : Core) (z : Nat) (a : AccAct) : (c.addEvent z a).flags = c.flags := rfl
@[simp] theorem Core.addEvent_dq (c : Core) (z : Nat) (a : AccAct) : (c.addEvent z a).dq = c.dq := rfl
@[simp] theorem Core.addEvent_eq (c : Core) (z : Nat) (a : AccAct) : (c.addEvent z a).eq = c.eq := rfl
@[simp] theorem Core.addEvent_cq (c : Core) (z : Nat) (a : AccAct) : (c.addEvent z a).cq = c.cq := rfl
@[simp] theorem Core.addEvent_latches (c : Core) (z : Nat) (a : AccAct) : (c.addEvent z a).latches = c.latches := rfl
@[simp] theorem Core.addEvent_loops (c : Core) (z : Nat) (a : AccAct) : (c.addEvent z a).loops = c.loops := rfl
@[simp] theorem Core.addEvent_aps (c : Core) (z : Nat) (a : AccAct) : (c.addEvent z a).aps = c.aps := rfl
@[simp] theorem Core.addEvent_tiles (c : Core) (z : Nat) (a : AccAct) : (c.addEvent z a).tiles = c.tiles := rfl
@[simp] theorem Core.addEvent_bench (c : Core) (z : Nat) (a : AccAct) : (c.addEvent z a).bench = c.bench := rfl
@[simp] theorem Core.addEvent_scratch (c : Core) (z : Nat) (a : AccAct) : (c.addEvent z a).scratch = c.scratch := rfl
@[simp] theorem Core.addEvent_leftover (c : Core) (z : Nat) (a : AccAct) : (c.addEvent z a).leftover = c.leftover := rfl
@[simp] theorem Core.addEvent_trappc (c : Core) (z : Nat) (a : AccAct) : (c.addEvent z a).trappc = c.trappc := rfl
@[simp] theorem Core.addEvent_trapcause (c : Core) (z : Nat) (a : AccAct) : (c.addEvent z a).trapcause = c.trapcause := rfl
@[simp] theorem Core.addEvent_trapinfo (c : Core) (z : Nat) (a : AccAct) : (c.addEvent z a).trapinfo = c.trapinfo := rfl
@[simp] theorem Core.addEvent_tvec (c : Core) (z : Nat) (a : AccAct) : (c.addEvent z a).tvec = c.tvec := rfl
@[simp] theorem Core.addEvent_intrap (c : Core) (z : Nat) (a : AccAct) : (c.addEvent z a).intrap = c.intrap := rfl
@[simp] theorem Core.addEvent_preq (c : Core) (z : Nat) (a : AccAct) : (c.addEvent z a).preq = c.preq := rfl
@[simp] theorem Core.addEvent_inrpt (c : Core) (z : Nat) (a : AccAct) : (c.addEvent z a).inrpt = c.inrpt := rfl
@[simp] theorem Core.addEvent_degr (c : Core) (z : Nat) (a : AccAct) : (c.addEvent z a).degr = c.degr := rfl
@[simp] theorem Core.addEvent_rptidx (c : Core) (z : Nat) (a : AccAct) : (c.addEvent z a).rptidx = c.rptidx := rfl
@[simp] theorem Core.addEvent_cycle (c : Core) (z : Nat) (a : AccAct) : (c.addEvent z a).cycle = c.cycle := rfl
@[simp] theorem Core.addEvent_partition (c : Core) (z : Nat) (a : AccAct) : (c.addEvent z a).partition = c.partition := rfl
@[simp] theorem Core.addEvent_ctx (c : Core) (z : Nat) (a : AccAct) : (c.addEvent z a).ctx = c.ctx := rfl
@[simp] theorem Core.addEvent_level (c : Core) (z : Nat) (a : AccAct) : (c.addEvent z a).level = c.level := rfl
@[simp] theorem Core.addEvent_pts (c : Core) (z : Nat) (a : AccAct) : (c.addEvent z a).pts = c.pts := rfl
@[simp] theorem Core.addEvent_lgen (c : Core) (z : Nat) (a : AccAct) : (c.addEvent z a).lgen = c.lgen := rfl
@[simp] theorem Core.addEvent_tls (c : Core) (z : Nat) (a : AccAct) : (c.addEvent z a).tls = c.tls := rfl
@[simp] theorem Core.addEvent_shadow (c : Core) (z : Nat) (a : AccAct) : (c.addEvent z a).shadow = c.shadow := rfl
@[simp] theorem Core.addEvent_tokens (c : Core) (z : Nat) (a : AccAct) : (c.addEvent z a).tokens = c.tokens := rfl
@[simp] theorem Core.addEvent_brkExempt (c : Core) (z : Nat) (a : AccAct) : (c.addEvent z a).brkExempt = c.brkExempt := rfl
@[simp] theorem Core.addEvent_resumed (c : Core) (z : Nat) (a : AccAct) : (c.addEvent z a).resumed = c.resumed := rfl
@[simp] theorem Core.addEvent_kernel (c : Core) (z : Nat) (a : AccAct) : (c.addEvent z a).kernel = c.kernel := rfl
@[simp] theorem Core.addEvent_patterns (c : Core) (z : Nat) (a : AccAct) : (c.addEvent z a).patterns = c.patterns := rfl
@[simp] theorem Core.addEvent_pending (c : Core) (z : Nat) (a : AccAct) : (c.addEvent z a).pending = c.pending := rfl
@[simp] theorem Core.addEvent_vars (c : Core) (z : Nat) (a : AccAct) : (c.addEvent z a).vars = c.vars := rfl
@[simp] theorem Core.addEvent_nextId (c : Core) (z : Nat) (a : AccAct) : (c.addEvent z a).nextId = c.nextId := rfl
@[simp] theorem Core.addEvent_cur (c : Core) (z : Nat) (a : AccAct) : (c.addEvent z a).cur = c.cur := rfl
@[simp] theorem Core.addEvent_act (c : Core) (z : Nat) (a : AccAct) : (c.addEvent z a).act = c.act := rfl
@[simp] theorem Core.addEvent_retiring (c : Core) (z : Nat) (a : AccAct) : (c.addEvent z a).retiring = c.retiring := rfl
@[simp] theorem Core.addEvent_point (c : Core) (z : Nat) (a : AccAct) : (c.addEvent z a).point = c.point := rfl
@[simp] theorem Core.addEvent_raised (c : Core) (z : Nat) (a : AccAct) : (c.addEvent z a).raised = c.raised := rfl
@[simp] theorem Core.addEvent_stalled (c : Core) (z : Nat) (a : AccAct) : (c.addEvent z a).stalled = c.stalled := rfl
@[simp] theorem Core.addEvent_room (c : Core) (z : Nat) (a : AccAct) : (c.addEvent z a).room = c.room := rfl
@[simp] theorem Core.addEvent_loans (c : Core) (z : Nat) (a : AccAct) : (c.addEvent z a).loans = c.loans := rfl
@[simp] theorem Core.addEvent_cmds (c : Core) (z : Nat) (a : AccAct) : (c.addEvent z a).cmds = c.cmds := rfl
@[simp] theorem Core.addEvent_chans (c : Core) (z : Nat) (a : AccAct) : (c.addEvent z a).chans = c.chans := rfl
@[simp] theorem Core.addEvent_seq (c : Core) (z : Nat) (a : AccAct) : (c.addEvent z a).seq = c.seq := rfl
@[simp] theorem Core.addEvent_ecHeld (c : Core) (z : Nat) (a : AccAct) : (c.addEvent z a).ecHeld = c.ecHeld := rfl
@[simp] theorem Core.addEvent_prodTok (c : Core) (z : Nat) (a : AccAct) : (c.addEvent z a).prodTok = 0 := rfl
@[simp] theorem Core.addEvent_leftTok (c : Core) (z : Nat) (a : AccAct) : (c.addEvent z a).leftTok = c.leftTok := rfl
@[simp] theorem Core.addEvent_fenceWait (c : Core) (z : Nat) (a : AccAct) : (c.addEvent z a).fenceWait = c.fenceWait := rfl
@[simp] theorem Core.addEvent_accessed (c : Core) (z : Nat) (a : AccAct) : (c.addEvent z a).accessed = c.accessed := rfl
@[simp] theorem Core.addEvent_peerStores (c : Core) (z : Nat) (a : AccAct) : (c.addEvent z a).peerStores = c.peerStores := rfl
@[simp] theorem Core.addEvent_peerLoads (c : Core) (z : Nat) (a : AccAct) : (c.addEvent z a).peerLoads = c.peerLoads := rfl
@[simp] theorem Core.addEvent_peerFail (c : Core) (z : Nat) (a : AccAct) : (c.addEvent z a).peerFail = c.peerFail := rfl
@[simp] theorem Core.addEvent_arrived (c : Core) (z : Nat) (a : AccAct) : (c.addEvent z a).arrived = c.arrived := rfl
@[simp] theorem Core.addEvent_refState (c : Core) (z : Nat) (a : AccAct) : (c.addEvent z a).refState = c.refState := rfl
@[simp] theorem Core.addEvent_refCnt (c : Core) (z : Nat) (a : AccAct) : (c.addEvent z a).refCnt = c.refCnt := rfl
@[simp] theorem Core.addEvent_retWhy (c : Core) (z : Nat) (a : AccAct) : (c.addEvent z a).retWhy = c.retWhy := rfl
@[simp] theorem Core.addEvent_audits (c : Core) (z : Nat) (a : AccAct) : (c.addEvent z a).audits = c.audits := rfl
@[simp] theorem Core.addEvent_groups (c : Core) (z : Nat) (a : AccAct) : (c.addEvent z a).groups = c.groups := rfl
@[simp] theorem Core.addEvent_poison (c : Core) (z : Nat) (a : AccAct) : (c.addEvent z a).poison = c.poison := rfl
@[simp] theorem Core.addEvent_latent (c : Core) (z : Nat) (a : AccAct) : (c.addEvent z a).latent = c.latent := rfl
@[simp] theorem Core.addEvent_bankUe (c : Core) (z : Nat) (a : AccAct) : (c.addEvent z a).bankUe = c.bankUe := rfl
@[simp] theorem Core.addEvent_freeze (c : Core) (z : Nat) (a : AccAct) : (c.addEvent z a).freeze = c.freeze := rfl
@[simp] theorem Core.addEvent_poolReqs (c : Core) (z : Nat) (a : AccAct) : (c.addEvent z a).poolReqs = c.poolReqs := rfl
@[simp] theorem Core.addEvent_taken (c : Core) (z : Nat) (a : AccAct) : (c.addEvent z a).taken = c.taken := rfl
@[simp] theorem Core.addEvent_races (c : Core) (z : Nat) (a : AccAct) : (c.addEvent z a).races = c.races := rfl
@[simp] theorem Core.addEvent_acquired (c : Core) (z : Nat) (a : AccAct) : (c.addEvent z a).acquired = c.acquired := rfl
@[simp] theorem Core.addEvent_recs (c : Core) (z : Nat) (a : AccAct) : (c.addEvent z a).recs = c.recs := rfl

/-! ## nextExecution -/

@[simp] theorem Core.nextExecution_kid (c : Core) (u : Current) (j : Nat) : (c.nextExecution u j).kid = c.kid := rfl
@[simp] theorem Core.nextExecution_run (c : Core) (u : Current) (j : Nat) : (c.nextExecution u j).run = c.run := rfl
@[simp] theorem Core.nextExecution_pc (c : Core) (u : Current) (j : Nat) : (c.nextExecution u j).pc = c.pc := rfl
@[simp] theorem Core.nextExecution_step (c : Core) (u : Current) (j : Nat) : (c.nextExecution u j).step = c.step + 1 := rfl
@[simp] theorem Core.nextExecution_fresh (c : Core) (u : Current) (j : Nat) : (c.nextExecution u j).fresh = c.fresh := rfl
@[simp] theorem Core.nextExecution_sregs (c : Core) (u : Current) (j : Nat) : (c.nextExecution u j).sregs = c.sregs := rfl
@[simp] theorem Core.nextExecution_vregs (c : Core) (u : Current) (j : Nat) : (c.nextExecution u j).vregs = c.vregs := rfl
@[simp] theorem Core.nextExecution_mregs (c : Core) (u : Current) (j : Nat) : (c.nextExecution u j).mregs = c.mregs := rfl
@[simp] theorem Core.nextExecution_flags (c : Core) (u : Current) (j : Nat) : (c.nextExecution u j).flags = c.flags := rfl
@[simp] theorem Core.nextExecution_dq (c : Core) (u : Current) (j : Nat) : (c.nextExecution u j).dq = c.dq := rfl
@[simp] theorem Core.nextExecution_eq (c : Core) (u : Current) (j : Nat) : (c.nextExecution u j).eq = c.eq := rfl
@[simp] theorem Core.nextExecution_cq (c : Core) (u : Current) (j : Nat) : (c.nextExecution u j).cq = c.cq := rfl
@[simp] theorem Core.nextExecution_latches (c : Core) (u : Current) (j : Nat) : (c.nextExecution u j).latches = c.latches := rfl
@[simp] theorem Core.nextExecution_loops (c : Core) (u : Current) (j : Nat) : (c.nextExecution u j).loops = c.loops := rfl
@[simp] theorem Core.nextExecution_aps (c : Core) (u : Current) (j : Nat) : (c.nextExecution u j).aps = c.aps := rfl
@[simp] theorem Core.nextExecution_tiles (c : Core) (u : Current) (j : Nat) : (c.nextExecution u j).tiles = c.tiles := rfl
@[simp] theorem Core.nextExecution_bench (c : Core) (u : Current) (j : Nat) : (c.nextExecution u j).bench = c.bench := rfl
@[simp] theorem Core.nextExecution_scratch (c : Core) (u : Current) (j : Nat) : (c.nextExecution u j).scratch = c.scratch := rfl
@[simp] theorem Core.nextExecution_leftover (c : Core) (u : Current) (j : Nat) : (c.nextExecution u j).leftover = c.leftover := rfl
@[simp] theorem Core.nextExecution_trappc (c : Core) (u : Current) (j : Nat) : (c.nextExecution u j).trappc = c.trappc := rfl
@[simp] theorem Core.nextExecution_trapcause (c : Core) (u : Current) (j : Nat) : (c.nextExecution u j).trapcause = c.trapcause := rfl
@[simp] theorem Core.nextExecution_trapinfo (c : Core) (u : Current) (j : Nat) : (c.nextExecution u j).trapinfo = c.trapinfo := rfl
@[simp] theorem Core.nextExecution_tvec (c : Core) (u : Current) (j : Nat) : (c.nextExecution u j).tvec = c.tvec := rfl
@[simp] theorem Core.nextExecution_intrap (c : Core) (u : Current) (j : Nat) : (c.nextExecution u j).intrap = c.intrap := rfl
@[simp] theorem Core.nextExecution_preq (c : Core) (u : Current) (j : Nat) : (c.nextExecution u j).preq = c.preq := rfl
@[simp] theorem Core.nextExecution_inrpt (c : Core) (u : Current) (j : Nat) : (c.nextExecution u j).inrpt = c.inrpt := rfl
@[simp] theorem Core.nextExecution_degr (c : Core) (u : Current) (j : Nat) : (c.nextExecution u j).degr = c.degr := rfl
@[simp] theorem Core.nextExecution_rptidx (c : Core) (u : Current) (j : Nat) : (c.nextExecution u j).rptidx = c.rptidx := rfl
@[simp] theorem Core.nextExecution_cycle (c : Core) (u : Current) (j : Nat) : (c.nextExecution u j).cycle = c.cycle := rfl
@[simp] theorem Core.nextExecution_partition (c : Core) (u : Current) (j : Nat) : (c.nextExecution u j).partition = c.partition := rfl
@[simp] theorem Core.nextExecution_ctx (c : Core) (u : Current) (j : Nat) : (c.nextExecution u j).ctx = c.ctx := rfl
@[simp] theorem Core.nextExecution_level (c : Core) (u : Current) (j : Nat) : (c.nextExecution u j).level = c.level := rfl
@[simp] theorem Core.nextExecution_pts (c : Core) (u : Current) (j : Nat) : (c.nextExecution u j).pts = c.pts := rfl
@[simp] theorem Core.nextExecution_lgen (c : Core) (u : Current) (j : Nat) : (c.nextExecution u j).lgen = c.lgen := rfl
@[simp] theorem Core.nextExecution_tls (c : Core) (u : Current) (j : Nat) : (c.nextExecution u j).tls = c.tls := rfl
@[simp] theorem Core.nextExecution_shadow (c : Core) (u : Current) (j : Nat) : (c.nextExecution u j).shadow = c.shadow := rfl
@[simp] theorem Core.nextExecution_tokens (c : Core) (u : Current) (j : Nat) : (c.nextExecution u j).tokens = c.tokens := rfl
@[simp] theorem Core.nextExecution_brkExempt (c : Core) (u : Current) (j : Nat) : (c.nextExecution u j).brkExempt = c.brkExempt := rfl
@[simp] theorem Core.nextExecution_resumed (c : Core) (u : Current) (j : Nat) : (c.nextExecution u j).resumed = c.resumed := rfl
@[simp] theorem Core.nextExecution_kernel (c : Core) (u : Current) (j : Nat) : (c.nextExecution u j).kernel = c.kernel := rfl
@[simp] theorem Core.nextExecution_patterns (c : Core) (u : Current) (j : Nat) : (c.nextExecution u j).patterns = c.patterns := rfl
@[simp] theorem Core.nextExecution_arr (c : Core) (u : Current) (j : Nat) : (c.nextExecution u j).arr = c.arr := rfl
@[simp] theorem Core.nextExecution_pending (c : Core) (u : Current) (j : Nat) : (c.nextExecution u j).pending = c.pending := rfl
@[simp] theorem Core.nextExecution_vars (c : Core) (u : Current) (j : Nat) : (c.nextExecution u j).vars = c.vars := rfl
@[simp] theorem Core.nextExecution_nextId (c : Core) (u : Current) (j : Nat) : (c.nextExecution u j).nextId = c.nextId := rfl
@[simp] theorem Core.nextExecution_cur (c : Core) (u : Current) (j : Nat) : (c.nextExecution u j).cur = some { u with exe := j + 1 } := rfl
@[simp] theorem Core.nextExecution_act (c : Core) (u : Current) (j : Nat) : (c.nextExecution u j).act = c.act := rfl
@[simp] theorem Core.nextExecution_retiring (c : Core) (u : Current) (j : Nat) : (c.nextExecution u j).retiring = (j == u.bundle.hdr.rpt) := rfl
@[simp] theorem Core.nextExecution_point (c : Core) (u : Current) (j : Nat) : (c.nextExecution u j).point = c.point := rfl
@[simp] theorem Core.nextExecution_raised (c : Core) (u : Current) (j : Nat) : (c.nextExecution u j).raised = c.raised := rfl
@[simp] theorem Core.nextExecution_stalled (c : Core) (u : Current) (j : Nat) : (c.nextExecution u j).stalled = none := rfl
@[simp] theorem Core.nextExecution_room (c : Core) (u : Current) (j : Nat) : (c.nextExecution u j).room = c.room := rfl
@[simp] theorem Core.nextExecution_loans (c : Core) (u : Current) (j : Nat) : (c.nextExecution u j).loans = c.loans := rfl
@[simp] theorem Core.nextExecution_cmds (c : Core) (u : Current) (j : Nat) : (c.nextExecution u j).cmds = c.cmds := rfl
@[simp] theorem Core.nextExecution_chans (c : Core) (u : Current) (j : Nat) : (c.nextExecution u j).chans = c.chans := rfl
@[simp] theorem Core.nextExecution_seq (c : Core) (u : Current) (j : Nat) : (c.nextExecution u j).seq = c.seq := rfl
@[simp] theorem Core.nextExecution_ecHeld (c : Core) (u : Current) (j : Nat) : (c.nextExecution u j).ecHeld = c.ecHeld := rfl
@[simp] theorem Core.nextExecution_prodTok (c : Core) (u : Current) (j : Nat) : (c.nextExecution u j).prodTok = c.prodTok := rfl
@[simp] theorem Core.nextExecution_leftTok (c : Core) (u : Current) (j : Nat) : (c.nextExecution u j).leftTok = c.leftTok := rfl
@[simp] theorem Core.nextExecution_fenceWait (c : Core) (u : Current) (j : Nat) : (c.nextExecution u j).fenceWait = c.fenceWait := rfl
@[simp] theorem Core.nextExecution_accessed (c : Core) (u : Current) (j : Nat) : (c.nextExecution u j).accessed = c.accessed := rfl
@[simp] theorem Core.nextExecution_peerStores (c : Core) (u : Current) (j : Nat) : (c.nextExecution u j).peerStores = c.peerStores := rfl
@[simp] theorem Core.nextExecution_peerLoads (c : Core) (u : Current) (j : Nat) : (c.nextExecution u j).peerLoads = c.peerLoads := rfl
@[simp] theorem Core.nextExecution_peerFail (c : Core) (u : Current) (j : Nat) : (c.nextExecution u j).peerFail = c.peerFail := rfl
@[simp] theorem Core.nextExecution_arrived (c : Core) (u : Current) (j : Nat) : (c.nextExecution u j).arrived = c.arrived := rfl
@[simp] theorem Core.nextExecution_refState (c : Core) (u : Current) (j : Nat) : (c.nextExecution u j).refState = c.refState := rfl
@[simp] theorem Core.nextExecution_refCnt (c : Core) (u : Current) (j : Nat) : (c.nextExecution u j).refCnt = c.refCnt := rfl
@[simp] theorem Core.nextExecution_retWhy (c : Core) (u : Current) (j : Nat) : (c.nextExecution u j).retWhy = c.retWhy := rfl
@[simp] theorem Core.nextExecution_audits (c : Core) (u : Current) (j : Nat) : (c.nextExecution u j).audits = c.audits := rfl
@[simp] theorem Core.nextExecution_groups (c : Core) (u : Current) (j : Nat) : (c.nextExecution u j).groups = c.groups := rfl
@[simp] theorem Core.nextExecution_poison (c : Core) (u : Current) (j : Nat) : (c.nextExecution u j).poison = c.poison := rfl
@[simp] theorem Core.nextExecution_latent (c : Core) (u : Current) (j : Nat) : (c.nextExecution u j).latent = c.latent := rfl
@[simp] theorem Core.nextExecution_bankUe (c : Core) (u : Current) (j : Nat) : (c.nextExecution u j).bankUe = c.bankUe := rfl
@[simp] theorem Core.nextExecution_freeze (c : Core) (u : Current) (j : Nat) : (c.nextExecution u j).freeze = c.freeze := rfl
@[simp] theorem Core.nextExecution_poolReqs (c : Core) (u : Current) (j : Nat) : (c.nextExecution u j).poolReqs = c.poolReqs := rfl
@[simp] theorem Core.nextExecution_taken (c : Core) (u : Current) (j : Nat) : (c.nextExecution u j).taken = [] := rfl
@[simp] theorem Core.nextExecution_races (c : Core) (u : Current) (j : Nat) : (c.nextExecution u j).races = c.races := rfl
@[simp] theorem Core.nextExecution_acquired (c : Core) (u : Current) (j : Nat) : (c.nextExecution u j).acquired = c.acquired := rfl
@[simp] theorem Core.nextExecution_recs (c : Core) (u : Current) (j : Nat) : (c.nextExecution u j).recs = c.recs := rfl

/-! ## Registers and tokens -/

@[simp] theorem Core.getS_zero (c : Core) : c.getS 0 = 0 := rfl
@[simp] theorem Core.setS_zero (c : Core) (w : Word) : c.setS 0 w = c := rfl
@[simp] theorem Core.getM_zero (c : Core) : c.getM 0 = BitVec.allOnes 256 := rfl
@[simp] theorem Core.setM_zero (c : Core) (w : Mask) : c.setM 0 w = c := rfl
@[simp] theorem Core.getF_zero (c : Core) : c.getF 0 = true := rfl
@[simp] theorem Core.setF_zero (c : Core) (b : Bool) : c.setF 0 b = c := rfl
@[simp] theorem Core.setToken_zero (c : Core) (t : Token) : c.setToken 0 t = c := rfl
@[simp] theorem Core.token_zero (c : Core) : c.token 0 = .complete := rfl

theorem Core.getS_setS_self (c : Core) (n : Fin 64) (w : Word) (h : n ≠ 0) : (c.setS n w).getS n = w := by
  simp [Core.getS, Core.setS, h]

theorem Core.getS_setS_ne (c : Core) (n m : Fin 64) (w : Word) (h : m ≠ n) : (c.setS n w).getS m = c.getS m := by
  have h' : (n : Nat) ≠ (m : Nat) := fun e => h (Fin.ext e.symm)
  by_cases hn : n = 0 <;> simp [Core.getS, Core.setS, hn, h']

theorem Core.getM_setM_self (c : Core) (n : Fin 8) (w : Mask) (h : n ≠ 0) : (c.setM n w).getM n = w := by
  simp [Core.getM, Core.setM, h]

/-- A write of a scalar register changes nothing but the scalar registers. -/
theorem Core.setS_frame (c : Core) (n : Fin 64) (w : Word) : c.setS n w = { c with sregs := (c.setS n w).sregs } := by
  unfold Core.setS; split <;> rfl

theorem Core.setM_frame (c : Core) (n : Fin 8) (w : Mask) : c.setM n w = { c with mregs := (c.setM n w).mregs } := by
  unfold Core.setM; split <;> rfl

theorem Core.setF_frame (c : Core) (n : Fin 8) (b : Bool) : c.setF n b = { c with flags := (c.setF n b).flags } := by
  unfold Core.setF; split <;> rfl

theorem Core.setToken_frame (c : Core) (k : Nat) (t : Token) : c.setToken k t = { c with tokens := (c.setToken k t).tokens } := by
  unfold Core.setToken; split <;> rfl

end Sys2Proof.Machine
end

