-- ==== Sys2Proof/Laws/Step.lean ====
section
/-! SUPPORT. What a step carries out: nothing in a quiet state, and what an operation that does not stop leaves. -/
namespace Sys2Proof.Machine

theorem State.cores_eq (s : State) : s.cores = s.core :: s.others := rfl

theorem State.isQuiet_iff (s : State) : s.isQuiet = true ↔ s.quiet := by
  simp [State.isQuiet, State.quiet, and_assoc]

theorem State.hush_quiet (s : State) : s.hush.quiet := by
  refine ⟨rfl, rfl, rfl, rfl, ?_⟩
  simp [State.hush, State.cores]

theorem State.finishIn_quiet (n : Nat) (s : State) : (s.finishIn n).quiet := by
  induction n generalizing s with
  | zero => exact s.hush_quiet
  | succ n ih =>
    unfold State.finishIn
    split
    · exact s.isQuiet_iff.1 ‹_›
    · exact ih _

/-- What a step left to be done is carried out. -/
theorem State.quiet_finish (s : State) : s.finish.quiet := s.finishIn_quiet _

/-- In a quiet state nothing is left to be carried out. -/
theorem State.finish_quiet {s : State} (h : s.quiet) : s.finish = s := by
  unfold State.finish State.finishIn
  rw [if_pos (s.isQuiet_iff.2 h)]

/-- A core whose records and logs are those of the core in view leaves a state as quiet as it was. -/
theorem State.quiet_core {s : State} (h : s.quiet) {c : Core} (hr : c.recs = s.core.recs) (ha : c.audits = s.core.audits) :
    ({ s with core := c } : State).quiet := by
  obtain ⟨h1, h2, h3, h5, h4⟩ := h
  refine ⟨h1, h2, h3, h5, ?_⟩
  intro d hd
  simp only [State.cores, List.mem_cons] at hd h4
  rcases hd with rfl | hd
  · rw [hr, ha]; exact h4 _ (.inl rfl)
  · exact h4 _ (.inr hd)

theorem attempt_ok {run : Attempt} {s t : State} (h : run s = .ok t) (n : Nat) (f : List Nat) : attempt run n s f = (s, f, .ok t) := by
  cases n <;> simp [attempt, h]

theorem State.runAlone_ok {i : Instr} {s t : State} (h : aloneRun i s = .ok t) : s.runAlone i = t := by
  simp [State.runAlone, attempt_ok h]

/-- An operation that does not stop completes. -/
theorem completes_of_run {i : Instr} {s t : State} (hm : exec i s = slotMeaning i s) (h : aloneRun i s = .ok t)
    (hq : s.quiet → t.quiet) : Completes i s t := by
  have e : exec i s = .next t.finish := by rw [hm, slotMeaning, State.runAlone_ok h]
  exact ⟨e, fun q => by rw [e, State.finish_quiet (hq q)]⟩

end Sys2Proof.Machine
end

