-- ==== Sys2Proof/Laws/Issue.lean ====
section
/-! SUPPORT. What a slot operation alone in its bundle does: one lemma for each way it can end, and the shared operations of
issue in the terms of the claims. -/
namespace Sys2Proof.Machine

/-! ## From exec to an operation at its step -/

/-- A slot operation is a slot operation run alone. -/
theorem exec_slot {i : Instr} {row : Row} {o : Op} (h : i.info = some (row, o)) : exec i = slotMeaning i := by
  cases i <;> first | exact absurd (show none = some (row, o) from h) (Option.some_ne_none _).symm | rfl

theorem exec_nop (sl : Slot) : exec (.nop sl) = slotMeaning (.nop sl) := rfl

theorem runGuarded_on {i : Instr} {row : Row} {o : Op} {s : State} (h : i.info = some (row, o)) (g : s.core.guardHolds o = true) :
    runGuarded i s = issue i s := by
  simp [runGuarded, h, g]

theorem runGuarded_off {i : Instr} {row : Row} {o : Op} {s : State} (h : i.info = some (row, o)) (g : s.core.guardHolds o = false) :
    runGuarded i s = .ok s := by
  simp [runGuarded, h, g]

/-- Only a CPYR is refused by the kernel's schedule outside a repeat, and that in a pre-emptible kernel (R91). -/
theorem scheduleBad_none {i : Instr} {c : Core} (h : (∃ o, i = .cpyr o) → c.kernel.pre = false) : i.scheduleBad c.env = none := by
  cases i <;> first | rfl | simp [Instr.scheduleBad, Core.env, h ⟨_, rfl⟩]

/-- An operation outside the BR slot whose guard holds ends as its issue does. -/
theorem aloneRun_ok {i : Instr} {row : Row} {o : Op} {s t : State} (h : i.info = some (row, o)) (g : s.core.guardHolds o = true)
    (hb : i.scheduleBad s.core.env = none) (hs : row.slot ≠ .br) (hi : issue i s = .ok t) : aloneRun i s = .ok t := by
  unfold aloneRun
  rw [h, hb]
  simp [hs, runGuarded_on h g, hi]

theorem aloneRun_error {i : Instr} {row : Row} {o : Op} {s : State} {e : Stop × Option MemState} (h : i.info = some (row, o))
    (g : s.core.guardHolds o = true) (hb : i.scheduleBad s.core.env = none) (hs : row.slot ≠ .br) (hi : issue i s = .error e) :
    aloneRun i s = .error (row.slot.num, e) := by
  unfold aloneRun
  rw [h, hb]
  simp [hs, runGuarded_on h g, hi]

/-- A BR action that is neither an arrival at a barrier nor a fence touches the core alone. -/
theorem State.performBr_core {s : State} (hb : ∀ l, s.core.act ≠ .bar l) (hb' : ∀ l, s.core.act ≠ .bara l)
    (hf : ∀ x, s.core.act ≠ .fence x) {addr : Word} {c : Core}
    (hp : s.core.perform addr = .ok c) : s.performBr addr = .ok (s.withCore c) := by
  unfold State.performBr
  split
  · rename_i l e; exact absurd e (hb l)
  · rename_i l e; exact absurd e (hb' l)
  · rename_i x e; exact absurd e (hf x)
  · simp [bind, Except.bind, liftRes, hp, State.withCore]

/-- An operation of the BR slot whose guard holds performs its action after its issue. -/
theorem aloneRun_br {i : Instr} {row : Row} {o : Op} {s t u : State} (h : i.info = some (row, o))
    (g : s.core.guardHolds o = true) (hb : i.scheduleBad s.core.env = none) (hs : row.slot = .br)
    (hi : issue i (s.withCore s.core.atBranch) = .ok t) (hp : t.performBr s.core.bundleAddr = .ok u) : aloneRun i s = .ok u := by
  have g' : (s.withCore s.core.atBranch).core.guardHolds o = true := g
  have e : runGuarded i { s with core := { s.core with act := .none } } = .ok t := (runGuarded_on h g').trans hi
  unfold aloneRun
  rw [h, hb]
  simp [hs, e, hp]

/-- An operation whose guard is false does nothing outside the BR slot. -/
theorem aloneRun_off {i : Instr} {row : Row} {o : Op} {s : State} (h : i.info = some (row, o)) (g : s.core.guardHolds o = false)
    (hb : i.scheduleBad s.core.env = none) (hs : row.slot ≠ .br) : aloneRun i s = .ok s := by
  unfold aloneRun
  rw [h, hb]
  simp [hs, runGuarded_off h g]

/-- Without an action the core goes on in sequence. -/
theorem Core.perform_none {c : Core} (h : c.act = .none) (addr : Word) : c.perform addr = .ok (c.goesOn addr false) := by
  simp [Core.perform, h, Core.goesOn]

/-! ## How an operation ends -/

/-- An operation that touches its core alone, outside the BR slot: it completes with the core that its issue leaves. -/
theorem completes_onCore {i : Instr} {row : Row} {o : Op} {s : State} {d : Core} {f : Core → Res Core}
    (h : i.info = some (row, o)) (g : s.core.guardHolds o = true) (hb : i.scheduleBad s.core.env = none) (hs : row.slot ≠ .br)
    (hi : issue i s = onCore f s) (hf : f s.core = .ok d) (hr : d.recs = s.core.recs) (ha : d.audits = s.core.audits) : Completes i s (s.withCore d) := by
  have e : issue i s = .ok (s.withCore d) := by rw [hi]; simp [onCore, liftRes, hf, State.withCore, bind, Except.bind]
  exact completes_of_run (by rw [exec_slot h]) (aloneRun_ok h g hb hs e) fun q => State.quiet_core q hr ha

/-- The same of an operation in the BR slot: `d` is what its issue leaves, `c` what its action makes of that. -/
theorem completes_branch {i : Instr} {row : Row} {o : Op} {s : State} {c d : Core} {f : Core → Res Core}
    (h : i.info = some (row, o)) (g : s.core.guardHolds o = true) (hb : i.scheduleBad s.core.env = none) (hs : row.slot = .br)
    (hi : ∀ s, issue i s = onCore f s) (hf : f s.core.atBranch = .ok d) (hn : ∀ l, d.act ≠ .bar l) (hn' : ∀ l, d.act ≠ .bara l)
    (hx : ∀ x, d.act ≠ .fence x) (hp : d.perform s.core.bundleAddr = .ok c)
    (hr : c.recs = s.core.recs) (ha : c.audits = s.core.audits) : Completes i s (s.withCore c) := by
  have e : issue i (s.withCore s.core.atBranch) = .ok (s.withCore d) := by
    rw [hi]; simp [onCore, liftRes, hf, State.withCore, bind, Except.bind]
  have b : (s.withCore d).performBr s.core.bundleAddr = .ok (s.withCore c) := State.performBr_core (s := s.withCore d) hn hn' hx hp
  exact completes_of_run (by rw [exec_slot h]) (aloneRun_br (t := s.withCore d) h g hb hs e b) fun q => State.quiet_core q hr ha

/-- An operation that stops, but for an error still to be detected, stops the core where it stands. -/
theorem runAlone_error {i : Instr} {s : State} {sl : Nat} {e : Stop} {m : Option MemState} (h : aloneRun i s = .error (sl, e, m))
    (hd : ∀ k off n w, e ≠ .sense k off n w) :
    s.runAlone i = s.stop (e, m) [] sl (Instr.slotWord i) s.core.bundleAddr 0 false s.core.bundleLoops false := by
  have a : attempt (aloneRun i) s.latents s [] = (s, [], .error (sl, e, m)) := by
    cases s.latents with
    | zero => simp only [attempt, h]
    | succ n =>
      unfold attempt
      rw [h]
      cases e with
      | sense k off n w => exact absurd rfl (hd k off n w)
      | _ => rfl
  simp [State.runAlone, a]

/-- A trap of an operation outside the BR slot that touched no memory, with a cause other than poison. -/
theorem traps_onCore {i : Instr} {row : Row} {o : Op} {s : State} {f : Core → Res Core} {cause : Nat} {info : Word}
    (h : i.info = some (row, o)) (g : s.core.guardHolds o = true) (hb : i.scheduleBad s.core.env = none) (hs : row.slot ≠ .br)
    (hi : issue i s = onCore f s) (hf : f s.core = .error (.trap cause info)) (hc : cause ≠ 0x0C) :
    TrapsWith i s row.slot.num cause info := by
  have e : issue i s = .error (.trap cause info, none) := by rw [hi]; simp [onCore, liftRes, hf, bind, Except.bind]
  have a := runAlone_error (aloneRun_error h g hb hs e) nofun
  have n : s.core.notePoison (.trap cause info) [] = s.core := by
    unfold Core.notePoison
    split
    · rename_i h1; injection h1 with h1; exact absurd h1 hc
    · rfl
  rw [TrapsWith, exec_slot h, slotMeaning, a]
  simp only [State.stop, Stop.trapOf, n, State.trapped, State.withCore]

/-- A wait leaves everything but the note of the wait. -/
theorem stalls_onCore {i : Instr} {row : Row} {o : Op} {s : State} {f : Core → Res Core} {port : Nat} {queue : Bool}
    (h : i.info = some (row, o)) (g : s.core.guardHolds o = true) (hb : i.scheduleBad s.core.env = none) (hs : row.slot ≠ .br)
    (hi : issue i s = onCore f s) (hf : f s.core = .error (.stall port queue)) (hp : port < 512) :
    Completes i s (s.withCore { s.core with stalled := some ⟨row.slot.num, port, queue, false⟩ }) := by
  have e : issue i s = .error (.stall port queue, none) := by rw [hi]; simp [onCore, liftRes, hf, bind, Except.bind]
  have a := runAlone_error (aloneRun_error h g hb hs e) nofun
  have r : s.runAlone i = s.withCore { s.core with stalled := some ⟨row.slot.num, port, queue, false⟩ } := by
    rw [a]; simp [State.stop, Stop.trapOf, Core.notePoison, State.withCore, Nat.not_le.mpr hp]
  have x : exec i s = .next (s.withCore { s.core with stalled := some ⟨row.slot.num, port, queue, false⟩ }).finish := by
    rw [exec_slot h, slotMeaning, r]
  exact ⟨x, fun q => x.trans (congrArg _ (State.finish_quiet (State.quiet_core q rfl rfl)))⟩

/-! ## Results -/

/-- A push whose entry was taken before it came goes nowhere (R279). -/
theorem Core.lent_true {c : Core} {sl : Slot} {p : Port} (h : c.lends sl p = true) :
    c.lent sl.num (portDest p) = ({ c with loans := c.repaid sl p }, .none) := by
  cases p with
  | dq n =>
    have e : c.loans.contains (n.val, c.step, sl.num) = true := h
    unfold Core.lent Core.repaid
    simp only [portDest, h, e, if_true]
  | _ => cases h

theorem Core.lent_false {c : Core} {sl : Slot} {p : Port} (h : c.lends sl p = false) :
    c.lent sl.num (portDest p) = (c, portDest p) ∧ c.repaid sl p = c.loans := by
  cases p with
  | dq n =>
    have e : c.loans.contains (n.val, c.step, sl.num) = false := h
    unfold Core.lent Core.repaid
    simp only [portDest, h, e, Bool.false_eq_true, if_false, and_self]
  | _ => exact ⟨rfl, rfl⟩

theorem Core.issueBoth_eq (c : Core) (k : Nat) (sl : Slot) (p : Port) (x y : Val) :
    c.issueBoth k sl (portDest p) x y = c.owesBoth k sl p x y := by
  unfold Core.issueBoth Core.owesBoth
  cases h : c.lends sl p
  · obtain ⟨l, r⟩ := Core.lent_false h
    rw [l, r]; rfl
  · rw [Core.lent_true h]; rfl

/-- What enters the latch file is what R16 and R134 say. -/
theorem Dest.enters_eq (p : Port) (x : Val) : (portDest p).enters x = latchRule p x := by
  cases p <;> try rfl
  simp only [portDest, Dest.enters, Dest.takes, latchRule, Val.word]
  congr 1
  have e : (x.bits.setWidth 1 : BitVec 1) = BitVec.ofBool (x.bits.getLsbD 0) := by
    ext i hi
    obtain rfl : i = 0 := by omega
    simp
  rw [e]
  cases x.bits.getLsbD 0 <;> rfl

theorem Core.issueFixed_eq (c : Core) (k : Nat) (sl : Slot) (p : Port) (x : Val) :
    c.issueFixed k sl (portDest p) x = c.owes k sl p x := by
  rw [Core.issueFixed, Core.issueBoth_eq, Core.owes, Dest.enters_eq]

/-- Reserving an entry changes its queue, the places of the pushes under way and the next number alone. -/
theorem Core.reserve_frame (c : Core) (n id : Nat) :
    c.reserve n id = { c with nextId := (c.reserve n id).nextId, dq := (c.reserve n id).dq, pending := (c.reserve n id).pending } := by
  have go (l : List Pending) : ∀ (d : Core) (ps : List Pending), ∃ a q r, l.foldl (fun (x : Core × List Pending) p =>
      if p.dst == .dq n then
        ({ x.1 with nextId := x.1.nextId + 1
                    dq := x.1.dq.setIfInBounds n (x.1.dq.toList.getD n [] ++ [⟨Val.zero, p.issue, some x.1.nextId⟩]) },
          x.2 ++ [{ p with dst := .entry n x.1.nextId }])
      else (x.1, x.2 ++ [p])) (d, ps) = ({ d with nextId := a, dq := q }, r) := by
    induction l with
    | nil => exact fun d ps => ⟨_, _, _, rfl⟩
    | cons p l ih =>
      intro d ps
      simp only [List.foldl_cons]
      split
      · obtain ⟨a, q, r, h⟩ := ih _ _
        exact ⟨a, q, r, h⟩
      · exact ih _ _
  obtain ⟨a, q, r, h⟩ := go c.pending c []
  unfold Core.reserve
  simp only [h]

theorem Core.issueVar_eq (c : Core) (sl : Slot) (p : Port) (k : VarKind) :
    c.issueVar sl.num (portDest p) k = c.awaits sl p k := by
  have num : (sl.num = Slot.num .lm) = (sl = .lm) := by cases sl <;> simp [Slot.num]
  unfold Core.issueVar Core.awaits
  cases h : c.lends sl p
  · obtain ⟨l, r⟩ := Core.lent_false h
    rw [l, r]
    cases p with
    | dq n =>
      simp only [portDest, num, Bool.false_eq_true, and_true, if_false]
      by_cases hl : sl = .lm
      · simp only [hl, if_true]
        rw [Core.reserve_frame]
      · simp only [hl, if_false]
    | _ => rfl
  · rw [Core.lent_true h]
    cases p with
    | dq n => simp only [Bool.true_eq_false, and_false, if_false, if_true]
    | _ => cases h

/-- An operation of a fixed latency class whose destination lies in its stream owes its result. -/
theorem Core.issueResult_fixed {i : Instr} {row : Row} {o : Op} (h : i.info = some (row, o)) (k : Nat) (hl : row.lat = .cls k)
    (hx : crossStream row.slot o.dst = false) (c : Core) (x : Val) : c.issueResult i x = c.owes k row.slot o.dst x := by
  simp [Core.issueResult, h, hl, hx, Core.issueFixed_eq]

/-- A write across streams, and an operation of variable latency, leave the destination empty. -/
theorem Core.issueResult_cross {i : Instr} {row : Row} {o : Op} (h : i.info = some (row, o)) (k : Nat) (hl : row.lat = .cls k)
    (hx : crossStream row.slot o.dst = true) (c : Core) (x : Val) : c.issueResult i x = c.awaits row.slot o.dst (.value x) := by
  simp [Core.issueResult, h, hl, hx, Core.issueVar_eq]

theorem Core.issueResult_var {i : Instr} {row : Row} {o : Op} (h : i.info = some (row, o)) (hl : row.lat = .var) (c : Core) (x : Val) :
    c.issueResult i x = c.awaits row.slot o.dst (.value x) := by
  simp [Core.issueResult, h, hl, Core.issueVar_eq]

theorem crossStream_sc (p : Port) : crossStream .sc p = false := rfl
theorem crossStream_lm (p : Port) : crossStream .lm p = false := rfl
theorem crossStream_br (p : Port) : crossStream .br p = false := rfl

/-- A scalar operation issues the word that its function gives of its sources. -/
theorem scalarOp_ok {i : Instr} {f : Word → Word → Word → Word} {c d : Core} {x : Srcs} (h : c.operands i = .ok (d, x)) :
    scalarOp i f c = .ok (d.issueResult i (.word (f x.a.toWord x.b.toWord x.c.toWord))) := by
  simp [scalarOp, h, bind, Except.bind]

theorem flagResult_ok {i : Instr} {f : Word → Word → Word → Bool} {c d : Core} {x : Srcs} (h : c.operands i = .ok (d, x)) :
    flagResult i f c = .ok (d.issueResult i (.flag (f x.a.toWord x.b.toWord x.c.toWord))) := by
  simp [flagResult, h, bind, Except.bind]

/-- A BR operation that leaves an action. -/
theorem brAct_ok {i : Instr} {f : Word → Word → Core → BrAction} {c d : Core} {x : Srcs} (h : c.operands i = .ok (d, x)) :
    brAct i f c = .ok { d with act := f x.a.toWord x.b.toWord d } := by
  simp [brAct, h, bind, Except.bind]

/-- Operands that pass every test are the sources of the operation. -/
theorem Core.operands_ok {i : Instr} {c d : Core} {x : Srcs} (h : c.operands i = .ok (d, x)) :
    c.sources i = .ok (d, x) ∧ d.checkSources i = .ok () := by
  unfold Core.operands at h
  cases hs : c.sources i with
  | error e => simp [hs, bind, Except.bind] at h
  | ok p =>
    obtain ⟨d', x'⟩ := p
    cases hc : d'.checkSources i with
    | error e => simp [hs, hc, bind, Except.bind] at h
    | ok u =>
      simp only [hs, hc, bind, Except.bind, Except.ok.injEq, Prod.mk.injEq] at h
      obtain ⟨rfl, rfl⟩ := h
      exact ⟨rfl, hc⟩

/-! ## The pool -/

theorem Core.checkRange_ok {c : Core} {a : Int} {n : Nat} (h0 : 0 ≤ a) (h : a.toNat + n ≤ c.scratchSize) :
    c.checkRange a n = .ok a.toNat := by
  simp [Core.checkRange, Int.not_lt.mpr h0, h]

/-- A load of sectors with neither poison nor an undetected error, in groups that are not being rebuilt, gives their bytes. -/
theorem Core.loadPool_ok {c : Core} {a : Int} {n : Nat} (h0 : 0 ≤ a) (h : a.toNat + n ≤ c.scratchSize) (hh : c.holds a.toNat n = false)
    (hs : c.senses a.toNat n false = false) (hp : c.poisonAt a.toNat n = none) : c.loadPool a n = .ok (c.seenValue a.toNat n) := by
  simp [Core.loadPool, Core.checkRange_ok h0 h, Core.checkPoison, hh, hs, hp, bind, Except.bind]

/-- A load that answers was in range and met no poison. -/
theorem Core.loadPool_inv {c : Core} {a : Int} {n v : Nat} (h : c.loadPool a n = .ok v) :
    ∃ off, c.checkRange a n = .ok off ∧ c.checkPoison off n = .ok () ∧ v = c.seenValue off n := by
  unfold Core.loadPool at h
  cases hr : c.checkRange a n with
  | error e => simp [hr, bind, Except.bind] at h
  | ok off =>
    cases hc : c.checkPoison off n with
    | error e => simp [hr, hc, bind, Except.bind] at h
    | ok u => exact ⟨off, rfl, hc, by simpa [hr, hc, bind, Except.bind] using h.symm⟩

/-- A store that answers was in range, met no poison that it does not cover, and stores at that offset. -/
theorem Core.storePool_inv {c d : Core} {a : Int} {n x : Nat} (h : c.storePool a n x = .ok d) :
    ∃ off, c.checkRange a n = .ok off ∧ c.checkPartial off n = .ok () ∧ d = c.scrKeep off (leBytes n x) := by
  unfold Core.storePool at h
  cases hr : c.checkRange a n with
  | error e => simp [hr, bind, Except.bind] at h
  | ok off =>
    cases hc : c.checkPartial off n with
    | error e => simp [hr, hc, bind, Except.bind] at h
    | ok u => exact ⟨off, rfl, hc, by simpa [hr, hc, bind, Except.bind] using h.symm⟩

/-- Where no write of a command under way may still race, a load sees the bytes that are there. -/
theorem Core.seenValue_still {c : Core} (h : c.races = []) (a n : Nat) : c.seenValue a n = c.scrValue a n := by
  simp [Core.seenValue, Core.seenBytes, h, Core.scrValue]

/-- And a store leaves the bytes stored. -/
theorem Core.scrKeep_still {c : Core} (h : c.races = []) (a : Nat) (bs : List Byte) : c.scrKeep a bs = c.scrPut a bs := by
  simp [Core.scrKeep, h]

/-- The bytes of a group that is not being rebuilt are not held. -/
theorem Core.holds_false {c : Core} {off n : Nat} (h : ∀ p, off / 32 ≤ p / 32 → p < off + n → (c.group (poolGroup p)).state ≠ 1) :
    c.holds off n = false := by
  have e : n ≠ 0 → ∀ i, i < (off + n - 1) / 32 - off / 32 + 1 → (c.group (poolGroup (32 * (off / 32 + i)))).state ≠ 1 :=
    fun _ i hi => h _ (by omega) (by omega)
  unfold Core.holds
  by_cases hn : n = 0
  · simp [hn]
  · simp only [Bool.and_eq_false_iff]
    refine .inr (List.any_eq_false.mpr fun i hi => ?_)
    simpa using e hn i (List.mem_range.mp hi)

/-! ### What the pool keeps of its contents

Everything that reads and writes of the pool do to parity, poison and errors is a chain of steps that change the bookkeeping
alone; in a pool without undetected errors they detect nothing. -/

/-- Only what the pool keeps of parity, poison and errors may differ, with what is recorded of those. -/
def Core.PoolOnly (c d : Core) : Prop :=
  d = { c with groups := d.groups, poison := d.poison, latent := d.latent, bankUe := d.bankUe, freeze := d.freeze, recs := d.recs }

theorem Core.PoolOnly.refl (c : Core) : c.PoolOnly c := rfl

theorem Core.PoolOnly.trans {c d e : Core} (h : c.PoolOnly d) (h' : d.PoolOnly e) : c.PoolOnly e := by
  unfold Core.PoolOnly at *
  rw [h', h]

theorem Core.PoolOnly.foldl {α : Type} {f : Core → α → Core} (h : ∀ (c : Core) (x : α), c.PoolOnly (f c x)) (l : List α) (c : Core) :
    c.PoolOnly (l.foldl f c) := by
  induction l generalizing c with
  | nil => exact .refl c
  | cons x l ih => exact (h c x).trans (ih _)

theorem Core.setGroup_pool (c : Core) (g : Nat) (x : Group) : c.PoolOnly (c.setGroup g x) := rfl
theorem Core.record_pool (c : Core) (a b d e : Nat) : c.PoolOnly (c.record a b d e) := rfl
theorem Core.dropError_pool (c : Core) (k : Nat) : c.PoolOnly (c.dropError k) := rfl
theorem Core.corrected_pool (c : Core) (g b k a : Nat) : c.PoolOnly (c.corrected g b k a) := rfl
theorem Core.countPoison_pool (c : Core) (g : Nat) : c.PoolOnly (c.countPoison g) := rfl

theorem Core.countBank_pool (c : Core) (g b : Nat) : c.PoolOnly (c.countBank g b) := by
  simp only [Core.countBank]; split <;> rfl

theorem Core.poisonSector_pool (c : Core) (x : Nat) (b : Bool) : c.PoolOnly (c.poisonSector x b) := by
  simp only [Core.poisonSector]; split <;> rfl

theorem Core.recompute_pool (c : Core) (g r : Nat) : c.PoolOnly (c.recompute g r) := by
  simp only [Core.recompute]; split <;> rfl

theorem Core.correctData_pool (c : Core) (x : Nat) : c.PoolOnly (c.correctData x) := by
  unfold Core.correctData; split <;> rfl

theorem Core.readLibero_pool (c : Core) (g r : Nat) : c.PoolOnly (c.readLibero g r) := by
  simp only [Core.readLibero]
  split
  · rfl
  · split
    · exact ((Core.dropError_pool c _).trans (Core.corrected_pool _ g 8 2 0)).trans
        ((Core.countBank_pool _ g 8).trans (Core.recompute_pool _ g r))
    · rfl

theorem Core.rebuildFault_pool (c : Core) (g row x : Nat) (bad more : List Nat) : c.PoolOnly (c.rebuildFault g row x bad more) := by
  simp only [Core.rebuildFault]
  refine Core.PoolOnly.trans ?_ (Core.record_pool ..)
  refine Core.PoolOnly.trans ?_ (Core.countPoison_pool ..)
  refine Core.PoolOnly.trans ?_ (Core.dropError_pool ..)
  refine Core.PoolOnly.trans ?_ (Core.PoolOnly.foldl (fun c j => (Core.dropError_pool c _).trans (Core.poisonSector_pool _ _ true)) _ _)
  exact Core.PoolOnly.foldl (fun c j => Core.countBank_pool c g j) _ _

theorem Core.readFatal_pool (c : Core) (x : Nat) : c.PoolOnly (c.readFatal x) := by
  simp only [Core.readFatal]
  split
  · rfl
  · split
    · exact (((Core.dropError_pool c x).trans (Core.poisonSector_pool _ x false)).trans (Core.countPoison_pool _ _)).trans
        ((Core.countBank_pool _ _ _).trans (Core.record_pool ..))
    · generalize hd : (List.range 8).foldl (fun (c : Core) j => c.correctData (sectorAt (sectorGroup x) (poolRow (32 * x)) j)) c = d
      have e' : c.PoolOnly d := hd ▸ Core.PoolOnly.foldl (fun c j => Core.correctData_pool c _) _ _
      refine e'.trans ?_
      have e : d.PoolOnly (if d.hasError (liberoKey (sectorGroup x) (poolRow (32 * x))) false = true then
          d.readLibero (sectorGroup x) (poolRow (32 * x)) else d) := by
        split
        · exact Core.readLibero_pool ..
        · rfl
      have tail (f : Core) (g r b k a : Nat) (bad : List Nat) (p : Bool) :
          f.PoolOnly (if p = true then ((f.dropError x).corrected g b k a).countBank g b else f.rebuildFault g r x bad []) := by
        split
        · exact (Core.dropError_pool f x).trans ((Core.corrected_pool _ g b k a).trans (Core.countBank_pool ..))
        · exact Core.rebuildFault_pool ..
      exact e.trans (tail ..)

theorem Core.readSector_pool (c : Core) (x : Nat) : c.PoolOnly (c.readSector x) := by
  simp only [Core.readSector]
  split
  · exact (Core.correctData_pool c x).trans (Core.readFatal_pool _ x)
  · exact Core.correctData_pool c x

theorem Core.serveEntry_pool (c : Core) (g : Nat) (e : DeltaEntry) : c.PoolOnly (c.serveEntry g e) := by
  simp only [Core.serveEntry]
  split
  · exact ((Core.PoolOnly.foldl (fun c j => Core.readSector_pool c _) _ _).trans (Core.dropError_pool ..)).trans (Core.setGroup_pool ..)
  · exact (Core.readLibero_pool c g e.row).trans (Core.setGroup_pool ..)

theorem Core.shrink_pool (g k : Nat) : ∀ (n : Nat) (c : Core), c.PoolOnly (c.shrink g k n)
  | 0, c => .refl c
  | n + 1, c => by
    unfold Core.shrink
    split
    · split
      · exact .refl c
      · exact (Core.serveEntry_pool ..).trans (shrink_pool g k n _)
    · exact .refl c

theorem Core.fit_pool (c : Core) : c.PoolOnly c.fit := by
  unfold Core.fit
  split
  · exact .refl c
  · exact .foldl (fun c g => Core.shrink_pool g 64 128 c) _ _

/-- An access changes nothing but what the pool keeps of errors. -/
theorem Core.detect_pool (c : Core) (off n : Nat) (w : Bool) : c.PoolOnly (c.detect off n w).1 := by
  simp only [Core.detect]
  split
  · rfl
  · exact (Core.PoolOnly.foldl Core.readSector_pool _ _).trans (Core.fit_pool _)

theorem Core.noteSector_pool (c : Core) (x : Nat) (b : Bool) (d : BitVec 256) : c.PoolOnly (c.noteSector x b d) := by
  simp only [Core.noteSector]
  split
  · rfl
  · split
    · rfl
    · exact (Core.shrink_pool _ 63 128 c).trans (Core.setGroup_pool ..)

theorem Core.noteSectors_pool (delta : Nat → BitVec 256) (lo hi : Nat) : ∀ (n x : Nat) (c : Core),
    c.PoolOnly (c.noteSectors delta lo hi x n)
  | 0, _, c => .refl c
  | n + 1, x, c => by
    simp only [Core.noteSectors]
    refine Core.PoolOnly.trans ?_ (noteSectors_pool delta lo hi n _ _)
    refine Core.PoolOnly.trans (d := if (decide (lo ≤ 32 * x) && decide (32 * x + 32 ≤ hi)) = true then
      { c with poison := c.poison.filter fun p => p.1 != x } else c) ?_ (Core.noteSector_pool ..)
    split <;> rfl

theorem Core.noteStripe_pool (c : Core) (x : Nat) : c.PoolOnly (c.noteStripe x) := by
  have clears (c : Core) : c.PoolOnly (if c.poison.isEmpty = true then c else
      { c with poison := c.poison.filter fun p => p.1 / 8 != x }) := by
    split
    · exact .refl c
    · rfl
  have frees (c : Core) (g r : Nat) : c.PoolOnly (if ((c.group g).entries.isEmpty || decide ((c.group g).state = 1)) = true then c
      else c.setGroup g { c.group g with entries := (c.group g).entries.filter fun e => e.row != r }) := by
    split
    · exact .refl c
    · exact Core.setGroup_pool ..
  unfold Core.noteStripe
  refine Core.PoolOnly.trans ?_ (frees _ _ _)
  refine Core.PoolOnly.trans ?_ (clears _)
  split
  · exact .refl c
  · have latents (c : Core) (l : List (Nat × Bool)) : c.PoolOnly { c with latent := l } := rfl
    refine Core.PoolOnly.trans ?_ (latents _ _)
    refine Core.PoolOnly.trans ?_ (Core.fit_pool _)
    refine Core.PoolOnly.trans ?_ (Core.readLibero_pool ..)
    exact Core.PoolOnly.foldl (fun c i => Core.readSector_pool c _) _ _

theorem Core.noteStripes_pool (delta : Nat → BitVec 256) (lo hi : Nat) : ∀ (n x : Nat) (c : Core),
    c.PoolOnly (c.noteStripes delta lo hi x n)
  | 0, _, c => .refl c
  | n + 1, x, c => by
    simp only [Core.noteStripes]
    refine Core.PoolOnly.trans ?_ (noteStripes_pool delta lo hi n _ _)
    split
    · exact Core.noteStripe_pool ..
    · exact Core.noteSectors_pool ..

/-- What a write does to the bookkeeping before its bytes are there. -/
theorem Core.writeRuns_pool (c : Core) (runs : List (Nat × Nat)) (new : Core → Core) :
    ∃ d, c.PoolOnly d ∧ c.writeRuns runs new = new d := by
  have step (delta : Nat → BitVec 256) (d : Core) (r : Nat × Nat) : d.PoolOnly (if r.2 = 0 then d
      else d.noteStripes delta r.1 (r.1 + r.2) (r.1 / 256) ((r.1 + r.2 - 1) / 256 - r.1 / 256 + 1)) := by
    split
    · exact .refl d
    · exact Core.noteStripes_pool ..
  exact ⟨_, Core.PoolOnly.foldl (step _) runs c, rfl⟩

/-- A store to the pool changes the scratchpad and what the pool keeps alone. -/
theorem Core.scrPut_frame (c : Core) (a : Nat) (bs : List Byte) : ∃ d, c.PoolOnly d ∧ c.scrPut a bs = d.scrWrite a bs :=
  Core.writeRuns_pool ..

/-- A register written whole is one stripe of the pool. -/
theorem Core.setV_frame (c : Core) (n : Nat) (v : Vec) : ∃ d, c.PoolOnly d ∧ c.setV n v = { d with vregs := c.vregs.setIfInBounds n v } := by
  refine ⟨_, Core.noteStripe_pool c (c.vregOff n / 256), ?_⟩
  have h : (c.noteStripe (c.vregOff n / 256)).vregs = c.vregs := by rw [Core.noteStripe_pool c (c.vregOff n / 256)]
  simp only [Core.setV, h]

/-! Without undetected errors nothing is detected. -/

theorem Core.correctData_sound {c : Core} (h : c.latent = []) (x : Nat) : c.correctData x = c := by
  simp [Core.correctData, Core.hasError, h]

theorem Core.readSector_sound {c : Core} (h : c.latent = []) (x : Nat) : c.readSector x = c := by
  simp [Core.readSector, Core.correctData_sound h, Core.hasError, h]

theorem Core.readLibero_sound {c : Core} (h : c.latent = []) (g r : Nat) : c.readLibero g r = c := by
  simp [Core.readLibero, Core.hasError, h]

theorem Core.senses_sound {c : Core} (h : c.latent = []) (off n : Nat) (w : Bool) : c.senses off n w = false := by
  simp [Core.senses, h]

theorem Core.detect_sound {c : Core} (h : c.latent = []) (off n : Nat) (w : Bool) : c.detect off n w = (c, []) := by
  simp [Core.detect, Core.senses_sound h]

theorem Core.readSectors_sound {c : Core} (h : c.latent = []) (f : Nat → Nat) (l : List Nat) :
    l.foldl (fun (c : Core) j => c.readSector (f j)) c = c := by
  induction l with
  | nil => rfl
  | cons x l ih => rw [List.foldl_cons, Core.readSector_sound h, ih]

/-- In a pool without undetected errors the updater frees the entry that it serves, and nothing else changes (R189, R190). -/
theorem Core.serveEntry_sound {c : Core} (h : c.latent = []) (g : Nat) (e : DeltaEntry) :
    c.serveEntry g e = c.setGroup g { c.group g with
      entries := (c.group g).entries.filter fun y => y.row != e.row || y.recompute != e.recompute } := by
  have d : c.dropError (liberoKey g e.row) = c := by
    simp only [Core.dropError, h, List.filter_nil]; rw [← h]
  simp only [Core.serveEntry, Core.readSectors_sound h, Core.readLibero_sound h, d, ite_self]

/-- Parity and poison alone may differ. -/
def Core.ParityOnly (c d : Core) : Prop := d = { c with groups := d.groups, poison := d.poison }

theorem Core.ParityOnly.trans {c d e : Core} (h : c.ParityOnly d) (h' : d.ParityOnly e) : c.ParityOnly e := by
  unfold Core.ParityOnly at *
  rw [h', h]

theorem Core.ParityOnly.latent {c d : Core} (h : c.ParityOnly d) : d.latent = c.latent := by rw [h]

theorem Core.shrink_sound (g k : Nat) : ∀ (n : Nat) {c : Core}, c.latent = [] → c.ParityOnly (c.shrink g k n)
  | 0, _, _ => rfl
  | n + 1, c, h => by
    unfold Core.shrink
    split
    · split
      · rfl
      · rw [Core.serveEntry_sound h]
        exact Core.ParityOnly.trans (d := c.setGroup g _) rfl (shrink_sound g k n h)
    · rfl

theorem Core.noteSector_sound {c : Core} (h : c.latent = []) (x : Nat) (b : Bool) (d : BitVec 256) :
    c.ParityOnly (c.noteSector x b d) := by
  simp only [Core.noteSector]
  split
  · rfl
  · split
    · rfl
    · exact (Core.shrink_sound _ 63 128 h).trans rfl

theorem Core.noteSectors_sound (delta : Nat → BitVec 256) (lo hi : Nat) : ∀ (n x : Nat) {c : Core}, c.latent = [] →
    c.ParityOnly (c.noteSectors delta lo hi x n)
  | 0, _, _, _ => rfl
  | n + 1, x, c, h => by
    simp only [Core.noteSectors]
    have e : c.ParityOnly (if (decide (lo ≤ 32 * x) && decide (32 * x + 32 ≤ hi)) = true then
        { c with poison := c.poison.filter fun p => p.1 != x } else c) := by split <;> rfl
    have f := e.trans (Core.noteSector_sound (e.latent.trans h) x
      ((decide (lo ≤ 32 * x) && decide (32 * x + 32 ≤ hi)) && c.poison.any fun p => p.1 == x) (delta x))
    exact f.trans (noteSectors_sound delta lo hi n _ (f.latent.trans h))

theorem Core.noteStripe_sound {c : Core} (h : c.latent = []) (x : Nat) : c.ParityOnly (c.noteStripe x) := by
  have clears (c : Core) : c.ParityOnly (if c.poison.isEmpty = true then c else { c with poison := c.poison.filter fun p => p.1 / 8 != x }) := by
    split <;> rfl
  have frees (c : Core) (g r : Nat) : c.ParityOnly (if ((c.group g).entries.isEmpty || decide ((c.group g).state = 1)) = true then c
      else c.setGroup g { c.group g with entries := (c.group g).entries.filter fun e => e.row != r }) := by split <;> rfl
  have sound (k : Nat × Bool → Bool) : c.latent.any k = false := by rw [h]; rfl
  simp only [Core.noteStripe, sound, Bool.not_false, if_true]
  exact (clears c).trans (frees _ _ _)

theorem Core.noteStripes_sound (delta : Nat → BitVec 256) (lo hi : Nat) : ∀ (n x : Nat) {c : Core}, c.latent = [] →
    c.ParityOnly (c.noteStripes delta lo hi x n)
  | 0, _, _, _ => rfl
  | n + 1, x, c, h => by
    simp only [Core.noteStripes]
    have e (d : Core) (hd : c.ParityOnly d) : c.ParityOnly (d.noteStripes delta lo hi (x + 1) n) :=
      hd.trans (noteStripes_sound delta lo hi n _ (hd.latent.trans h))
    split
    · exact e _ (Core.noteStripe_sound h x)
    · exact e _ (Core.noteSectors_sound _ _ _ _ _ h)

/-- A write to a pool without undetected errors changes, besides its bytes, parity and poison alone. -/
theorem Core.writeRuns_sound {c : Core} (h : c.latent = []) (runs : List (Nat × Nat)) (new : Core → Core) :
    ∃ d, c.ParityOnly d ∧ c.writeRuns runs new = new d := by
  have go (delta : Nat → BitVec 256) (l : List (Nat × Nat)) : ∀ {d : Core}, c.ParityOnly d → c.ParityOnly (l.foldl (fun (d : Core) r =>
      if r.2 = 0 then d
      else d.noteStripes delta r.1 (r.1 + r.2) (r.1 / 256) ((r.1 + r.2 - 1) / 256 - r.1 / 256 + 1)) d) := by
    induction l with
    | nil => exact fun hd => hd
    | cons r l ih =>
      intro d hd
      rw [List.foldl_cons]
      refine ih ?_
      split
      · exact hd
      · exact hd.trans (Core.noteStripes_sound _ _ _ _ _ (hd.latent.trans h))
  exact ⟨_, go _ runs (d := c) rfl, rfl⟩

theorem Core.scrPut_sound {c : Core} (h : c.latent = []) (a : Nat) (bs : List Byte) :
    ∃ d, c.ParityOnly d ∧ c.scrPut a bs = d.scrWrite a bs := Core.writeRuns_sound h ..

/-! ### Reconstruction -/

/-- A data sector is the sector of its own group, bank row and local bank (R182). -/
theorem sectorAt_self (x : Nat) : sectorAt (sectorGroup x) (poolRow (32 * x)) (sectorBank x) = x := by
  simp only [sectorAt, sectorGroup, sectorBank, poolGroup, poolRow, poolBank]; omega

/-- All of eight values but one, and all of them, make that one. -/
theorem xor_but (b : Nat) (hb : b < 8) (f : Nat → BitVec 256) :
    (List.range 8).foldl (fun x j => if some b = some j then x else x ^^^ f j) 0 ^^^
      (List.range 8).foldl (fun x j => if (none : Option Nat) = some j then x else x ^^^ f j) 0 = f b := by
  have cancel (p q r : BitVec 256) : (p ^^^ r) ^^^ (q ^^^ r) = p ^^^ q := by
    rw [BitVec.xor_comm q, ← BitVec.xor_assoc, BitVec.xor_assoc p, BitVec.xor_self, BitVec.xor_zero]
  have split (l : List Nat) : l.Nodup → ∀ x y : BitVec 256,
      l.foldl (fun x j => if some b = some j then x else x ^^^ f j) x ^^^
        l.foldl (fun x j => if (none : Option Nat) = some j then x else x ^^^ f j) y = x ^^^ y ^^^ if b ∈ l then f b else 0 := by
    induction l with
    | nil => intro _ x y; simp
    | cons j l ih =>
      intro hn x y
      obtain ⟨h1, h2⟩ := List.nodup_cons.mp hn
      rw [List.foldl_cons, List.foldl_cons, ih h2]
      by_cases h : b = j
      · subst h; simp [h1, BitVec.xor_assoc]
      · simp only [Option.some.injEq, h, if_false, reduceCtorEq, List.mem_cons, false_or]
        rw [cancel]
  rw [split _ List.nodup_range]
  simp [hb]

/-- In a fresh row of a protected group, the exclusive or of the other seven sectors and the parity is what a sector holds
(R185, R192). -/
theorem Core.rebuilt_eq (c : Core) (x : Nat) (hs : (c.group (sectorGroup x)).state = 0)
    (hf : c.rowFresh (sectorGroup x) (poolRow (32 * x)) = true) : c.rebuilt x = c.sectorData x := by
  have none' : (c.group (sectorGroup x)).entries.find? (fun e => e.row == poolRow (32 * x)) = none := by
    simp only [Core.rowFresh, Bool.and_eq_true, Bool.not_eq_true', List.any_eq_false] at hf
    exact List.find?_eq_none.mpr hf.2
  have p : c.parityRow (sectorGroup x) (poolRow (32 * x)) = c.rowXor (sectorGroup x) (poolRow (32 * x)) none := by
    simp [Core.parityRow, hs, none']
  have hb : sectorBank x < 8 := Nat.mod_lt _ (by decide)
  conv => rhs; rw [← sectorAt_self x]
  unfold Core.rebuilt
  rw [p]
  generalize sectorBank x = b at hb ⊢
  exact xor_but b hb fun j => c.sectorData (sectorAt (sectorGroup x) (poolRow (32 * x)) j)

/-! ## Events -/

/-- An event of units that exist goes on. -/
theorem eventMeaning_next {b : Bool} (h : b = true) (f : State → State) (s : State) :
    eventMeaning b f s = .next (f s).closeEvent := by
  simp [eventMeaning, h]

theorem eventMeaning_missing {b : Bool} (h : b = false) (f : State → State) (s : State) :
    eventMeaning b f s = .fault .noSuchUnit := by
  simp [eventMeaning, h]

theorem coreMeaning_next {k : Nat} (h : inCores k = true) (f : State → State) (s : State) :
    coreMeaning k f s = .next (f (s.focus k)).closeEvent := by
  simp [coreMeaning, eventMeaning, h]

/-- The core that comes into view is the core of that number. -/
theorem State.focus_core (s : State) {k : Nat} (h : inCores k = true) : (s.focus k).core = s.coreAt k := by
  unfold State.focus
  by_cases e : k = s.core.kid
  · rw [if_pos e, State.coreAt, if_pos e]
  · rw [if_neg e, if_pos h]

theorem State.focus_mem (s : State) (k : Nat) : (s.focus k).mem = s.mem := by
  unfold State.focus
  by_cases e : k = s.core.kid <;> by_cases h : inCores k = true <;> simp only [e, h, if_true, if_false, Bool.false_eq_true]

theorem State.focus_launch (s : State) (k : Nat) : (s.focus k).launch = s.launch := by
  unfold State.focus
  by_cases e : k = s.core.kid <;> by_cases h : inCores k = true <;> simp only [e, h, if_true, if_false, Bool.false_eq_true]

end Sys2Proof.Machine
end

