-- ==== Sys2Proof/Laws/Memory.lean ====
section
/-! SUPPORT. The laws of memory: a byte written is read back, every other byte keeps its value, and the form of Mem is kept. -/
namespace Sys2Proof.Machine

theorem Mem.get_erase (m : Mem) (x y : Nat) : (m.erase x).get y = if y = x then 0 else m.get y := by
  unfold Mem.erase
  induction m with
  | nil => simp [Mem.get]
  | cons e m ih =>
    obtain ⟨a, b⟩ := e
    by_cases h : a = x
    · subst h
      simp only [List.filter_cons, bne_self_eq_false, Bool.false_eq_true, if_false, ih, Mem.get]
      by_cases hy : y = a
      · simp [hy]
      · simp [hy, Ne.symm hy]
    · simp only [List.filter_cons, bne_iff_ne, ne_eq, h, not_false_eq_true, if_true, Mem.get, ih]
      by_cases hy : a = y
      · subst hy; simp [h]
      · simp [hy]

theorem Mem.get_insert (m : Mem) (x y : Nat) (v : Byte) (hx : ∀ e ∈ m, e.1 ≠ x) :
    (Mem.insert m x v).get y = if y = x then v else Mem.get m y := by
  induction m with
  | nil =>
    by_cases hy : x = y
    · simp [Mem.insert, Mem.get, hy]
    · simp [Mem.insert, Mem.get, hy, Ne.symm hy]
  | cons e m ih =>
    obtain ⟨a, b⟩ := e
    have ha : a ≠ x := hx _ (List.mem_cons_self ..)
    have hm : ∀ e ∈ m, e.1 ≠ x := fun e he => hx e (List.mem_cons_of_mem _ he)
    simp only [Mem.insert]
    split
    · by_cases hy : x = y
      · simp [Mem.get, hy]
      · simp [Mem.get, hy, Ne.symm hy]
    · simp only [Mem.get, ih hm]
      by_cases hay : a = y
      · subst hay; simp [ha]
      · simp [hay]

/-- A write is read back, and leaves every other byte alone. -/
theorem Mem.get_put (m : Mem) (x y : Nat) (v : Byte) : (m.put x v).get y = if y = x then v else m.get y := by
  unfold Mem.put
  split
  · rw [Mem.get_erase]; split <;> simp_all
  · have hx : ∀ e ∈ m.erase x, e.1 ≠ x := by
      intro e he; simpa [Mem.erase] using (List.mem_filter.mp he).2
    rw [Mem.get_insert _ _ _ _ hx, Mem.get_erase]
    split <;> simp_all

theorem Mem.get_putN (bs : List Byte) (m : Mem) (a y : Nat) :
    (m.putN a bs).get y = if a ≤ y ∧ y < a + bs.length then bs.getD (y - a) 0 else m.get y := by
  induction bs generalizing m a with
  | nil =>
    have h : ¬(a ≤ y ∧ y < a + ([] : List Byte).length) := by simp only [List.length_nil]; omega
    rw [if_neg h]; rfl
  | cons b bs ih =>
    simp only [Mem.putN, ih, Mem.get_put, List.length_cons]
    by_cases hy : y = a
    · subst hy
      have h1 : ¬(y + 1 ≤ y ∧ y < y + 1 + bs.length) := by omega
      have h2 : y ≤ y ∧ y < y + (bs.length + 1) := by omega
      rw [if_neg h1, if_pos rfl, if_pos h2, Nat.sub_self]; rfl
    · by_cases h : a + 1 ≤ y ∧ y < a + 1 + bs.length
      · have h2 : a ≤ y ∧ y < a + (bs.length + 1) := by omega
        have e : y - a = (y - (a + 1)) + 1 := by omega
        rw [if_pos h, if_pos h2, e]; rfl
      · have h2 : ¬(a ≤ y ∧ y < a + (bs.length + 1)) := by omega
        rw [if_neg h, if_neg hy, if_neg h2]

theorem Mem.length_getN (m : Mem) (a n : Nat) : (m.getN a n).length = n := by
  induction n generalizing a with
  | zero => rfl
  | succ n ih => simp [Mem.getN, ih]

theorem Mem.getD_getN (m : Mem) (a n k : Nat) (h : k < n) : (m.getN a n).getD k 0 = m.get (a + k) := by
  induction n generalizing a k with
  | zero => omega
  | succ n ih =>
    cases k with
    | zero => simp [Mem.getN]
    | succ k =>
      have := ih (a + 1) k (by omega)
      simp only [Mem.getN, List.getD_cons_succ, this]
      congr 1; omega

theorem Mem.wfFrom_erase (m : Mem) (x lo : Nat) (h : Mem.wfFrom lo m = true) : Mem.wfFrom lo (m.erase x) = true := by
  have weaken : ∀ (m : Mem) (a b : Nat), a ≤ b → Mem.wfFrom b m = true → Mem.wfFrom a m = true := by
    intro m a b hab hm
    cases m with
    | nil => rfl
    | cons e m => simp only [Mem.wfFrom, Bool.and_eq_true, decide_eq_true_eq] at hm ⊢; exact ⟨⟨by omega, hm.1.2⟩, hm.2⟩
  unfold Mem.erase
  induction m generalizing lo with
  | nil => rfl
  | cons e m ih =>
    obtain ⟨a, b⟩ := e
    simp only [Mem.wfFrom, Bool.and_eq_true, decide_eq_true_eq] at h
    simp only [List.filter_cons]
    split
    · simp only [Mem.wfFrom, Bool.and_eq_true, decide_eq_true_eq]
      exact ⟨h.1, ih _ h.2⟩
    · exact weaken _ lo (a + 1) (by omega) (ih _ h.2)

theorem Mem.wfFrom_insert (m : Mem) (x lo : Nat) (v : Byte) (hv : v ≠ 0) (hlo : lo ≤ x) (h : Mem.wfFrom lo m = true)
    (hx : ∀ e ∈ m, e.1 ≠ x) : Mem.wfFrom lo (Mem.insert m x v) = true := by
  induction m generalizing lo with
  | nil =>
    have : (v != 0) = true := by simpa using hv
    simp only [Mem.insert, Mem.wfFrom, Bool.and_true, Bool.and_eq_true, decide_eq_true_eq]
    exact ⟨hlo, this⟩
  | cons e m ih =>
    obtain ⟨a, b⟩ := e
    have ha : a ≠ x := hx _ (List.mem_cons_self ..)
    simp only [Mem.wfFrom, Bool.and_eq_true, decide_eq_true_eq] at h
    simp only [Mem.insert]
    split
    · have : (v != 0) = true := by simpa using hv
      simp only [Mem.wfFrom, Bool.and_eq_true, decide_eq_true_eq]
      exact ⟨⟨hlo, this⟩, ⟨by omega, h.1.2⟩, h.2⟩
    · simp only [Mem.wfFrom, Bool.and_eq_true, decide_eq_true_eq]
      exact ⟨h.1, ih _ (by have := h.1.1; omega) h.2 fun e he => hx e (List.mem_cons_of_mem _ he)⟩

/-- Writes keep the form of a memory. -/
theorem Mem.wf_put (m : Mem) (x : Nat) (v : Byte) (h : m.wf = true) : (m.put x v).wf = true := by
  unfold Mem.put Mem.wf
  split
  · exact Mem.wfFrom_erase _ _ _ h
  · rename_i hv
    refine Mem.wfFrom_insert _ _ _ _ hv (Nat.zero_le _) (Mem.wfFrom_erase _ _ _ h) ?_
    intro e he; simpa [Mem.erase] using (List.mem_filter.mp he).2

theorem Mem.wf_putN (bs : List Byte) (m : Mem) (a : Nat) (h : m.wf = true) : (m.putN a bs).wf = true := by
  induction bs generalizing m a with
  | nil => exact h
  | cons b bs ih => exact ih _ _ (Mem.wf_put _ _ _ h)

/-! ## A run written anew -/

theorem Mem.wfFrom_weaken {m : Mem} {a b : Nat} (hab : a ≤ b) (h : Mem.wfFrom b m = true) : Mem.wfFrom a m = true := by
  cases m with
  | nil => rfl
  | cons e m =>
    simp only [Mem.wfFrom, Bool.and_eq_true, decide_eq_true_eq] at h ⊢
    exact ⟨⟨by omega, h.1.2⟩, h.2⟩

/-- Two memories, the second from `mid` up and the first below it, make one. -/
theorem Mem.wfFrom_append {m : Mem} {lo mid : Nat} {n : Mem} (hm : Mem.wfFrom lo m = true) (hb : ∀ e ∈ m, e.1 < mid) (hlo : lo ≤ mid)
    (hn : Mem.wfFrom mid n = true) : Mem.wfFrom lo (m ++ n) = true := by
  induction m generalizing lo with
  | nil => exact Mem.wfFrom_weaken hlo hn
  | cons e m ih =>
    obtain ⟨a, b⟩ := e
    simp only [Mem.wfFrom, Bool.and_eq_true, List.cons_append] at hm ⊢
    exact ⟨hm.1, ih hm.2 (fun e he => hb e (List.mem_cons_of_mem _ he)) (hb (a, b) (List.mem_cons_self ..))⟩

theorem Mem.wfFrom_cells (a : Nat) (bs : List Byte) : Mem.wfFrom a (Mem.cells a bs) = true := by
  induction bs generalizing a with
  | nil => rfl
  | cons b bs ih =>
    unfold Mem.cells
    split
    · exact Mem.wfFrom_weaken (Nat.le_succ a) (ih _)
    · rename_i hb
      simp only [Mem.wfFrom, Bool.and_eq_true, decide_eq_true_eq, bne_iff_ne, ne_eq]
      exact ⟨⟨Nat.le_refl _, hb⟩, ih _⟩

theorem Mem.cells_lt {a : Nat} {bs : List Byte} {e : Host.Cell} (h : e ∈ Mem.cells a bs) : e.1 < a + bs.length := by
  induction bs generalizing a with
  | nil => cases h
  | cons b bs ih =>
    unfold Mem.cells at h
    simp only [List.length_cons]
    split at h
    · have := ih h; omega
    · rcases List.mem_cons.mp h with rfl | h
      · show a < _; omega
      · have := ih h; omega

theorem Mem.wfFrom_filter {m : Mem} {lo : Nat} (p : Host.Cell → Bool) (h : Mem.wfFrom lo m = true) :
    Mem.wfFrom lo (m.filter p) = true := by
  induction m generalizing lo with
  | nil => rfl
  | cons e m ih =>
    obtain ⟨a, b⟩ := e
    simp only [Mem.wfFrom, Bool.and_eq_true, decide_eq_true_eq] at h
    simp only [List.filter_cons]
    split
    · simp only [Mem.wfFrom, Bool.and_eq_true, decide_eq_true_eq]
      exact ⟨h.1, ih h.2⟩
    · exact Mem.wfFrom_weaken (by omega) (ih h.2)

/-- What lies at or above an address is in the form from that address on. -/
theorem Mem.wfFrom_above {m : Mem} {lo : Nat} (x : Nat) (h : Mem.wfFrom lo m = true) :
    Mem.wfFrom x (m.filter fun e => decide (x ≤ e.1)) = true := by
  induction m generalizing lo with
  | nil => rfl
  | cons e m ih =>
    obtain ⟨a, b⟩ := e
    simp only [Mem.wfFrom, Bool.and_eq_true, decide_eq_true_eq] at h
    simp only [List.filter_cons]
    split
    · rename_i hx
      simp only [Mem.wfFrom, Bool.and_eq_true, decide_eq_true_eq]
      exact ⟨⟨by simpa using hx, h.1.2⟩, Mem.wfFrom_filter _ h.2⟩
    · exact ih h.2

/-- Writing a run anew keeps the form of a memory. -/
theorem Mem.wf_fill (m : Mem) (a n : Nat) (f : Nat → Byte) (h : m.wf = true) : (m.fill a n f).wf = true := by
  unfold Mem.fill Mem.wf
  rw [List.append_assoc]
  refine Mem.wfFrom_append (mid := a) (Mem.wfFrom_filter _ h) (fun e he => by simpa using (List.mem_filter.mp he).2) (Nat.zero_le _) ?_
  refine Mem.wfFrom_append (mid := a + n) (Mem.wfFrom_cells _ _) (fun e he => ?_) (Nat.le_add_right ..) (Mem.wfFrom_above _ h)
  simpa using Mem.cells_lt he

end Sys2Proof.Machine
end

