-- ==== Sys2Proof/Tests/Slice0.lean ====
section
/-! SUPPORT. Own tests: words of the spec decode, ill-formed terms are refused, and for every statement with hypotheses a
state and operands that meet them. -/
set_option Elab.async false

namespace Sys2Proof.Tests
open Sys2Proof.Machine

/-- A core that runs a task of context 1 at address 0x1000. -/
def base : Core := { Core.reset 0 with run := .running, ctx := 1, pc := 0x1000 }

def pkg (c : Core) : State := { State.reset with core := c }

/-- An operation without guard and E bits. -/
def op (dst a b c : Port) : Op := ⟨0, false, dst, a, b, c, false, false, false, false⟩

/-- The port of a small constant. -/
def kp (n : Nat) : Port := .short (Fin.ofNat 32 (16 + n))

/-- An operation goes on past its guard and its sources, which hold what the rest of a hypothesis asks. -/
def ready (i : Instr) (o : Op) (c : Core) (P : Core → Srcs → Prop := fun _ _ => True) : Prop :=
  c.guardHolds o = true ∧ ∃ d x, c.operands i = .ok (d, x) ∧ P d x

/-- The same of an operation whose registers are not checked for poison first. -/
def readyLm (i : Instr) (o : Op) (c : Core) (P : Core → Srcs → Prop := fun _ _ => True) : Prop :=
  c.guardHolds o = true ∧ ∃ d x, c.sources i = .ok (d, x) ∧ P d x

def readyBr (i : Instr) (o : Op) (c : Core) (P : Core → Srcs → Prop := fun _ _ => True) : Prop :=
  c.guardHolds o = true ∧ ∃ d x, c.atBranch.operands i = .ok (d, x) ∧ P d x

theorem clean_of (c : Core) (p : Nat) (h : c.poison = []) (h' : c.latent = []) (g : c.groups = Vector.replicate 12 Group.zero := by rfl) :
    c.clean p := by
  refine ⟨by simp [h], by simp [h'], ?_⟩
  simp only [Core.group, g, Vector.toList_replicate, List.getD_eq_getElem?_getD, List.getElem?_replicate]
  split <;> decide

/-- A core whose pool is as at reset may be written. -/
theorem mayWrite_of (c : Core) (P : Nat → Prop) (h : c.poison = []) (h' : c.latent = [])
    (g : c.groups = Vector.replicate 12 Group.zero := by rfl) : c.mayWrite P :=
  ⟨h', fun p _ => ⟨(clean_of c p h h' g).2.2, by simp [h]⟩⟩

/-- Context 1, running, with 16 handles from 0 on, 4 experts whose directory is at 0x200, 4 save slots from 0 on. -/
def ctx1 : Ctx :=
  { num := 1, state := 1, ptroot := 0, savebase := 0, savecnt := 4, plimit := 0, keylo := 0, keycnt := 1, kvpool := 0, ovfbase := 0
    ovfcap := 0, edir := 0x200, nexp := 4, hlo := 0, hcnt := 16, hbase := 2 ^ 30, hstride := 2 ^ 21, btbase := 0, recbase := 0
    quota := 64 }

/-- A launch whose record is all zeros but the bytes given. -/
def launch7 (bytes : List Byte) : Launch := ⟨7, 0, bytes, List.replicate 64 0, 0, 1, 1, 0, true, 0, []⟩

/-- A task on core 0, alone in gang 1 of launch 7, with context 1. -/
def task0 : Task := ⟨0, 7, none, [0], some 1, 0, 0, 3, 0, [], true⟩

def gang1 : Gang := ⟨1, 7, [], 3, 0, [⟨[0], none⟩], true, []⟩

def tasked (c : Core) : State :=
  { pkg c with
    mem := { MemState.reset with ctxs := [ctx1] }
    launch := { LaunchState.reset with nextId := 8, launches := [launch7 []], tasks := [task0], gangs := [gang1] } }

/-- Does a read give something with a property, or fail with one? -/
def gives {α ε β : Type} (r : α × Except ε β) (p : α → β → Bool) : Bool :=
  match r with
  | (w, .ok y) => p w y
  | (_, .error _) => false

def fails {α ε β : Type} (r : α × Except ε β) (p : α → ε → Bool) : Bool :=
  match r with
  | (w, .error y) => p w y
  | (_, .ok _) => false

theorem ok_of {α ε β : Type} {r : α × Except ε β} {p : α → β → Bool} (h : gives r p = true) :
    ∃ w y, r = (w, .ok y) ∧ p w y = true := by
  obtain ⟨w, e⟩ := r
  cases e with
  | ok y => exact ⟨w, y, rfl, h⟩
  | error _ => cases h

theorem error_of {α ε β : Type} {r : α × Except ε β} {p : α → ε → Bool} (h : fails r p = true) :
    ∃ w y, r = (w, .error y) ∧ p w y = true := by
  obtain ⟨w, e⟩ := r
  cases e with
  | error y => exact ⟨w, y, rfl, h⟩
  | ok _ => cases h

/-- Sectors of context 1 in the LLC that hold a value from a sector on. -/
def held (num n v : Nat) : List Sector :=
  (List.range n).map fun i => ⟨0, num + i, 0, BitVec.ofNat 256 (v / 2 ^ (256 * i)), true, 1, false, 0, false, false⟩

/-- A kernel record that breaks no rule. -/
def kernelValue : Nat := 0x4B4C5942 + 2 ^ 32 + 2 ^ 64 * 0x11111111111 + 2 ^ 160 * 7

/-- A launch record with the kernel at 0x600, no gang, one level of one iteration in the package; with bit 3 of the control word
set, in a cluster. -/
def recordValue (tcfe : Bool) : Nat :=
  0x600 + 2 ^ (8 * 0x18) * (if tcfe then 0x808 else 0x800) + 2 ^ (8 * 0x40) * (1 + (if tcfe then 0x11 else 0x33) * 2 ^ 32)

/-- The package in operation: context 1 may read, write and fetch page 0, of which the LLC holds the first 2 KiB: zeros at 0, an
expert at 0x200, launch records at 0x280 and 0x400, a kernel record at 0x600, a list at 0x640. -/
def worldMem (list : Nat) : MemState := { MemState.reset with
  ctxs := [ctx1], keys := [(0, 0)], tlb := [⟨1, 0, 0x39, false⟩], linkUp := true
  llc := held 0 16 0 ++ held 16 4 (2 ^ 64) ++ held 20 12 (recordValue false) ++ held 32 12 (recordValue true) ++ held 48 2 kernelValue ++
    held 50 14 list }

def world (c : Core) (list : Nat := 0) : State :=
  { tasked c with mem := worldMem list, plat := { PlatState.reset with phase := 5 } }

/-! ## Witnesses: scalar and vector operations -/

theorem witness_ScalarIntegers : ∃ (i : Instr) (row : Row) (o : Op) (s : State) (c : Core) (x : Srcs) (k : Nat) (P : Word → Prop),
    i.info = some (row, o) ∧ s.core.guardHolds o = true ∧ s.core.operands i = .ok (c, x) ∧
    scalarRule i x.a.toWord x.b.toWord x.c.toWord = some (k, P) :=
  ⟨.add (op (.s 9) (.s 1) (.s 2) (.s 0)), _, _, pkg base, _, _, _, _, rfl, rfl, rfl, rfl⟩

theorem witness_DivisionsAndFlags :
    (let o := op (.s 9) (.s 1) (.s 2) (.s 0); ready (.div o) o base ∧ ready (.rem o) o base) ∧
    (let o := op (.f 1) (.s 1) (.s 2) (kp 5); ready (.cmp o) o base) ∧
    (let o := op (.f 1) (.f 1) (.f 2) (kp 15); ready (.flagop o) o base) ∧
    (let o := op (.f 1) (.s 1) (.s 2) (kp 4); ready (.fcmp o) o base) :=
  ⟨⟨⟨rfl, _, _, rfl, trivial⟩, rfl, _, _, rfl, trivial⟩, ⟨rfl, _, _, rfl, trivial⟩, ⟨rfl, _, _, rfl, trivial⟩, rfl, _, _, rfl, trivial⟩

theorem witness_ScalarFloats : ∃ (i : Instr) (row : Row) (o : Op) (s : State) (c : Core) (x : Srcs) (k : Nat) (r : Word),
    i.info = some (row, o) ∧ s.core.guardHolds o = true ∧ s.core.operands i = .ok (c, x) ∧
    floatRule i x.a.toWord x.b.toWord x.c.toWord = some (k, r) :=
  ⟨.fadd (op (.s 9) (.s 1) (.s 2) (.s 0)), _, _, pkg base, _, _, _, _, rfl, rfl, rfl, rfl⟩

/-- Word 0 with ESIZE 9 is not a legal pattern; zero is. -/
theorem witness_AddressPatterns :
    let c : Core := { base with sregs := base.sregs.set 1 (BitVec.ofNat 64 (9 * 2 ^ 20)) }
    let o := op (.ap 1) (.s 0) (.s 2) (.s 3)
    let p := op (.ap 1) (.s 1) (.s 2) (.s 3)
    let legal (x : Srcs) : Prop := x.a.toWord.toNat / 2 ^ 20 % 2 ^ 4 ≤ 8 ∧ x.a.toWord.toNat / 2 ^ 44 = 0 ∧ x.c.toWord.toNat / 2 ^ 56 = 0
    ready (.apset o) o c (fun _ x => legal x) ∧ ready (.apset p) p c (fun _ x => ¬legal x) ∧
      ready (.apget (op (.s 4) (.ap 7) (kp 2) (.s 0))) (op (.s 4) (.ap 7) (kp 2) (.s 0)) c :=
  ⟨⟨rfl, _, _, rfl, by decide⟩, ⟨rfl, _, _, rfl, by decide⟩, rfl, _, _, rfl, trivial⟩

theorem witness_VectorIntegers : ∃ (i : Instr) (row : Row) (o : Op) (s : State) (c : Core) (x : Srcs) (t : ElemTy) (k : Nat)
    (f : Nat → Nat → Nat → Int), i.info = some (row, o) ∧ s.core.guardHolds o = true ∧ s.core.operands i = .ok (c, x) ∧
    elemTyOf i = some t ∧ i.typeOk = true ∧ t.isFloat = false ∧ ∀ a b d, integerElem i a b d = some (k, f a b d) :=
  ⟨.vadd .a .i8 (op (.v 9) (.v 1) (.v 2) (.s 0)), _, _, pkg base, _, _, _, _, _, rfl, rfl, rfl, rfl, rfl, rfl, fun _ _ _ => rfl⟩

theorem witness_VectorFloats : ∃ (i : Instr) (row : Row) (o : Op) (s : State) (c : Core) (x : Srcs) (t : ElemTy) (l : Option Nat)
    (f : Nat → Nat → Nat → Nat), i.info = some (row, o) ∧ s.core.guardHolds o = true ∧ s.core.operands i = .ok (c, x) ∧
    elemTyOf i = some t ∧ i.typeOk = true ∧ t.isFloat = true ∧ ∀ a b d, floatElem i a b d = some (l, f a b d) :=
  ⟨.vadd .a .f32 (op (.v 9) (.v 1) (.v 2) (.s 0)), _, _, pkg base, _, _, _, _, _, rfl, rfl, rfl, rfl, rfl, rfl, fun _ _ _ => rfl⟩

theorem witness_VectorConversions :
    let o := op (.v 9) (.v 1) (kp 5) (kp 0)
    let p := op (.v 9) (.v 1) (.v 2) (kp 0)
    let q := op (.v 9) (.v 1) (.v 2) (.v 3)
    (ready (.vcvt .a .f16 o) o base ∧ (Instr.vcvt .a .f16 o).typeOk = true) ∧
    (ready (.vqnt .a .i8 p) p base ∧ (Instr.vqnt .a .i8 p).typeOk = true) ∧
    (ready (.vdqnt .a .i8 q) q base ∧ (Instr.vdqnt .a .i8 q).typeOk = true) ∧
    (ready (.vdot4 .a .i8 q) q base ∧ (Instr.vdot4 .a .i8 q).typeOk = true) :=
  ⟨⟨⟨rfl, _, _, rfl, trivial⟩, rfl⟩, ⟨⟨rfl, _, _, rfl, trivial⟩, rfl⟩, ⟨⟨rfl, _, _, rfl, trivial⟩, rfl⟩, ⟨rfl, _, _, rfl, trivial⟩, rfl⟩

theorem witness_VectorMasks :
    let o := op (.m 1) (.v 1) (.v 2) (kp 5)
    let p := op (.m 1) (.m 0) (.m 2) (.s 0)
    let n := op (.m 1) (.m 0) (.s 0) (.s 0)
    let q := op (.s 1) (.m 0) (.s 0) (.s 0)
    let r := op (.eq 0) (.m 0) (.s 0) (.s 0)
    (ready (.vcmp .a .i8 o) o base ∧ (Instr.vcmp .a .i8 o).typeOk = true ∧ (Instr.vcmp .a .i8 o).selectorBad = none) ∧
    (ready (.vmand .a p) p base ∧ (Instr.vmand .a p).typeOk = true) ∧ (ready (.vmor .b p) p base ∧ (Instr.vmor .b p).typeOk = true) ∧
    (ready (.vmnot .a n) n base ∧ (Instr.vmnot .a n).typeOk = true) ∧
    ready (.vmpopc .a q) q base ∧ ready (.vmpopc .a r) r base ∧ ready (.vmfirst .a q) q base ∧ ready (.vmfirst .a r) r base :=
  ⟨⟨⟨rfl, _, _, rfl, trivial⟩, rfl, rfl⟩, ⟨⟨rfl, _, _, rfl, trivial⟩, rfl⟩, ⟨⟨rfl, _, _, rfl, trivial⟩, rfl⟩, ⟨⟨rfl, _, _, rfl, trivial⟩, rfl⟩,
    ⟨rfl, _, _, rfl, trivial⟩, ⟨rfl, _, _, rfl, trivial⟩, ⟨rfl, _, _, rfl, trivial⟩, rfl, _, _, rfl, trivial⟩

theorem witness_VectorBits :
    let o := op (.v 9) (.v 1) (.v 2) (.s 0)
    let n := op (.v 9) (.v 1) (.s 0) (.s 0)
    let q := op (.v 9) (.m 1) (.v 2) (.v 3)
    let b := op (.v 9) (.v 1) (.s 2) (.s 0)
    let g := op (.v 9) (.s 1) (.s 2) (.s 0)
    let runs (i : Instr) (o : Op) : Prop := ready i o base ∧ i.typeOk = true
    runs (.vand .a o) o ∧ runs (.vor .a o) o ∧ runs (.vxor .a o) o ∧ runs (.vandn .a o) o ∧ runs (.vnot .a n) n ∧ runs (.vmov .a n) n ∧
    runs (.vsel .a q) q ∧ runs (.vbcst .a .i8 b) b ∧ runs (.viota .a .i8 g) g :=
  ⟨⟨⟨rfl, _, _, rfl, trivial⟩, rfl⟩, ⟨⟨rfl, _, _, rfl, trivial⟩, rfl⟩, ⟨⟨rfl, _, _, rfl, trivial⟩, rfl⟩, ⟨⟨rfl, _, _, rfl, trivial⟩, rfl⟩,
    ⟨⟨rfl, _, _, rfl, trivial⟩, rfl⟩, ⟨⟨rfl, _, _, rfl, trivial⟩, rfl⟩, ⟨⟨rfl, _, _, rfl, trivial⟩, rfl⟩, ⟨⟨rfl, _, _, rfl, trivial⟩, rfl⟩,
    ⟨rfl, _, _, rfl, trivial⟩, rfl⟩

/-! ## Witnesses: the crossbar, the bench, the pool -/

/-- Vector register 2 holds in lane i the number i; vector register 3 zeros. -/
def lanes : Core := { base with vregs := base.vregs.set 2 (BitVec.ofNat 2048 (packElems 32 (List.range 64))) }

theorem witness_LaneMoves :
    (∃ (i : Instr) (row : Row) (o : Op) (s : State) (c : Core) (x : Srcs),
      i.info = some (row, o) ∧ s.core.guardHolds o = true ∧ s.core.operands i = .ok (c, x) ∧
      (laneRule i (srcLane o.op1 x.a) (srcLane o.op2 x.b) x.b.bits.toNat (fun k => x.b.bits.getLsbD (4 * k)) 0).isSome) ∧
    (∃ (o : Op) (s : State) (c : Core) (x : Srcs), s.core.guardHolds o = true ∧ s.core.operands (.xpermv o) = .ok (c, x) ∧
      let aims (i t : Nat) : Prop := i < 64 ∧ (srcLane o.op2 x.b i).testBit 31 = false ∧ srcLane o.op2 x.b i % 64 = t
      (∀ i j t, aims i t → aims j t → i = j) ∧ aims 63 63) ∧
    (∃ (o : Op) (s : State) (c : Core) (x : Srcs), s.core.guardHolds o = true ∧ s.core.operands (.xpermv o) = .ok (c, x) ∧
      let aims (i t : Nat) : Prop := i < 64 ∧ (srcLane o.op2 x.b i).testBit 31 = false ∧ srcLane o.op2 x.b i % 64 = t
      aims 0 0 ∧ aims 1 0 ∧ (∀ k, aims k 0 → k < 1 → k = 0) ∧ ∀ t' k l, t' < 0 → aims k t' → aims l t' → k = l) := by
  refine ⟨⟨.xperm (op (.v 9) (.v 1) (.v 2) (.s 0)), _, _, pkg lanes, _, _, rfl, rfl, rfl, rfl⟩,
    ⟨op (.v 9) (.v 1) (.v 2) (.s 0), pkg lanes, _, _, rfl, rfl, ?_⟩, ⟨op (.v 9) (.v 1) (.v 3) (.s 0), pkg lanes, _, _, rfl, rfl, ?_⟩⟩
  · have h : ∀ i, i < 64 → srcLane (.v 2) (.vec ((pkg lanes).core.getV 2)) i % 64 = i := by decide +kernel
    refine ⟨fun i j t hi hj => ?_, by decide +kernel⟩
    have := h i hi.1
    have := h j hj.1
    have := hi.2.2
    have := hj.2.2
    simp only [op] at *
    omega
  · exact ⟨by decide +kernel, by decide +kernel, fun k _ h => by omega, fun t' _ _ h => absurd h (Nat.not_lt_zero t')⟩

theorem witness_Reductions :
    let o := op (.v 9) (.v 1) (kp 1) (.s 0)
    let p := op (.s 9) (.v 1) (kp 1) (.s 0)
    TyClass.iF.has .i8 = true ∧
    (ready (.xred .i8 p) p base ∧ (Instr.xred .i8 p).selectorBad = none) ∧ (ready (.xred .i8 o) o base ∧ (Instr.xred .i8 o).selectorBad = none) ∧
    (ready (.xscan .i8 o) o base ∧ (Instr.xscan .i8 o).selectorBad = none) ∧
    (ready (.xgmax .i8 o) o base ∧ (Instr.xgmax .i8 o).selectorBad = none) ∧
    (ready (.xgmin .i8 o) o base ∧ (Instr.xgmin .i8 o).selectorBad = none) :=
  ⟨rfl, ⟨⟨rfl, _, _, rfl, trivial⟩, rfl⟩, ⟨⟨rfl, _, _, rfl, trivial⟩, rfl⟩, ⟨⟨rfl, _, _, rfl, trivial⟩, rfl⟩, ⟨⟨rfl, _, _, rfl, trivial⟩, rfl⟩,
    ⟨rfl, _, _, rfl, trivial⟩, rfl⟩

/-- Parts 15 and 16 of a pattern; pattern 7. -/
theorem witness_BitNetwork :
    let c : Core := { base with sregs := (base.sregs.set 1 15).set 2 16 }
    let o := op (.s 0) (kp 7) (.s 1) (.v 3)
    let p := op (.s 0) (kp 7) (.s 2) (.v 3)
    let n := op (.v 9) (.v 1) (.v 2) (kp 7)
    ready (.xbnld o) o c (fun _ x => x.b.toWord.toNat ≤ 15) ∧ ready (.xbnld p) p c (fun _ x => 15 < x.b.toWord.toNat) ∧
    ready (.xbnet n) n c (fun _ x => x.c.toWord.toNat = 7) :=
  ⟨⟨rfl, _, _, rfl, by decide⟩, ⟨rfl, _, _, rfl, by decide⟩, rfl, _, _, rfl, by decide⟩

/-- A core with four bench queues of 64 entries, the first empty, the second with one entry. -/
def benched : Core := { base with partition := 256, bench := base.bench.set 1 ⟨63, [1]⟩ }

/-- 64 lanes fill the first queue and do not fit into the second; the last four registers take a drain. -/
theorem witness_BenchQueues :
    let o := op (.s 0) (kp 0) (.m 0) (.v 12)
    let p := op (.s 0) (kp 1) (.m 0) (.v 12)
    let d := op (.v 12) (kp 1) (.s 0) (.s 0)
    let e := op (.s 9) (kp 1) (.s 0) (.s 0)
    let f := op (.eq 1) (kp 1) (.s 0) (.s 0)
    let z := op (.s 0) (kp 1) (.s 0) (.s 0)
    let sel (x : Srcs) : List Nat := (List.range 64).filter fun i => x.b.bits.getLsbD (4 * i)
    ready (.xbench o) o benched (fun c x => c.bench[0].entries.length + (sel x).length = 64 * c.benchD ∧ c.latent = [] ∧ ∀ k, c.clean k) ∧
    ready (.xbench p) p benched (fun c x => 64 * c.benchD < c.bench[1].entries.length + (sel x).length) ∧
    ready (.xdrain d) d benched (fun c _ => (∀ k, c.clean k) ∧ ∀ r, r < 4 → c.isEmpty (.v (12 + r)) = false) ∧
    ready (.xbcnt e) e benched ∧ ready (.xbcnt f) f benched ∧ ready (.xbclr z) z benched :=
  ⟨⟨rfl, _, _, rfl, by decide +kernel, rfl, fun k => clean_of _ k rfl rfl⟩, ⟨rfl, _, _, rfl, by decide +kernel⟩,
    ⟨rfl, _, _, rfl, fun k => clean_of _ k rfl rfl, by decide +kernel⟩, ⟨rfl, _, _, rfl, trivial⟩, ⟨rfl, _, _, rfl, trivial⟩, rfl, _, _, rfl, trivial⟩

/-- Scalar register 1 holds the offset of the last 256 bytes of the scratchpad, 2 that of its last 8. -/
def atEnd : Core := { base with
  sregs := (base.sregs.set 1 (BitVec.ofNat 64 (base.scratchSize - 256))).set 2 (BitVec.ofNat 64 (base.scratchSize - 8)) }

theorem witness_PoolLoads : ∃ (i : Instr) (row : Row) (o : Op) (s : State) (c : Core) (x : Srcs),
    (i = .ldv o ∨ i = .ldvt o ∨ i = .ldvu o ∨ i = .ldvm o ∨ i = .ldm o) ∧
    i.info = some (row, o) ∧ s.core.guardHolds o = true ∧ s.core.sources i = .ok (c, x) ∧
    transferAlign i ∣ c.adOffset o.op1 x.a ∧
    ∀ k d, transferMap i (fun k => x.b.bits.getLsbD k) k = some d → 0 ≤ c.adOffset o.op1 x.a + d ∧
      c.adOffset o.op1 x.a + d < c.scratchSize ∧ c.clean (c.adOffset o.op1 x.a + d).toNat := by
  refine ⟨.ldv (op (.v 9) (.s 1) (.s 0) (.s 0)), _, _, pkg atEnd, _, _, .inl rfl, rfl, rfl, rfl, by decide +kernel, fun k d h => ?_⟩
  have hk : d < 256 := by
    simp only [transferMap] at h
    split at h
    · cases h; assumption
    · cases h
  refine ⟨?_, ?_, clean_of _ _ rfl rfl⟩
  · have : (0 : Int) ≤ Core.adOffset atEnd (.s 1) (.word (atEnd.getS 1)) := by decide +kernel
    simp only [op, pkg] at *; omega
  · have : Core.adOffset atEnd (.s 1) (.word (atEnd.getS 1)) + 256 = atEnd.scratchSize := by decide +kernel
    simp only [op, pkg] at *; omega

theorem witness_PoolStores : ∃ (i : Instr) (row : Row) (o : Op) (s : State) (c : Core) (x : Srcs),
    (i = .stv o ∨ i = .stvt o ∨ i = .stvb o ∨ i = .stm o) ∧
    i.info = some (row, o) ∧ s.core.guardHolds o = true ∧ s.core.sources i = .ok (c, x) ∧ c.checkSources i = .ok () ∧
    c.arr.region = none ∧ transferAlign i ∣ c.adOffset o.op1 x.a ∧
    (∀ k d, transferMap i (fun k => x.c.bits.getLsbD k) k = some d → 0 ≤ c.adOffset o.op1 x.a + d ∧
      c.adOffset o.op1 x.a + d < c.scratchSize) ∧
    c.mayWrite (fun p => ∃ k d, transferMap i (fun k => x.c.bits.getLsbD k) k = some d ∧ (p : Int) = c.adOffset o.op1 x.a + d) := by
  refine ⟨.stv (op (.s 0) (.s 1) (.v 9) (.s 0)), _, _, pkg atEnd, _, _, .inl rfl, rfl, rfl, rfl, rfl, rfl, by decide +kernel,
    fun k d h => ?_, mayWrite_of _ _ rfl rfl⟩
  have hk : d < 256 := by
    simp only [transferMap] at h
    split at h
    · cases h; assumption
    · cases h
  constructor
  · have : (0 : Int) ≤ Core.adOffset atEnd (.s 1) (.word (atEnd.getS 1)) := by decide +kernel
    simp only [op, pkg] at *; omega
  · have : Core.adOffset atEnd (.s 1) (.word (atEnd.getS 1)) + 256 = atEnd.scratchSize := by decide +kernel
    simp only [op, pkg] at *; omega

/-- The last eight bytes. -/
theorem witness_PoolScalars :
    let l := op (.s 9) (.s 2) (kp 3) (.s 0)
    let t := op (.s 0) (.s 2) (.s 9) (kp 3)
    let fits (c : Core) (x : Srcs) : Prop := 0 ≤ c.adOffset (.s 2) x.a ∧ (c.adOffset (.s 2) x.a).toNat % 8 = 0 ∧
      (c.adOffset (.s 2) x.a).toNat + 8 = c.scratchSize
    readyLm (.lds l) l atEnd (fun c x => fits c x ∧ 2 ^ (x.b.toWord.toNat % 4) = 8 ∧ ∀ k, c.clean k) ∧
    readyLm (.sts t) t atEnd (fun c x => fits c x ∧ 2 ^ (x.c.toWord.toNat % 4) = 8 ∧ c.arr.region = none ∧ ∀ P, c.mayWrite P) :=
  ⟨⟨rfl, _, _, rfl, by decide +kernel, by decide +kernel, fun k => clean_of _ k rfl rfl⟩,
    rfl, _, _, rfl, by decide +kernel, by decide +kernel, rfl, fun _ => mayWrite_of _ _ rfl rfl⟩

theorem witness_PoolAtomics :
    let a := op (.s 9) (.s 2) (.s 3) (kp 8)
    let b := op (.s 9) (.s 2) (.s 3) (.s 4)
    let fits (c : Core) (x : Srcs) : Prop := 0 ≤ c.adOffset (.s 2) x.a ∧ (c.adOffset (.s 2) x.a).toNat % 8 = 0 ∧
      (c.adOffset (.s 2) x.a).toNat + 8 = c.scratchSize ∧ c.latent = [] ∧ c.arr.region = none
    readyLm (.atoml a) a atEnd (fun c x => fits c x ∧ ∀ k, c.clean k) ∧
    readyLm (.casl b) b atEnd (fun c x => fits c x ∧ ∀ k, c.clean k) :=
  ⟨⟨rfl, _, _, rfl, by decide +kernel, fun k => clean_of _ k rfl rfl⟩, rfl, _, _, rfl, by decide +kernel, fun k => clean_of _ k rfl rfl⟩

/-! ## Witnesses: stages, generic accesses, the matrix array -/

/-- A stage at 64 whose next full arrival completes its phase, one at 96 that lacks two; scalar register 1 holds 64, 2 holds 96,
3 a count word of SINIT, 4 the phase 1, 5 the last stage's offset. -/
def staged : Core :=
  let scratch := (base.scratch.store 64 32 (StageRec.encode ⟨2, 2, 1, 1, false, false, 5, false⟩)).store 96 32
    (StageRec.encode ⟨3, 3, 1, 1, false, false, 5, false⟩)
  let sregs := (((base.sregs.set 1 64).set 2 96).set 3 0x00020003).set 4 1
  { base with scratch := scratch, sregs := sregs.set 5 (BitVec.ofNat 64 (base.scratchSize - 32)) }

abbrev stageFits (p : Port) (c : Core) (x : Srcs) : Prop :=
  0 ≤ c.adOffset p x.a ∧ (c.adOffset p x.a).toNat % 32 = 0 ∧ (c.adOffset p x.a).toNat + 32 ≤ c.scratchSize ∧ c.latent = []

/-- A stage at each of two offsets, and a SINIT of the last record of the scratchpad. -/
theorem witness_StagesAndQueries :
    let rcd (p : Port) (c : Core) (x : Srcs) : StageRec := StageRec.of (c.scrValue (c.adOffset p x.a).toNat 32)
    let stage (p : Port) (c : Core) (x : Srcs) : Prop := stageFits p c x ∧ c.clean (c.adOffset p x.a).toNat ∧
      (rcd p c x).fexp ≠ 0 ∧ (rcd p c x).eexp ≠ 0 ∧ (rcd p c x).reserved = false
    let i := op (.s 0) (.s 5) (.s 3) (.s 0)
    let f := op (.s 0) (.s 1) (.s 0) (.s 0)
    let g := op (.s 0) (.s 2) (.s 0) (.s 0)
    let w := op (.s 0) (.s 1) (.s 4) (.s 0)
    let fe : Op := { f with mod := true }
    let we : Op := { w with mod := true }
    readyLm (.sinit i) i staged (fun c x => stageFits (.s 5) c x ∧ c.clean (c.adOffset (.s 5) x.a).toNat ∧ c.arr.region = none ∧
      x.b.toWord.toNat % 2 ^ 16 ≠ 0 ∧ x.b.toWord.toNat / 2 ^ 16 ≠ 0 ∧ x.b.toWord.toNat < 2 ^ 32) ∧
    readyLm (.sarr f) f staged (fun c x => stage (.s 1) c x ∧ (rcd (.s 1) c x).fcnt + 1 = (rcd (.s 1) c x).fexp ∧ c.arr.region = none) ∧
    readyLm (.sarr g) g staged (fun c x => stage (.s 2) c x ∧ (rcd (.s 2) c x).fcnt + 1 ≠ (rcd (.s 2) c x).fexp ∧ c.arr.region = none) ∧
    readyLm (.sarrEmpty fe) fe staged (fun c x => stage (.s 1) c x ∧ c.arr.region = none) ∧
    readyLm (.swait w) w staged (fun c x => stage (.s 1) c x ∧ (rcd (.s 1) c x).fph ≠ x.b.toWord.getLsbD 0) ∧
    readyLm (.swaitEmpty we) we staged (fun c x => stage (.s 1) c x ∧ (rcd (.s 1) c x).eph ≠ x.b.toWord.getLsbD 0) :=
  ⟨⟨rfl, _, _, rfl, by decide +kernel, clean_of _ _ rfl rfl, rfl, by decide +kernel, by decide +kernel, by decide +kernel⟩,
    ⟨rfl, _, _, rfl, ⟨by decide +kernel, clean_of _ _ rfl rfl, by decide +kernel⟩, by decide +kernel, rfl⟩,
    ⟨rfl, _, _, rfl, ⟨by decide +kernel, clean_of _ _ rfl rfl, by decide +kernel⟩, by decide +kernel, rfl⟩,
    ⟨rfl, _, _, rfl, ⟨by decide +kernel, clean_of _ _ rfl rfl, by decide +kernel⟩, rfl⟩,
    ⟨rfl, _, _, rfl, ⟨by decide +kernel, clean_of _ _ rfl rfl, by decide +kernel⟩, by decide +kernel⟩,
    rfl, _, _, rfl, ⟨by decide +kernel, clean_of _ _ rfl rfl, by decide +kernel⟩, by decide +kernel⟩

theorem witness_StagesAndQueries' :
    let p := op (.s 0) (kp 3) (.s 0) (.s 0)
    let b := op (.s 9) (kp 11) (.s 0) (.s 0)
    let l := op (.s 0) (.s 1) (.s 0) (.s 0)
    let z := op (.s 0) (.s 0) (.s 0) (.s 0)
    let n : Op := { z with mod := true }
    readyLm (.swaitPtr p) p base (fun c x => x.a.toWord.toNat = 3 ∧ x.b.toWord.toNat ≤ (c.chans[3]).ptr.toNat) ∧
    readyLm (.bankq b) b base (fun c x => x.a.toWord.toNat = 11 ∧ c.groups[11].state < 4 ∧ c.groups[11].dbank < 256 ∧
      c.groups[11].entries.length < 2 ^ 16) ∧
    readyLm (.pldl l) l base ∧ readyLm (.flushl1 z) z base (fun c _ => c.arr.region = none) ∧
    readyLm (.flushl1Inv n) n base (fun c _ => c.arr.region = none) :=
  ⟨⟨rfl, _, _, rfl, by decide +kernel, by decide +kernel⟩, ⟨rfl, _, _, rfl, by decide +kernel, by decide +kernel⟩,
    ⟨rfl, _, _, rfl, trivial⟩, ⟨rfl, _, _, rfl, rfl⟩, rfl, _, _, rfl, rfl⟩

/-- Scalar register 1 points to byte 0 of window 1, 2 to the last eight bytes of the scratchpad. -/
def windowed : Core := { base with
  sregs := (base.sregs.set 1 (BitVec.ofNat 64 (2 ^ 60))).set 2 (BitVec.ofNat 64 (2 ^ 60 + base.scratchSize - 8)) }

theorem witness_GenericPool :
    let l := op (.s 9) (.s 2) (kp 3) (.s 0)
    let t := op (.s 0) (.s 2) (.s 9) (kp 3)
    let a := op (.s 9) (.s 2) (.s 3) (kp 8)
    let b := op (.s 9) (.s 1) (.s 3) (.s 4)
    let fits (c : Core) (x : Srcs) : Prop := (x.a.toWord.toNat / 2 ^ 60 = 1 ∧ x.a.toWord.toNat % 2 ^ 60 + 8 ≤ c.scratchSize ∧
      x.a.toWord.toNat % 2 ^ 60 % 8 = 0 ∧ c.latent = []) ∧ c.arr.region = none ∧ ∀ k, c.clean k
    (pkg windowed).ownLoss 1 = false ∧ readyLm (.ldg l) l windowed fits ∧ readyLm (.stg t) t windowed fits ∧
    readyLm (.atomg a) a windowed fits ∧ readyLm (.casg b) b windowed fits :=
  ⟨rfl, ⟨rfl, _, _, rfl, by decide +kernel, rfl, fun k => clean_of _ k rfl rfl⟩, ⟨rfl, _, _, rfl, by decide +kernel, rfl, fun k => clean_of _ k rfl rfl⟩,
    ⟨rfl, _, _, rfl, by decide +kernel, rfl, fun k => clean_of _ k rfl rfl⟩, rfl, _, _, rfl, by decide +kernel, rfl, fun k => clean_of _ k rfl rfl⟩

/-- A core of a cluster whose second core runs a task of the same context; scalar register 2 points to the last eight bytes of that core's
scratchpad. -/
def neighbour : Core := { Core.reset 1 with run := .running, ctx := 1 }

def clustered : Core := { base with sregs := base.sregs.set 2 (BitVec.ofNat 64 (2 ^ 61 + 2 ^ 48 + base.scratchSize - 8)) }

theorem witness_GenericPool_cluster :
    let s : State := { pkg clustered with others := [neighbour] }
    let l := op (.s 9) (.s 2) (kp 3) (.s 0)
    let t := op (.s 0) (.s 2) (.s 9) (kp 3)
    let a := op (.s 9) (.s 2) (.s 3) (kp 8)
    let b := op (.s 9) (.s 2) (.s 3) (.s 4)
    let fits (c : Core) (x : Srcs) : Prop :=
      let p := x.a.toWord.toNat
      (p / 2 ^ 60 = 2 ∧ p / 2 ^ 20 % 2 ^ 28 = 0 ∧ p / 2 ^ 52 % 2 ^ 8 = 0 ∧ p % 2 ^ 20 + 8 ≤ 2 ^ 20 ∧
        c.kid / 16 * 16 + p / 2 ^ 48 % 2 ^ 4 = 1 ∧ p % 8 = 0 ∧ p % 2 ^ 20 + 8 = (s.coreAt 1).scratchSize) ∧ c.arr.region = none
    ((s.coreAt 1).runs 1 = true ∧ (s.coreAt 1).ctx = 1 ∧ (s.coreAt 1).races = [] ∧ (s.coreAt 1).latent = [] ∧ inCores 1 = true) ∧
    (∀ k, (s.coreAt 1).clean k) ∧ s.ownLoss 1 = false ∧ readyLm (.ldg l) l clustered fits ∧ readyLm (.stg t) t clustered fits ∧
    readyLm (.atomg a) a clustered fits ∧ readyLm (.casg b) b clustered fits :=
  ⟨⟨rfl, rfl, rfl, rfl, rfl⟩, fun k => clean_of _ k rfl rfl, rfl, ⟨rfl, _, _, rfl, by decide +kernel, rfl⟩, ⟨rfl, _, _, rfl, by decide +kernel, rfl⟩,
    ⟨rfl, _, _, rfl, by decide +kernel, rfl⟩, rfl, _, _, rfl, by decide +kernel, rfl⟩

/-- What `MemState.plain` asks, as a test. -/
def plainly (m : MemState) (ts : List Target) : Bool :=
  (m.hbmErr.isEmpty && m.flashErr.isEmpty && m.flashMet.isEmpty && m.races.isEmpty && decide (m.llc.length + 8 ≤ llcSectors)) &&
  ((m.llc.all (·.err == 0) && m.chans.isEmpty) && decide (ts.map fun t => (t.kind, t.addr)).Nodup) &&
  ts.all fun t => (!m.badAt t && t.kind == 0) && (match m.sector? t.kind (t.addr / 32) with | some x => x.key == t.key | none => true) &&
    ts.all (·.key == t.key)

theorem plain_of {m : MemState} {ts : List Target} (h : plainly m ts = true) : m.plain ts := by
  simp only [plainly, Bool.and_eq_true, List.isEmpty_iff, decide_eq_true_eq, List.all_eq_true, beq_iff_eq, Bool.not_eq_true'] at h
  obtain ⟨⟨⟨⟨⟨⟨a, b⟩, c⟩, d⟩, e⟩, ⟨f, g⟩, n⟩, k⟩ := h
  refine ⟨⟨a, b, c, f, by simp [g]⟩, e, d, n, fun t ht => ?_⟩
  obtain ⟨⟨⟨k1, k2⟩, k3⟩, k4⟩ := k t ht
  exact ⟨k1, fun h => by omega, fun x hx => by rw [hx] at k3; exact beq_iff_eq.mp k3, fun u hu _ => (k4 u hu).symm⟩

/-- Does a pointer of context 1 lead to eight good bytes of memory? -/
def leadsPlain (s : State) (p : Word) (acc : Access) : Bool :=
  gives (s.resolve 0 1 p 8 acc) fun w r => match w.peerRange r acc with
    | (u, .mem ts) => ts.length == 8 && plainly u.mem ts && !u.ownLoss 1
    | _ => false

theorem leads_of {s : State} {p : Word} {acc : Access} (h : leadsPlain s p acc = true) : ∃ s1 s2 r ts,
    s.resolve 0 1 p 8 acc = (s1, .ok r) ∧ s1.peerRange r acc = (s2, .mem ts) ∧ ts.length = 8 ∧ s2.mem.plain ts ∧ s2.ownLoss 1 = false := by
  obtain ⟨w, r, e, q⟩ := ok_of h
  split at q
  · rename_i u ts e'
    simp only [Bool.and_eq_true, beq_iff_eq, Bool.not_eq_true'] at q
    exact ⟨w, u, r, ts, e, e', q.1.1, plain_of q.1.2, q.2⟩
  · cases q

/-- The package with this one's aperture open at rank 0 and package 3 in reach. -/
def peering (c : Core) : State := { world c with
  host := { HostState.reset with peerEn := true, peerCtx := 1, xsize := 1, ports := 1, npkg := 3, txcred := 4 } }

/-- Eight bytes of page 0, reached by its address and through the own aperture; an unmapped page, met at once or by the fifth byte of an
access; a pointer into package 3. -/
theorem witness_GenericPool_memory :
    (∀ acc ∈ [Access.read, .write, .atomic], ∃ s1 s2 r ts, (world base).resolve 0 1 0x58 8 acc = (s1, .ok r) ∧
      s1.peerRange r acc = (s2, .mem ts) ∧ ts.length = 8 ∧ s2.mem.plain ts ∧ s2.ownLoss 1 = false) ∧
    (∃ s1 s2 r ts, (peering base).resolve 0 1 (BitVec.ofNat 64 (5 * 2 ^ 60 + 0x58)) 8 .read = (s1, .ok r) ∧
      s1.peerRange r .read = (s2, .mem ts) ∧ ts.length = 8 ∧ s2.mem.plain ts ∧ s2.ownLoss 1 = false) ∧
    (∃ u l s1, (world base).placeBytes 0 1 .read 0xFFFC 4 = (u, .ok l) ∧ u.placeByte 0 1 0x10000 .read = (s1, .error 0x09) ∧
      s1.ownLoss 1 = false) ∧
    (let s := peering base
     let p := 5 * 2 ^ 60 + 3 * 2 ^ 48 + 2 ^ 30 - 8
     p / 2 ^ 60 = 5 ∧ p / 2 ^ 57 % 2 ^ 3 = 0 ∧ p % 2 ^ 48 + 8 ≤ min (2 ^ 48) (s.host.xsize * 2 ^ 30) ∧ s.host.peerEn = true ∧
      p / 2 ^ 48 % 2 ^ 9 ≤ s.host.npkg ∧ s.outstanding 3 < s.host.txcred ∧ 3 ≠ s.host.rank ∧ base.peerStores = []) := by
  refine ⟨fun acc h => leads_of ?_, leads_of (by decide +kernel), ?_, by decide +kernel⟩
  · simp only [List.mem_cons, List.not_mem_nil, or_false] at h
    rcases h with rfl | rfl | rfl <;> decide +kernel
  · obtain ⟨u, l, e, h⟩ := ok_of (r := (world base).placeBytes 0 1 .read 0xFFFC 4)
      (p := fun (u : State) _ => fails (u.placeByte 0 1 0x10000 .read) fun w c => c == 0x09 && !w.ownLoss 1) (by decide +kernel)
    obtain ⟨w, c, e', h'⟩ := error_of h
    simp only [Bool.and_eq_true, beq_iff_eq, Bool.not_eq_true'] at h'
    exact ⟨u, l, w, e, by rw [e', h'.1], h'.2⟩

/-- A core with four tiles, an array of pair p, and perhaps a region of tile 3. -/
def mxCore (p : Nat) (r : Option Region) : Core :=
  { staged with partition := 16, arr := { MxArray.zero with pair := p, region := r }, aps := staged.aps.set 1 (BitVec.ofNat 192 64) }

def rgn : Region := ⟨3, 0x1000, 0, [], 0, false, [], none⟩

theorem takes_of (s : State) (n : Nat) (h : ∀ r, s.core.arr.region = some r → r.log = none) : s.takesItem n :=
  fun r l hr hl => by rw [h r hr] at hl; cases hl

/-- A region with a log; the audit area of 64 KiB holds another log of n bytes. -/
def logged (n : Nat) : State :=
  { pkg (mxCore 5 (some { rgn with log := some (List.replicate 8 ⟨4, 0, 0, 0, 0⟩) })) with
    rel := { RelState.reset with audsize := 1, logs := [⟨0, 0, n, ⟨0, 0, true, false, 0, 0, []⟩, none, false⟩] } }

theorem witness_logs :
    (∀ n ≤ 256, ∀ i : Fin 6, (pkg (mxCore i (some rgn))).takesItem n) ∧ (logged 64).takesItem 256 ∧
    ∃ r l, (logged 65408).core.arr.region = some r ∧ r.log = some l ∧ (logged 65408).auditLeft l < logSpace (logLength l + 8) ∧
      (logged 65408).auditTaken ≤ (logged 65408).auditSize ∧ logLength l + 8 ≤ (logged 65408).auditSize :=
  ⟨fun n _ i => takes_of _ n fun r h => by injection h with h; subst h; rfl,
    fun r l hr hl => by injection hr with hr; subst hr; injection hl with hl; subst hl; decide +kernel,
    _, _, rfl, rfl, by decide +kernel, by decide +kernel, by decide +kernel⟩

theorem witness_MatrixSetup :
    let f := op (.s 0) (kp 5) (.s 0) (.s 0)
    let sc := op (.s 0) (.s 1) (.s 0) (.s 0)
    let z := op (.z 3) (.s 0) (.s 0) (.s 0)
    let za : Op := { op (.z 3) (.s 0) (.s 0) (.s 0) with mod := true }
    let b := op (.s 0) (.v 1) (.s 1) (.s 0)
    let bm : Op := { op (.s 0) (.ap 1) (.s 0) (.s 0) with mod := true }
    readyLm (.mxcfg f) f (mxCore 15 none) (fun c _ => c.arr.region = none ∧ c.arr.events = []) ∧
    readyLm (.mxscale sc) sc (mxCore 15 none) ∧ readyLm (.mxzero z) z (mxCore 15 none) ∧
    readyLm (.mxzeroAll za) za (mxCore 15 none) (fun c _ => c.arr.region = none) ∧
    readyLm (.mxshift z) z (mxCore 2 (some rgn)) (fun c _ => c.arr.pair ≠ 15 ∧ ∀ r, c.arr.region = some r → r.tile = 3) ∧
    readyLm (.mxldb b) b (mxCore 5 (some rgn)) (fun c x => c.checkSources (.mxldb b) = .ok () ∧ x.b.toWord.toNat = 64 ∧
      ∀ r, c.arr.region = some r → r.active ≠ !c.arr.active) ∧
    readyLm (.mxldb bm) bm (mxCore 0 (some rgn)) (fun c x => c.checkSources (.mxldb bm) = .ok () ∧ (x.b.toWord.toNat < pairKB 0 ∧
        0 ≤ c.adOffset (.ap 1) x.a ∧ (c.adOffset (.ap 1) x.a).toNat % 32 = 0 ∧
        (c.adOffset (.ap 1) x.a).toNat + pairRowBytes 0 ≤ c.scratchSize) ∧ adScalar (.ap 1) = false ∧ ∀ k, c.clean k) :=
  ⟨⟨rfl, _, _, rfl, rfl, rfl⟩, ⟨rfl, _, _, rfl, trivial⟩, ⟨rfl, _, _, rfl, trivial⟩, ⟨rfl, _, _, rfl, rfl⟩,
    ⟨rfl, _, _, rfl, by decide +kernel, fun r h => by injection h with h; subst h; rfl⟩,
    ⟨rfl, _, _, rfl, rfl, by decide +kernel, fun r h => by injection h with h; subst h; decide +kernel⟩,
    rfl, _, _, rfl, rfl, by decide +kernel, rfl, fun k => clean_of _ k rfl rfl⟩

/-- Pushes of a vector and, in a pair with two A rows in a tile row, of row 127 of tile 2. -/
theorem witness_MatrixPush :
    let p := op (.z 3) (.v 1) (.s 0) (.s 0)
    let q := op (.z 3) .zacc (.z 2) (.s 5)
    let c (n : Nat) : Core := { mxCore n (some rgn) with sregs := staged.sregs.set 5 127 }
    readyLm (.mxpush p) p (c 4) (fun d _ => d.openOn 3 ∧ d.inTurn 3 ∧ d.checkSources (.mxpush p) = .ok ()) ∧
    readyLm (.mxpushz q) q (c 2) (fun d x => d.openOn 3 ∧ d.inTurn 3 ∧ x.c.toWord.toNat = 127 ∧ ∀ k, d.clean k) :=
  ⟨⟨rfl, _, _, rfl, ⟨by decide, rgn, rfl, rfl⟩, fun _ h => absurd h (by decide +kernel), rfl⟩,
    rfl, _, _, rfl, ⟨by decide, rgn, rfl, rfl⟩, fun _ h => absurd h (by decide +kernel), by decide +kernel, fun k => clean_of _ k rfl rfl⟩

theorem witness_BeatsAndAccumulatorEvents :
    (∃ (p : Nat) (a : List Nat), p ≤ 1 ∧ a.length = pairKB p ∧ ∀ y ∈ a, y < 2 ^ pairABits p) ∧
    ∃ (c : Core) (e : AccEvent) (z : Fin 8), e.tile = z.val ∧ c.latent = [] ∧ c.poison = [] ∧ e.act = .push 63 true [0] :=
  ⟨⟨1, List.replicate 128 3, by decide, List.length_replicate, fun y h => by rw [List.eq_of_mem_replicate h]; decide⟩, base, ⟨0, 7, .push 63 true [0], true, 0⟩, 7, rfl, rfl, rfl, rfl⟩

/-- The groups of the metadata row: two of 32, one of 64, and the halves of one of 128. -/
theorem witness_BeatsAndAccumulatorEvents_grouped :
    let b (size half : Nat) : BBuf := { BBuf.zero with zeros := BitVec.ofNat 2048 (2 ^ 1024 * (size + 2 ^ 8 * half)) }
    ∀ x ∈ [(0, 0), (1, 0), (2, 0), (2, 1)], elem 8 (b x.1 x.2).zeros.toNat 128 = x.1 ∧ elem 8 (b x.1 x.2).zeros.toNat 129 = x.2 := by
  decide +kernel

theorem witness_RegionsAndReads :
    let z := op (.z 3) (.s 0) (.s 0) (.s 0)
    let st := op (.s 0) (.ap 1) (.s 0) (.s 0)
    let d (n : Fin 64) := op (.v 9) (.z 3) (.s n) (.s 0)
    let q := op (.s 9) (kp 1) (.s 0) (.s 0)
    let c : Core := { mxCore 0 none with sregs := staged.sregs.set 5 63 }
    readyLm (.mxopen z) z (mxCore 0 none) (fun c _ => c.arr.region = none ∧ c.arr.pair ≠ 15 ∧ c.arr.abandoned = none) ∧
    refSelects (pkg (mxCore 0 none)).refCfg false (refStep (mxCore 0 none).refState) = false ∧
    readyLm (.mxcommit z) z (mxCore 0 (some rgn)) (fun c _ => c.arr.region = some rgn ∧ rgn.tile = 3 ∧ c.arr.carry = []) ∧
    readyLm (.mxstage st) st (mxCore 0 (some rgn)) (fun c x => c.arr.region = some rgn ∧ adScalar (.ap 1) = false ∧ rgn.bindings.length < 4 ∧
      (∀ b ∈ rgn.bindings, b.off ≠ (c.adOffset (.ap 1) x.a).toNat) ∧ stageFits (.ap 1) c x ∧ c.clean (c.adOffset (.ap 1) x.a).toNat ∧
      (let y := StageRec.of (c.scrValue (c.adOffset (.ap 1) x.a).toNat 32); y.fexp ≠ 0 ∧ y.eexp ≠ 0 ∧ y.reserved = false)) ∧
    readyLm (.mxdrain (d 5)) (d 5) c (fun c x => x.b.toWord.toNat = 63 ∧ ∀ k, c.clean k) ∧
    readyLm (.mxq q) q c :=
  ⟨⟨rfl, _, _, rfl, rfl, by decide +kernel, rfl⟩, rfl, ⟨rfl, _, _, rfl, rfl, rfl, rfl⟩,
    ⟨rfl, _, _, rfl, rfl, rfl, by decide, nofun, by decide +kernel, clean_of _ _ rfl rfl, by decide +kernel⟩,
    ⟨rfl, _, _, rfl, by decide +kernel, fun k => clean_of _ k rfl rfl⟩, rfl, _, _, rfl, trivial⟩

/-! ## Witnesses: commands and control -/

/-- A copy descriptor at 64 that breaks no rule: dimensions 1, the rest zero; scalar register 1 holds its offset, 2 points to it
in window 1. -/
def described : Core :=
  let one : List Byte := leBytes 16 (1 + 2 ^ 32 + 2 ^ 64 + 2 ^ 96)
  { base with scratch := base.scratch.putN (64 + 0x30) one, sregs := (base.sregs.set 1 64).set 2 (BitVec.ofNat 64 (2 ^ 60 + 64)) }

theorem witness_CopyCommands :
    let meets (k : CmdKind) (c : Core) (x : Srcs) : Prop := (c.kernel.pre = false ∧ (k = .pfl ∨ c.arr.region = none)) ∧ x.a.toWord.toNat % 64 = 0 ∧
      x.a.toWord.toNat + 128 ≤ c.scratchSize ∧ pointsTo [0, 1, 2] 8 (if k = .pfl then 0 else x.b.toWord) ∧
      descFault k (c.scrBytes x.a.toWord.toNat 128) = none ∧ (∀ j, j < 128 → c.clean (x.a.toWord.toNat + j)) ∧ c.hasEntry k
    let o := op (.s 0) (.s 1) (.s 2) (.s 0)
    let p := op (.s 0) (.s 1) (.s 0) (.s 0)
    readyLm (.cpy o) o described (meets .cpy) ∧ readyLm (.cpyr o) o described (meets .cpyr) ∧ readyLm (.pfl p) p described (meets .pfl) :=
  ⟨⟨rfl, _, _, rfl, ⟨rfl, .inr rfl⟩, by decide +kernel, by decide +kernel, ⟨by decide +kernel, by decide +kernel⟩, by decide +kernel,
      fun _ _ => clean_of _ _ rfl rfl, by show _ < _; decide +kernel⟩,
    ⟨rfl, _, _, rfl, ⟨rfl, .inr rfl⟩, by decide +kernel, by decide +kernel, ⟨by decide +kernel, by decide +kernel⟩, by decide +kernel,
      fun _ _ => clean_of _ _ rfl rfl, by show _ < _; decide +kernel⟩,
    rfl, _, _, rfl, ⟨rfl, .inl rfl⟩, by decide +kernel, by decide +kernel, ⟨by decide +kernel, by decide +kernel⟩, by decide +kernel,
    fun _ _ => clean_of _ _ rfl rfl, by show _ < _; decide +kernel⟩

/-- The last handle and the last expert of the context: expert 3, handle 15. -/
theorem witness_EngineCommands :
    let c : Core := { described with sregs := described.sregs.set 3 (BitVec.ofNat 64 (3 * 2 ^ 32 + 15)) |>.set 4 15 }
    let s := tasked c
    let f := op (.s 0) (.s 3) (.s 0) (.s 0)
    let e := op (.s 0) (.s 4) (.s 0) (.s 0)
    let l := op (.s 0) (.s 1) (.s 1) (.s 0)
    let d := op (.s 0) (.s 1) (.s 2) (.s 0)
    let q := op (.s 9) (.s 4) (.s 0) (.s 0)
    let q3 := op (.s 9) (kp 3) (.s 0) (.s 0)
    let q5 := op (.s 0) (kp 5) (.s 0) (.s 0)
    readyLm (.expf f) f c (fun c x => x.a.toWord.toNat % 2 ^ 32 / 2 ^ 14 = 0 ∧ x.b.toWord.toNat % 2 ^ 32 / 2 ^ 3 = 0 ∧
      c.arr.region = none ∧ ctx1.owns (x.a.toWord.toNat % 2 ^ 14) = true ∧ x.a.toWord.toNat / 2 ^ 32 + 1 = ctx1.nexp) ∧
    s.mem.ctx c.ctx = some ctx1 ∧ readyLm (.expc e) e c (fun c x => s.ownHandle c.ctx x.a.toWord = true) ∧
    readyLm (.topki l) l c (fun _ x => pointsTo [0] 64 x.a.toWord ∧ x.b.toWord.toNat / 2 ^ 32 % 2 ^ 16 < 0xFFFE) ∧
    readyLm (.ggemm l) l c (fun _ x => pointsTo [0] 64 x.a.toWord ∧ 1 ≤ x.b.toWord.toNat ∧ x.b.toWord.toNat ≤ 4096) ∧
    readyLm (.hpub l) l c (fun _ x => pointsTo [0, 1, 2] 8 x.c.toWord ∧ x.b.toWord.toNat < 2 ^ 16) ∧
    readyLm (.lnch l) l c (fun _ x => pointsTo [0] 64 x.a.toWord ∧ pointsTo [0] 64 x.b.toWord ∧ s.launch.lpres < s.poolLeft) ∧
    readyLm (.invl e) e c (fun _ x => x.a.toWord.toNat / 2 ^ 60 = 0) ∧ readyLm (.flsh q5) q5 c (fun _ x => x.b.toWord = 0) ∧
    (readyLm (.coll d) d c (fun c x => pointsTo [0, 1, 2] 8 x.b.toWord ∧ descFault .coll (c.scrBytes x.a.toWord.toNat 128) = none) ∧
      ∃ p, s.taskOf c.kid = some task0 ∧ s.spec? 7 = some p ∧ 0 < p.depthOf ∧ task0.gang ≠ none ∧ p.gang ≤ 0) ∧
    readyLm (.whq q) q c (fun c x => s.ownHandle c.ctx x.a.toWord = true) ∧ readyLm (.htest q) q c (fun _ x => x.b.toWord.toNat < 2 ^ 16) ∧
    readyLm (.wptr q3) q3 c (fun _ x => x.a.toWord.toNat = 3) ∧ ∀ k, c.hasEntry k :=
  ⟨⟨rfl, _, _, rfl, by decide +kernel, by decide +kernel, rfl, by decide +kernel, by decide +kernel⟩, rfl,
    ⟨rfl, _, _, rfl, by decide +kernel⟩, ⟨rfl, _, _, rfl, ⟨by decide +kernel, by decide +kernel⟩, by decide +kernel⟩,
    ⟨rfl, _, _, rfl, ⟨by decide +kernel, by decide +kernel⟩, by decide +kernel, by decide +kernel⟩,
    ⟨rfl, _, _, rfl, ⟨by decide +kernel, by decide +kernel⟩, by decide +kernel⟩,
    ⟨rfl, _, _, rfl, ⟨by decide +kernel, by decide +kernel⟩, ⟨by decide +kernel, by decide +kernel⟩, by decide +kernel⟩,
    ⟨rfl, _, _, rfl, by decide +kernel⟩, ⟨rfl, _, _, rfl, by decide +kernel⟩,
    ⟨⟨rfl, _, _, rfl, ⟨by decide +kernel, by decide +kernel⟩, by decide +kernel⟩, _, rfl, rfl, by decide +kernel, by decide, by decide +kernel⟩,
    ⟨rfl, _, _, rfl, by decide +kernel⟩, ⟨rfl, _, _, rfl, by decide +kernel⟩, ⟨rfl, _, _, rfl, by decide +kernel⟩,
    fun k => show (0 : Nat) < 16 by decide⟩

/-- A core inside two levels; scalar register 1 holds an aligned offset, 2 a misaligned one, 3 an empty-queue entry. -/
def looping : Core := { base with
  loops := [⟨0xFC0, 0x1100, 3, 1⟩, ⟨0x1000, 0x1000, 2, 0⟩], sregs := ((base.sregs.set 1 64).set 2 65).set 3 0x1040, cq := [⟨.word 1, 0, none⟩] }

theorem witness_Branches :
    let a := op (.s 0) (.s 1) (.s 0) (.s 0)
    let b := op (.s 0) (.s 2) (.s 0) (.s 0)
    let n := op (.s 0) (.s 0) (.s 2) (.s 0)
    let q := op (.s 0) .cq (.s 1) (.s 0)
    readyBr (.bra a) a looping (fun _ x => (looping.bundleAddr + x.a.toWord).toNat % 64 = 0) ∧
    readyBr (.bra b) b looping (fun _ x => (looping.bundleAddr + x.a.toWord).toNat % 64 ≠ 0) ∧
    readyBr (.brc n) n looping (fun _ x => (x.a.toWord != 0) = false) ∧ readyBr (.brq q) q looping (fun _ x => x.a.toWord.getLsbD 0 = true) :=
  ⟨⟨rfl, _, _, rfl, by decide +kernel⟩, ⟨rfl, _, _, rfl, by decide +kernel⟩, ⟨rfl, _, _, rfl, by decide +kernel⟩, rfl, _, _, rfl, by decide +kernel⟩

/-- The last index and the one before it. -/
theorem witness_LoopEnds :
    (∃ (c : Core) (pc : Word) (outer : List Level) (l : Level), c.loops = outer ++ [l] ∧ l.fin = pc ∧ l.index.toNat + 1 < l.count.toNat) ∧
    (∃ (c : Core) (pc : Word) (outer : List Level) (l : Level), c.loops = outer ++ [l] ∧ l.fin = pc ∧ l.count.toNat ≤ l.index.toNat + 1) ∧
    ∃ (c : Core) (pc : Word), ∀ y, c.loops.getLast? = some y → y.fin ≠ pc :=
  ⟨⟨looping, 0x1000, [_], _, rfl, rfl, by decide⟩, ⟨{ looping with loops := [⟨0x1000, 0x1000, 1, 0⟩] }, 0x1000, [], _, rfl, rfl, by decide⟩,
    looping, 0x1040, fun y h => by injection h with h; subst h; decide⟩

/-- Each test of LOOP, at the values where the next one takes over: a misaligned end, an end at its own bundle, a count of zero,
six levels, five levels. -/
theorem witness_CallsAndLoops :
    let deep (n : Nat) : Core := { looping with loops := List.replicate n ⟨0xFC0, 0x1100, 3, 1⟩ }
    let pc := looping.bundleAddr
    let call (r : Fin 64) := op (.s 9) (.s r) (.s 0) (.s 0)
    let ret (r : Fin 64) := op (.s 0) (.s r) (.s 0) (.s 0)
    let loop (n r : Fin 64) := op (.s 0) (.s n) (.s r) (.s 0)
    let leave (n : Nat) := op (.s 0) (kp n) (.s 0) (.s 0)
    let wrong (c : Core) (x : Srcs) : Prop := (pc + x.b.toWord).toNat < pc.toNat + 64 ∨
      ∃ l, c.loops.getLast? = some l ∧ (l.fin.toNat < (pc + x.b.toWord).toNat ∨ l.fin = pc)
    readyBr (.call (call 1)) (call 1) looping (fun _ x => (pc + x.a.toWord).toNat % 64 = 0) ∧
    readyBr (.call (call 2)) (call 2) looping (fun _ x => (pc + x.a.toWord).toNat % 64 ≠ 0) ∧
    readyBr (.ret (ret 3)) (ret 3) looping (fun _ x => x.a.toWord.toNat % 64 = 0) ∧
    readyBr (.ret (ret 2)) (ret 2) looping (fun _ x => x.a.toWord.toNat % 64 ≠ 0) ∧
    readyBr (.loop (loop 1 2)) (loop 1 2) (deep 5) (fun _ x => (pc + x.b.toWord).toNat % 64 ≠ 0) ∧
    readyBr (.loop (loop 1 0)) (loop 1 0) (deep 5) (fun c x => (pc + x.b.toWord).toNat % 64 = 0 ∧ wrong c x) ∧
    readyBr (.loop (loop 0 1)) (loop 0 1) (deep 5) (fun c x => (pc + x.b.toWord).toNat % 64 = 0 ∧ ¬wrong c x ∧ x.a.toWord.setWidth 32 = (0 : BitVec 32)) ∧
    readyBr (.loop (loop 1 1)) (loop 1 1) (deep 6) (fun c x => ¬wrong c x ∧ x.a.toWord.setWidth 32 ≠ (0 : BitVec 32) ∧ 6 ≤ c.loops.length) ∧
    readyBr (.loop (loop 1 1)) (loop 1 1) (deep 5) (fun c x => ¬wrong c x ∧ x.a.toWord.setWidth 32 ≠ (0 : BitVec 32) ∧ c.loops.length < 6) ∧
    readyBr (.lbrk (leave 2)) (leave 2) looping (fun c x => ∃ l inner, c.loops = [] ++ l :: inner ∧ x.a.toWord.toNat = inner.length + 1) ∧
    readyBr (.lbrk (leave 3)) (leave 3) looping (fun c x => c.loops.length < x.a.toWord.toNat) :=
  ⟨⟨rfl, _, _, rfl, by decide +kernel⟩, ⟨rfl, _, _, rfl, by decide +kernel⟩, ⟨rfl, _, _, rfl, by decide +kernel⟩, ⟨rfl, _, _, rfl, by decide +kernel⟩,
    ⟨rfl, _, _, rfl, by decide +kernel⟩, ⟨rfl, _, _, rfl, by decide +kernel, .inl (by decide +kernel)⟩,
    ⟨rfl, _, _, rfl, by decide +kernel, notWrong, by decide +kernel⟩, ⟨rfl, _, _, rfl, notWrong, by decide +kernel, by decide +kernel⟩,
    ⟨rfl, _, _, rfl, notWrong, by decide +kernel, by decide +kernel⟩, ⟨rfl, _, _, rfl, _, _, rfl, by decide +kernel⟩, rfl, _, _, rfl, by decide +kernel⟩
where
  notWrong {n : Nat} : ¬((looping.bundleAddr + looping.getS 1).toNat < looping.bundleAddr.toNat + 64 ∨
      ∃ l, (List.replicate n (⟨0xFC0, 0x1100, 3, 1⟩ : Level)).getLast? = some l ∧
        (l.fin.toNat < (looping.bundleAddr + looping.getS 1).toNat ∨ l.fin = looping.bundleAddr)) := by
    rintro (h | ⟨l, h, h'⟩)
    · exact absurd h (by decide +kernel)
    · rw [List.eq_of_mem_replicate (List.mem_of_getLast? h)] at h'
      exact absurd h' (by decide +kernel)

/-- A handler of a trap taken inside two levels. -/
def handling : Core := { base with intrap := true, tls := [⟨0xFC0, 0x1100, 3, 1⟩, ⟨0x1000, 0x1000, 2, 0⟩, ⟨0, 0, 0, 0⟩], trappc := 0x2000 }

theorem witness_EndingsAndReturn :
    let o := op (.s 0) (.s 0) (.s 0) (.s 0)
    let inRegion : Core := { base with arr := { MxArray.zero with pair := 0, region := some ⟨3, 0x1000, 0, [], 0, false, [], none⟩ } }
    readyBr (.yield o) o base ∧ readyBr (.icinv o) o base ∧ readyBr (.trap o) o base (fun c _ => c.arr.region = none) ∧
    readyBr (.bkpt o) o base (fun c _ => c.arr.region = none) ∧ readyBr (.exit o) o base (fun c _ => c.arr.region = none) ∧
    readyBr (.halt o) o base (fun c _ => c.arr.region = none) ∧ readyBr (.exit o) o inRegion (fun c _ => ∃ r, c.arr.region = some r) ∧
    readyBr (.trap o) o inRegion (fun c _ => ∃ r, c.arr.region = some r) ∧ readyBr (.tret o) o base (fun _ _ => base.intrap = false) ∧
    readyBr (.tret o) o handling (fun c _ => handling.intrap = true ∧ ∃ live rest : List Level, c.tls = live ++ rest ∧ live.length = 2 ∧
      (∀ l ∈ live, l.count ≠ 0) ∧ ∀ l, rest.head? = some l → l.count = 0) :=
  ⟨⟨rfl, _, _, rfl, trivial⟩, ⟨rfl, _, _, rfl, trivial⟩, ⟨rfl, _, _, rfl, rfl⟩, ⟨rfl, _, _, rfl, rfl⟩, ⟨rfl, _, _, rfl, rfl⟩, ⟨rfl, _, _, rfl, rfl⟩,
    ⟨rfl, _, _, rfl, _, rfl⟩, ⟨rfl, _, _, rfl, _, rfl⟩, ⟨rfl, _, _, rfl, rfl⟩,
    rfl, _, _, rfl, rfl, [_, _], [_], rfl, rfl, by decide, fun l h => by injection h with h; subst h; rfl⟩

/-- Token 31 is pending, token 1 complete, token 2 failed. -/
theorem witness_TokenWaits :
    let c : Core := { base with tokens := (base.tokens.set 31 .pending).set 2 .failed
                                sregs := (base.sregs.set 1 6).set 2 (BitVec.ofNat 64 (2 ^ 31 + 2)) }
    let named (x : Srcs) (k : Fin 32) : Prop := k ≠ 0 ∧ x.a.toWord.getLsbD k = true
    let w := op (.s 9) (.s 1) (.s 0) (.s 0)
    let y := op (.s 9) (.s 2) (.s 0) (.s 0)
    let f := op (.s 0) (kp 5) (.s 0) (.s 0)
    readyBr (.twait w) w c (fun d x => ∀ k, named x k → d.tokens[k] ≠ .pending) ∧
    readyBr (.twaitAny y) y c (fun d x => ∃ k, named x k ∧ d.tokens[k] ≠ .pending) ∧ readyBr (.tstat y) y c ∧
    readyBr (.fence f) f c (fun d x => x.a.toWord = 5 ∧ d.peerStores = []) :=
  ⟨⟨rfl, _, _, rfl, fun k h => by revert k h; decide +kernel⟩, ⟨rfl, _, _, rfl, 1, ⟨by decide, by decide +kernel⟩, by decide +kernel⟩,
    ⟨rfl, _, _, rfl, trivial⟩, rfl, _, _, rfl, by decide +kernel, rfl⟩

/-- The registers 0x0A, 0x0B (not listed), 0x10, 0x27 and 0x28 (not listed). -/
theorem witness_SpecialRegisters :
    let c : Core := { base with sregs := ((((base.sregs.set 1 0x0A).set 2 0x0B).set 3 0x10).set 4 0x27).set 5 0x28 }
    let listed (x : Srcs) : Prop := x.a.toWord.toNat ≤ 0x0A ∨ (0x10 ≤ x.a.toWord.toNat ∧ x.a.toWord.toNat ≤ 0x27)
    let m (r : Fin 64) := op (.s 9) (.s r) (.s 0) (.s 0)
    let w (r : Fin 64) := op (.s 0) (.s r) (.s 6) (.s 0)
    readyBr (.mfsr (m 1)) (m 1) c (fun _ x => listed x) ∧ readyBr (.mfsr (m 2)) (m 2) c (fun _ x => ¬listed x) ∧
    readyBr (.mfsr (m 3)) (m 3) c (fun _ x => listed x) ∧ readyBr (.mtsr (w 4)) (w 4) c (fun _ x => listed x) ∧
    readyBr (.mtsr (w 5)) (w 5) c (fun _ x => ¬listed x) :=
  ⟨⟨rfl, _, _, rfl, by decide +kernel⟩, ⟨rfl, _, _, rfl, by decide +kernel⟩, ⟨rfl, _, _, rfl, by decide +kernel⟩,
    ⟨rfl, _, _, rfl, by decide +kernel⟩, rfl, _, _, rfl, by decide +kernel⟩

/-- The only member of a gang arrives at level 0. -/
theorem witness_Barriers :
    let s := tasked base
    let o := op (.s 0) (kp 0) (.s 0) (.s 0)
    let u := s.arriveAt task0 gang1 0
    readyBr (.bara o) o base (fun c x => c.arr.region = none ∧ s.barTask x.a.toWord.toNat = .ok (task0, gang1)) ∧ s.core.peerStores = [] ∧ s.core.arrived = [] ∧
    (s.barrier 1 0 [0]).last 0 ≠ some (s.barrier 1 0 [0]).phase ∧
    readyBr (.bar o) o base ∧ ∃ p, (u.barrier 1 0 [0]).last 0 = some p ∧ p < (u.barrier 1 0 [0]).phase :=
  ⟨⟨rfl, _, _, rfl, rfl, rfl⟩, rfl, rfl, by decide +kernel, ⟨rfl, _, _, rfl, trivial⟩, 0, by decide +kernel, by decide +kernel⟩

def gang2 : Gang := { gang1 with leaves := [⟨[0], none⟩, ⟨[1], none⟩] }

/-- Levels at fault: an open region, level 7 of a launch that has one; a gang of two of which core 0 has arrived. -/
theorem witness_Barriers_faults :
    let o := op (.s 0) (kp 0) (.s 0) (.s 0)
    let q := op (.s 0) (kp 7) (.s 0) (.s 0)
    let inRegion : Core := { base with arr := { MxArray.zero with pair := 0, region := some rgn } }
    let two : State := { tasked base with launch := { (tasked base).launch with gangs := [gang2] } }
    let s := two.arriveAt task0 gang2 0
    readyBr (.bar o) o inRegion (fun c _ => ∃ r, c.arr.region = some r) ∧
    readyBr (.bara q) q base (fun c x => ∃ t p, c.arr.region = none ∧ x.a.toWord.toNat < 8 ∧ (tasked base).taskOf c.kid = some t ∧
      (tasked base).spec? t.launch = some p ∧ p.depthOf ≤ x.a.toWord.toNat) ∧
    s.barTask 0 = .ok (task0, gang2) ∧ (s.barrier 1 0 [0]).last 0 = some (s.barrier 1 0 [0]).phase ∧ s.scopeOf task0 0 ≠ 5 :=
  ⟨⟨rfl, _, _, rfl, _, rfl⟩, ⟨rfl, _, _, rfl, _, _, rfl, by decide +kernel, rfl, rfl, by decide +kernel⟩, rfl, by decide +kernel, by decide +kernel⟩

theorem witness_NothingDone : ∃ (i : Instr) (row : Row) (o : Op) (s : State), i.info = some (row, o) ∧ s.core.guardHolds o = false ∧
    i.scheduleBad s.core.env = none :=
  ⟨.add { op (.s 9) (.s 1) (.s 2) (.s 0) with gf := 1 }, _, _, pkg base, rfl, by decide +kernel, by decide +kernel⟩

theorem witness_SourceValues : ∃ (c : Core) (y : QEntry), c.arr.region = none ∧ c.dq[3] = y :: [] ∧ c.eq[1] = y :: [] ∧ c.cq = y :: [] ∧
    y.reserved = none ∧ (∀ n : Fin 64, c.isEmpty (.s n) = false) ∧ (c.latches.get .sc)[3]? ≠ none :=
  ⟨{ base with dq := base.dq.set 3 [⟨.word 1, 0, none⟩], eq := base.eq.set 1 [⟨.word 1, 0, none⟩], cq := [⟨.word 1, 0, none⟩]
               latches := { base.latches with sc := [.word 1, .word 2, .word 3, .word 4] } }, _, rfl, rfl, rfl, rfl, rfl, by decide +kernel,
    by decide +kernel⟩

theorem witness_SourcesFrame : ∃ (i : Instr) (c d : Core) (x : Srcs) (row : Row) (o : Op), c.sources i = .ok (d, x) ∧ i.info = some (row, o) ∧
    ∀ p ∈ [o.op1, o.op2, o.op3], (∀ n, p ≠ .dq n) ∧ (∀ n, p ≠ .eq n) ∧ p ≠ .cq :=
  ⟨.add (op (.s 9) (.s 1) (.s 2) (.s 0)), base, _, _, _, _, rfl, rfl, by
    intro p hp
    simp only [op, List.mem_cons, List.not_mem_nil, or_false] at hp
    rcases hp with rfl | rfl | rfl <;> exact ⟨nofun, nofun, nofun⟩⟩

/-- An empty register with E1 = 0 and 1; a misaligned load, one below and one beyond the scratchpad, one of a poisoned sector. -/
theorem witness_SourceTraps :
    let waits : Core := { base with step := 1, vars := [⟨0, 0, 1, .s 1, .value (.word 0), 0⟩] }
    let o := op (.s 9) (.s 1) (.s 2) (.s 0)
    let a (r : Fin 64) := op (.s 9) (.s r) (kp 3) (.s 0)
    let b := op (.s 9) (.ap 1) (kp 3) (.s 0)
    let c : Core := { base with
      poison := [(2, true)], sregs := ((base.sregs.set 1 65).set 2 (BitVec.ofNat 64 base.scratchSize)).set 3 64
      aps := base.aps.set 1 (BitVec.ofNat 192 (2 ^ 20 - 8)) }
    let word (p : Port) (c : Core) (x : Srcs) : Nat := (BitVec.ofInt 64 (c.adOffset p x.a)).toNat % 8
    (waits.guardHolds o = true ∧ waits.isEmpty (.s 1) = true ∧ o.e1 = false ∧ ({ o with e1 := true } : Op).e1 = true) ∧
    readyLm (.lds (a 1)) (a 1) c (fun c x => 2 ^ (x.b.toWord.toNat % 4) = 8 ∧ word (.s 1) c x ≠ 0) ∧
    readyLm (.lds (a 2)) (a 2) c (fun c x => word (.s 2) c x = 0 ∧ 0 ≤ c.adOffset (.s 2) x.a ∧ c.scratchSize < (c.adOffset (.s 2) x.a).toNat + 8) ∧
    readyLm (.lds (a 3)) (a 3) c (fun c x => word (.s 3) c x = 0 ∧ 0 ≤ c.adOffset (.s 3) x.a ∧ c.latent = [] ∧
      c.poison = [((c.adOffset (.s 3) x.a).toNat / 32, true)] ∧ (c.group (poolGroup (c.adOffset (.s 3) x.a).toNat)).state ≠ 1) ∧
    readyLm (.lds b) b { c with aps := base.aps.set 1 (BitVec.ofInt 192 (-8 * 2 ^ 64 + 0)), loops := [⟨0, 0, 9, 1⟩] } (fun c x =>
      word (.ap 1) c x = 0 ∧ c.adOffset (.ap 1) x.a < 0) :=
  ⟨⟨rfl, by decide +kernel, rfl, rfl⟩, ⟨rfl, _, _, rfl, by decide +kernel, by decide +kernel⟩,
    ⟨rfl, _, _, rfl, by decide +kernel, by decide +kernel, by decide +kernel⟩,
    ⟨rfl, _, _, rfl, by decide +kernel, by decide +kernel, rfl, by decide +kernel, by decide +kernel⟩, rfl, _, _, rfl, by decide +kernel,
    by decide +kernel⟩

/-! ## Witnesses: encoding and steps -/

theorem witness_DecodeOfEncode : ∃ (i : Instr) (sl : Slot) (w : Nat),
    encode i = some (sl, w) ∧ i.wf DecodeEnv.widest = true ∧ i.scheduleBad DecodeEnv.widest = none :=
  ⟨.add (op (.s 4) (.loop 0) (kp 1) (.s 0)), .sc, 0x01004A8F1000, by decide +kernel, by decide +kernel, by decide +kernel⟩

theorem witness_EncodeOfDecode : ∃ (i : Instr) (sl : Slot) (w : Nat), w < 2 ^ 48 ∧ decodeSlot DecodeEnv.widest sl w = .ok i :=
  ⟨_, .sc, 0x01004A8F1000, by decide, rfl⟩

theorem witness_StepsGoOn : (∃ (s : State) (i : Instr) (rest : List Instr), s.agenda = i :: rest) ∧
    Instr.eventOk (.bundleExecution 4095) = true ∧ Instr.eventOk (.bundleExecution 4096) = false :=
  ⟨⟨{ State.reset with agenda := [.bundleExecution 0] }, _, _, rfl⟩, by decide, by decide⟩

/-- What a core makes of the bundle it fetches, where the fetch gives one. -/
def fetched (s : State) : Option (Except BundleFail Bundle) :=
  match s.fetchBundle with
  | (s', .ok w) => some (decodeBundle s'.core.env (s.core.brkExempt != .none) w)
  | _ => none

theorem fetched_some {s : State} {r : Except BundleFail Bundle} (h : fetched s = some r) :
    ∃ s' w, s.fetchBundle = (s', .ok w) ∧ decodeBundle s'.core.env (s.core.brkExempt != .none) w = r := by
  unfold fetched at h
  split at h
  · rename_i s' w e
    exact ⟨s', w, e, Option.some.inj h⟩
  · cases h

theorem fetched_any {s : State} {p : Except BundleFail Bundle → Bool} (h : (fetched s).any p = true) :
    ∃ r, fetched s = some r ∧ p r = true := by
  cases e : fetched s with
  | none => rw [e] at h; cases h
  | some r => rw [e] at h; exact ⟨r, rfl, h⟩

/-- A bundle of one ADD, and 64 bytes that no check lets pass. -/
theorem witness_BundleEntered :
    let s := State.reset.withBundle (bundleWith .sc 0x01004A8F1000)
    let z := State.reset.withBundle 0
    (s.core.canExecute = true ∧ s.core.cur = none ∧ s.core.resumed = false) ∧
    (∃ s' w b, s.fetchBundle = (s', .ok w) ∧ decodeBundle s'.core.env (s.core.brkExempt != .none) w = .ok b) ∧
    ∃ s' w f, z.fetchBundle = (s', .ok w) ∧ decodeBundle s'.core.env (z.core.brkExempt != .none) w = .error f := by
  have good : (fetched (State.reset.withBundle (bundleWith .sc 0x01004A8F1000))).any (fun r => r.toBool) = true := by decide +kernel
  have bad : (fetched (State.reset.withBundle 0)).any (fun r => !r.toBool) = true := by decide +kernel
  refine ⟨by decide +kernel, ?_, ?_⟩
  · obtain ⟨r, h, hr⟩ := fetched_any good
    obtain ⟨s', w, e, d⟩ := fetched_some h
    cases r with
    | ok b => exact ⟨s', w, b, e, d⟩
    | error f => cases hr
  · obtain ⟨r, h, hr⟩ := fetched_any bad
    obtain ⟨s', w, e, d⟩ := fetched_some h
    cases r with
    | ok b => cases hr
    | error f => exact ⟨s', w, f, e, d⟩

/-- A core that resumes at the one execution of its bundle, and beyond it; a page that it may not fetch; a clock that stands. -/
theorem witness_BundleEntered_resumed :
    let s := State.reset.withBundle (bundleWith .sc 0x01004A8F1000)
    let at' (n : Nat) : State := { s with core := { s.core with resumed := true, rptidx := n } }
    let x := world base
    let stopped : State := { x with plat := { x.plat with clocks := [{ x.clockOf ⟨0, 0⟩ with stopped := true }] } }
    (∀ n ∈ [0, 1], ((at' n).core.canExecute = true ∧ (at' n).core.cur = none ∧ (at' n).core.resumed = true ∧ (at' n).clockRuns 0 = true) ∧
      ∃ s' w, (at' n).fetchBundle = (s', .ok w) ∧ w % 2 ^ 4 = 0xA ∧ w / 2 ^ 50 % 2 ^ 14 = 0 ∧ (Header.of w).rpt = 0) ∧
    (let y := world { base with pc := 0x10000 }
     (y.core.canExecute = true ∧ y.core.cur = none ∧ y.clockRuns 0 = true) ∧ ∃ s' t, y.fetchBundle = (s', .error (some t))) ∧
    stopped.clockRuns 0 = false := by
  refine ⟨fun n h => ⟨?_, ?_⟩, ⟨by decide +kernel, ?_⟩, by decide +kernel⟩
  · simp only [List.mem_cons, List.not_mem_nil, or_false] at h
    rcases h with rfl | rfl <;> decide +kernel
  · obtain ⟨s', w, e, p⟩ := ok_of (p := fun (_ : State) w => w % 2 ^ 4 == 0xA && w / 2 ^ 50 % 2 ^ 14 == 0 && (Header.of w).rpt == 0)
      (r := ({ State.reset.withBundle (bundleWith .sc 0x01004A8F1000) with
        core := { (State.reset.withBundle (bundleWith .sc 0x01004A8F1000)).core with resumed := true, rptidx := n } } : State).fetchBundle) (by
        simp only [List.mem_cons, List.not_mem_nil, or_false] at h
        rcases h with rfl | rfl <;> decide +kernel)
    simp only [Bool.and_eq_true, beq_iff_eq] at p
    exact ⟨s', w, e, p.1.1, p.1.2, p.2⟩
  · obtain ⟨s', t, e, p⟩ := error_of (p := fun (_ : State) t => t.isSome) (r := (world { base with pc := 0x10000 }).fetchBundle) (by decide +kernel)
    obtain ⟨t, rfl⟩ := Option.isSome_iff_exists.mp p
    exact ⟨s', t, e⟩

/-- A core that executes a bundle of one operation. -/
def executing (i : Instr) (sl : Slot) : Core := { base with
  cur := some ⟨⟨Header.plain, Slot.all.map fun x => if x = sl then i else .nop x, []⟩, 0x1000, 0, []⟩ }

theorem alone_ok {i : Instr} {s : State} {p : State → Bool}
    (h : (match aloneRun i s with | .ok t => p t | .error _ => false) = true) : ∃ t, aloneRun i s = .ok t ∧ p t = true := by
  split at h
  · rename_i t e; exact ⟨t, e, h⟩
  · cases h

def addOp : Op := op (.s 4) (.s 1) (.s 2) (.s 0)

theorem witness_BundleAlone : ∃ (s t : State) (u : Current) (i : Instr) (row : Row) (o : Op),
    i.info = some (row, o) ∧ u.bundle.hdr = Header.plain ∧
    u.bundle.ops = (Slot.all.map fun sl => if sl = row.slot then i else .nop sl) ∧ u.exe = 0 ∧ s.core.cur = some u ∧
    s.core.canExecute = true ∧ (∀ p ∈ s.core.pending, s.core.step < p.due) ∧ (∀ e ∈ s.core.arr.events, s.core.step < e.due) ∧
    s.core.act = .none ∧ s.core.prodTok = 0 ∧ aloneRun i s = .ok t ∧ t.core.prodTok = 0 ∧ (row.slot ≠ .br → t.core.act = .none) := by
  obtain ⟨t, e, h⟩ := alone_ok (i := .add addOp) (s := pkg (executing (.add addOp) .sc))
    (p := fun t => t.core.prodTok == 0 && t.core.act == .none) (by decide +kernel)
  have h := Bool.and_eq_true_iff.mp h
  exact ⟨_, t, _, .add addOp, _, _, rfl, rfl, rfl, rfl, rfl, by decide +kernel, fun p h => absurd (show p ∈ ([] : List Pending) from h) List.not_mem_nil,
    fun p h => absurd (show p ∈ ([] : List AccEvent) from h) List.not_mem_nil, rfl, rfl, e, eq_of_beq h.1, fun _ => eq_of_beq h.2⟩

theorem witness_StepsLeaveNothing : ∃ s t : State, s.kept ∧ step s = .next t := by
  have one : ∀ c ∈ State.reset.cores, c = State.reset.core := fun c h => by
    simpa only [State.cores, State.reset, List.mem_cons, List.not_mem_nil, or_false] using h
  have k : State.reset.kept := ⟨⟨rfl, rfl, rfl, fun c h => (congrArg (fun (c : Core) => c.scratch.wf) (one c h)).trans rfl,
      fun x h => absurd (show x ∈ ([] : List Saved) from h) List.not_mem_nil⟩,
    ⟨fun c h => (congrArg (fun (c : Core) => inCores c.kid) (one c h)).trans rfl, fun i h => absurd (show i ∈ ([] : List Instr) from h) List.not_mem_nil⟩,
    rfl, rfl, rfl, rfl, fun c h => by rw [one c h]; exact ⟨rfl, rfl⟩⟩
  have h : (match step State.reset with | .next _ => true | _ => false) = true := by decide +kernel
  cases e : step State.reset with
  | next t => exact ⟨_, t, k, e⟩
  | fault f => rw [e] at h; cases h
  | refused r => rw [e] at h; cases h

/-! ## Witnesses: events of cores -/

theorem witness_Deliveries :
    let p : Pending := ⟨0, 0, 1, .s 63, .word 5, some (.sc, .word 5), 31⟩
    let q : Pending := { p with dst := .v 63, val := .vec 1 }
    let y : VarRes := ⟨3, 0, 2, .dq 3, .value (.word 7), 0⟩
    let z : VarRes := ⟨4, 0, 3, .s 1, .whq 15, 0⟩
    let c : Core := { base with step := 1, pending := [p], vars := [y, z] }
    (c.pending = p :: [] ∧ p.due ≤ c.step ∧ p.dst.exists' = true ∧ c.freeze = 0 ∧ c.heldDest p.dst = false ∧ c.heldDest q.dst = false) ∧
    (c.vars.find? (fun r => r.id == 3) = some y ∧ y.issue < c.step ∧ y.dst.exists' = true ∧ c.varReady y = true) ∧
    c.vars.find? (fun r => r.id == 4) = some z ∧ z.issue < c.step ∧ z.dst.exists' = true ∧ c.varReady z = true :=
  ⟨⟨rfl, by decide, by decide, rfl, rfl, by decide +kernel⟩, ⟨rfl, by decide, by decide, by decide +kernel⟩, rfl, by decide, by decide, by decide +kernel⟩

/-- A core whose ADD pops an empty queue, with nothing under way that could push. -/
def stuck : Core := { executing (.add (op (.s 4) (.dq 3) (.s 2) (.s 0))) .sc with stalled := some ⟨1, (Port.dq 3).toNat, true, true⟩ }

/-- An event due now; a bundle that retires with commands held, cancelled and started; a trap that TRAP raised; a deadlock. -/
theorem witness_BundleEnds :
    let e : AccEvent := ⟨0, 7, .zero, false, 0⟩
    let a : Core := { base with arr := { MxArray.zero with events := [e] } }
    let x (n : Nat) (ph : CmdPhase) : Cmd := ⟨n, .cpy, 0, 0, 0, [], [], [], [], 0, 0, ph, 0, 0, [], [], [], 0⟩
    let c : Core := { base with retiring := true, cmds := [x 4 .started, x 5 .held, x 6 (.cancelled 3 4)] }
    let r : Core := { base with raised := some ⟨0x10, false, 0, 5⟩ }
    let u := (pkg stuck).bundleStep
    (a.arr.events = [e] ∧ e.due ≤ a.step ∧ a.freeze = 0 ∧ ∀ g : Fin 12, a.groups[g].state ≠ 1) ∧
    (c.retiring = true ∧ (c.cmds.map (·.id)).Nodup) ∧ (r.raised = some ⟨0x10, false, 0, 5⟩ ∧ r.retiring = false ∧ r.entryWaits = false) ∧
    stuck.deadlocked.isSome = true ∧ u.core.step = stuck.step ∧ (∃ y, u.core.deadlocked = some y) ∧ ∃ y, u.core.cur = some y :=
  ⟨⟨rfl, by decide, rfl, by decide +kernel⟩, ⟨rfl, by decide⟩, ⟨rfl, rfl, by decide +kernel⟩, by decide +kernel, by decide +kernel,
    Option.isSome_iff_exists.mp (by decide +kernel), Option.isSome_iff_exists.mp (by decide +kernel)⟩

/-- A FENCE at peer scope with a store posted. -/
theorem witness_BundleEnds_fence :
    let c : Core := { base with retiring := true, fenceWait := true, peerStores := [⟨0, 1, 3, 0, [0]⟩] }
    (c.retiring = true ∧ c.fenceWait = true ∧ c.peerStores ≠ []) ∧ (pkg c).clockRuns 0 = true := ⟨⟨rfl, rfl, nofun⟩, by decide +kernel⟩

/-- With a handler, without one, in one; in a region that the trap abandons; and the trap of a lost operand in a GGEMM task. -/
theorem witness_TrapEntry :
    let t : TrapInfo := ⟨0xFF, false, 7, 9⟩
    let lost : TrapInfo := ⟨0x15, false, 7, 9⟩
    let g : Ggemm := ⟨9, 0, 0, 1, 0, 0, 0, 0, [⟨[], [], 64⟩], []⟩
    let x : Task := { task0 with launch := 9, path := [0, 0, 0], gang := none }
    let y : TileTask := ⟨5, 9, [0, 0, 0], [0, 0, 0], some 0, (3, 0), .running, [], [], []⟩
    let s : State := { pkg base with launch := { LaunchState.reset with ggemms := [g], tasks := [x], tiles := [y] } }
    (base.arrived = [] ∧ base.vars = []) ∧
    (base.intrap = false ∧ base.tvec = 0 ∧ (t.cause ≠ 0x15 ∨ (pkg base).ggemmTask = none) ∧ t.cause < 2 ^ 8 ∧ t.slot < 8) ∧
    (handling.intrap = true) ∧ ({ base with tvec := 64 } : Core).tvec ≠ 0 ∧
    (∃ x, s.core.intrap = false ∧ lost.cause = 0x15 ∧ s.ggemmTask = some x) :=
  ⟨⟨rfl, rfl⟩, ⟨rfl, rfl, .inl (by decide), by decide, by decide⟩, rfl, by decide, _, rfl, rfl, rfl⟩

/-! ## Witnesses: tasks, saves, the pool, commands -/

def withTask (s : State) (t : Task) : State := { s with launch := { s.launch with tasks := [t] } }

/-- A task assigned to an idle core, of a launch without parameter block and of one whose block cannot be read. -/
theorem witness_TaskDispatch :
    let t : Task := { task0 with begun := false }
    let s := withTask (world (Core.reset 0)) t
    let u : State := { s with launch := { s.launch with launches := [launch7 (leBytes 0x28 (2 ^ (8 * 0x24) * 64)) ] } }
    s.launch.tasks.find? (fun t => t.core == 0 && !t.begun) = some t ∧ (s.coreAt 0).run = .idle ∧ s.dispatches 7 = true ∧
    ((s.coreAt 0).freeze = 0 ∧ ∀ g : Fin 12, (s.coreAt 0).groups[g].state ≠ 1) ∧ (∃ p, s.spec? 7 = some p) ∧ u.dispatches 7 = true ∧ (∃ l, u.launch? 7 = some l ∧ field l.bytes 0x24 4 = 64) :=
  ⟨rfl, rfl, by decide +kernel, ⟨rfl, by decide +kernel⟩, ⟨_, rfl⟩, by decide +kernel, _, rfl, by decide +kernel⟩

/-- A claimed task at a pre-emption point; past its limit at a boundary, in a region, and at a repeat that waits. -/
theorem witness_Preemption :
    let claimed (c : Core) : State :=
      let s := world c
      { s with launch := { s.launch with claims := [⟨0, .suspend, true⟩] } }
    let point : Core := { base with point := true, preq := true }
    let region := mxCore 0 (some rgn)
    let waits : Core := { executing (.nop .sc) .sc with
      cur := some ⟨⟨Header.plain, [], []⟩, 0x1000, 1, []⟩, stalled := some ⟨1, 0x80, true, false⟩, tvec := 0x40 }
    ((claimed base).taskOf 0 = some task0 ∧ (claimed base).freeSlot 1 = some 0 ∧ base.entryWaits = false ∧ waits.entryWaits = false ∧ ∃ y ∈ (claimed base).launch.claims, y.victim = 0 ∧ y.limit = true) ∧
    (point.run = .running ∧ point.point = true ∧ point.preq = true ∧ point.retiring = false ∧ point.arr.region = none) ∧
    base.atBoundary = true ∧ (region.arr.region = some rgn ∧ region.retiring = false ∧ region.run ≠ .saving) ∧
    ∃ u y, waits.arr.region = none ∧ waits.retiring = false ∧ waits.run = .running ∧ waits.cur = some u ∧ u.exe ≠ 0 ∧
      waits.stalled = some y ∧ waits.intrap = false ∧ waits.tvec ≠ 0 ∧ ((claimed waits).unarrive 0).sampleVars.mem.doomed = [] :=
  ⟨⟨rfl, by decide +kernel, by decide +kernel, by decide +kernel, _, List.mem_cons_self .., rfl, rfl⟩, ⟨rfl, rfl, rfl, rfl, rfl⟩, by decide +kernel, ⟨rfl, rfl, by decide⟩, _, _, rfl, rfl,
    rfl, rfl, by decide, rfl, rfl, by decide, rfl⟩

/-- A save in the last slot, a saved task that a free core takes, and a task that has ended. -/
theorem witness_SavesAndCompletion :
    let c : Core := { base with run := .saving }
    let x : Saved := ⟨20, 3, false, task0, base, false⟩
    let s : State := { world c with mem := { worldMem 0 with tlb := [⟨1, 48, 0x39, false⟩, ⟨1, 49, 0x39, false⟩] } }
    let v : State := { s with launch := { s.launch with saved := [x] } }
    let a : Word := BitVec.ofNat 64 (2 ^ 20 * 3)
    let bs := leBytes 8 1 ++ leBytes 8 (v.launchRecord 7).toNat ++ leBytes 8 c.pc.toNat ++ leBytes 4 65536 ++ leBytes 36 0
    let u := (v.slotFrames 0 1 a .write 0 2).1
    let fs := (v.slotFrames 0 1 a .write 0 2).2.getD []
    let pages := ((List.range fs.length).zip fs).foldl (fun (m : MemState) p => m.writeImage u.fresh p.1 p.2.1 65536) u.mem
    let y : Saved := ⟨20, 3, false, { task0 with gang := none }, base, true⟩
    let r : State := { world (Core.reset 0) with
      launch := { (tasked base).launch with saved := [y], tasks := [] }, mem := { worldMem 0 with tlb := [⟨1, 48, 0x39, false⟩, ⟨1, 49, 0x39, false⟩] } }
    let e : Core := { base with run := .exiting }
    (v.launch.saved.find? (fun z => !z.done && z.task.core == 0) = some x ∧ v.mem.ctx c.ctx = some ctx1 ∧ c.saveReady = true ∧ c.latent = [] ∧
      (v.slotFrames 0 1 a .write 0 2).2 = some fs ∧ (({ u with mem := pages, fresh := u.fresh + 1 } : State).engWrite 0 1 a bs).2 = 0) ∧
    (r.launch.saved.find? (fun z => z.id == y.id) = some y ∧ y.done = true ∧ y.task.gang = none ∧ r.coreFree 0 = true ∧
      inUnit (r.unitFor y.task).1 (r.unitFor y.task).2 0 = true ∧ r.dispatches 7 = true ∧ r.outranked 0 (r.prioOf 7) = false ∧
      r.mem.ctx y.image.ctx = some ctx1 ∧ (r.coreAt 0).latent = [] ∧ (r.readSlot 0 y).2 = true) ∧
    ((tasked e).taskOf 0 = some task0 ∧ e.run = .exiting ∧ e.retiring = false ∧ e.cmds = [] ∧ e.vars = [] ∧ ∀ n : Fin 32, e.tokens[n] ≠ .pending) :=
  ⟨⟨rfl, rfl, by decide +kernel, rfl, by decide +kernel, by decide +kernel⟩,
    ⟨rfl, rfl, rfl, by decide +kernel, by decide +kernel, by decide +kernel, by decide +kernel, rfl, rfl, by decide +kernel⟩, rfl, rfl, rfl, rfl, rfl, by decide +kernel⟩

/-- Two requests of which the second is older; the last group and bank; a bank at its threshold. -/
theorem witness_PoolEvents :
    let old : PoolReq := ⟨3, 2, false, false, [0, 8]⟩
    let new : PoolReq := ⟨4, 2, true, false, [0]⟩
    let e (b : Bool) : DeltaEntry := ⟨5, b, 0⟩
    let c (b : Bool) : Core := { base with poolReqs := [old], groups := base.groups.set 11 { base.groups[11] with entries := [e b] } }
    let d : Core := { base with groups := base.groups.set 11 { base.groups[11] with state := 1, dbank := 7 } }
    let h : Core := { base with bankUe := base.bankUe.set 95 4 }
    (((c false).poolReqs ++ [new]).Nodup ∧ old ∈ (c false).poolReqs ++ [new] ∧ (old.sectors.map fun x => (sectorGroup x, sectorBank x)).Nodup ∧
      (∀ r ∈ (c false).poolReqs ++ [new], r ≠ old → old.step < r.step ∨ (old.step = r.step ∧ old.slot < r.slot)) ∧
      (∀ g : Fin 12, (c false).groups[g].state ≠ 1 ∧ (c false).groups[g].entries.length < 64)) ∧
    (∀ b, (c b).groups[11].entries = e b :: [] ∧ (c b).groups[11].state = 0 ∧ (c b).freeze = 0 ∧ (c b).latent = [] ∧
      ∀ x ∈ (e b).banks 11, x ∉ (c b).taken) ∧
    (h.groups[11].state = 0 ∧ RelState.reset.bankthr ≠ 0 ∧ RelState.reset.bankthr ≤ h.bankUe.toList.getD (8 * 11 + 7) 0) ∧
    d.groups[11].state = 1 ∧ d.groups[11].entries = [] ∧ d.poison = [] ∧ d.latent = [] :=
  ⟨⟨by decide, by decide, by decide, by decide, by decide +kernel⟩, fun _ => ⟨rfl, rfl, rfl, rfl, fun _ _ => List.not_mem_nil⟩, by decide +kernel, rfl, rfl, rfl, rfl⟩

theorem witness_PoolEvents_retirement :
    let d : Core := { base with groups := base.groups.set 11 { base.groups[11] with state := 1, dbank := 7 } }
    d.freeze = 0 ∧ (pkg d).quiet ∧ ({ base with freeze := 4 } : Core).freeze ≠ 0 :=
  ⟨rfl, ⟨rfl, rfl, rfl, rfl, fun c h => by
    simp only [State.cores, pkg, State.reset, List.mem_cons, List.not_mem_nil, or_false] at h
    subst h; exact ⟨rfl, rfl⟩⟩, by decide⟩

/-- A command of core 0. -/
def cmdOf (k : CmdKind) (a b : Word) (desc : List Byte) (ph : CmdPhase) : Cmd := ⟨6, k, a, b, 0, desc, [], [], [], 31, 0, ph, 0, 0, [], [], [], 0⟩

def withCmd (x : Cmd) (list : Nat := 0) : State := world { base with cmds := [x] } list

/-- A layout of 64 raw bytes at 0 of the scratchpad, and one at 64. -/
def layoutValue (at' : Nat) : Nat := at' + 2 ^ 64 + 2 ^ 80 + 2 ^ 128 * 64

/-- A copy of 64 bytes between the layouts at 0x640 and 0x680. -/
def copyDesc : List Byte := leBytes 128 (0x640 + 2 ^ 64 * 0x680 + 2 ^ (8 * 0x30) * (64 + 2 ^ 32 + 2 ^ 64 + 2 ^ 96))

/-- A group record of 64 rows with handle 15 and the kernel at 0x600; zeros are none. -/
def groupValue : Nat := 2 ^ 16 * 15 + 2 ^ 32 * 64 + 2 ^ 64 * 64 + 2 ^ 96 * 64 + 2 ^ 128 * 64 + 2 ^ 192 * 0x600

theorem witness_CommandEvents :
    (∀ k ∈ [CmdKind.pfl, .hpub, .lnch, .cpy, .ggemm], let s := withCmd (cmdOf k 0x640 1 [] .queued)
      (∃ x, s.core.cmds.find? (fun y => y.id == 6) = some x ∧ x.kind = k ∧ x.phase = .queued) ∧
      s.core.behindMarker (cmdOf k 0x640 1 [] .queued) = false ∧ s.mem.views = [] ∧ s.core.run ≠ .saving) ∧
    (let x := cmdOf .cpy 0 0 copyDesc .queued
     let s := withCmd x (layoutValue 0 + 2 ^ 512 * layoutValue 64)
     x.kind.onChannel = true ∧ s.anyFrozen (x.startPools 0) = false ∧ ∃ w y, s.loadCopy 0 1 x = (w, .ok y) ∧ y.startFault = none) ∧
    (let s := withCmd (cmdOf .ggemm 0x640 1 [] .queued) groupValue
     s.mem.ctx 1 = some ctx1 ∧ (∃ w e, (withCmd (cmdOf .ggemm 0x640 1 [] .queued)).walkRecords 0 ctx1 0x640 1 0 = (w, .error e)) ∧
     ∃ w rs, s.walkRecords 0 ctx1 0x640 1 0 = (w, .ok rs) ∧ pairFault rs = false ∧ (w.closeEntries 0 1 rs).2.2 = none) ∧
    (let x : Cmd := { cmdOf .cpy 0 0 copyDesc .started with src := leBytes 64 (layoutValue 0), dst := leBytes 64 (layoutValue 64) }
     x.kind.onChannel = true ∧ x.moved < x.positions ∧ (withCmd x).anyFrozen (x.pools 0) = false ∧
      ∃ w n, (withCmd x).deliverSector 0 1 x = (w, .ok n)) ∧
    (withCmd (cmdOf .cpy 0 0 [] (.done 0x31 4))).collOf 0 6 = none ∧ (withCmd (cmdOf .cpy 0 0 [] (.done 0x31 4))).wordWaits 0 0 = false := by
  refine ⟨?_, ⟨rfl, by decide +kernel, ?_⟩, ⟨rfl, ?_, ?_⟩, ⟨rfl, by decide +kernel, by decide +kernel, ?_⟩, rfl, by decide +kernel⟩
  · intro k hk
    refine ⟨⟨_, rfl, rfl, rfl⟩, ?_, rfl, nofun⟩
    simp only [List.mem_cons, List.not_mem_nil, or_false] at hk
    rcases hk with rfl | rfl | rfl | rfl | rfl <;> decide +kernel
  · obtain ⟨w, y, h, hp⟩ := ok_of (p := fun _ (y : Cmd) => y.startFault.isNone)
      (r := (withCmd (cmdOf .cpy 0 0 copyDesc .queued) (layoutValue 0 + 2 ^ 512 * layoutValue 64)).loadCopy 0 1 (cmdOf .cpy 0 0 copyDesc .queued))
      (by decide +kernel)
    exact ⟨w, y, h, Option.isNone_iff_eq_none.mp hp⟩
  · obtain ⟨w, e, h, _⟩ := error_of (p := fun _ _ => true)
      (r := (withCmd (cmdOf .ggemm 0x640 1 [] .queued)).walkRecords 0 ctx1 0x640 1 0) (by decide +kernel)
    exact ⟨w, e, h⟩
  · obtain ⟨w, rs, h, hp⟩ := ok_of (p := fun (w : State) rs => !pairFault rs && (w.closeEntries 0 1 rs).2.2.isNone)
      (r := (withCmd (cmdOf .ggemm 0x640 1 [] .queued) groupValue).walkRecords 0 ctx1 0x640 1 0) (by decide +kernel)
    have hp := Bool.and_eq_true_iff.mp hp
    exact ⟨w, rs, h, by simpa using hp.1, Option.isNone_iff_eq_none.mp hp.2⟩
  · obtain ⟨w, n, h, _⟩ := ok_of (p := fun _ _ => true)
      (r := (withCmd { cmdOf .cpy 0 0 copyDesc .started with src := leBytes 64 (layoutValue 0), dst := leBytes 64 (layoutValue 64) }).deliverSector 0 1
        { cmdOf .cpy 0 0 copyDesc .started with src := leBytes 64 (layoutValue 0), dst := leBytes 64 (layoutValue 64) }) (by decide +kernel)
    exact ⟨w, n, h⟩

/-- A copy of 64 bytes inside the scratchpad, and a completion word in its last eight bytes. -/
theorem witness_CommandEvents_bytes :
    let x : Cmd := { cmdOf .cpy 0 0 copyDesc .started with src := leBytes 64 (layoutValue 0), dst := leBytes 64 (layoutValue 64) }
    let n := elemBytes x.dstL.efmt
    let at' (l : Layout) (org : Nat → Nat) (p : Nat) : Int :=
      let e := p / n
      let b := x.box
      let y0 := org 0 + e % b 0
      let y1 := org 1 + e / b 0 % b 1
      let y2 := org 2 + e / (b 0 * b 1) % b 2
      let y3 := org 3 + e / (b 0 * b 1 * b 2) % b 3
      (l.base : Int) + n * y0 + l.stride.getD 0 0 * y1 + l.stride.getD 1 0 * y2 + l.stride.getD 2 0 * y3 + (p % n : Nat)
    let y : Cmd := { cmdOf .cpy 0 0 [] (.done 0x31 4) with cw := BitVec.ofNat 64 (2 ^ 60 + base.scratchSize - 8) }
    (x.moved < n * (x.box 0 * x.box 1 * x.box 2 * x.box 3) ∧ x.moved % n = 0 ∧ x.srcUnits = [] ∧ x.ahead = [] ∧ x.srcL.efmt = x.dstL.efmt ∧
      grouped x.dstL.efmt = false ∧ x.dstL.efmt ≠ 0x14 ∧ x.srcL.space = 1 ∧ x.dstL.space = 1 ∧ x.srcL.paged = false ∧ x.dstL.paged = false) ∧
    (∀ p, p < n * (x.box 0 * x.box 1 * x.box 2 * x.box 3) →
      0 ≤ at' x.srcL x.sorg p ∧ at' x.srcL x.sorg p < base.scratchSize ∧ 0 ≤ at' x.dstL x.dorg p ∧ at' x.dstL x.dorg p < base.scratchSize) ∧
    (base.freeze = 0 ∧ base.latent = [] ∧ base.poison = [] ∧ base.races = [] ∧ ∀ g : Fin 12, base.groups[g].state ≠ 1) ∧
    (withCmd y).collOf 0 6 = none ∧ y.cw.toNat / 2 ^ 60 = 1 ∧ y.cw.toNat % 2 ^ 60 + 8 = base.scratchSize ∧ ∀ j, base.clean j :=
  ⟨by decide +kernel, by decide +kernel, ⟨rfl, rfl, rfl, rfl, by decide +kernel⟩, rfl, by decide +kernel, by decide +kernel,
    fun j => clean_of _ j rfl rfl⟩

theorem witness_FetchAccepted : ∃ (s u : State) (x : Cmd) (src len : Nat),
    s.core.cmds.find? (fun z => z.id == 6) = some x ∧ x.kind = .expf ∧ x.phase = .queued ∧ s.expert.en = true ∧
    s.expert.entries.length + 65 ≤ 1024 ∧ s.core.behindMarker x = false ∧ s.mem.views = [] ∧
    (∀ z ∈ s.core.cmds, z.kind.engine = x.kind.engine → z.open = true → x.id ≤ z.id) ∧ s.core.vars = [] ∧ s.mem.ctx 1 = some ctx1 ∧
    s.directory ctx1 (x.a.toNat / 2 ^ 32) = (u, .ok (src, len)) ∧ (u.handle (x.a.toNat % 2 ^ 14)).state = 0 := by
  let x := cmdOf .expf 15 7 [] .queued
  let s : State := { withCmd x with expert := { ExpertState.reset with en := true } }
  obtain ⟨u, e, h, hp⟩ := ok_of (p := fun (u : State) _ => (u.handle (x.a.toNat % 2 ^ 14)).state == 0)
    (r := s.directory ctx1 (x.a.toNat / 2 ^ 32)) (by decide +kernel)
  refine ⟨s, u, x, e.1, e.2, rfl, rfl, rfl, rfl, by decide, by decide +kernel, rfl, fun z hz _ _ => ?_, rfl, rfl, h, eq_of_beq hp⟩
  simp only [s, withCmd, world, tasked, pkg, List.mem_singleton] at hz
  subst hz
  exact Nat.le_refl _

/-! ## Witnesses: launches, lists, experts, contexts -/

def asked (r : Word) : LaunchReq := ⟨20, .core 0 6, r, 0, 1, 0, 0⟩

def asking (r : Word) : State :=
  let s := world base
  { s with launch := { s.launch with reqs := [asked r] } }

/-- A record that breaks R321 (zeros) and one that does not. -/
theorem witness_LaunchEvents_accept :
    (asking 0).launch.reqs.find? (fun x => x.id == 20) = some (asked 0) ∧ (asked 0).depth ≤ 1 ∧ (asking 0).launch.lpres < (asking 0).poolLeft ∧
    (∃ w b, (asking 0).engRead 0 1 0 384 = (w, .ok b) ∧ field b 0 8 % 64 = 0 ∧ field b 0 8 / 2 ^ 60 = 0 ∧
      ∃ y kernel, w.engRead 0 1 (BitVec.ofNat 64 (field b 0 8)) 64 = (y, .ok kernel) ∧ ∃ off, y.launchFault 1 0 b kernel = some off) ∧
    ∃ w b, (asking 0x280).engRead 0 1 0x280 384 = (w, .ok b) ∧ field b 0 8 % 64 = 0 ∧ field b 0 8 / 2 ^ 60 = 0 ∧
      ∃ y kernel, w.engRead 0 1 (BitVec.ofNat 64 (field b 0 8)) 64 = (y, .ok kernel) ∧ y.launchFault 1 0 b kernel = none := by
  refine ⟨rfl, Nat.zero_le _, by decide +kernel, ?_, ?_⟩
  · obtain ⟨w, b, h, hp⟩ := ok_of (r := (asking 0).engRead 0 1 0 384) (p := fun (w : State) b =>
      (field b 0 8 % 64 == 0 && field b 0 8 / 2 ^ 60 == 0) && gives (w.engRead 0 1 (BitVec.ofNat 64 (field b 0 8)) 64)
        fun (y : State) kernel => (y.launchFault 1 0 b kernel).isSome) (by decide +kernel)
    have hp := Bool.and_eq_true_iff.mp hp
    have h1 := Bool.and_eq_true_iff.mp hp.1
    obtain ⟨y, kernel, h2, h3⟩ := ok_of (r := w.engRead 0 1 (BitVec.ofNat 64 (field b 0 8)) 64)
      (p := fun (y : State) kernel => (y.launchFault 1 0 b kernel).isSome) hp.2
    exact ⟨w, b, h, eq_of_beq h1.1, eq_of_beq h1.2, y, kernel, h2, Option.isSome_iff_exists.mp h3⟩
  · obtain ⟨w, b, h, hp⟩ := ok_of (r := (asking 0x280).engRead 0 1 0x280 384) (p := fun (w : State) b =>
      (field b 0 8 % 64 == 0 && field b 0 8 / 2 ^ 60 == 0) && gives (w.engRead 0 1 (BitVec.ofNat 64 (field b 0 8)) 64)
        fun (y : State) kernel => (y.launchFault 1 0 b kernel).isNone) (by decide +kernel)
    have hp := Bool.and_eq_true_iff.mp hp
    have h1 := Bool.and_eq_true_iff.mp hp.1
    obtain ⟨y, kernel, h2, h3⟩ := ok_of (r := w.engRead 0 1 (BitVec.ofNat 64 (field b 0 8)) 64)
      (p := fun (y : State) kernel => (y.launchFault 1 0 b kernel).isNone) hp.2
    exact ⟨w, b, h, eq_of_beq h1.1, eq_of_beq h1.2, y, kernel, h2, Option.isNone_iff_eq_none.mp h3⟩

/-- A record of which only the first page can be read, and one of which nothing can. -/
theorem witness_LaunchEvents_unread :
    (∃ w e, (asking 0xFF00).engRead 0 1 0xFF00 384 = (w, .error e) ∧ ∃ y b, w.engRead 0 1 0xFF10 8 = (y, .ok b) ∧ y.ownLoss 1 = false) ∧
    ∃ w e, (asking 0x10000).engRead 0 1 0x10000 384 = (w, .error e) ∧ ∃ y d, w.engRead 0 1 0x10010 8 = (y, .error d) := by
  constructor
  · obtain ⟨w, e, h, hp⟩ := error_of (r := (asking 0xFF00).engRead 0 1 0xFF00 384)
      (p := fun (w : State) _ => gives (w.engRead 0 1 0xFF10 8) fun y _ => !y.ownLoss 1) (by decide +kernel)
    obtain ⟨y, b, h', hq⟩ := ok_of hp
    exact ⟨w, e, h, y, b, h', Bool.not_eq_true' _ ▸ hq⟩
  · obtain ⟨w, e, h, hp⟩ := error_of (r := (asking 0x10000).engRead 0 1 0x10000 384)
      (p := fun (w : State) _ => fails (w.engRead 0 1 0x10010 8) fun _ _ => true) (by decide +kernel)
    obtain ⟨y, d, h', _⟩ := error_of hp
    exact ⟨w, e, h, y, d, h'⟩

/-- A launch of two levels, the first of 2 iterations in the package, the second of 4 in a cluster; gang level as given. -/
def twoLevels (gang tcfe : Nat) : Launch :=
  { launch7 (leBytes 0x180 (2 ^ (8 * 0x18) * (1 + 8 * tcfe + 2 ^ 8 * gang + 2 ^ 4) + 2 ^ (8 * 0x40) * (2 + 0x33 * 2 ^ 32) +
      2 ^ (8 * 0x48) * (4 + 0x11 * 2 ^ 32))) with kernel := [] }

def ranged (l : Launch) (r : RangeTask) : State :=
  let s := world (Core.reset 0)
  { s with launch := { s.launch with launches := [l], tasks := [], gangs := [], ranges := [r] } }

def range0 (level next : Nat) (tile : Option Nat) : RangeTask := ⟨7, tile, [], level, next, 2, some 0, 3, 0⟩

/-- Ranges at a gang level, at their end, at the tile level, above another level, and at the last level; what core 0 is offered;
a tile all of whose inputs are there; a gang; a launch whose work is done; a tag that is new and one that is not newer. -/
theorem witness_LaunchEvents :
    (let s := ranged (twoLevels 0 0) (range0 0 0 none)
     s.heldRange 0 = some (range0 0 0 none) ∧ s.coreFree 0 = true ∧ s.dispatches 7 = true ∧ ∃ p, s.spec? 7 = some p ∧ 0 < p.depthOf ∧ 0 = p.gang) ∧
    (let s := ranged (twoLevels 8 1) (range0 0 2 none)
     s.heldRange 0 = some (range0 0 2 none) ∧ s.coreFree 0 = true ∧ s.dispatches 7 = true ∧ ∃ p, s.spec? 7 = some p ∧ 0 < p.depthOf ∧ 0 ≠ p.gang) ∧
    (let s := ranged (twoLevels 8 1) (range0 1 1 none)
     s.heldRange 0 = some (range0 1 1 none) ∧ s.coreFree 0 = true ∧ ∃ p, s.spec? 7 = some p ∧ 1 ≠ p.gang ∧ 1 = p.tlev ∧ (p.level 1).dom ≠ 4) ∧
    (let s := ranged (twoLevels 8 1) (range0 0 1 (some 5))
     s.heldRange 0 = some (range0 0 1 (some 5)) ∧ ∃ p, s.spec? 7 = some p ∧ 0 ≠ p.gang ∧ 0 + 1 < p.depthOf ∧ (p.level 0).dom ≠ 4) ∧
    (let s := ranged (twoLevels 8 1) (range0 1 1 (some 5))
     s.heldRange 0 = some (range0 1 1 (some 5)) ∧ ∃ p, s.spec? 7 = some p ∧ 1 ≠ p.gang ∧ 1 + 1 = p.depthOf ∧ (p.level 1).dom ≠ 4) ∧
    (let r : RangeTask := { range0 0 0 none with holder := none }
     (ranged (twoLevels 8 1) r).offerFor 0 = some (.orphan r)) ∧
    (let t : TileTask := ⟨5, 7, [], [0, 0, 0], none, (3, 0), .waiting, [], [], []⟩
     let s : State := { world base with launch := { (tasked base).launch with tiles := [t] } }
     s.launch.tiles.find? (fun y => y.id == 5) = some t ∧ t.state = .waiting ∧ (∀ b ∈ t.inputs, b = true) ∧ s.tileHandles t = []) ∧
    (let g : Gang := { gang1 with dispatched := false }
     let s : State := { world (Core.reset 0) with launch := { (tasked base).launch with tasks := [], gangs := [g] } }
     s.launch.gangs.find? (fun y => y.id == 1) = some g ∧ s.gangCores g = some [([0], 0)]) ∧
    (let s : State := { world base with launch := { (tasked base).launch with tasks := [] } }
     s.launch.launches.find? (fun y => y.id == 7) = some (launch7 []) ∧ s.launchDone 7 = true) ∧
    (let p : Pub := ⟨30, .core 0 6, 1, 5, 1, none, false, [], 0, false⟩
     let s : State := { world base with launch := { (tasked base).launch with pubs := [p] } }
     let u : State := { s with launch := { s.launch with tags := [⟨1, 5, 2, 1, 0, none, []⟩] } }
     s.launch.pubs.find? (fun y => y.id == 30) = some p ∧ s.tag? 1 5 = none ∧ s.launch.dieUse (homeDie 5) < 8192 ∧
     ∃ t, u.tag? 1 5 = some t ∧ newer 1 t.gen = false ∧ t.gen ≠ 1) :=
  ⟨⟨by decide +kernel, by decide +kernel, by decide +kernel, _, rfl, by decide +kernel, by decide +kernel⟩,
    ⟨by decide +kernel, by decide +kernel, by decide +kernel, _, rfl, by decide +kernel, by decide +kernel⟩,
    ⟨by decide +kernel, by decide +kernel, _, rfl, by decide +kernel, by decide +kernel, by decide +kernel⟩,
    ⟨by decide +kernel, _, rfl, by decide +kernel, by decide +kernel, by decide +kernel⟩,
    ⟨by decide +kernel, _, rfl, by decide +kernel, by decide +kernel, by decide +kernel⟩, by decide +kernel,
    ⟨rfl, rfl, by decide, by decide +kernel⟩, ⟨rfl, by decide +kernel⟩, ⟨rfl, by decide +kernel⟩,
    rfl, rfl, by decide +kernel, _, rfl, by decide +kernel, by decide⟩

/-- List 63 at an entry. -/
def listing (o cond : Nat) (wait : ListWait) : State :=
  let s := world base (o + 2 ^ 8 * cond)
  s.setList 63 ⟨0x640, 3, 1, true, 0, 0, false, false, true, 0x640, [4], 0, wait⟩

def entryReady (o cond : Nat) (wait : ListWait) : Prop :=
  ∃ w e, (listing o cond wait).entryAt 63 = (w, .ok e) ∧ w.entryBad e = false ∧ e.op = o ∧
    ∃ y n, w.listWord 63 e = (y, .ok n) ∧ (e.meets n ↔ cond = 0)

theorem entryReady_of (o cond : Nat) (wait : ListWait)
    (h : gives ((listing o cond wait).entryAt 63) (fun w e =>
      (!w.entryBad e && e.op == o && e.b == 0 && e.c == 0 && e.cond == cond && decide (cond ≤ 1)) &&
        gives (w.listWord 63 e) fun _ _ => true) = true) : entryReady o cond wait := by
  obtain ⟨w, e, h, hp⟩ := ok_of h
  have hp := Bool.and_eq_true_iff.mp hp
  obtain ⟨y, n, h2, _⟩ := ok_of hp.2
  have hq := hp.1
  simp only [Bool.and_eq_true, Bool.not_eq_true', beq_iff_eq, decide_eq_true_eq] at hq
  obtain ⟨⟨⟨⟨⟨a, b⟩, c⟩, d⟩, f⟩, g⟩ := hq
  refine ⟨w, e, h, a, b, y, n, h2, ?_⟩
  simp only [Entry.meets, c, d, f]
  by_cases hc : cond = 0
  · simp [hc]
  · have : cond = 1 := by omega
    simp [this]

theorem witness_ListEvents :
    (listing 1 0 .none).chosenList = some 63 ∧ (∀ o ∈ [1, 2, 3, 4, 5, 6, 7, 8, 9], entryReady o 0 .none) ∧
    entryReady 2 1 .none ∧ entryReady 4 1 .none ∧ entryReady 2 0 .word ∧
    ((listing 2 0 .word).list 63).wait = .word ∧ ((listing 2 0 .word).list 63).busy = true ∧ (listing 2 0 .word).mem.ctx 1 = some ctx1 ∧
    (world base).serves (32 * 63) = true ∧ ((listing 1 0 .none).list 63).stack.length < 8 := by
  refine ⟨by decide +kernel, ?_, entryReady_of _ _ _ (by decide +kernel), entryReady_of _ _ _ (by decide +kernel),
    entryReady_of _ _ _ (by decide +kernel), by decide +kernel, by decide +kernel, rfl, by decide +kernel, by decide +kernel⟩
  intro o ho
  simp only [List.mem_cons, List.not_mem_nil, or_false] at ho
  rcases ho with rfl | rfl | rfl | rfl | rfl | rfl | rfl | rfl | rfl <;> exact entryReady_of _ _ _ (by decide +kernel)

/-- The last handle, queued with an image of one page: its read, its failure and its deadline; the staging of a handle whose
image has come (of no page, so that the kernel has no page to read); the commands of the last context. -/
theorem witness_ExpertAndContextEvents :
    let e : BpEntry := ⟨15, some 9, 0, 0, false, false, false⟩
    let x : Handle := ⟨15, 1, 1, some 0, 0, [], false, 0, 0, 0, 1, [], []⟩
    let s : State := { world base with expert := { ExpertState.reset with en := true, frames := 4, entries := [e], handles := [x] } }
    let h : State := { s with expert := { s.expert with hostord := true } }
    let y : Handle := { x with state := 2, frames := [0], got := [] }
    let f : State := { s with expert := { s.expert with entries := [{ e with started := true }], handles := [y] }, mem := { s.mem with tlb := [] } }
    let u : State := { f with expert := { f.expert with handles := [{ y with len := 0, got := [] }] } }
    (e ∈ s.expert.entries ∧ (s.handle 15).state = 1 ∧ s.readsInFlight < 64 ∧ s.mem.ctx 1 = some ctx1 ∧
      s.framesHeld 1 + 1 ≤ ctx1.quota ∧ 1 ≤ s.freeFrames.length ∧ h.serves 0x1218 = true) ∧
    ((u.handle 15).state = 2 ∧ u.stagingFault (u.handle 15) = none ∧ u.missingPage (u.handle 15) = none) ∧ (f.stagingFault (f.handle 15)).isSome = true ∧
    s.expert.entries.find? (fun y => y.handle == 15 && !y.missed) = some e ∧ e.deadline = some 9 ∧
    (s.serves 0x1108 = true ∧ s.host.op = 0 ∧ s.mem.ctx 1023 = none) ∧
    (s.mem.physRead (s.host.ctxbase.toNat / 2 ^ 18 * 2 ^ 18 + 256 * 2) 256).2.isSome = true ∧
    Ctx.valid (Ctx.ofBytes 1023 (List.replicate 256 0)) (List.replicate 256 0) [] = true ∧
    Ctx.valid (Ctx.ofBytes 1023 (List.replicate 256 1)) (List.replicate 256 1) [] = false :=
  ⟨⟨List.mem_cons_self .., by decide +kernel, by decide +kernel, rfl, by decide +kernel, by decide +kernel, by decide +kernel⟩,
    ⟨by decide +kernel, by decide +kernel, by decide +kernel⟩, by decide +kernel, rfl, rfl, ⟨by decide +kernel, rfl, rfl⟩, by decide +kernel, by decide +kernel,
    by decide +kernel⟩

theorem witness_ExpertAndContextEvents' :
    let t : Task := { task0 with gang := none }
    let s := withTask (world base) t
    let u : State := { s with mem := { s.mem with ctxs := [{ ctx1 with state := 3 }] } }
    (s.mem.ctx 1 = some ctx1 ∧ s.launch.tasks = [t] ∧ t.begun = true ∧ (s.coreAt t.core).runs 1 = true ∧ s.launch.claims = [] ∧
      (s.coreAt t.core).run ≠ .saving ∧ 1 ≤ s.slotsLeft 1) ∧ u.mem.ctx 1 = some { ctx1 with state := 3 } :=
  ⟨⟨rfl, rfl, rfl, by decide +kernel, rfl, by decide +kernel, by decide +kernel⟩, rfl⟩

/-- The tables of a context: three levels below the root, with a word at the last of them and one at the level above. -/
def walked (e2 e3 : Nat) : MemState := { MemState.reset with
  ctxs := [{ ctx1 with ptroot := 0x10000 }], keys := [(0, 0)]
  hbm := (((MemState.reset.hbm.store 0x10000 8 0x11001).store 0x11000 8 0x12001).store 0x12000 8 e2).store 0x13000 8 e3 }

/-- A walk of address 0 that leads to a page of 2 MiB, to one of 64 KiB, and to a word that is neither at either level. -/
theorem witness_ExpertAndContextEvents_walk :
    let m := walked 0x13001 0x39
    let sound (m : MemState) : Prop := m.still ∧ (∀ a ∈ [0x10000, 0x11000, 0x12000, 0x13000], m.badAt ⟨0, a, 0, 0⟩ = false) ∧
      m.tlb = [] ∧ m.changes = [] ∧ m.ctx 1 = some { ctx1 with ptroot := 0x10000 } ∧
      m.entryRule 0x10000 = 0x11001 ∧ m.entryRule 0x11000 = 0x12001
    sound m ∧ ({ ctx1 with ptroot := 0x10000 } : Ctx).handleAt 0 = none ∧ tableEntry 0 0x11001 ∧ tableEntry 1 0x12001 ∧
    (m.entryRule 0x12000 = 0x13001 ∧ tableEntry 2 0x13001 ∧ m.entryRule 0x13000 = 0x39 ∧ leafEntry 3 0x39) ∧
    (let m := walked 0x59 0; sound m ∧ m.entryRule 0x12000 = 0x59 ∧ leafEntry 2 0x59) ∧
    (let m := walked 0x03 0; sound m ∧ m.entryRule 0x12000 = 0x03 ∧ ¬leafEntry 2 0x03 ∧ ¬tableEntry 2 0x03) ∧
    (let m := walked 0x13001 0; sound m ∧ m.entryRule 0x13000 = 0 ∧ ¬leafEntry 3 0) ∧ ¬tableEntry 0 0 := by
  have sound (e2 e3 : Nat) (h : ∀ a ∈ [0x10000, 0x11000, 0x12000, 0x13000], (walked e2 e3).badAt ⟨0, a, 0, 0⟩ = false)
      (h0 : (walked e2 e3).entryRule 0x10000 = 0x11001) (h1 : (walked e2 e3).entryRule 0x11000 = 0x12001) :
      (walked e2 e3).still ∧ (∀ a ∈ [0x10000, 0x11000, 0x12000, 0x13000], (walked e2 e3).badAt ⟨0, a, 0, 0⟩ = false) ∧
      (walked e2 e3).tlb = [] ∧ (walked e2 e3).changes = [] ∧ (walked e2 e3).ctx 1 = some { ctx1 with ptroot := 0x10000 } ∧
      (walked e2 e3).entryRule 0x10000 = 0x11001 ∧ (walked e2 e3).entryRule 0x11000 = 0x12001 :=
    ⟨⟨rfl, rfl, rfl, nofun, nofun⟩, h, rfl, rfl, rfl, h0, h1⟩
  refine ⟨sound _ _ (by decide +kernel) (by decide +kernel) (by decide +kernel), by decide, by unfold tableEntry; decide, by unfold tableEntry; decide,
    ⟨by decide +kernel, by unfold tableEntry; decide, by decide +kernel, by unfold leafEntry; decide⟩,
    ⟨sound _ _ (by decide +kernel) (by decide +kernel) (by decide +kernel), by decide +kernel, by unfold leafEntry; decide⟩,
    ⟨sound _ _ (by decide +kernel) (by decide +kernel) (by decide +kernel), by decide +kernel, by unfold leafEntry; decide, by unfold tableEntry; decide⟩,
    ⟨sound _ _ (by decide +kernel) (by decide +kernel) (by decide +kernel), by decide +kernel, by unfold leafEntry; decide⟩, by unfold tableEntry; decide⟩

/-! ## Witnesses: repairs, the host, the devices, the platform -/

/-- The log of core 0 awaits a replay on core 2048, and one is confirmed by nobody yet. -/
theorem witness_RepairsAndReferee :
    let l : AuditLog := ⟨0, 0, true, true, 0, 5, []⟩
    let e : AuditEntry := ⟨1, 0, 0, l, none, false⟩
    let e3 : AuditEntry := { e with first := some (2048, 6) }
    let s : State := { world base with rel := { RelState.reset with logs := [e] } }
    let u : State := { world base with rel := { RelState.reset with logs := [e3], refThr := 1 } }
    let d : State := { world (Core.reset 0) with launch := LaunchState.reset, rel := { RelState.reset with retiring := [(0, 2)] } }
    (s.serves 0x10030 = true ∧ (0 ∉ s.mem.frames) ∧ s.mem.frames.length < 4096) ∧
    ((s.coreAt 0).run ≠ .retired ∧ (∀ x ∈ s.rel.retiring, x.1 ≠ 0) ∧ s.launch.tasks.find? (fun x => x.core == 0 && x.begun) = some task0 ∧
      (∀ x ∈ s.launch.claims, x.victim ≠ 0) ∧ s.mates task0 ≤ s.slotsLeft (s.coreAt 0).ctx ∧ ∀ y ∈ s.launch.tasks, y.begun = true) ∧
    (d.rel.retiring.find? (fun x => x.1 == 0) = some (0, 2) ∧ (d.coreAt 0).run = .idle ∧ ∀ y ∈ d.launch.tasks, y.core ≠ 0) ∧
    (s.rel.nextLog = some e ∧ s.replayCluster 0 128 [0] = some (2048 / 16)) ∧
    (u.rel.logs.find? (fun y => y.num == 1) = some e3 ∧ u.replayCluster 0 64 [0, 2048 / 16] = some (1024 / 16) ∧
      u.rel.refThr ≠ 0 ∧ u.rel.refThr ≤ min 255 ((u.coreAt 0).refCnt + 1) ∧ u.host.duty.getLsbD 3 = false ∧ (u.coreAt 0).run ≠ .retired) ∧
    (s.serves 0x10108 = true ∧ s.serves 0x10100 = true ∧ s.serves 0x10018 = true ∧ s.serves 0x10010 = true ∧ s.serves 0x10020 = true) :=
  ⟨⟨by decide +kernel, by decide, by decide⟩, ⟨by decide, nofun, rfl, nofun, by decide +kernel, by decide +kernel⟩, ⟨rfl, rfl, nofun⟩, ⟨rfl, by decide +kernel⟩,
    ⟨rfl, by decide +kernel, by decide, by decide +kernel, rfl, by decide⟩, by decide +kernel, by decide +kernel, by decide +kernel,
    by decide +kernel, by decide +kernel⟩

/-- Every configuration register; BAR2 up to the last byte; the link; an access of a peer; a store that another package answers. -/
theorem witness_HostAndPeers :
    let s : State := { State.reset with plat := { PlatState.reset with phase := 5 } }
    let p : State := { world base with host := { HostState.reset with peerEn := true, peerCtx := 1, xsize := 1, ports := 1 } }
    let q : PeerStore := ⟨0, 1, 3, 0, [0]⟩
    let c : Core := { base with peerStores := [q] }
    (∀ off ∈ [0x1000, 0x1008, 0x1100, 0x1200, 0x1208, 0x1300, 0x1308, 0x1400, 0x1408, 0x1410, 0x1500, 0x10110, 0x10118],
      (configMask off).isSome = true ∧ s.serves off = true) ∧ s.mem.ctxs = [] ∧ s.plat.bootErr = false ∧ (world base).mem.ctxs ≠ [] ∧
    (s.plat.phase = 5 ∧ Config.hbmBytes - 1 + 1 ≤ Config.hbmBytes ∧ s.host.apEn = false ∧ s.mem.hbmPoison = [] ∧ s.mem.hbmErr = []) ∧
    (p.mem.linkUp = true ∧ s.mem.linkUp = false) ∧
    (∃ w l, p.peerPlaces 0 8 .read = (w, .ok l) ∧ (w.readRange (Range.of l)).2.2 = .ok) ∧
    (∃ w l, p.peerPlaces 0 8 .write = (w, .ok l) ∧ (w.writeRange 0 1 0 (Range.of l) (leBytes 8 7)).2 = .ok) ∧
    (∃ w l, p.peerPlaces 0 8 .atomic = (w, .ok l) ∧ (w.readRange (Range.of l)).2.2 = .ok) ∧ s.host.peerEn = false ∧
    (c.peerStores.find? (fun x => x.id == 0) = some q ∧ (∀ x ∈ c.peerStores, x.package = q.package → 0 ≤ x.id) ∧ q.package ≠ p.host.rank) ∧
    (p.peerStore 0 (leBytes 8 7)).2 = 0 := by
  refine ⟨by decide +kernel, rfl, rfl, by decide, ⟨rfl, by decide, rfl, rfl, rfl⟩, ⟨rfl, rfl⟩, ?_, ?_, ?_, rfl,
    ⟨rfl, fun _ _ _ => Nat.zero_le _, by decide⟩, by decide +kernel⟩
  · obtain ⟨w, l, h, hp⟩ := ok_of (p := fun (w : State) l => (w.readRange (Range.of l)).2.2 == .ok)
      (r := State.peerPlaces { world base with host := { HostState.reset with peerEn := true, peerCtx := 1, xsize := 1, ports := 1 } } 0 8 .read)
      (by decide +kernel)
    exact ⟨w, l, h, eq_of_beq hp⟩
  · obtain ⟨w, l, h, hp⟩ := ok_of (p := fun (w : State) l => (w.writeRange 0 1 0 (Range.of l) (leBytes 8 7)).2 == .ok)
      (r := State.peerPlaces { world base with host := { HostState.reset with peerEn := true, peerCtx := 1, xsize := 1, ports := 1 } } 0 8 .write)
      (by decide +kernel)
    exact ⟨w, l, h, eq_of_beq hp⟩
  · obtain ⟨w, l, h, hp⟩ := ok_of (p := fun (w : State) l => (w.readRange (Range.of l)).2.2 == .ok)
      (r := State.peerPlaces { world base with host := { HostState.reset with peerEn := true, peerCtx := 1, xsize := 1, ports := 1 } } 0 8 .atomic)
      (by decide +kernel)
    exact ⟨w, l, h, eq_of_beq hp⟩

/-- BAR2 in both phases that serve it and in one that does not, up to the last byte; a snoop of a line that the LLC holds and of one that
host memory holds; a store through the own aperture; ports down and up. -/
theorem witness_HostAndPeers_served :
    let at' (n : Nat) : State := { State.reset with plat := { PlatState.reset with phase := n } }
    let held' : State := { State.reset with mem := { MemState.reset with llc := [⟨2, 2, 0, 5, true, 1, false, 0, false, false⟩] } }
    let q : PeerStore := ⟨0, 1, 0, BitVec.ofNat 64 (5 * 2 ^ 60), leBytes 8 7⟩
    let c : Core := { base with peerStores := [q] }
    let s := peering c
    let down : State := { s with host := { s.host with ports := 0 } }
    (∀ n ∈ [4, 5], (at' n).plat.phase = n ∧ (at' n).plat.bootErr = false ∧ (at' n).mem.still ∧ (at' n).host.apEn = false ∧ (at' n).mem.hbmPoison = []) ∧
    ((at' 3).plat.phase ≠ 5 ∧ (at' 3).plat.phase ≠ 4) ∧
    ((∃ x, held'.mem.sector? 2 2 = some x ∧ x.err = 0 ∧ x.poison = false) ∧ held'.mem.sector? 2 3 = none ∧ 3 ∉ held'.mem.hostPoison) ∧
    ((s.focus 0).core.peerStores.find? (fun x => x.id == 0) = some q ∧ q.package = s.host.rank ∧ s.host.ports ≠ 0 ∧ down.host.ports = 0 ∧
      ((s.focus 0).peerStore (q.ptr.toNat % 2 ^ 48) q.data).2 = 0) ∧
    (s.host.ports.getLsbD 0 = true ∧ s.host.ports.getLsbD 3 = false) :=
  ⟨fun n _ => ⟨rfl, rfl, ⟨rfl, rfl, rfl, nofun, nofun⟩, rfl, rfl⟩, ⟨by decide, by decide⟩, ⟨⟨_, rfl, rfl, rfl⟩, by decide +kernel, by decide⟩,
    ⟨rfl, rfl, by decide, rfl, by decide +kernel⟩, by decide, by decide⟩

/-- The channel of the last granule in each state of its port: a request that takes a tag, one that waits, one that is held; requests
that reply, one of them behind a write; a retirement, its drain, and a copy with a write and a read held. -/
theorem witness_HbmAndFlash_channels :
    let last := Config.hbmBytes - 32
    let r : HbmReq := ⟨7, last, .rd, 0, false, false⟩
    let d : HbmReq := ⟨6, last, .wr 5, 0, false, false⟩
    let q := channelOf last
    let chan (st : Nat) (reqs : List HbmReq) (waiting held : List (Nat × HbmKind)) : State := { world base with
      hbm := { HbmState.reset with chan := q }
      mem := { worldMem 0 with chans := [{ Hchan.zero q with state := st, reqs := reqs, waiting := waiting, held := held }] } }
    let full := (List.range 8).map fun n => (⟨n, last, .rd, 0, false, false⟩ : HbmReq)
    (last < Config.hbmBytes ∧ last % 32 = 0 ∧ q < Config.hbmChannels) ∧
    (((chan 0 [d] [] []).chan q).state ≠ 2 ∧ ((chan 0 [d] [] []).chan q).reqs.length < 8 ∧ ((chan 0 [d] [] []).chan q).waiting = [] ∧
      ((chan 0 [d] [] []).chan q).reqs = [] ++ [d] ∧ d.gran = last ∧ d.kind = .wr 5) ∧
    8 ≤ ((chan 0 full [] []).chan q).reqs.length ∧
    (((chan 1 [] [] [(last, .wr 5)]).chan q).state = 1 ∧ ((chan 1 [] [] [(last, .wr 5)]).chan q).held = [(last, .wr 5)]) ∧
    ((chan 2 [] [] []).chan q).state = 2 ∧
    (let s := chan 0 [d, r] [] []
     (s.chan q).reqs.find? (fun y => y.tag == 6) = some d ∧ (s.chan q).reqs.takeWhile (fun y => y.tag != 6) = [] ∧
     (s.chan q).reqs.find? (fun y => y.tag == 7) = some r ∧ (s.chan q).reqs.takeWhile (fun y => y.tag != 7) = [d] ∧
     r.gran / 64 ∉ (s.chan q).bad ∧ r.gran / 32 ∉ s.mem.hbmPoison ∧ s.mem.hbmErr = []) ∧
    (let s := chan 0 full [(0, .rd)] []
     (s.chan q).waiting = (0, .rd) :: [] ∧ ((s.chan q).reqs.filter fun y => y.tag != 7).length = 7) ∧
    (let s := chan 0 [] [] []
     let t : State := { s with hbm := { s.hbm with count := 1 } }
     (t.hbm.phase = 0 ∧ (t.chan q).state = 0 ∧ t.hbm.used ≠ t.hbm.count ∧ t.serves 0x20048 = true) ∧ s.hbm.used = s.hbm.count ∧
     State.reset.serves 0x20048 = false) ∧
    (let s := chan 1 [r] [(last, .rd)] [(last, .wr 5), (last, .rd)]
     let t (n : Nat) : State := { s with hbm := { s.hbm with phase := n } }
     ((t 2).hbm.phase = 2 ∧ (∀ y ∈ ((t 2).chan q).reqs, y.kind.write = false) ∧ ∀ y ∈ ((t 2).chan q).waiting, y.2.write = false) ∧
     (t 3).hbm.phase = 3 ∧ (t 3).mem.recs = [] ∧ (∀ c ∈ (t 3).cores, c.recs = []) ∧ (t 3).mem.hbmErr = []) := by
  refine ⟨?_, ?_, ?_, ?_, ?_, ?_, ?_, ?_, ?_⟩ <;> decide +kernel

/-- A page read at the last allowed READS, and one with its tries spent; relocations, an erase and a deferred start, with a free block
and with none; the commands of the flash on a block in use. -/
theorem witness_HbmAndFlash :
    let blk : Block := { Block.fresh 0 9 with state := 1, reads := 999999, filled := 1 }
    let fl (b : Block) (reads : List PageRead) : State :=
      { world base with flash := { FlashState.reset with map := [⟨0, 9, 0⟩], blocks := [b], reads := reads } }
    let host (s : State) : State := { s with host := { s.host with duty := 1 } }
    let rd (n : Nat) : PageRead := ⟨2, 0, 3, 0, 9, none, n⟩
    (let s := fl blk []
     s.blockOf 0 = some 9 ∧ s.blockOf 8 = none ∧ s.flash.rdthr ≤ min ((s.block 0 9).reads + 1) (2 ^ 24 - 1) ∧ (s.block 0 9).state = 1 ∧
     s.host.duty.getLsbD 0 = false ∧ (host s).host.duty.getLsbD 0 = true ∧ (s.setBlock { blk with reads := 1000000 }).freeBlock 0 = some 0) ∧
    ((fl blk [rd 2]).flash.reads.find? (fun x => x.id == 2) = some (rd 2) ∧ (rd 2).tries < 3 ∧ 3 ≤ (rd 3).tries ∧
      4 * (rd 3).unit + (rd 3).page ∉ (fl blk [rd 3]).mem.flashBad ∧ 4 * (rd 3).unit + (rd 3).page ∉ (fl blk [rd 3]).mem.flashErr) ∧
    (∀ why : Option Nat, let b : Block := { blk with state := 2, toBlock := some 0, retire := why }
     ((fl b []).block 0 9).toBlock = some 0 ∧ ((fl b []).block 0 9).retire = why ∧ ((fl b []).block 0 9).state = 2) ∧
    (((fl { blk with erasing := true } []).block 0 9).erasing = true ∧ (fl { blk with erasing := true } []).flash.reads = []) ∧
    (let s := fl blk []
     let t : State := { s with flash := { s.flash with deferred := [(0, 9, 1)] } }
     t.flash.deferred.find? (fun x => x.1 == 0) = some (0, 9, 1) ∧ t.freeBlock 0 = some 0 ∧ (host t).host.duty.getLsbD 0 = true) ∧
    (let s := fl blk []
     let arg (v : Word) : State := { s with flash := { s.flash with flarg := v } }
     let value : Word := BitVec.ofNat 64 (9 + 2 ^ 32)
     s.serves 0x20148 = true ∧ s.flash.busy = false ∧ State.reset.serves 0x20148 = false ∧
     (value.toNat / 2 ^ 32 % 2 ^ 20 ≠ 0 ∧ value.toNat % 2 ^ 27 + value.toNat / 2 ^ 32 % 2 ^ 20 ≤ 2 ^ 27) ∧
     (value.toNat / 2 ^ 20 % 2 ^ 3 = 0 ∧ value.toNat % 2 ^ 20 = 9 ∧ (s.block 0 9).state = 1 ∧ 9 < stackBlocks ∧ s.freeBlock 0 = some 0) ∧
     (s.flash.flarg.toNat % 65536 = 0 ∧ s.flash.flarg.toNat + 65536 * 1 ≤ Config.hbmBytes) ∧
     ((arg 0xFFFFFFFF).flash.flarg.toNat % 2 ^ 32 = 0xFFFFFFFF ∧ (arg 7).flash.flarg.toNat % 2 ^ 20 = 7 ∧ (s.block 0 7).state = 0) ∧
     ({ s with flash := { s.flash with busy := true, target := some (0, 9) } } : State).flash.busy = true ∧ (s.block 0 9).toBlock = none ∧
     0 ∈ s.unitsOf 0 9 ∧ s.unitGood 0 = true) := by
  refine ⟨?_, ?_, fun _ => ⟨rfl, rfl, rfl⟩, ?_, ?_, ?_⟩ <;> decide +kernel

/-- What a reply of the last granule meets: a write, one with bad data and a masked one with a read accepted before; a read behind a good
write and behind a bad one, of a granule that the slice holds, of a good and of a lost granule, and of one with an error; a request that
waits for the tag. -/
theorem witness_HbmAndFlash_replies :
    let last := Config.hbmBytes - 32
    let n := last / 32
    let q := channelOf last
    let req (tag : Nat) (k : HbmKind) (poison behind : Bool) : HbmReq := ⟨tag, last, k, 0, poison, behind⟩
    let chan (lines : List Nat) (reqs : List HbmReq) (waiting : List (Nat × HbmKind)) : State := { world base with
      mem := { worldMem 0 with chans := [{ Hchan.zero q with lines := lines, reqs := reqs, waiting := waiting }] } }
    let front (s : State) (r : HbmReq) : Prop := (s.chan q).reqs.find? (fun y => y.tag == r.tag) = some r ∧
      (∀ y ∈ (s.chan q).reqs.takeWhile fun y => y.tag != r.tag, ¬(y.gran = r.gran ∧ y.kind.write = true)) ∧
      s.mem.hbmErr = [] ∧ (∀ y ∈ s.mem.chans, y.bad = []) ∧ s.mem.channel (32 * n) = q ∧ n ∉ s.mem.hbmPoison
    (∀ k ∈ [HbmKind.wr 5, .bad 5, .wrm 3 5], front (chan [] [req 0 .rd false false, req 1 k false false] []) (req 1 k false false)) ∧
    (∀ b ∈ [false, true], ∀ p ∈ [false, true], front (chan [] [req 0 .rd p b] []) (req 0 .rd p b)) ∧
    (let s := chan [(worldMem 0).location (32 * n) / 64] [req 0 .rd false false] []
     front s (req 0 .rd false false) ∧ s.mem.location (32 * n) / 64 ∈ (s.chan (s.mem.channel (32 * n))).lines ∧
      s.mem.location (32 * n) / 32 ∉ (s.chan (s.mem.channel (32 * n))).gaps ∧
      s.mem.location (32 * n) / 32 ∉ (s.chan (s.mem.channel (32 * n))).bad) ∧
    (let s := chan [] [req 0 .rd false false] []
     let t : State := { s with mem := { s.mem with hbmErr := [(n, true)] } }
     (t.mem.location (32 * n) / 64 ∉ (t.chan (t.mem.channel (32 * n))).lines ∧ n ∉ t.mem.hbmPoison ∧ t.mem.hbmErr = [(n, true)]) ∧
     n ∈ ({ s with mem := { s.mem with hbmPoison := [n] } } : State).mem.hbmPoison) ∧
    (let s := chan [] ((List.range 8).map fun t => req t .rd false false) [(0, .rd)]
     (s.chan q).waiting = (0, .rd) :: [] ∧ ((s.chan q).reqs.filter fun y => y.tag != 0).length = 7) := by
  refine ⟨?_, ?_, ?_, ?_, ?_⟩ <;> decide +kernel

/-- A page of a handle, read at the third and at the last try, and one known to be bad; a block due for levelling after an erase; a
relocation that waits for another; a write into mapped units; a retirement of a block with no free one beside it. -/
theorem witness_HbmAndFlash_pages :
    let blk : Block := { Block.fresh 0 9 with state := 1, reads := 5, filled := 1 }
    let rd (n : Nat) : PageRead := ⟨2, 0, 3, 0, 9, some 15, n⟩
    let x : Handle := ⟨15, 1, 2, some 0, 0, [0], false, 0, 0, 0, 1, [], []⟩
    let fl (bs : List Block) (reads : List PageRead) : State := { world base with
      flash := { FlashState.reset with map := [⟨0, 9, 0⟩], blocks := bs, reads := reads }
      expert := { ExpertState.reset with en := true, frames := 4, handles := [x] } }
    (∀ n ∈ [2, 3], let s := fl [blk] [rd n]
      s.flash.reads.find? (fun y => y.id == 2) = some (rd n) ∧ (s.handle 15).state = 2 ∧ 3 ∉ s.mem.flashBad ∧ 3 ∉ s.mem.flashErr ∧
      (s.block 0 9).state = 1 ∧ (s.block 0 9).reads + 4 < s.flash.rdthr) ∧
    (let s := fl [blk] [rd 3]; 3 ∈ ({ s with mem := { s.mem with flashBad := [3] } } : State).mem.flashBad) ∧
    (let s := fl [{ blk with erases := 0 }, { Block.fresh 0 4 with state := 3, erases := 3000, erasing := true }] []
     let e := s.setBlock { s.block 0 4 with state := 0, reads := 0, erases := (s.block 0 4).erases + 1, filled := 0, erasing := false, retire := none }
     (s.block 0 4).erasing = true ∧ (blk ∈ e.stackList 0 ∧ blk.state = 1) ∧ s.flash.wldiff < e.eMax 0 - e.eMin 0 ∧ blk.erases = e.eMin 0 ∧
      e.block 0 9 = blk ∧ ∀ z ∈ e.stackList 0, z.state = 1 → z = blk) ∧
    (let s := fl [{ blk with toBlock := some 4, state := 2, retire := none }] []
     (s.block 0 9).toBlock = some 4 ∧ (∀ p ∈ s.mem.flashErr, p / 4 ∉ s.unitsOf 0 9) ∧ (s.flash.map.map (·.unit)).Nodup ∧
      ((s.unitsOf 0 9).filter s.unitGood)[0]? = some 0) ∧
    (let s := fl [blk] []
     (∀ y ∈ s.mem.chans, y.reqs = [] ∧ y.waiting = [] ∧ y.held = []) ∧ (s.block 0 9).state < 3 ∧ (s.block 0 9).state ≠ 2 ∧
      (∃ d, s.freeBlock 0 = some d) ∧ (∀ y ∈ s.unitsOf 0 7, ¬s.unitGood y = true) ∧ (s.block 0 7).state < 3) := by
  refine ⟨?_, ?_, ?_, ?_, ?_⟩
  · decide +kernel
  · decide
  · decide +kernel
  · decide +kernel
  · exact ⟨by decide, by decide +kernel, by decide +kernel, Option.isSome_iff_exists.mp (by decide +kernel), by decide +kernel, by decide +kernel⟩

/-- A stack of which every block is retired has no free block. -/
theorem witness_HbmAndFlash_full : ∃ s : State, s.freeBlock 0 = none := by
  obtain ⟨l, hl⟩ : ∃ l : List Block, l = (List.range stackBlocks).map fun n => { Block.fresh 0 n with state := 3 } := ⟨_, rfl⟩
  have mem : ∀ x ∈ l, x.stack = 0 ∧ x.state = 3 := fun x h => by
    rw [hl] at h
    obtain ⟨n, _, rfl⟩ := List.mem_map.mp h
    exact ⟨rfl, rfl⟩
  have all (s : State) (h : s.flash.blocks = l) : s.stackList 0 = l := by
    rw [State.stackList, h]
    exact List.filter_eq_self.mpr fun x hx => by simp [(mem x hx).1]
  have z : l.filter (fun x => x.state == 0) = [] := List.filter_eq_nil_iff.mpr fun x h => by simp [(mem x h).2]
  have f (k : Nat) : (List.range (min stackBlocks k)).find? (fun n => !l.any fun x => x.num == n) = none :=
    List.find?_eq_none.mpr fun n h => by
      have h : n < stackBlocks := Nat.lt_of_lt_of_le (List.mem_range.mp h) (Nat.min_le_left ..)
      have : l.any (fun x => x.num == n) = true :=
        List.any_eq_true.mpr ⟨_, hl ▸ List.mem_map.mpr ⟨n, List.mem_range.mpr h, rfl⟩, beq_self_eq_true n⟩
      rw [this]
      exact Bool.false_ne_true
  refine ⟨{ State.reset with flash := { FlashState.reset with blocks := l } }, ?_⟩
  rw [State.freeBlock, all _ rfl]
  simp only [z, f, List.foldl_nil]

/-- The image of the reset state: its key, its signature and its version pass, a signature of 0 and a version below the minimum do not. -/
theorem witness_PlatformEvents_image :
    let f := PlatState.reset.image
    let key := (leBytes 96 f.key.toNat).reverse
    (sha384 key = PlatState.reset.keyDigest ∧ ecdsaVerifies f.key f.sig (leBytes 8 f.version ++ key ++ f.body) = true) ∧
    ecdsaVerifies f.key 0 (leBytes 8 f.version ++ key ++ f.body) = false ∧ PlatState.reset.minVersion ≤ f.version ∧
    f.version < ({ PlatState.reset with minVersion := f.version + 1 } : PlatState).minVersion :=
  ⟨⟨by decide +kernel, by decide +kernel⟩, by decide +kernel, by decide +kernel, Nat.lt_succ_self _⟩

/-- Each phase of the boot, each exchange of SPDM, the limits of a clock, a halted core, errors in the last sector and page. -/
theorem witness_PlatformEvents :
    let p (n : Nat) : State := { State.reset with plat := { PlatState.reset with phase := n } }
    let h : Core := { base with run := .halted }
    let m : State := { State.reset with flash := { FlashState.reset with map := [⟨0, 9, 0⟩] } }
    let lost : State := { State.reset with core := { Core.reset 0 with poison := [(8, true)] } }
    let e : State := { State.reset with mem := { MemState.reset with chans := [{ Hchan.zero 0 with lines := [0] }] } }
    let g : State := { State.reset with mem := { MemState.reset with chans := [{ Hchan.zero 0 with lines := [0], gaps := [0] }] } }
    (∀ n, n < 5 → (p n).plat.phase < 5 ∧ (p n).plat.bootErr = false) ∧ ((p 5).plat.phase = 5 ∧ ((p 3).coreAt 4095).groups[11].state ≤ 2) ∧
    (∀ n, ({ State.reset with plat := { PlatState.reset with spdm := n } } : State).plat.spdm = n) ∧
    (blockExists ⟨0, 4095⟩ = true ∧ blockExists ⟨4, 7⟩ = true) ∧
    ((world h).serves 0x30020 = true ∧ ((world h).coreAt 0).run = .halted ∧ (world h).mem.ctx ((world h).coreAt 0).ctx = some ctx1 ∧
      ((world base).coreAt 0).run ≠ .halted) ∧
    ((∀ x ∈ (State.reset.coreAt 4095).poison, x.1 ≠ (Config.poolBytes - 1) / 32) ∧ (∃ x ∈ (lost.coreAt 0).poison, x.1 = 8) ∧
      (∃ x, (world base).mem.sector? 0 (0x7FF / 32) = some x) ∧ (world base).mem.sector? 2 0 = none ∧
      (Config.hbmBytes - 1) / 32 ∉ State.reset.mem.hbmPoison ∧
      (e.mem.location 0 / 64 ∈ (e.chan (channelOf (e.mem.location 0))).lines ∧
        e.mem.location 0 / 32 ∉ (e.chan (channelOf (e.mem.location 0))).gaps ∧
        g.mem.location 0 / 32 ∈ (g.chan (channelOf (g.mem.location 0))).gaps ∧
        State.reset.mem.location 0 / 64 ∉ (State.reset.chan (channelOf (State.reset.mem.location 0))).lines) ∧
      (m.blockOf (65535 / 65536)).isSome = true ∧ 4 * (65535 / 65536) + 3 % 4 ∉ m.mem.flashBad) :=
  ⟨fun _ hn => ⟨hn, rfl⟩, ⟨rfl, by decide +kernel⟩, fun _ => rfl, ⟨by decide, by decide⟩,
    ⟨by decide +kernel, rfl, rfl, by decide⟩, nofun, ⟨_, List.mem_cons_self .., rfl⟩, Option.isSome_iff_exists.mp (by decide +kernel),
    by decide +kernel, by decide, by decide +kernel, by decide +kernel, by decide⟩

/-! ## Decoding

The words stand in the examples of the spec. -/

def decodes (sl : Slot) (w : Nat) (i : Instr) : Prop := decodeSlot DecodeEnv.widest sl w = .ok i

theorem test_decode_br : decodes .br 0x110000000000 (.exit (op (.s 0) (.s 0) (.s 0) (.s 0))) := rfl
theorem test_decode_swait : decodes .lm 0x19000A1F0000 (.swait (op (.s 0) (.imm .lo) (kp 0) (.s 0))) := rfl
theorem test_decode_mtsr : decodes .br 0x13000F301000 (.mtsr (op (.s 0) (kp 3) (.s 1) (.s 0))) := rfl
theorem test_decode_fence : decodes .br 0x0D000F300000 (.fence (op (.s 0) (kp 3) (.s 0) (.s 0))) := rfl
theorem test_decode_guard : decodes .br 0x01200A100000 (.bra { op (.s 0) (.imm .lo) (.s 0) (.s 0) with gf := 1 }) := rfl
theorem test_decode_mul : decodes .sc 0x030050402000 (.mul (op (.s 5) (.s 4) (.s 2) (.s 0))) := rfl
theorem test_decode_cmp : decodes .sc 0x160C105F3F40 (.cmp (op (.f 1) (.s 5) (kp 3) (kp 4))) := rfl
theorem test_decode_ldvt : decodes .lm 0x010450700001 (.ldvt { op (.v 5) (.s 7) (.s 0) (.s 0) with mod := true }) := rfl
theorem test_decode_lds : decodes .lm 0x08007A1F3000 (.lds (op (.s 7) (.imm .lo) (kp 3) (.s 0))) := rfl
theorem test_decode_stvb : decodes .lm 0x050000652820 (.stvb (op (.s 0) (.s 6) (.v 18) (.m 2))) := rfl
theorem test_decode_atomg : decodes .lm 0x120060105F00 (.atomg (op (.s 6) (.s 1) (.s 5) (kp 0))) := rfl
theorem test_decode_whq : decodes .ec 0x0A0040300000 (.whq (op (.s 4) (.s 3) (.s 0) (.s 0))) := rfl
theorem test_decode_expf : decodes .ec 0x080000405000 (.expf (op (.s 0) (.s 4) (.s 5) (.s 0))) := rfl
theorem test_decode_ggemm : decodes .ec 0x0F0000102030 (.ggemm (op (.s 0) (.s 1) (.s 2) (.s 3))) := rfl
theorem test_decode_vfshr :
    decodes .va 0x880434142441 (.vfshr .a .i8 { op (.v 3) (.v 1) (.v 2) (.v 4) with mod := true }) := rfl
theorem test_decode_vcvt :
    decodes .va 0x9804241F5F01 (.vcvt .a .i8 { op (.v 2) (.v 1) (kp 5) (kp 0) with mod := true }) := rfl
theorem test_decode_xbench : decodes .xn 0x0A000F182480 (.xbench (op (.s 0) (kp 1) (.m 2) (.v 8))) := rfl
theorem test_decode_xgmax :
    decodes .xn 0x5204443F6001 (.xgmax .i32 { op (.v 4) (.v 3) (kp 6) (.s 0) with mod := true }) := rfl
theorem test_decode_xbnld : decodes .xn 0x07000F0A8880 (.xbnld (op (.s 0) (kp 0) (.loop 0) (.dq 0))) := rfl
theorem test_decode_mxopen : decodes .mx 0x040B90000000 (.mxopen (op (.z 1) (.s 0) (.s 0) (.s 0))) := rfl
theorem test_decode_mxdrain : decodes .mx 0x08054B9F0000 (.mxdrain (op (.v 20) (.z 1) (kp 0) (.s 0))) := rfl
theorem test_decode_mxpushz : decodes .mx 0x060BA8FB9F50 (.mxpushz (op (.z 2) .zacc (.z 1) (kp 5))) := rfl
theorem test_decode_nop : decodes .sc 0 (.nop .sc) := rfl

/-! ## Ill-formed terms, one for each check -/

def refuses (i : Instr) : Prop := i.wf DecodeEnv.widest = false

/-- MOD of an opcode without it; MOD of the other form; MOD 1 with a float type of an operation whose MOD is the sign. -/
theorem test_wf_mod : refuses (.add { addOp with mod := true }) ∧ refuses (.brcZ (op (.s 0) (.s 1) (.s 2) (.s 0))) ∧
    refuses (.vcvt .a .f32 { op (.v 1) (.v 2) (kp 5) (kp 0) with mod := true }) := by unfold refuses; decide +kernel

/-- E bits on fields that the opcode does not use. -/
theorem test_wf_e : refuses (.ret { op (.s 0) (.s 1) (.s 0) (.s 0) with e2 := true }) ∧ refuses (.add { addOp with e3 := true }) ∧
    refuses (.yield { op (.s 0) (.s 0) (.s 0) (.s 0) with e1 := true }) := by unfold refuses; decide +kernel

/-- Fields outside their class: destination, each source, an unused field that is not zero. -/
theorem test_wf_fields : refuses (.add (op (.v 1) (.s 1) (.s 2) (.s 0))) ∧ refuses (.add (op (.s 1) (.z 1) (.s 2) (.s 0))) ∧
    refuses (.add (op (.s 1) (.s 1) (.z 2) (.s 0))) ∧ refuses (.cmp (op (.f 1) (.s 1) (.s 2) (kp 6))) ∧
    refuses (.add (op (.s 1) (.s 1) (.s 2) (.s 3))) := by unfold refuses; decide +kernel

/-- A type that the opcode does not have, a selector that goes with no type, numbers beyond the package. -/
theorem test_wf_types : refuses (.vmulh .a .f32 (op (.v 1) (.v 2) (.v 3) (.s 0))) ∧
    refuses (.vcmp .a .f32 (op (.m 1) (.v 2) (.v 3) (kp 4))) ∧ refuses (.bundleExecution 4096) ∧ refuses (.listSubmit 64 0) := by
  unfold refuses; decide +kernel

/-- Registers beyond the partition, and a well-formed operation beside the ill-formed ones. -/
theorem test_wf_partition : Instr.wf ⟨16, 0, 0, true, false⟩ (.vmov .a (op (.v 16) (.v 1) (.s 0) (.s 0))) = false ∧
    Instr.wf ⟨16, 0, 0, true, false⟩ (.vmov .a (op (.v 15) (.v 1) (.s 0) (.s 0))) = true := by decide +kernel

/-- Words whose opcode, port or E bit the spec reserves do not decode. -/
theorem test_reserved : (decodeSlot DecodeEnv.widest .sc 0xFF0000000000).toBool = false ∧
    (decodeSlot DecodeEnv.widest .sc 0x01004C8F1000).toBool = false ∧ (decodeSlot DecodeEnv.widest .br 0x0D000F600000).toBool = false := by
  decide +kernel

/-! ## Single operations on values of the spec's examples and tables -/

/-- The value of the first result that an operation leaves under way. -/
def result (i : Instr) (c : Core) : Option Val :=
  match exec i (pkg c) with
  | .next t => t.core.pending.head?.map (·.val)
  | _ => none

def words (a b d : Nat) : Core := { base with
  sregs := ((base.sregs.set 1 (BitVec.ofNat 64 a)).set 2 (BitVec.ofNat 64 b)).set 3 (BitVec.ofNat 64 d) }

/-- R121, the table: amount 72. -/
theorem test_fshl : result (.fshl (op (.s 4) (.s 1) (.s 2) (.s 3))) (words 0x1122334455667788 0x99AABBCCDDEEFF01 72) =
    some (.word 0x2233445566778899) := by decide +kernel

theorem test_fshr : result (.fshr (op (.s 4) (.s 1) (.s 2) (.s 3))) (words 0x1122334455667788 0x99AABBCCDDEEFF01 200) =
    some (.word 0x8899AABBCCDDEEFF) := by decide +kernel

/-- R120: an amount of 300 shifts by 44. -/
theorem test_shl : result (.shl (op (.s 4) (.s 1) (.s 2) (.s 0))) (words 3 300 0) = some (.word 0x300000000000) := by decide +kernel

/-- R122: CLZ of 0. -/
theorem test_clz : result (.clz (op (.s 4) (.s 1) (.s 0) (.s 0))) (words 0 0 0) = some (.word 64) := by decide +kernel

/-- R130, the table. -/
theorem test_fcvt_nan : result (.fcvt (op (.s 4) (.s 1) (kp 6) (kp 0))) (words 0x7FC00000 0 0) = some (.word 0) := by decide +kernel
theorem test_fcvt_sat : result (.fcvt (op (.s 4) (.s 1) (kp 6) (kp 0))) (words 0xCF000001 0 0) = some (.word 0xFFFFFFFF80000000) := by
  decide +kernel
theorem test_fcvt_ru : result (.fcvt (op (.s 4) (.s 1) (kp 1) (kp 2))) (words 0x3F808000 0 0) = some (.word 0x3F81) := by decide +kernel
theorem test_icvt : result (.icvt { op (.s 4) (.s 1) (kp 5) (kp 0) with mod := true }) (words (2 ^ 64 - 1) 0 0) = some (.word 0x5F800000) ∧
    result (.icvt (op (.s 4) (.s 1) (kp 5) (kp 0))) (words (2 ^ 64 - 1) 0 0) = some (.word 0xBF800000) := by decide +kernel

/-- Every element of a result. -/
def everyByte (n : Nat) : Val := .vec (BitVec.ofNat 2048 (packElems 8 (List.replicate 256 n)))

def bytes (a b d : Nat) : Core := { base with
  vregs := ((base.vregs.set 1 (everyByte a).bits).set 2 (everyByte b).bits).set 3 (everyByte d).bits }

/-- R147 and R148, the table: amounts 3, 9 and 255. -/
theorem test_vsra : result (.vsra .a .i8 { op (.v 4) (.v 1) (.v 2) (.s 0) with mod := true }) (bytes 0xB4 3 0) = some (everyByte 0xF6) := by
  decide +kernel
theorem test_vfshl : result (.vfshl .a .i8 (op (.v 4) (.v 1) (.v 2) (.v 3))) (bytes 0xB4 0x5C 9) = some (everyByte 0x68) := by decide +kernel
theorem test_vfshr : result (.vfshr .b .i8 { op (.v 4) (.v 1) (.v 2) (.v 3) with mod := true }) (bytes 0xB4 0x5C 255) = some (everyByte 0x68) := by
  decide +kernel

/-- The example of R152 and R153: FP32 lanes 1.3, -0.6, 20 and NaN with multiplier 2 give the codes 11, 7, 15 and 8; codes 11
and 7 with scale 0.5 and zero point 8 give 1.5 and -0.5. -/
theorem test_vqnt :
    let a : Vec := BitVec.ofNat 2048 (packElems 32 [0x3FA66666, 0xBF19999A, 0x41A00000, 0x7FC00000])
    let m : Vec := BitVec.ofNat 2048 (packElems 32 (List.replicate 64 0x40000000))
    let c : Core := { base with vregs := (base.vregs.set 1 a).set 2 m }
    (result (.vqnt .a .i4 { op (.v 5) (.v 1) (.v 2) (kp 0) with mod := true }) c).map (fun x => x.bits.toNat % 2 ^ 24) = some 0x888F7B := by
  decide +kernel

theorem test_vdqnt :
    let s : Vec := BitVec.ofNat 2048 (packElems 32 (List.replicate 64 0x3F000000))
    let c : Core := { base with vregs := (base.vregs.set 5 0x7B).set 2 s }
    (result (.vdqnt .a .i4 { op (.v 6) (.v 5) (.v 2) (kp 8) with mod := true }) c).map (fun x => x.bits.toNat % 2 ^ 64) =
      some 0xBF0000003FC00000 := by decide +kernel

/-- The example of R166: two lanes that aim at lane 1. -/
theorem test_xpermv :
    let to' : List Nat := [2, 0, 1, 1] ++ (List.range 60).map fun i => i + 4
    let c : Core := { base with tvec := 0x40, vregs := base.vregs.set 2 (BitVec.ofNat 2048 (packElems 32 to')) }
    (match exec (.xpermv (op (.v 4) (.v 1) (.v 2) (.s 0))) (pkg c) with
      | .next t => some (t.core.trapcause.toNat % 2 ^ 8, t.core.trapinfo)
      | _ => none) = some (5, 0x00030201) := by decide +kernel

/-- The example of R178: 30 lanes do not fit beside 40 entries. -/
theorem test_xbench :
    let q : Bench := ⟨0, List.replicate 40 0⟩
    let m : BitVec 256 := BitVec.ofNat 256 (2 ^ 120 - 1)
    let c : Core := { benched with tvec := 0x40, bench := base.bench.set 1 q, mregs := base.mregs.set 3 m }
    (match exec (.xbench (op (.s 0) (kp 1) (.m 3) (.v 8))) (pkg c) with
      | .next t => some (t.core.trapcause.toNat % 2 ^ 8, t.core.trapinfo, t.core.bench[1].entries.length)
      | _ => none) = some (0x0D, 0x00281E01, 40) := by decide +kernel

/-- The example of the loop nest in 05: the branch out of both loops leaves no level. -/
theorem test_bra_unwinds :
    let l : List Level := [⟨0x1080, 0x1140, 2, 1⟩, ⟨0x10C0, 0x1100, 3, 1⟩]
    let u : Current := ⟨⟨{ Header.plain with imm := 0x100 }, [], []⟩, 0x1100, 0, l⟩
    let c : Core := { base with flags := 2, pc := 0x1100, loops := l, cur := some u }
    (match exec (.bra { op (.s 0) (.imm .lo) (.s 0) (.s 0) with gf := 1 }) (pkg c) with
      | .next t => some (t.core.pc, t.core.loops)
      | _ => none) = some (0x1200, []) := by decide +kernel

/-- The placed instruction is the one that the next step runs: ADD s4, i0, 1 leaves 1 on its way to s4. -/
theorem test_step :
    (match step (State.reset.withFetchWord 56 (2 ^ 48 + 0x01004A8F1000)) with
      | .next t => some (t.core.pending.map fun p => (p.dst, p.val))
      | _ => none) = some [(.s 4, .word 1)] := by decide +kernel

/-- FIPS 197, appendix C.3. -/
theorem test_aes256 : aesEncrypt 0x1f1e1d1c1b1a191817161514131211100f0e0d0c0b0a09080706050403020100#256
    0xffeeddccbbaa99887766554433221100#128 = 0x8960494b9049fceabf456751cab7a28e#128 := by decide +kernel

/-- IEEE 1619, vector 10: the first 32 bytes of data unit 0xFF. -/
theorem test_xts : encSector 0x92459474098205513799931697418802952783336462842393975853265941312776966649575999699370245777496226357174286053234590452818281827#512
    0xFF 0x1f1e1d1c1b1a191817161514131211100f0e0d0c0b0a09080706050403020100#256 =
    0x3be6a314d412aea45723485e3f8000ea9bcf70e3996c83e48603772f103a3b1c#256 := by decide +kernel

/-- FIPS 180-4, the example of one block: "abc". -/
theorem test_sha384 : sha384 [0x61, 0x62, 0x63] =
    0xcb00753f45a35e8bb5a03d699ac65007272c32ab0eded1631a8b605a43ff5bed8086072ba1e7cc2358baeca134c825a7#384 := by decide +kernel

end Sys2Proof.Tests
end

section
/-! PROOF. What a step runs and when it goes on: the two shapes a meaning has (R1, R286). -/
namespace Sys2Proof.Machine

/-- Every meaning is that of a slot operation or that of an event whose units are asked for. -/
theorem exec_shape (i : Instr) :
    (exec i = slotMeaning i ∧ i.eventOk = true) ∨ ∃ f, exec i = eventMeaning i.eventOk f := by
  cases i
  case
      bundleExecution | resultDelivery | variableResultWrite | accumulatorEventAct | bundleRetire | trapEntry
    | streamDeadlockTrap | taskDispatch | preemptAtPoint | preemptionLimitExpiry | forcedStop | forcedStopEscalation
    | saveComplete | taskRestore | engineCommandStart | copySectorDelivery | commandCompletion | launchAccept
    | taskCompletion | listSubmit | expfAccept | ggemmWalk | create | suspend | resume | terminate | invall
    | llcWriteback | retireFrame | retireCore | refereeConfigWrite | ringConfigWrite | rlheadWrite | registerWrite
    | bpstart | bar2Read | bar2Write | hostSnoop | peerIncomingAccess | retireChannel | flashWrite | flashTrim
    | flashReloc | flashRetire | bootPhaseComplete | load | clear | mgmtResume | mgmtTerminate | softError
    | poolArbitration | parityUpdate | parityRecompute | poolFreezeEnd | bankRetirementStart | bankRetirementComplete
    | rangeIterationBegin | workRequest | tileLaunchable | gangDispatch | launchCompletion | tagPublication | launch
    | waitTokenWord | waitTokenWordSatisfied | publish | condSkip | jump | listCall | listReturn | listEnd
    | streamClear | bullpenReadStart | stagingComplete | stagingFailure | deadlineMiss | coreRetirementComplete
    | refereeReplay | refereeThirdReplay | peerStoreNotPerformed | portDown | portUp | hbmRd | hbmWr | hbmWrm
    | hbmReply | channelDrainComplete | channelCopyComplete | flashPageRead | flashPageReadComplete | relocationSwitch
    | blockErase | deferredRelocationStart | flcmdComplete | reset | getVersion | getCapabilities
    | negotiateAlgorithms | getDigests | getCertificate | challenge | getMeasurements | keyExchange | finish
    | thermalThrottleDown | thermalThrottleUp | thermalClockStop | thermalClockRestart | droopStretch
    | peerStoreAcknowledged | hostLinkDown | hostLinkTrain =>
    exact .inr ⟨_, rfl⟩
  all_goals exact .inl ⟨rfl, rfl⟩

theorem goes_slotMeaning (i : Instr) (s : State) : Goes (slotMeaning i s) := ⟨_, rfl⟩

theorem goes_eventMeaning (f : State → State) (s : State) : Goes (eventMeaning true f s) := ⟨_, rfl⟩

theorem eventMeaning_false (f : State → State) (s : State) : eventMeaning false f s = .fault .noSuchUnit := rfl

theorem step_of_agenda {s : State} {i : Instr} {rest : List Instr} (h : s.agenda = i :: rest) :
    step s = exec i { s with agenda := rest } := by
  simp only [step, h]

/-- Settles O40: the agenda's first event is what the step runs, and the shape of its meaning says when it goes on. -/
theorem stepsGoOn : Obligations.StepsGoOn := by
  refine ⟨fun i rest s h => step_of_agenda h, fun i s h => ?_, fun i s h => ?_⟩
  · obtain ⟨he, -⟩ | ⟨f, he⟩ := exec_shape i
    · exact he ▸ goes_slotMeaning i s
    · exact he ▸ h ▸ goes_eventMeaning f s
  · obtain ⟨-, ho⟩ | ⟨f, he⟩ := exec_shape i
    · simp [h] at ho
    · rw [he, h, eventMeaning_false]

end Sys2Proof.Machine
end

section
/-! The proofs of O43 are elaborated one after another: side by side they would ask for more memory than a check has. -/
set_option Elab.async false

section
/-! PROOF. The form that every step keeps. -/
namespace Sys2Proof.Machine

/-! ## The form that every step keeps

What `State.memoriesOk` and `State.namesOk` say of a state, taken apart by its components, so that each function of the model is
looked at once, for the components it builds. -/

/-- The memories of the package are in their one form. -/
def MemState.Formed (m : MemState) : Prop := m.hbm.wf = true ∧ m.flash.wf = true ∧ m.host.wf = true

/-- The scratchpad of a core is in its one form, and its number satisfies `P`. -/
def Core.Formed (P : Nat → Prop) (c : Core) : Prop := P c.kid ∧ c.scratch.wf = true

/-- A number that the package has (R1). -/
def InPackage (k : Nat) : Prop := inCores k = true

/-- Any number: that of a core which is not, or not yet, one of the package. -/
def AnyNumber (_ : Nat) : Prop := True

/-- The saved images are in form. -/
def LaunchState.Formed (l : LaunchState) : Prop := ∀ x ∈ l.saved, x.image.Formed AnyNumber

/-- The form of a state: `State.formed_iff` says that it is the model's `memoriesOk` and `namesOk`. -/
def State.Formed (s : State) : Prop :=
  s.core.Formed InPackage ∧ (∀ c ∈ s.others, c.Formed InPackage) ∧ s.mem.Formed ∧ s.launch.Formed ∧ ∀ i ∈ s.agenda, i.eventOk = true

theorem State.Formed.core {s : State} (h : s.Formed) : s.core.Formed InPackage := h.1
theorem State.Formed.others {s : State} (h : s.Formed) : ∀ c ∈ s.others, c.Formed InPackage := h.2.1
theorem State.Formed.mem {s : State} (h : s.Formed) : s.mem.Formed := h.2.2.1
theorem State.Formed.launch {s : State} (h : s.Formed) : s.launch.Formed := h.2.2.2.1
theorem State.Formed.agenda {s : State} (h : s.Formed) : ∀ i ∈ s.agenda, i.eventOk = true := h.2.2.2.2

theorem State.formed_iff (s : State) : s.Formed ↔ s.memoriesOk ∧ s.namesOk := by
  constructor
  · rintro ⟨⟨hk, hw⟩, ho, ⟨hh, hf, hg⟩, hl, ha⟩
    refine ⟨⟨hh, hf, hg, ?_, fun x hx => (hl x hx).2⟩, ?_, ha⟩
    · exact List.forall_mem_cons.2 ⟨hw, fun c hc => (ho c hc).2⟩
    · exact List.forall_mem_cons.2 ⟨hk, fun c hc => (ho c hc).1⟩
  · rintro ⟨⟨hh, hf, hg, hc, hl⟩, hk, ha⟩
    exact ⟨⟨hk _ (by simp [State.cores]), hc _ (by simp [State.cores])⟩,
      fun c hm => ⟨hk _ (by simp [State.cores, hm]), hc _ (by simp [State.cores, hm])⟩, ⟨hh, hf, hg⟩,
      fun x hx => ⟨trivial, hl x hx⟩, ha⟩

theorem Core.Formed.any {P : Nat → Prop} {c : Core} (h : c.Formed P) : c.Formed AnyNumber := ⟨trivial, h.2⟩

theorem MemState.Formed.foldl {α : Type} {f : MemState → α → MemState} {l : List α} {m : MemState} (h : m.Formed)
    (hf : ∀ m x, m.Formed → (f m x).Formed) : (l.foldl f m).Formed :=
  List.foldlRecOn l f h fun m hm x _ => hf m x hm

theorem Core.Formed.foldl {α : Type} {P : Nat → Prop} {f : Core → α → Core} {l : List α} {c : Core} (h : c.Formed P)
    (hf : ∀ c x, c.Formed P → (f c x).Formed P) : (l.foldl f c).Formed P :=
  List.foldlRecOn l f h fun c hc x _ => hf c x hc

theorem State.Formed.foldl {α : Type} {f : State → α → State} {l : List α} {s : State} (h : s.Formed)
    (hf : ∀ s x, s.Formed → (f s x).Formed) : (l.foldl f s).Formed :=
  List.foldlRecOn l f h fun s hs x _ => hf s x hs

theorem Core.Formed.foldlFst {α β : Type} {P : Nat → Prop} {f : Core × β → α → Core × β} {l : List α} {x : Core × β} (h : x.1.Formed P)
    (hf : ∀ x a, x.1.Formed P → (f x a).1.Formed P) : (l.foldl f x).1.Formed P :=
  List.foldlRecOn (motive := fun x => x.1.Formed P) l f h fun x hx a _ => hf x a hx

theorem MemState.Formed.foldlFst {α β : Type} {f : MemState × β → α → MemState × β} {l : List α} {x : MemState × β} (h : x.1.Formed)
    (hf : ∀ x a, x.1.Formed → (f x a).1.Formed) : (l.foldl f x).1.Formed :=
  List.foldlRecOn (motive := fun x => x.1.Formed) l f h fun x hx a _ => hf x a hx

theorem Mem.wf_store {m : Mem} (h : m.wf = true) (a n x : Nat) : (m.store a n x).wf = true := Mem.wf_putN _ _ _ h

theorem State.formed_mk {core : Core} {others : List Core} {mem : MemState} {launch : LaunchState} {expert : ExpertState} {host : HostState}
    {rel : RelState} {hbm : HbmState} {flash : FlashState} {plat : PlatState} {agenda : List Instr} {turn : Bool} {fresh : Nat}
    (hc : core.Formed InPackage) (ho : ∀ c ∈ others, c.Formed InPackage) (hm : mem.Formed) (hl : launch.Formed)
    (ha : ∀ i ∈ agenda, i.eventOk = true) :
    (State.mk core others mem launch expert host rel hbm flash plat agenda turn fresh).Formed := ⟨hc, ho, hm, hl, ha⟩

/-- A result, if there is one, is a core in form. -/
def Res.Formed (P : Nat → Prop) (r : Res Core) : Prop := ∀ c, r = .ok c → c.Formed P

/-- A result with a value beside the core, if there is one. -/
def Res.FormedFst {α : Type} (P : Nat → Prop) (r : Res (Core × α)) : Prop := ∀ x, r = .ok x → x.1.Formed P

theorem Res.formed_ok {P : Nat → Prop} {c : Core} (h : c.Formed P) : Res.Formed P (.ok c) := by
  rintro _ ⟨⟩; exact h

theorem Res.formed_error {P : Nat → Prop} {e : Stop} : Res.Formed P (.error e) := by
  intro _ h; cases h

/-- A run that goes on from a result with a value beside the core; the same for a result that is a core, and for a value alone. -/
theorem Res.formed_bindFst {α : Type} {P : Nat → Prop} {r : Res (Core × α)} {f : Core × α → Res Core} (hr : Res.FormedFst P r)
    (hf : ∀ x, x.1.Formed P → Res.Formed P (f x)) : Res.Formed P (r >>= f) := by
  cases r with
  | error e => exact Res.formed_error
  | ok x => exact hf x (hr x rfl)

theorem Res.formed_bindCore {P : Nat → Prop} {r : Res Core} {f : Core → Res Core} (hr : Res.Formed P r)
    (hf : ∀ c, c.Formed P → Res.Formed P (f c)) : Res.Formed P (r >>= f) := by
  cases r with
  | error e => exact Res.formed_error
  | ok c => exact hf c (hr c rfl)

theorem Res.formed_bind {α : Type} {P : Nat → Prop} {r : Res α} {f : α → Res Core} (hf : ∀ a, Res.Formed P (f a)) :
    Res.Formed P (r >>= f) := by
  cases r with
  | error e => exact Res.formed_error
  | ok a => exact hf a

theorem Res.formedFst_ok {α : Type} {P : Nat → Prop} {x : Core × α} (h : x.1.Formed P) : Res.FormedFst P (.ok x) := by
  rintro _ ⟨⟩; exact h

theorem Res.formedFst_error {α : Type} {P : Nat → Prop} {e : Stop} : Res.FormedFst (α := α) P (.error e) := by
  intro _ h; cases h

theorem Res.formedFst_bindFst {α β : Type} {P : Nat → Prop} {r : Res (Core × α)} {f : Core × α → Res (Core × β)}
    (hr : Res.FormedFst P r) (hf : ∀ x, x.1.Formed P → Res.FormedFst P (f x)) : Res.FormedFst P (r >>= f) := by
  cases r with
  | error e => exact Res.formedFst_error
  | ok x => exact hf x (hr x rfl)

theorem Res.formedFst_bind {α β : Type} {P : Nat → Prop} {r : Res α} {f : α → Res (Core × β)} (hf : ∀ a, Res.FormedFst P (f a)) :
    Res.FormedFst P (r >>= f) := by
  cases r with
  | error e => exact Res.formedFst_error
  | ok a => exact hf a

/-- A run of an operation leaves a state in form; where it stops, the memory it has touched is in form. -/
def SRes.Formed (r : SRes State) : Prop := (∀ s, r = .ok s → s.Formed) ∧ ∀ e m, r = .error (e, some m) → m.Formed

theorem SRes.formed_ok {s : State} (h : s.Formed) : SRes.Formed (.ok s) :=
  ⟨by rintro _ ⟨⟩; exact h, by rintro _ _ ⟨⟩⟩

theorem SRes.formed_stop {e : Stop} : SRes.Formed (.error (e, none)) :=
  ⟨by rintro _ ⟨⟩, by rintro _ _ ⟨⟩⟩

theorem SRes.formed_error {e : Stop} {m : MemState} (h : m.Formed) : SRes.Formed (.error (e, some m)) :=
  ⟨by rintro _ ⟨⟩, by rintro _ _ ⟨⟩; exact h⟩

/-- A run that goes on from a run, from what its core does, or from a check. -/
theorem SRes.formed_bind {r : SRes State} {f : State → SRes State} (hr : SRes.Formed r) (hf : ∀ s, s.Formed → SRes.Formed (f s)) :
    SRes.Formed (r >>= f) := by
  cases r with
  | error e => exact ⟨by rintro _ ⟨⟩, by rintro e m ⟨⟩; exact hr.2 _ _ rfl⟩
  | ok s => exact hf s (hr.1 s rfl)

theorem SRes.formed_liftFst {α : Type} {r : Res (Core × α)} {f : Core × α → SRes State} (hr : Res.FormedFst InPackage r)
    (hf : ∀ x, x.1.Formed InPackage → SRes.Formed (f x)) : SRes.Formed (liftRes r >>= f) := by
  cases r with
  | error e => exact SRes.formed_stop
  | ok x => exact hf x (hr x rfl)

theorem SRes.formed_liftCore {r : Res Core} {f : Core → SRes State} (hr : Res.Formed InPackage r)
    (hf : ∀ c, c.Formed InPackage → SRes.Formed (f c)) : SRes.Formed (liftRes r >>= f) := by
  cases r with
  | error e => exact SRes.formed_stop
  | ok c => exact hf c (hr c rfl)

theorem SRes.formed_lift {α : Type} {r : Res α} {f : α → SRes State} (hf : ∀ a, SRes.Formed (f a)) : SRes.Formed (liftRes r >>= f) := by
  cases r with
  | error e => exact SRes.formed_stop
  | ok a => exact hf a

/-- The run of an execution: as `SRes.Formed`, where the slot that stops is named. -/
def Run.Formed (r : Except (Nat × Stop × Option MemState) State) : Prop :=
  (∀ s, r = .ok s → s.Formed) ∧ ∀ n e m, r = .error (n, e, some m) → m.Formed

theorem Run.formed_ok {s : State} (h : s.Formed) : Run.Formed (.ok s) :=
  ⟨by rintro _ ⟨⟩; exact h, by rintro _ _ _ ⟨⟩⟩

theorem Run.formed_stop {n : Nat} {e : Stop} : Run.Formed (.error (n, e, none)) :=
  ⟨by rintro _ ⟨⟩, by rintro _ _ _ ⟨⟩⟩

theorem Run.formed_error {n : Nat} {e : Stop × Option MemState} (h : SRes.Formed (.error e)) : Run.Formed (.error (n, e)) :=
  ⟨by rintro _ ⟨⟩, by rintro _ _ _ ⟨⟩; exact h.2 _ _ rfl⟩

/-- The state with another core in view, or another memory. -/
theorem State.Formed.withCore {s : State} {c : Core} (h : s.Formed) (hc : c.Formed InPackage) : ({ s with core := c } : State).Formed :=
  ⟨hc, h.others, h.mem, h.launch, h.agenda⟩

theorem State.Formed.withMem {s : State} {m : MemState} (h : s.Formed) (hm : m.Formed) : ({ s with mem := m } : State).Formed :=
  ⟨h.core, h.others, hm, h.launch, h.agenda⟩

end Sys2Proof.Machine
end

section
/-! PROOF. Operands and operations on a core: reads, writes and flags touch neither its number nor its scratchpad. -/
namespace Sys2Proof.Machine

variable {P : Nat → Prop} {c : Core}

theorem Core.Formed.setS {n : Fin 64} {w : Word} (h : c.Formed P) : (c.setS n w).Formed P := by grind [Core.setS, Core.Formed]

theorem Core.Formed.setM {n : Fin 8} {m : Mask} (h : c.Formed P) : (c.setM n m).Formed P := by grind [Core.setM, Core.Formed]

theorem Core.Formed.setF {n : Fin 8} {b : Bool} (h : c.Formed P) : (c.setF n b).Formed P := by grind [Core.setF, Core.Formed]

theorem Core.Formed.setGroup {g : Nat} {x : Group} (h : c.Formed P) : (c.setGroup g x).Formed P := h

theorem Core.Formed.record {type code addr info : Nat} (h : c.Formed P) : (c.record type code addr info).Formed P := h

theorem Core.Formed.corrected {g bank code addr : Nat} (h : c.Formed P) : (c.corrected g bank code addr).Formed P := h

theorem Core.Formed.countBank {g bank : Nat} (h : c.Formed P) : (c.countBank g bank).Formed P := by grind [Core.countBank, Core.Formed]

theorem Core.Formed.poisonSector {x : Nat} {fault : Bool} (h : c.Formed P) : (c.poisonSector x fault).Formed P := by
  grind [Core.poisonSector, Core.Formed.setGroup, Core.Formed]

theorem Core.Formed.countPoison {g : Nat} (h : c.Formed P) : (c.countPoison g).Formed P := h

theorem Core.Formed.recompute {g row : Nat} (h : c.Formed P) : (c.recompute g row).Formed P := by
  grind [Core.recompute, Core.Formed.setGroup]

theorem Core.Formed.dropError {key : Nat} (h : c.Formed P) : (c.dropError key).Formed P := h

theorem Core.Formed.correctData {x : Nat} (h : c.Formed P) : (c.correctData x).Formed P := by
  grind [Core.correctData, Core.Formed.corrected, Core.Formed.dropError]

theorem Core.Formed.readLibero {g row : Nat} (h : c.Formed P) : (c.readLibero g row).Formed P := by
  grind [Core.readLibero, Core.Formed.recompute, Core.Formed.corrected, Core.Formed.dropError, Core.Formed.countBank]

theorem Core.Formed.rebuildFault {g row x : Nat} {bad more : List Nat} (h : c.Formed P) : (c.rebuildFault g row x bad more).Formed P := by
  grind [Core.rebuildFault, Core.Formed.dropError, Core.Formed.record, Core.Formed.poisonSector, Core.Formed.countPoison,
    Core.Formed.countBank, Core.Formed.foldl]

theorem Core.Formed.readFatal {x : Nat} (h : c.Formed P) : (c.readFatal x).Formed P := by
  grind [Core.readFatal, Core.Formed.correctData, Core.Formed.corrected, Core.Formed.dropError, Core.Formed.record,
    Core.Formed.readLibero, Core.Formed.rebuildFault, Core.Formed.poisonSector, Core.Formed.countPoison, Core.Formed.countBank,
    Core.Formed.foldl]

theorem Core.Formed.readSector {x : Nat} (h : c.Formed P) : (c.readSector x).Formed P := by
  grind [Core.readSector, Core.Formed.readFatal, Core.Formed.correctData]

theorem Core.Formed.serveEntry {g : Nat} {e : DeltaEntry} (h : c.Formed P) : (c.serveEntry g e).Formed P := by
  grind [Core.serveEntry, Core.Formed.dropError, Core.Formed.readLibero, Core.Formed.readSector, Core.Formed.setGroup, Core.Formed.foldl]

theorem Core.Formed.shrink {g n fuel : Nat} (h : c.Formed P) : (c.shrink g n fuel).Formed P := by
  induction fuel generalizing c with
  | zero => exact h
  | succ fuel ih => grind [Core.shrink, Core.Formed.serveEntry]

theorem Core.Formed.makeRoom {g fuel : Nat} (h : c.Formed P) : (c.makeRoom g fuel).Formed P := by grind [Core.makeRoom,
  Core.Formed.shrink]

theorem Core.Formed.fit (h : c.Formed P) : c.fit.Formed P := by grind [Core.fit, Core.Formed.shrink, Core.Formed.foldl]

theorem Core.Formed.detect {off n : Nat} {write : Bool} (h : c.Formed P) : (c.detect off n write).1.Formed P := by
  grind [Core.detect, Core.Formed.fit, Core.Formed.readSector, Core.Formed.foldl]

theorem Core.Formed.noteSector {sector : Nat} {cleared : Bool} {delta : BitVec 256} (h : c.Formed P) :
    (c.noteSector sector cleared delta).Formed P := by
  grind [Core.noteSector, Core.Formed.makeRoom, Core.Formed.setGroup]

theorem Core.Formed.noteSectors {delta : Nat → BitVec 256} {lo hi sector n : Nat} (h : c.Formed P) :
    (c.noteSectors delta lo hi sector n).Formed P := by
  induction n generalizing c sector with
  | zero => exact h
  | succ n ih =>
    refine ih (Core.Formed.noteSector ?_)
    split <;> exact h

theorem Core.Formed.noteStripe {stripe : Nat} (h : c.Formed P) : (c.noteStripe stripe).Formed P := by
  have hs : (((List.range 8).foldl (fun (c : Core) i => c.readSector (8 * stripe + i)) c).readLibero (poolGroup (256 * stripe))
      (poolRow (256 * stripe))).fit.Formed P := (h.foldl fun _ _ hc => hc.readSector).readLibero.fit
  grind [Core.noteStripe, Core.setGroup, Core.Formed]

theorem Core.Formed.senseStripes (h : c.Formed P) : c.senseStripes.Formed P := by
  grind [Core.senseStripes, Core.Formed.noteStripe, Core.Formed.foldl]

theorem Core.Formed.noteStripes {delta : Nat → BitVec 256} {lo hi stripe n : Nat} (h : c.Formed P) :
    (c.noteStripes delta lo hi stripe n).Formed P := by
  induction n generalizing c stripe with
  | zero => exact h
  | succ n ih => grind [Core.noteStripes, Core.Formed.noteStripe, Core.Formed.noteSectors]

theorem Core.Formed.writeRuns {runs : List (Nat × Nat)} {new : Core → Core} (h : c.Formed P)
    (hn : ∀ c, c.Formed P → (new c).Formed P) : (c.writeRuns runs new).Formed P := by
  refine hn _ (h.foldl fun c r hc => ?_)
  split
  · exact hc
  · exact hc.noteStripes

theorem Core.Formed.scrWrite {a : Nat} {bs : List Byte} (h : c.Formed P) : (c.scrWrite a bs).Formed P := by
  grind [Core.scrWrite, Mem.wf_putN, Core.Formed]

theorem Core.Formed.coverPut {a : Nat} {bs : List Byte} (h : c.Formed P) : (c.coverPut a bs).Formed P := by
  have hs := (h.readSector (x := a / 32)).fit
  grind [Core.coverPut, Core.Formed.scrWrite, Core.Formed]

theorem Core.Formed.scrPut {a : Nat} {bs : List Byte} (h : c.Formed P) : (c.scrPut a bs).Formed P := by
  grind [Core.scrPut, Core.Formed.writeRuns, Core.Formed.scrWrite]

theorem Core.Formed.scrKeep {a : Nat} {bs : List Byte} (h : c.Formed P) : (c.scrKeep a bs).Formed P := by
  grind [Core.scrKeep, Core.Formed.scrPut, Core.Formed]

theorem Core.Formed.scrStore {a n x : Nat} (h : c.Formed P) : (c.scrStore a n x).Formed P := by grind [Core.scrStore, Core.Formed.scrPut]

theorem Core.Formed.storePool {a : Int} {n x : Nat} (h : c.Formed P) : Res.Formed P (c.storePool a n x) := by
  grind [Core.storePool, Core.Formed.scrKeep, Res.formed_ok, Res.formed_bind (α := Unit), Res.formed_bind (α := Nat)]

theorem Core.Formed.setV {n : Nat} {v : Vec} (h : c.Formed P) : (c.setV n v).Formed P := by
  have hs := h.noteStripe (stripe := c.vregOff n / 256)
  exact hs

theorem Core.Formed.setToken {k : Nat} {t : Token} (h : c.Formed P) : (c.setToken k t).Formed P := by grind [Core.setToken, Core.Formed]

theorem Core.Formed.writeDest {d : Dest} {v : Val} {issue : Nat} (h : c.Formed P) : (c.writeDest d v issue).Formed P := by
  grind [Core.writeDest.eq_def, Core.Formed.setS, Core.Formed.setV, Core.Formed.setF, Core.Formed.setM, Core.Formed]

theorem Core.Formed.deliver {p : Pending} (h : c.Formed P) : (c.deliver p).Formed P := by
  have hw := h.writeDest (d := p.dst) (v := p.val) (issue := p.issue)
  grind [Core.deliver, Core.Formed.setToken, Core.Formed]

theorem Core.Formed.addPending {p : Pending} (h : c.Formed P) : (c.addPending p).Formed P := h

theorem Core.Formed.deliverDue (h : c.Formed P) : c.deliverDue.Formed P := by
  unfold Core.deliverDue
  dsimp only
  split
  · exact h
  · exact Core.Formed.foldl h fun _ _ hd => hd.deliver

theorem Core.Formed.writeVar {v : VarRes} {x : Val} (h : c.Formed P) : (c.writeVar v x).Formed P := by
  grind [Core.writeVar, Core.Formed.writeDest, Core.Formed.setToken, Core.Formed]

theorem Core.Formed.lent {slot : Nat} {d : Dest} (h : c.Formed P) : (c.lent slot d).1.Formed P := by grind [Core.lent.eq_def, Core.Formed]

theorem Core.Formed.reserve {n id : Nat} (h : c.Formed P) : (c.reserve n id).Formed P := by
  refine Core.Formed.foldlFst (l := c.pending) (x := (c, [])) h fun x p hx => ?_
  obtain ⟨d, ps⟩ := x
  dsimp only
  split <;> exact hx

theorem Core.Formed.postArrival {off : Nat} {empty : Bool} (h : c.Formed P) : (c.postArrival off empty).Formed P := by
  grind [Core.postArrival, Core.Formed.detect, Core.Formed.scrStore]

theorem Core.Formed.setTile {z : Nat} {t : Tile} (h : c.Formed P) : (c.setTile z t).Formed P := h

theorem Core.Formed.noteRows {off n : Nat} (h : c.Formed P) : (c.noteRows off n).Formed P := by
  grind [Core.noteRows, Core.Formed.noteStripe, Core.Formed.foldl]

theorem Core.Formed.copyPoison {src dst : Nat} (h : c.Formed P) : (c.copyPoison src dst).Formed P := by
  have hn (n : Nat) := (h.detect (off := src) (n := n) (write := false)).noteRows (off := dst) (n := 64)
  grind [Core.copyPoison, Core.Formed]

theorem Core.Formed.rewriteRow {off : Nat} (h : c.Formed P) : (c.rewriteRow off).Formed P := by
  have hs := h.noteStripe (stripe := off / 256)
  exact hs

theorem Core.Formed.touch (h : c.Formed P) : c.touch.Formed P := h

theorem Core.Formed.stamp (h : c.Formed P) : c.stamp.Formed P := by grind [Core.stamp, Core.Formed.touch]

theorem Core.Formed.actEvent {e : AccEvent} (h : c.Formed P) : (c.actEvent e).Formed P := by
  have hp (off : Nat) := h.detect (off := off) (n := 256) (write := false)
  have hb (t : Tile) (l : List Binding) : (l.foldl (fun c b => c.postArrival b.off true) (c.setTile e.tile t)).Formed P :=
    h.setTile.foldl fun _ _ hc => hc.postArrival
  have ht (t : Tile) (l : List Binding) := (hb t l).touch
  unfold Core.actEvent
  refine Core.Formed.setToken ?_
  split
  · exact h.copyPoison.setTile
  · grind [Core.Formed.rewriteRow, Core.Formed.setTile, Core.Formed]
  · exact h.noteRows.setTile
  · exact h.noteRows.setTile
  · grind [Core.Formed]

theorem Core.Formed.actDue (h : c.Formed P) : c.actDue.Formed P := by
  grind [Core.actDue, Core.Formed.actEvent, Core.Formed.foldl, Core.Formed]

theorem Core.Formed.issueVar {slot : Nat} {d : Dest} {k : VarKind} (h : c.Formed P) : (c.issueVar slot d k).Formed P := by
  have hl := h.lent (slot := slot) (d := d)
  have hr (n : Nat) : (({ (c.lent slot d).1 with nextId := (c.lent slot d).1.nextId + 1 } : Core).reserve n (c.lent slot d).1.nextId).Formed P :=
    Core.Formed.reserve hl
  grind [Core.issueVar, Core.Formed]

theorem Core.Formed.issueBoth {cls : Nat} {slot : Slot} {d : Dest} {x y : Val} (h : c.Formed P) :
    (c.issueBoth cls slot d x y).Formed P := (h.lent (slot := slot.num) (d := d) :)

theorem Core.Formed.issueFixed {cls : Nat} {slot : Slot} {d : Dest} {x : Val} (h : c.Formed P) : (c.issueFixed cls slot d x).Formed P := by
  grind [Core.issueFixed, Core.Formed.issueBoth]

theorem Core.Formed.issueResult {i : Instr} {x : Val} (h : c.Formed P) : (c.issueResult i x).Formed P := by
  grind [Core.issueResult, Core.Formed.issueFixed, Core.Formed.issueVar]

theorem Core.Formed.abandon (h : c.Formed P) : c.abandon.Formed P := by
  grind [Core.abandon, Core.Formed.setToken, Core.Formed.foldl, Core.Formed]

theorem Core.Formed.settle (h : c.Formed P) : c.settle.Formed P := by
  have hd : (c.pending.foldl Core.deliver { c with pending := [] }).Formed P := Core.Formed.foldl h fun _ _ hd => hd.deliver
  exact Core.Formed.foldl hd fun _ _ hd => hd.actEvent

theorem Core.Formed.settleVars (h : c.Formed P) : c.settleVars.Formed P := by
  grind [Core.settleVars, Core.Formed.writeVar, Core.Formed.foldl]

theorem Core.Formed.completeOlder (h : c.Formed P) : c.completeOlder.Formed P := by
  grind [Core.completeOlder, Core.Formed.stamp, Core.Formed.settleVars, Core.Formed.settle, Core.Formed.abandon]

theorem Core.Formed.enterTrap {t : TrapInfo} {pc : Word} {j : Nat} {rpt : Bool} {loops : List Level} (h : c.Formed P) :
    (c.enterTrap t pc j rpt loops).Formed P := (h.completeOlder :)

theorem Core.Formed.passTime (h : c.Formed P) : c.passTime.Formed P := h

end Sys2Proof.Machine
end

section
/-! PROOF. The sources and results of an operation. -/
namespace Sys2Proof.Machine

variable {P : Nat → Prop} {c : Core}

theorem Core.Formed.reserved? {e : Bool} {d : Dest} {id : Nat} {x : Core × Val} (h : c.Formed P) (hx : c.reserved? e d id = some x) :
    x.1.Formed P := by
  unfold Core.reserved? at hx
  split at hx
  · cases hx; exact h
  · cases hx
  · split at hx
    · split at hx
      · cases hx
      · obtain ⟨y, _, rfl⟩ := Option.map_eq_some_iff.1 hx
        exact h
    · cases hx

theorem Core.Formed.pop {field : Nat} {q : Port} {e : Bool} {d : Dest} {l : List QEntry} {put : Core → List QEntry → Core}
    (h : c.Formed P) (hp : ∀ c l, c.Formed P → (put c l).Formed P) : Res.FormedFst P (c.pop field q e d l put) := by
  grind [Core.pop.eq_def, → Core.Formed.reserved?, Res.formedFst_ok, Res.formedFst_error, Core.Formed]

theorem Core.Formed.readPort {field : Nat} {q : Port} {e : Bool} (h : c.Formed P) : Res.FormedFst P (c.readPort field q e) := by
  grind [Core.readPort.eq_def, Core.Formed.pop, Res.formedFst_ok, Res.formedFst_error, Core.Formed]

theorem Core.Formed.readField {cls : OpClass} {field : Nat} {q : Port} {e : Bool} (h : c.Formed P) :
    Res.FormedFst P (c.readField cls field q e) := by
  grind [Core.readField.eq_def, Core.Formed.readPort, Res.formedFst_ok, Res.formedFst_error]

theorem Core.Formed.sources {i : Instr} (h : c.Formed P) : Res.FormedFst P (c.sources i) := by
  unfold Core.sources
  split
  · exact Res.formedFst_ok h
  · refine Res.formedFst_bindFst h.readField fun x hx => Res.formedFst_bindFst hx.readField fun y hy =>
      Res.formedFst_bindFst hy.readField fun z hz => Res.formedFst_bind fun _ => ?_
    split
    · exact Res.formedFst_error
    · exact Res.formedFst_bind fun _ => Res.formedFst_ok hz

theorem Core.Formed.operands {i : Instr} (h : c.Formed P) : Res.FormedFst P (c.operands i) :=
  Res.formedFst_bindFst h.sources fun _ hx => Res.formedFst_bind fun _ => Res.formedFst_ok hx

end Sys2Proof.Machine
end

section
/-! PROOF. Scalar operations. -/
namespace Sys2Proof.Machine

variable {P : Nat → Prop} {c : Core}

theorem formed_scalarOp {i : Instr} {f : Word → Word → Word → Word} (h : c.Formed P) : Res.Formed P (scalarOp i f c) := by
  grind [scalarOp, Core.Formed.operands, Core.Formed.issueResult, Res.formed_ok, Res.formed_bindFst]

theorem formed_flagResult {i : Instr} {f : Word → Word → Word → Bool} (h : c.Formed P) : Res.Formed P (flagResult i f c) := by
  grind [flagResult, Core.Formed.operands, Core.Formed.issueResult, Res.formed_ok, Res.formed_bindFst]

theorem formed_issueApset {o : Op} (h : c.Formed P) : Res.Formed P (issueApset o c) := by
  grind [issueApset, Core.Formed.operands, Core.Formed.issueResult, Res.formed_ok, Res.formed_error, Res.formed_bindFst]

theorem formed_issueApget {o : Op} (h : c.Formed P) : Res.Formed P (issueApget o c) := by
  grind [issueApget, Core.Formed.operands, Core.Formed.issueResult, Res.formed_ok, Res.formed_bindFst]

end Sys2Proof.Machine
end

section
/-! PROOF. The pool and the stage records of a core. -/
namespace Sys2Proof.Machine

variable {P : Nat → Prop} {c : Core}

theorem formed_finishLoad {i : Instr} {x : Val} (h : c.Formed P) : Res.Formed P (finishLoad i c x) := by
  grind [finishLoad, Core.Formed.issueResult, Res.formed_ok, Res.formed_bind (α := Unit)]

theorem formed_issueLdv {o : Op} (h : c.Formed P) : Res.Formed P (issueLdv o c) := by
  grind [issueLdv, Core.Formed.sources, formed_finishLoad, Res.formed_bindFst, Res.formed_bind (α := Unit), Res.formed_bind (α := Nat)]

theorem formed_issueLdvt {o : Op} (h : c.Formed P) : Res.Formed P (issueLdvt o c) := by
  grind [issueLdvt, Core.Formed.sources, Core.Formed.issueResult, Res.formed_ok, Res.formed_bindFst, Res.formed_bind (α := Unit)]

theorem formed_issueStv {o : Op} (h : c.Formed P) : Res.Formed P (issueStv o c) := by
  grind [issueStv, Core.Formed.sources, Core.Formed.storePool, Res.formed_bindFst, Res.formed_bind (α := Unit),
    Res.formed_bind (α := Nat)]

theorem formed_storeColumn {v : Nat} {l : List Int} (h : c.Formed P) : Res.Formed P (storeColumn c v l) := by
  induction l generalizing c v with
  | nil => exact Res.formed_ok h
  | cons a l ih => exact Res.formed_bindCore h.storePool fun _ hc => ih hc

theorem formed_issueStvt {o : Op} (h : c.Formed P) : Res.Formed P (issueStvt o c) := by
  grind [issueStvt, Core.Formed.sources, formed_storeColumn, Res.formed_bindFst, Res.formed_bind (α := Unit)]

theorem formed_issueLdvu {o : Op} (h : c.Formed P) : Res.Formed P (issueLdvu o c) := by
  grind [issueLdvu, Core.Formed.sources, formed_finishLoad, Res.formed_bindFst, Res.formed_bind (α := Nat)]

theorem formed_issueLdvm {o : Op} (h : c.Formed P) : Res.Formed P (issueLdvm o c) := by
  grind [issueLdvm, Core.Formed.sources, formed_finishLoad, Res.formed_bindFst, Res.formed_bind (α := Unit)]

theorem formed_storeRuns {a : Int} {v : Nat} {l : List (Nat × Nat)} (h : c.Formed P) : Res.Formed P (storeRuns c a v l) := by
  induction l generalizing c with
  | nil => exact Res.formed_ok h
  | cons r l ih => exact Res.formed_bindCore h.storePool fun _ hc => ih hc

theorem formed_issueStvb {o : Op} (h : c.Formed P) : Res.Formed P (issueStvb o c) := by
  grind [issueStvb, Core.Formed.sources, formed_storeRuns, Res.formed_bindFst, Res.formed_bind (α := Unit)]

theorem formed_issueLdm {o : Op} (h : c.Formed P) : Res.Formed P (issueLdm o c) := by
  grind [issueLdm, Core.Formed.sources, formed_finishLoad, Res.formed_bindFst, Res.formed_bind (α := Unit), Res.formed_bind (α := Nat)]

theorem formed_issueStm {o : Op} (h : c.Formed P) : Res.Formed P (issueStm o c) := by
  grind [issueStm, Core.Formed.sources, Core.Formed.storePool, Res.formed_bindFst, Res.formed_bind (α := Unit)]

theorem formed_issueLds {o : Op} (h : c.Formed P) : Res.Formed P (issueLds o c) := by
  grind [issueLds, Core.Formed.sources, Core.Formed.issueResult, Res.formed_ok, Res.formed_bindFst, Res.formed_bind (α := Unit),
    Res.formed_bind (α := Nat)]

theorem formed_issueSts {o : Op} (h : c.Formed P) : Res.Formed P (issueSts o c) := by
  grind [issueSts, Core.Formed.sources, Core.Formed.storePool, Res.formed_bindFst, Res.formed_bind (α := Unit)]

theorem formed_issueAtoml {o : Op} (h : c.Formed P) : Res.Formed P (issueAtoml o c) := by
  grind [issueAtoml, Core.Formed.sources, Core.Formed.issueResult, Core.Formed.storePool, Res.formed_ok, Res.formed_bindFst,
    Res.formed_bindCore, Res.formed_bind (α := Unit), Res.formed_bind (α := Nat)]

theorem formed_issueCasl {o : Op} (h : c.Formed P) : Res.Formed P (issueCasl o c) := by
  grind [issueCasl, Core.Formed.sources, Core.Formed.issueResult, Core.Formed.storePool, Res.formed_ok, Res.formed_bindFst,
    Res.formed_bindCore, Res.formed_bind (α := Unit), Res.formed_bind (α := Nat)]

theorem formed_issueSinit {o : Op} (h : c.Formed P) : Res.Formed P (issueSinit o c) := by
  grind [issueSinit, Core.Formed.sources, Core.Formed.storePool, Res.formed_error, Res.formed_bindFst, Res.formed_bind (α := Unit)]

theorem formed_stageWait {i : Instr} {o : Op} {empty : Bool} (h : c.Formed P) : Res.Formed P (stageWait i o empty c) := by
  grind [stageWait, Core.Formed.sources, Res.formed_ok, Res.formed_error, Res.formed_bindFst, Res.formed_bind (α := Unit),
    Res.formed_bind (α := StageRec)]

theorem formed_issueSwaitPtr {o : Op} (h : c.Formed P) : Res.Formed P (issueSwaitPtr o c) := by
  grind [issueSwaitPtr, Core.Formed.sources, Core.Formed, Res.formed_ok, Res.formed_error, Res.formed_bindFst]

theorem formed_stageArrive {i : Instr} {o : Op} {empty : Bool} (h : c.Formed P) : Res.Formed P (stageArrive i o empty c) := by
  grind [stageArrive, Core.Formed.sources, Core.Formed.storePool, Res.formed_bindFst, Res.formed_bind (α := Unit),
    Res.formed_bind (α := StageRec)]

theorem formed_issueBankq {o : Op} (h : c.Formed P) : Res.Formed P (issueBankq o c) := by
  grind [issueBankq, Core.Formed.sources, Core.Formed.issueResult, Res.formed_ok, Res.formed_error, Res.formed_bindFst]

theorem formed_issuePldl {o : Op} (h : c.Formed P) : Res.Formed P (issuePldl o c) := by
  grind [issuePldl, Core.Formed.sources, Res.formed_ok, Res.formed_bindFst]

theorem formed_flushL1 {i : Instr} (h : c.Formed P) : Res.Formed P (flushL1 i c) := by
  grind [flushL1, Core.Formed.sources, Res.formed_ok, Res.formed_bindFst, Res.formed_bind (α := Unit)]

end Sys2Proof.Machine
end

section
/-! PROOF. Branches, levels and the special registers of a core. -/
namespace Sys2Proof.Machine

variable {P : Nat → Prop} {c : Core}

theorem Core.Formed.advance {addr : Word} {yields : Bool} (h : c.Formed P) : (c.advance addr yields).Formed P := h

theorem Core.Formed.pushLoop {addr : Word} {count : BitVec 32} {fin : Word} (h : c.Formed P) :
    Res.Formed P (c.pushLoop addr count fin) := by
  grind [Core.pushLoop, Core.Formed, Res.formed_ok, Res.formed_error]

theorem Core.Formed.writeSr {i : Nat} {v : Word} (h : c.Formed P) : (c.writeSr i v).Formed P := by grind [Core.writeSr.eq_def,
  Core.Formed]

theorem Core.Formed.perform {addr : Word} (h : c.Formed P) : Res.Formed P (c.perform addr) := by
  have h0 : ({ c with act := .none, point := false } : Core).Formed P := h
  unfold Core.perform
  split
  all_goals dsimp only
  case h_1 | h_2 | h_3 | h_9 | h_11 | h_12 | h_13 | h_15 | h_16 => exact Res.formed_ok h
  case h_4 => exact Res.formed_ok h0.advance.writeSr
  case h_5 | h_6 => exact Res.formed_bind fun _ => Res.formed_ok h
  case h_7 => exact h0.pushLoop
  case h_8 =>
    split
    · exact Res.formed_error
    · exact Res.formed_ok h
  case h_10 =>
    split
    · exact Res.formed_error
    · exact Res.formed_ok (Core.Formed.issueFixed h)
  case h_14 =>
    split
    · exact Res.formed_ok h
    · exact Res.formed_error

theorem formed_brAct {i : Instr} {f : Word → Word → Core → BrAction} (h : c.Formed P) : Res.Formed P (brAct i f c) := by
  grind [brAct, Core.Formed.operands, Core.Formed, Res.formed_ok, Res.formed_bindFst]

theorem formed_brActOutside {i : Instr} {f : Word → Word → Core → BrAction} (h : c.Formed P) : Res.Formed P (brActOutside i f c) := by
  grind [brActOutside, Core.Formed.operands, Core.Formed, Res.formed_ok, Res.formed_bindFst, Res.formed_bind (α := Unit)]

theorem formed_issueCall {o : Op} (h : c.Formed P) : Res.Formed P (issueCall o c) := by
  refine Res.formed_bindFst h.operands fun x hx => Res.formed_ok ?_
  have hi := hx.issueResult (i := .call o) (x := .word (x.1.sequel x.1.bundleAddr).2.1)
  exact hi

theorem formed_tokenAct {i : Instr} {o : Op} {all wait : Bool} (h : c.Formed P) : Res.Formed P (tokenAct i o all wait c) := by
  grind [tokenAct, Core.Formed.operands, Core.Formed, Res.formed_ok, Res.formed_bindFst]

theorem formed_issueMfsr {o : Op} (h : c.Formed P) : Res.Formed P (issueMfsr o c) := by
  grind [issueMfsr, Core.Formed.operands, Core.Formed.issueResult, Core.Formed.passTime, Res.formed_ok, Res.formed_error,
    Res.formed_bindFst]

theorem formed_issueMtsr {o : Op} (h : c.Formed P) : Res.Formed P (issueMtsr o c) := by
  grind [issueMtsr, Core.Formed.operands, Core.Formed, Res.formed_ok, Res.formed_error, Res.formed_bindFst]

end Sys2Proof.Machine
end

section
/-! PROOF. The parts of the memories. -/
namespace Sys2Proof.Machine

theorem MemState.formed_reset : MemState.reset.Formed := ⟨rfl, rfl, rfl⟩

end Sys2Proof.Machine
end

section
/-! PROOF. Memory: sectors of the cache, HBM, flash and the host, translation and keys. -/
namespace Sys2Proof.Machine

variable {m : MemState}

theorem MemState.Formed.setChan {x : Hchan} (h : m.Formed) : (m.setChan x).Formed := h

theorem MemState.Formed.senseHbm {num : Nat} (h : m.Formed) : (m.senseHbm num).1.Formed := by grind [MemState.senseHbm, MemState.Formed]

theorem MemState.Formed.fillOther {num : Nat} (h : m.Formed) : (m.fillOther num).Formed := by
  grind [MemState.fillOther, MemState.Formed.senseHbm, MemState.Formed.setChan]

theorem MemState.Formed.lookup {num : Nat} (h : m.Formed) : (m.lookup num).1.Formed := by
  grind [MemState.lookup, MemState.Formed.fillOther, MemState.Formed.senseHbm, MemState.Formed.setChan, MemState.Formed]

theorem MemState.Formed.readHbm {num : Nat} (h : m.Formed) : (m.readHbm num).1.Formed := by grind [MemState.readHbm,
  MemState.Formed.lookup]

theorem MemState.Formed.performWrite {num : Nat} {k : HbmKind} (h : m.Formed) : (m.performWrite num k).Formed := by
  cases k <;> grind [MemState.performWrite, MemState.Formed.setChan, Mem.wf_store, MemState.Formed]

theorem MemState.Formed.arrive {a : Nat} {kind : HbmKind} (h : m.Formed) : (m.arrive a kind).Formed := by
  grind [MemState.arrive, MemState.Formed.setChan]

theorem MemState.Formed.writeHbm {num : Nat} {k : HbmKind} (h : m.Formed) : (m.writeHbm num k).Formed := by
  grind [MemState.writeHbm, MemState.Formed.performWrite, MemState.Formed.arrive]

theorem MemState.Formed.mergeHbm {num : Nat} {new : BitVec 256 → BitVec 256} (h : m.Formed) : (m.mergeHbm num new).Formed := by
  grind [MemState.mergeHbm, MemState.Formed.readHbm, MemState.Formed.setChan, MemState.Formed.writeHbm]

theorem MemState.Formed.putHbm {a n : Nat} {bs : List Byte} (h : m.Formed) : (m.putHbm a n bs).Formed := by
  fun_induction MemState.putHbm m a n bs with
  | case1 => exact h
  | case2 => exact h
  | case3 => grind [MemState.Formed.writeHbm, MemState.Formed.mergeHbm]

theorem MemState.Formed.readFlash {p : Nat} (h : m.Formed) : (m.readFlash p).1.Formed := by grind [MemState.readFlash, MemState.Formed]

theorem MemState.Formed.senseBelow {kind num : Nat} (h : m.Formed) : (m.senseBelow kind num).1.Formed := by
  grind [MemState.senseBelow.eq_def, MemState.Formed.readFlash, MemState.Formed.readHbm]

theorem MemState.Formed.dropSector {kind num : Nat} (h : m.Formed) : (m.dropSector kind num).Formed := h

theorem MemState.Formed.putHost {num v : Nat} {poison : Bool} (h : m.Formed) : (m.putHost num v poison).Formed := by
  grind [MemState.putHost, Mem.wf_store, MemState.Formed]

theorem MemState.Formed.putBack {kind num : Nat} {raw : BitVec 256} {poison : Bool} (h : m.Formed) :
    (m.putBack kind num raw poison).Formed := by
  grind [MemState.putBack.eq_def, MemState.Formed.putHost, MemState.Formed.writeHbm]

theorem MemState.Formed.loseDirty {f : Nat × Nat × Nat} {x : Sector} (h : m.Formed) : (m.loseDirty f x).Formed := by
  grind [MemState.loseDirty, MemState.Formed.putBack, MemState.Formed.dropSector, MemState.Formed]

theorem MemState.Formed.storeDirty {x : Sector} (h : m.Formed) : (m.storeDirty x).Formed := by
  grind [MemState.storeDirty, MemState.Formed.putBack, MemState.Formed]

theorem MemState.Formed.dirtyError {x : Sector} (h : m.Formed) : (m.dirtyError x).Formed := by
  grind [MemState.dirtyError, MemState.Formed.storeDirty, MemState.Formed.loseDirty, MemState.Formed.dropSector]

theorem MemState.Formed.writeBack {x : Sector} (h : m.Formed) : (m.writeBack x).Formed := by
  grind [MemState.writeBack, MemState.Formed.storeDirty, MemState.Formed.dirtyError]

theorem MemState.Formed.holdSector {x : Sector} (h : m.Formed) : (m.holdSector x).Formed := by
  grind [MemState.holdSector, MemState.Formed.writeBack, MemState.Formed.dropSector, MemState.Formed]

theorem MemState.Formed.putSector {x : Sector} (h : m.Formed) : (m.putSector x).Formed := by
  grind [MemState.putSector, MemState.Formed.holdSector, MemState.Formed.dropSector]

theorem MemState.Formed.clean {x : Sector} (h : m.Formed) : (m.clean x).Formed := by
  grind [MemState.clean, MemState.Formed.writeBack, MemState.Formed]

theorem MemState.Formed.fetch {kind num key : Nat} (h : m.Formed) : (m.fetch kind num key).1.Formed := by
  grind [MemState.fetch, MemState.Formed.holdSector, MemState.Formed.senseBelow]

theorem MemState.Formed.look {kind num key : Nat} (h : m.Formed) : (m.look kind num key).1.Formed := by
  grind [MemState.look, MemState.Formed.fetch, MemState.Formed.putSector, MemState.Formed.writeBack, MemState.Formed.dropSector,
    MemState.Formed.dirtyError, MemState.Formed]

theorem MemState.Formed.noteChange {kind num lo n : Nat} (h : m.Formed) : (m.noteChange kind num lo n).Formed := by
  grind [MemState.noteChange, MemState.Formed]

theorem MemState.Formed.write {kind num key ctx lo n v : Nat} (h : m.Formed) : (m.write kind num key ctx lo n v).1.Formed := by
  grind [MemState.write, MemState.Formed.look, MemState.Formed.putSector, MemState.Formed.noteChange]

theorem MemState.Formed.setCtx {c : Ctx} (h : m.Formed) : (m.setCtx c).Formed := h

theorem MemState.Formed.entry {pa : Nat} (h : m.Formed) : (m.entry pa).1.Formed := by
  grind [MemState.entry, MemState.Formed.look, MemState.Formed.readHbm]

theorem MemState.Formed.entryAt {time pa : Nat} (h : m.Formed) : (m.entryAt time pa).1.Formed := by
  grind [MemState.entryAt, MemState.Formed.entry]

theorem MemState.Formed.walkFrom {time va x1 x2 x3 : Nat} (h : m.Formed) : (m.walkFrom time va x1 x2 x3).1.Formed := by
  induction x1 generalizing m x2 x3 with
  | zero => exact h
  | succ n ih => grind [MemState.walkFrom, MemState.Formed.entryAt]

theorem MemState.Formed.leaf {c : Ctx} {va : Nat} (h : m.Formed) : (m.leaf c va).1.Formed := by
  grind [MemState.leaf, MemState.Formed.walkFrom, MemState.Formed]

theorem MemState.Formed.translate {ctx va : Nat} {a : Access} (h : m.Formed) : (m.translate ctx va a).1.Formed := by
  grind [MemState.translate, MemState.Formed.leaf]

theorem MemState.Formed.readBytes {t : Target} {x1 : Nat} (h : m.Formed) : (m.readBytes t x1).1.Formed := by
  induction x1 generalizing m t with
  | zero => exact h
  | succ n ih => grind [MemState.readBytes, MemState.Formed.look]

theorem MemState.Formed.writeBytes {t : Target} {ctx x1 : Nat} {x2 : List Byte} (h : m.Formed) : (m.writeBytes t ctx x1 x2).1.Formed := by
  induction x1 generalizing m t x2 with
  | zero => grind [MemState.writeBytes.eq_def]
  | succ n ih => grind [MemState.writeBytes.eq_def, MemState.Formed.write]

theorem MemState.Formed.lookBytes {t : Target} {x1 x2 : Nat} (h : m.Formed) : (m.lookBytes t x1 x2).1.Formed := by
  induction x1 generalizing m t x2 with
  | zero => grind [MemState.lookBytes.eq_def]
  | succ n ih => grind [MemState.lookBytes.eq_def, MemState.Formed.look]

theorem MemState.Formed.invl {ctx : Nat} {va : Option Nat} (h : m.Formed) : (m.invl ctx va).Formed := h

theorem MemState.Formed.each {f : MemState → Sector → MemState} {l : List Sector} (h : m.Formed)
    (hf : ∀ m x, m.Formed → (f m x).Formed) : (MemState.each f m l).Formed := by
  refine h.foldl fun m x hm => ?_
  split
  · exact hf _ _ hm
  · exact hm

theorem MemState.Formed.release (h : m.Formed) : m.release.Formed := by
  grind [MemState.release, MemState.Formed.each, MemState.Formed.clean]

theorem MemState.Formed.flushAll (h : m.Formed) : m.flushAll.Formed := by
  grind [MemState.flushAll, MemState.Formed.each, MemState.Formed.writeBack, MemState.Formed]

theorem MemState.Formed.flushSector {kind num : Nat} (h : m.Formed) : (m.flushSector kind num).Formed := by
  grind [MemState.flushSector, MemState.Formed.writeBack, MemState.Formed.dropSector]

theorem MemState.Formed.physRead {pa x1 : Nat} (h : m.Formed) : (m.physRead pa x1).1.Formed := by
  induction x1 generalizing m pa with
  | zero => exact h
  | succ n ih => grind [MemState.physRead, MemState.Formed.entry]

end Sys2Proof.Machine
end

section
/-! PROOF. The state as a whole. -/
namespace Sys2Proof.Machine

theorem State.formed_reset : State.reset.Formed :=
  ⟨⟨rfl, rfl⟩, by simp [State.reset], MemState.formed_reset, by simp [LaunchState.Formed, State.reset, LaunchState.reset], by simp [State.reset]⟩

end Sys2Proof.Machine
end

section
/-! PROOF. The units of the package: the core in view, the others, and what is put into their place. -/
namespace Sys2Proof.Machine

variable {s : State} {m : MemState} {c : Core}

theorem State.Formed.coreAt {k : Nat} (h : s.Formed) : (s.coreAt k).Formed AnyNumber := by
  unfold State.coreAt
  split
  · exact h.core.any
  · split
    · next c hc => exact (h.others c (List.mem_of_find?_eq_some hc)).any
    · exact ⟨trivial, rfl⟩

theorem State.coreAt_kid (s : State) (k : Nat) : (s.coreAt k).kid = k := by
  unfold State.coreAt
  split
  · next e => exact e.symm
  · split
    · next c hc => simpa using List.find?_some hc
    · rfl

theorem State.Formed.setCore (h : s.Formed) (hc : c.Formed AnyNumber) : (s.setCore c).Formed := by
  unfold State.setCore
  split
  · next e => exact ⟨⟨by rw [e]; exact h.core.1, hc.2⟩, h.others, h.mem, h.launch, h.agenda⟩
  · split
    · next e => exact ⟨h.core, List.forall_mem_cons.2 ⟨⟨e, hc.2⟩, fun d hd => h.others d (List.mem_filter.1 hd).1⟩, h.mem, h.launch, h.agenda⟩
    · exact h

theorem State.Formed.modCore {k : Nat} {f : Core → Core} (h : s.Formed) (hf : ∀ c, c.Formed AnyNumber → (f c).Formed AnyNumber) :
    (s.modCore k f).Formed := h.setCore (hf _ h.coreAt)

theorem State.Formed.modCores {f : Core → Core} (h : s.Formed) (hf : ∀ c, c.Formed InPackage → (f c).Formed InPackage) :
    (s.modCores f).Formed :=
  ⟨hf _ h.core, List.forall_mem_map.2 fun c hc => hf c (h.others c hc), h.mem, h.launch, h.agenda⟩

theorem State.Formed.focus {k : Nat} (h : s.Formed) : (s.focus k).Formed := by
  unfold State.focus
  split
  · exact h
  · split
    · next e =>
      exact ⟨⟨by simpa [InPackage, State.coreAt_kid] using e, h.coreAt.2⟩,
        List.forall_mem_cons.2 ⟨h.core, fun d hd => h.others d (List.mem_filter.1 hd).1⟩, h.mem, h.launch, h.agenda⟩
    · exact h

theorem State.Formed.tick (h : s.Formed) : s.tick.Formed := h

theorem State.Formed.raise {v : Nat} (h : s.Formed) : (s.raise v).Formed := h

theorem State.Formed.answer {r : Reply} (h : s.Formed) : (s.answer r).Formed := h

theorem State.Formed.signal {cls : Nat} {bytes : List Byte} (h : s.Formed) : (s.signal cls bytes).Formed := by
  grind [State.signal, State.Formed.raise, State.Formed]

theorem MemState.Formed.putBelow {kind a : Nat} {bytes : List Byte} (h : m.Formed) : (m.putBelow kind a bytes).Formed := by
  grind [MemState.putBelow, Mem.wf_putN, MemState.Formed.putHbm, MemState.Formed]

theorem State.Formed.ringWrite {bytes : List Byte} (h : s.Formed) : (s.ringWrite bytes).Formed := by
  grind [State.ringWrite, MemState.Formed.putBelow, State.Formed.raise, State.Formed]

theorem State.Formed.record {r : Rec} (h : s.Formed) : (s.record r).Formed := by
  grind [State.record, State.Formed.ringWrite, State.Formed.tick, State.Formed.signal, State.Formed]

end Sys2Proof.Machine
end

section
/-! PROOF. Reports, reads and writes through a context, and the records that wait. -/
namespace Sys2Proof.Machine

variable {P : Nat → Prop} {s : State} {m : MemState} {c : Core}

theorem State.Formed.translate {k ctx va : Nat} {a : Access} (h : s.Formed) : (s.translate k ctx va a).1.Formed := by
  grind [State.translate, MemState.Formed.translate, MemState.Formed, State.Formed]

theorem State.Formed.placeByte {k ctx q : Nat} {a : Access} (h : s.Formed) : (s.placeByte k ctx q a).1.Formed := by
  unfold State.placeByte
  dsimp only
  split
  case h_1 =>
    split
    · exact h
    · exact h.translate
  case h_3 =>
    split
    · exact h
    · split
      · exact h
      · split <;> exact h
  case h_5 => split <;> exact h
  all_goals exact h

theorem State.Formed.placeBytes {k ctx : Nat} {a : Access} {x1 x2 : Nat} (h : s.Formed) : (s.placeBytes k ctx a x1 x2).1.Formed := by
  induction x2 generalizing s x1 with
  | zero => exact h
  | succ n ih => grind [State.placeBytes, State.Formed.placeByte]

theorem State.Formed.resolve {k ctx : Nat} {p : Word} {n : Nat} {a : Access} (h : s.Formed) : (s.resolve k ctx p n a).1.Formed := by
  grind [State.resolve, State.Formed.placeBytes]

theorem formed_readPieces {x1 : List (Target × Nat)} (h : m.Formed) : (readPieces m x1).1.Formed := by
  induction x1 generalizing m with
  | nil => exact h
  | cons a l ih => grind [readPieces, MemState.Formed.readBytes]

theorem formed_lookPieces {x1 : List (Target × Nat)} (h : m.Formed) : (lookPieces m x1).1.Formed := by
  induction x1 generalizing m with
  | nil => exact h
  | cons a l ih => grind [lookPieces, MemState.Formed.lookBytes]

theorem formed_writePieces {ctx : Nat} {x1 : List (Target × Nat)} {x2 : List Byte} (h : m.Formed) : (writePieces m ctx x1 x2).Formed := by
  induction x1 generalizing m x2 with
  | nil => exact h
  | cons a l ih => grind [writePieces, MemState.Formed.writeBytes]

theorem State.Formed.readRange {r : Range} (h : s.Formed) : (s.readRange r).1.Formed := by
  grind [State.readRange.eq_def, formed_readPieces, State.Formed]

theorem State.Formed.writeRange {k ctx : Nat} {ptr : Word} {r : Range} {bs : List Byte} (h : s.Formed) :
    (s.writeRange k ctx ptr r bs).1.Formed := by
  grind [State.writeRange.eq_def, formed_writePieces, Core.Formed.scrPut, State.Formed.coreAt, formed_lookPieces, State.Formed.setCore,
    MemState.Formed, State.Formed]

theorem MemState.Formed.consumed {k ctx code : Nat} {ptr : Word} (h : m.Formed) : (m.consumed k ctx code ptr).Formed := h

theorem State.Formed.judge {ptr : Word} {met : Met} (h : s.Formed) : SRes.Formed (s.judge ptr met) := by
  grind [State.judge.eq_def, MemState.Formed.consumed, SRes.formed_ok, SRes.formed_stop, SRes.formed_error, State.Formed]

theorem Core.Formed.holdCredit {r : Range} (h : c.Formed P) : (c.holdCredit r).Formed P := by grind [Core.holdCredit.eq_def, Core.Formed]

theorem State.Formed.aperture {k off n : Nat} {a : Access} (h : s.Formed) : (s.aperture k off n a).1.Formed := by
  grind [State.aperture, State.Formed.placeBytes]

theorem State.Formed.ownAperture {r : Range} {a : Access} (h : s.Formed) : (s.ownAperture r a).1.Formed := by
  grind [State.ownAperture.eq_def, State.Formed.aperture]

theorem State.Formed.peerRange {r : Range} {a : Access} (h : s.Formed) : (s.peerRange r a).1.Formed := by
  grind [State.peerRange, State.Formed.ownAperture]

/-- Where the check of an access passes, the state it leaves is in form; where it fails, so is the memory. -/
def SRes.FormedFst {α : Type} (r : SRes (State × α)) : Prop :=
  (∀ x, r = .ok x → x.1.Formed) ∧ ∀ e m, r = .error (e, some m) → m.Formed

theorem SRes.formed_bindFst {α : Type} {r : SRes (State × α)} {f : State × α → SRes State} (hr : SRes.FormedFst r)
    (hf : ∀ x, x.1.Formed → SRes.Formed (f x)) : SRes.Formed (r >>= f) := by
  cases r with
  | error e => exact ⟨by rintro _ ⟨⟩, by rintro e m ⟨⟩; exact hr.2 _ _ rfl⟩
  | ok x => exact hf x (hr.1 x rfl)

theorem State.Formed.check {p : Word} {n : Nat} {a : Access} (h : s.Formed) : SRes.FormedFst (s.check p n a) := by
  have hr := h.resolve (k := s.core.kid) (ctx := s.core.ctx) (p := p) (n := n) (a := a)
  unfold State.check
  split
  · next e =>
    rw [e] at hr
    split <;> exact ⟨by rintro _ ⟨⟩, by rintro _ _ ⟨⟩; exact hr.mem⟩
  · next e =>
    rw [e] at hr
    exact ⟨by rintro _ ⟨⟩; exact hr, by rintro _ _ ⟨⟩⟩

theorem SRes.formed_credit {r : Range} {atomic : Bool} {f : Unit → SRes State} (hf : ∀ u, SRes.Formed (f u)) :
    SRes.Formed (s.credit r atomic >>= f) := by
  unfold State.credit
  split
  · split
    · exact SRes.formed_stop
    · exact hf ()
  · exact hf ()

theorem State.Formed.loadRange {r : Range} (h : s.Formed) : (s.loadRange r).1.Formed := by grind [State.loadRange, State.Formed.readRange]

theorem State.Formed.storeRange {ptr : Word} {r : Range} {bs : List Byte} (h : s.Formed) : (s.storeRange ptr r bs).1.Formed := by
  grind [State.storeRange, State.Formed.modCore, State.Formed.writeRange, MemState.Formed, Core.Formed, State.Formed]

theorem formed_issueLdg {o : Op} (h : s.Formed) : SRes.Formed (issueLdg o s) := by
  refine SRes.formed_liftFst h.core.sources fun x hx => ?_
  refine SRes.formed_bindFst (h.withCore hx).check fun y hy => SRes.formed_credit fun _ => ?_
  refine SRes.formed_bind hy.peerRange.loadRange.judge fun t ht => SRes.formed_ok (ht.withCore ?_)
  exact ht.core.holdCredit.issueResult

theorem State.Formed.storeMet {ptr : Word} {met : Met} (h : s.Formed) : SRes.Formed (s.storeMet ptr met) := by
  grind [State.storeMet.eq_def, MemState.Formed.consumed, SRes.formed_ok, SRes.formed_stop, SRes.formed_error, State.Formed]

theorem Core.Formed.postPeer {pkg : Nat} {ptr : Word} {bs : List Byte} (h : c.Formed P) : (c.postPeer pkg ptr bs).Formed P := h

theorem formed_issueStg {o : Op} (h : s.Formed) : SRes.Formed (issueStg o s) := by
  refine SRes.formed_liftFst h.core.sources fun x hx => SRes.formed_lift fun _ => ?_
  refine SRes.formed_bindFst (h.withCore hx).check fun y hy => SRes.formed_credit fun _ => ?_
  dsimp only
  split
  · exact SRes.formed_ok (hy.withCore hy.core.postPeer)
  · exact hy.storeRange.storeMet

theorem Core.Formed.issueAtomic {i : Instr} {x : Val} (h : c.Formed P) : (c.issueAtomic i x).Formed P := by
  grind [Core.issueAtomic, Core.Formed.issueVar]

theorem State.Formed.atomic {i : Instr} {p : Word} {n : Nat} {f : Nat → Option Nat} (h : s.Formed) : SRes.Formed (s.atomic i p n f) := by
  unfold State.atomic
  split
  · exact SRes.formed_stop
  · refine SRes.formed_bindFst h.check fun y hy => SRes.formed_credit fun _ => ?_
    refine SRes.formed_bind hy.peerRange.loadRange.judge fun t ht => ?_
    dsimp only
    split
    · exact SRes.formed_ok (ht.withCore ht.core.holdCredit.issueAtomic)
    · exact SRes.formed_ok (ht.storeRange.withCore ht.storeRange.core.holdCredit.issueAtomic)

theorem formed_issueAtomg {o : Op} (h : s.Formed) : SRes.Formed (issueAtomg o s) := by
  grind [issueAtomg, Core.Formed.sources, State.Formed.atomic, SRes.formed_liftFst, SRes.formed_lift (α := Unit), State.Formed]

theorem formed_issueCasg {o : Op} (h : s.Formed) : SRes.Formed (issueCasg o s) := by
  grind [issueCasg, Core.Formed.sources, State.Formed.atomic, SRes.formed_liftFst, SRes.formed_lift (α := Unit), State.Formed]

theorem State.Formed.detectRange {r : Range} {write : Bool} (h : s.Formed) : (s.detectRange r write).1.Formed := by
  grind [State.detectRange.eq_def, Core.Formed.detect, State.Formed.coreAt, State.Formed.setCore]

theorem State.Formed.engineMet {k ctx : Nat} {ptr : Word} {met : Met} {found : List Nat} (h : s.Formed) :
    (s.engineMet k ctx ptr met found).Formed := by
  grind [State.engineMet.eq_def, MemState.Formed.consumed, State.Formed]

theorem State.Formed.engRead {k ctx : Nat} {p : Word} {n : Nat} (h : s.Formed) : (s.engRead k ctx p n).1.Formed := by
  grind [State.engRead, State.Formed.detectRange, State.Formed.engineMet, State.Formed.readRange, State.Formed.resolve,
    State.Formed.ownAperture]

theorem State.Formed.engWrite {k ctx : Nat} {p : Word} {bs : List Byte} (h : s.Formed) : (s.engWrite k ctx p bs).1.Formed := by
  have hr := h.resolve (k := k) (ctx := ctx) (p := p) (n := bs.length) (a := .write)
  unfold State.engWrite
  split
  · next e => rw [e] at hr; exact hr
  · next r e =>
    rw [e] at hr
    have ho := hr.ownAperture (r := r) (a := .write)
    split
    · next e => rw [e] at ho; exact ho
    · next t r e =>
      rw [e] at ho
      have ht : t.Formed := ho
      have hw := (ht.detectRange (r := r) (write := true)).writeRange (k := k) (ctx := ctx) (ptr := p) (r := r) (bs := bs)
      dsimp only
      generalize State.writeRange _ _ _ _ _ _ = z at hw ⊢
      obtain ⟨u, met⟩ := z
      cases met with
      | wait => exact hw
      | dev bad i =>
        cases bad with
        | lost => exact hw
        | _ => exact hw.engineMet
      | _ => exact hw.engineMet

theorem State.Formed.systemRelease (h : s.Formed) : s.systemRelease.Formed := by
  grind [State.systemRelease, MemState.Formed.release, State.Formed]

end Sys2Proof.Machine
end

section
/-! PROOF. Launches, tiles, handles and their ends. -/
namespace Sys2Proof.Machine

variable {s : State} {m : MemState}

theorem State.Formed.writeWord {k ctx : Nat} {ptr : Word} {code detail seq : Nat} (h : s.Formed) :
    (s.writeWord k ctx ptr code detail seq).Formed := by
  grind [State.writeWord, State.Formed.engWrite, formed_lookPieces, State.Formed.systemRelease, State.Formed.resolve, MemState.Formed,
    State.Formed]

theorem State.Formed.placeMarkers {m : Marker} {ctx : Nat} {aper : List Aper} {ahead : Nat × Nat → Bool} {renew : MemState → MemState}
    (h : s.Formed) (hr : (renew s.mem).Formed) : (s.placeMarkers m ctx aper ahead renew).Formed :=
  h.withMem hr

theorem State.Formed.dropMarkers {m : Marker} (h : s.Formed) : (s.dropMarkers m).Formed := h

theorem State.Formed.passMarkers {k id : Nat} (h : s.Formed) : (s.passMarkers k id).Formed := by
  grind [State.passMarkers, MemState.Formed, State.Formed]

theorem MemState.Formed.asBefore {v : View} (h : m.Formed) : (m.asBefore v).Formed := h

theorem State.Formed.under {α : Type} {k id : Nat} {f : State → State × α} (h : s.Formed) (hf : ∀ s, s.Formed → (f s).1.Formed) :
    (State.under s k id f).1.Formed := by
  unfold State.under
  split
  · exact hf s h
  · next v rest _ =>
    have ha := hf { s with mem := s.mem.asBefore { v with
      aper := rest.foldl (fun l (w : View) => l ++ w.aper.filter fun a => !l.any fun b => b.handle == a.handle) v.aper } }
      (h.withMem h.mem.asBefore)
    exact ha.withMem ha.mem

theorem State.Formed.underOf {k id : Nat} {f : State → State} (h : s.Formed) (hf : ∀ s, s.Formed → (f s).Formed) :
    (s.underOf k id f).Formed := h.under fun _ hs => hf _ hs

theorem State.Formed.onOverflow {ctx i : Nat} {f : State → Word → State × Nat} (h : s.Formed)
    (hf : ∀ s a, s.Formed → (f s a).1.Formed) : (s.onOverflow ctx i f).Formed := by
  unfold State.onOverflow
  split
  · exact h
  · split
    · exact h
    · next c _ _ =>
      have ha := hf s (BitVec.ofNat 64 (c.ovfbase + 16 * i)) h
      dsimp only
      split
      · exact ha
      · exact ha.withMem ha.mem

theorem State.Formed.writeOverflow {ctx i : Nat} {bs : List Byte} (h : s.Formed) : (s.writeOverflow ctx i bs).Formed := by
  grind [State.writeOverflow, State.Formed.engWrite, State.Formed.onOverflow]

theorem State.Formed.readOverflow {ctx i : Nat} (h : s.Formed) : (s.readOverflow ctx i).Formed := by
  grind [State.readOverflow, State.Formed.engRead, State.Formed.onOverflow]

theorem State.Formed.lookTag {ctx : Nat} {t : Word} (h : s.Formed) : (s.lookTag ctx t).Formed := by
  grind [State.lookTag, State.Formed.readOverflow]

theorem State.Formed.moveTags {d n : Nat} (h : s.Formed) : (s.moveTags d n).Formed := by
  induction n generalizing s with
  | zero => exact h
  | succ n ih =>
    unfold State.moveTags
    split
    · exact h
    · split
      · exact h
      · next t _ =>
        have hs : ({ s with launch := s.launch.setTag { t with ovf := none } } : State).Formed := h
        refine ih ?_
        split
        · exact hs.readOverflow.writeOverflow
        · exact hs

theorem State.Formed.dropTags {p : Tag → Bool} (h : s.Formed) : (s.dropTags p).Formed := by
  grind [State.dropTags, State.Formed.moveTags, State.Formed.writeOverflow, State.Formed.foldl, LaunchState.Formed, State.Formed]

theorem State.Formed.placeTag {s t : State} {x : Tag} (h : s.Formed) (e : s.placeTag x = some t) : t.Formed := by
  unfold State.placeTag at e
  split at e
  · next old _ =>
    have hs : ({ s with launch := s.launch.setTag { x with ovf := old.ovf } } : State).Formed := h
    cases e
    dsimp only
    split
    · exact hs.writeOverflow
    · exact hs
  · split at e
    · cases e; exact h
    · split at e
      · cases e
      · cases e
        exact State.Formed.writeOverflow h

theorem State.Formed.applyPub {p : Pub} (h : s.Formed) : (s.applyPub p).1.Formed := by
  unfold State.applyPub
  extract_lets s1 set
  have h1 : s1.Formed := h.lookTag
  have hset : (set ()).1.Formed := by
    unfold set
    dsimp only
    split
    · exact h1
    · next e => exact h1.placeTag e
  split
  · exact hset
  · split
    · exact hset
    · split
      · split <;> exact h1
      · exact h1

theorem State.Formed.addPub {via : Publisher} {ctx : Nat} {name : Word} {gen : Nat} {poison : Option Nat} {strict : Bool}
    {deciders : List Nat} {commits : Nat} (h : s.Formed) : (s.addPub via ctx name gen poison strict deciders commits).Formed := h

theorem State.Formed.setHandle {x : Handle} (h : s.Formed) : (s.setHandle x).Formed := h

theorem State.Formed.unstage {x : Handle} {st code : Nat} (h : s.Formed) : (s.unstage x st code).Formed := h

theorem State.Formed.dropReleased {hn : Nat} (h : s.Formed) : (s.dropReleased hn).Formed := by
  grind [State.dropReleased, State.Formed.unstage]

theorem State.Formed.unpin {t : Nat} {hs : List Nat} (h : s.Formed) : (s.unpin t hs).Formed := by
  grind [State.unpin, State.Formed.setHandle, State.Formed.dropReleased, State.Formed.foldl]

theorem State.Formed.pin {t : Nat} {hs : List Nat} (h : s.Formed) : (s.pin t hs).Formed := by
  grind [State.pin, State.Formed.setHandle, State.Formed.foldl]

theorem State.Formed.directory {c : Ctx} {x : Nat} (h : s.Formed) : (s.directory c x).1.Formed := by
  grind [State.directory, State.Formed.engRead]

theorem State.Formed.enqueue {x : Handle} {deadline : Option Nat} {prio : Nat} (h : s.Formed) : (s.enqueue x deadline prio).Formed := h

theorem State.Formed.dequeue {hn : Nat} (h : s.Formed) : (s.dequeue hn).Formed := h

theorem State.Formed.setTile {t : TileTask} (h : s.Formed) : (s.setTile t).Formed := h

theorem State.Formed.report {launch : Nat} {f : TileFail} (h : s.Formed) : (s.report launch f).Formed := h

theorem State.Formed.endTile {t : TileTask} {poison : Option Nat} (h : s.Formed) : (s.endTile t poison).Formed := by
  grind [State.endTile, State.Formed.addPub, State.Formed.unpin, State.Formed.setTile]

theorem State.Formed.failTile {t : TileTask} {code detail : Nat} (h : s.Formed) : (s.failTile t code detail).Formed := by
  grind [State.failTile, State.Formed.endTile, State.Formed.report, LaunchState.Formed, State.Formed]

theorem State.Formed.closeTile {t : Nat} (h : s.Formed) : (s.closeTile t).Formed := by grind [State.closeTile, State.Formed.endTile]

theorem State.Formed.judgeInputs {t : TileTask} {ctx x1 : Nat} {x2 : List (Word × Nat)} (h : s.Formed) :
    (s.judgeInputs t ctx x1 x2).Formed := by
  induction x2 generalizing s x1 with
  | nil => exact h
  | cons a l ih => grind [State.judgeInputs, State.Formed.lookTag, State.Formed.setTile, State.Formed.failTile]

theorem State.Formed.judgeHandles {t : TileTask} {c : Ctx} {x1 : Nat} {x2 : List Nat} (h : s.Formed) :
    (s.judgeHandles t c x1 x2).Formed := by
  induction x2 generalizing s x1 with
  | nil => exact h
  | cons a l ih => grind [State.judgeHandles, State.Formed.enqueue, State.Formed.directory, State.Formed.failTile, State.Formed.setHandle,
    State.Formed.tick]

theorem State.Formed.judgeTile {t : TileTask} (h : s.Formed) : (s.judgeTile t).Formed := by
  grind [State.judgeTile, State.Formed.judgeHandles, State.Formed.judgeInputs]

theorem State.Formed.judgeAll (h : s.Formed) : s.judgeAll.Formed := by grind [State.judgeAll, State.Formed.judgeTile, State.Formed.foldl]

theorem State.Formed.modCmd {k id : Nat} {f : Cmd → Cmd} (h : s.Formed) : (s.modCmd k id f).Formed := by
  grind [State.modCmd, State.Formed.modCore, Core.Formed]

theorem State.Formed.stopList {j : Nat} {fail : Option Nat} (h : s.Formed) : (s.stopList j fail).Formed := by
  grind [State.stopList, State.Formed.raise, LaunchState.Formed, State.Formed]

theorem State.Formed.finishPub {p : Pub} {code detail : Nat} (h : s.Formed) : (s.finishPub p code detail).Formed := by
  grind [State.finishPub, State.Formed.report, State.Formed.modCmd, State.Formed.stopList, LaunchState.Formed, State.Formed]

theorem State.Formed.decideTags (h : s.Formed) : s.decideTags.Formed := by
  unfold State.decideTags
  refine State.Formed.judgeAll (State.Formed.foldl (State.Formed.foldl h fun s t hs => ?_) fun s p hs => ?_)
  · split
    · exact hs
    · next v _ =>
      dsimp only
      cases e : s.placeTag { t with state := if v.isNone then 1 else 3, detail := v.getD 0, deciders := [] } with
      | none => exact hs
      | some u => exact hs.placeTag e
  · split
    · exact hs
    · exact hs.finishPub

end Sys2Proof.Machine
end

section
/-! PROOF. The queue and the commands of an engine. -/
namespace Sys2Proof.Machine

variable {P : Nat → Prop} {s : State} {c : Core}

theorem Core.Formed.queueCmd {kind : CmdKind} {a b cw : Word} {desc : List Byte} (h : c.Formed P) :
    Res.Formed P (c.queueCmd kind a b cw desc) := by
  grind [Core.queueCmd, Core.Formed, Res.formed_ok, Res.formed_error]

theorem Core.Formed.markCommits {n : Nat} (h : c.Formed P) : (c.markCommits n).Formed P := h

theorem Core.Formed.clearHalt {ch : Nat} (h : c.Formed P) : (c.clearHalt ch).Formed P := by grind [Core.clearHalt, Core.Formed]

theorem formed_issueCopy {i : Instr} {k : CmdKind} (h : s.Formed) : SRes.Formed (issueCopy i k s) := by
  grind [issueCopy, Core.Formed.sources, Core.Formed.queueCmd, SRes.formed_ok, SRes.formed_liftFst, SRes.formed_liftCore,
    SRes.formed_lift (α := Unit), SRes.formed_lift (α := List Byte), State.Formed]

theorem formed_issueColl {o : Op} (h : s.Formed) : SRes.Formed (issueColl o s) := by
  grind (splits := 30) (ematch := 20) (gen := 20) [issueColl, Core.Formed.sources, Core.Formed.queueCmd, SRes.formed_ok, SRes.formed_stop,
    SRes.formed_liftFst, SRes.formed_liftCore, SRes.formed_lift (α := Unit), SRes.formed_lift (α := List Byte), State.Formed]

theorem formed_issueExpf {o : Op} (h : s.Formed) : SRes.Formed (issueExpf o s) := by
  grind (splits := 30) (ematch := 20) (gen := 20) [issueExpf, Core.Formed.sources, Core.Formed.queueCmd, SRes.formed_ok,
    SRes.formed_liftFst, SRes.formed_liftCore, SRes.formed_lift (α := Unit), State.Formed]

theorem formed_issueExpc {o : Op} (h : s.Formed) : SRes.Formed (issueExpc o s) := by
  grind [issueExpc, Core.Formed.sources, Core.Formed.queueCmd, SRes.formed_ok, SRes.formed_liftFst, SRes.formed_liftCore,
    SRes.formed_lift (α := Unit), State.Formed]

theorem Core.Formed.query {d : Port} {k : VarKind} (h : c.Formed P) : (c.query d k).Formed P :=
  (h.issueVar (slot := 3) (d := portDest d) (k := k) :)

theorem formed_issueWhq {o : Op} (h : s.Formed) : SRes.Formed (issueWhq o s) := by
  grind [issueWhq, Core.Formed.sources, Core.Formed.query, SRes.formed_ok, SRes.formed_liftFst, SRes.formed_lift (α := Unit),
    State.Formed]

theorem formed_issueTopki {o : Op} (h : s.Formed) : SRes.Formed (issueTopki o s) := by
  grind (splits := 30) (ematch := 20) (gen := 20) [issueTopki, Core.Formed.sources, Core.Formed.queueCmd, SRes.formed_ok,
    SRes.formed_liftFst, SRes.formed_liftCore, SRes.formed_lift (α := Unit), State.Formed]

theorem formed_issueGgemm {o : Op} (h : s.Formed) : SRes.Formed (issueGgemm o s) := by
  grind (splits := 30) (ematch := 20) (gen := 20) [issueGgemm, Core.Formed.sources, Core.Formed.queueCmd, SRes.formed_ok,
    SRes.formed_liftFst, SRes.formed_liftCore, SRes.formed_lift (α := Unit), State.Formed]

theorem formed_issueHpub {o : Op} (h : s.Formed) : SRes.Formed (issueHpub o s) := by
  grind (splits := 30) (ematch := 20) (gen := 20) [issueHpub, Core.Formed.sources, Core.Formed.markCommits, Core.Formed.queueCmd,
    SRes.formed_ok, SRes.formed_liftFst, SRes.formed_liftCore, SRes.formed_lift (α := Unit), State.Formed]

theorem formed_issueHtest {o : Op} (h : s.Formed) : SRes.Formed (issueHtest o s) := by
  grind [issueHtest, Core.Formed.sources, Core.Formed.query, SRes.formed_ok, SRes.formed_liftFst, SRes.formed_lift (α := Unit),
    State.Formed]

theorem formed_issueLnch {o : Op} (h : s.Formed) : SRes.Formed (issueLnch o s) := by
  grind (splits := 30) (ematch := 20) (gen := 20) [issueLnch, Core.Formed.sources, Core.Formed.queueCmd, SRes.formed_ok, SRes.formed_stop,
    SRes.formed_liftFst, SRes.formed_liftCore, SRes.formed_lift (α := Unit), State.Formed]

theorem formed_issueInvl {o : Op} (h : s.Formed) : SRes.Formed (issueInvl o s) := by
  grind [issueInvl, Core.Formed.sources, Core.Formed.queueCmd, SRes.formed_ok, SRes.formed_liftFst, SRes.formed_liftCore,
    SRes.formed_lift (α := Unit), State.Formed]

theorem formed_issueInvlAll {o : Op} (h : s.Formed) : SRes.Formed (issueInvlAll o s) := by
  grind [issueInvlAll, Core.Formed.sources, Core.Formed.queueCmd, SRes.formed_ok, SRes.formed_liftFst, SRes.formed_liftCore,
    SRes.formed_lift (α := Unit), State.Formed]

theorem formed_issueFlsh {o : Op} (h : s.Formed) : SRes.Formed (issueFlsh o s) := by
  grind [issueFlsh, Core.Formed.sources, Core.Formed.queueCmd, SRes.formed_ok, SRes.formed_liftFst, SRes.formed_liftCore,
    SRes.formed_lift (α := Unit), State.Formed]

theorem formed_issueWptr {o : Op} (h : s.Formed) : SRes.Formed (issueWptr o s) := by
  grind [issueWptr, Core.Formed.sources, Core.Formed.query, SRes.formed_ok, SRes.formed_liftFst, SRes.formed_lift (α := Unit),
    State.Formed]

end Sys2Proof.Machine
end

section
/-! PROOF. Barriers and the arrivals that a core takes back. -/
namespace Sys2Proof.Machine

variable {P : Nat → Prop} {s : State} {c : Core}

theorem State.Formed.setBarrier {b : Barrier} (h : s.Formed) : (s.setBarrier b).Formed := h

theorem State.Formed.closeBarriers {g : Nat} (h : s.Formed) : (s.closeBarriers g).Formed := by
  grind [State.closeBarriers, LaunchState.Formed, State.Formed]

theorem State.Formed.arriveAt {t : Task} {g : Gang} {level : Nat} (h : s.Formed) : (s.arriveAt t g level).Formed := by
  grind [State.arriveAt, State.Formed.setBarrier, State.Formed.systemRelease]

theorem Core.Formed.dropMarks {level : Nat} (h : c.Formed P) : (c.dropMarks level).Formed P := h

theorem formed_barAct {i : Instr} {f : Nat → BrAction} (h : s.Formed) : SRes.Formed (barAct i f s) := by
  grind [barAct, Core.Formed.operands, Core.Formed, SRes.formed_ok, SRes.formed_stop, SRes.formed_liftFst, SRes.formed_lift (α := Unit),
    SRes.formed_lift (α := Task × Gang), State.Formed]

theorem State.Formed.actBara {level : Nat} (h : s.Formed) : SRes.Formed (s.actBara level) := by
  grind [State.actBara, State.Formed.arriveAt, SRes.formed_ok, SRes.formed_lift (α := Task × Gang)]

theorem State.Formed.actBar {level : Nat} (h : s.Formed) : SRes.Formed (s.actBar level) := by
  grind [State.actBar, Core.Formed.dropMarks, State.Formed.arriveAt, SRes.formed_ok, SRes.formed_stop,
    SRes.formed_lift (α := Task × Gang), State.Formed]

theorem State.Formed.actFence {scope : Word} (h : s.Formed) : (s.actFence scope).Formed := by
  grind [State.actFence, State.Formed.systemRelease, Core.Formed, State.Formed]

theorem State.Formed.performBr {addr : Word} (h : s.Formed) : SRes.Formed (s.performBr addr) := by
  have go (t : State) (ht : t.Formed) : SRes.Formed (liftRes (t.core.perform addr) >>= fun c => .ok { t with core := c }) :=
    SRes.formed_liftCore ht.core.perform fun c hc => SRes.formed_ok (ht.withCore hc)
  unfold State.performBr
  split
  · exact SRes.formed_bind h.actBar go
  · exact SRes.formed_bind h.actBara go
  · exact go _ h.actFence
  · exact go _ h

theorem State.Formed.barWait {port : Nat} (h : s.Formed) : (s.barWait port).Formed := by
  grind [State.barWait, State.Formed.arriveAt, Core.Formed, State.Formed]

theorem State.Formed.unarrive {k : Nat} (h : s.Formed) : (s.unarrive k).Formed := by
  grind [State.unarrive, State.Formed.setBarrier, State.Formed.modCore, State.Formed.foldl, Core.Formed]

end Sys2Proof.Machine
end

section
/-! PROOF. Vector operations. -/
namespace Sys2Proof.Machine

variable {P : Nat → Prop} {c : Core}

theorem formed_elemOp {i : Instr} {t : ElemTy} {o : Op} {f : Nat → Nat → Nat → Nat} (h : c.Formed P) : Res.Formed P (elemOp i t o f c) := by
  grind [elemOp, Core.Formed.operands, Core.Formed.issueResult, Res.formed_ok, Res.formed_bindFst]

theorem formed_bitOp {i : Instr} {o : Op} {f : Vec → Vec → Vec} (h : c.Formed P) : Res.Formed P (bitOp i o f c) := by
  grind [bitOp, Core.Formed.operands, Core.Formed.issueResult, Res.formed_ok, Res.formed_bindFst]

theorem formed_maskOp {i : Instr} {f : Mask → Mask → Mask} (h : c.Formed P) : Res.Formed P (maskOp i f c) := by
  grind [maskOp, Core.Formed.operands, Core.Formed.issueResult, Res.formed_ok, Res.formed_bindFst]

theorem formed_issueVcmp {u : VU} {t : ElemTy} {o : Op} (h : c.Formed P) : Res.Formed P (issueVcmp u t o c) := by
  grind [issueVcmp, Core.Formed.operands, Core.Formed.issueResult, Res.formed_ok, Res.formed_bindFst]

theorem formed_issueVcvt {u : VU} {t : ElemTy} {o : Op} (h : c.Formed P) : Res.Formed P (issueVcvt u t o c) := by
  grind [issueVcvt, Core.Formed.operands, Core.Formed.issueResult, Res.formed_ok, Res.formed_bindFst]

theorem formed_issueVqnt {u : VU} {t : ElemTy} {o : Op} (h : c.Formed P) : Res.Formed P (issueVqnt u t o c) := by
  grind [issueVqnt, Core.Formed.operands, Core.Formed.issueResult, Res.formed_ok, Res.formed_bindFst]

theorem formed_issueVdqnt {u : VU} {t : ElemTy} {o : Op} (h : c.Formed P) : Res.Formed P (issueVdqnt u t o c) := by
  grind [issueVdqnt, Core.Formed.operands, Core.Formed.issueResult, Res.formed_ok, Res.formed_bindFst]

theorem formed_issueVdot4 {u : VU} {t : ElemTy} {o : Op} (h : c.Formed P) : Res.Formed P (issueVdot4 u t o c) := by
  grind [issueVdot4, Core.Formed.operands, Core.Formed.issueResult, Res.formed_ok, Res.formed_bindFst]

theorem formed_issueVbcst {u : VU} {t : ElemTy} {o : Op} (h : c.Formed P) : Res.Formed P (issueVbcst u t o c) := by
  grind [issueVbcst, Core.Formed.operands, Core.Formed.issueResult, Res.formed_ok, Res.formed_bindFst]

theorem formed_issueViota {u : VU} {t : ElemTy} {o : Op} (h : c.Formed P) : Res.Formed P (issueViota u t o c) := by
  grind [issueViota, Core.Formed.operands, Core.Formed.issueResult, Res.formed_ok, Res.formed_bindFst]

theorem formed_issueVsel {u : VU} {o : Op} (h : c.Formed P) : Res.Formed P (issueVsel u o c) := by
  grind [issueVsel, Core.Formed.operands, Core.Formed.issueResult, Res.formed_ok, Res.formed_bindFst]

theorem formed_issueVmpopc {u : VU} {o : Op} (h : c.Formed P) : Res.Formed P (issueVmpopc u o c) := by
  grind [issueVmpopc, Core.Formed.operands, Core.Formed.issueResult, Res.formed_ok, Res.formed_bindFst]

theorem formed_issueVmfirst {u : VU} {o : Op} (h : c.Formed P) : Res.Formed P (issueVmfirst u o c) := by
  grind [issueVmfirst, Core.Formed.operands, Core.Formed.issueResult, Res.formed_ok, Res.formed_bindFst]

end Sys2Proof.Machine
end

section
/-! PROOF. Crossbar operations. -/
namespace Sys2Proof.Machine

variable {P : Nat → Prop} {c : Core}

theorem formed_laneOp {i : Instr} {o : Op} {f : List Nat → List Nat → Nat → List Nat} (h : c.Formed P) : Res.Formed P (laneOp i o f c) := by
  grind [laneOp, Core.Formed.operands, Core.Formed.issueResult, Res.formed_ok, Res.formed_bindFst]

theorem formed_issueXpermv {o : Op} (h : c.Formed P) : Res.Formed P (issueXpermv o c) := by
  grind [issueXpermv, Core.Formed.operands, Core.Formed.issueResult, Res.formed_ok, Res.formed_error, Res.formed_bindFst]

theorem formed_issueXred {t : ElemTy} {o : Op} (h : c.Formed P) : Res.Formed P (issueXred t o c) := by
  grind [issueXred, Core.Formed.operands, Core.Formed.issueBoth, Core.Formed.issueResult, Res.formed_ok, Res.formed_bindFst]

theorem formed_issueXscan {t : ElemTy} {o : Op} (h : c.Formed P) : Res.Formed P (issueXscan t o c) := by
  grind [issueXscan, Core.Formed.operands, Core.Formed.issueResult, Res.formed_ok, Res.formed_bindFst]

theorem formed_groupOp {i : Instr} {t : ElemTy} {o : Op} {isMax : Bool} (h : c.Formed P) : Res.Formed P (groupOp i t o isMax c) := by
  grind [groupOp, Core.Formed.operands, Core.Formed.issueResult, Res.formed_ok, Res.formed_bindFst]

theorem formed_issueXbnet {o : Op} (h : c.Formed P) : Res.Formed P (issueXbnet o c) := by
  grind [issueXbnet, Core.Formed.operands, Core.Formed.issueResult, Res.formed_ok, Res.formed_bindFst]

theorem formed_issueXbnld {o : Op} (h : c.Formed P) : Res.Formed P (issueXbnld o c) := by
  grind [issueXbnld, Core.Formed.operands, Core.Formed, Res.formed_ok, Res.formed_error, Res.formed_bindFst]

theorem Core.Formed.setQueue {q : Nat} {b : Bench} (h : c.Formed P) : (c.setQueue q b).Formed P := h

theorem formed_issueXbench {o : Op} (h : c.Formed P) : Res.Formed P (issueXbench o c) := by
  grind [issueXbench, Core.Formed.writeRuns, Core.Formed.operands, Core.Formed.setQueue, Res.formed_ok, Res.formed_error,
    Res.formed_bindFst]

theorem Res.formed_ite {p : Prop} [Decidable p] {r r' : Res Core} (h : Res.Formed P r) (h' : Res.Formed P r') :
    Res.Formed P (if p then r else r') := by
  split
  · exact h
  · exact h'

theorem formed_issueXdrain {o : Op} (h : c.Formed P) : Res.Formed P (issueXdrain o c) := by
  refine Res.formed_bindFst h.operands fun x hx => ?_
  have hp (l : List Nat) (p : Core → Nat → Pending) (q : Nat) (b : Bench) :
      (l.foldl (fun c r => c.addPending (p c r)) (x.1.setQueue q b)).Formed P := Core.Formed.foldl hx.setQueue fun _ _ hc => hc.addPending
  dsimp only
  split
  · exact Res.formed_error
  · exact Res.formed_ite Res.formed_error (Res.formed_ok ⟨(hp _ _ _ _).1, (hp _ _ _ _).2⟩)

theorem formed_issueXbcnt {o : Op} (h : c.Formed P) : Res.Formed P (issueXbcnt o c) := by
  grind [issueXbcnt, Core.Formed.operands, Core.Formed.issueResult, Res.formed_ok, Res.formed_bindFst]

theorem formed_issueXbclr {o : Op} (h : c.Formed P) : Res.Formed P (issueXbclr o c) := by
  grind [issueXbclr, Core.Formed.operands, Core.Formed.setQueue, Res.formed_ok, Res.formed_bindFst]

end Sys2Proof.Machine
end

section
/-! PROOF. Matrix operations and the events of the accumulator. -/
namespace Sys2Proof.Machine

variable {P : Nat → Prop} {c : Core}

theorem Core.Formed.logItem {x : LogItem} (h : c.Formed P) : (c.logItem x).Formed P := by grind [Core.logItem, Core.Formed]

theorem Core.Formed.addEvent {z : Nat} {a : AccAct} (h : c.Formed P) : (c.addEvent z a).Formed P := h

theorem formed_issueMxcfg {o : Op} (h : c.Formed P) : Res.Formed P (issueMxcfg o c) := by
  grind [issueMxcfg, Core.Formed.sources, Core.Formed, Res.formed_ok, Res.formed_bindFst, Res.formed_bind (α := Unit)]

theorem formed_issueMxzero {o : Op} (h : c.Formed P) : Res.Formed P (issueMxzero o c) := by
  grind [issueMxzero, Core.Formed.sources, Core.Formed.addEvent, Core.Formed.logItem, Res.formed_ok, Res.formed_bindFst]

theorem formed_issueMxzeroAll {o : Op} (h : c.Formed P) : Res.Formed P (issueMxzeroAll o c) := by
  grind [issueMxzeroAll, Core.Formed.sources, Core.Formed.addEvent, Res.formed_ok, Res.formed_bindFst, Res.formed_bind (α := Unit)]

theorem formed_issueMxldb {o : Op} (h : c.Formed P) : Res.Formed P (issueMxldb o c) := by
  grind [issueMxldb, Core.Formed.sources, Core.Formed.logItem, Core.Formed, Res.formed_ok, Res.formed_error, Res.formed_bindFst,
    Res.formed_bind (α := Unit), Res.formed_bind (α := Nat)]

theorem formed_issueMxshift {o : Op} (h : c.Formed P) : Res.Formed P (issueMxshift o c) := by
  refine Res.formed_bindFst h.sources fun x hx => Res.formed_bind fun _ => Res.formed_ok ?_
  have hl (y : LogItem) := hx.logItem (x := y)
  exact hl _

theorem formed_openRegion {cfg : Nat} {skip : Option Nat} {o : Op} (h : c.Formed P) : Res.Formed P (openRegion cfg skip o c) :=
  Res.formed_bindFst h.sources fun _ hx => Res.formed_bind fun _ => Res.formed_bind fun _ => Res.formed_ok hx

theorem Core.Formed.pushRow {z : Nat} {a : List Nat} {raw : Nat} (h : c.Formed P) : (c.pushRow z a raw).Formed P := by
  grind [Core.pushRow, Core.Formed.addEvent, Core.Formed.logItem, Core.Formed]

theorem formed_issueMxpush {o : Op} (h : c.Formed P) : Res.Formed P (issueMxpush o c) := by
  grind [issueMxpush, Core.Formed.pushRow, Core.Formed.sources, Res.formed_ok, Res.formed_bindFst, Res.formed_bind (α := Unit)]

theorem formed_issueMxpushz {o : Op} (h : c.Formed P) : Res.Formed P (issueMxpushz o c) := by
  grind [issueMxpushz, Core.Formed.pushRow, Core.Formed.sources, Res.formed_ok, Res.formed_error, Res.formed_bindFst,
    Res.formed_bind (α := Unit)]

theorem formed_issueMxdrain {o : Op} (h : c.Formed P) : Res.Formed P (issueMxdrain o c) := by
  grind [issueMxdrain, Core.Formed.sources, Core.Formed.issueResult, Res.formed_ok, Res.formed_error, Res.formed_bindFst,
    Res.formed_bind (α := Unit)]

theorem formed_issueMxcommit {o : Op} (h : c.Formed P) : Res.Formed P (issueMxcommit o c) := by
  grind [issueMxcommit, Core.Formed.sources, Core.Formed.addEvent, Core.Formed, Res.formed_ok, Res.formed_error, Res.formed_bindFst,
    Res.formed_bind (α := Unit)]

theorem formed_issueMxstage {o : Op} (h : c.Formed P) : Res.Formed P (issueMxstage o c) := by
  grind (splits := 30) (ematch := 20) (gen := 20) [issueMxstage, Core.Formed.sources, Core.Formed, Res.formed_ok, Res.formed_error,
    Res.formed_bindFst, Res.formed_bind (α := Unit), Res.formed_bind (α := StageRec)]

theorem formed_issueMxscale {o : Op} (h : c.Formed P) : Res.Formed P (issueMxscale o c) := by
  grind [issueMxscale, Core.Formed.sources, Core.Formed, Res.formed_ok, Res.formed_bindFst]

theorem formed_issueMxq {o : Op} (h : c.Formed P) : Res.Formed P (issueMxq o c) := by
  grind [issueMxq, Core.Formed.sources, Core.Formed.issueResult, Res.formed_ok, Res.formed_bindFst]

end Sys2Proof.Machine
end

section
/-! PROOF. Detected errors, audits and the referee. -/
namespace Sys2Proof.Machine

variable {P : Nat → Prop} {s : State} {c : Core}

theorem State.Formed.setChan {x : Hchan} (h : s.Formed) : (s.setChan x).Formed := h

theorem State.Formed.chanRec {q code copied poisoned held : Nat} (h : s.Formed) : (s.chanRec q code copied poisoned held).Formed := by
  grind [State.chanRec, State.Formed.record]

theorem State.Formed.retireChan {q : Nat} (h : s.Formed) : (s.retireChan q).Formed := by
  grind [State.retireChan, State.Formed.chanRec, State.Formed.setChan, State.Formed]

theorem State.Formed.retireFrame {frame code : Nat} {ctx : Option Nat} (h : s.Formed) : (s.retireFrame frame code ctx).Formed := by
  grind [State.retireFrame, State.Formed.record, MemState.Formed, State.Formed]

theorem State.Formed.countCorrection {r : Rec} (h : s.Formed) : (s.countCorrection r).Formed := by
  grind [State.countCorrection, State.Formed.retireFrame, State.Formed.record, State.Formed]

theorem State.Formed.emit {r : Rec} (h : s.Formed) : (s.emit r).Formed := by
  grind [State.emit, State.Formed.countCorrection, State.Formed.setChan, State.Formed.record, State.Formed.retireChan, MemState.Formed,
    State.Formed]

theorem State.Formed.claimCore {k : Nat} {by' : Claimant} (h : s.Formed) : (s.claimCore k by').Formed := by
  grind [State.claimCore, State.Formed.modCore, State.Formed.foldl, LaunchState.Formed, Core.Formed, State.Formed]

theorem State.Formed.returnTask {t : Task} (h : s.Formed) : (s.returnTask t).Formed := by
  grind [State.returnTask, State.Formed.setTile, LaunchState.Formed, State.Formed]

theorem State.Formed.retireCoreStart {k why : Nat} (h : s.Formed) : (s.retireCoreStart k why).Formed := by
  grind [State.retireCoreStart, State.Formed.claimCore, State.Formed.returnTask, State.formed_mk, State.Formed.core, State.Formed.others,
    State.Formed.mem, State.Formed.launch, State.Formed.agenda, LaunchState.Formed]

theorem State.Formed.putAudit {off : Nat} {bs : List Byte} (h : s.Formed) : (s.putAudit off bs).Formed := by
  grind [State.putAudit, MemState.Formed.putBelow, State.Formed]

theorem State.Formed.writeLog {old : Core} (h : s.Formed) : (s.writeLog old).Formed := by grind [State.writeLog, State.Formed.putAudit]

theorem State.Formed.takeAudit {l : AuditLog} (h : s.Formed) : (s.takeAudit l).Formed := by
  grind [State.takeAudit, State.Formed.putAudit, State.Formed.emit, LaunchState.Formed, State.Formed]

theorem Core.Formed.endTask (h : c.Formed P) : c.endTask.Formed P := h

theorem State.Formed.withdraw (h : s.Formed) : s.withdraw.Formed := by
  grind [State.withdraw, State.Formed.modCore, State.Formed.foldl, LaunchState.Formed, Core.Formed, State.Formed]

theorem State.Formed.checkDegraded {k : Nat} (h : s.Formed) : (s.checkDegraded k).Formed := by
  grind [State.checkDegraded, State.Formed.retireCoreStart]

theorem State.Formed.drainRecs (h : s.Formed) : s.drainRecs.Formed := by
  grind [State.drainRecs, State.Formed.checkDegraded, State.Formed.modCores, State.Formed.emit, State.Formed.foldl, MemState.Formed,
    Core.Formed, State.Formed]

theorem State.Formed.drainAudits (h : s.Formed) : s.drainAudits.Formed := by
  grind [State.drainAudits, State.Formed.modCores, State.Formed.takeAudit, State.Formed.foldl, Core.Formed]

end Sys2Proof.Machine
end

section
/-! PROOF. What an operation issues besides its result. -/
namespace Sys2Proof.Machine

variable {s : State}

theorem formed_onCore {f : Core → Res Core} (h : s.Formed) (hf : ∀ c, c.Formed InPackage → Res.Formed InPackage (f c)) :
    SRes.Formed (onCore f s) :=
  SRes.formed_liftCore (hf _ h.core) fun _ hc => SRes.formed_ok (h.withCore hc)

theorem formed_issueMxopen {o : Op} (h : s.Formed) : SRes.Formed (issueMxopen o s) := by
  grind [issueMxopen, formed_openRegion, State.Formed.writeLog, formed_onCore, SRes.formed_ok, SRes.formed_stop, SRes.formed_bind]

theorem State.Formed.logRoom {n : Nat} (h : s.Formed) : SRes.Formed (s.logRoom n) := by
  grind (splits := 30) (ematch := 20) (gen := 20) [State.logRoom, Core.Formed, SRes.formed_ok, SRes.formed_stop, State.Formed]

theorem formed_logging {n : Nat} {f : Core → Res Core} (h : s.Formed) (hf : ∀ c, c.Formed InPackage → Res.Formed InPackage (f c)) :
    SRes.Formed (logging n f s) :=
  SRes.formed_bind h.logRoom fun _ hs => SRes.formed_bind (formed_onCore hs hf) fun _ ht => SRes.formed_ok ht.writeLog

/-- The operations that share a scheme share its lemma. -/
theorem formed_issue {i : Instr} (h : s.Formed) : SRes.Formed (issue i s) := by
  cases i
  case bra | brc | brcZ | brq | brqN | ret | loop | lbrk | yield | tret | fence | icinv =>
    exact formed_onCore h fun _ hc => formed_brAct hc
  case call => exact formed_onCore h fun _ hc => formed_issueCall hc
  case trap | halt | exit | bkpt => exact formed_onCore h fun _ hc => formed_brActOutside hc
  case twait | twaitAny | tstat => exact formed_onCore h fun _ hc => formed_tokenAct hc
  case bar | bara => exact formed_barAct h
  case mfsr => exact formed_onCore h fun _ hc => formed_issueMfsr hc
  case mtsr => exact formed_onCore h fun _ hc => formed_issueMtsr hc
  case add | sub | mul | mulh | div | rem | and | or | xor | andn | shl | shr | sra | rotl | fshl | fshr | clz | ctz
      | popc | min | max | sel | mov | bfx | bfi | sext | zext | fadd | fsub | fmul | ffma | fmin | fmax | fcvt | icvt =>
    exact formed_onCore h fun _ hc => formed_scalarOp hc
  case cmp | flagop | fcmp => exact formed_onCore h fun _ hc => formed_flagResult hc
  case apset => exact formed_onCore h fun _ hc => formed_issueApset hc
  case apget => exact formed_onCore h fun _ hc => formed_issueApget hc
  case ldv => exact formed_onCore h fun _ hc => formed_issueLdv hc
  case ldvt => exact formed_onCore h fun _ hc => formed_issueLdvt hc
  case stv => exact formed_onCore h fun _ hc => formed_issueStv hc
  case stvt => exact formed_onCore h fun _ hc => formed_issueStvt hc
  case ldvu => exact formed_onCore h fun _ hc => formed_issueLdvu hc
  case ldvm => exact formed_onCore h fun _ hc => formed_issueLdvm hc
  case stvb => exact formed_onCore h fun _ hc => formed_issueStvb hc
  case ldm => exact formed_onCore h fun _ hc => formed_issueLdm hc
  case stm => exact formed_onCore h fun _ hc => formed_issueStm hc
  case lds => exact formed_onCore h fun _ hc => formed_issueLds hc
  case sts => exact formed_onCore h fun _ hc => formed_issueSts hc
  case atoml => exact formed_onCore h fun _ hc => formed_issueAtoml hc
  case casl => exact formed_onCore h fun _ hc => formed_issueCasl hc
  case ldg => exact formed_issueLdg h
  case stg => exact formed_issueStg h
  case atomg => exact formed_issueAtomg h
  case casg => exact formed_issueCasg h
  case sinit => exact formed_onCore h fun _ hc => formed_issueSinit hc
  case swait | swaitEmpty => exact formed_onCore h fun _ hc => formed_stageWait hc
  case swaitPtr => exact formed_onCore h fun _ hc => formed_issueSwaitPtr hc
  case sarr | sarrEmpty => exact formed_onCore h fun _ hc => formed_stageArrive hc
  case bankq => exact formed_onCore h fun _ hc => formed_issueBankq hc
  case pldl => exact formed_onCore h fun _ hc => formed_issuePldl hc
  case flushl1 | flushl1Inv => exact formed_onCore h fun _ hc => formed_flushL1 hc
  case cpy | cpyr | gath | scat | pfl => exact formed_issueCopy h
  case coll => exact formed_issueColl h
  case expf => exact formed_issueExpf h
  case expc => exact formed_issueExpc h
  case whq => exact formed_issueWhq h
  case topki => exact formed_issueTopki h
  case hpub => exact formed_issueHpub h
  case htest => exact formed_issueHtest h
  case lnch => exact formed_issueLnch h
  case ggemm => exact formed_issueGgemm h
  case invl => exact formed_issueInvl h
  case invlAll => exact formed_issueInvlAll h
  case flsh => exact formed_issueFlsh h
  case wptr => exact formed_issueWptr h
  case vadd | vsub | vmul | vmulh | vfma | vfms | vfnma | vmin | vmax | vabs | vneg | vadds | vsubs | vavg | vshl
      | vshr | vsra | vfshl | vfshr | vclz | vpopc | vdiv | vsqrt | vrcp | vrsq | vexp2 | vlog2 | vtanh | vsigm =>
    exact formed_onCore h fun _ hc => formed_elemOp hc
  case vcmp => exact formed_onCore h fun _ hc => formed_issueVcmp hc
  case vcvt => exact formed_onCore h fun _ hc => formed_issueVcvt hc
  case vqnt => exact formed_onCore h fun _ hc => formed_issueVqnt hc
  case vdqnt => exact formed_onCore h fun _ hc => formed_issueVdqnt hc
  case vdot4 => exact formed_onCore h fun _ hc => formed_issueVdot4 hc
  case vbcst => exact formed_onCore h fun _ hc => formed_issueVbcst hc
  case viota => exact formed_onCore h fun _ hc => formed_issueViota hc
  case vand | vor | vxor | vandn | vnot | vmov => exact formed_onCore h fun _ hc => formed_bitOp hc
  case vsel => exact formed_onCore h fun _ hc => formed_issueVsel hc
  case vmand | vmor | vmnot => exact formed_onCore h fun _ hc => formed_maskOp hc
  case vmpopc => exact formed_onCore h fun _ hc => formed_issueVmpopc hc
  case vmfirst => exact formed_onCore h fun _ hc => formed_issueVmfirst hc
  case xperm | xrot | xrotDn | xzip | xzipHi | xunzip | xunzipOdd | xcmpr | xexpd => exact formed_onCore h fun _ hc => formed_laneOp hc
  case xpermv => exact formed_onCore h fun _ hc => formed_issueXpermv hc
  case xbnet => exact formed_onCore h fun _ hc => formed_issueXbnet hc
  case xbnld => exact formed_onCore h fun _ hc => formed_issueXbnld hc
  case xbench => exact formed_onCore h fun _ hc => formed_issueXbench hc
  case xdrain => exact formed_onCore h fun _ hc => formed_issueXdrain hc
  case xbcnt => exact formed_onCore h fun _ hc => formed_issueXbcnt hc
  case xbclr => exact formed_onCore h fun _ hc => formed_issueXbclr hc
  case xred => exact formed_onCore h fun _ hc => formed_issueXred hc
  case xscan => exact formed_onCore h fun _ hc => formed_issueXscan hc
  case xgmax | xgmin => exact formed_onCore h fun _ hc => formed_groupOp hc
  case mxcfg => exact formed_onCore h fun _ hc => formed_issueMxcfg hc
  case mxzero => exact formed_logging h fun _ hc => formed_issueMxzero hc
  case mxzeroAll => exact formed_onCore h fun _ hc => formed_issueMxzeroAll hc
  case mxldb => exact formed_logging h fun _ hc => formed_issueMxldb hc
  case mxopen => exact formed_issueMxopen h
  case mxpush => exact formed_logging h fun _ hc => formed_issueMxpush hc
  case mxpushz => exact formed_logging h fun _ hc => formed_issueMxpushz hc
  case mxshift => exact formed_logging h fun _ hc => formed_issueMxshift hc
  case mxdrain => exact formed_onCore h fun _ hc => formed_issueMxdrain hc
  case mxcommit => exact formed_logging h fun _ hc => formed_issueMxcommit hc
  case mxstage => exact formed_onCore h fun _ hc => formed_issueMxstage hc
  case mxscale => exact formed_onCore h fun _ hc => formed_issueMxscale hc
  case mxq => exact formed_onCore h fun _ hc => formed_issueMxq hc
  all_goals exact SRes.formed_ok h

end Sys2Proof.Machine
end

section
/-! PROOF. Copy commands. -/
namespace Sys2Proof.Machine

variable {P : Nat → Prop} {s : State} {c : Core}

theorem State.Formed.allocPage {k ctx : Nat} {entry : Word} (h : s.Formed) : (s.allocPage k ctx entry).1.Formed := by
  grind (splits := 30) (ematch := 20) (gen := 20) [State.allocPage, State.Formed.engWrite, State.Formed.engRead, State.Formed.resolve]

theorem State.Formed.tensorPtr {k ctx : Nat} {l : Layout} {a : Int} {writes : Bool} {operand : Nat} (h : s.Formed) :
    (s.tensorPtr k ctx l a writes operand).1.Formed := by
  grind [State.tensorPtr, State.Formed.engRead, State.Formed.allocPage]

theorem State.Formed.tensorPiece {k ctx : Nat} {l : Layout} {operand : Nat} {writes : Bool} {a : Int} {n : Nat} (h : s.Formed) :
    (s.tensorPiece k ctx l operand writes a n).1.Formed := by
  grind [State.tensorPiece, State.Formed.tensorPtr, State.Formed.engRead]

theorem State.Formed.tensorPieces {k ctx : Nat} {l : Layout} {operand : Nat} {writes : Bool} {x1 : List (Int × Nat)} (h : s.Formed) :
    (s.tensorPieces k ctx l operand writes x1).1.Formed := by
  induction x1 generalizing s with
  | nil => exact h
  | cons a l ih => grind [State.tensorPieces, State.Formed.tensorPiece]

theorem State.Formed.tensorRead {k ctx : Nat} {l : Layout} {operand : Nat} {a : Int} {n : Nat} {writes : Bool} (h : s.Formed) :
    (s.tensorRead k ctx l operand a n writes).1.Formed := by
  grind [State.tensorRead, State.Formed.tensorPieces]

theorem State.Formed.tensorWrite {k ctx : Nat} {l : Layout} {a : Int} {bs : List Byte} (h : s.Formed) :
    (s.tensorWrite k ctx l a bs).1.Formed := by
  grind [State.tensorWrite, State.Formed.engWrite, State.Formed.tensorPtr]

theorem State.Formed.placeRead {k ctx : Nat} {l : Layout} {operand : Nat} {p : Int × Option Bool} {n : Nat} (h : s.Formed) :
    (s.placeRead k ctx l operand p n).1.Formed := by
  grind [State.placeRead, State.Formed.tensorRead]

theorem State.Formed.readUnits {k ctx : Nat} {us : List SrcUnit} {x1 x2 : Nat} (h : s.Formed) : (s.readUnits k ctx us x1 x2).1.Formed := by
  induction x2 generalizing s us x1 with
  | zero => exact h
  | succ n ih => grind [State.readUnits, State.Formed.engRead]

theorem State.Formed.sourcePiece {k ctx : Nat} {l : Layout} {us : List SrcUnit} {a : Int} {n : Nat} (h : s.Formed) :
    (s.sourcePiece k ctx l us a n).1.Formed := by
  grind [State.sourcePiece, State.Formed.readUnits, State.Formed.tensorPtr]

theorem State.Formed.sourcePieces {k ctx : Nat} {l : Layout} {us : List SrcUnit} {x1 : List (Int × Nat)} (h : s.Formed) :
    (s.sourcePieces k ctx l us x1).1.Formed := by
  induction x1 generalizing s us with
  | nil => exact h
  | cons a l ih => grind [State.sourcePieces, State.Formed.sourcePiece]

theorem State.Formed.sourceRead {k ctx : Nat} {l : Layout} {us : List SrcUnit} {a : Int} {n : Nat} (h : s.Formed) :
    (s.sourceRead k ctx l us a n).1.Formed := by
  grind [State.sourceRead, State.Formed.sourcePieces]

theorem State.Formed.copyValue {k ctx : Nat} {x : Cmd} {src : Option (List Nat)} {dst : List Nat} (h : s.Formed) :
    (s.copyValue k ctx x src dst).1.Formed := by
  grind [State.copyValue.eq_def, State.Formed.tensorRead, State.Formed.sourceRead]

theorem State.Formed.gatherRun {k ctx : Nat} {home : Int → Nat × Nat × Nat} {x : Cmd} {acc : List ByteWrite} {x1 : List Nat}
    (h : s.Formed) : (s.gatherRun k ctx home x acc x1).1.Formed := by
  induction x1 generalizing s x acc with
  | nil => exact h
  | cons a l ih => grind [State.gatherRun, State.Formed.copyValue]

theorem State.Formed.fillRun {k ctx : Nat} {l : Layout} {made : List (Int × Byte)} {x1 : List ByteWrite} (h : s.Formed) :
    (s.fillRun k ctx l made x1).1.Formed := by
  induction x1 generalizing s made with
  | nil => exact h
  | cons a l ih => grind [State.fillRun, State.Formed.tensorRead]

theorem State.Formed.coverWrite {k ctx : Nat} {l : Layout} {a : Int} {bs : List Byte} (h : s.Formed) :
    (s.coverWrite k ctx l a bs).1.Formed := by
  grind [State.coverWrite, State.Formed.tensorPtr, State.Formed.modCore, State.Formed.tensorWrite, State.Formed.resolve,
    Core.Formed.coverPut]

theorem State.Formed.writeSegments {k ctx : Nat} {l : Layout} {covered : Int → Bool} {x1 : List (Int × List Byte)} (h : s.Formed) :
    (s.writeSegments k ctx l covered x1).1.Formed := by
  induction x1 generalizing s with
  | nil => exact h
  | cons a l ih => grind [State.writeSegments, State.Formed.tensorWrite, State.Formed.coverWrite]

theorem State.Formed.noteCover {k : Nat} {x : Cmd} {a : Int} {n : Nat} (h : s.Formed) : (s.noteCover k x a n).1.Formed := by
  grind [State.noteCover, Core.Formed.noteStripe, State.Formed.modCore]

theorem State.Formed.raceUnit {k ctx : Nat} {x : Cmd} {pos : Nat} {ws : List (Int × Byte)} {a : Int} (h : s.Formed) :
    (s.raceUnit k ctx x pos ws a).1.Formed := by
  grind [State.raceUnit, State.Formed.modCore, MemState.Formed, Core.Formed, State.Formed]

theorem State.Formed.raceUnits {k ctx : Nat} {x : Cmd} {pos : Nat} {ws : List (Int × Byte)} {x1 : List Int} (h : s.Formed) :
    (s.raceUnits k ctx x pos ws x1).1.Formed := by
  induction x1 generalizing s with
  | nil => exact h
  | cons a l ih => grind [State.raceUnits, State.Formed.raceUnit]

theorem State.Formed.endRaces {k id : Nat} (h : s.Formed) : (s.endRaces k id).Formed := by
  grind [State.endRaces, State.Formed.modCores, MemState.Formed, Core.Formed, State.Formed]

theorem State.Formed.dropRaces {ks : List Nat} (h : s.Formed) : (s.dropRaces ks).Formed := by
  grind [State.dropRaces, State.Formed.modCores, MemState.Formed, Core.Formed, State.Formed]

theorem State.Formed.deliverSector {k ctx : Nat} {x : Cmd} (h : s.Formed) : (s.deliverSector k ctx x).1.Formed := by
  unfold State.deliverSector
  extract_lets p ps home
  split
  · exact h
  · have hg := h.gatherRun (k := k) (ctx := ctx) (home := home) (x := x) (acc := []) (x1 := ps)
    split
    · next e => rw [e] at hg; exact hg
    · next t y acc left e =>
      rw [e] at hg
      have hf := State.Formed.fillRun (s := t) (k := k) (ctx := ctx) (l := y.dstL) (made := []) (x1 := acc.reverse) hg
      split
      · next e => rw [e] at hf; exact hf
      · next u ws e =>
        rw [e] at hf
        have hu : u.Formed := hf
        dsimp only
        generalize hz : State.raceUnits _ _ _ _ _ _ _ = z
        have hr : z.1.Formed := hz ▸ hu.raceUnits
        have hw := hr.writeSegments (k := k) (ctx := ctx) (l := y.dstL) (covered := y.covered) (x1 := segments 32 (ws ++ z.2))
        split
        · next e => rw [e] at hw; exact hw
        · next v e =>
          rw [e] at hw
          exact List.foldlRecOn (motive := fun (y : State × Cmd) => y.1.Formed) _ _ hw fun _ hs _ _ => hs.noteCover

theorem State.Formed.readLayout {k ctx : Nat} {desc : List Byte} {operand off : Nat} (h : s.Formed) :
    (s.readLayout k ctx desc operand off).1.Formed := by
  grind [State.readLayout, State.Formed.engRead]

theorem State.Formed.readIndices {k : Nat} {x : Cmd} (h : s.Formed) : (s.readIndices k x).1.Formed := by
  have hd (r : Range) := h.detectRange (r := r) (write := false)
  unfold State.readIndices
  dsimp only
  split
  · exact h
  · split
    · exact h
    · split
      · exact hd _
      · split
        · exact (hd _).engineMet
        · exact hd _

theorem State.Formed.loadCopy {k ctx : Nat} {x : Cmd} (h : s.Formed) : (s.loadCopy k ctx x).1.Formed := by
  grind [State.loadCopy, State.Formed.readLayout, State.Formed.readIndices]

theorem State.Formed.failCopy {k : Nat} {x : Cmd} {e : Fail} (h : s.Formed) : (s.failCopy k x e).Formed := by
  grind [State.failCopy, State.Formed.endRaces, State.Formed.modCore, Core.Formed]

theorem State.Formed.putCmd {k : Nat} {x : Cmd} (h : s.Formed) : (s.putCmd k x).Formed := by grind [State.putCmd, State.Formed.modCmd]

theorem State.Formed.startCopy {k : Nat} {x : Cmd} (h : s.Formed) : (s.startCopy k x).Formed := by
  grind [State.startCopy, State.Formed.failCopy, State.Formed.putCmd, State.Formed.loadCopy]

theorem State.Formed.stepCopy {k : Nat} {x : Cmd} (h : s.Formed) : (s.stepCopy k x).Formed := by
  grind [State.stepCopy, State.Formed.failCopy, State.Formed.modCore, State.Formed.deliverSector, State.Formed.putCmd, Core.Formed]

theorem State.Formed.endCopy {k : Nat} {x : Cmd} (h : s.Formed) : (s.endCopy k x).Formed := by
  have hr := h.endRaces (k := k) (id := x.id)
  have hd (off : Nat) := hr.detectRange (r := .pool k off 32) (write := true)
  unfold State.endCopy
  split
  · exact hr.putCmd
  · split
    · exact h
    · dsimp only
      split
      · exact (hd _).failCopy
      · split
        · exact (hd _).failCopy
        · split
          · exact (hd _).failCopy
          · exact ((hd _).modCore fun _ hc => hc.postArrival).putCmd

theorem Core.Formed.squash {x : Cmd} (h : c.Formed P) : (c.squash x).Formed P := by grind [Core.squash, Core.Formed]

theorem State.Formed.releaseHeld (h : s.Formed) : s.releaseHeld.Formed := by
  grind [State.releaseHeld, Core.Formed.clearHalt, State.Formed.foldl, Core.Formed, State.Formed]

end Sys2Proof.Machine
end

section
/-! PROOF. Entry to a trap. -/
namespace Sys2Proof.Machine

variable {P : Nat → Prop} {s : State} {c : Core}

theorem State.Formed.sampling {x1 : VarKind} (h : s.Formed) : (s.sampling x1).Formed := by
  grind [State.sampling.eq_def, State.Formed.lookTag]

theorem State.Formed.sampleVars (h : s.Formed) : s.sampleVars.Formed := by
  grind [State.sampleVars, State.Formed.sampling, State.Formed.foldl, Core.Formed, State.Formed]

theorem Core.Formed.abort (h : c.Formed P) : c.abort.Formed P := (h.completeOlder :)

theorem State.Formed.takeTrap {t : TrapInfo} {pc : Word} {j : Nat} {rpt : Bool} {loops : List Level} (h : s.Formed) :
    (s.takeTrap t pc j rpt loops).Formed := by
  unfold State.takeTrap
  extract_lets s1 c d _ doom
  have hs : s1.Formed := (h.unarrive (k := s.core.kid)).sampleVars.releaseHeld
  obtain ⟨hk, hw⟩ : d.Formed InPackage := hs.core.enterTrap
  clear_value d s1
  have hdoom (type : Nat) (run : RunState) : (doom type run).Formed := ⟨⟨hk, hw⟩, hs.others, ⟨hs.mem.1, hs.mem.2⟩, hs.launch, hs.agenda⟩
  clear_value doom
  split
  · exact hdoom _ _
  · split
    · exact (hs.withCore hs.core.abort).report
    · split
      · exact hdoom _ _
      · exact hs.withCore ⟨hk, hw⟩

theorem Core.Formed.notePoison {st : Stop} {found : List Nat} (h : c.Formed P) : (c.notePoison st found).Formed P := by
  grind [Core.notePoison.eq_def, Core.Formed]

/-- The outcome of an attempt: the state it began from, with what it found, is in form, and so is what it reached. -/
theorem formed_attempt {run : Attempt} {n : Nat} {found : List Nat} (h : s.Formed) (hr : ∀ s, s.Formed → Run.Formed (run s)) :
    (attempt run n s found).1.Formed ∧ Run.Formed (attempt run n s found).2.2 := by
  induction n generalizing s found with
  | zero => exact ⟨h, hr s h⟩
  | succ n ih =>
    unfold attempt
    split
    · next sl k off m w mem e =>
      cases mem with
      | some x =>
        have hd := (h.withMem ((hr s h).2 _ _ _ e)).detectRange (r := .pool k off m) (write := w)
        dsimp only
        generalize State.detectRange _ _ _ = y at hd ⊢
        exact ih hd
      | none =>
        have hd := h.detectRange (r := .pool k off m) (write := w)
        dsimp only
        generalize State.detectRange _ _ _ = y at hd ⊢
        exact ih hd
    · exact ⟨h, hr s h⟩

theorem State.Formed.stop {e : Stop × Option MemState} {found : List Nat} {sl : Nat} {word pc : Word} {j : Nat} {rpt : Bool}
    {loops : List Level} {dead : Bool} (h : s.Formed)
    (he : ∀ m, e.2 = some m → m.Formed) : (s.stop e found sl word pc j rpt loops dead).Formed := by
  have hs : (match e.2 with
      | some m => { s with mem := m }
      | none => { s with core := s.core.notePoison e.1 found } : State).Formed := by
    split
    · next m hm => exact h.withMem (he m hm)
    · exact h.withCore h.core.notePoison
  unfold State.stop
  dsimp only
  split
  · split
    · exact h.withCore h.core
    · exact hs.takeTrap
  · split
    · refine State.Formed.withCore ?_ ?_
      · split
        · exact hs.barWait
        · exact hs
      · split
        · exact hs.barWait.core
        · exact hs.core
    · exact hs

end Sys2Proof.Machine
end

section
/-! PROOF. A bundle: its operations, its branches and its retirement. -/
namespace Sys2Proof.Machine

variable {P : Nat → Prop} {s : State} {c : Core}

theorem State.Formed.fetchBundle (h : s.Formed) : (s.fetchBundle).1.Formed := by
  grind [State.fetchBundle, MemState.Formed.readBytes, State.Formed.placeByte, MemState.Formed.consumed, State.Formed]

theorem State.Formed.failBundle {t : TrapInfo} {j : Nat} {rpt : Bool} (h : s.Formed) : (s.failBundle t j rpt).1.Formed := by
  grind [State.failBundle, State.Formed.takeTrap, Core.Formed, State.Formed]

theorem State.Formed.beginBundle (h : s.Formed) : (s.beginBundle).1.Formed := by
  grind (splits := 30) (ematch := 20) (gen := 20) [State.beginBundle, State.Formed.fetchBundle, State.Formed.failBundle, Core.Formed,
    State.Formed]

theorem Core.Formed.takeTokens {hn : Header} (h : c.Formed P) : Res.Formed P (c.takeTokens hn) := by
  grind [Core.takeTokens, Core.Formed.setToken, Res.formed_ok, Res.formed_error]

theorem formed_runGuarded {i : Instr} (h : s.Formed) : SRes.Formed (runGuarded i s) := by grind [runGuarded, formed_issue, SRes.formed_ok]

theorem formed_runSlot {hn : Header} {j : Nat} {sl : Slot} {i : Instr} (h : s.Formed) : SRes.Formed (runSlot hn j sl i s) := by
  grind [runSlot, formed_runGuarded, Core.Formed.takeTokens, Core.Formed, SRes.formed_ok, SRes.formed_liftCore, SRes.formed_bind,
    State.Formed]

theorem formed_runSlots {hd : Header} {j : Nat} {l : List (Slot × Instr)} (h : s.Formed) : Run.Formed (runSlots hd j l s) := by
  induction l generalizing s with
  | nil => exact Run.formed_ok h
  | cons x rest ih =>
    have hx := formed_runSlot (hn := hd) (j := j) (sl := x.1) (i := x.2) h
    unfold runSlots
    split
    · next e he => exact Run.formed_error (he ▸ hx)
    · next t he => exact ih (hx.1 t he)

theorem Core.Formed.nextExecution {u : Current} {j : Nat} (h : c.Formed P) : (c.nextExecution u j).Formed P := h

theorem Core.Formed.beginStep (h : c.Formed P) : c.beginStep.Formed P := (h.deliverDue.actDue :)

theorem Core.Formed.noteAccess {u : Current} (h : c.Formed P) : (c.noteAccess u).Formed P := h

theorem Core.Formed.endRepeat {hd : Header} (h : c.Formed P) : (c.endRepeat hd).Formed P := by
  unfold Core.endRepeat
  split <;> exact h

theorem formed_executeSlots {u : Current} (h : s.Formed) : Run.Formed (executeSlots u s) := by
  have hr := formed_runSlots (hd := u.bundle.hdr) (j := u.exe) (l := Slot.all.zip u.bundle.ops)
    (h.withCore (h.core.beginStep.noteAccess (u := u)))
  unfold executeSlots
  dsimp only
  split
  · exact Run.formed_stop
  · split
    · next e he => exact he ▸ hr
    · next t he =>
      have ht := hr.1 t he
      have hb := (ht.withCore (ht.core.endRepeat (hd := u.bundle.hdr))).performBr (addr := u.addr)
      split
      · exact Run.formed_ok (ht.withCore ht.core.nextExecution)
      · split
        · next e => exact Run.formed_error (e ▸ hb)
        · next v e => exact Run.formed_ok ((hb.1 v e).withCore (hb.1 v e).core.nextExecution)

theorem Core.Formed.borrow {n : Fin 4} {x : Val × Nat × Nat} (h : c.Formed P) : (c.borrow n x).Formed P := by
  grind [Core.borrow, Core.Formed]

/-- What a look at the access slots answers is what its test answers. -/
theorem State.serves_of_lead {done : Bool → State → Option State} {across first : Bool} {n : Nat} {s t : State}
    (h : State.lead done across n first s = .serves t) : ∃ b d, done b d = some t := by
  induction n generalizing s first with
  | zero => cases h
  | succ n ih =>
    have hl {d : State} {b : Bool} (e : (match done b d with
        | some s => Lead.serves s
        | none => if b then .stuck else .waits) = .serves t) : ∃ b d, done b d = some t := by
      split at e
      · next e' => cases e; exact ⟨b, d, e'⟩
      · split at e <;> cases e
    unfold State.lead at h
    dsimp only at h
    split at h
    · cases h
    · split at h
      · exact hl h
      · split at h
        · next e => cases h; exact ⟨_, _, e⟩
        · split at h
          · exact hl h
          · exact ih h

theorem State.Formed.servedByLead {s t : State} {port : Nat} (h : s.Formed) (e : s.servedByLead port = .serves t) : t.Formed := by
  unfold State.servedByLead at e
  split at e
  · obtain ⟨b, d, hd⟩ := State.serves_of_lead e
    obtain ⟨x, _, rfl⟩ := Option.map_eq_some_iff.1 hd
    exact h.withCore h.core.borrow
  · obtain ⟨b, d, hd⟩ := State.serves_of_lead e
    dsimp only at hd
    split at hd
    · cases hd; exact h.withCore h.core
    · cases hd
  · cases e

theorem State.Formed.tryExecution {s t : State} {u : Current} {n : Nat} (h : t.Formed) :
    (s.tryExecution u n t).1.Formed ∧ Run.Formed (s.tryExecution u n t).2.2.1 := by
  induction n generalizing t with
  | zero => exact formed_attempt h fun _ => formed_executeSlots
  | succ n ih =>
    have ha := formed_attempt (n := t.latents) (found := []) h fun _ => formed_executeSlots (u := u)
    unfold State.tryExecution
    split
    · next e =>
      rw [e] at ha
      dsimp only
      split
      · exact ha
      · split
        · next e' => exact ih (ha.1.servedByLead e')
        · exact ha
        · exact ha
    · next e => rw [e] at ha; exact ha

theorem State.Formed.execute {u : Current} (h : s.Formed) : (s.execute u).Formed := by
  have ha := h.tryExecution (s := s) (u := u) (n := 16)
  unfold State.execute
  split
  · next e =>
    rw [e] at ha
    have ht := ha.2.1 _ rfl
    exact ht.withCore ht.core
  · next t found sl e dead he =>
    rw [he] at ha
    have ht : t.Formed := ha.1
    refine State.Formed.stop (ht.withCore ht.core) fun m hm => ha.2.2 sl e.1 m ?_
    rw [← hm]

theorem State.Formed.bundleStep (h : s.Formed) : s.bundleStep.Formed := by
  grind [State.bundleStep, State.Formed.beginBundle, State.Formed.execute]

theorem State.Formed.retire (h : s.Formed) : s.retire.Formed := by
  unfold State.retire
  split
  · exact h
  · have hc := h.releaseHeld.core.stamp.setToken (t := .complete) (k := s.releaseHeld.core.leftTok)
    exact h.releaseHeld.withCore hc

theorem State.Formed.takeRaised (h : s.Formed) : s.takeRaised.Formed := by grind [State.takeRaised, State.Formed.takeTrap]

theorem State.Formed.deadlockTrap (h : s.Formed) : s.deadlockTrap.Formed := by
  grind [State.deadlockTrap, State.Formed.bundleStep, State.Formed.takeTrap]

theorem Core.Formed.deliverNext (h : c.Formed P) : c.deliverNext.Formed P := by grind [Core.deliverNext, Core.Formed.deliver, Core.Formed]

theorem Core.Formed.actNext (h : c.Formed P) : c.actNext.Formed P := by grind [Core.actNext, Core.Formed.actEvent, Core.Formed]

theorem State.Formed.writeVarNow {id : Nat} (h : s.Formed) : (s.writeVarNow id).Formed := by
  grind [State.writeVarNow, Core.Formed.writeVar, State.Formed.sampling, State.Formed]

theorem formed_aloneRun {i : Instr} (h : s.Formed) : Run.Formed (aloneRun i s) := by
  unfold aloneRun
  split
  · exact Run.formed_ok h
  · exact Run.formed_stop
  · split
    · have hg := formed_runGuarded (i := i) (h.withCore (c := { s.core with act := .none }) h.core)
      split
      · next e he => exact Run.formed_error (he ▸ hg)
      · next t he =>
        have hb := (hg.1 t he).performBr (addr := s.core.bundleAddr)
        split
        · next e => exact Run.formed_error (e ▸ hb)
        · next v e => exact Run.formed_ok (hb.1 v e)
    · have hg := formed_runGuarded (i := i) h
      split
      · next e he => exact Run.formed_error (he ▸ hg)
      · next t he => exact Run.formed_ok (hg.1 t he)

theorem State.Formed.runAlone {i : Instr} (h : s.Formed) : (State.runAlone i s).Formed := by
  have ha := formed_attempt (n := s.latents) (found := []) h fun _ => formed_aloneRun (i := i)
  unfold State.runAlone
  split
  · next e => exact (e ▸ ha).2.1 _ rfl
  · next e =>
    rw [e] at ha
    exact ha.1.stop fun m hm => ha.2.2 _ _ m (by rw [← hm])

end Sys2Proof.Machine
end

section
/-! PROOF. Dispatch, requests and collectives. -/
namespace Sys2Proof.Machine

variable {P : Nat → Prop} {s : State} {c : Core}

theorem State.Formed.placeTile {launch : Nat} {path coord : List Nat} {cluster : Option Nat} {parent : Nat × Nat} (h : s.Formed) :
    (s.placeTile launch path coord cluster parent).1.Formed := by
  grind [State.placeTile, State.Formed.pin, State.Formed.judgeTile, State.Formed.setTile, LaunchState.Formed, State.Formed]

theorem State.Formed.freeEntry {launch : Nat} (h : s.Formed) : (s.freeEntry launch).Formed := by
  grind [State.freeEntry, LaunchState.Formed, State.Formed]

theorem State.Formed.accepted {via : Launcher} (h : s.Formed) : (s.accepted via).Formed := by
  grind [State.accepted.eq_def, State.Formed.modCmd, LaunchState.Formed, State.Formed]

theorem State.Formed.openLaunch {l : Launch} (h : s.Formed) : (s.openLaunch l).Formed := by
  grind [State.openLaunch, State.Formed.placeTile, State.Formed.freeEntry, LaunchState.Formed, State.Formed]

theorem State.Formed.acceptLaunch {r : LaunchReq} (h : s.Formed) : (s.acceptLaunch r).Formed := by
  grind (splits := 30) (ematch := 20) (gen := 20) [State.acceptLaunch, State.Formed.writeWord, State.Formed.engRead,
    State.Formed.accepted, State.Formed.openLaunch, LaunchState.Formed, State.Formed]

theorem State.Formed.requestLaunch {via : Launcher} {recPtr param : Word} {ctx depth sub : Nat} (h : s.Formed) :
    (s.requestLaunch via recPtr param ctx depth sub).Formed := h

theorem Core.Formed.atDispatch {ctx level : Nat} {kernel : List Byte} {entry : Word} (h : c.Formed P) :
    (c.atDispatch ctx level kernel entry).Formed P := by
  refine ⟨?_, rfl⟩
  unfold Core.atDispatch
  dsimp only
  split
  · exact h.1
  · exact h.senseStripes.1

theorem Core.Formed.setMany {l : List (Nat × Nat)} (h : c.Formed P) : (c.setMany l).Formed P := by
  grind [Core.setMany, Core.Formed.setS, Core.Formed.foldl]

theorem State.Formed.setTask {t : Task} (h : s.Formed) : (s.setTask t).Formed := h

theorem State.Formed.checkKernel {k ctx : Nat} {kp : Word} (h : s.Formed) : (s.checkKernel k ctx kp).1.Formed := by
  grind [State.checkKernel, State.Formed.engineMet, State.Formed.readRange, State.Formed.resolve]

theorem State.Formed.useHandle {hn : Nat} (h : s.Formed) : (s.useHandle hn).Formed := h

theorem State.Formed.startTask {t : Task} (h : s.Formed) : (s.startTask t).Formed := by
  unfold State.startTask
  split
  · exact h
  · next p _ =>
    extract_lets tile coord
    clear_value coord tile
    split
    next kp kernel _ =>
    extract_lets entry s1 hs s2 s3 _ s4
    have h1 : s1.Formed := h.modCore fun _ hc => hc.atDispatch
    have h2 : s2.Formed := h1.foldl fun _ _ hs => hs.useHandle
    have h4 : s4.Formed := h2.setTask (t := { t with begun := true, order := s2.launch.order })
    clear_value s4
    split
    next pdst plen param _ =>
    extract_lets copied
    have hc : copied.1.Formed := by
      unfold copied
      split
      · exact h4
      · have hr := h4.engRead (k := t.core) (ctx := p.ctx) (p := param) (n := plen)
        split
        · next e => rw [e] at hr; exact hr
        · next e => rw [e] at hr; exact hr.engWrite
    clear_value copied
    split
    · extract_lets regs s5
      have h5 : s5.Formed := hc.modCore fun _ hc => hc.setMany
      have hk := h5.checkKernel (k := t.core) (ctx := p.ctx) (kp := kp)
      clear_value s5
      split
      · next e => rw [e] at hk; exact hk.focus.takeTrap.focus
      · next e => rw [e] at hk; exact hk
    · extract_lets s5 _ s6
      have h5 : s5.Formed := hc.modCore fun _ hc => hc.endTask
      clear_value s5
      have h6 : s6.Formed := h5
      split
      · exact h6.failTile
      · exact h6

theorem State.Formed.setRanges {f : List RangeTask → List RangeTask} (h : s.Formed) : (s.setRanges f).Formed := h

theorem State.Formed.gangLeaves {launch : Nat} {p : Spec} {tile : Option Nat} {u : Nat × Nat} {x1 : List (List Nat)} {x2 : List Leaf}
    (h : s.Formed) : (s.gangLeaves launch p tile u x1 x2).1.Formed := by
  induction x1 generalizing s x2 with
  | nil => grind [State.gangLeaves.eq_def]
  | cons a l ih => grind [State.gangLeaves.eq_def, State.Formed.placeTile]

theorem State.Formed.makeGang {r : RangeTask} {p : Spec} (h : s.Formed) : (s.makeGang r p).Formed := by
  grind [State.makeGang, State.Formed.setRanges, State.Formed.gangLeaves, LaunchState.Formed, State.Formed]

theorem State.Formed.endRange {r : RangeTask} (h : s.Formed) : (s.endRange r).Formed := by
  grind [State.endRange, State.Formed.setRanges, State.Formed.closeTile]

theorem State.Formed.nextIteration {k : Nat} {r : RangeTask} {p : Spec} (h : s.Formed) : (s.nextIteration k r p).Formed := by
  grind [State.nextIteration, State.Formed.endRange, State.Formed.placeTile, State.Formed.setRanges, State.Formed.makeGang,
    LaunchState.Formed, State.Formed]

theorem State.Formed.beginIteration {k : Nat} {r : RangeTask} {p : Spec} (h : s.Formed) : (s.beginIteration k r p).Formed := by
  grind [State.beginIteration, State.Formed.nextIteration, State.Formed.freeEntry]

theorem State.Formed.take {k : Nat} {o : Offer} (h : s.Formed) : (s.take k o).Formed := by
  grind [State.take.eq_def, State.Formed.setRanges, State.Formed.setTile, LaunchState.Formed, State.Formed]

theorem State.Formed.leaveTask {t : Task} (h : s.Formed) : (s.leaveTask t).Formed := by
  grind [State.leaveTask, Core.Formed.endTask, State.Formed.modCore, State.Formed.closeTile, State.Formed.closeBarriers,
    LaunchState.Formed, State.Formed]

theorem State.Formed.completeTask {k : Nat} (h : s.Formed) : (s.completeTask k).Formed := by
  grind [State.completeTask, State.Formed.withdraw, State.Formed.leaveTask]

theorem State.Formed.forget {l : Nat} (h : s.Formed) : (s.forget l).Formed := h

theorem State.Formed.completeLaunch {l : Launch} (h : s.Formed) : (s.completeLaunch l).Formed := by
  grind [State.completeLaunch, State.Formed.writeWord, State.Formed.judgeAll, State.Formed.forget]

end Sys2Proof.Machine
end

section
/-! PROOF. Commands as the engine carries them out. -/
namespace Sys2Proof.Machine

variable {s : State}

theorem State.Formed.finishCmd {k : Nat} {x : Cmd} {code detail : Nat} (h : s.Formed) : (s.finishCmd k x code detail).Formed := by
  grind [State.finishCmd, State.Formed.modCmd]

theorem State.Formed.startColl {k : Nat} {x : Cmd} (h : s.Formed) : (s.startColl k x).Formed := by
  grind (splits := 30) (ematch := 20) (gen := 20) [State.startColl, State.Formed.readLayout, State.Formed.putCmd, LaunchState.Formed,
    State.Formed]

theorem State.Formed.readBox {k ctx : Nat} {x : Cmd} {x1 : List (List Nat × Nat)} (h : s.Formed) : (s.readBox k ctx x x1).1.Formed := by
  induction x1 generalizing s with
  | nil => exact h
  | cons a l ih => grind [State.readBox, State.Formed.placeRead]

theorem State.Formed.readBoxes {l : List (Nat × Part)} (h : s.Formed) : (s.readBoxes l).1.Formed := by
  induction l generalizing s with
  | nil => exact h
  | cons p ps ih =>
    obtain ⟨q, p⟩ := p
    have hu := h.under (k := p.core) (id := p.cmd.id) (f := fun s =>
      if p.cmd.cop ≠ 0 || q = p.cmd.root then s.readBox p.core (s.ctxOf p.core) p.cmd p.cmd.boxPositions else (s, .ok []))
      fun s hs => by
        split
        · exact hs.readBox
        · exact hs
    grind [State.readBoxes]

theorem State.Formed.placeWrites {k ctx : Nat} {l : Layout} {ws : List ((Int × Option Bool) × List Byte)} (h : s.Formed) :
    (s.placeWrites k ctx l ws).1.Formed := by
  grind [State.placeWrites, State.Formed.writeSegments, State.Formed.fillRun]

theorem State.Formed.finishParts {ps : List Part} {code detail : Nat} (h : s.Formed) : (s.finishParts ps code detail).Formed := by
  grind [State.finishParts, State.Formed.finishCmd, State.Formed.foldl]

theorem State.Formed.writeParts {boxes : List (List (List Byte))} {l : List (Nat × Part)} (h : s.Formed) :
    (s.writeParts boxes l).1.Formed := by
  induction l generalizing s with
  | nil => exact h
  | cons p ps ih =>
    obtain ⟨q, p⟩ := p
    have hu := h.under (k := p.core) (id := p.cmd.id)
      (f := fun s => s.placeWrites p.core (s.ctxOf p.core) p.cmd.dstL (collWrites p.cmd q boxes)) fun s hs => hs.placeWrites
    grind [State.writeParts]

theorem State.Formed.releaseParts {ps : List Part} (h : s.Formed) : (s.releaseParts ps).Formed := by
  grind [State.releaseParts, State.Formed.systemRelease, State.Formed.foldl]

theorem State.Formed.performColl {me : CollCmd} (h : s.Formed) : (s.performColl me).Formed := by
  unfold State.performColl
  extract_lets ps qs s' bad
  have h' : s'.Formed := h
  have hr := h'.readBoxes (l := (List.range qs.length).zip qs)
  clear_value qs bad s'
  refine iteInduction (motive := State.Formed) (fun _ => h) fun _ => ?_
  cases qs with
  | nil => exact h'
  | cons p0 tail =>
    dsimp only
    cases bad with
    | some e => exact h'.finishParts
    | none =>
      dsimp only
      refine iteInduction (motive := State.Formed) (fun _ => h'.finishParts) fun _ => ?_
      split
      · exact h'.finishParts
      · split
        · next e =>
          rw [e] at hr
          split
          · exact h
          · exact State.Formed.finishParts hr
        · next t boxes e =>
          rw [e] at hr
          have hw := State.Formed.writeParts (s := t) (boxes := boxes) (l := (List.range (p0 :: tail).length).zip (p0 :: tail)) hr
          split
          · next e =>
            rw [e] at hw
            split
            · exact h
            · exact State.Formed.finishParts hw
          · next e =>
            rw [e] at hw
            exact State.Formed.finishParts (State.Formed.releaseParts hw)

theorem State.Formed.appendToken {k ctx p e : Nat} (h : s.Formed) : (s.appendToken k ctx p e).1.Formed := by
  grind [State.appendToken, State.Formed.engWrite, State.Formed.engRead]

theorem State.Formed.runTopki {k : Nat} {x : Cmd} (h : s.Formed) : (s.runTopki k x).Formed := by
  grind (splits := 30) (ematch := 20) (gen := 20) [State.runTopki, State.Formed.engWrite, State.Formed.engRead, State.Formed.appendToken,
    State.Formed.finishCmd, State.Formed.resolve]

theorem State.Formed.walkRecords {k : Nat} {c : Ctx} {base n i : Nat} (h : s.Formed) : (s.walkRecords k c base n i).1.Formed := by
  induction n generalizing s i with
  | zero => exact h
  | succ n ih =>
    have h1 := h.engRead (k := k) (ctx := c.num) (p := BitVec.ofNat 64 (base + 64 * i)) (n := 64)
    unfold State.walkRecords
    split
    · next e => rw [e] at h1; exact h1
    · next b e =>
      rw [e] at h1
      split
      · exact h1
      · have h2 := h1.engRead (k := k) (ctx := c.num) (p := BitVec.ofNat 64 (field b 0x18 8)) (n := 64)
        split
        · next e => rw [e] at h2; exact h2
        · next e =>
          rw [e] at h2
          split
          · exact h2
          · grind [State.Formed.engRead]

theorem State.Formed.closeEntry {k ctx rows : Nat} (h : s.Formed) : (s.closeEntry k ctx rows).1.Formed := by
  grind [State.closeEntry, State.Formed.engWrite, State.Formed.engRead]

theorem State.Formed.closeEntries {k ctx : Nat} {x1 : List GroupRec} (h : s.Formed) : (s.closeEntries k ctx x1).1.Formed := by
  induction x1 generalizing s with
  | nil => exact h
  | cons a l ih => grind [State.closeEntries, State.Formed.closeEntry]

theorem State.Formed.clearBusy {k ctx rows : Nat} (h : s.Formed) : (s.clearBusy k ctx rows).Formed := by
  grind [State.clearBusy, State.Formed.engWrite, State.Formed.engRead]

theorem State.Formed.walkGgemm {k : Nat} {x : Cmd} (h : s.Formed) : (s.walkGgemm k x).Formed := by
  grind (splits := 30) (ematch := 20) (gen := 20) [State.walkGgemm, State.Formed.walkRecords, State.Formed.placeTile,
    State.Formed.finishCmd, State.Formed.closeEntries, State.Formed.clearBusy, State.Formed.putCmd, State.Formed.foldl,
    LaunchState.Formed, State.Formed]

theorem State.Formed.endGgemm {k : Nat} {x : Cmd} (h : s.Formed) : (s.endGgemm k x).Formed := by
  grind [State.endGgemm, State.Formed.finishCmd, State.Formed.forget, State.Formed.clearBusy, State.Formed.foldl]

theorem State.Formed.bindExpf {k : Nat} {x : Cmd} {ctx src len : Nat} (h : s.Formed) : (s.bindExpf k x ctx src len).Formed := by
  grind [State.bindExpf, State.Formed.useHandle, State.Formed.enqueue, State.Formed.finishCmd, State.Formed.tick, State.Formed]

theorem State.Formed.acceptExpf {k : Nat} {x : Cmd} (h : s.Formed) : (s.acceptExpf k x).Formed := by
  grind [State.acceptExpf, State.Formed.under, State.Formed.directory, State.Formed.judgeAll, State.Formed.finishCmd,
    State.Formed.bindExpf]

theorem State.Formed.runExpc {k : Nat} {x : Cmd} (h : s.Formed) : (s.runExpc k x).Formed := by
  grind [State.runExpc, State.Formed.dequeue, State.Formed.judgeAll, State.Formed.finishCmd, State.Formed.setHandle,
    State.Formed.dropReleased]

theorem State.Formed.startInvl {k : Nat} {x : Cmd} (h : s.Formed) : (s.startInvl k x).Formed := by
  grind [State.startInvl, State.Formed.placeMarkers, MemState.Formed.invl, State.Formed.putCmd, State.Formed]

theorem State.Formed.endInvl {k : Nat} {x : Cmd} (h : s.Formed) : (s.endInvl k x).Formed := by
  grind [State.endInvl, State.Formed.dropMarkers, State.Formed.finishCmd]

theorem State.Formed.prefetchByte {k ctx p : Nat} (h : s.Formed) : (s.prefetchByte k ctx p).Formed := by
  grind [State.prefetchByte, MemState.Formed.look, State.Formed.placeByte, State.Formed]

theorem State.Formed.runPfl {k : Nat} {x : Cmd} (h : s.Formed) : (s.runPfl k x).Formed := by
  grind [State.runPfl, State.Formed.readLayout, State.Formed.tensorPtr, State.Formed.prefetchByte, State.Formed.foldl]

theorem State.Formed.flushLine {k p : Nat} (h : s.Formed) : (s.flushLine k p).Formed := by
  grind [State.flushLine, MemState.Formed.flushSector, State.Formed.placeByte, State.Formed]

theorem State.Formed.runFlsh {k : Nat} {x : Cmd} (h : s.Formed) : (s.runFlsh k x).Formed := by
  grind [State.runFlsh, State.Formed.flushLine, MemState.Formed.flushAll, State.Formed.modCore, State.Formed.finishCmd, Core.Formed,
    State.Formed]

theorem State.Formed.beginCommand {k : Nat} {x : Cmd} (h : s.Formed) : (s.beginCommand k x).Formed := by
  grind [State.beginCommand, State.Formed.startColl, State.Formed.runPfl, State.Formed.runExpc, State.Formed.runTopki,
    State.Formed.requestLaunch, State.Formed.addPub, State.Formed.finishCmd, State.Formed.startCopy, State.Formed.putCmd,
    State.Formed.runFlsh, State.Formed.startInvl]

theorem State.Formed.startCommand {k : Nat} {x : Cmd} (h : s.Formed) : (s.startCommand k x).Formed := by
  grind [State.startCommand, State.Formed.underOf, State.Formed.beginCommand]

theorem State.Formed.endCommand {k id : Nat} (h : s.Formed) : (s.endCommand k id).Formed := by
  grind [State.endCommand, State.Formed.writeWord, State.Formed.modCore, State.Formed.underOf, State.Formed.passMarkers,
    Core.Formed.setToken, Core.Formed]

theorem State.Formed.completeCommand {k : Nat} {x : Cmd} (h : s.Formed) : (s.completeCommand k x).Formed := by
  grind [State.completeCommand, State.Formed.endGgemm, State.Formed.endCopy, State.Formed.endInvl, State.Formed.endCommand,
    State.Formed.underOf, State.Formed.performColl]

end Sys2Proof.Machine
end

section
/-! PROOF. Terminations. -/
namespace Sys2Proof.Machine

variable {s : State}

theorem State.Formed.runOut {x1 : Nat} (h : s.Formed) : (s.runOut x1).Formed := by
  induction x1 generalizing s with
  | zero => exact h
  | succ n ih => grind [State.runOut, State.Formed.bundleStep]

theorem State.Formed.stopTask {k : Nat} (h : s.Formed) : (s.stopTask k).Formed := by
  grind [State.stopTask, State.Formed.retire, State.Formed.runOut, State.Formed.focus]

theorem State.Formed.killCommands {k ctx : Nat} {cmds : List Cmd} (h : s.Formed) : (s.killCommands k ctx cmds).Formed := by
  grind [State.killCommands, State.Formed.writeWord, State.Formed.foldl]

theorem State.Formed.dropWork {ctx : Nat} (h : s.Formed) : (s.dropWork ctx).Formed := by
  unfold State.dropWork
  extract_lets s1 s2 s3 gone ends l s4
  have h1 : s1.Formed := h.foldl fun _ _ hs => hs.foldl fun _ _ hs => hs.clearBusy
  have h2 : s2.Formed := h1.foldl fun _ _ ht => ht.writeWord
  have h3 : s3.Formed := h2.foldl fun _ _ hs => by
    dsimp only
    split
    · exact hs.stopList
    · exact hs
  clear_value s3 gone
  have h4 : s4.Formed := ⟨h3.core, h3.others, h3.mem, fun x hx => h3.launch x (List.mem_filter.1 hx).1, h3.agenda⟩
  exact h4.dropTags

theorem State.Formed.dropHandles {c : Ctx} (h : s.Formed) : (s.dropHandles c).Formed := by
  grind [State.dropHandles, State.Formed.unstage, State.Formed.foldl, State.Formed]

theorem State.Formed.clearSlot {x : Saved} (h : s.Formed) : (s.clearSlot x).Formed := by grind [State.clearSlot, State.Formed.engWrite]

theorem State.Formed.freeSlots {c : Ctx} (h : s.Formed) : (s.freeSlots c).Formed := by
  grind [State.freeSlots, State.Formed.clearSlot, State.Formed.foldl]

theorem State.Formed.terminate {ctx type : Nat} (h : s.Formed) : (s.terminate ctx type).Formed := by
  grind (splits := 30) (ematch := 20) (gen := 20) [State.terminate, State.Formed.dropWork, Core.Formed.endTask, State.Formed.killCommands,
    MemState.Formed.invl, State.Formed.modCores, State.Formed.record, State.Formed.dropHandles, MemState.Formed.setCtx,
    State.Formed.withdraw, State.Formed.focus, State.Formed.stopTask, MemState.Formed.clean, State.Formed.freeSlots,
    State.Formed.dropRaces, State.Formed.foldl, MemState.Formed.foldl, MemState.Formed, State.Formed]

theorem State.Formed.runDooms {x1 : Nat} (h : s.Formed) : (s.runDooms x1).Formed := by
  induction x1 generalizing s with
  | zero => exact h
  | succ n ih => grind [State.runDooms, State.Formed.retireFrame, State.Formed.drainRecs, State.Formed.terminate, State.Formed.foldl,
    State.formed_mk, State.Formed.core, State.Formed.others, State.Formed.mem, State.Formed.launch, State.Formed.agenda, MemState.Formed]

theorem State.Formed.settle (h : s.Formed) : s.settle.Formed := by
  grind [State.settle, State.Formed.runDooms, State.Formed.drainAudits, State.Formed.drainRecs]

end Sys2Proof.Machine
end

section
/-! PROOF. Contexts: saving, restoring and ending a task. -/
namespace Sys2Proof.Machine

variable {P : Nat → Prop} {s : State} {m : MemState} {c : Core}

theorem State.Formed.claimFor {by' : Claimant} {dom unit : Nat} {prio : Nat × Nat} (h : s.Formed) :
    (s.claimFor by' dom unit prio).Formed := by
  grind [State.claimFor, State.Formed.claimCore]

theorem State.Formed.claimLeaving (h : s.Formed) : s.claimLeaving.Formed := by
  grind [State.claimLeaving, State.Formed.claimCore, State.Formed.foldl]

theorem State.Formed.reclaim (h : s.Formed) : s.reclaim.Formed := by
  grind [State.reclaim, State.Formed.claimFor, State.Formed.withdraw, State.Formed.claimLeaving, State.Formed.foldl]

theorem State.Formed.endSuspend (h : s.Formed) : s.endSuspend.Formed := by
  grind [State.endSuspend, MemState.Formed.setCtx, State.Formed.raise, State.Formed]

theorem State.Formed.endInvall (h : s.Formed) : s.endInvall.Formed := by
  grind [State.endInvall, State.Formed.dropMarkers, State.Formed.raise, State.Formed]

theorem State.Formed.endHalts (h : s.Formed) : s.endHalts.Formed := by
  grind [State.endHalts, State.Formed.modCore, State.Formed.emit, State.Formed.foldl, Core.Formed]

theorem State.Formed.failGangs (h : s.Formed) : s.failGangs.Formed := by
  grind [State.failGangs, State.Formed.clearSlot, State.Formed.failTile, State.Formed.foldl, LaunchState.Formed, State.Formed]

theorem State.Formed.schedule (h : s.Formed) : s.schedule.Formed := by
  grind [State.schedule, State.Formed.reclaim, State.Formed.failGangs, State.Formed.endSuspend, State.Formed.endInvall,
    State.Formed.endHalts]

theorem State.Formed.beginSave {forced : Bool} (h : s.Formed) : (s.beginSave forced).Formed := by
  unfold State.beginSave
  extract_lets k s1 joined _ s2 s3 c d1 d2 d3 d4 back s4 id
  have h3 : s3.Formed := State.Formed.unarrive (s := s2) h.sampleVars
  have hd : d2.Formed InPackage := Core.Formed.foldl h3.core.completeOlder fun _ _ hc => hc.squash
  have h4 : s4.Formed := h3.foldl fun _ _ hs => hs.passMarkers.endRaces
  have hk : InPackage d4.kid := hd.1
  have hw : d4.scratch.wf = true := hd.2
  clear_value s4 d4 
  split
  · refine ⟨⟨hk, hw⟩, h4.others, h4.mem, fun x hx => ?_, h4.agenda⟩
    obtain hx | hx := List.mem_append.1 hx
    · exact h4.launch x hx
    · obtain rfl := List.mem_singleton.1 hx
      exact ⟨trivial, hw⟩
  · exact h

theorem State.Formed.preemptPoint (h : s.Formed) : s.preemptPoint.Formed := by grind [State.preemptPoint, State.Formed.beginSave]

theorem State.Formed.expireLimit {k : Nat} (h : s.Formed) : (s.expireLimit k).Formed := h

theorem State.Formed.forceStop (h : s.Formed) : s.forceStop.Formed := by grind [State.forceStop, State.Formed.beginSave]

theorem State.Formed.escalate (h : s.Formed) : s.escalate.Formed := by
  have h1 := h.sampleVars.releaseHeld
  have hd := h1.core.completeOlder
  unfold State.escalate
  dsimp only
  split
  · exact h
  · split
    · exact State.Formed.beginSave (h1.withCore hd)
    · split
      · split
        · exact h
        · split
          · exact h.takeTrap.beginSave
          · exact h.takeTrap
      · exact h

theorem Core.wf_keepExtents {ext : List (Nat × Nat)} (h : c.scratch.wf = true) : (c.keepExtents ext).wf = true := by
  unfold Core.keepExtents
  split
  · exact Mem.wfFrom_filter _ h
  · exact List.foldlRecOn (motive := fun m => Mem.wf m = true) ext _ rfl fun m hm e _ => Mem.wf_putN _ _ _ hm

theorem Core.Formed.livePart (h : c.Formed P) : c.livePart.Formed P := by
  have hk := Core.wf_keepExtents (ext := c.kernel.extents) h.2
  unfold Core.livePart
  exact ⟨h.1, hk⟩

theorem Core.Formed.readSaved {forced : Bool} (h : c.Formed P) : (c.readSaved forced).Formed P := by
  grind [Core.readSaved, Core.Formed.detect, Core.Formed.foldl]

theorem State.Formed.slotFrames {k ctx : Nat} {a : Word} {acc : Access} {x1 x2 : Nat} (h : s.Formed) :
    (s.slotFrames k ctx a acc x1 x2).1.Formed := by
  induction x2 generalizing s x1 with
  | zero => exact h
  | succ n ih => grind [State.slotFrames, State.Formed.translate]

theorem MemState.Formed.writeImage {time p frame bytes : Nat} (h : m.Formed) : (m.writeImage time p frame bytes).Formed := by
  grind [MemState.writeImage, Mem.wf_fill, MemState.Formed]

theorem State.Formed.writeSlot {k : Nat} {c : Ctx} {x : Saved} {launch pc : Word} {bytes : Nat} (h : s.Formed) :
    (s.writeSlot k c x launch pc bytes).1.Formed := by
  generalize hf : @State.writeSlot = f
  delta State.writeSlot at hf
  subst hf
  obtain ⟨n, hn⟩ : ∃ n, (64 + bytes + 65535) / 65536 = n := ⟨_, rfl⟩
  beta_reduce
  rw [hn]
  have hs := h.slotFrames (k := k) (ctx := c.num) (a := c.slotAddr x.slot) (acc := .write) (x1 := 0) (x2 := n)
  dsimp only
  split
  · next e => rw [e] at hs; exact hs
  · next e =>
    rw [e] at hs
    exact State.Formed.engWrite (hs.withMem (hs.mem.foldl fun _ _ hm => hm.writeImage))

theorem State.Formed.slotFails {k : Nat} {c : Ctx} {slot : Nat} (h : s.Formed) : (s.slotFails k c slot).Formed := h

theorem State.Formed.completeSave {k : Nat} (h : s.Formed) : (s.completeSave k).Formed := by
  have hc (b : Bool) : ((s.coreAt k).readSaved b).Formed AnyNumber := h.coreAt.readSaved
  unfold State.completeSave
  extract_lets c
  split
  · next x y _ _ =>
    split
    · exact h
    · extract_lets c full s1 image
      have h1 : s1.Formed := h.setCore (hc _)
      have hi : image.Formed AnyNumber := by
        unfold image
        split
        · exact ⟨trivial, (hc _).2⟩
        · exact Core.Formed.livePart ⟨trivial, (hc _).2⟩
      have hw := h1.writeSlot (k := k) (c := y) (x := x) (launch := s1.launchRecord x.task.launch) (pc := c.pc) (bytes := x.bytes c)
      clear_value image
      split
      · next e =>
        rw [e] at hw
        extract_lets s2
        refine State.Formed.modCore ⟨hw.core, hw.others, hw.mem, List.forall_mem_map.2 fun z hz => ?_, hw.agenda⟩ fun _ hc => hc.endTask
        split
        · exact hi
        · exact hw.launch z hz
      · next e => rw [e] at hw; exact hw.slotFails
  · exact h

theorem Core.Formed.restore {c image : Core} (h : c.Formed P) (hi : image.Formed AnyNumber) : (c.restore image).Formed P :=
  ⟨h.senseStripes.1, hi.2⟩

theorem MemState.Formed.imageSound {p frame key bytes : Nat} (h : m.Formed) : (m.imageSound p frame key bytes).1.Formed :=
  List.foldlRecOn (motive := fun (r : MemState × Bool) => r.1.Formed) _ _ h fun _ hm _ _ => hm.look

theorem State.Formed.readSlot {k : Nat} {x : Saved} (h : s.Formed) : (s.readSlot k x).1.Formed := by
  generalize hf : @State.readSlot = f
  delta State.readSlot at hf
  subst hf
  obtain ⟨g, hg⟩ : ∃ g : Nat → Nat, ∀ b, (64 + b + 65535) / 65536 = g b := ⟨_, fun _ => rfl⟩
  simp only [hg]
  split
  · exact h
  · next c _ =>
    have hs := h.slotFrames (k := k) (ctx := c.num) (a := c.slotAddr x.slot) (acc := .read) (x1 := 0) (x2 := g (x.bytes x.image))
    split
    · next e => rw [e] at hs; exact hs
    · next e =>
      rw [e] at hs
      exact hs.withMem (MemState.Formed.foldlFst hs.mem fun _ _ hm => hm.imageSound)

theorem State.Formed.restoreOn {k : Nat} {x : Saved} (h : s.Formed) (hx : x.image.Formed AnyNumber) : (s.restoreOn k x).Formed := by
  have hr := h.readSlot (k := k) (x := x)
  unfold State.restoreOn
  generalize s.readSlot k x = r at *
  split
  · split
    · exact hr.slotFails
    · exact hr
  · extract_lets s1 _ _ s2
    have h1 : s1.Formed := hr.modCore fun _ hc => hc.restore hx
    clear_value s1
    have h2 : s2.Formed := ⟨h1.core, h1.others, h1.mem, fun y hy => h1.launch y (List.mem_filter.1 hy).1, h1.agenda⟩
    exact h2.clearSlot

/-- The tasks that a restore plans to resume: the one asked for, or saved ones. -/
theorem State.restorePlan_mem {k : Nat} {x : Saved} {l : List (Nat × Saved)} (e : s.restorePlan k x = some l) :
    ∀ p ∈ l, p.2 = x ∨ p.2 ∈ s.launch.saved := by
  unfold State.restorePlan at e
  split at e
  · cases e
  · split at e
    · cases e
      simp
    · split at e
      · cases e
      · obtain ⟨g, _, e⟩ := Option.bind_eq_some_iff.1 e
        obtain ⟨q, _, rfl⟩ := Option.map_eq_some_iff.1 (Option.filter_eq_some_iff.1 e).1
        intro p hp
        obtain ⟨y, hy, hp⟩ := List.mem_filterMap.1 hp
        obtain ⟨_, _, rfl⟩ := Option.map_eq_some_iff.1 hp
        exact .inr (List.mem_filter.1 hy).1

theorem State.Formed.restoreTask {k : Nat} {x : Saved} (h : s.Formed) (hx : x.image.Formed AnyNumber) : (s.restoreTask k x).Formed := by
  unfold State.restoreTask
  split
  · next l e =>
    have hl : ∀ p ∈ l, p.2.image.Formed AnyNumber := fun p hp =>
      (State.restorePlan_mem (Option.filter_eq_some_iff.1 e).1 p hp).elim (fun e => e ▸ hx) fun hm => h.launch _ hm
    exact List.foldlRecOn (motive := State.Formed) l _ h fun t ht p hp => ht.restoreOn (hl p hp)
  · exact h

theorem State.Formed.requestWork {k : Nat} (h : s.Formed) : (s.requestWork k).Formed := by grind [State.requestWork, State.Formed.take]

theorem State.Formed.dispatchGang {g : Gang} (h : s.Formed) : (s.dispatchGang g).Formed := by
  grind (splits := 30) (ematch := 20) (gen := 20) [State.dispatchGang, State.Formed.setTile, State.Formed.startTask, State.Formed.foldl,
    State.formed_mk, State.Formed.core, State.Formed.others, State.Formed.mem, State.Formed.launch, State.Formed.agenda,
    LaunchState.Formed]

theorem State.Formed.refuseCtx {c : Nat} (h : s.Formed) : (s.refuseCtx c).Formed := h

theorem State.Formed.ctxCommand {c : Nat} {ok : Option Nat → Bool} {f : State → State} (h : s.Formed)
    (hf : ∀ s, s.Formed → (f s).Formed) : (s.ctxCommand c ok f).Formed := by
  have ha := hf { s with host := { s.host with lastCtx := c, ctxErr := false } } h
  unfold State.ctxCommand
  split
  · exact h
  · split
    · exact h.refuseCtx
    · dsimp only
      split
      · exact State.Formed.raise (v := 65) ha
      · exact ha

theorem State.Formed.createCtx {c : Nat} (h : s.Formed) : (s.createCtx c).Formed := by
  grind [State.createCtx, State.Formed.refuseCtx, MemState.Formed.physRead, State.Formed.ctxCommand, MemState.Formed, State.Formed]

theorem State.Formed.suspendCtx {c : Nat} (h : s.Formed) : (s.suspendCtx c).Formed := by
  grind [State.suspendCtx, State.Formed.ctxCommand, MemState.Formed.setCtx, State.Formed.claimLeaving, State.Formed]

theorem State.Formed.resumeCtx {c : Nat} (h : s.Formed) : (s.resumeCtx c).Formed := by
  grind [State.resumeCtx, State.Formed.ctxCommand, MemState.Formed.setCtx, State.Formed]

theorem State.Formed.terminateCtx {c : Nat} (h : s.Formed) : (s.terminateCtx c).Formed := by
  grind [State.terminateCtx, State.Formed.ctxCommand, State.Formed.terminate]

theorem State.Formed.invallCtx {c : Nat} (h : s.Formed) : (s.invallCtx c).Formed := by
  grind [State.invallCtx, MemState.Formed.flushAll, State.Formed.placeMarkers, MemState.Formed.invl, State.Formed.ctxCommand,
    State.Formed]

end Sys2Proof.Machine
end

section
/-! PROOF. The expert queue. -/
namespace Sys2Proof.Machine

variable {s : State}

theorem State.Formed.evict {hn : Handle} (h : s.Formed) : (s.evict hn).Formed := by
  grind [State.evict, State.Formed.placeMarkers, State.Formed.unstage, State.Formed.mem]

theorem State.Formed.makeRoom {s t : State} {ctx quota len n : Nat} (h : s.Formed) (e : s.makeRoom ctx quota len n = some t) :
    t.Formed := by
  induction n generalizing s with
  | zero => cases e
  | succ n ih =>
    unfold State.makeRoom at e
    split at e
    · split at e
      · exact ih h.evict e
      · cases e
    · split at e
      · split at e
        · exact ih h.evict e
        · cases e
      · cases e
        exact h

theorem State.Formed.startRead {s t : State} {n : Nat} (h : s.Formed) (e : s.startRead n = some t) : t.Formed := by
  unfold State.startRead at e
  dsimp only at e
  split at e
  · cases e
  · split at e
    · cases e
    · obtain ⟨u, hu, e⟩ := Option.bind_eq_some_iff.1 e
      have hu := h.makeRoom hu
      split at e
      · split at e
        · cases e; exact hu
        · cases e
      · cases e
        have hh := hu.setHandle (x := { s.handle n with state := 2, frames := u.freeFrames.take (s.handle n).len, got := [] })
        exact hh

theorem State.Formed.bullpenStart {n : Nat} (h : s.Formed) : (s.bullpenStart n).Formed := by
  unfold State.bullpenStart
  split
  · exact h
  · split
    · next e => exact (h.startRead e).judgeAll
    · exact h

theorem State.Formed.hostStart {value : Word} (h : s.Formed) : (s.hostStart value).Formed := by
  grind [State.hostStart, State.Formed.bullpenStart, State.Formed]

theorem State.Formed.sourcePage {x : Handle} {i : Nat} (h : s.Formed) : (s.sourcePage x i).1.Formed := by
  grind [State.sourcePage, MemState.Formed.translate, State.Formed]

theorem State.Formed.stagePage {x : Handle} {i : Nat} (h : s.Formed) : (s.stagePage x i).1.Formed := by
  have hp := h.sourcePage (x := x) (i := i)
  unfold State.stagePage
  dsimp only
  split
  · next e => rw [e] at hp; exact hp
  · next e =>
    rw [e] at hp
    exact hp.withMem (hp.mem.foldl fun m j hm => hm.dropSector.writeHbm)

theorem State.Formed.stagePages {x : Handle} {x1 : List Nat} (h : s.Formed) : (s.stagePages x x1).1.Formed := by
  induction x1 generalizing s with
  | nil => exact h
  | cons a l ih => grind [State.stagePages, State.Formed.stagePage]

theorem State.Formed.failStaging {hn code : Nat} (h : s.Formed) : (s.failStaging hn code).Formed := by
  grind [State.failStaging, State.Formed.dequeue, State.Formed.judgeAll, State.Formed.unstage]

theorem State.Formed.completeStaging {hn : Nat} (h : s.Formed) : (s.completeStaging hn).Formed := by
  grind [State.completeStaging, State.Formed.stagePages, State.Formed.dequeue, State.Formed.judgeAll, State.Formed.setHandle,
    MemState.Formed, State.Formed]

theorem State.Formed.missDeadline {hn : Nat} (h : s.Formed) : (s.missDeadline hn).Formed := by grind [State.missDeadline, State.Formed]

end Sys2Proof.Machine
end

section
/-! PROOF. Flash: blocks, pages and the commands. -/
namespace Sys2Proof.Machine

variable {s : State}

theorem State.Formed.setBlock {x : Block} (h : s.Formed) : (s.setBlock x).Formed := h

theorem State.Formed.mapUnit {u b slot : Nat} (h : s.Formed) : (s.mapUnit u b slot).Formed := h

theorem State.Formed.unmapUnit {u : Nat} (h : s.Formed) : (s.unmapUnit u).Formed := h

theorem State.Formed.flashRec {st type flags code : Nat} {ctx : Option Nat} {addr info0 info1 info2 : Nat} (h : s.Formed) :
    (s.flashRec st type flags code ctx addr info0 info1 info2).Formed := by
  grind [State.flashRec, State.Formed.emit]

theorem State.Formed.retireRecord {st b code flags : Nat} (h : s.Formed) : (s.retireRecord st b code flags).Formed := by
  grind [State.retireRecord, State.Formed.flashRec]

theorem State.Formed.relocate {st b why : Nat} {dest retire : Option Nat} (h : s.Formed) : (s.relocate st b why dest retire).Formed := by
  grind [State.relocate, State.Formed.setBlock, State.Formed.retireRecord, State.Formed]

theorem State.Formed.retireBlock {st b code : Nat} (h : s.Formed) : (s.retireBlock st b code).Formed := by
  grind [State.retireBlock, State.Formed.setBlock, State.Formed.retireRecord, State.Formed.relocate]

theorem State.Formed.notePage {st b p : Nat} {handle : Option Nat} (h : s.Formed) : (s.notePage st b p handle).Formed := by
  grind [State.notePage, State.Formed.flashRec, State.Formed.setBlock, MemState.Formed, State.Formed]

theorem State.Formed.pageRetires {st b : Nat} (h : s.Formed) : (s.pageRetires st b).1.Formed := by
  grind [State.pageRetires, State.Formed.retireRecord]

theorem State.Formed.verifyBlock {st b : Nat} (h : s.Formed) : (s.verifyBlock st b).Formed := by
  grind [State.verifyBlock, State.Formed.notePage, State.Formed.setBlock, State.Formed.pageRetires, State.Formed.foldl]

theorem State.Formed.switchBlock {st b : Nat} (h : s.Formed) : (s.switchBlock st b).Formed := by
  grind [State.switchBlock, State.Formed.flashRec, State.Formed.setBlock, State.Formed.retireRecord, State.Formed.verifyBlock,
    State.Formed.mapUnit, State.Formed.foldl, State.Formed]

theorem State.Formed.levelWear {st : Nat} (h : s.Formed) : (s.levelWear st).Formed := by
  grind [State.levelWear, State.Formed.flashRec, State.Formed.relocate]

theorem State.Formed.eraseBlock {st b : Nat} {failed : Bool} (h : s.Formed) : (s.eraseBlock st b failed).Formed := by
  grind [State.eraseBlock, State.Formed.setBlock, State.Formed.retireRecord, State.Formed.levelWear]

theorem State.Formed.startDeferred {st : Nat} (h : s.Formed) : (s.startDeferred st).Formed := by
  grind [State.startDeferred, State.Formed.setBlock, State.Formed]

theorem State.Formed.countRead {st b : Nat} (h : s.Formed) : (s.countRead st b).Formed := by
  grind [State.countRead, State.Formed.flashRec, State.Formed.setBlock, State.Formed.relocate]

theorem State.Formed.readPage {u page : Nat} {handle : Option Nat} (h : s.Formed) : (s.readPage u page handle).Formed := by
  grind [State.readPage, State.Formed.countRead, State.Formed]

theorem State.Formed.countRest {r : PageRead} {hn : Nat} (h : s.Formed) : (s.countRest r hn).Formed := by
  grind [State.countRest, State.Formed.countRead, State.Formed.foldl]

theorem State.Formed.badPage {r : PageRead} (h : s.Formed) : (s.badPage r).Formed := by
  grind [State.badPage, State.Formed.retireBlock, State.Formed.notePage, State.Formed.failStaging, State.Formed.pageRetires,
    State.Formed.countRest]

theorem State.Formed.pageDone {id : Nat} {result : FlashResult} (h : s.Formed) : (s.pageDone id result).Formed := by
  grind (splits := 30) (ematch := 20) (gen := 20) [State.pageDone, State.Formed.badPage, State.Formed.setHandle, State.Formed.countRead,
    MemState.Formed, State.Formed]

theorem State.Formed.drainFlash (h : s.Formed) : s.drainFlash.Formed := by
  grind [State.drainFlash, State.Formed.badPage, State.Formed.countRead, State.Formed.foldl, MemState.Formed, State.Formed]

theorem State.Formed.flashCommand {f : State → State × Nat × Option (Nat × Nat)} (h : s.Formed) (hf : (f s).1.Formed) :
    (s.flashCommand f).Formed := by
  unfold State.flashCommand
  split
  · exact h
  · exact hf

set_option maxRecDepth 20000 in
theorem State.Formed.programUnits {src u n : Nat} {failed : Bool} (h : s.Formed) : (s.programUnits src u failed n).1.Formed := by
  induction n generalizing s src u failed with
  | zero => exact h
  | succ n ih =>
    unfold State.programUnits
    generalize List.range 2048 = l
    extract_lets st
    split
    · exact h
    · split
      · exact h
      · next b0 _ =>
        extract_lets x s1
        have h1 : s1.Formed := by
          unfold s1
          split
          · split
            · exact h.retireRecord
            · exact h.setBlock.retireBlock
          · exact h
        split
        · exact h1
        · generalize hy : List.foldl _ _ l = y
          obtain ⟨m, bad⟩ := y
          have hm : m.Formed := by
            rw [show m = _ from congrArg Prod.fst hy.symm]
            exact MemState.Formed.foldlFst h1.mem fun x _ hx => hx.readHbm
          dsimp only
          split
          · exact h1.withMem hm
          · have h2 : (({ s1 with mem := m } : State).unmapUnit u).Formed := State.Formed.unmapUnit (h1.withMem hm)
            refine ih (State.Formed.mapUnit (State.Formed.setBlock (h2.withMem ⟨h2.mem.1, ?_, h2.mem.2.2⟩)))
            exact Mem.wf_putN _ _ _ h2.mem.2.1

theorem State.Formed.flashWrite {value : Word} {failed : Bool} (h : s.Formed) : (s.flashWrite value failed).Formed := by
  grind [State.flashWrite, State.Formed.programUnits, State.Formed.flashCommand]

theorem State.Formed.flashTrim {value : Word} (h : s.Formed) : (s.flashTrim value).Formed := by
  grind [State.flashTrim, State.Formed.flashCommand, State.Formed.unmapUnit, State.Formed.foldl]

theorem State.Formed.flashReloc {value : Word} (h : s.Formed) : (s.flashReloc value).Formed := by
  grind [State.flashReloc, State.Formed.flashCommand, State.Formed.relocate]

theorem State.Formed.flashRetire {value : Word} (h : s.Formed) : (s.flashRetire value).Formed := by
  grind [State.flashRetire, State.Formed.retireBlock, State.Formed.flashCommand]

theorem State.Formed.flashDone (h : s.Formed) : s.flashDone.Formed := by grind [State.flashDone, State.Formed.raise, State.Formed]

end Sys2Proof.Machine
end

section
/-! PROOF. HBM: channels and their copies. -/
namespace Sys2Proof.Machine

variable {s : State} {m : MemState}

theorem State.Formed.hbmRequest {q a : Nat} {kind : HbmKind} (h : s.Formed) : (s.hbmRequest q a kind).Formed := by
  grind [State.hbmRequest, MemState.Formed.arrive, State.Formed]

theorem MemState.Formed.readOlder {a : Nat} {x1 : List HbmReq} (h : m.Formed) : (m.readOlder a x1).1.Formed := by
  induction x1 generalizing m with
  | nil => exact h
  | cons a l ih => grind [MemState.readOlder, MemState.Formed.lookup]

theorem State.Formed.hbmPerform {q tag : Nat} (h : s.Formed) : (s.hbmPerform q tag).Formed := by
  grind [State.hbmPerform, State.Formed.answer, MemState.Formed.lookup, MemState.Formed.performWrite, MemState.Formed.setChan,
    MemState.Formed.readOlder, State.Formed]

theorem State.Formed.drainDone (h : s.Formed) : s.drainDone.Formed := by grind [State.drainDone, State.Formed.chanRec, State.Formed]

theorem MemState.Formed.applyHeld {x1 : List (Nat × HbmKind)} (h : m.Formed) : (m.applyHeld x1).Formed := by
  induction x1 generalizing m with
  | nil => exact h
  | cons a l ih => grind [MemState.applyHeld, MemState.Formed.performWrite, MemState.Formed.arrive]

theorem State.Formed.copyDone (h : s.Formed) : s.copyDone.Formed := by
  unfold State.copyDone
  extract_lets q x mine found s1 bad s2 _ m s3 s4
  have h1 : s1.Formed := State.Formed.drainRecs (h.withMem (h.mem.foldl fun _ _ hm => hm.senseHbm))
  have h2 : s2.Formed := h1.chanRec
  clear_value s2
  obtain ⟨hh, hf, hg⟩ : m.Formed := h2.mem.setChan
  clear_value m
  have h3 : s3.Formed := h2.withMem (MemState.Formed.applyHeld ⟨hh, hf, hg⟩)
  clear_value s3
  have h4 : s4.Formed := h3.chanRec
  clear_value s4
  split
  · exact h
  · exact h4

end Sys2Proof.Machine
end

section
/-! PROOF. Events of the pool and its parity. -/
namespace Sys2Proof.Machine

variable {P : Nat → Prop} {s : State} {c : Core}

theorem Core.Formed.startRebuild {g j : Nat} (h : c.Formed P) : (c.startRebuild g j).Formed P := by
  grind [Core.startRebuild, Core.Formed.setGroup]

theorem Core.Formed.rebuildRow {g j row : Nat} (h : c.Formed P) : (c.rebuildRow g j row).Formed P := by
  grind [Core.rebuildRow, Core.Formed.correctData, Core.Formed.record, Core.Formed.readLibero, Core.Formed.rebuildFault,
    Core.Formed.foldl, Core.Formed]

theorem Core.Formed.rebuildNext {g : Nat} (h : c.Formed P) : (c.rebuildNext g).Formed P := by
  grind [Core.rebuildNext, Core.Formed.rebuildRow, Core.Formed.setGroup]

theorem Core.Formed.readOthers {x : Nat} (h : c.Formed P) : (c.readOthers x).Formed P := by
  grind [Core.readOthers, Core.Formed.fit, Core.Formed.readLibero, Core.Formed.readSector, Core.Formed.foldl]

theorem Core.Formed.rebuildAll {start c : Core} {t : Taken} {l : List PoolReq} (h : c.Formed P) :
    (start.rebuildAll c t l).2.1.Formed P := by
  induction l generalizing c t with
  | nil => exact h
  | cons r rs ih =>
    refine ih (List.foldlRecOn (motive := fun (x : PoolReq × Core × Taken) => x.2.1.Formed P) r.sectors _ h fun x hx y _ => ?_)
    split
    · exact hx.readOthers
    · exact hx

theorem Core.Formed.serveOldest {g : Nat} (h : c.Formed P) : (c.serveOldest g).Formed P := by
  unfold Core.serveOldest
  split
  · exact h
  · next e es _ =>
    split
    · exact h
    · exact (h.serveEntry (g := g) (e := e) :)

theorem Core.Formed.updateParity {g : Nat} {recompute : Bool} (h : c.Formed P) : (c.updateParity g recompute).Formed P := by
  grind [Core.updateParity, Core.Formed.serveOldest]

theorem Core.Formed.updateFirst {reqs : List PoolReq} (h : c.Formed P) : (c.updateFirst reqs).Formed P := by
  grind [Core.updateFirst, Core.Formed.serveOldest, Core.Formed.foldl]

theorem Core.Formed.arbitrate {reqs : List PoolReq} (h : c.Formed P) : (c.arbitrate reqs).Formed P := by
  have hu (all : List PoolReq) : (({ c with taken := [] } : Core).updateFirst all).Formed P := Core.Formed.updateFirst h
  have hr (all left : List PoolReq) (t : Taken) : (c.rebuildAll (({ c with taken := [] } : Core).updateFirst all) t left).2.1.Formed P :=
    (hu all).rebuildAll
  grind [Core.arbitrate, Core.Formed.foldl, Core.Formed.rebuildNext, Core.Formed]

theorem Core.Formed.strike {key : Nat} {fatal : Bool} (h : c.Formed P) : (c.strike key fatal).Formed P := by
  unfold Core.strike
  split <;> exact h

theorem Core.Formed.strikeLibero {g row : Nat} {fatal : Bool} (h : c.Formed P) : (c.strikeLibero g row fatal).Formed P := by
  grind [Core.strikeLibero, Core.Formed.strike]

theorem State.Formed.endRebuild {k g : Nat} (h : s.Formed) : (s.endRebuild k g).Formed := by
  unfold State.endRebuild
  extract_lets x s1 now gone s2 s3
  have h1 : s1.Formed := h.modCore fun _ hc => hc.foldl fun _ _ hc => hc.rebuildNext
  have h2 : s2.Formed := h1.modCore fun c hc => (hc.setGroup (g := g) (x := c.group g) :)
  split
  · exact h1
  · exact h2.drainRecs.emit.checkDegraded

end Sys2Proof.Machine
end

section
/-! PROOF. The host and the peers. -/
namespace Sys2Proof.Machine

variable {s : State} {m : MemState}

theorem MemState.Formed.barWrite {key : Option (BitVec 512)} {num lo n v : Nat} (h : m.Formed) : (m.barWrite key num lo n v).Formed := by
  grind [MemState.barWrite, MemState.Formed.mergeHbm, MemState.Formed.writeHbm]

theorem MemState.Formed.barReads {key : Option (BitVec 512)} {pa x1 x2 : Nat} (h : m.Formed) : (m.barReads key pa x1 x2).1.Formed := by
  induction x1 generalizing m pa x2 with
  | zero => grind [MemState.barReads.eq_def]
  | succ n ih => grind [MemState.barReads.eq_def, MemState.Formed.readHbm]

theorem MemState.Formed.barWrites {key : Option (BitVec 512)} {pa x1 : Nat} {x2 : List Byte} (h : m.Formed) :
    (m.barWrites key pa x1 x2).Formed := by
  induction x1 generalizing m pa x2 with
  | zero => grind [MemState.barWrites.eq_def]
  | succ n ih => grind [MemState.barWrites.eq_def, MemState.Formed.barWrite]

theorem State.Formed.bar2Read {pa n : Nat} (h : s.Formed) : (s.bar2Read pa n).Formed := by
  grind [State.bar2Read, State.Formed.answer, MemState.Formed.barReads, State.Formed]

theorem State.Formed.bar2Write {pa : Nat} {data : List Byte} (h : s.Formed) : (s.bar2Write pa data).Formed := by
  grind [State.bar2Write, State.Formed.answer, MemState.Formed.barWrites, State.Formed]

theorem State.Formed.llcWriteback {pa : Nat} (h : s.Formed) : (s.llcWriteback pa).Formed := by
  grind [State.llcWriteback, MemState.Formed.flushSector, State.Formed]

theorem MemState.Formed.shareSector {num : Nat} (h : m.Formed) : (m.shareSector num).1.Formed := by
  grind [MemState.shareSector, MemState.Formed.look, MemState.Formed]

theorem MemState.Formed.hostWrite {line : Nat} {data : List Byte} {poison : Bool} (h : m.Formed) :
    (m.hostWrite line data poison).Formed := by
  grind [MemState.hostWrite, Mem.wf_store, MemState.Formed]

theorem State.Formed.snoop {hpa : Nat} {kind : Snoop} (h : s.Formed) : (s.snoop hpa kind).Formed := by
  grind [State.snoop.eq_def, State.Formed.answer, MemState.Formed.hostWrite, MemState.Formed.flushSector, MemState.Formed.shareSector,
    State.Formed]

theorem State.Formed.linkDown (h : s.Formed) : s.linkDown.Formed := by
  grind [State.linkDown, State.Formed.emit, MemState.Formed, State.Formed]

theorem State.Formed.linkTrain (h : s.Formed) : s.linkTrain.Formed := by grind [State.linkTrain, MemState.Formed, State.Formed]

theorem State.Formed.peerPlaces {off n : Nat} {a : Access} (h : s.Formed) : (s.peerPlaces off n a).1.Formed := by
  grind [State.peerPlaces, State.Formed.aperture]

theorem State.Formed.peerStore {off : Nat} {data : List Byte} (h : s.Formed) : (s.peerStore off data).1.Formed := by
  grind [State.peerStore, State.Formed.peerPlaces, State.Formed.writeRange]

theorem State.Formed.peerUpdate {off n : Nat} {f : Nat → Option Nat} (h : s.Formed) : (s.peerUpdate off n f).Formed := by
  grind [State.peerUpdate, State.Formed.peerPlaces, State.Formed.answer, State.Formed.readRange, State.Formed.writeRange]

theorem State.Formed.peerAccess {acc : PeerAccess} (h : s.Formed) : (s.peerAccess acc).Formed := by
  grind [State.peerAccess.eq_def, State.Formed.peerPlaces, State.Formed.peerUpdate, State.Formed.answer, State.Formed.readRange,
    State.Formed.peerStore]

theorem State.Formed.dropStore {k id : Nat} (h : s.Formed) : (s.dropStore k id).Formed := by
  grind [State.dropStore, State.Formed.modCore, Core.Formed]

theorem State.Formed.storeLost {k : Nat} {p : PeerStore} {code : Nat} (h : s.Formed) : (s.storeLost k p code).Formed := by
  grind [State.storeLost, State.Formed.dropStore, State.Formed.modCore, State.Formed.raise, MemState.Formed, Core.Formed, State.Formed]

theorem State.Formed.storeNotPerformed {k id code : Nat} (h : s.Formed) : (s.storeNotPerformed k id code).Formed := by
  grind [State.storeNotPerformed, State.Formed.storeLost]

theorem State.Formed.storeAcknowledged {k id : Nat} (h : s.Formed) : (s.storeAcknowledged k id).Formed := by
  grind [State.storeAcknowledged, State.Formed.dropStore, State.Formed.peerStore, State.Formed.storeLost]

theorem State.Formed.setPort {p : Fin 4} {up : Bool} (h : s.Formed) : (s.setPort p up).Formed := by
  grind [State.setPort, State.Formed.raise, State.Formed.emit, State.Formed]

theorem State.Formed.softError {t : ErrTarget} (h : s.Formed) : (s.softError t).Formed := by
  grind [State.softError.eq_def, Core.Formed.strikeLibero, State.Formed.setChan, MemState.Formed.putSector, State.Formed.modCore,
    Core.Formed.strike, State.Formed.emit, MemState.Formed, State.Formed]

end Sys2Proof.Machine
end

section
/-! PROOF. Launch lists. -/
namespace Sys2Proof.Machine

variable {s : State}

theorem State.Formed.setList {j : Nat} {l : ListReg} (h : s.Formed) : (s.setList j l).Formed := h

theorem State.Formed.submitList {j : Nat} {addr : Word} (h : s.Formed) : (s.submitList j addr).Formed := by
  grind [State.submitList, State.Formed.setList]

theorem State.Formed.entryAt {j : Nat} (h : s.Formed) : (s.entryAt j).1.Formed := by grind [State.entryAt, State.Formed.engRead]

theorem State.Formed.listGoto {j pos : Nat} (h : s.Formed) : (s.listGoto j pos).Formed := h

theorem State.Formed.listWait {j : Nat} {w : ListWait} {counts : Bool} (h : s.Formed) : (s.listWait j w counts).Formed := h

theorem State.Formed.listEntry {j op : Nat} {f : State → Entry → State} (h : s.Formed) (hf : ∀ s e, s.Formed → (f s e).Formed) :
    (s.listEntry j op f).Formed := by
  have he := h.entryAt (j := j)
  unfold State.listEntry
  split
  · exact h
  · split
    · next e => rw [e] at he; exact he.stopList
    · next e =>
      rw [e] at he
      split
      · exact he.stopList
      · split
        · exact hf _ _ he
        · exact he

theorem State.Formed.listWord {j : Nat} {e : Entry} (h : s.Formed) : (s.listWord j e).1.Formed := by
  grind [State.listWord, State.Formed.engRead]

theorem State.Formed.listLaunch {j : Nat} (h : s.Formed) : (s.listLaunch j).Formed := by
  grind [State.listLaunch, State.Formed.listWait, State.Formed.requestLaunch, State.Formed.listEntry]

theorem State.Formed.listWaitWord {j : Nat} (h : s.Formed) : (s.listWaitWord j).Formed := by
  grind [State.listWaitWord, State.Formed.listGoto, State.Formed.listWait, State.Formed.listWord, State.Formed.listEntry,
    State.Formed.stopList]

theorem State.Formed.listWordMet {j : Nat} (h : s.Formed) : (s.listWordMet j).Formed := by
  grind [State.listWordMet, State.Formed.listGoto, State.Formed.setList, State.Formed.listWord, State.Formed.entryAt,
    State.Formed.stopList]

theorem State.Formed.listPublish {j : Nat} (h : s.Formed) : (s.listPublish j).Formed := by
  grind [State.listPublish, State.Formed.listWait, State.Formed.addPub, State.Formed.listEntry]

theorem State.Formed.listSkip {j : Nat} (h : s.Formed) : (s.listSkip j).Formed := by
  grind [State.listSkip, State.Formed.listGoto, State.Formed.listWord, State.Formed.listEntry, State.Formed.stopList]

theorem State.Formed.listJump {j : Nat} (h : s.Formed) : (s.listJump j).Formed := by
  grind [State.listJump, State.Formed.listGoto, State.Formed.listEntry]

theorem State.Formed.listCallEntry {j : Nat} (h : s.Formed) : (s.listCallEntry j).Formed := by
  grind [State.listCallEntry, State.Formed.listGoto, State.Formed.setList, State.Formed.listEntry, State.Formed.stopList]

theorem State.Formed.listReturnEntry {j : Nat} (h : s.Formed) : (s.listReturnEntry j).Formed := by
  grind [State.listReturnEntry, State.Formed.listGoto, State.Formed.setList, State.Formed.listEntry, State.Formed.stopList]

theorem State.Formed.listEndEntry {j : Nat} (h : s.Formed) : (s.listEndEntry j).Formed := by
  grind [State.listEndEntry, State.Formed.writeWord, State.Formed.listEntry, State.Formed.stopList]

theorem State.Formed.listClear {j : Nat} (h : s.Formed) : (s.listClear j).Formed := by
  grind [State.listClear, State.Formed.listGoto, State.Formed.dropTags, State.Formed.listEntry]

theorem State.Formed.publishTag {p : Pub} (h : s.Formed) : (s.publishTag p).Formed := by
  grind [State.publishTag, State.Formed.finishPub, State.Formed.judgeAll, State.Formed.applyPub, LaunchState.Formed, State.Formed]

end Sys2Proof.Machine
end

section
/-! PROOF. Boot, management, heat and power. -/
namespace Sys2Proof.Machine

variable {s : State}

theorem State.Formed.doReset (h : s.Formed) : s.doReset.Formed := by
  have hr := State.formed_reset
  unfold State.doReset
  exact ⟨hr.core, hr.others, ⟨hr.mem.1, h.mem.2⟩, hr.launch, h.agenda⟩

theorem State.Formed.applyList {failed : List (Nat × Nat × Nat)} (h : s.Formed) : (s.applyList failed).Formed := by
  grind [State.applyList, State.Formed.modCore, Core.Formed.startRebuild, State.Formed.endRebuild, State.Formed.foldl, MemState.Formed,
    Core.Formed, State.Formed]

theorem State.Formed.bootPhase {r : BootResult} (h : s.Formed) : (s.bootPhase r).Formed := by
  unfold State.bootPhase
  dsimp only
  split
  · exact h
  · split
    · exact h
    · split
      · exact h
      · exact h.withMem ⟨rfl, h.mem.2⟩
      · exact State.Formed.applyList h
      · exact h.withMem h.mem
      · exact h

theorem State.Formed.spdmError (h : s.Formed) : s.spdmError.Formed := h

theorem State.Formed.spdmStep {r : SpdmRequest} {ok : Nat → Bool} {after : Nat → Nat} (h : s.Formed) : (s.spdmStep r ok after).Formed := by
  grind [State.spdmStep, State.Formed.spdmError, State.Formed]

theorem State.Formed.keyLoad {index : Nat} {key : BitVec 512} (h : s.Formed) : (s.keyLoad index key).Formed := by
  grind [State.keyLoad, State.Formed.spdmError, MemState.Formed, State.Formed]

theorem State.Formed.keyClear {index : Nat} (h : s.Formed) : (s.keyClear index).Formed := by
  grind [State.keyClear, State.Formed.spdmError, MemState.Formed, State.Formed]

theorem State.Formed.setClock {x : Clock} (h : s.Formed) : (s.setClock x).Formed := h

theorem State.Formed.throttleDown {b : BlockId} (h : s.Formed) : (s.throttleDown b).Formed := by
  grind [State.throttleDown, State.Formed.setClock]

theorem State.Formed.throttleUp {b : BlockId} (h : s.Formed) : (s.throttleUp b).Formed := by grind [State.throttleUp,
  State.Formed.setClock]

theorem State.Formed.clockStop {b : BlockId} (h : s.Formed) : (s.clockStop b).Formed := by grind [State.clockStop, State.Formed.setClock]

theorem State.Formed.clockRestart {b : BlockId} (h : s.Formed) : (s.clockRestart b).Formed := by
  grind [State.clockRestart, State.Formed.setClock]

theorem State.Formed.mgmt {k : Nat} {f : State → State} (h : s.Formed) (hf : ∀ s, s.Formed → (f s).Formed) : (s.mgmt k f).Formed := by
  unfold State.mgmt
  split
  · exact hf s h
  · exact h

theorem State.Formed.mgmtResume {k : Nat} (h : s.Formed) : (s.mgmtResume k).Formed := by
  grind [State.mgmtResume, State.Formed.mgmt, State.Formed.modCore, Core.Formed]

theorem State.Formed.mgmtTerminate {k : Nat} (h : s.Formed) : (s.mgmtTerminate k).Formed := by
  grind [State.mgmtTerminate, State.Formed.mgmt, State.Formed.terminate]

end Sys2Proof.Machine
end

section
/-! PROOF. Frames, cores and channels taken out of use. -/
namespace Sys2Proof.Machine

variable {s : State}

theorem State.Formed.replaceTile {old : Nat} {t : TileTask} (h : s.Formed) : (s.replaceTile old t).Formed := by
  grind [State.replaceTile, State.Formed.setTile, State.Formed.failTile, LaunchState.Formed, State.Formed]

theorem State.Formed.moveWork {f : Nat → Nat → Nat × Nat → Nat × Nat} (h : s.Formed) : (s.moveWork f).Formed := by
  grind [State.moveWork, LaunchState.Formed, State.Formed]

theorem State.Formed.widen {k : Nat} (h : s.Formed) : (s.widen k).Formed := by grind [State.widen, State.Formed.moveWork]

theorem State.Formed.endCoreRetirement {k : Nat} (h : s.Formed) : (s.endCoreRetirement k).Formed := by
  grind [State.endCoreRetirement, State.Formed.moveWork, State.Formed.modCore, State.Formed.widen, State.Formed.replaceTile,
    State.Formed.emit, State.Formed.foldl, Core.Formed, State.Formed]

theorem State.Formed.dropLog {num : Nat} (h : s.Formed) : (s.dropLog num).Formed := h

theorem State.Formed.replay {num core : Nat} {sig : Option Word} (h : s.Formed) : (s.replay num core sig).Formed := by
  grind [State.replay, State.Formed.decideTags, State.Formed.dropLog, State.Formed]

theorem State.Formed.countMismatch {e : AuditEntry} {first third culprit : Nat} {v w : Word} {unres : Bool} (h : s.Formed) :
    (s.countMismatch e first third culprit v w unres).Formed := by
  grind [State.countMismatch, State.Formed.retireCoreStart, State.Formed.modCore, State.Formed.emit, Core.Formed, State.Formed]

theorem State.Formed.thirdReplay {num core : Nat} {sig : Option Word} (h : s.Formed) : (s.thirdReplay num core sig).Formed := by
  grind [State.thirdReplay, State.Formed.decideTags, State.Formed.dropLog, State.Formed.countMismatch, State.Formed]

theorem State.Formed.refConfig {seed : Bool} {value : Word} (h : s.Formed) : (s.refConfig seed value).Formed := by
  grind [State.refConfig, State.Formed.modCores, Core.Formed, State.Formed]

theorem State.Formed.ringConfig {size : Bool} {value : Word} (h : s.Formed) : (s.ringConfig size value).Formed := h

theorem State.Formed.headWrite {value : Word} (h : s.Formed) : (s.headWrite value).Formed := by grind [State.headWrite, State.Formed]

end Sys2Proof.Machine
end

section
/-! PROOF. The registers that the host writes. -/
namespace Sys2Proof.Machine

variable {s : State}

theorem State.Formed.served {off : Nat} {f : State → State} (h : s.Formed) (hf : ∀ s, s.Formed → (f s).Formed) :
    (s.served off f).Formed := by
  unfold State.served
  split
  · exact hf s h
  · exact h

theorem State.Formed.writeSqcfg {j v : Nat} (h : s.Formed) : (s.writeSqcfg j v).Formed := h

theorem State.Formed.writeSqstat {j v : Nat} (h : s.Formed) : (s.writeSqstat j v).Formed := h

theorem State.Formed.writeSq {off : Nat} {value : Word} (h : s.Formed) : (s.writeSq off value).Formed := by
  grind [State.writeSq, State.Formed.writeSqcfg, State.Formed.writeSqstat, State.Formed.submitList]

theorem State.Formed.writeCtxcmd {v : Nat} (h : s.Formed) : (s.writeCtxcmd v).Formed := by
  grind [State.writeCtxcmd, State.Formed.createCtx, State.Formed.terminateCtx, State.Formed.resumeCtx, State.Formed.ctxCommand,
    State.Formed.suspendCtx, State.Formed.invallCtx]

theorem State.Formed.writeConfig {off : Nat} {value : Word} (h : s.Formed) : (s.writeConfig off value).Formed := by
  grind [State.writeConfig.eq_def, MemState.Formed, LaunchState.Formed, State.Formed]

theorem State.Formed.configWrite {off : Nat} {value : Word} (h : s.Formed) : (s.configWrite off value).Formed := by
  grind [State.configWrite, State.Formed.writeConfig, State.Formed]

theorem State.Formed.writePeerstat {v : Nat} (h : s.Formed) : (s.writePeerstat v).Formed := by
  grind [State.writePeerstat, State.Formed.raise, State.Formed]

theorem State.Formed.writeHost {off : Nat} {value : Word} (h : s.Formed) : (s.writeHost off value).Formed := by
  grind [State.writeHost.eq_def, State.Formed.writePeerstat, State.Formed.writeCtxcmd, State.Formed.hostStart, State.Formed]

theorem State.Formed.writeRetcmd {v : Nat} (h : s.Formed) : (s.writeRetcmd v).Formed := by
  grind [State.writeRetcmd, State.Formed.retireCoreStart, State.Formed.retireFrame]

theorem State.Formed.writeRascfg {v : Nat} (h : s.Formed) : (s.writeRascfg v).Formed := h

theorem State.Formed.writeRasstat {v : Nat} (h : s.Formed) : (s.writeRasstat v).Formed := h

theorem State.Formed.writeHqsel {v : Nat} (h : s.Formed) : (s.writeHqsel v).Formed := h

theorem State.Formed.writeReliability {off : Nat} {value : Word} (h : s.Formed) : (s.writeReliability off value).Formed := by
  grind [State.writeReliability.eq_def, State.Formed.refConfig, State.Formed.writeRascfg, State.Formed.headWrite, State.Formed.writeHqsel,
    State.Formed.writeRetcmd, State.Formed.ringConfig, State.Formed.writeRasstat]

theorem State.Formed.writeChcmd {v : Nat} (h : s.Formed) : (s.writeChcmd v).Formed := by grind [State.writeChcmd, State.Formed.retireChan]

theorem State.Formed.writeFlcmd {value : Word} (h : s.Formed) : (s.writeFlcmd value).Formed := by
  grind [State.writeFlcmd, State.Formed.flashTrim, State.Formed.flashReloc, State.Formed.flashRetire, State.Formed.flashWrite,
    State.Formed.flashCommand]

theorem State.Formed.writeMemories {off : Nat} {value : Word} (h : s.Formed) : (s.writeMemories off value).Formed := by
  grind [State.writeMemories.eq_def, State.Formed.writeFlcmd, State.Formed.writeChcmd, State.Formed]

theorem State.Formed.writeThcfg {v : Nat} (h : s.Formed) : (s.writeThcfg v).Formed := by grind [State.writeThcfg, State.Formed]

theorem State.Formed.writePlatform {off : Nat} {value : Word} (h : s.Formed) : (s.writePlatform off value).Formed := by
  grind [State.writePlatform.eq_def, State.Formed.mgmtTerminate, State.Formed.mgmtResume, State.Formed.writeThcfg, State.Formed]

theorem State.Formed.registerWrite {off size : Nat} {value : Word} (h : s.Formed) : (s.registerWrite off size value).Formed := by
  grind [State.registerWrite, State.Formed.writeMemories, State.Formed.writeReliability, State.Formed.writeSq, State.Formed.served,
    State.Formed.writePlatform, State.Formed.configWrite, State.Formed.writeHost]

end Sys2Proof.Machine
end

section
/-! PROOF. What every step ends with. -/
namespace Sys2Proof.Machine

variable {s : State}

theorem State.Formed.hush (h : s.Formed) : s.hush.Formed :=
  ⟨h.core, List.forall_mem_map.2 fun c hc => h.others c hc, h.mem, h.launch, h.agenda⟩

theorem State.Formed.finishIn {n : Nat} (h : s.Formed) : (s.finishIn n).Formed := by
  induction n generalizing s with
  | zero => exact h.hush
  | succ n ih =>
    unfold State.finishIn
    split
    · exact h
    · exact ih h.drainFlash.settle

theorem State.Formed.finish (h : s.Formed) : s.finish.Formed := by grind [State.finish, State.Formed.finishIn]

theorem State.Formed.closeEvent (h : s.Formed) : s.closeEvent.Formed := by
  grind [State.closeEvent, State.Formed.finish, State.Formed.schedule]

end Sys2Proof.Machine
end

section
/-! PROOF. The events of a core. -/
namespace Sys2Proof.Machine

variable {s : State}

theorem State.Formed.dispatchTask {k : Nat} (h : s.Formed) : (s.dispatchTask k).Formed := by
  grind [State.dispatchTask, State.Formed.startTask]

theorem State.Formed.restoreById {k id : Nat} (h : s.Formed) : (s.restoreById k id).Formed := by
  unfold State.restoreById
  split
  · next x e => exact h.restoreTask (h.launch x (List.mem_of_find?_eq_some e))
  · exact h

theorem State.Formed.deliver {k : Nat} {x : Cmd} (h : s.Formed) : (s.deliver k x).Formed := by
  grind [State.deliver, State.Formed.underOf, State.Formed.stepCopy]

theorem State.Formed.walk {k : Nat} {x : Cmd} (h : s.Formed) : (s.walk k x).Formed := by
  grind [State.walk, State.Formed.underOf, State.Formed.walkGgemm]

end Sys2Proof.Machine
end

section
/-! PROOF. The events of launches and lists. -/
namespace Sys2Proof.Machine

variable {s : State}

theorem State.Formed.acceptById {id : Nat} (h : s.Formed) : (s.acceptById id).Formed := by
  grind [State.acceptById, State.Formed.acceptLaunch]

theorem State.Formed.iterate {k : Nat} (h : s.Formed) : (s.iterate k).Formed := by grind [State.iterate, State.Formed.beginIteration]

theorem State.Formed.release {t : Nat} (h : s.Formed) : (s.release t).Formed := by grind [State.release, State.Formed.setTile]

theorem State.Formed.gangById {g : Nat} (h : s.Formed) : (s.gangById g).Formed := by grind [State.gangById, State.Formed.dispatchGang]

theorem State.Formed.completeById {l : Nat} (h : s.Formed) : (s.completeById l).Formed := by
  grind [State.completeById, State.Formed.completeLaunch]

theorem State.Formed.publishById {p : Nat} (h : s.Formed) : (s.publishById p).Formed := by
  grind [State.publishById, State.Formed.publishTag]

end Sys2Proof.Machine
end

section
/-! PROOF. Every meaning keeps the form, and a step leaves nothing waiting. -/
namespace Sys2Proof.Machine

/-- A meaning keeps the form: where it answers a state, that state is in form if the state before was. -/
def KeepsForm (m : Meaning) : Prop := ∀ s t, s.Formed → m s = .next t → t.Formed

theorem keepsForm_slotMeaning (i : Instr) : KeepsForm (slotMeaning i) := by
  intro s t h e
  rw [← Host.Outcome.next.inj e]
  exact h.runAlone.finish

theorem keepsForm_eventMeaning {b : Bool} {f : State → State} (hf : ∀ s, s.Formed → (f s).Formed) : KeepsForm (eventMeaning b f) := by
  intro s t h e
  cases b with
  | true =>
    rw [← Host.Outcome.next.inj e]
    exact (hf s h).closeEvent
  | false => cases e

theorem keepsForm_coreMeaning {k : Nat} {f : State → State} (hf : ∀ s, s.Formed → (f s).Formed) : KeepsForm (coreMeaning k f) :=
  keepsForm_eventMeaning fun _ hs => hf _ hs.focus

theorem keepsForm_clockedMeaning {k : Nat} {f : State → State} (hf : ∀ s, s.Formed → (f s).Formed) : KeepsForm (clockedMeaning k f) := by
  refine keepsForm_coreMeaning (f := fun s => if s.clockRuns k then f s else s) fun s hs => ?_
  split
  · exact hf s hs
  · exact hs

theorem keepsForm_cmdMeaning {k id : Nat} {f : State → Cmd → State} (hf : ∀ s x, s.Formed → (f s x).Formed) :
    KeepsForm (cmdMeaning k id f) :=
  keepsForm_clockedMeaning fun s hs => by
    split
    · exact hf s _ hs
    · exact hs

theorem keepsForm_groupMeaning {k g : Nat} {f : State → State} (hf : ∀ s, s.Formed → (f s).Formed) : KeepsForm (groupMeaning k g f) :=
  keepsForm_eventMeaning fun s hs => by
    dsimp only
    split
    · exact hf _ hs.focus
    · exact hs.focus

theorem keepsForm_hostMeaning {b : Bool} {off : Nat} {f : State → State} (hf : ∀ s, s.Formed → (f s).Formed) :
    KeepsForm (hostMeaning b off f) := keepsForm_eventMeaning fun _ hs => hs.served hf

theorem State.Formed.startBankRebuild {s : State} {k g j : Nat} (h : s.Formed) :
    (let s := s.focus k
     if s.clockRuns k && s.bankReached s.core g j then { s with core := s.core.startRebuild g j } else s).Formed := by
  dsimp only
  split
  · exact h.focus.withCore h.focus.core.startRebuild
  · exact h.focus

theorem keepsForm_execBundleExecution (k : Nat) : KeepsForm (execBundleExecution k) := keepsForm_clockedMeaning fun _ hs => hs.bundleStep

theorem keepsForm_execResultDelivery (k : Nat) : KeepsForm (execResultDelivery k) :=
  keepsForm_clockedMeaning (f := fun s => { s with core := s.core.deliverNext }) fun _ hs => hs.withCore hs.core.deliverNext

theorem keepsForm_execVariableResultWrite (k id : Nat) : KeepsForm (execVariableResultWrite k id) :=
  keepsForm_clockedMeaning fun _ hs => hs.writeVarNow

theorem keepsForm_execAccumulatorEventAct (k : Nat) : KeepsForm (execAccumulatorEventAct k) :=
  keepsForm_clockedMeaning (f := fun s => { s with core := s.core.actNext }) fun _ hs => hs.withCore hs.core.actNext

theorem keepsForm_execBundleRetire (k : Nat) : KeepsForm (execBundleRetire k) := keepsForm_clockedMeaning fun _ hs => hs.retire

theorem keepsForm_execTrapEntry (k : Nat) : KeepsForm (execTrapEntry k) := keepsForm_clockedMeaning fun _ hs => hs.takeRaised

theorem keepsForm_execStreamDeadlockTrap (k : Nat) : KeepsForm (execStreamDeadlockTrap k) :=
  keepsForm_clockedMeaning fun _ hs => hs.deadlockTrap

theorem keepsForm_execTaskDispatch (k : Nat) : KeepsForm (execTaskDispatch k) := keepsForm_clockedMeaning fun _ hs => hs.dispatchTask

theorem keepsForm_execPreemptAtPoint (k : Nat) : KeepsForm (execPreemptAtPoint k) := keepsForm_clockedMeaning fun _ hs => hs.preemptPoint

theorem keepsForm_execPreemptionLimitExpiry (k : Nat) : KeepsForm (execPreemptionLimitExpiry k) :=
  keepsForm_coreMeaning (f := fun s => s.expireLimit k) fun _ hs => hs.expireLimit

theorem keepsForm_execForcedStop (k : Nat) : KeepsForm (execForcedStop k) := keepsForm_clockedMeaning fun _ hs => hs.forceStop

theorem keepsForm_execForcedStopEscalation (k : Nat) : KeepsForm (execForcedStopEscalation k) :=
  keepsForm_clockedMeaning fun _ hs => hs.escalate

theorem keepsForm_execSaveComplete (k : Nat) : KeepsForm (execSaveComplete k) := keepsForm_clockedMeaning fun _ hs => hs.completeSave

theorem keepsForm_execTaskRestore (k id : Nat) : KeepsForm (execTaskRestore k id) := keepsForm_clockedMeaning fun _ hs => hs.restoreById

theorem keepsForm_execEngineCommandStart (k id : Nat) : KeepsForm (execEngineCommandStart k id) :=
  keepsForm_cmdMeaning fun _ _ hs => hs.startCommand

theorem keepsForm_execCopySectorDelivery (k id : Nat) : KeepsForm (execCopySectorDelivery k id) :=
  keepsForm_cmdMeaning fun _ _ hs => hs.deliver

theorem keepsForm_execCommandCompletion (k id : Nat) : KeepsForm (execCommandCompletion k id) :=
  keepsForm_cmdMeaning fun _ _ hs => hs.completeCommand

theorem keepsForm_execLaunchAccept (id : Nat) : KeepsForm (execLaunchAccept id) := keepsForm_eventMeaning fun _ hs => hs.acceptById

theorem keepsForm_execTaskCompletion (k : Nat) : KeepsForm (execTaskCompletion k) := keepsForm_clockedMeaning fun _ hs => hs.completeTask

theorem keepsForm_execListSubmit (j : Nat) (addr : Word) : KeepsForm (execListSubmit j addr) :=
  keepsForm_hostMeaning fun _ hs => hs.submitList

theorem keepsForm_execExpfAccept (k id : Nat) : KeepsForm (execExpfAccept k id) := keepsForm_cmdMeaning fun _ _ hs => hs.acceptExpf

theorem keepsForm_execGgemmWalk (k id : Nat) : KeepsForm (execGgemmWalk k id) := keepsForm_cmdMeaning fun _ _ hs => hs.walk

theorem keepsForm_execCreate (c : Nat) : KeepsForm (execCreate c) := keepsForm_hostMeaning fun _ hs => hs.createCtx

theorem keepsForm_execSuspend (c : Nat) : KeepsForm (execSuspend c) := keepsForm_hostMeaning fun _ hs => hs.suspendCtx

theorem keepsForm_execResume (c : Nat) : KeepsForm (execResume c) := keepsForm_hostMeaning fun _ hs => hs.resumeCtx

theorem keepsForm_execTerminate (c : Nat) : KeepsForm (execTerminate c) := keepsForm_hostMeaning fun _ hs => hs.terminateCtx

theorem keepsForm_execInvall (c : Nat) : KeepsForm (execInvall c) := keepsForm_hostMeaning fun _ hs => hs.invallCtx

theorem keepsForm_execLlcWriteback (pa : Nat) : KeepsForm (execLlcWriteback pa) := keepsForm_eventMeaning fun _ hs => hs.llcWriteback

theorem keepsForm_execRetireFrame (frame : Nat) : KeepsForm (execRetireFrame frame) := keepsForm_hostMeaning fun _ hs => hs.retireFrame

theorem keepsForm_execRetireCore (k : Nat) : KeepsForm (execRetireCore k) := keepsForm_hostMeaning fun _ hs => hs.retireCoreStart

theorem keepsForm_execRefereeConfigWrite (seed : Bool) (value : Word) : KeepsForm (execRefereeConfigWrite seed value) :=
  keepsForm_hostMeaning fun _ hs => hs.refConfig

theorem keepsForm_execRingConfigWrite (size : Bool) (value : Word) : KeepsForm (execRingConfigWrite size value) :=
  keepsForm_hostMeaning fun _ hs => hs.ringConfig

theorem keepsForm_execRlheadWrite (value : Word) : KeepsForm (execRlheadWrite value) := keepsForm_hostMeaning fun _ hs => hs.headWrite

theorem keepsForm_execRegisterWrite (off size : Nat) (value : Word) : KeepsForm (execRegisterWrite off size value) :=
  keepsForm_eventMeaning fun _ hs => hs.registerWrite

theorem keepsForm_execBpstart (value : Word) : KeepsForm (execBpstart value) := keepsForm_hostMeaning fun _ hs => hs.hostStart

theorem keepsForm_execBar2Read (pa n : Nat) : KeepsForm (execBar2Read pa n) := keepsForm_eventMeaning fun _ hs => hs.bar2Read

theorem keepsForm_execBar2Write (pa : Nat) (data : List Byte) : KeepsForm (execBar2Write pa data) :=
  keepsForm_eventMeaning fun _ hs => hs.bar2Write

theorem keepsForm_execHostSnoop (hpa : Nat) (kind : Snoop) : KeepsForm (execHostSnoop hpa kind) :=
  keepsForm_eventMeaning fun _ hs => hs.snoop

theorem keepsForm_execPeerIncomingAccess (acc : PeerAccess) : KeepsForm (execPeerIncomingAccess acc) :=
  keepsForm_eventMeaning fun _ hs => hs.peerAccess

theorem keepsForm_execRetireChannel (q : Nat) : KeepsForm (execRetireChannel q) := keepsForm_hostMeaning fun _ hs => hs.retireChan

theorem keepsForm_execFlashWrite (value : Word) (failed : Bool) : KeepsForm (execFlashWrite value failed) :=
  keepsForm_hostMeaning fun _ hs => hs.flashWrite

theorem keepsForm_execFlashTrim (value : Word) : KeepsForm (execFlashTrim value) := keepsForm_hostMeaning fun _ hs => hs.flashTrim

theorem keepsForm_execFlashReloc (value : Word) : KeepsForm (execFlashReloc value) := keepsForm_hostMeaning fun _ hs => hs.flashReloc

theorem keepsForm_execFlashRetire (value : Word) : KeepsForm (execFlashRetire value) := keepsForm_hostMeaning fun _ hs => hs.flashRetire

theorem keepsForm_execBootPhaseComplete (result : BootResult) : KeepsForm (execBootPhaseComplete result) :=
  keepsForm_eventMeaning fun _ hs => hs.bootPhase

theorem keepsForm_execLoad (index : Nat) (key : BitVec 512) : KeepsForm (execLoad index key) :=
  keepsForm_eventMeaning fun _ hs => hs.keyLoad

theorem keepsForm_execClear (index : Nat) : KeepsForm (execClear index) := keepsForm_eventMeaning fun _ hs => hs.keyClear

theorem keepsForm_execMgmtResume (k : Nat) : KeepsForm (execMgmtResume k) := keepsForm_hostMeaning fun _ hs => hs.mgmtResume

theorem keepsForm_execMgmtTerminate (k : Nat) : KeepsForm (execMgmtTerminate k) := keepsForm_hostMeaning fun _ hs => hs.mgmtTerminate

theorem keepsForm_execSoftError (t : ErrTarget) : KeepsForm (execSoftError t) := keepsForm_eventMeaning fun _ hs => hs.softError

theorem keepsForm_execPoolArbitration (k : Nat) (reqs : List PoolReq) : KeepsForm (execPoolArbitration k reqs) :=
  keepsForm_clockedMeaning (f := fun s => { s with core := s.core.arbitrate reqs }) fun _ hs => hs.withCore hs.core.arbitrate

theorem keepsForm_execParityUpdate (k g : Nat) : KeepsForm (execParityUpdate k g) :=
  keepsForm_groupMeaning (f := fun s => { s with core := s.core.updateParity g false }) fun _ hs => hs.withCore hs.core.updateParity

theorem keepsForm_execParityRecompute (k g : Nat) : KeepsForm (execParityRecompute k g) :=
  keepsForm_groupMeaning (f := fun s => { s with core := s.core.updateParity g true }) fun _ hs => hs.withCore hs.core.updateParity

theorem keepsForm_execPoolFreezeEnd (k : Nat) : KeepsForm (execPoolFreezeEnd k) :=
  keepsForm_clockedMeaning (f := fun s => { s with core := { s.core with freeze := 0 } }) fun _ hs => hs.withCore hs.core

theorem keepsForm_execBankRetirementStart (k g j : Nat) : KeepsForm (execBankRetirementStart k g j) :=
  keepsForm_eventMeaning fun _ hs => hs.startBankRebuild

theorem keepsForm_execBankRetirementComplete (k g : Nat) : KeepsForm (execBankRetirementComplete k g) :=
  keepsForm_groupMeaning (f := fun s => s.endRebuild k g) fun _ hs => hs.endRebuild

theorem keepsForm_execRangeIterationBegin (k : Nat) : KeepsForm (execRangeIterationBegin k) :=
  keepsForm_eventMeaning fun _ hs => hs.iterate

theorem keepsForm_execWorkRequest (k : Nat) : KeepsForm (execWorkRequest k) := keepsForm_eventMeaning fun _ hs => hs.requestWork

theorem keepsForm_execTileLaunchable (t : Nat) : KeepsForm (execTileLaunchable t) := keepsForm_eventMeaning fun _ hs => hs.release

theorem keepsForm_execGangDispatch (g : Nat) : KeepsForm (execGangDispatch g) := keepsForm_eventMeaning fun _ hs => hs.gangById

theorem keepsForm_execLaunchCompletion (l : Nat) : KeepsForm (execLaunchCompletion l) :=
  keepsForm_eventMeaning fun _ hs => hs.completeById

theorem keepsForm_execTagPublication (p : Nat) : KeepsForm (execTagPublication p) := keepsForm_eventMeaning fun _ hs => hs.publishById

theorem keepsForm_execLaunch (j : Nat) : KeepsForm (execLaunch j) := keepsForm_eventMeaning fun _ hs => hs.listLaunch

theorem keepsForm_execWaitTokenWord (j : Nat) : KeepsForm (execWaitTokenWord j) := keepsForm_eventMeaning fun _ hs => hs.listWaitWord

theorem keepsForm_execWaitTokenWordSatisfied (j : Nat) : KeepsForm (execWaitTokenWordSatisfied j) :=
  keepsForm_eventMeaning fun _ hs => hs.listWordMet

theorem keepsForm_execPublish (j : Nat) : KeepsForm (execPublish j) := keepsForm_eventMeaning fun _ hs => hs.listPublish

theorem keepsForm_execCondSkip (j : Nat) : KeepsForm (execCondSkip j) := keepsForm_eventMeaning fun _ hs => hs.listSkip

theorem keepsForm_execJump (j : Nat) : KeepsForm (execJump j) := keepsForm_eventMeaning fun _ hs => hs.listJump

theorem keepsForm_execListCall (j : Nat) : KeepsForm (execListCall j) := keepsForm_eventMeaning fun _ hs => hs.listCallEntry

theorem keepsForm_execListReturn (j : Nat) : KeepsForm (execListReturn j) := keepsForm_eventMeaning fun _ hs => hs.listReturnEntry

theorem keepsForm_execListEnd (j : Nat) : KeepsForm (execListEnd j) := keepsForm_eventMeaning fun _ hs => hs.listEndEntry

theorem keepsForm_execStreamClear (j : Nat) : KeepsForm (execStreamClear j) := keepsForm_eventMeaning fun _ hs => hs.listClear

theorem keepsForm_execBullpenReadStart (h : Nat) : KeepsForm (execBullpenReadStart h) :=
  keepsForm_eventMeaning fun _ hs => hs.bullpenStart

theorem keepsForm_execStagingComplete (h : Nat) : KeepsForm (execStagingComplete h) :=
  keepsForm_eventMeaning fun _ hs => hs.completeStaging

theorem keepsForm_execStagingFailure (h code : Nat) : KeepsForm (execStagingFailure h code) :=
  keepsForm_eventMeaning fun _ hs => hs.failStaging

theorem keepsForm_execDeadlineMiss (h : Nat) : KeepsForm (execDeadlineMiss h) := keepsForm_eventMeaning fun _ hs => hs.missDeadline

theorem keepsForm_execCoreRetirementComplete (k : Nat) : KeepsForm (execCoreRetirementComplete k) :=
  keepsForm_eventMeaning fun _ hs => hs.endCoreRetirement

theorem keepsForm_execRefereeReplay (id core : Nat) (sig : Option Word) : KeepsForm (execRefereeReplay id core sig) :=
  keepsForm_eventMeaning fun _ hs => hs.replay

theorem keepsForm_execRefereeThirdReplay (id core : Nat) (sig : Option Word) : KeepsForm (execRefereeThirdReplay id core sig) :=
  keepsForm_eventMeaning fun _ hs => hs.thirdReplay

theorem keepsForm_execPeerStoreNotPerformed (k id code : Nat) : KeepsForm (execPeerStoreNotPerformed k id code) :=
  keepsForm_coreMeaning (f := fun s => s.storeNotPerformed k id code) fun _ hs => hs.storeNotPerformed

theorem keepsForm_execPortDown (p : Fin 4) : KeepsForm (execPortDown p) := keepsForm_eventMeaning fun _ hs => hs.setPort

theorem keepsForm_execPortUp (p : Fin 4) : KeepsForm (execPortUp p) := keepsForm_eventMeaning fun _ hs => hs.setPort

theorem keepsForm_execHbmRd (q gran : Nat) : KeepsForm (execHbmRd q gran) := keepsForm_eventMeaning fun _ hs => hs.hbmRequest

theorem keepsForm_execHbmWr (q gran : Nat) (data : BitVec 256) : KeepsForm (execHbmWr q gran data) :=
  keepsForm_eventMeaning fun _ hs => hs.hbmRequest

theorem keepsForm_execHbmWrm (q gran : Nat) (byteMask : BitVec 32) (data : BitVec 256) : KeepsForm (execHbmWrm q gran byteMask data) :=
  keepsForm_eventMeaning fun _ hs => hs.hbmRequest

theorem keepsForm_execHbmReply (q tag : Nat) : KeepsForm (execHbmReply q tag) := keepsForm_eventMeaning fun _ hs => hs.hbmPerform

theorem keepsForm_execChannelDrainComplete : KeepsForm execChannelDrainComplete := keepsForm_eventMeaning fun _ hs => hs.drainDone

theorem keepsForm_execChannelCopyComplete : KeepsForm execChannelCopyComplete := keepsForm_eventMeaning fun _ hs => hs.copyDone

theorem keepsForm_execFlashPageRead (u page : Nat) (handle : Option Nat) : KeepsForm (execFlashPageRead u page handle) :=
  keepsForm_eventMeaning fun _ hs => hs.readPage

theorem keepsForm_execFlashPageReadComplete (id : Nat) (result : FlashResult) : KeepsForm (execFlashPageReadComplete id result) :=
  keepsForm_eventMeaning fun _ hs => hs.pageDone

theorem keepsForm_execRelocationSwitch (st b : Nat) : KeepsForm (execRelocationSwitch st b) :=
  keepsForm_eventMeaning fun _ hs => hs.switchBlock

theorem keepsForm_execBlockErase (st b : Nat) (failed : Bool) : KeepsForm (execBlockErase st b failed) :=
  keepsForm_eventMeaning fun _ hs => hs.eraseBlock

theorem keepsForm_execDeferredRelocationStart (st : Nat) : KeepsForm (execDeferredRelocationStart st) :=
  keepsForm_eventMeaning fun _ hs => hs.startDeferred

theorem keepsForm_execFlcmdComplete : KeepsForm execFlcmdComplete := keepsForm_eventMeaning fun _ hs => hs.flashDone

theorem keepsForm_execReset : KeepsForm execReset := keepsForm_eventMeaning fun _ hs => hs.doReset

theorem keepsForm_execGetVersion : KeepsForm execGetVersion := keepsForm_eventMeaning fun _ hs => hs.spdmStep

theorem keepsForm_execGetCapabilities : KeepsForm execGetCapabilities := keepsForm_eventMeaning fun _ hs => hs.spdmStep

theorem keepsForm_execNegotiateAlgorithms : KeepsForm execNegotiateAlgorithms := keepsForm_eventMeaning fun _ hs => hs.spdmStep

theorem keepsForm_execGetDigests : KeepsForm execGetDigests := keepsForm_eventMeaning fun _ hs => hs.spdmStep

theorem keepsForm_execGetCertificate : KeepsForm execGetCertificate := keepsForm_eventMeaning fun _ hs => hs.spdmStep

theorem keepsForm_execChallenge (nonce : BitVec 256) : KeepsForm (execChallenge nonce) := keepsForm_eventMeaning fun _ hs => hs.spdmStep

theorem keepsForm_execGetMeasurements (index : Nat) : KeepsForm (execGetMeasurements index) :=
  keepsForm_eventMeaning fun _ hs => hs.spdmStep

theorem keepsForm_execKeyExchange : KeepsForm execKeyExchange := keepsForm_eventMeaning fun _ hs => hs.spdmStep

theorem keepsForm_execFinish : KeepsForm execFinish := keepsForm_eventMeaning fun _ hs => hs.spdmStep

theorem keepsForm_execThermalThrottleDown (b : BlockId) : KeepsForm (execThermalThrottleDown b) :=
  keepsForm_eventMeaning fun _ hs => hs.throttleDown

theorem keepsForm_execThermalThrottleUp (b : BlockId) : KeepsForm (execThermalThrottleUp b) :=
  keepsForm_eventMeaning fun _ hs => hs.throttleUp

theorem keepsForm_execThermalClockStop (b : BlockId) : KeepsForm (execThermalClockStop b) :=
  keepsForm_eventMeaning fun _ hs => hs.clockStop

theorem keepsForm_execThermalClockRestart (b : BlockId) : KeepsForm (execThermalClockRestart b) :=
  keepsForm_eventMeaning fun _ hs => hs.clockRestart

theorem keepsForm_execDroopStretch (b : BlockId) : KeepsForm (execDroopStretch b) := keepsForm_eventMeaning fun _ hs => hs.tick

theorem keepsForm_execPeerStoreAcknowledged (k id : Nat) : KeepsForm (execPeerStoreAcknowledged k id) :=
  keepsForm_coreMeaning (f := fun s => s.storeAcknowledged k id) fun _ hs => hs.storeAcknowledged

theorem keepsForm_execHostLinkDown : KeepsForm execHostLinkDown := keepsForm_eventMeaning fun _ hs => hs.linkDown

theorem keepsForm_execHostLinkTrain : KeepsForm execHostLinkTrain := keepsForm_eventMeaning fun _ hs => hs.linkTrain

theorem keepsForm_exec (i : Instr) : KeepsForm (exec i) := by
  cases i
  case bundleExecution => exact keepsForm_execBundleExecution _
  case resultDelivery => exact keepsForm_execResultDelivery _
  case variableResultWrite => exact keepsForm_execVariableResultWrite _ _
  case accumulatorEventAct => exact keepsForm_execAccumulatorEventAct _
  case bundleRetire => exact keepsForm_execBundleRetire _
  case trapEntry => exact keepsForm_execTrapEntry _
  case streamDeadlockTrap => exact keepsForm_execStreamDeadlockTrap _
  case taskDispatch => exact keepsForm_execTaskDispatch _
  case preemptAtPoint => exact keepsForm_execPreemptAtPoint _
  case preemptionLimitExpiry => exact keepsForm_execPreemptionLimitExpiry _
  case forcedStop => exact keepsForm_execForcedStop _
  case forcedStopEscalation => exact keepsForm_execForcedStopEscalation _
  case saveComplete => exact keepsForm_execSaveComplete _
  case taskRestore => exact keepsForm_execTaskRestore _ _
  case engineCommandStart => exact keepsForm_execEngineCommandStart _ _
  case copySectorDelivery => exact keepsForm_execCopySectorDelivery _ _
  case commandCompletion => exact keepsForm_execCommandCompletion _ _
  case launchAccept => exact keepsForm_execLaunchAccept _
  case taskCompletion => exact keepsForm_execTaskCompletion _
  case listSubmit => exact keepsForm_execListSubmit _ _
  case expfAccept => exact keepsForm_execExpfAccept _ _
  case ggemmWalk => exact keepsForm_execGgemmWalk _ _
  case create => exact keepsForm_execCreate _
  case suspend => exact keepsForm_execSuspend _
  case resume => exact keepsForm_execResume _
  case terminate => exact keepsForm_execTerminate _
  case invall => exact keepsForm_execInvall _
  case llcWriteback => exact keepsForm_execLlcWriteback _
  case retireFrame => exact keepsForm_execRetireFrame _
  case retireCore => exact keepsForm_execRetireCore _
  case refereeConfigWrite => exact keepsForm_execRefereeConfigWrite _ _
  case ringConfigWrite => exact keepsForm_execRingConfigWrite _ _
  case rlheadWrite => exact keepsForm_execRlheadWrite _
  case registerWrite => exact keepsForm_execRegisterWrite _ _ _
  case bpstart => exact keepsForm_execBpstart _
  case bar2Read => exact keepsForm_execBar2Read _ _
  case bar2Write => exact keepsForm_execBar2Write _ _
  case hostSnoop => exact keepsForm_execHostSnoop _ _
  case peerIncomingAccess => exact keepsForm_execPeerIncomingAccess _
  case retireChannel => exact keepsForm_execRetireChannel _
  case flashWrite => exact keepsForm_execFlashWrite _ _
  case flashTrim => exact keepsForm_execFlashTrim _
  case flashReloc => exact keepsForm_execFlashReloc _
  case flashRetire => exact keepsForm_execFlashRetire _
  case bootPhaseComplete => exact keepsForm_execBootPhaseComplete _
  case load => exact keepsForm_execLoad _ _
  case clear => exact keepsForm_execClear _
  case mgmtResume => exact keepsForm_execMgmtResume _
  case mgmtTerminate => exact keepsForm_execMgmtTerminate _
  case softError => exact keepsForm_execSoftError _
  case poolArbitration => exact keepsForm_execPoolArbitration _ _
  case parityUpdate => exact keepsForm_execParityUpdate _ _
  case parityRecompute => exact keepsForm_execParityRecompute _ _
  case poolFreezeEnd => exact keepsForm_execPoolFreezeEnd _
  case bankRetirementStart => exact keepsForm_execBankRetirementStart _ _ _
  case bankRetirementComplete => exact keepsForm_execBankRetirementComplete _ _
  case rangeIterationBegin => exact keepsForm_execRangeIterationBegin _
  case workRequest => exact keepsForm_execWorkRequest _
  case tileLaunchable => exact keepsForm_execTileLaunchable _
  case gangDispatch => exact keepsForm_execGangDispatch _
  case launchCompletion => exact keepsForm_execLaunchCompletion _
  case tagPublication => exact keepsForm_execTagPublication _
  case launch => exact keepsForm_execLaunch _
  case waitTokenWord => exact keepsForm_execWaitTokenWord _
  case waitTokenWordSatisfied => exact keepsForm_execWaitTokenWordSatisfied _
  case publish => exact keepsForm_execPublish _
  case condSkip => exact keepsForm_execCondSkip _
  case jump => exact keepsForm_execJump _
  case listCall => exact keepsForm_execListCall _
  case listReturn => exact keepsForm_execListReturn _
  case listEnd => exact keepsForm_execListEnd _
  case streamClear => exact keepsForm_execStreamClear _
  case bullpenReadStart => exact keepsForm_execBullpenReadStart _
  case stagingComplete => exact keepsForm_execStagingComplete _
  case stagingFailure => exact keepsForm_execStagingFailure _ _
  case deadlineMiss => exact keepsForm_execDeadlineMiss _
  case coreRetirementComplete => exact keepsForm_execCoreRetirementComplete _
  case refereeReplay => exact keepsForm_execRefereeReplay _ _ _
  case refereeThirdReplay => exact keepsForm_execRefereeThirdReplay _ _ _
  case peerStoreNotPerformed => exact keepsForm_execPeerStoreNotPerformed _ _ _
  case portDown => exact keepsForm_execPortDown _
  case portUp => exact keepsForm_execPortUp _
  case hbmRd => exact keepsForm_execHbmRd _ _
  case hbmWr => exact keepsForm_execHbmWr _ _ _
  case hbmWrm => exact keepsForm_execHbmWrm _ _ _ _
  case hbmReply => exact keepsForm_execHbmReply _ _
  case channelDrainComplete => exact keepsForm_execChannelDrainComplete
  case channelCopyComplete => exact keepsForm_execChannelCopyComplete
  case flashPageRead => exact keepsForm_execFlashPageRead _ _ _
  case flashPageReadComplete => exact keepsForm_execFlashPageReadComplete _ _
  case relocationSwitch => exact keepsForm_execRelocationSwitch _ _
  case blockErase => exact keepsForm_execBlockErase _ _ _
  case deferredRelocationStart => exact keepsForm_execDeferredRelocationStart _
  case flcmdComplete => exact keepsForm_execFlcmdComplete
  case reset => exact keepsForm_execReset
  case getVersion => exact keepsForm_execGetVersion
  case getCapabilities => exact keepsForm_execGetCapabilities
  case negotiateAlgorithms => exact keepsForm_execNegotiateAlgorithms
  case getDigests => exact keepsForm_execGetDigests
  case getCertificate => exact keepsForm_execGetCertificate
  case challenge => exact keepsForm_execChallenge _
  case getMeasurements => exact keepsForm_execGetMeasurements _
  case keyExchange => exact keepsForm_execKeyExchange
  case finish => exact keepsForm_execFinish
  case thermalThrottleDown => exact keepsForm_execThermalThrottleDown _
  case thermalThrottleUp => exact keepsForm_execThermalThrottleUp _
  case thermalClockStop => exact keepsForm_execThermalClockStop _
  case thermalClockRestart => exact keepsForm_execThermalClockRestart _
  case droopStretch => exact keepsForm_execDroopStretch _
  case peerStoreAcknowledged => exact keepsForm_execPeerStoreAcknowledged _ _
  case hostLinkDown => exact keepsForm_execHostLinkDown
  case hostLinkTrain => exact keepsForm_execHostLinkTrain
  all_goals exact keepsForm_slotMeaning _

/-! ## The events of the default order are meanings of the instruction set -/

/-- An event of the default order, if there is one, is the meaning of an instruction. -/
def IsExec (o : Option Meaning) : Prop := ∀ m, o = some m → ∃ i, m = exec i

theorem isExec_none : IsExec none := by rintro _ ⟨⟩

theorem isExec_some {m : Meaning} (i : Instr) (h : m = exec i) : IsExec (some m) := by
  rintro _ ⟨⟩
  exact ⟨i, h⟩

theorem isExec_when {b : Bool} {m : Meaning} (i : Instr) (h : m = exec i) : IsExec (when b m) := by
  cases b with
  | true => exact isExec_some i h
  | false => exact isExec_none

theorem isExec_orElse {o p : Option Meaning} (ho : IsExec o) (hp : IsExec p) : IsExec (o <|> p) := by
  cases o with
  | some m => exact ho
  | none => exact hp

theorem isExec_map {α : Type} {o : Option α} {f : α → Meaning} (i : α → Instr) (h : ∀ x, f x = exec (i x)) : IsExec (o.map f) := by
  cases o with
  | some x => exact isExec_some (i x) (h x)
  | none => exact isExec_none

theorem isExec_findSome? {α : Type} {l : List α} {f : α → Option Meaning} (h : ∀ x, IsExec (f x)) : IsExec (l.findSome? f) := by
  intro m e
  obtain ⟨x, _, e⟩ := List.exists_of_findSome?_eq_some e
  exact h x m e

theorem isExec_bind {α : Type} {o : Option α} {f : α → Option Meaning} (h : ∀ x, IsExec (f x)) : IsExec (o.bind f) := by
  cases o with
  | some x => exact h x
  | none => exact isExec_none

theorem isExec_saveEvent (s : State) (c : Core) : IsExec (s.saveEvent c) := by
  unfold State.saveEvent
  dsimp only
  split
  · exact isExec_when (.saveComplete _) rfl
  · split
    · exact isExec_some (.preemptAtPoint _) rfl
    · split
      · exact isExec_some (.forcedStop _) rfl
      · exact isExec_when (.preemptionLimitExpiry _) rfl

theorem isExec_poolEvent (s : State) (c : Core) : IsExec (s.poolEvent c) := by
  unfold State.poolEvent
  dsimp only
  split
  · exact isExec_some (.poolFreezeEnd _) rfl
  · refine isExec_orElse (isExec_findSome? fun g => ?_) (isExec_when (.poolArbitration _ _) rfl)
    split
    · exact isExec_some (.bankRetirementComplete _ _) rfl
    · split
      · exact isExec_none
      · split
        · exact isExec_some (.bankRetirementStart _ _ _) rfl
        · split
          · exact isExec_some (.poolArbitration _ _) rfl
          · split
            · exact isExec_some (.parityRecompute _ _) rfl
            · exact isExec_some (.parityUpdate _ _) rfl
        · exact isExec_none

theorem isExec_waitEvent (c : Core) : IsExec (waitEvent c) := by
  have hw (a b : Bool) : IsExec (when a (execResultDelivery c.kid) <|> when b (execAccumulatorEventAct c.kid)) :=
    isExec_orElse (isExec_when (.resultDelivery _) rfl) (isExec_when (.accumulatorEventAct _) rfl)
  unfold waitEvent
  dsimp only
  split
  · exact hw _ _
  · split
    · exact hw _ _
    · exact isExec_none

theorem isExec_stuckEvent (s : State) (c : Core) : IsExec (s.stuckEvent c) := by
  refine isExec_orElse (isExec_when (.streamDeadlockTrap _) rfl) ?_
  split
  · exact isExec_none
  · split
    · exact isExec_some (.preemptionLimitExpiry _) rfl
    · exact isExec_when (.forcedStopEscalation _) rfl

theorem isExec_cmdEvent (s : State) (k : Nat) (x : Cmd) : IsExec (s.cmdEvent k x) := by
  unfold State.cmdEvent
  cases s.commandMoves k x with
  | none => exact isExec_none
  | some m =>
    cases m with
    | start => exact isExec_some (.engineCommandStart _ _) rfl
    | deliver => exact isExec_some (.copySectorDelivery _ _) rfl
    | complete => exact isExec_some (.commandCompletion _ _) rfl
    | accept => exact isExec_some (.expfAccept _ _) rfl
    | walk => exact isExec_some (.ggemmWalk _ _) rfl

theorem isExec_preludeEvent (s : State) (c : Core) : IsExec (s.preludeEvent c) :=
  isExec_orElse (isExec_when (.bundleRetire _) rfl) <|
  isExec_orElse (isExec_when (.trapEntry _) rfl) <|
  isExec_orElse (isExec_saveEvent s c) <|
  isExec_orElse (isExec_poolEvent s c) <|
  isExec_orElse (isExec_map (fun v => .variableResultWrite c.kid v.id) fun _ => rfl) <|
  isExec_orElse (isExec_map (fun p => .peerStoreAcknowledged c.kid p.id) fun _ => rfl) <|
  isExec_findSome? (isExec_cmdEvent s c.kid)

theorem isExec_coreEvent (s : State) (c : Core) : IsExec (s.coreEvent c) := by
  unfold State.coreEvent
  dsimp only
  split
  · exact isExec_none
  · exact isExec_orElse (isExec_preludeEvent s c) <| isExec_orElse (isExec_when (.bundleExecution _) rfl) <|
      isExec_orElse (isExec_waitEvent c) <| isExec_orElse (isExec_when (.taskCompletion _) rfl) (isExec_stuckEvent s c)

theorem isExec_restoreEvent (s : State) : IsExec s.restoreEvent :=
  isExec_findSome? fun x => by
    split
    · exact isExec_none
    · exact isExec_map (fun k => .taskRestore k x.id) fun _ => rfl

theorem isExec_launchEvent (s : State) : IsExec s.launchEvent := by
  refine isExec_orElse (isExec_map (fun r => .launchAccept r.id) fun _ => rfl) <|
    isExec_orElse (isExec_map (fun t => .tileLaunchable t.id) fun _ => rfl) <|
    isExec_orElse (isExec_map (fun p => .tagPublication p.id) fun _ => rfl) <|
    isExec_orElse (isExec_map (fun l => .launchCompletion l.id) fun _ => rfl) <|
    isExec_orElse (isExec_map (fun g => .gangDispatch g.id) fun _ => rfl) <|
    isExec_orElse (isExec_restoreEvent s) <|
    isExec_orElse (isExec_map (fun t => .taskDispatch t.core) fun _ => rfl) <|
    isExec_orElse (isExec_map (fun k => .rangeIterationBegin k) fun _ => rfl) ?_
  split
  · exact isExec_map (fun k => .workRequest k) fun _ => rfl
  · exact isExec_none

theorem isExec_stagingEvent (s : State) : IsExec s.stagingEvent :=
  isExec_bind fun x => by
    split
    · exact isExec_some (.stagingFailure _ _) rfl
    · split
      · exact isExec_map (fun p => .flashPageRead (p / 4) (p % 4) (some x.num)) fun _ => rfl
      · exact isExec_some (.stagingComplete _) rfl

theorem isExec_expertEvent (s : State) : IsExec s.expertEvent :=
  isExec_orElse (isExec_map (fun e => .deadlineMiss e.handle) fun _ => rfl) <|
  isExec_orElse (isExec_map (fun e => .bullpenReadStart e.handle) fun _ => rfl) (isExec_stagingEvent s)

theorem isExec_auditEvent (s : State) : IsExec s.auditEvent := by
  unfold State.auditEvent
  split
  · next e _ => exact isExec_map (fun k => .refereeThirdReplay e.num k none) fun _ => rfl
  · exact isExec_bind fun e => isExec_map (fun k => .refereeReplay e.num k none) fun _ => rfl

theorem isExec_hbmEvent (s : State) : IsExec s.hbmEvent :=
  isExec_orElse (isExec_findSome? fun y => isExec_map (fun r => .hbmReply y.num r.tag) fun _ => rfl) <|
  isExec_orElse (isExec_when .channelDrainComplete rfl) (isExec_when .channelCopyComplete rfl)

theorem isExec_flashEvent (s : State) : IsExec s.flashEvent :=
  isExec_orElse (isExec_map (fun r => .flashPageReadComplete r.id .good) fun _ => rfl) <|
  isExec_orElse (isExec_map (fun x => .relocationSwitch x.stack x.num) fun _ => rfl) <|
  isExec_orElse (isExec_map (fun x => .blockErase x.stack x.num false) fun _ => rfl) <|
  isExec_orElse (isExec_map (fun x => .deferredRelocationStart x.1) fun _ => rfl) (isExec_when .flcmdComplete rfl)

theorem exists_entryEvent (s : State) (j : Nat) : ∃ i, s.entryEvent j = exec i := by
  unfold State.entryEvent
  split
  · exact ⟨.waitTokenWord j, rfl⟩
  · exact ⟨.publish j, rfl⟩
  · exact ⟨.condSkip j, rfl⟩
  · exact ⟨.jump j, rfl⟩
  · exact ⟨.listCall j, rfl⟩
  · exact ⟨.listReturn j, rfl⟩
  · exact ⟨.listEnd j, rfl⟩
  · exact ⟨.streamClear j, rfl⟩
  · exact ⟨.launch j, rfl⟩

theorem isExec_listEvent (s : State) : IsExec s.listEvent := by
  refine isExec_orElse (isExec_map (fun j => .waitTokenWordSatisfied j) fun _ => rfl) fun m e => ?_
  obtain ⟨j, _, rfl⟩ := Option.map_eq_some_iff.1 e
  exact exists_entryEvent s j

theorem isExec_packageEvent (s : State) : IsExec s.packageEvent :=
  isExec_orElse (isExec_map (fun x => .coreRetirementComplete x.1) fun _ => rfl) <| isExec_orElse (isExec_launchEvent s) <|
  isExec_orElse (isExec_expertEvent s) <| isExec_orElse (isExec_auditEvent s) <| isExec_orElse (isExec_hbmEvent s) <|
  isExec_orElse (isExec_flashEvent s) (isExec_listEvent s)

theorem isExec_nextEvent (s : State) : IsExec s.nextEvent := by
  have hc : IsExec s.coresEvent := isExec_findSome? (isExec_coreEvent s)
  unfold State.nextEvent
  split
  · exact isExec_when (.bootPhaseComplete _) rfl
  · split
    · exact isExec_orElse (isExec_packageEvent s) hc
    · exact isExec_orElse hc (isExec_packageEvent s)

/-! ## Every step keeps the form of a state -/

/-- What a step can do: run the agenda's first event, run the event that the default order gives, or let time pass. -/
theorem step_cases {s t : State} (h : step s = .next t) :
    (∃ i rest, s.agenda = i :: rest ∧ exec i { s with agenda := rest } = .next t) ∨
    (∃ i, exec i { s with turn := !s.turn } = .next t) ∨ s.tick.schedule.finish = t := by
  unfold step at h
  split at h
  · next i rest e => exact .inl ⟨i, rest, e, h⟩
  · split at h
    · next f e =>
      obtain ⟨i, rfl⟩ := isExec_nextEvent s f e
      exact .inr (.inl ⟨i, h⟩)
    · exact .inr (.inr (Host.Outcome.next.inj h))

theorem quiet_of_exec {i : Instr} {s t : State} (h : exec i s = .next t) : t.quiet := by
  obtain ⟨e, -⟩ | ⟨f, e⟩ := exec_shape i
  · rw [e] at h
    rw [← Host.Outcome.next.inj h]
    exact State.quiet_finish _
  · rw [e] at h
    cases hi : i.eventOk with
    | true =>
      rw [hi] at h
      rw [← Host.Outcome.next.inj h]
      exact State.quiet_finish _
    | false =>
      rw [hi] at h
      cases h

theorem quiet_of_step {s t : State} (h : step s = .next t) : t.quiet := by
  obtain ⟨i, rest, -, h⟩ | ⟨i, h⟩ | h := step_cases h
  · exact quiet_of_exec h
  · exact quiet_of_exec h
  · rw [← h]
    exact State.quiet_finish _

theorem State.Formed.step {s t : State} (h : s.Formed) (e : Machine.step s = .next t) : t.Formed := by
  obtain ⟨i, rest, ha, e⟩ | ⟨i, e⟩ | e := step_cases e
  · have ha (j) (hj : j ∈ rest) : j.eventOk = true := h.agenda j (ha ▸ List.mem_cons_of_mem i hj)
    exact keepsForm_exec i { s with agenda := rest } t ⟨h.core, h.others, h.mem, h.launch, ha⟩ e
  · have hs : ({ s with turn := !s.turn } : State).Formed := h
    exact keepsForm_exec i _ t hs e
  · rw [← e]
    exact h.tick.schedule.finish

/-- Settles O43: a step ends quiet because every meaning ends in `State.finish`, and keeps the form because every function of the model
that a meaning calls does. -/
theorem stepsLeaveNothing : Obligations.StepsLeaveNothing := by
  refine ⟨fun s t h => quiet_of_step h, fun s t h e => ?_⟩
  obtain ⟨hm, hn, -⟩ := h
  obtain ⟨hm', hn'⟩ := (State.formed_iff t).1 (((State.formed_iff s).2 ⟨hm, hn⟩).step e)
  exact ⟨hm', hn', quiet_of_step e⟩

end Sys2Proof.Machine
end

end

section
/-! PROOF. The package right after reset. -/
namespace Sys2Proof.Machine

/-- At reset every core is the core of its number right after reset. -/
theorem State.coreAt_reset (k : Nat) : State.reset.coreAt k = Core.reset k := by
  have seeded : ({ Core.reset k with refState := refSeed State.reset.rel.seed k } : Core) = Core.reset k := rfl
  unfold State.coreAt
  split
  · next h => exact (congrArg Core.reset h).symm
  · exact seeded

theorem State.quiet_reset : State.reset.quiet := by
  refine ⟨rfl, rfl, rfl, rfl, fun c hc => ?_⟩
  obtain rfl := List.mem_singleton.1 hc
  exact ⟨rfl, rfl⟩

theorem State.sound_reset : State.reset.sound := fun c hc => by
  obtain rfl := List.mem_singleton.1 hc
  rfl

/-- Settles O44: every core is `Core.reset`, whose registers are replicated zeros, and a reset state leaves nothing waiting. -/
theorem resetState : Obligations.ResetState := by
  obtain ⟨hm, hn⟩ := (State.formed_iff _).1 State.formed_reset
  refine ⟨fun k _ => ?_, rfl, rfl, rfl, rfl, rfl, rfl, rfl, rfl, rfl, rfl, rfl, rfl, rfl, rfl, rfl, hm, hn,
    State.quiet_reset, State.sound_reset⟩
  rw [State.coreAt_reset]
  refine ⟨rfl, rfl, fun _ => rfl, fun n => ?_, fun z => ?_, fun g => ?_, rfl, fun n => ?_, rfl, rfl, rfl, fun q => ?_⟩
  · exact Vector.getElem_replicate ..
  · exact Vector.getElem_replicate ..
  · exact Vector.getElem_replicate ..
  · simp [Core.isEmpty, Core.reset]
  · exact Vector.getElem_replicate ..

end Sys2Proof.Machine
end

section
/-! PROOF. Events that a core performs itself. -/
namespace Sys2Proof.Machine

theorem State.focus_plat (s : State) (k : Nat) : (s.focus k).plat = s.plat := by
  unfold State.focus
  split
  · rfl
  · split <;> rfl

theorem State.clockRuns_focus (s : State) (j k : Nat) : (s.focus j).clockRuns k = s.clockRuns k := by
  simp only [State.clockRuns, State.clockStopped, State.focus_plat]

/-- A core whose clock runs performs its event. -/
theorem happens_clocked {i : Instr} {k : Nat} {f : State → State} {s : State} (hi : exec i s = clockedMeaning k f s)
    (hk : inCores k = true) (hc : s.clockRuns k = true) : Happens i s (f (s.focus k)) := by
  rw [Happens, hi, clockedMeaning, coreMeaning_next hk, State.clockRuns_focus, hc]
  rfl

end Sys2Proof.Machine
end

section
/-! PROOF. What the delivery of a value writes (R12, R16, R50, R52, R54, R134, R212). -/
namespace Sys2Proof.Machine

/-! ## One register or queue written -/

theorem Core.getS_setS (c : Core) (m n : Fin 64) (w : Word) : (c.setS m w).getS n = if m = n ∧ n ≠ 0 then w else c.getS n := by
  unfold Core.setS Core.getS
  by_cases hn : n = 0
  · simp [hn]
  · by_cases hm : m = 0
    · simp [hm, hn, Ne.symm hn]
    · simp [hm, hn, Vector.getElem_set, Fin.ext_iff]

theorem Core.getM_setM (c : Core) (m n : Fin 8) (w : Mask) : (c.setM m w).getM n = if m = n ∧ n ≠ 0 then w else c.getM n := by
  unfold Core.setM Core.getM
  by_cases hn : n = 0
  · simp [hn]
  · by_cases hm : m = 0
    · simp [hm, hn, Ne.symm hn]
    · simp [hm, hn, Vector.getElem_set, Fin.ext_iff]

/-- Bit n of the mask of flag m. -/
theorem getLsbD_flagMask {m n : Nat} (hm : m < 8) : (1#8 <<< m).getLsbD n = decide (m = n) := by
  have power := BitVec.getLsbD_twoPow (w := 8) m n
  rwa [decide_eq_true hm, Bool.true_and] at power

theorem Core.getF_setF (c : Core) (m n : Fin 8) (b : Bool) : (c.setF m b).getF n = if m = n ∧ n ≠ 0 then b else c.getF n := by
  unfold Core.setF Core.getF
  by_cases hn : n = 0
  · simp [hn]
  · by_cases hm : m = 0
    · simp [hm, hn, Ne.symm hn]
    · have hlt : n.val < 8 := n.isLt
      have mask := getLsbD_flagMask (n := n.val) m.isLt
      have same : m = n ↔ m.val = n.val := Fin.ext_iff
      cases b
      all_goals
        simp [-BitVec.getLsbD_shiftLeft, -BitVec.getLsbD_eq_getElem, hm, hn, hlt, mask, same]
        grind

theorem ofNat_eq_iff {k m : Nat} [NeZero k] (hm : m < k) (n : Fin k) : Fin.ofNat k m = n ↔ m = n.val := by
  rw [Fin.ext_iff, Fin.val_ofNat, Nat.mod_eq_of_lt hm]

/-- Only registers and queues may differ, with what the pool keeps of parity, poison and errors. -/
def Core.DataOnly (c d : Core) : Prop :=
  d = { c with
    sregs := d.sregs, vregs := d.vregs, mregs := d.mregs, flags := d.flags, aps := d.aps, dq := d.dq, eq := d.eq, cq := d.cq
    groups := d.groups, poison := d.poison, latent := d.latent, bankUe := d.bankUe, freeze := d.freeze, recs := d.recs }

/-- A delivery changes registers, queues and, with a vector register, what the pool keeps; nothing else. -/
theorem Core.writeDest_data (c : Core) (dst : Dest) (x : Val) (issue : Nat) : c.DataOnly (c.writeDest dst x issue) := by
  cases dst with
  | v n =>
    obtain ⟨d, hd, hv⟩ := c.setV_frame n x.bits
    rw [Core.writeDest, hv, hd]
    rfl
  | s n => rw [Core.writeDest, Core.setS_frame]; rfl
  | m n => rw [Core.writeDest, Core.setM_frame]; rfl
  | f n => rw [Core.writeDest, Core.setF_frame]; rfl
  | _ => rfl

theorem Latches.get_push (l : Latches) (u z : LUnit) (y : Val) :
    (l.push u y).get z = if z = u then (y :: l.get z).take 4 else l.get z := by
  cases u <;> cases z <;> rfl

theorem Core.Wrote.none (c : Core) (x : Val) (issue : Nat) : c.Wrote c x issue .none := by
  simp [Core.Wrote]

/-- R12, R50, R52, R134, R212: a delivery writes the register, the end of the queue or the reserved entry that it names. -/
theorem Core.writeDest_wrote (c : Core) {dst : Dest} (x : Val) (issue : Nat) (h : dst.exists' = true) :
    c.Wrote (c.writeDest dst x issue) x issue dst := by
  cases dst with
  | none => exact .none c x issue
  | s m =>
    have hm : m < 64 := by simpa [Dest.exists'] using h
    have written (n : Fin 64) : (c.setS (Fin.ofNat 64 m) x.toWord).getS n = if Dest.s m = .s n ∧ n ≠ 0 then x.toWord else c.getS n := by
      rw [Core.getS_setS]
      simp only [ofNat_eq_iff hm, Dest.s.injEq]
    refine ⟨written, ?_⟩
    rw [Core.writeDest, Core.setS_frame]
    exact ⟨fun _ => rfl, fun _ => rfl, fun _ => rfl, fun _ => rfl, fun _ => ⟨nofun, nofun, fun _ _ => rfl⟩, fun _ => rfl, rfl⟩
  | v m =>
    obtain ⟨d, hd, hv⟩ := c.setV_frame m x.bits
    have written (n : Fin 64) : (c.setV m x.bits).getV n = if Dest.v m = .v n then x.bits else c.getV n := by
      rw [hv]
      simp [Core.getV, Vector.getElem_setIfInBounds]
    refine ⟨?_, written, ?_⟩
    all_goals rw [Core.writeDest, hv, hd]
    · exact fun _ => rfl
    · exact ⟨fun _ => rfl, fun _ => rfl, fun _ => rfl, fun _ => ⟨nofun, nofun, fun _ _ => rfl⟩, fun _ => rfl, rfl⟩
  | m m =>
    have hm : m < 8 := by simpa [Dest.exists'] using h
    have written (n : Fin 8) : (c.setM (Fin.ofNat 8 m) (x.bits.setWidth 256)).getM n =
        if Dest.m m = .m n ∧ n ≠ 0 then x.bits.setWidth 256 else c.getM n := by
      rw [Core.getM_setM]
      simp only [ofNat_eq_iff hm, Dest.m.injEq]
    refine ⟨?_, ?_, written, ?_⟩
    all_goals rw [Core.writeDest, Core.setM_frame]
    · exact fun _ => rfl
    · exact fun _ => rfl
    · exact ⟨fun _ => rfl, fun _ => rfl, fun _ => ⟨nofun, nofun, fun _ _ => rfl⟩, fun _ => rfl, rfl⟩
  | f m =>
    have hm : m < 8 := by simpa [Dest.exists'] using h
    have written (n : Fin 8) : (c.setF (Fin.ofNat 8 m) (x.bits.getLsbD 0)).getF n =
        if Dest.f m = .f n ∧ n ≠ 0 then x.bits.getLsbD 0 else c.getF n := by
      rw [Core.getF_setF]
      simp only [ofNat_eq_iff hm, Dest.f.injEq]
    refine ⟨?_, ?_, ?_, written, ?_⟩
    all_goals rw [Core.writeDest, Core.setF_frame]
    · exact fun _ => rfl
    · exact fun _ => rfl
    · exact fun _ => rfl
    · exact ⟨fun _ => rfl, fun _ => ⟨nofun, nofun, fun _ _ => rfl⟩, fun _ => rfl, rfl⟩
  | ap m =>
    have written (n : Fin 8) : (c.aps.setIfInBounds m (x.bits.setWidth 192))[n] =
        if Dest.ap m = .ap n then x.bits.setWidth 192 else c.aps[n] := by
      simp [Vector.getElem_setIfInBounds]
    exact ⟨fun _ => rfl, fun _ => rfl, fun _ => rfl, fun _ => rfl, written, fun _ => ⟨nofun, nofun, fun _ _ => rfl⟩, fun _ => rfl, rfl⟩
  | dq m =>
    have hm : m < 4 := by simpa [Dest.exists'] using h
    let q := c.dq.setIfInBounds m (c.dq.toList.getD m [] ++ [QEntry.of x issue])
    have written (n : Fin 4) : (Dest.dq m = .dq n → q[n] = c.dq[n] ++ [⟨x, issue, none⟩]) ∧ (Dest.dq m ≠ .dq n → q[n] = c.dq[n]) := by
      simp +contextual [q, QEntry.of]
    exact ⟨fun _ => rfl, fun _ => rfl, fun _ => rfl, fun _ => rfl, fun _ => rfl,
      fun n => ⟨(written n).1, nofun, fun e _ => (written n).2 e⟩, fun _ => rfl, rfl⟩
  | eq m =>
    have written (n : Fin 2) : (c.eq.setIfInBounds m (c.eq.toList.getD m [] ++ [QEntry.of x issue]))[n] =
        if Dest.eq m = .eq n then c.eq[n] ++ [⟨x, issue, none⟩] else c.eq[n] := by
      by_cases e : m = n.val
      · subst e
        simp [QEntry.of, n.isLt]
      · simp [e]
    exact ⟨fun _ => rfl, fun _ => rfl, fun _ => rfl, fun _ => rfl, fun _ => rfl, fun _ => ⟨nofun, nofun, fun _ _ => rfl⟩, written, rfl⟩
  | cq =>
    exact ⟨fun _ => rfl, fun _ => rfl, fun _ => rfl, fun _ => rfl, fun _ => rfl, fun _ => ⟨nofun, nofun, fun _ _ => rfl⟩,
      fun _ => rfl, rfl⟩
  | entry m id =>
    let q := c.dq.setIfInBounds m ((c.dq.toList.getD m []).map
      fun (e : QEntry) => if e.reserved == some id then { e with val := x, reserved := none } else e)
    have written (n : Fin 4) : (∀ i, Dest.entry m id = .entry n i → q[n] = c.dq[n].map
          fun (e : QEntry) => if e.reserved = some i then { e with val := x, reserved := none } else e) ∧
        ((∀ i, Dest.entry m id ≠ .entry n i) → q[n] = c.dq[n]) := by
      simp +contextual [q]
    exact ⟨fun _ => rfl, fun _ => rfl, fun _ => rfl, fun _ => rfl, fun _ => rfl,
      fun n => ⟨nofun, (written n).1, fun _ e => (written n).2 e⟩, fun _ => rfl, rfl⟩

/-! ## A result written (R41, R52, R54) -/

section
variable {c d : Core} (h : c.DataOnly d)
include h

theorem Core.DataOnly.pending : d.pending = c.pending := by rw [h]
theorem Core.DataOnly.vars : d.vars = c.vars := by rw [h]
theorem Core.DataOnly.latches : d.latches = c.latches := by rw [h]
theorem Core.DataOnly.tokens : d.tokens = c.tokens := by rw [h]

end

/-- What is written, entered in a latch file and completed leaves everything else of a core. -/
theorem Core.DataOnly.sameBut {c d : Core} (h : c.DataOnly d) (l : Latches) (t : Vector Token 32) :
    c.sameBut { d with latches := l, tokens := t } := by
  unfold Core.sameBut
  rw [h]

theorem Core.setToken_tokens (c : Core) (k : Nat) (t : Token) :
    (c.setToken k t).tokens = if k = 0 then c.tokens else c.tokens.setIfInBounds k t := by
  unfold Core.setToken
  split <;> rfl

/-- Whether a token completes depends on the tokens alone. -/
theorem Core.setToken_of_tokens {c d : Core} (h : d.tokens = c.tokens) (k : Nat) (t : Token) :
    d.setToken k t = { d with tokens := (c.setToken k t).tokens } := by
  rw [Core.setToken_frame, Core.setToken_tokens, Core.setToken_tokens, h]

/-- A delivery is a write of the destination, an entry into a latch file and the completion of a token. -/
theorem Core.deliver_eq (c : Core) (p : Pending) :
    ∃ l, c.deliver p = { c.writeDest p.dst p.val p.issue with latches := l, tokens := (c.setToken p.tok .complete).tokens } ∧
      (p.latch = none → l = c.latches) ∧ ∀ u y, p.latch = some (u, y) → l = c.latches.push u y := by
  have data := c.writeDest_data p.dst p.val p.issue
  unfold Core.deliver
  generalize c.writeDest p.dst p.val p.issue = d at data ⊢
  cases hl : p.latch with
  | none =>
    refine ⟨d.latches, ?_, fun _ => data.latches, fun _ _ e => absurd e.symm (Option.some_ne_none _)⟩
    dsimp only
    rw [Core.setToken_of_tokens data.tokens]
  | some e =>
    obtain ⟨u, y⟩ := e
    refine ⟨d.latches.push u y, ?_, fun e => absurd e (Option.some_ne_none _), fun _ _ e => ?_⟩
    · dsimp only
      rw [Core.setToken_of_tokens (d := { d with latches := d.latches.push u y }) data.tokens]
    · cases e
      rw [data.latches]

/-- A variable-latency result is a write of its destination and the completion of its token. -/
theorem Core.writeVar_eq (c : Core) (v : VarRes) (x : Val) :
    c.writeVar v x = { ({ c with vars := c.vars.filter fun w => w.id != v.id } : Core).writeDest v.dst (v.dst.takes x) v.issue with
      tokens := (c.setToken v.tok .complete).tokens } := by
  have data := ({ c with vars := c.vars.filter fun w => w.id != v.id } : Core).writeDest_data v.dst (v.dst.takes x) v.issue
  unfold Core.writeVar
  rw [Core.setToken_of_tokens (c := c) data.tokens]

/-! ## The events -/

theorem Core.frozen_of_freeze {c : Core} (h : c.freeze = 0) : c.frozen = false := by
  simp [Core.frozen, h]

/-- The oldest result is delivered at its step, unless the pool holds it back (R52, R191, R196). -/
theorem Core.deliverNext_due {c : Core} {p : Pending} {rest : List Pending} (hp : c.pending = p :: rest) (hd : p.due ≤ c.step)
    (hf : c.freeze = 0) (hh : c.heldDest p.dst = false) : c.deliverNext = ({ c with pending := rest } : Core).deliver p := by
  simp [Core.deliverNext, hp, Core.frozen_of_freeze hf, hh, hd]

/-- A result that may be served is written with the value it then has (R54, R277). -/
theorem State.writeVarNow_ready {s : State} {id : Nat} {y : VarRes} (hy : s.core.vars.find? (fun z => z.id == id) = some y)
    (hi : y.issue < s.core.step) (hf : s.core.freeze = 0) (hh : s.core.heldDest y.dst = false) (hr : s.core.varReady y = true) :
    s.writeVarNow id =
      (s.sampling y.kind).withCore ((s.sampling y.kind).core.writeVar y ((s.sampling y.kind).sample (s.sampling y.kind).core y.kind)) := by
  simp [State.writeVarNow, hy, hi, Core.frozen_of_freeze hf, hh, hr, State.withCore]

theorem happens_resultDelivery {k : Nat} {s : State} (hk : inCores k = true) (hc : s.clockRuns k = true) :
    Happens (.resultDelivery k) s ((s.focus k).withCore (s.focus k).core.deliverNext) :=
  happens_clocked (f := fun s => { s with core := s.core.deliverNext }) rfl hk hc

theorem happens_variableResultWrite {k id : Nat} {s : State} (hk : inCores k = true) (hc : s.clockRuns k = true) :
    Happens (.variableResultWrite k id) s ((s.focus k).writeVarNow id) :=
  happens_clocked (f := fun s => s.writeVarNow id) rfl hk hc

/-- Settles O45: a delivery is a write of its destination besides latch file and token, by `Core.deliver_eq` and `Core.writeVar_eq`. -/
theorem deliveries : Obligations.Deliveries := by
  intro k s hk hc v c
  refine ⟨fun p rest hp hd hdst hf hh => ?_, ?_⟩
  · let e : Core := { c with pending := rest }
    have data := e.writeDest_data p.dst p.val p.issue
    have wrote := e.writeDest_wrote p.val p.issue hdst
    obtain ⟨l, hl, unlatched, latched⟩ := e.deliver_eq p
    have happens : Happens (.resultDelivery k) s (v.withCore (e.deliver p)) :=
      Core.deliverNext_due hp hd hf hh ▸ happens_resultDelivery hk hc
    refine ⟨e.deliver p, ?_⟩
    rw [hl] at happens ⊢
    refine ⟨wrote, data.sameBut l _, data.pending, data.vars, ?_, unlatched, fun u y h z => ?_, happens⟩
    · rw [Core.setToken_tokens, Core.setToken_tokens]
    · rw [latched u y h, Latches.get_push]
  · intro id y x hy hi hdst hf hh hr w b hx
    obtain rfl : y.id = id := by simpa using List.find?_some hy
    have sampled : w.sample b y.kind = x := by
      cases hkind : y.kind <;> rw [hkind] at hx <;> exact hx.symm
    let e : Core := { b with vars := b.vars.filter fun z => z.id != y.id }
    have data := e.writeDest_data y.dst (y.dst.takes x) y.issue
    have wrote := e.writeDest_wrote (y.dst.takes x) y.issue hdst
    have happens : Happens (.variableResultWrite k y.id) s (w.withCore (b.writeVar y x)) :=
      sampled ▸ State.writeVarNow_ready hy hi hf hh hr ▸ happens_variableResultWrite hk hc
    refine ⟨b.writeVar y x, ?_⟩
    rw [Core.writeVar_eq] at happens ⊢
    exact ⟨wrote, data.sameBut _ _, data.pending, data.latches, data.vars, rfl, happens⟩

end Sys2Proof.Machine
end

section
/-! PROOF. Reading the sources of an operation changes queues alone (R47, R50, R282). -/
namespace Sys2Proof.Machine

/-- Only the queues, and what is under way to them, may differ. -/
def Core.QueuesOnly (c d : Core) : Prop := d = { c with dq := d.dq, eq := d.eq, cq := d.cq, pending := d.pending, vars := d.vars }

theorem Core.QueuesOnly.refl (c : Core) : c.QueuesOnly c := rfl

theorem Core.QueuesOnly.trans {c d e : Core} (h : c.QueuesOnly d) (h' : d.QueuesOnly e) : c.QueuesOnly e := by
  unfold Core.QueuesOnly at *
  rw [h', h]

section
variable {c d : Core} (h : c.QueuesOnly d)
include h

theorem Core.QueuesOnly.act : d.act = c.act := by rw [h]
theorem Core.QueuesOnly.cur : d.cur = c.cur := by rw [h]
theorem Core.QueuesOnly.recs : d.recs = c.recs := by rw [h]
theorem Core.QueuesOnly.audits : d.audits = c.audits := by rw [h]

end

theorem Core.reserved?_queues {c d : Core} {e : Bool} {dst : Dest} {id : Nat} {y : Val} (h : c.reserved? e dst id = some (d, y)) :
    c.QueuesOnly d := by
  unfold Core.reserved? at h
  split at h
  · cases h; rfl
  · cases h
  · split at h
    · split at h
      · cases h
      · obtain ⟨x, -, hx⟩ := Option.map_eq_some_iff.1 h
        cases hx; rfl
    · cases h

theorem Core.pop_queues {c d : Core} {field : Nat} {p : Port} {e : Bool} {dst : Dest} {q : List QEntry}
    {put : Core → List QEntry → Core} {x : Val} (hput : ∀ c q, Core.QueuesOnly c (put c q))
    (h : c.pop field p e dst q put = .ok (d, x)) : c.QueuesOnly d := by
  unfold Core.pop at h
  split at h
  · split at h
    · cases h; exact hput ..
    · split at h
      · next hr => cases h; exact (Core.reserved?_queues hr).trans (hput ..)
      · cases h
  · split at h
    · cases h
    · split at h
      · cases h
      · cases h; rfl

theorem Core.readPort_queues {c d : Core} {field : Nat} {p : Port} {e : Bool} {x : Val} (h : c.readPort field p e = .ok (d, x)) :
    c.QueuesOnly d := by
  have same {b : Bool} {f : Stop} {v : Val} (h : (if b = true then Except.error f else .ok (c, v) : Res (Core × Val)) = .ok (d, x)) :
      c.QueuesOnly d := by
    split at h <;> cases h
    rfl
  cases p with
  | dq n => exact Core.pop_queues (put := fun c q => { c with dq := c.dq.set n q }) (fun _ _ => rfl) h
  | eq n => exact Core.pop_queues (put := fun c q => { c with eq := c.eq.set n q }) (fun _ _ => rfl) h
  | cq => exact Core.pop_queues (put := fun c q => { c with cq := q }) (fun _ _ => rfl) h
  | s n => exact same h
  | v n => exact same h
  | m n => exact same h
  | latch u a =>
    simp only [Core.readPort] at h
    split at h <;> cases h
    rfl
  | _ => cases h; rfl

theorem Core.readField_queues {c d : Core} {cls : OpClass} {field : Nat} {p : Port} {e : Bool} {x : Val}
    (h : c.readField cls field p e = .ok (d, x)) : c.QueuesOnly d := by
  unfold Core.readField at h
  split at h
  · cases h; rfl
  · split at h <;> cases h
    rfl
  · exact Core.readPort_queues h

/-- What answers a bound computation was answered by both its parts. -/
theorem Except.bind_ok {ε α β : Type} {r : Except ε α} {f : α → Except ε β} {b : β} (h : (r >>= f) = .ok b) :
    ∃ a, r = .ok a ∧ f a = .ok b := by
  cases r with
  | error e => cases h
  | ok a => exact ⟨a, rfl, h⟩

theorem Core.sources_queues {i : Instr} {c d : Core} {x : Srcs} (h : c.sources i = .ok (d, x)) : c.QueuesOnly d := by
  unfold Core.sources at h
  split at h
  · cases h; rfl
  · obtain ⟨⟨c1, x1⟩, h1, h⟩ := Except.bind_ok h
    obtain ⟨⟨c2, x2⟩, h2, h⟩ := Except.bind_ok h
    obtain ⟨⟨c3, x3⟩, h3, h⟩ := Except.bind_ok h
    obtain ⟨-, -, h⟩ := Except.bind_ok h
    split at h
    · cases h
    obtain ⟨-, -, h⟩ := Except.bind_ok h
    cases h
    exact ((Core.readField_queues h1).trans (Core.readField_queues h2)).trans (Core.readField_queues h3)

theorem Core.operands_queues {i : Instr} {c d : Core} {x : Srcs} (h : c.operands i = .ok (d, x)) : c.QueuesOnly d :=
  Core.sources_queues (Core.operands_ok h).1


end Sys2Proof.Machine
end

section
/-! PROOF. Special registers (R25 to R30, R40, R116). -/
namespace Sys2Proof.Machine

/-! ## BR operations that leave no action -/

/-- A BR operation whose issue leaves no action goes on in sequence. -/
theorem completes_sequence {i : Instr} {row : Row} {o : Op} {s : State} {d : Core} {f : Core → Res Core}
    (h : i.info = some (row, o)) (g : s.core.guardHolds o = true) (hb : i.scheduleBad s.core.env = none) (hs : row.slot = .br)
    (hi : ∀ s, issue i s = onCore f s) (hf : f s.core.atBranch = .ok d) (hd : d.act = .none) (hr : d.recs = s.core.recs)
    (ha : d.audits = s.core.audits) : Completes i s (s.withCore (d.goesOn s.core.bundleAddr false)) :=
  completes_branch h g hb hs hi hf (fun _ => by simp [hd]) (fun _ => by simp [hd]) (fun _ => by simp [hd])
    (Core.perform_none hd _) hr ha

theorem aloneRun_br_error {i : Instr} {row : Row} {o : Op} {s : State} {e : Stop × Option MemState} (h : i.info = some (row, o))
    (g : s.core.guardHolds o = true) (hb : i.scheduleBad s.core.env = none) (hs : row.slot = .br)
    (hi : issue i (s.withCore s.core.atBranch) = .error e) : aloneRun i s = .error (0, e) := by
  have g' : (s.withCore s.core.atBranch).core.guardHolds o = true := g
  have r : runGuarded i { s with core := { s.core with act := .none } } = .error e := (runGuarded_on h g').trans hi
  unfold aloneRun
  rw [h, hb]
  simp [hs, r]

/-- A cause other than poison leaves no record of consumed poison. -/
theorem Core.notePoison_other (c : Core) {cause : Nat} (hc : cause ≠ 0x0C) (info : Word) (found : List Nat) :
    c.notePoison (.trap cause info) found = c := by
  unfold Core.notePoison
  split
  · next h =>
    injection h with h
    exact absurd h hc
  · rfl

/-- A trap of a BR operation at its issue that touched no memory, with a cause other than poison. -/
theorem traps_branch {i : Instr} {row : Row} {o : Op} {s : State} {f : Core → Res Core} {cause : Nat} {info : Word}
    (h : i.info = some (row, o)) (g : s.core.guardHolds o = true) (hb : i.scheduleBad s.core.env = none) (hs : row.slot = .br)
    (hi : ∀ s, issue i s = onCore f s) (hf : f s.core.atBranch = .error (.trap cause info)) (hc : cause ≠ 0x0C) :
    TrapsWith i s 0 cause info := by
  have e : issue i (s.withCore s.core.atBranch) = .error (.trap cause info, none) := by
    rw [hi]; simp [onCore, liftRes, hf, bind, Except.bind]
  have a := runAlone_error (aloneRun_br_error h g hb hs e) nofun
  rw [TrapsWith, exec_slot h, slotMeaning, a]
  simp only [State.stop, Stop.trapOf, Core.notePoison_other _ hc, State.trapped, State.withCore]

/-! ## Reading and writing -/

theorem srListed_iff (i : Nat) : srListed i = true ↔ i ≤ 0x0A ∨ (0x10 ≤ i ∧ i ≤ 0x27) := by
  simp [srListed]

theorem Core.goesOn_readSr (c : Core) (addr : Word) (y : Bool) (j : Nat) : (c.goesOn addr y).readSr j = c.readSr j := rfl

theorem shift6 (v : Word) : v >>> 6 <<< 6 = BitVec.ofNat 64 (v.toNat / 64 * 64) := by
  apply BitVec.eq_of_toNat_eq
  simp [Nat.shiftRight_eq_div_pow, Nat.shiftLeft_eq]

theorem maskCause (v : Word) : v &&& 4095#64 = BitVec.ofNat 64 (v.toNat % 4096) := by
  have low : v.toNat &&& 4095 = v.toNat % 4096 := Nat.and_two_pow_sub_one_eq_mod v.toNat 12
  apply BitVec.eq_of_toNat_eq
  rw [BitVec.toNat_and, BitVec.toNat_ofNat, BitVec.toNat_ofNat, Nat.mod_eq_of_lt (by decide : 4095 < 2 ^ 64), low]
  omega

/-- The level of sr.tls and its field that an index names (R30). -/
theorem Core.readSr_tls (c : Core) {j : Nat} (hj : 0x10 ≤ j) :
    c.readSr j = ((c.tls[(j - 16) / 4]?).map fun l => l.field ((j - 16) % 4)).getD 0 := by
  have level : c.readSr j = match c.tls[(j - 16) / 4]? with
    | some l => l.field ((j - 16) % 4)
    | none => 0 := by
    unfold Core.readSr
    split <;> first | omega | rfl
  rw [level]
  cases c.tls[(j - 16) / 4]? <;> rfl

theorem Core.writeSr_tls (c : Core) {i : Nat} (hi : 0x10 ≤ i) (v : Word) : c.writeSr i v =
    { c with tls := c.tls.modify ((i - 16) / 4) fun l => l.setField ((i - 16) % 4) v } := by
  have level : c.writeSr i v = match c.tls[(i - 16) / 4]? with
    | some l => { c with tls := c.tls.set ((i - 16) / 4) (l.setField ((i - 16) % 4) v) }
    | none => c := by
    unfold Core.writeSr
    split <;> first | omega | rfl
  rw [level, List.modify_eq_set_getElem?]
  cases c.tls[(i - 16) / 4]? <;> rfl

theorem Level.field_setField (l : Level) {f g : Nat} (hf : f < 4) (hg : g < 4) (v : Word) : (l.setField f v).field g =
    if g = f then (if f < 2 then BitVec.ofNat 64 (v.toNat / 64 * 64) else BitVec.ofNat 64 (v.toNat % 2 ^ 32)) else l.field g := by
  have narrow : (v.setWidth 32).setWidth 64 = BitVec.ofNat 64 (v.toNat % 2 ^ 32) := by
    apply BitVec.eq_of_toNat_eq
    simp
  interval_cases f <;> interval_cases g <;> simp [Level.setField, Level.field, shift6, narrow]

/-- Outside sr.tls a register does not depend on it. -/
theorem Core.readSr_low (c : Core) (t : List Level) {j : Nat} (hj : j ≤ 10) : ({ c with tls := t } : Core).readSr j = c.readSr j := by
  interval_cases j <;> rfl

/-- A write outside sr.tls leaves sr.tls. -/
theorem Core.writeSr_low (c : Core) {i : Nat} (hi : i ≤ 10) (v : Word) : (c.writeSr i v).tls = c.tls := by
  interval_cases i <;> rfl

theorem Core.readSr_writeSr (c : Core) {i j : Nat} (hi : srListed i = true) (hj : srListed j = true) (v : Word) :
    (c.writeSr i v).readSr j = if j = i then srAfter c i v (c.readSr i) else c.readSr j := by
  rw [srListed_iff] at hi hj
  obtain hi | ⟨hi, hi'⟩ := hi
  · obtain hj | ⟨hj, -⟩ := hj
    · by_cases hne : j = i
      · subst hne
        rw [if_pos rfl]
        interval_cases j <;> simp [Core.writeSr, srAfter, Core.readSr, shift6, maskCause]
      · rw [if_neg hne]
        interval_cases i <;> interval_cases j <;> first | rfl | exact absurd rfl hne
    · rw [Core.readSr_tls _ hj, Core.readSr_tls _ hj, Core.writeSr_low _ hi, if_neg (by omega)]
  · rw [Core.writeSr_tls _ hi]
    obtain hj | ⟨hj, -⟩ := hj
    · rw [Core.readSr_low _ _ hj, if_neg (by omega)]
    · have after : srAfter c i v (c.readSr i) = if (i - 16) / 4 < c.tls.length then
          (if (i - 16) % 4 < 2 then BitVec.ofNat 64 (v.toNat / 64 * 64) else BitVec.ofNat 64 (v.toNat % 2 ^ 32)) else c.readSr i := by
        simp only [srAfter, show i ≠ 0 ∧ i ≠ 1 ∧ i ≠ 2 ∧ i ≠ 3 ∧ i ≠ 5 by omega, hi, false_or, true_and, if_false]
      rw [after, Core.readSr_tls _ hj, Core.readSr_tls _ hj, Core.readSr_tls _ hi, List.getElem?_modify]
      have place : j = i ↔ (i - 16) / 4 = (j - 16) / 4 ∧ (j - 16) % 4 = (i - 16) % 4 := by omega
      by_cases same : (i - 16) / 4 = (j - 16) / 4
      · simp only [place, ← same, true_and]
        cases hl : c.tls[(i - 16) / 4]? with
        | none => simp [List.getElem?_eq_none_iff.1 hl]
        | some l =>
          have inside := (List.getElem?_eq_some_iff.1 hl).1
          simp [Level.field_setField, Nat.mod_lt, inside]
      · simp [place, same]

/-- MTSR changes the writable registers alone. -/
theorem Core.writeSr_frame (c : Core) {i : Nat} (hi : srListed i = true) (v : Word) :
    c.writeSr i v = { c with
      trappc := (c.writeSr i v).trappc, trapcause := (c.writeSr i v).trapcause, trapinfo := (c.writeSr i v).trapinfo
      tvec := (c.writeSr i v).tvec, rptidx := (c.writeSr i v).rptidx, tls := (c.writeSr i v).tls } := by
  obtain hi | ⟨hi, -⟩ := (srListed_iff i).1 hi
  · interval_cases i <;> rfl
  · rw [Core.writeSr_tls _ hi]

/-- The cycle counter does not run back. -/
theorem Core.cycle_le_passTime (c : Core) : c.cycle.toNat ≤ c.passTime.cycle.toNat := by
  have small := c.cycle.isLt
  simp only [Core.passTime, countOn, BitVec.toNat_ofNat]
  omega

/-! ## The operations -/

/-- The core from which MFSR reads: before each reading of the cycle counter a free time passes (R116). -/
def Core.srReader (c : Core) (i : Nat) : Core := if i = 10 then c.passTime else c

theorem Core.srReader_frame (c : Core) (i : Nat) :
    c.srReader i = { c with cycle := (c.srReader i).cycle, fresh := (c.srReader i).fresh } := by
  unfold Core.srReader
  split <;> rfl

theorem Core.srReader_act (c : Core) (i : Nat) : (c.srReader i).act = c.act := by rw [c.srReader_frame i]
theorem Core.srReader_cur (c : Core) (i : Nat) : (c.srReader i).cur = c.cur := by rw [c.srReader_frame i]
theorem Core.srReader_recs (c : Core) (i : Nat) : (c.srReader i).recs = c.recs := by rw [c.srReader_frame i]
theorem Core.srReader_audits (c : Core) (i : Nat) : (c.srReader i).audits = c.audits := by rw [c.srReader_frame i]

theorem Core.cycle_le_srReader (c : Core) (i : Nat) : c.cycle.toNat ≤ (c.srReader i).cycle.toNat := by
  unfold Core.srReader
  split
  · exact c.cycle_le_passTime
  · exact le_rfl

theorem info_mfsr (o : Op) : (Instr.mfsr o).info = some (.br 0x12 .sd .sa .none .none .none (.cls 0), o) := rfl

theorem info_mtsr (o : Op) : (Instr.mtsr o).info = some (.br 0x13 .none .sa .sa .none, o) := rfl

section
variable {o : Op} {s : State} {c d : Core} {x : Srcs}

theorem issueMfsr_listed (h : c.operands (.mfsr o) = .ok (d, x)) (hl : srListed x.a.toWord.toNat = true) :
    issueMfsr o c = .ok ((d.srReader x.a.toWord.toNat).owes 0 .br o.dst
      (.word ((d.srReader x.a.toWord.toNat).srSeen x.a.toWord.toNat))) := by
  simp only [issueMfsr, h, hl, bind, Except.bind, if_true]
  rw [Core.issueResult_fixed (info_mfsr o) 0 rfl rfl]
  rfl

theorem issueMfsr_unlisted (h : c.operands (.mfsr o) = .ok (d, x)) (hl : srListed x.a.toWord.toNat = false) :
    issueMfsr o c = .error (.trap 0x04 x.a.toWord) := by
  simp [issueMfsr, h, hl, bind, Except.bind]

theorem issueMtsr_listed (h : c.operands (.mtsr o) = .ok (d, x)) (hl : srListed x.a.toWord.toNat = true) :
    issueMtsr o c = .ok { d with act := .mtsr x.a.toWord.toNat x.b.toWord } := by
  simp [issueMtsr, h, hl, bind, Except.bind]

theorem issueMtsr_unlisted (h : c.operands (.mtsr o) = .ok (d, x)) (hl : srListed x.a.toWord.toNat = false) :
    issueMtsr o c = .error (.trap 0x04 x.a.toWord) := by
  simp [issueMtsr, h, hl, bind, Except.bind]

/-- MFSR owes what it reads and goes on in sequence. -/
theorem completes_mfsr (g : s.core.guardHolds o = true) (h : s.core.atBranch.operands (.mfsr o) = .ok (c, x))
    (hl : srListed x.a.toWord.toNat = true) :
    let d := c.srReader x.a.toWord.toNat
    Completes (.mfsr o) s (s.withCore ((d.owes 0 .br o.dst (.word (d.srSeen x.a.toWord.toNat))).goesOn s.core.bundleAddr false)) := by
  intro d
  have read : s.core.atBranch.QueuesOnly c := Core.operands_queues h
  have idle : d.act = .none := (c.srReader_act _).trans read.act
  exact completes_sequence (info_mfsr o) g rfl rfl (fun _ => rfl) (issueMfsr_listed h hl) idle
    ((c.srReader_recs _).trans read.recs) ((c.srReader_audits _).trans read.audits)

/-- MTSR goes on in sequence and then writes its register. -/
theorem completes_mtsr (g : s.core.guardHolds o = true) (h : s.core.atBranch.operands (.mtsr o) = .ok (c, x))
    (hl : srListed x.a.toWord.toNat = true) :
    Completes (.mtsr o) s (s.withCore ((c.goesOn s.core.bundleAddr false).writeSr x.a.toWord.toNat x.b.toWord)) := by
  have read : s.core.atBranch.QueuesOnly c := Core.operands_queues h
  have written := (c.goesOn s.core.bundleAddr false).writeSr_frame hl x.b.toWord
  refine completes_branch (info_mtsr o) g rfl rfl (fun _ => rfl) (issueMtsr_listed h hl) nofun nofun nofun rfl ?_ ?_
  · rw [written]; exact read.recs
  · rw [written]; exact read.audits

/-- Settles O31: what the two operations read is what `Core.srSeen` gives, and a write changes the register named alone, by
`Core.readSr_writeSr`. -/
theorem specialRegisters : Obligations.SpecialRegisters := by
  intro o s c x g i register listed
  refine ⟨fun h => ?_, fun h => ⟨fun hl => ?_, fun hl => ?_⟩⟩
  · intro repeated
    refine ⟨fun hl => ?_, fun hl => ?_⟩
    · have seen : (c.srReader i).srSeen i = if i = 5 ∧ repeated = true then 0 else (c.srReader i).readSr i := by
        obtain hcur | ⟨u, hcur⟩ := Option.eq_none_or_eq_some c.cur <;> simp [Core.srSeen, Core.srReader_cur, repeated, hcur]
      refine ⟨c.srReader i, fun hi => if_neg hi, c.srReader_frame i, c.cycle_le_srReader i, ?_⟩
      rw [← seen]
      exact completes_mfsr g h ((srListed_iff i).2 hl)
    · have unlisted : srListed i = false := Bool.eq_false_iff.2 fun e => hl ((srListed_iff i).1 e)
      exact traps_branch (info_mfsr o) g rfl rfl (fun _ => rfl) (issueMfsr_unlisted h unlisted) (by decide)
  · have hi := (srListed_iff i).2 hl
    refine ⟨_, completes_mtsr g h hi, fun j hj => ?_, Core.writeSr_frame _ hi _⟩
    rw [Core.readSr_writeSr _ hi ((srListed_iff j).2 hj)]
    rfl
  · have unlisted : srListed i = false := Bool.eq_false_iff.2 fun e => hl ((srListed_iff i).1 e)
    exact traps_branch (info_mtsr o) g rfl rfl (fun _ => rfl) (issueMtsr_unlisted h unlisted) (by decide)
end

end Sys2Proof.Machine
end

section
/-! PROOF. What the source ports supply (R11 to R13, R16, R17, R19, R43, R49, R50). -/
namespace Sys2Proof.Machine

/-! ## Signed fields -/

theorem toInt_eq_num {w : Nat} (hw : 0 < w) (x : BitVec w) : x.toInt = num w false x.toNat := by
  have half : 2 ^ w = 2 * 2 ^ (w - 1) := by rw [← Nat.pow_succ', Nat.succ_eq_add_one, Nat.sub_add_cancel hw]
  have below : 2 * x.toNat < 2 ^ w ↔ x.toNat < 2 ^ (w - 1) := by omega
  simp [BitVec.toInt_eq_toNat_cond, num, below]

theorem immValue_lo (imm : Word) : immValue imm .lo = BitVec.ofInt 64 (num 32 false (imm.toNat % 2 ^ 32)) := by
  rw [immValue, BitVec.signExtend, toInt_eq_num (by decide), BitVec.toNat_setWidth]

theorem immValue_hi (imm : Word) : immValue imm .hi = BitVec.ofInt 64 (num 32 false (imm.toNat / 2 ^ 32)) := by
  have upper : ((imm >>> 32).setWidth 32).toNat = imm.toNat / 2 ^ 32 := by
    rw [BitVec.toNat_setWidth, BitVec.toNat_ushiftRight, Nat.shiftRight_eq_div_pow]
    omega
  rw [immValue, BitVec.signExtend, toInt_eq_num (by decide), upper]

theorem immValue_loz (imm : Word) : immValue imm .loz = BitVec.ofNat 64 (imm.toNat % 2 ^ 32) := by
  apply BitVec.eq_of_toNat_eq
  simp only [immValue, BitVec.toNat_setWidth, BitVec.toNat_ofNat]

/-! ## Address patterns (R19) -/

theorem apField (ap : BitVec 192) (k w : Nat) : ((ap >>> k).setWidth w).toNat = ap.toNat / 2 ^ k % 2 ^ w := by
  rw [BitVec.toNat_setWidth, BitVec.toNat_ushiftRight, Nat.shiftRight_eq_div_pow]

theorem apStride_eq (ap : BitVec 192) (k : Nat) : apStride ap k = num 20 false (ap.toNat / 2 ^ (64 + 20 * k) % 2 ^ 20) := by
  rw [apStride, toInt_eq_num (by decide), apField]

theorem apModulus_eq (ap : BitVec 192) : apModulus ap = ap.toNat / 2 ^ 24 % 2 ^ 20 := apField ..

theorem apEsize_eq (ap : BitVec 192) : apEsize ap = ap.toNat / 2 ^ 20 % 2 ^ 4 := apField ..

theorem apBase_eq (ap : BitVec 192) : apBase ap = ap.toNat % 2 ^ 20 := BitVec.toNat_setWidth ..

/-- The six terms of a pattern, each a stride times a loop index scaled by the element size. -/
def Core.apTerm (c : Core) (ap : BitVec 192) (k : Nat) : Int :=
  num 20 false (ap.toNat / 2 ^ (64 + 20 * k) % 2 ^ 20) * (c.idx k : Int) * 2 ^ (ap.toNat / 2 ^ 20 % 2 ^ 4)

theorem Core.apAddr_eq (c : Core) (n : Fin 8) :
    let w := (c.aps[n]).toNat
    let off := ((List.range 6).map (c.apTerm c.aps[n])).sum
    let modulus : Int := (w / 2 ^ 24 % 2 ^ 20 : Nat)
    c.apAddr n = (w % 2 ^ 20 : Nat) + if modulus = 0 then off else off % modulus := by
  have off : ((List.range 6).map (c.apTerm c.aps[n])).sum =
      c.apTerm c.aps[n] 0 + c.apTerm c.aps[n] 1 + c.apTerm c.aps[n] 2 + c.apTerm c.aps[n] 3 + c.apTerm c.aps[n] 4 + c.apTerm c.aps[n] 5 := by
    simp [List.range_succ, add_assoc]
  simp only [off, Core.apAddr, apStride_eq, apBase_eq, apModulus_eq, apEsize_eq, Core.apTerm, Nat.cast_pow,
    Nat.cast_ofNat, Int.natCast_eq_zero]

/-! ## Ports -/

/-- The oldest entry of a queue leaves it (R50). -/
theorem Core.pop_front (c : Core) (field : Nat) (p : Port) (e : Bool) (d : Dest) {y : QEntry} (rest : List QEntry)
    (put : Core → List QEntry → Core) (h : y.reserved = none) : c.pop field p e d (y :: rest) put = .ok (put c rest, y.val) := by
  simp [Core.pop, h]

/-- Settles O34: each port by its own case of `Core.readPort`, the address of a pattern by `Core.apAddr_eq`. -/
theorem sourceValues : Obligations.SourceValues := by
  refine ⟨fun c field e => ?_, fun c n => ?_⟩
  · intro reads
    refine ⟨fun n h => ?_, fun n h => ?_, fun n h => ?_, fun n => ?_, fun u k v h => ?_, rfl, ?_, ?_, ?_, fun k => ?_, rfl,
      fun k => rfl, fun _ => ⟨fun n y rest hq hr => ?_, fun n y rest hq hr => ?_, fun y rest hq hr => ?_⟩⟩
    · simp [reads, Core.readPort, h, Core.getS]
    · simp [reads, Core.readPort, h, Core.getV]
    · have widened : (c.getM n).setWidth 2048 = if n = 0 then (BitVec.allOnes 256).setWidth 2048 else (c.mregs[n]).setWidth 2048 :=
        apply_ite (BitVec.setWidth 2048) ..
      simp only [reads, Core.readPort, h, widened, Bool.false_eq_true, if_false]
    · simp [reads, Core.readPort, Core.getF]
    · simp [reads, Core.readPort, h]
    · simp only [reads, Core.readPort, immValue_lo]
    · simp only [reads, Core.readPort, immValue_hi]
    · simp only [reads, Core.readPort, immValue_loz]
    · simp only [reads, Core.readPort, Core.idx]
      cases c.loops[k.val]? <;> simp
    · rw [Core.readPort, hq, Core.pop_front _ _ _ _ _ _ _ hr]
    · rw [Core.readPort, hq, Core.pop_front _ _ _ _ _ _ _ hr]
    · rw [Core.readPort, hq, Core.pop_front _ _ _ _ _ _ _ hr]
  · intro w index term off modulus
    have terms : term = c.apTerm c.aps[n] := by
      funext k
      simp only [term, index, Core.apTerm, Core.idx]
      cases c.loops[k]? <;> rfl
    rw [Core.apAddr_eq, ← terms]

end Sys2Proof.Machine
end

section
/-! PROOF. Empty sources, and what stops a load of the pool (R14, R47, R193, R198, R201). -/
namespace Sys2Proof.Machine

/-! ## Empty sources -/

theorem emptyStop_waits (field : Nat) (p : Port) (queue : Bool) : emptyStop field p false queue = .stall p.toNat queue := rfl

theorem emptyStop_traps (p : Port) (queue : Bool) : emptyStop 1 p true queue = .trap 0x06 (BitVec.ofNat 64 (256 + p.toNat)) := rfl

/-- The first source decides before everything else. -/
theorem Core.operands_stop {i : Instr} {row : Row} {o : Op} {c : Core} {e : Stop} (h : i.info = some (row, o))
    (hr : c.readField row.op1 1 o.op1 o.e1 = .error e) : c.operands i = .error e := by
  simp [Core.operands, Core.sources, h, hr, bind, Except.bind]

/-- An empty scalar register blocks or traps (R14, R47). -/
theorem Core.readField_empty {c : Core} {n : Fin 64} (h : c.isEmpty (.s n) = true) (field : Nat) (e : Bool) :
    c.readField .sa field (.s n) e = .error (emptyStop field (.s n) e false) := by
  simp [Core.readField, Core.readPort, h]

theorem scalarOp_stop {i : Instr} {f : Word → Word → Word → Word} {c : Core} {e : Stop} (h : c.operands i = .error e) :
    scalarOp i f c = .error e := by
  simp [scalarOp, h, bind, Except.bind]

theorem info_add (o : Op) : (Instr.add o).info = some (.sc 0x01 .sd .sa .sa .none, o) := rfl

theorem info_lds (o : Op) : (Instr.lds o).info = some (.lm 0x08 .sd .ad (.k 0 3) .none .any (.cls 9), o) := rfl

theorem issueAdd_empty {o : Op} {c : Core} {n : Fin 64} (h1 : o.op1 = .s n) (h : c.isEmpty (.s n) = true) :
    issueAdd o c = .error (emptyStop 1 (.s n) o.e1 false) :=
  scalarOp_stop (Core.operands_stop (info_add o) (by rw [h1]; exact Core.readField_empty h 1 o.e1))

/-! ## Loads of the pool -/

section
variable {o : Op} {c d : Core} {x : Srcs} {e : Stop}

theorem issueLds_misaligned (h : c.sources (.lds o) = .ok (d, x))
    (ha : checkAlign (d.adOffset o.op1 x.a) (widthBytes x.b.toWord.toNat) = .error e) : issueLds o c = .error e := by
  simp [issueLds, h, ha, bind, Except.bind]

theorem issueLds_stops (h : c.sources (.lds o) = .ok (d, x))
    (ha : checkAlign (d.adOffset o.op1 x.a) (widthBytes x.b.toWord.toNat) = .ok ())
    (hl : d.loadPool (d.adOffset o.op1 x.a) (widthBytes x.b.toWord.toNat) = .error e) : issueLds o c = .error e := by
  simp [issueLds, h, ha, hl, bind, Except.bind]

end

theorem Core.scratchSize_le (c : Core) : c.scratchSize ≤ 786432 := by
  unfold Core.scratchSize Config.poolBytes
  omega

theorem Core.loadPool_range {c : Core} {a : Int} {n : Nat} {e : Stop} (h : c.checkRange a n = .error e) : c.loadPool a n = .error e := by
  simp [Core.loadPool, h, bind, Except.bind]

/-- Of a pool with one poisoned sector and no undetected error, a load from within that sector meets the poison. -/
theorem Core.loadPool_poison {c : Core} {a : Int} {n : Nat} {fault : Bool} (h0 : 0 ≤ a) (hs : a.toNat + n ≤ c.scratchSize) (hn : n ≠ 0)
    (hw : a.toNat % 32 + n ≤ 32) (hl : c.latent = []) (hp : c.poison = [(a.toNat / 32, fault)])
    (hg : (c.group (poolGroup a.toNat)).state ≠ 1) : c.loadPool a n = .error (.trap 0x0C (poisonInfo (a.toNat / 32, fault))) := by
  have served : c.holds a.toNat n = false := Core.holds_false fun p hp hq => by
    have same : poolGroup p = poolGroup a.toNat := by unfold poolGroup; omega
    rwa [same]
  have met : c.poisonAt a.toNat n = some (a.toNat / 32, fault) := by
    have below : a.toNat < 32 * (a.toNat / 32) + 32 := by omega
    have above : 32 * (a.toNat / 32) < a.toNat + n := by omega
    rw [Core.poisonAt, hp, List.filter_cons_of_pos (by simp only [below, above, decide_true, Bool.and_self])]
    rfl
  simp [Core.loadPool, Core.checkRange_ok h0 hs, Core.checkPoison, served, Core.senses_sound hl, met, bind, Except.bind]

/-- The offset of a poisoned sector without its reconstruction bit. -/
theorem poisonInfo_offset {x : Nat} (hx : 32 * x < 2 ^ 63) (fault : Bool) :
    poisonInfo (x, fault) &&& BitVec.ofNat 64 (2 ^ 63 - 1) = BitVec.ofNat 64 (32 * x) := by
  apply BitVec.eq_of_toNat_eq
  have low := Nat.and_two_pow_sub_one_eq_mod ((poisonInfo (x, fault)).toNat) 63
  rw [BitVec.toNat_and, BitVec.toNat_ofNat, Nat.mod_eq_of_lt (by decide : 2 ^ 63 - 1 < 2 ^ 64), low]
  cases fault <;> simp [poisonInfo] <;> omega

/-- Poison that no read of the operation itself has recorded is recorded as consumed. -/
theorem Core.notePoison_met (c : Core) (info : Word) : c.notePoison (.trap 0x0C info) [] =
    { c with recs := c.recs ++ [(0x0025, 0x0C, info &&& BitVec.ofNat 64 (2 ^ 63 - 1), 0)] } := rfl

/-- Poison that an operation outside the BR slot met is recorded as consumed, and traps (R193, R409). -/
theorem traps_poison {i : Instr} {row : Row} {o : Op} {s : State} {f : Core → Res Core} {x : Nat} {fault : Bool}
    (h : i.info = some (row, o)) (g : s.core.guardHolds o = true) (hb : i.scheduleBad s.core.env = none) (hs : row.slot ≠ .br)
    (hi : issue i s = onCore f s) (hf : f s.core = .error (.trap 0x0C (poisonInfo (x, fault)))) (hx : 32 * x < 2 ^ 63) :
    let s' := s.withCore { s.core with recs := s.core.recs ++ [(0x0025, 0x0C, BitVec.ofNat 64 (32 * x), 0)] }
    exec i s = .next (s.trapped s' row.slot.num 0x0C (poisonInfo (x, fault))).finish := by
  have e : issue i s = .error (.trap 0x0C (poisonInfo (x, fault)), none) := by rw [hi]; simp [onCore, liftRes, hf, bind, Except.bind]
  have a := runAlone_error (aloneRun_error h g hb hs e) nofun
  rw [exec_slot h, slotMeaning, a]
  simp only [State.stop, Stop.trapOf, Core.notePoison_met, poisonInfo_offset hx, State.trapped, State.withCore]

/-- Settles O36: an empty source stops the reading of the operands, a load of the pool stops at the first of its tests that fails. -/
theorem sourceTraps : Obligations.SourceTraps := by
  refine ⟨fun o s n g h1 he => ⟨fun h => ?_, fun h => ?_⟩, fun o s c x g h => ?_⟩
  · have waits := issueAdd_empty h1 he
    have slot : (Row.sc 0x01 .sd .sa .sa .none).slot.num = 1 := rfl
    rw [h, emptyStop_waits] at waits
    have port : (Port.s n).toNat < 512 := Nat.lt_trans n.isLt (by decide)
    exact slot ▸ stalls_onCore (f := issueAdd o) (info_add o) g rfl (by decide) rfl waits port
  · have trap := issueAdd_empty h1 he
    have slot : (Row.sc 0x01 .sd .sa .sa .none).slot.num = 1 := rfl
    rw [h, emptyStop_traps] at trap
    exact slot ▸ traps_onCore (f := issueAdd o) (info_add o) g rfl (by decide) rfl trap (by decide)
  · intro a n
    have slot : (Row.lm 0x08 .sd .ad (.k 0 3) .none .any (.cls 9)).slot.num = 2 := rfl
    have traps {cause : Nat} {info : Word} (hf : issueLds o s.core = .error (.trap cause info)) (hc : cause ≠ 0x0C) :
        TrapsWith (.lds o) s 2 cause info := slot ▸ traps_onCore (f := issueLds o) (info_lds o) g rfl (by decide) rfl hf hc
    have aligned (hn : (BitVec.ofInt 64 a).toNat % n = 0) : checkAlign a n = .ok () := if_pos hn
    refine ⟨fun hn => ?_, fun hn h0 => ?_, fun hn h0 hs => ?_, fun fault hn h0 hs hl hp hg => ?_⟩
    · exact traps (issueLds_misaligned h (if_neg hn)) (by decide)
    · have range : c.checkRange a n = .error (.trap 0x0A (BitVec.ofInt 64 a)) := if_pos h0
      exact traps (issueLds_stops h (aligned hn) (Core.loadPool_range range)) (by decide)
    · have range : c.checkRange a n = .error (.trap 0x0A (BitVec.ofNat 64 (max a.toNat c.scratchSize))) := by
        have positive : n ≠ 0 := (Nat.two_pow_pos _).ne'
        simp [Core.checkRange, Int.not_lt.2 h0, Nat.not_le.2 hs, positive]
      exact traps (issueLds_stops h (aligned hn) (Core.loadPool_range range)) (by decide)
    · have size : a.toNat ≤ 786432 := (Nat.le_of_add_right_le hs).trans c.scratchSize_le
      have offset : (BitVec.ofInt 64 a).toNat = a.toNat := by
        rw [BitVec.toNat_ofInt]
        omega
      have positive : 0 < n := Nat.two_pow_pos _
      have divides : n ∣ 32 := pow_dvd_pow 2 (by omega : x.b.toWord.toNat % 4 ≤ 5)
      have inside : a.toNat % 32 + n ≤ 32 := by
        rw [offset] at hn
        have step : n ∣ 32 - a.toNat % 32 := Nat.dvd_sub divides ((Nat.dvd_mod_iff divides).2 (Nat.dvd_of_mod_eq_zero hn))
        have := Nat.le_of_dvd (by omega) step
        omega
      have small : 32 * (a.toNat / 32) < 2 ^ 63 := by omega
      have met := Core.loadPool_poison h0 hs positive.ne' inside hl hp hg
      have poison : poisonInfo (a.toNat / 32, fault) = BitVec.ofNat 64 (a.toNat / 32 * 32 + if fault then 2 ^ 63 else 0) := by
        rw [poisonInfo, Nat.mul_comm]
      have trap := traps_poison (f := issueLds o) (info_lds o) g rfl (by decide) rfl (issueLds_stops h (aligned hn) met) small
      rw [slot, poison, Nat.mul_comm] at trap
      exact trap

end Sys2Proof.Machine
end

section
/-! PROOF. Accesses leave the contexts of the package as they are (R366, R370 to R372). -/
namespace Sys2Proof.Machine

variable {m : MemState}

@[simp] theorem MemState.ctxs_setChan {x : Hchan} : (m.setChan x).ctxs = m.ctxs := rfl
@[simp] theorem MemState.ctxs_dropSector {kind num : Nat} : (m.dropSector kind num).ctxs = m.ctxs := rfl

theorem MemState.ctxs_senseHbm {num : Nat} : (m.senseHbm num).1.ctxs = m.ctxs := by
  grind [MemState.senseHbm]

theorem MemState.ctxs_fillOther {num : Nat} : (m.fillOther num).ctxs = m.ctxs := by
  grind [MemState.fillOther, MemState.ctxs_senseHbm, MemState.ctxs_setChan]

theorem MemState.ctxs_readHbm {num : Nat} : (m.readHbm num).1.ctxs = m.ctxs := by
  grind [MemState.readHbm, MemState.lookup, MemState.ctxs_fillOther, MemState.ctxs_senseHbm, MemState.ctxs_setChan]

theorem MemState.ctxs_writeHbm {num : Nat} {k : HbmKind} : (m.writeHbm num k).ctxs = m.ctxs := by
  cases k <;> grind [MemState.writeHbm, MemState.arrive, MemState.performWrite, MemState.ctxs_setChan]

theorem MemState.ctxs_senseBelow {kind num : Nat} : (m.senseBelow kind num).1.ctxs = m.ctxs := by
  grind [MemState.senseBelow.eq_def, MemState.readFlash, MemState.ctxs_readHbm]

theorem MemState.ctxs_putBack {kind num : Nat} {raw : BitVec 256} {poison : Bool} : (m.putBack kind num raw poison).ctxs = m.ctxs := by
  grind [MemState.putBack.eq_def, MemState.putHost, MemState.ctxs_writeHbm]

theorem MemState.ctxs_dirtyError {x : Sector} : (m.dirtyError x).ctxs = m.ctxs := by
  grind [MemState.dirtyError, MemState.storeDirty, MemState.loseDirty, MemState.ctxs_putBack, MemState.ctxs_dropSector]

theorem MemState.ctxs_writeBack {x : Sector} : (m.writeBack x).ctxs = m.ctxs := by
  grind [MemState.writeBack, MemState.storeDirty, MemState.ctxs_dirtyError, MemState.ctxs_putBack]

theorem MemState.ctxs_holdSector {x : Sector} : (m.holdSector x).ctxs = m.ctxs := by
  grind [MemState.holdSector, MemState.ctxs_writeBack, MemState.ctxs_dropSector]

theorem MemState.ctxs_putSector {x : Sector} : (m.putSector x).ctxs = m.ctxs := by
  grind [MemState.putSector, MemState.ctxs_holdSector, MemState.ctxs_dropSector]

theorem MemState.ctxs_fetch {kind num key : Nat} : (m.fetch kind num key).1.ctxs = m.ctxs := by
  grind [MemState.fetch, MemState.ctxs_holdSector, MemState.ctxs_senseBelow]

theorem MemState.ctxs_look {kind num key : Nat} : (m.look kind num key).1.ctxs = m.ctxs := by
  grind [MemState.look, MemState.ctxs_fetch, MemState.ctxs_putSector, MemState.ctxs_writeBack, MemState.ctxs_dropSector,
    MemState.ctxs_dirtyError]

theorem MemState.ctxs_write {kind num key ctx lo n v : Nat} : (m.write kind num key ctx lo n v).1.ctxs = m.ctxs := by
  grind [MemState.write, MemState.noteChange, MemState.ctxs_look, MemState.ctxs_putSector]

theorem MemState.ctxs_entryAt {time pa : Nat} : (m.entryAt time pa).1.ctxs = m.ctxs := by
  grind [MemState.entryAt, MemState.entry, MemState.ctxs_look, MemState.ctxs_readHbm]

theorem MemState.ctxs_walkFrom {time va fuel level table : Nat} : (m.walkFrom time va fuel level table).1.ctxs = m.ctxs := by
  induction fuel generalizing m level table with
  | zero => rfl
  | succ n ih => grind [MemState.walkFrom, MemState.ctxs_entryAt]

theorem MemState.ctxs_translate {ctx va : Nat} {a : Access} : (m.translate ctx va a).1.ctxs = m.ctxs := by
  grind [MemState.translate, MemState.leaf, MemState.ctxs_walkFrom]

theorem MemState.ctxs_readBytes {t : Target} {n : Nat} : (m.readBytes t n).1.ctxs = m.ctxs := by
  induction n generalizing m t with
  | zero => rfl
  | succ n ih => grind [MemState.readBytes, MemState.ctxs_look]

theorem MemState.ctxs_writeBytes {t : Target} {ctx fuel : Nat} {bs : List Byte} : (m.writeBytes t ctx fuel bs).1.ctxs = m.ctxs := by
  induction fuel generalizing m t bs with
  | zero => grind [MemState.writeBytes.eq_def]
  | succ n ih => grind [MemState.writeBytes.eq_def, MemState.ctxs_write]

theorem MemState.ctxs_lookBytes {t : Target} {fuel n : Nat} : (m.lookBytes t fuel n).1.ctxs = m.ctxs := by
  induction fuel generalizing m t n with
  | zero => grind [MemState.lookBytes.eq_def]
  | succ k ih => grind [MemState.lookBytes.eq_def, MemState.ctxs_look]

theorem ctxs_readPieces {l : List (Target × Nat)} : (readPieces m l).1.ctxs = m.ctxs := by
  induction l generalizing m with
  | nil => rfl
  | cons a l ih => grind [readPieces, MemState.ctxs_readBytes]

theorem ctxs_lookPieces {l : List (Target × Nat)} : (lookPieces m l).1.ctxs = m.ctxs := by
  induction l generalizing m with
  | nil => rfl
  | cons a l ih => grind [lookPieces, MemState.ctxs_lookBytes]

theorem ctxs_writePieces {ctx : Nat} {l : List (Target × Nat)} {bs : List Byte} : (writePieces m ctx l bs).ctxs = m.ctxs := by
  induction l generalizing m bs with
  | nil => rfl
  | cons a l ih => grind [writePieces, MemState.ctxs_writeBytes]

end Sys2Proof.Machine
end

section
/-! PROOF. What an access of an engine leaves of the package (R248, R191). -/
namespace Sys2Proof.Machine

/-- Only the scratchpad may differ, and what the pool keeps of parity, poison and errors. -/
def Core.BytesOnly (c d : Core) : Prop :=
  d = { c with
    scratch := d.scratch, groups := d.groups, poison := d.poison, latent := d.latent, bankUe := d.bankUe, freeze := d.freeze
    recs := d.recs }

theorem Core.BytesOnly.refl (c : Core) : c.BytesOnly c := rfl

theorem Core.BytesOnly.trans {c d e : Core} (h : c.BytesOnly d) (h' : d.BytesOnly e) : c.BytesOnly e := by
  unfold Core.BytesOnly at *
  rw [h', h]

theorem Core.PoolOnly.bytes {c d : Core} (h : c.PoolOnly d) : c.BytesOnly d := by
  unfold Core.PoolOnly Core.BytesOnly at *
  rw [h]

theorem Core.scrPut_bytes (c : Core) (a : Nat) (bs : List Byte) : c.BytesOnly (c.scrPut a bs) := by
  obtain ⟨d, hd, e⟩ := c.scrPut_frame a bs
  rw [e]
  exact hd.bytes.trans rfl

/-- Launches, contexts and the core in view are as before, but for the bytes of its pool and what that keeps. -/
structure State.AccessOnly (s t : State) : Prop where
  core : s.core.BytesOnly t.core
  launch : t.launch = s.launch
  ctxs : t.mem.ctxs = s.mem.ctxs

variable {s t u : State}

theorem State.AccessOnly.refl (s : State) : s.AccessOnly s := ⟨rfl, rfl, rfl⟩

theorem State.AccessOnly.trans (h : s.AccessOnly t) (h' : t.AccessOnly u) : s.AccessOnly u :=
  ⟨h.core.trans h'.core, h'.launch.trans h.launch, h'.ctxs.trans h.ctxs⟩

theorem State.AccessOnly.kid (h : s.AccessOnly t) : t.core.kid = s.core.kid := by
  have e : s.core.BytesOnly t.core := h.core
  rw [e]

/-- A change of the memories alone, which leaves the contexts. -/
theorem State.accessOnly_mem {m : MemState} (h : m.ctxs = s.mem.ctxs) : s.AccessOnly { s with mem := m } := ⟨rfl, rfl, h⟩

theorem State.accessOnly_setCore {k : Nat} {c : Core} (h : (s.coreAt k).BytesOnly c) : s.AccessOnly (s.setCore c) := by
  have kid : c.kid = k := by rw [h]; exact s.coreAt_kid k
  subst kid
  unfold State.setCore
  split
  · next e =>
    rw [State.coreAt, if_pos e] at h
    exact ⟨h, rfl, rfl⟩
  · split <;> exact ⟨rfl, rfl, rfl⟩

theorem State.translate_access (s : State) (k ctx va : Nat) (a : Access) : s.AccessOnly (s.translate k ctx va a).1 := by
  have h := s.mem.ctxs_translate (ctx := ctx) (va := va) (a := a)
  unfold State.translate
  split
  · next e => exact accessOnly_mem (by rw [e] at h; exact h)
  · next e =>
    rw [e] at h
    split <;> exact accessOnly_mem h

theorem State.placeByte_access (s : State) (k ctx q : Nat) (a : Access) : s.AccessOnly (s.placeByte k ctx q a).1 := by
  unfold State.placeByte
  dsimp only
  split
  case h_1 =>
    split
    · exact .refl s
    · exact s.translate_access ..
  case h_3 => split <;> [exact .refl s; split <;> [exact .refl s; split <;> exact .refl s]]
  case h_5 => split <;> exact .refl s
  all_goals exact .refl s

theorem State.placeBytes_access (s : State) (k ctx : Nat) (a : Access) (q n : Nat) : s.AccessOnly (s.placeBytes k ctx a q n).1 := by
  induction n generalizing s q with
  | zero => exact .refl s
  | succ n ih =>
    have first := s.placeByte_access k ctx (q % 2 ^ 64) a
    grind [State.placeBytes, State.AccessOnly.trans]

theorem State.resolve_access (s : State) (k ctx : Nat) (p : Word) (n : Nat) (a : Access) : s.AccessOnly (s.resolve k ctx p n a).1 := by
  have placed := s.placeBytes_access k ctx a p.toNat n
  grind [State.resolve]

theorem State.ownAperture_access (s : State) (r : Range) (a : Access) : s.AccessOnly (s.ownAperture r a).1 := by
  grind [State.ownAperture.eq_def, State.aperture, State.placeBytes_access, State.AccessOnly.refl]

theorem State.readRange_access (s : State) (r : Range) : s.AccessOnly (s.readRange r).1 := by
  cases r with
  | pool k off n => grind [State.readRange, State.AccessOnly.refl]
  | mem ts => exact accessOnly_mem ctxs_readPieces
  | peer => exact ⟨rfl, rfl, rfl⟩

theorem State.writeRange_access (s : State) (k ctx : Nat) (ptr : Word) (r : Range) (bs : List Byte) :
    s.AccessOnly (s.writeRange k ctx ptr r bs).1 := by
  cases r with
  | pool j off n =>
    have stored : s.AccessOnly (s.setCore ((s.coreAt j).scrPut off bs)) := accessOnly_setCore (Core.scrPut_bytes ..)
    grind [State.writeRange, State.AccessOnly.refl]
  | mem ts =>
    unfold State.writeRange
    dsimp only
    split
    · exact ⟨rfl, rfl, rfl⟩
    · split
      · exact accessOnly_mem ctxs_lookPieces
      · exact accessOnly_mem (ctxs_writePieces.trans ctxs_lookPieces)
  | peer => exact .refl s

theorem State.detectRange_access (s : State) (r : Range) (write : Bool) : s.AccessOnly (s.detectRange r write).1 := by
  cases r with
  | pool k off n =>
    have sensed : s.AccessOnly (s.setCore ((s.coreAt k).detect off n write).1) := accessOnly_setCore (Core.detect_pool ..).bytes
    grind [State.detectRange, State.AccessOnly.refl]
  | _ => exact .refl s

theorem State.engineMet_access (s : State) (k ctx : Nat) (ptr : Word) (met : Met) (found : List Nat) :
    s.AccessOnly (s.engineMet k ctx ptr met found) := by
  have noted (code : Nat) (p : Word) : s.AccessOnly { s with mem := s.mem.consumed k ctx code p } := ⟨rfl, rfl, rfl⟩
  grind [State.engineMet.eq_def, State.AccessOnly.refl]

theorem State.engRead_access (s : State) (k ctx : Nat) (p : Word) (n : Nat) : s.AccessOnly (s.engRead k ctx p n).1 := by
  have resolved := s.resolve_access k ctx p n .read
  grind [State.engRead, State.ownAperture_access, State.detectRange_access, State.readRange_access, State.engineMet_access,
    State.AccessOnly.trans]

theorem State.engWrite_access (s : State) (k ctx : Nat) (p : Word) (bs : List Byte) : s.AccessOnly (s.engWrite k ctx p bs).1 := by
  have resolved := s.resolve_access k ctx p bs.length .write
  unfold State.engWrite
  split
  · next e => rw [e] at resolved; exact resolved
  · next s1 r e =>
    rw [e] at resolved
    have opened := s1.ownAperture_access r .write
    split
    · next e => rw [e] at opened; exact resolved.trans opened
    · next s2 r e =>
      rw [e] at opened
      have written := (resolved.trans opened).trans ((s2.detectRange_access r true).trans (State.writeRange_access _ k ctx p r bs))
      dsimp only
      generalize State.writeRange _ _ _ _ _ _ = z at written ⊢
      obtain ⟨u, met⟩ := z
      have noted (met : Met) : s.AccessOnly (u.engineMet k ctx p met (s2.detectRange r true).2) := written.trans (u.engineMet_access ..)
      cases met with
      | wait => exact written
      | dev bad i => cases bad <;> [exact noted (.dev .ok i); exact noted (.dev .fresh i); exact noted (.dev .poison i); exact written]
      | ok => exact noted .ok
      | pool info => exact noted (.pool info)
      | sense k off n w => exact noted (.sense k off n w)

end Sys2Proof.Machine
end

section
/-! PROOF. What older results do is the same whatever commands a core has queued and whichever barriers it has arrived at. -/
namespace Sys2Proof.Machine

/-- A core with the commands, channels, counts and arrivals of another. -/
def Core.aside (c a : Core) : Core :=
  { c with arrived := a.arrived, cmds := a.cmds, chans := a.chans, seq := a.seq, ecHeld := a.ecHeld }

variable {a c : Core}

theorem foldl_aside {α : Type} {f : Core → α → Core} (h : ∀ (c : Core) (x : α), f (c.aside a) x = (f c x).aside a) (l : List α)
    (c : Core) : l.foldl f (c.aside a) = (l.foldl f c).aside a := by
  induction l generalizing c with
  | nil => rfl
  | cons x l ih => rw [List.foldl_cons, h, ih, List.foldl_cons]

theorem ite_aside {p : Prop} [Decidable p] {x y c d : Core} (hx : x = c.aside a) (hy : y = d.aside a) :
    (if p then x else y) = (if p then c else d).aside a := by
  split <;> assumption

theorem Core.group_aside (g : Nat) : (c.aside a).group g = c.group g := rfl
theorem Core.hasError_aside (k : Nat) (b : Bool) : (c.aside a).hasError k b = c.hasError k b := rfl
theorem Core.rowFresh_aside (g r : Nat) : (c.aside a).rowFresh g r = c.rowFresh g r := rfl
theorem Core.rowPoisoned_aside (g r : Nat) : (c.aside a).rowPoisoned g r = c.rowPoisoned g r := rfl
theorem Core.senses_aside (o n : Nat) (w : Bool) : (c.aside a).senses o n w = c.senses o n w := rfl
theorem Core.poison_aside : (c.aside a).poison = c.poison := rfl
theorem Core.latent_aside : (c.aside a).latent = c.latent := rfl
theorem Core.groups_aside : (c.aside a).groups = c.groups := rfl
theorem Core.setGroup_aside (g : Nat) (x : Group) : (c.aside a).setGroup g x = (c.setGroup g x).aside a := rfl
theorem Core.record_aside (t k b i : Nat) : (c.aside a).record t k b i = (c.record t k b i).aside a := rfl
theorem Core.dropError_aside (k : Nat) : (c.aside a).dropError k = (c.dropError k).aside a := rfl
theorem Core.corrected_aside (g b k x : Nat) : (c.aside a).corrected g b k x = (c.corrected g b k x).aside a := rfl
theorem Core.countPoison_aside (g : Nat) : (c.aside a).countPoison g = (c.countPoison g).aside a := rfl

theorem Core.countBank_aside (g b : Nat) : (c.aside a).countBank g b = (c.countBank g b).aside a := by
  unfold Core.countBank
  exact ite_aside rfl rfl

theorem Core.poisonSector_aside (x : Nat) (b : Bool) : (c.aside a).poisonSector x b = (c.poisonSector x b).aside a := by
  unfold Core.poisonSector
  exact ite_aside rfl rfl

theorem Core.recompute_aside (g r : Nat) : (c.aside a).recompute g r = (c.recompute g r).aside a := by
  grind [Core.recompute, Core.group_aside, Core.rowPoisoned_aside, Core.setGroup_aside]

theorem Core.correctData_aside (x : Nat) : (c.aside a).correctData x = (c.correctData x).aside a := by
  grind [Core.correctData, Core.hasError_aside, Core.dropError_aside, Core.corrected_aside]

theorem Core.readLibero_aside (g r : Nat) : (c.aside a).readLibero g r = (c.readLibero g r).aside a := by
  grind [Core.readLibero, Core.hasError_aside, Core.dropError_aside, Core.corrected_aside, Core.countBank_aside, Core.recompute_aside]

theorem Core.rebuildFault_aside (g r x : Nat) (bad more : List Nat) :
    (c.aside a).rebuildFault g r x bad more = (c.rebuildFault g r x bad more).aside a := by
  have counted := foldl_aside (a := a) (f := fun (c : Core) j => c.countBank g j) fun _ _ => Core.countBank_aside ..
  have poisoned := foldl_aside (a := a) (f := fun (c : Core) j => (c.dropError (sectorAt g r j)).poisonSector (sectorAt g r j) true)
    fun c j => by rw [Core.dropError_aside, Core.poisonSector_aside]
  grind [Core.rebuildFault, Core.hasError_aside, Core.dropError_aside, Core.countPoison_aside, Core.record_aside]

theorem Core.readFatal_aside (x : Nat) : (c.aside a).readFatal x = (c.readFatal x).aside a := by
  have corrected : (List.range 8).foldl (fun (c : Core) j => c.correctData (sectorAt (sectorGroup x) (poolRow (32 * x)) j)) (c.aside a) =
      ((List.range 8).foldl (fun (c : Core) j => c.correctData (sectorAt (sectorGroup x) (poolRow (32 * x)) j)) c).aside a :=
    foldl_aside (f := fun (c : Core) j => c.correctData (sectorAt (sectorGroup x) (poolRow (32 * x)) j))
      (fun _ _ => Core.correctData_aside _) _ _
  grind [Core.readFatal, Core.hasError_aside, Core.dropError_aside, Core.corrected_aside, Core.countBank_aside, Core.poison_aside,
    Core.poisonSector_aside, Core.countPoison_aside, Core.record_aside, Core.group_aside, Core.rowFresh_aside, Core.rebuildFault_aside,
    Core.readLibero_aside]

theorem Core.readSector_aside (x : Nat) : (c.aside a).readSector x = (c.readSector x).aside a := by
  grind [Core.readSector, Core.correctData_aside, Core.hasError_aside, Core.readFatal_aside]

theorem Core.serveEntry_aside (g : Nat) (e : DeltaEntry) : (c.aside a).serveEntry g e = (c.serveEntry g e).aside a := by
  have read : (List.range 8).foldl (fun (c : Core) j => c.readSector (sectorAt g e.row j)) (c.aside a) =
      ((List.range 8).foldl (fun (c : Core) j => c.readSector (sectorAt g e.row j)) c).aside a :=
    foldl_aside (f := fun (c : Core) j => c.readSector (sectorAt g e.row j)) (fun _ _ => Core.readSector_aside _) _ _
  grind [Core.serveEntry, Core.dropError_aside, Core.readLibero_aside, Core.group_aside, Core.setGroup_aside]

theorem Core.shrink_aside (g k n : Nat) : (c.aside a).shrink g k n = (c.shrink g k n).aside a := by
  induction n generalizing c with
  | zero => rfl
  | succ n ih => grind [Core.shrink, Core.group_aside, Core.serveEntry_aside]

theorem Core.fit_aside : (c.aside a).fit = c.fit.aside a := by
  have served := foldl_aside (a := a) (f := fun (c : Core) g => c.shrink g 64 128) (fun _ _ => Core.shrink_aside ..) (List.range 12) c
  grind [Core.fit, Core.groups_aside]

theorem Core.detect_aside (o n : Nat) (w : Bool) :
    (c.aside a).detect o n w = ((c.detect o n w).1.aside a, (c.detect o n w).2) := by
  have read (l : List Nat) : (l.foldl Core.readSector (c.aside a)).fit = (l.foldl Core.readSector c).fit.aside a := by
    rw [foldl_aside fun _ _ => Core.readSector_aside _, Core.fit_aside]
  simp only [Core.detect, Core.senses_aside, read, Core.poison_aside]
  split <;> rfl

theorem Core.noteSector_aside (x : Nat) (b : Bool) (d : BitVec 256) : (c.aside a).noteSector x b d = (c.noteSector x b d).aside a := by
  grind [Core.noteSector, Core.makeRoom, Core.group_aside, Core.rowPoisoned_aside, Core.setGroup_aside, Core.shrink_aside]

theorem Core.noteSectors_aside (delta : Nat → BitVec 256) (lo hi x n : Nat) :
    (c.aside a).noteSectors delta lo hi x n = (c.noteSectors delta lo hi x n).aside a := by
  induction n generalizing c x with
  | zero => rfl
  | succ n ih =>
    unfold Core.noteSectors
    rw [← ih, ← Core.noteSector_aside]
    have whole : (if (decide (lo ≤ 32 * x) && decide (32 * x + 32 ≤ hi)) = true then
          { c.aside a with poison := (c.aside a).poison.filter fun p => p.1 != x } else c.aside a) =
        (if (decide (lo ≤ 32 * x) && decide (32 * x + 32 ≤ hi)) = true then
          { c with poison := c.poison.filter fun p => p.1 != x } else c).aside a := ite_aside rfl rfl
    rw [← whole]
    rfl

/-- The three parts of a full-stripe write (R187, R191, R193): the errors of the stripe are detected and cleared, then its poison, then the
entry of its row. -/
def Core.stripeSensed (c : Core) (x : Nat) : Core :=
  let g := poolGroup (256 * x)
  let row := poolRow (256 * x)
  if !c.latent.any fun e => e.1 / 8 == x || e.1 == liberoKey g row then c
  else
    let d := (((List.range 8).foldl (fun (c : Core) i => c.readSector (8 * x + i)) c).readLibero g row).fit
    { d with latent := d.latent.filter fun e => e.1 / 8 != x && e.1 != liberoKey g row }

def Core.stripeCleared (c : Core) (x : Nat) : Core :=
  if c.poison.isEmpty then c else { c with poison := c.poison.filter fun p => p.1 / 8 != x }

def Core.stripeFreed (c : Core) (x : Nat) : Core :=
  let g := c.group (poolGroup (256 * x))
  if g.entries.isEmpty || g.state = 1 then c
  else c.setGroup (poolGroup (256 * x)) { g with entries := g.entries.filter fun e => e.row != poolRow (256 * x) }

theorem Core.noteStripe_eq (c : Core) (x : Nat) : c.noteStripe x = ((c.stripeSensed x).stripeCleared x).stripeFreed x := rfl

theorem Core.stripeSensed_aside (x : Nat) : (c.aside a).stripeSensed x = (c.stripeSensed x).aside a := by
  have read : (List.range 8).foldl (fun (c : Core) i => c.readSector (8 * x + i)) (c.aside a) =
      ((List.range 8).foldl (fun (c : Core) i => c.readSector (8 * x + i)) c).aside a :=
    foldl_aside (f := fun (c : Core) i => c.readSector (8 * x + i)) (fun _ _ => Core.readSector_aside _) _ _
  dsimp only [Core.stripeSensed]
  rw [read, Core.readLibero_aside, Core.fit_aside]
  generalize Core.fit _ = d
  exact ite_aside rfl rfl

theorem Core.noteStripe_aside (x : Nat) : (c.aside a).noteStripe x = (c.noteStripe x).aside a := by
  have cleared (c : Core) : (c.aside a).stripeCleared x = (c.stripeCleared x).aside a := ite_aside rfl rfl
  have freed (c : Core) : (c.aside a).stripeFreed x = (c.stripeFreed x).aside a := ite_aside rfl rfl
  rw [Core.noteStripe_eq, Core.stripeSensed_aside, cleared, freed, Core.noteStripe_eq]

theorem Core.noteStripes_aside (delta : Nat → BitVec 256) (lo hi x n : Nat) :
    (c.aside a).noteStripes delta lo hi x n = (c.noteStripes delta lo hi x n).aside a := by
  induction n generalizing c x with
  | zero => rfl
  | succ n ih => grind [Core.noteStripes, Core.noteStripe_aside, Core.noteSectors_aside]

theorem Core.scrPut_aside (o : Nat) (bs : List Byte) : (c.aside a).scrPut o bs = (c.scrPut o bs).aside a := by
  have noted (delta : Nat → BitVec 256) (r : Nat × Nat) : (if r.2 = 0 then c.aside a
        else (c.aside a).noteStripes delta r.1 (r.1 + r.2) (r.1 / 256) ((r.1 + r.2 - 1) / 256 - r.1 / 256 + 1)) =
      (if r.2 = 0 then c else c.noteStripes delta r.1 (r.1 + r.2) (r.1 / 256) ((r.1 + r.2 - 1) / 256 - r.1 / 256 + 1)).aside a :=
    ite_aside rfl (Core.noteStripes_aside ..)
  exact congrArg (Core.scrWrite · o bs) (noted (fun x => c.sectorData x ^^^ (c.scrWrite o bs).sectorData x) (o, bs.length))

theorem Core.setV_aside (n : Nat) (v : Vec) : (c.aside a).setV n v = (c.setV n v).aside a :=
  congrArg (fun d : Core => { d with vregs := d.vregs.setIfInBounds n v }) (Core.noteStripe_aside (c.vregOff n / 256))

theorem Core.noteRows_aside (o n : Nat) : (c.aside a).noteRows o n = (c.noteRows o n).aside a :=
  foldl_aside (f := fun (c : Core) i => c.noteStripe (o / 256 + i)) (fun _ _ => Core.noteStripe_aside _) _ _

/-- The poison of a tile half carried to another. -/
def Core.movePoison (c : Core) (src dst : Nat) : Core :=
  let kept := c.poison.filter fun p => !(dst ≤ 32 * p.1 && 32 * p.1 < dst + 16384)
  let moved := (c.poison.filter fun p => src ≤ 32 * p.1 && 32 * p.1 < src + 16384).map
    fun (p : Nat × Bool) => ((32 * p.1 + dst - src) / 32, p.2)
  { c with poison := kept ++ moved }

theorem Core.copyPoison_eq (c : Core) (src dst : Nat) :
    c.copyPoison src dst = ((c.detect src 16384 false).1.noteRows dst 64).movePoison src dst := rfl

theorem Core.copyPoison_aside (src dst : Nat) : (c.aside a).copyPoison src dst = (c.copyPoison src dst).aside a := by
  have moved (c : Core) : (c.aside a).movePoison src dst = (c.movePoison src dst).aside a := rfl
  rw [Core.copyPoison_eq, Core.detect_aside, Core.noteRows_aside, moved, Core.copyPoison_eq]

theorem Core.rewriteRow_aside (o : Nat) : (c.aside a).rewriteRow o = (c.rewriteRow o).aside a := by
  unfold Core.rewriteRow
  rw [Core.noteStripe_aside]
  rfl

theorem Core.postArrival_aside (o : Nat) (e : Bool) : (c.aside a).postArrival o e = (c.postArrival o e).aside a := by
  unfold Core.postArrival
  rw [Core.detect_aside]
  exact ite_aside rfl (Core.scrPut_aside ..)

theorem Core.setToken_aside (k : Nat) (t : Token) : (c.aside a).setToken k t = (c.setToken k t).aside a := ite_aside rfl rfl

theorem Core.writeDest_aside (dst : Dest) (x : Val) (issue : Nat) :
    (c.aside a).writeDest dst x issue = (c.writeDest dst x issue).aside a := by
  cases dst with
  | v n => exact Core.setV_aside n x.bits
  | s n => exact ite_aside rfl rfl
  | m n => exact ite_aside rfl rfl
  | f n => exact ite_aside rfl rfl
  | _ => rfl

theorem Core.writeVar_aside (v : VarRes) (x : Val) : (c.aside a).writeVar v x = (c.writeVar v x).aside a := by
  have written := Core.writeDest_aside (c := { c with vars := c.vars.filter fun w => w.id != v.id }) (a := a) v.dst (v.dst.takes x) v.issue
  exact (congrArg (Core.setToken · v.tok .complete) written).trans (Core.setToken_aside ..)

theorem Core.deliver_aside (p : Pending) : (c.aside a).deliver p = (c.deliver p).aside a := by
  unfold Core.deliver
  rw [Core.writeDest_aside]
  generalize c.writeDest p.dst p.val p.issue = d
  rcases p.latch with _ | ⟨u, x⟩
  · exact Core.setToken_aside (c := d) ..
  · exact Core.setToken_aside (c := { d with latches := d.latches.push u x }) ..

end Sys2Proof.Machine
end

section
/-! PROOF. The accumulator events, one equation each (R225, R236, R237, R243, R463). -/
namespace Sys2Proof.Machine

variable {a c : Core} {e : AccEvent}

theorem Core.actEvent_opens (h : e.act = .opens) : c.actEvent e =
    (((c.copyPoison (c.tileOff e.tile (c.tile e.tile).committedHalf 0) (c.tileOff e.tile (c.tile e.tile).shadowHalf 0)).setTile e.tile
      ((c.tile e.tile).setShadow (c.tile e.tile).committed)).setToken e.tok .complete) := by
  unfold Core.actEvent
  rw [h]

/-- The poison that a push meets is recorded as consumed, but for what its own read has just found. -/
def Core.notePushed (c : Core) (off : Nat) (found : List Nat) : Core :=
  let bad := c.poison.filter fun p => off ≤ 32 * p.1 && 32 * p.1 < off + 256 && !found.contains p.1
  { c with recs := c.recs ++ bad.map fun (p : Nat × Bool) => (0x0025, 0x0C, BitVec.ofNat 64 (32 * p.1), 0#64) }

theorem Core.actEvent_push {row : Nat} {int : Bool} {terms : List Vec} (h : e.act = .push row int terms) : c.actEvent e =
    ((((c.detect (c.tileOff e.tile (c.tile e.tile).shadowHalf row) 256 false).1.notePushed
        (c.tileOff e.tile (c.tile e.tile).shadowHalf row)
        (c.detect (c.tileOff e.tile (c.tile e.tile).shadowHalf row) 256 false).2).rewriteRow
        (c.tileOff e.tile (c.tile e.tile).shadowHalf row)).setTile e.tile
      ((c.tile e.tile).setShadow ((c.tile e.tile).shadow.setIfInBounds row
        (terms.foldl (addTerm int) ((c.tile e.tile).shadow.toList.getD row 0))))).setToken e.tok .complete := by
  unfold Core.actEvent
  rw [h]
  rfl

theorem Core.actEvent_zero (h : e.act = .zero) : c.actEvent e =
    ((c.noteRows (c.tileOff e.tile (c.tile e.tile).shadowHalf 0) 64).setTile e.tile
      ((c.tile e.tile).setShadow (Vector.replicate 64 0))).setToken e.tok .complete := by
  unfold Core.actEvent
  rw [h]

theorem Core.actEvent_zeroAll {int : Bool} (h : e.act = .zeroAll int) : c.actEvent e =
    ((c.noteRows (c.tileOff e.tile 0 0) 128).setTile e.tile { Tile.zero with commit1 := (c.tile e.tile).commit1, int := int }).setToken
      e.tok .complete := by
  unfold Core.actEvent
  rw [h]

/-- The arrivals of a commit at the records of its stages; they are ordinary accesses (R243, R290). -/
def Core.arriveStages (c : Core) (bindings : List Binding) : Core :=
  let d := bindings.foldl (fun (c : Core) b => c.postArrival b.off true) c
  if bindings.isEmpty then d else d.touch

/-- A committed tile goes to the Referee with the log of its region, if that was selected (R422). -/
def Core.logCommit (c : Core) (t : Tile) (pair : Nat) : Option (List LogItem) → Core
  | some items => { c with audits := c.audits ++ [⟨c.kid, pair, t.int, c.kernel.strict, c.arr.factor, tileSignature t, items⟩] }
  | none => c

theorem Core.actEvent_commit {bs : List Binding} {log : Option (List LogItem)} {pair : Nat} (h : e.act = .commit bs log pair) :
    c.actEvent e =
      (((c.setTile e.tile { c.tile e.tile with commit1 := !(c.tile e.tile).commit1 }).arriveStages bs).logCommit
        { c.tile e.tile with commit1 := !(c.tile e.tile).commit1 } pair log).setToken e.tok .complete := by
  unfold Core.actEvent
  rw [h]
  cases log <;> rfl

theorem Core.setTile_aside (z : Nat) (t : Tile) : (c.aside a).setTile z t = (c.setTile z t).aside a := rfl
theorem Core.tile_aside (z : Nat) : (c.aside a).tile z = c.tile z := rfl
theorem Core.tileOff_aside (z h r : Nat) : (c.aside a).tileOff z h r = c.tileOff z h r := rfl
theorem Core.notePushed_aside (o : Nat) (l : List Nat) : (c.aside a).notePushed o l = (c.notePushed o l).aside a := rfl

theorem Core.arriveStages_aside (bs : List Binding) : (c.aside a).arriveStages bs = (c.arriveStages bs).aside a := by
  have posted := foldl_aside (a := a) (f := fun (c : Core) (b : Binding) => c.postArrival b.off true)
    (fun _ _ => Core.postArrival_aside ..) bs c
  unfold Core.arriveStages
  rw [posted]
  exact ite_aside rfl rfl

theorem Core.logCommit_aside (t : Tile) (pair : Nat) (log : Option (List LogItem)) :
    (c.aside a).logCommit t pair log = (c.logCommit t pair log).aside a := by
  cases log <;> rfl

theorem Core.actEvent_aside (e : AccEvent) : (c.aside a).actEvent e = (c.actEvent e).aside a := by
  cases h : e.act with
  | opens =>
    rw [Core.actEvent_opens h, Core.actEvent_opens h, Core.tile_aside, Core.tileOff_aside, Core.tileOff_aside, Core.copyPoison_aside,
      Core.setTile_aside, Core.setToken_aside]
  | push row int terms =>
    rw [Core.actEvent_push h, Core.actEvent_push h, Core.tile_aside, Core.tileOff_aside, Core.detect_aside, Core.notePushed_aside,
      Core.rewriteRow_aside, Core.setTile_aside, Core.setToken_aside]
  | zero =>
    rw [Core.actEvent_zero h, Core.actEvent_zero h, Core.tile_aside, Core.tileOff_aside, Core.noteRows_aside, Core.setTile_aside,
      Core.setToken_aside]
  | zeroAll int =>
    rw [Core.actEvent_zeroAll h, Core.actEvent_zeroAll h, Core.tile_aside, Core.tileOff_aside, Core.noteRows_aside, Core.setTile_aside,
      Core.setToken_aside]
  | commit bs log pair =>
    rw [Core.actEvent_commit h, Core.actEvent_commit h, Core.tile_aside, Core.setTile_aside, Core.arriveStages_aside,
      Core.logCommit_aside, Core.setToken_aside]

theorem Core.older_eq (c : Core) : c.older = c.settleVars.settle := rfl
theorem Core.completeOlder_eq (c : Core) : c.completeOlder = c.stamp.abandon.older := rfl

theorem Core.settleVars_aside : (c.aside a).settleVars = c.settleVars.aside a := by
  refine foldl_aside (f := fun (c : Core) (v : VarRes) => match v.kind with | .value x | .held x => c.writeVar v x | _ => c)
    (fun c v => ?_) c.vars c
  cases v.kind <;> first | rfl | exact Core.writeVar_aside ..

theorem Core.settle_aside : (c.aside a).settle = c.settle.aside a := by
  have delivered := foldl_aside (a := a) (f := Core.deliver) (fun _ _ => Core.deliver_aside _) c.pending { c with pending := [] }
  have acted (d : Core) := foldl_aside (a := a) (f := Core.actEvent) (fun _ _ => Core.actEvent_aside _) d.arr.events
    { d with arr := { d.arr with events := [] } }
  exact (congrArg (fun d : Core => d.arr.events.foldl Core.actEvent { d with arr := { d.arr with events := [] } }) delivered).trans (acted _)

/-- Older results deliver the same. -/
theorem Core.older_aside : (c.aside a).older = c.older.aside a := by
  rw [Core.older_eq, Core.settleVars_aside, Core.settle_aside, Core.older_eq]

end Sys2Proof.Machine
end

section
/-! PROOF. What the completion of older results changes of a core (R284, R288). -/
namespace Sys2Proof.Machine

/-- Only what results and accumulator events write may differ: registers, queues, latches, tokens, tiles, scratchpad, what the pool keeps,
and the counts and logs that go with those. -/
def Core.Acted (c d : Core) : Prop :=
  d = { c with
    sregs := d.sregs, vregs := d.vregs, mregs := d.mregs, flags := d.flags, aps := d.aps, dq := d.dq, eq := d.eq, cq := d.cq
    latches := d.latches, tokens := d.tokens, tiles := d.tiles, scratch := d.scratch, audits := d.audits
    pts := d.pts, fresh := d.fresh, accessed := d.accessed
    groups := d.groups, poison := d.poison, latent := d.latent, bankUe := d.bankUe, freeze := d.freeze, recs := d.recs }

theorem Core.Acted.refl (c : Core) : c.Acted c := rfl

theorem Core.Acted.trans {c d e : Core} (h : c.Acted d) (h' : d.Acted e) : c.Acted e := by
  unfold Core.Acted at *
  rw [h', h]

theorem Core.Acted.foldl {α : Type} {f : Core → α → Core} (h : ∀ (c : Core) (x : α), c.Acted (f c x)) (l : List α) (c : Core) :
    c.Acted (l.foldl f c) := by
  induction l generalizing c with
  | nil => exact .refl c
  | cons x l ih => exact (h c x).trans (ih _)

theorem Core.BytesOnly.acted {c d : Core} (h : c.BytesOnly d) : c.Acted d := by
  unfold Core.BytesOnly Core.Acted at *
  rw [h]

theorem Core.DataOnly.acted {c d : Core} (h : c.DataOnly d) : c.Acted d := by
  unfold Core.DataOnly Core.Acted at *
  rw [h]

theorem Core.setToken_acted (c : Core) (k : Nat) (t : Token) : c.Acted (c.setToken k t) := by
  rw [Core.setToken_frame]
  rfl

theorem Core.deliver_acted (c : Core) (p : Pending) : c.Acted (c.deliver p) := by
  obtain ⟨l, e, -⟩ := c.deliver_eq p
  rw [e]
  exact (c.writeDest_data p.dst p.val p.issue).acted.trans rfl

theorem Core.writeVar_acted (c : Core) (v : VarRes) (x : Val) :
    ({ c with vars := c.vars.filter fun w => w.id != v.id } : Core).Acted (c.writeVar v x) :=
  (Core.writeDest_data _ v.dst (v.dst.takes x) v.issue).acted.trans (Core.setToken_acted ..)

/-- What accumulator events write: as above, but for registers, queues and latches. -/
def Core.EventOnly (c d : Core) : Prop :=
  d = { c with
    tokens := d.tokens, tiles := d.tiles, scratch := d.scratch, audits := d.audits, pts := d.pts, fresh := d.fresh, accessed := d.accessed
    groups := d.groups, poison := d.poison, latent := d.latent, bankUe := d.bankUe, freeze := d.freeze, recs := d.recs }

theorem Core.EventOnly.trans {c d e : Core} (h : c.EventOnly d) (h' : d.EventOnly e) : c.EventOnly e := by
  unfold Core.EventOnly at *
  rw [h', h]

theorem Core.BytesOnly.event {c d : Core} (h : c.BytesOnly d) : c.EventOnly d := by
  unfold Core.BytesOnly Core.EventOnly at *
  rw [h]

theorem Core.EventOnly.acted {c d : Core} (h : c.EventOnly d) : c.Acted d := by
  unfold Core.EventOnly Core.Acted at *
  rw [h]

theorem Core.noteRows_pool (c : Core) (o n : Nat) : c.PoolOnly (c.noteRows o n) :=
  .foldl (fun c _ => c.noteStripe_pool _) _ c

theorem Core.copyPoison_pool (c : Core) (src dst : Nat) : c.PoolOnly (c.copyPoison src dst) := by
  have moved (d : Core) : d.PoolOnly (d.movePoison src dst) := rfl
  rw [Core.copyPoison_eq]
  exact ((c.detect_pool src 16384 false).trans (Core.noteRows_pool ..)).trans (moved _)

theorem Core.rewriteRow_pool (c : Core) (o : Nat) : c.PoolOnly (c.rewriteRow o) :=
  (c.noteStripe_pool _).trans rfl

theorem Core.notePushed_pool (c : Core) (o : Nat) (l : List Nat) : c.PoolOnly (c.notePushed o l) := rfl

theorem Core.postArrival_bytes (c : Core) (o : Nat) (e : Bool) : c.BytesOnly (c.postArrival o e) := by
  have sensed := (c.detect_pool o 32 true).bytes
  unfold Core.postArrival
  dsimp only
  split
  · exact sensed
  · exact sensed.trans (Core.scrPut_bytes ..)

theorem Core.arriveStages_bytes (c : Core) (bs : List Binding) :
    ∃ d, c.BytesOnly d ∧ (c.arriveStages bs = d ∨ c.arriveStages bs = d.touch) := by
  have posted : ∀ (l : List Binding) (c : Core), c.BytesOnly (l.foldl (fun (c : Core) b => c.postArrival b.off true) c) := by
    intro l
    induction l with
    | nil => exact Core.BytesOnly.refl
    | cons b l ih => exact fun c => (c.postArrival_bytes b.off true).trans (ih _)
  refine ⟨_, posted bs c, ?_⟩
  unfold Core.arriveStages
  dsimp only
  split
  · exact .inl rfl
  · exact .inr rfl

theorem Core.setTile_event (c : Core) (z : Nat) (t : Tile) : c.EventOnly (c.setTile z t) := rfl
theorem Core.touch_event (c : Core) : c.EventOnly c.touch := rfl

theorem Core.setToken_event (c : Core) (k : Nat) (t : Token) : c.EventOnly (c.setToken k t) := by
  rw [Core.setToken_frame]
  rfl

theorem Core.logCommit_event (c : Core) (t : Tile) (pair : Nat) (log : Option (List LogItem)) : c.EventOnly (c.logCommit t pair log) := by
  cases log <;> rfl

theorem Core.arriveStages_event (c : Core) (bs : List Binding) : c.EventOnly (c.arriveStages bs) := by
  obtain ⟨d, hd, e | e⟩ := c.arriveStages_bytes bs
  · rw [e]; exact hd.event
  · rw [e]; exact hd.event.trans d.touch_event

/-- An accumulator event changes nothing else. -/
theorem Core.actEvent_event (c : Core) (e : AccEvent) : c.EventOnly (c.actEvent e) := by
  have done {d : Core} (h : c.PoolOnly d) (z : Nat) (t : Tile) : c.EventOnly ((d.setTile z t).setToken e.tok .complete) :=
    (h.bytes.event.trans (d.setTile_event z t)).trans (Core.setToken_event ..)
  cases h : e.act with
  | opens => rw [Core.actEvent_opens h]; exact done (c.copyPoison_pool ..) ..
  | push row int terms =>
    rw [Core.actEvent_push h]
    exact done (((c.detect_pool _ _ _).trans (Core.notePushed_pool ..)).trans (Core.rewriteRow_pool ..)) ..
  | zero => rw [Core.actEvent_zero h]; exact done (c.noteRows_pool ..) ..
  | zeroAll int => rw [Core.actEvent_zeroAll h]; exact done (c.noteRows_pool ..) ..
  | commit bs log pair =>
    rw [Core.actEvent_commit h]
    exact (((c.setTile_event _ _).trans (Core.arriveStages_event _ bs)).trans (Core.logCommit_event ..)).trans (Core.setToken_event ..)

theorem Core.actEvent_acted (c : Core) (e : AccEvent) : c.Acted (c.actEvent e) := (c.actEvent_event e).acted

/-! An access that is counted is counted once (R290). -/

theorem Core.BytesOnly.accessed {c d : Core} (h : c.BytesOnly d) : d.accessed = c.accessed := by rw [h]

theorem Core.accessed_setToken (c : Core) (k : Nat) (t : Token) : (c.setToken k t).accessed = c.accessed := by rw [Core.setToken_frame]

theorem Core.accessed_arriveStages {c : Core} (h : c.accessed = false) (bs : List Binding) : (c.arriveStages bs).accessed = false := by
  obtain ⟨d, hd, e | e⟩ := c.arriveStages_bytes bs
  · rw [e, hd.accessed, h]
  · rw [e]; rfl

theorem Core.accessed_actEvent {c : Core} (h : c.accessed = false) (e : AccEvent) : (c.actEvent e).accessed = false := by
  have done {d : Core} (hd : c.PoolOnly d) (z : Nat) (t : Tile) : ((d.setTile z t).setToken e.tok .complete).accessed = false :=
    (Core.accessed_setToken ..).trans (hd.bytes.accessed.trans h)
  cases hact : e.act with
  | opens => rw [Core.actEvent_opens hact]; exact done (c.copyPoison_pool ..) ..
  | push row int terms =>
    rw [Core.actEvent_push hact]
    exact done (((c.detect_pool _ _ _).trans (Core.notePushed_pool ..)).trans (Core.rewriteRow_pool ..)) ..
  | zero => rw [Core.actEvent_zero hact]; exact done (c.noteRows_pool ..) ..
  | zeroAll int => rw [Core.actEvent_zeroAll hact]; exact done (c.noteRows_pool ..) ..
  | commit bs log pair =>
    have logged (c : Core) (t : Tile) : (c.logCommit t pair log).accessed = c.accessed := by cases log <;> rfl
    rw [Core.actEvent_commit hact, Core.accessed_setToken, logged]
    exact Core.accessed_arriveStages (c := c.setTile _ _) h bs

/-! ## Variable-latency results, then the others, then the events -/

theorem Core.Acted.withVars {c d : Core} (h : c.Acted d) (vs : List VarRes) : ({ c with vars := vs } : Core).Acted { d with vars := vs } := by
  unfold Core.Acted at *
  rw [h]

theorem Core.Acted.withoutEvents {c d : Core} (h : c.Acted d) :
    ({ c with arr := { c.arr with events := [] } } : Core).Acted { d with arr := { d.arr with events := [] } } := by
  unfold Core.Acted at *
  rw [h]

section
variable {c d : Core} (h : c.Acted d)
include h

theorem Core.Acted.vars : d.vars = c.vars := by rw [h]
theorem Core.Acted.pending : d.pending = c.pending := by rw [h]
theorem Core.Acted.arr : d.arr = c.arr := by rw [h]

end

/-- The step of `Core.settleVars`: a result whose value is fixed is written. -/
def Core.settleVar (c : Core) (v : VarRes) : Core :=
  match v.kind with
  | .value x | .held x => c.writeVar v x
  | _ => c

theorem Core.settleVars_eq (c : Core) : c.settleVars = c.vars.foldl Core.settleVar c := rfl

theorem Core.settleVar_value {v : VarRes} {x : Val} (h : v.kind = .value x) (c : Core) : c.settleVar v = c.writeVar v x := by
  unfold Core.settleVar
  rw [h]

theorem Core.settleVar_acted (c : Core) (v : VarRes) : ({ c with vars := (c.settleVar v).vars } : Core).Acted (c.settleVar v) := by
  have written (x : Val) : ({ c with vars := (c.writeVar v x).vars } : Core).Acted (c.writeVar v x) := by
    have h := c.writeVar_acted v x
    rw [h.vars]
    exact h
  unfold Core.settleVar
  split
  · exact written _
  · exact written _
  · exact .refl c

theorem foldl_settleVar_acted (l : List VarRes) (c : Core) :
    ({ c with vars := (l.foldl Core.settleVar c).vars } : Core).Acted (l.foldl Core.settleVar c) := by
  induction l generalizing c with
  | nil => exact .refl c
  | cons v l ih => exact ((c.settleVar_acted v).withVars _).trans (ih (c.settleVar v))

theorem Core.settleVars_acted (c : Core) : ({ c with vars := c.settleVars.vars } : Core).Acted c.settleVars :=
  foldl_settleVar_acted c.vars c

/-- Every outstanding result has its value (R284). -/
def Core.sampled (c : Core) : Prop := ∀ v ∈ c.vars, ∃ x, v.kind = .value x

theorem vars_settleVars {l : List VarRes} (hl : ∀ v ∈ l, ∃ x, v.kind = .value x) (c : Core) {w : VarRes}
    (hw : w ∈ (l.foldl Core.settleVar c).vars) : w ∈ c.vars ∧ w ∉ l := by
  induction l generalizing c with
  | nil => exact ⟨hw, List.not_mem_nil⟩
  | cons v l ih =>
    obtain ⟨x, hx⟩ := hl v List.mem_cons_self
    obtain ⟨kept, later⟩ := ih (fun u hu => hl u (List.mem_cons_of_mem v hu)) (c.settleVar v) hw
    rw [Core.settleVar_value hx, (c.writeVar_acted v x).vars] at kept
    obtain ⟨held, other⟩ := List.mem_filter.mp kept
    refine ⟨held, fun hmem => ?_⟩
    obtain rfl | h := List.mem_cons.mp hmem
    · simp at other
    · exact later h

/-- All of them are written. -/
theorem Core.sampled.settleVars {c : Core} (h : c.sampled) : c.settleVars.vars = [] :=
  List.eq_nil_iff_forall_not_mem.mpr fun _ hw => (vars_settleVars h c hw).2 (vars_settleVars h c hw).1

theorem Core.settle_acted (c : Core) :
    ({ c with pending := [], arr := { c.arr with events := [] } } : Core).Acted c.settle := by
  have delivered := Core.Acted.foldl Core.deliver_acted c.pending { c with pending := [] }
  exact delivered.withoutEvents.trans (Core.Acted.foldl Core.actEvent_acted _ _)

/-- What is left after the completion of older results. -/
theorem Core.older_acted (c : Core) :
    ({ c with vars := c.older.vars, pending := [], arr := { c.arr with events := [] } } : Core).Acted c.older := by
  have settled := c.settleVars.settle_acted
  have varsKept : c.older.vars = c.settleVars.vars := by rw [Core.older_eq, settled.vars]
  have done := c.settleVars_acted
  rw [Core.older_eq] at varsKept ⊢
  rw [varsKept]
  refine Core.Acted.trans ?_ settled
  unfold Core.Acted at *
  rw [done]

theorem Core.sampled.older {c : Core} (h : c.sampled) : c.older.vars = [] := by
  rw [Core.older_eq, c.settleVars.settle_acted.vars, h.settleVars]

theorem Core.DataOnly.accessed {c d : Core} (h : c.DataOnly d) : d.accessed = c.accessed := by rw [h]

theorem Core.accessed_writeVar (c : Core) (v : VarRes) (x : Val) : (c.writeVar v x).accessed = c.accessed := by
  rw [Core.writeVar_eq]
  exact (Core.writeDest_data _ v.dst (v.dst.takes x) v.issue).accessed

theorem Core.accessed_deliver (c : Core) (p : Pending) : (c.deliver p).accessed = c.accessed := by
  obtain ⟨l, e, -⟩ := c.deliver_eq p
  rw [e]
  exact (c.writeDest_data p.dst p.val p.issue).accessed

theorem accessed_foldl {α : Type} {f : Core → α → Core} (hf : ∀ (c : Core) (x : α), c.accessed = false → (f c x).accessed = false) (l : List α)
    {c : Core} (h : c.accessed = false) : (l.foldl f c).accessed = false := by
  induction l generalizing c with
  | nil => exact h
  | cons x l ih => exact ih (hf c x h)

theorem Core.accessed_older {c : Core} (h : c.accessed = false) : c.older.accessed = false := by
  have settled : c.settleVars.accessed = false := accessed_foldl (f := Core.settleVar) (fun c v h => by
    unfold Core.settleVar
    split
    · rw [Core.accessed_writeVar, h]
    · rw [Core.accessed_writeVar, h]
    · exact h) c.vars h
  have delivered : (c.settleVars.pending.foldl Core.deliver { c.settleVars with pending := [] }).accessed = false :=
    accessed_foldl (fun c p h => (c.accessed_deliver p).trans h) _ settled
  exact accessed_foldl (f := Core.actEvent) (fun c e h => Core.accessed_actEvent h e) _ delivered

/-! ## Abandoned regions (R239) -/

theorem Core.stamp_acted (c : Core) : c.Acted c.stamp := by
  unfold Core.stamp
  split <;> rfl

theorem Core.stamp_idle {c : Core} (h : c.accessed = false) : c.stamp = c := by
  simp [Core.stamp, h]

theorem Core.accessed_stamp (c : Core) : c.stamp.accessed = false := by
  unfold Core.stamp
  split
  · rfl
  · next h => exact Bool.eq_false_iff.mpr h

theorem Core.abandon_none {c : Core} (h : c.arr.region = none) : c.abandon = c := by
  unfold Core.abandon
  rw [h]

/-- Is a destination a place in a queue? -/
def Dest.isPush : Dest → Bool
  | .dq _ | .eq _ | .cq | .entry .. => true
  | _ => false

/-- What an abandoned region leaves of the array. -/
def MxArray.discard (x : MxArray) (r : Region) : MxArray :=
  { x with
    events := x.events.filter fun e => !e.inRegion
    carry := [], rc := x.rc.setIfInBounds r.tile r.rc, active := r.active, region := none
    abandoned := some { r with log := none } }

/-- What an abandoned region leaves of the core, but for the tokens that complete with it. -/
def Core.discard (c : Core) (r : Region) : Core :=
  { c with
    arr := c.arr.discard r
    dq := c.dq.map (keepBefore r.openStep), eq := c.eq.map (keepBefore r.openStep), cq := keepBefore r.openStep c.cq
    pending := c.pending.map fun p => if p.dst.isPush && r.openStep ≤ p.issue then { p with dst := .none } else p
    vars := c.vars.filter fun v => !(v.dst.isPush && decide (r.openStep ≤ v.issue)) }

theorem foldl_setToken (l : List Nat) (c : Core) : ∃ t, l.foldl (fun d k => d.setToken k .complete) c = { c with tokens := t } := by
  induction l generalizing c with
  | nil => exact ⟨c.tokens, rfl⟩
  | cons k l ih =>
    obtain ⟨t, h⟩ := ih (c.setToken k .complete)
    refine ⟨t, ?_⟩
    rw [List.foldl_cons, h, Core.setToken_frame]

theorem Core.abandon_some {c : Core} {r : Region} (h : c.arr.region = some r) : ∃ t, c.abandon = { c.discard r with tokens := t } := by
  unfold Core.abandon
  rw [h]
  exact foldl_setToken _ (c.discard r)

/-! ## The age of what the queues hold (R239) -/

/-- Every entry of a queue was issued before a step. -/
def Core.queuedBefore (c : Core) (n : Nat) : Prop :=
  (∀ q : Fin 4, ∀ e ∈ c.dq[q], e.issue < n) ∧ (∀ q : Fin 2, ∀ e ∈ c.eq[q], e.issue < n) ∧ ∀ e ∈ c.cq, e.issue < n

theorem Core.queuedBefore_of_eq {c d : Core} {n : Nat} (h : c.queuedBefore n) (hd : d.dq = c.dq) (he : d.eq = c.eq) (hc : d.cq = c.cq) :
    d.queuedBefore n := by
  unfold Core.queuedBefore
  rw [hd, he, hc]
  exact h

theorem forall_mem_setIfInBounds {α : Type} {n : Nat} {P : α → Prop} {v : Vector (List α) n} (h : ∀ q : Fin n, ∀ e ∈ v[q], P e) (m : Nat)
    {l : List α} (hl : ∀ e ∈ l, P e) (q : Fin n) : ∀ e ∈ (v.setIfInBounds m l)[q], P e := by
  intro e he
  rw [Fin.getElem_fin, Vector.getElem_setIfInBounds] at he
  split at he
  · exact hl e he
  · exact h q e he

theorem forall_mem_getD {α : Type} {n : Nat} {P : α → Prop} {v : Vector (List α) n} (h : ∀ q : Fin n, ∀ e ∈ v[q], P e) (m : Nat) :
    ∀ e ∈ v.toList.getD m [], P e := by
  intro e he
  by_cases hm : m < n
  · exact h ⟨m, hm⟩ e (by simpa [List.getD, hm] using he)
  · simp [List.getD, hm] at he

/-- A write with the step of its issue keeps the age of the queues. -/
theorem Core.queuedBefore_writeDest {c : Core} {n : Nat} (h : c.queuedBefore n) {dst : Dest} {issue : Nat} (hi : dst.isPush = true → issue < n)
    (x : Val) : (c.writeDest dst x issue).queuedBefore n := by
  obtain ⟨hdq, heq, hcq⟩ := h
  have pushed {l : List QEntry} (hl : ∀ e ∈ l, e.issue < n) (hi : issue < n) : ∀ e ∈ l ++ [QEntry.of x issue], e.issue < n :=
    List.forall_mem_append.mpr ⟨hl, by simpa [QEntry.of] using hi⟩
  cases dst with
  | v m =>
    obtain ⟨d, hd, e⟩ := c.setV_frame m x.bits
    rw [Core.writeDest, e, hd]
    exact ⟨hdq, heq, hcq⟩
  | s m => rw [Core.writeDest, Core.setS_frame]; exact ⟨hdq, heq, hcq⟩
  | m m => rw [Core.writeDest, Core.setM_frame]; exact ⟨hdq, heq, hcq⟩
  | f m => rw [Core.writeDest, Core.setF_frame]; exact ⟨hdq, heq, hcq⟩
  | none => exact ⟨hdq, heq, hcq⟩
  | ap m => exact ⟨hdq, heq, hcq⟩
  | dq m => exact ⟨forall_mem_setIfInBounds hdq m (pushed (forall_mem_getD hdq m) (hi rfl)), heq, hcq⟩
  | eq m => exact ⟨hdq, forall_mem_setIfInBounds heq m (pushed (forall_mem_getD heq m) (hi rfl)), hcq⟩
  | cq => exact ⟨hdq, heq, pushed hcq (hi rfl)⟩
  | entry m id =>
    refine ⟨forall_mem_setIfInBounds hdq m (List.forall_mem_map.mpr fun e he => ?_), heq, hcq⟩
    have old := forall_mem_getD hdq m e he
    split <;> exact old

theorem Core.queuedBefore_writeVar {c : Core} {n : Nat} (h : c.queuedBefore n) {v : VarRes} (hv : v.dst.isPush = true → v.issue < n) (x : Val) :
    (c.writeVar v x).queuedBefore n := by
  rw [Core.writeVar_eq]
  exact Core.queuedBefore_writeDest (c := { c with vars := c.vars.filter fun w => w.id != v.id }) h hv _

theorem Core.queuedBefore_deliver {c : Core} {n : Nat} (h : c.queuedBefore n) {p : Pending} (hp : p.dst.isPush = true → p.issue < n) :
    (c.deliver p).queuedBefore n := by
  obtain ⟨l, e, -⟩ := c.deliver_eq p
  rw [e]
  exact Core.queuedBefore_writeDest h hp p.val

theorem Core.queuedBefore_actEvent {c : Core} {n : Nat} (h : c.queuedBefore n) (e : AccEvent) : (c.actEvent e).queuedBefore n := by
  have only := c.actEvent_event e
  exact Core.queuedBefore_of_eq h (by rw [only]) (by rw [only]) (by rw [only])

theorem queuedBefore_foldl {α : Type} {f : Core → α → Core} {n : Nat} (l : List α)
    (hf : ∀ c : Core, ∀ x ∈ l, c.queuedBefore n → (f c x).queuedBefore n) {c : Core} (h : c.queuedBefore n) : (l.foldl f c).queuedBefore n := by
  induction l generalizing c with
  | nil => exact h
  | cons x l ih => exact ih (fun c y hy => hf c y (List.mem_cons_of_mem x hy)) (hf c x List.mem_cons_self h)

/-- Older results that push were issued before a step, if those outstanding were. -/
theorem Core.queuedBefore_older {c : Core} {n : Nat} (h : c.queuedBefore n) (hv : ∀ v ∈ c.vars, v.dst.isPush = true → v.issue < n)
    (hp : ∀ p ∈ c.pending, p.dst.isPush = true → p.issue < n) : c.older.queuedBefore n := by
  have settled : c.settleVars.queuedBefore n := queuedBefore_foldl (f := Core.settleVar) c.vars (fun c v hmem h => by
    unfold Core.settleVar
    split
    · exact Core.queuedBefore_writeVar h (hv v hmem) _
    · exact Core.queuedBefore_writeVar h (hv v hmem) _
    · exact h) h
  have pending : c.settleVars.pending = c.pending := c.settleVars_acted.pending
  have delivered : (c.settleVars.pending.foldl Core.deliver { c.settleVars with pending := [] }).queuedBefore n :=
    queuedBefore_foldl _ (fun c p hmem h => Core.queuedBefore_deliver h (hp p (pending ▸ hmem))) settled
  exact queuedBefore_foldl (f := Core.actEvent) _ (fun c e _ h => Core.queuedBefore_actEvent h e) delivered

theorem keepBefore_issue {n : Nat} {q : List QEntry} : ∀ e ∈ keepBefore n q, e.issue < n := by
  simp [keepBefore]

/-- An abandonment leaves what its region did not push (R239). -/
theorem Core.queuedBefore_discard (c : Core) (r : Region) : (c.discard r).queuedBefore r.openStep :=
  ⟨fun q e he => keepBefore_issue (q := c.dq[q]) e (by simpa [Core.discard] using he),
    fun q e he => keepBefore_issue (q := c.eq[q]) e (by simpa [Core.discard] using he), fun e he => keepBefore_issue (q := c.cq) e he⟩

theorem Core.discard_vars (c : Core) (r : Region) : ∀ v ∈ (c.discard r).vars, v.dst.isPush = true → v.issue < r.openStep := by
  intro v hv hpush
  have kept := (List.mem_filter.mp hv).2
  simpa [hpush] using kept

theorem Core.discard_pending (c : Core) (r : Region) : ∀ p ∈ (c.discard r).pending, p.dst.isPush = true → p.issue < r.openStep := by
  intro p hp hpush
  obtain ⟨q, -, rfl⟩ := List.mem_map.mp hp
  split at hpush
  · cases hpush
  · next h =>
    rw [if_neg h]
    simpa [hpush] using h

end Sys2Proof.Machine
end

section
/-! PROOF. What a trap does before older results complete (R262, R266, R282, R284). -/
namespace Sys2Proof.Machine

variable {s t u : State}

/-! ## Arrivals taken back -/

/-- Barriers may differ, and the marks of the arrivals of the core in view, and of other cores. -/
def State.UnarrivedOnly (s t : State) : Prop :=
  t = { s with core := { s.core with arrived := t.core.arrived }, others := t.others, launch := { s.launch with barriers := t.launch.barriers } }

theorem State.UnarrivedOnly.refl (s : State) : s.UnarrivedOnly s := rfl

theorem State.UnarrivedOnly.trans (h : s.UnarrivedOnly t) (h' : t.UnarrivedOnly u) : s.UnarrivedOnly u := by
  unfold State.UnarrivedOnly at *
  rw [h', h]

theorem State.unarrivedOnly_modCore (s : State) (k : Nat) (f : List Nat → List Nat) :
    s.UnarrivedOnly (s.modCore k fun c => { c with arrived := f c.arrived }) := by
  unfold State.modCore State.setCore
  split
  · next e =>
    have viewed : s.coreAt k = s.core := by
      have kid : k = s.core.kid := (s.coreAt_kid k).symm.trans e
      rw [State.coreAt, if_pos kid]
    rw [viewed]
    rfl
  · split <;> rfl

theorem State.unarrive_only (s : State) (k : Nat) : s.UnarrivedOnly (s.unarrive k) := by
  unfold State.unarrive
  split
  · exact .refl s
  · next t _ =>
    have step (l : List Nat) : ∀ s : State, s.UnarrivedOnly (l.foldl (fun (s : State) mark =>
        let b := s.barrier (t.gang.getD 0) (mark - 8) t.path
        if mark < 8 || 16 ≤ mark || b.last t.rank != some b.phase then s
        else (s.setBarrier { b with arrived := b.arrived.filter fun x => x.1 != t.rank }).modCore k
          fun c => { c with arrived := c.arrived.filter (· != mark) }) s) := by
      induction l with
      | nil => exact State.UnarrivedOnly.refl
      | cons m l ih =>
        intro s
        refine State.UnarrivedOnly.trans ?_ (ih _)
        dsimp only
        split
        · exact .refl s
        · exact State.UnarrivedOnly.trans (t := s.setBarrier _) rfl (State.unarrivedOnly_modCore _ k fun l => l.filter (· != m))
    exact step _ s

/-- A core that has arrived nowhere has nothing to take back. -/
theorem State.unarrive_none (h : s.core.arrived = []) : s.unarrive s.core.kid = s := by
  have none : (s.coreAt s.core.kid).arrived = [] := by rw [State.coreAt, if_pos rfl, h]
  unfold State.unarrive
  split
  · rfl
  · rw [none]
    rfl

/-! ## Values sampled -/

theorem State.onOverflow_access (s : State) (ctx i : Nat) {f : State → Word → State × Nat} (hf : ∀ (s : State) (a : Word), s.AccessOnly (f s a).1) :
    s.AccessOnly (s.onOverflow ctx i f) := by
  unfold State.onOverflow
  split
  · exact .refl s
  · next c _ =>
    split
    · exact .refl s
    · have read := hf s (BitVec.ofNat 64 (c.ovfbase + 16 * i))
      dsimp only
      split
      · exact read
      · exact read.trans ⟨rfl, rfl, rfl⟩

theorem State.readOverflow_access (s : State) (ctx i : Nat) : s.AccessOnly (s.readOverflow ctx i) := by
  refine s.onOverflow_access ctx i fun s a => ?_
  have read := s.engRead_access 0 ctx a 16
  split <;> next e => rw [e] at read; exact read

theorem State.sampling_access (s : State) (k : VarKind) : s.AccessOnly (s.sampling k) := by
  cases k with
  | htest t g =>
    unfold State.sampling State.lookTag
    split
    · exact s.readOverflow_access ..
    · exact .refl s
  | _ => exact .refl s

/-- The state in which outstanding results take their values. -/
def State.looked (s : State) : State := s.core.vars.foldl (fun (s : State) v => s.sampling v.kind) s

theorem State.sampleVars_eq (s : State) : s.sampleVars = s.looked.withCore { s.looked.core with
    vars := s.looked.core.vars.map fun (v : VarRes) => { v with kind := .value (s.looked.sample s.looked.core v.kind) } } := rfl

theorem State.looked_access (s : State) : s.AccessOnly s.looked := by
  have step (l : List VarRes) : ∀ s : State, s.AccessOnly (l.foldl (fun (s : State) v => s.sampling v.kind) s) := by
    induction l with
    | nil => exact State.AccessOnly.refl
    | cons v l ih => exact fun s => (s.sampling_access v.kind).trans (ih _)
  exact step _ s

theorem State.sampleVars_sampled (s : State) : s.sampleVars.core.sampled := by
  intro v hv
  rw [State.sampleVars_eq] at hv
  obtain ⟨w, -, rfl⟩ := List.mem_map.mp hv
  exact ⟨_, rfl⟩

theorem State.sampleVars_none (h : s.core.vars = []) : s.sampleVars = s := by
  have looked : s.looked = s := by rw [State.looked, h]; rfl
  rw [State.sampleVars_eq, looked, h, List.map_nil, ← h]
  rfl

/-! ## Commands queued -/

/-- Only the commands, channels and counts of the core in view may differ. -/
def State.QueuedOnly (s t : State) : Prop := t = s.withCore (s.core.aside t.core)

theorem State.QueuedOnly.trans (h : s.QueuedOnly t) (h' : t.QueuedOnly u) : s.QueuedOnly u := by
  unfold State.QueuedOnly at *
  rw [h', h]
  rfl

theorem State.QueuedOnly.foldl {α : Type} {f : State → α → State} (hf : ∀ s x, State.QueuedOnly s (f s x)) (l : List α) (s : State) :
    s.QueuedOnly (l.foldl f s) := by
  induction l generalizing s with
  | nil => rfl
  | cons x l ih => exact (hf s x).trans (ih _)

theorem State.releaseHeld_only (s : State) : s.QueuedOnly s.releaseHeld := by
  unfold State.releaseHeld
  dsimp only
  refine (State.QueuedOnly.foldl (fun s x => ?_) s.core.cmds s).trans rfl
  split
  · split
    · unfold Core.clearHalt
      dsimp only
      split <;> rfl
    · rfl
  · rfl
  · rfl

theorem State.releaseHeld_eq (s : State) : s.releaseHeld = s.withCore s.releaseHeld.core := by
  have only := s.releaseHeld_only
  unfold State.QueuedOnly at only
  rw [only]
  rfl

theorem State.releaseHeld_core (s : State) : s.releaseHeld.core = s.core.aside s.releaseHeld.core := by
  have only := s.releaseHeld_only
  unfold State.QueuedOnly at only
  rw [only]
  rfl

/-! ## The core as the trap finds it -/

/-- Only what is sampled, queued or taken back may differ, and the bytes of the pool and what that keeps. -/
def Core.ReadyOnly (c d : Core) : Prop :=
  d = { c with
    arrived := d.arrived, cmds := d.cmds, chans := d.chans, seq := d.seq, ecHeld := d.ecHeld, vars := d.vars
    scratch := d.scratch, groups := d.groups, poison := d.poison, latent := d.latent, bankUe := d.bankUe, freeze := d.freeze
    recs := d.recs }

theorem Core.ReadyOnly.trans {c d e : Core} (h : c.ReadyOnly d) (h' : d.ReadyOnly e) : c.ReadyOnly e := by
  unfold Core.ReadyOnly at *
  rw [h', h]

theorem Core.BytesOnly.ready {c d : Core} (h : c.BytesOnly d) : c.ReadyOnly d := by
  unfold Core.BytesOnly Core.ReadyOnly at *
  rw [h]

theorem State.unarrive_ready (s : State) (k : Nat) : s.core.ReadyOnly (s.unarrive k).core := by
  have only := s.unarrive_only k
  unfold State.UnarrivedOnly at only
  rw [only]
  rfl

theorem State.sampleVars_ready (s : State) : s.core.ReadyOnly s.sampleVars.core := by
  rw [State.sampleVars_eq]
  exact s.looked_access.core.ready.trans rfl

theorem State.releaseHeld_ready (s : State) : s.core.ReadyOnly s.releaseHeld.core := by
  rw [State.releaseHeld_core]
  rfl

/-- The package as a trap finds it: squashed arrivals are taken back and results have their values. -/
def State.readied (s : State) : State := (s.unarrive s.core.kid).sampleVars

theorem State.readied_core (s : State) : s.core.ReadyOnly s.readied.releaseHeld.core :=
  ((s.unarrive_ready _).trans (State.sampleVars_ready _)).trans (State.releaseHeld_ready _)

theorem State.readied_sampled (s : State) : s.readied.releaseHeld.core.sampled := by
  rw [State.releaseHeld_core]
  exact State.sampleVars_sampled _

end Sys2Proof.Machine
end

section
/-! PROOF. The core after a trap (R284, R32, R239, R240). -/
namespace Sys2Proof.Machine

variable {b : Core}

/-- Only what the completion of older results changes may differ, with what it empties. -/
def Core.OlderOnly (c d : Core) : Prop :=
  d = { c with
    sregs := d.sregs, vregs := d.vregs, mregs := d.mregs, flags := d.flags, aps := d.aps, dq := d.dq, eq := d.eq, cq := d.cq
    latches := d.latches, tokens := d.tokens, tiles := d.tiles, scratch := d.scratch, audits := d.audits
    pts := d.pts, fresh := d.fresh, accessed := d.accessed, pending := d.pending, vars := d.vars, arr := d.arr
    groups := d.groups, poison := d.poison, latent := d.latent, bankUe := d.bankUe, freeze := d.freeze, recs := d.recs }

theorem Core.OlderOnly.trans {c d e : Core} (h : c.OlderOnly d) (h' : d.OlderOnly e) : c.OlderOnly e := by
  unfold Core.OlderOnly at *
  rw [h', h]

theorem Core.Acted.olderOnly {c d : Core} (h : c.Acted d) : c.OlderOnly d := by
  unfold Core.Acted Core.OlderOnly at *
  rw [h]

theorem Core.older_only (c : Core) : c.OlderOnly c.older :=
  Core.OlderOnly.trans (d := { c with vars := c.older.vars, pending := [], arr := { c.arr with events := [] } }) rfl c.older_acted.olderOnly

theorem Core.abandon_only (c : Core) : c.OlderOnly c.abandon := by
  cases h : c.arr.region with
  | none => rw [Core.abandon_none h]; rfl
  | some r =>
    obtain ⟨t, e⟩ := Core.abandon_some h
    rw [e]
    rfl

theorem Core.completeOlder_only (c : Core) : c.OlderOnly c.completeOlder := by
  rw [Core.completeOlder_eq]
  exact (c.stamp_acted.olderOnly.trans c.stamp.abandon_only).trans (Core.older_only _)

theorem Core.stamp_sampled (h : b.sampled) : b.stamp.sampled := by
  unfold Core.sampled
  rw [b.stamp_acted.vars]
  exact h

theorem Core.abandon_sampled (h : b.sampled) : b.abandon.sampled := by
  cases hr : b.arr.region with
  | none => rwa [Core.abandon_none hr]
  | some r =>
    obtain ⟨t, e⟩ := Core.abandon_some hr
    rw [e]
    exact fun v hv => h v (List.mem_filter.mp hv).1

theorem Core.completeOlder_vars (h : b.sampled) : b.completeOlder.vars = [] :=
  (Core.abandon_sampled (Core.stamp_sampled h)).older

theorem Core.completeOlder_pending (b : Core) : b.completeOlder.pending = [] := by
  rw [Core.completeOlder_eq, (Core.older_acted _).pending]

theorem Core.completeOlder_arr (b : Core) : b.completeOlder.arr = { b.stamp.abandon.arr with events := [] } := by
  rw [Core.completeOlder_eq, (Core.older_acted _).arr]

theorem Core.abandon_region (b : Core) : b.abandon.arr.region = none := by
  cases hr : b.arr.region with
  | none => rwa [Core.abandon_none hr]
  | some r =>
    obtain ⟨t, e⟩ := Core.abandon_some hr
    rw [e]
    rfl

/-- A trap that ends its task: the core stays as it is and its context is terminated (R26, R33). -/
def State.trapEnds (w : State) (b d : Core) (cause type : Nat) (run : RunState) : State :=
  { w with
    core := { d with run := run }
    mem := { w.mem with
      recs := w.mem.recs ++ [⟨0, b.kid, type, 0, some b.ctx, cause, d.trappc, d.trapinfo, 0, 0, 0⟩]
      doomed := w.mem.doomed ++ [⟨b.ctx, type, none⟩] } }

theorem State.takeTrap_eq (s : State) (t : TrapInfo) (pc : Word) (j : Nat) (rpt : Bool) (loops : List Level) :
    s.takeTrap t pc j rpt loops =
      if s.readied.releaseHeld.core.intrap then
        s.readied.trapEnds s.readied.releaseHeld.core (s.readied.releaseHeld.core.enterTrap t pc j rpt loops) t.cause 0x0011 .halted
      else match (if t.cause = 0x15 then s.readied.ggemmTask else none) with
        | some x => (s.readied.withCore s.readied.releaseHeld.core.abort).report x.launch ⟨0x0060, x.path.getD 0 0, x.path⟩
        | none =>
          if s.readied.releaseHeld.core.tvec = 0 then
            s.readied.trapEnds s.readied.releaseHeld.core (s.readied.releaseHeld.core.enterTrap t pc j rpt loops) t.cause 0x0010 .running
          else s.readied.withCore (s.readied.releaseHeld.core.enterTrap t pc j rpt loops) := by
  have kid : s.readied.releaseHeld.core.kid = s.readied.core.kid := by rw [State.releaseHeld_core]; rfl
  have task : s.readied.releaseHeld.ggemmTask = s.readied.ggemmTask := by
    rw [State.ggemmTask, kid, State.releaseHeld_eq]
    rfl
  have released := s.readied.releaseHeld_eq
  unfold State.takeTrap
  rw [show (s.unarrive s.core.kid).sampleVars = s.readied from rfl]
  dsimp only
  rw [task]
  generalize s.readied.releaseHeld = r at released ⊢
  generalize r.core = b at released ⊢
  subst released
  rfl

end Sys2Proof.Machine
end

section
/-! PROOF. The obligation on trap entry. -/
namespace Sys2Proof.Machine

section
variable {c d : Core} (h : c.ReadyOnly d)
include h

theorem Core.ReadyOnly.kid : d.kid = c.kid := by rw [h]
theorem Core.ReadyOnly.ctx : d.ctx = c.ctx := by rw [h]
theorem Core.ReadyOnly.intrap : d.intrap = c.intrap := by rw [h]
theorem Core.ReadyOnly.tvec : d.tvec = c.tvec := by rw [h]
theorem Core.ReadyOnly.step : d.step = c.step := by rw [h]
theorem Core.ReadyOnly.arr : d.arr = c.arr := by rw [h]

end

section
variable {c d : Core} (h : c.OlderOnly d)
include h

theorem Core.OlderOnly.tvec : d.tvec = c.tvec := by rw [h]
theorem Core.OlderOnly.step : d.step = c.step := by rw [h]

end

/-- What the record of a task that a trap ends names. -/
theorem State.trapEnds_eq {c b : Core} (h : c.ReadyOnly b) (w : State) (d : Core) (cause type : Nat) (run : RunState) :
    w.trapEnds b d cause type run = { w with
      core := (w.trapEnds b d cause type run).core
      mem := { w.mem with
        recs := w.mem.recs ++ [⟨0, c.kid, type, 0, some c.ctx, cause, (w.trapEnds b d cause type run).core.trappc,
          (w.trapEnds b d cause type run).core.trapinfo, 0, 0, 0⟩]
        doomed := w.mem.doomed ++ [⟨c.ctx, type, none⟩] } } := by
  unfold State.trapEnds
  rw [h.kid, h.ctx]

theorem TrapInfo.encode_eq {t : TrapInfo} (hc : t.cause < 2 ^ 8) :
    t.encode = BitVec.ofNat 64 (t.cause + if t.hdr then 2 ^ 11 else 2 ^ 8 * t.slot) := by
  have small : t.cause % 256 = t.cause := Nat.mod_eq_of_lt hc
  unfold TrapInfo.encode
  rw [small]
  cases t.hdr <;> simp [b2n]

section
variable {s : State} {t : TrapInfo} {pc : Word} {j : Nat} {rpt : Bool} {loops : List Level}

/-- A trap in a handler (R33). -/
theorem State.takeTrap_double (h : s.core.intrap = true) : s.takeTrap t pc j rpt loops =
    s.readied.trapEnds s.readied.releaseHeld.core (s.readied.releaseHeld.core.enterTrap t pc j rpt loops) t.cause 0x0011 .halted := by
  rw [State.takeTrap_eq, if_pos (s.readied_core.intrap.trans h)]

theorem State.readied_handles (h : s.core.intrap = false) : ¬ s.readied.releaseHeld.core.intrap = true := by
  rw [s.readied_core.intrap, h]
  exact Bool.false_ne_true

/-- Any other trap, unless it fails a GGEMM tile (R26). -/
theorem State.takeTrap_single (h : s.core.intrap = false) (hp : t.cause ≠ 0x15 ∨ s.readied.ggemmTask = none) :
    s.takeTrap t pc j rpt loops =
      if s.core.tvec = 0 then
        s.readied.trapEnds s.readied.releaseHeld.core (s.readied.releaseHeld.core.enterTrap t pc j rpt loops) t.cause 0x0010 .running
      else s.readied.withCore (s.readied.releaseHeld.core.enterTrap t pc j rpt loops) := by
  have none : (if t.cause = 0x15 then s.readied.ggemmTask else none) = none := by
    split
    · next e => exact hp.resolve_left (absurd e)
    · rfl
  rw [State.takeTrap_eq, if_neg (State.readied_handles h), none, s.readied_core.tvec]

/-- A replay operand lost by a GGEMM tile (R242). -/
theorem State.takeTrap_tile {x : Task} (h : s.core.intrap = false) (hc : t.cause = 0x15) (hx : s.readied.ggemmTask = some x) :
    s.takeTrap t pc j rpt loops =
      (s.readied.withCore s.readied.releaseHeld.core.abort).report x.launch ⟨0x0060, x.path.getD 0 0, x.path⟩ := by
  rw [State.takeTrap_eq, if_neg (State.readied_handles h), if_pos hc, hx]

end

/-- The array after older results have completed, in a core whose region is abandoned (R239). -/
theorem Core.completeOlder_region {b : Core} {r : Region} (h : b.arr.region = some r) :
    b.completeOlder.arr = { b.arr.discard r with events := [] } := by
  have stamped : b.stamp.arr = b.arr := b.stamp_acted.arr
  obtain ⟨t, e⟩ := Core.abandon_some (stamped ▸ h : b.stamp.arr.region = some r)
  rw [Core.completeOlder_arr, e, ← stamped]
  rfl

theorem Core.completeOlder_queues {b : Core} {r : Region} (h : b.arr.region = some r) : b.completeOlder.queuedBefore r.openStep := by
  have stamped : b.stamp.arr = b.arr := b.stamp_acted.arr
  obtain ⟨t, e⟩ := Core.abandon_some (stamped ▸ h : b.stamp.arr.region = some r)
  rw [Core.completeOlder_eq, e]
  exact Core.queuedBefore_older (c := { b.stamp.discard r with tokens := t }) (b.stamp.queuedBefore_discard r) (b.stamp.discard_vars r)
    (b.stamp.discard_pending r)

/-- What trap entry makes of a core whose older results have completed; `b` is the core as the trap found it. -/
def Core.trapped (b o : Core) (t : TrapInfo) (pc : Word) (j : Nat) (rpt : Bool) (loops : List Level) : Core :=
  { o with
    arr := if t.cause = 0x15 then { o.arr with abandoned := none } else o.arr
    trappc := match b.arr.region with | some r => r.pc | none => pc
    rptidx := match b.arr.region with | some _ => 0 | none => j
    tls := match b.arr.region with | some r => r.loops | none => loops
    shadow := match b.arr.region with | some _ => Latches.empty | none => o.latches
    inrpt := match b.arr.region with | some _ => false | none => rpt
    trapcause := t.encode, trapinfo := t.info, loops := [], intrap := true, latches := Latches.empty
    pc := o.tvec, step := o.step + 1, tokens := (o.setToken b.leftTok .complete).tokens
    cur := none, act := .none, retiring := false, point := false, raised := none, stalled := none, prodTok := 0, leftTok := 0
    brkExempt := .none, fenceWait := false, resumed := false, room := [], loans := [] }

section
variable {b o : Core} {t : TrapInfo} {pc : Word} {j : Nat} {rpt : Bool} {loops : List Level}

theorem Core.enterTrap_eq : b.enterTrap t pc j rpt loops = b.trapped b.completeOlder t pc j rpt loops := rfl

theorem Core.trapped_arr : ∃ z, (b.trapped o t pc j rpt loops).arr = { o.arr with abandoned := z } := by
  unfold Core.trapped
  dsimp only
  split
  · exact ⟨none, rfl⟩
  · exact ⟨_, rfl⟩

theorem Core.trapped_none (h : b.arr.region = none) : (b.trapped o t pc j rpt loops).trappc = pc ∧
    (b.trapped o t pc j rpt loops).rptidx = j ∧ (b.trapped o t pc j rpt loops).tls = loops ∧
    (b.trapped o t pc j rpt loops).inrpt = rpt ∧ (b.trapped o t pc j rpt loops).shadow = o.latches := by
  unfold Core.trapped
  rw [h]
  exact ⟨rfl, rfl, rfl, rfl, rfl⟩

theorem Core.trapped_some {r : Region} (h : b.arr.region = some r) : (b.trapped o t pc j rpt loops).trappc = r.pc ∧
    (b.trapped o t pc j rpt loops).rptidx = 0 ∧ (b.trapped o t pc j rpt loops).tls = r.loops ∧
    (b.trapped o t pc j rpt loops).inrpt = false ∧ (b.trapped o t pc j rpt loops).shadow = Latches.empty := by
  unfold Core.trapped
  rw [h]
  exact ⟨rfl, rfl, rfl, rfl, rfl⟩

end

/-- What a task that ends where it stands leaves, from the core whose older results have completed. -/
def Core.aborted (b o : Core) : Core :=
  { o with
    run := .exiting, arr := { o.arr with abandoned := none }, cur := none, act := .none, retiring := false, point := false
    tokens := (o.setToken b.leftTok .complete).tokens
    raised := none, stalled := none, prodTok := 0, leftTok := 0, fenceWait := false, room := [], loans := [] }

theorem Core.abort_eq (b : Core) : b.abort = b.aborted b.completeOlder := rfl

/-- A trap that is entered leaves the core of `Core.enterTrap`, in one run state or another. -/
theorem State.takeTrap_core {s : State} {t : TrapInfo} {pc : Word} {j : Nat} {rpt : Bool} {loops : List Level}
    (h : s.core.intrap = true ∨ (t.cause ≠ 0x15 ∨ s.readied.ggemmTask = none)) :
    ∃ run, (s.takeTrap t pc j rpt loops).core =
      { s.readied.releaseHeld.core.trapped s.readied.releaseHeld.core.completeOlder t pc j rpt loops with run := run } := by
  rw [← Core.enterTrap_eq]
  cases hi : s.core.intrap with
  | true => exact ⟨.halted, by rw [State.takeTrap_double hi, State.trapEnds]⟩
  | false =>
    rw [State.takeTrap_single hi (h.resolve_left (by rw [hi]; exact Bool.false_ne_true))]
    generalize s.readied.releaseHeld.core.enterTrap t pc j rpt loops = e
    split
    · exact ⟨.running, rfl⟩
    · exact ⟨e.run, rfl⟩

/-- Settles O47: the core that a trap finds has every result sampled (`State.readied_sampled`), so that all of them are written; what
`Core.completeOlder_only` leaves is saved by `Core.enterTrap`. -/
theorem trapEntry : Obligations.TrapEntry := by
  intro s t pc j rpt loops c w u d plain ends
  let b := s.readied.releaseHeld.core
  have ready : c.ReadyOnly b := s.readied_core
  have sampled : b.sampled := s.readied_sampled
  have only : b.OlderOnly b.completeOlder := b.completeOlder_only
  have ended (type : Nat) (run : RunState) (h : u = w.trapEnds b (b.enterTrap t pc j rpt loops) t.cause type run) : ends type := by
    have named := State.trapEnds_eq ready w (b.enterTrap t pc j rpt loops) t.cause type run
    rw [← h] at named
    exact named
  refine ⟨fun ha hv => ?_, fun h => ⟨ended _ _ (State.takeTrap_double h), ?_⟩, fun h ht hp => ended _ .running ?_, fun h ht hp => ?_,
    fun x h hc hx => ?_, fun h => ?_⟩
  · change (s.unarrive s.core.kid).sampleVars = s
    rw [State.unarrive_none ha, State.sampleVars_none hv]
  · change (s.takeTrap t pc j rpt loops).core.run = _
    rw [State.takeTrap_double h]
    rfl
  · exact (State.takeTrap_single h hp).trans (if_pos ht)
  · have taken : u = w.withCore (b.enterTrap t pc j rpt loops) := (State.takeTrap_single h hp).trans (if_neg ht)
    change u = w.withCore u.core
    rw [taken]
    rfl
  · have taken : u = (w.withCore b.abort).report x.launch ⟨0x0060, x.path.getD 0 0, x.path⟩ := State.takeTrap_tile h hc hx
    have core : d = b.abort := by change u.core = _; rw [taken]; rfl
    have pending := b.completeOlder_pending
    have vars := Core.completeOlder_vars sampled
    have events : b.completeOlder.arr.events = [] := congrArg MxArray.events b.completeOlder_arr
    rw [core, taken, Core.abort_eq]
    generalize b.completeOlder = o at pending vars events
    exact ⟨rfl, pending, vars, events, rfl⟩
  · obtain ⟨run, hd⟩ : ∃ run, d = { b.trapped b.completeOlder t pc j rpt loops with run := run } := State.takeTrap_core h
    have tvec : b.completeOlder.tvec = c.tvec := only.tvec.trans ready.tvec
    have step : b.completeOlder.step = c.step := only.step.trans ready.step
    have pending := b.completeOlder_pending
    have vars := Core.completeOlder_vars sampled
    have events : b.completeOlder.arr.events = [] := congrArg MxArray.events b.completeOlder_arr
    have region : b.completeOlder.arr.region = none := (congrArg MxArray.region b.completeOlder_arr).trans b.stamp.abandon_region
    have left (r : Region) (h : b.arr.region = some r) := And.intro (Core.completeOlder_region h) (Core.completeOlder_queues h)
    have older := b.completeOlder_eq
    generalize b.completeOlder = o at hd tvec step pending vars events region left older
    obtain ⟨z, arr⟩ := Core.trapped_arr (b := b) (o := o) (t := t) (pc := pc) (j := j) (rpt := rpt) (loops := loops)
    rw [hd]
    refine ⟨tvec, tvec, rfl, rfl, rfl, rfl, pending, vars, (congrArg MxArray.events arr).trans events,
      (congrArg MxArray.region arr).trans region, congrArg (· + 1) step, rfl, rfl, fun hc _ => TrapInfo.encode_eq hc, ?_⟩
    intro b' o'
    have same : o' = o := older.symm
    clear_value o'
    subst same
    have saved : c.tvec = o'.tvec := tvec.symm
    rw [saved]
    refine ⟨⟨rfl, rfl, rfl, rfl, rfl, rfl, rfl, rfl, rfl, rfl, rfl, rfl, rfl⟩, rfl, fun hc => if_neg hc, rfl, ?_⟩
    have found : c.arr = b.arr := ready.arr.symm
    rw [found]
    cases hr : b.arr.region with
    | none =>
      obtain ⟨htrappc, hrptidx, htls, hinrpt, hshadow⟩ := Core.trapped_none (o := o') (t := t) (pc := pc) (j := j) (rpt := rpt) (loops := loops) hr
      exact ⟨htrappc, hrptidx, htls, hinrpt, hshadow, Core.abandon_none ((congrArg MxArray.region b.stamp_acted.arr).trans hr)⟩
    | some r =>
      obtain ⟨htrappc, hrptidx, htls, hinrpt, hshadow⟩ := Core.trapped_some (o := o') (t := t) (pc := pc) (j := j) (rpt := rpt) (loops := loops) hr
      obtain ⟨harr, hdq, heq, hcq⟩ := left r hr
      rw [harr] at arr
      exact ⟨hdq, heq, hcq, htrappc, hrptidx, htls, hinrpt, hshadow, congrArg MxArray.carry arr, congrArg MxArray.active arr,
        congrArg MxArray.rc arr⟩

end Sys2Proof.Machine
end

section
/-! PROOF. The image that a stop keeps (R32, R250, R284, R288). -/
namespace Sys2Proof.Machine

/-! ## Commands squashed (R250) -/

/-- Only the commands and channels of a core may differ. -/
def Core.CmdsOnly (c d : Core) : Prop := d = { c with cmds := d.cmds, chans := d.chans }

theorem Core.CmdsOnly.trans {c d e : Core} (h : c.CmdsOnly d) (h' : d.CmdsOnly e) : c.CmdsOnly e := by
  unfold Core.CmdsOnly at *
  rw [h', h]

theorem Core.squash_only (c : Core) (x : Cmd) : c.CmdsOnly (c.squash x) := by
  unfold Core.squash
  dsimp only
  split <;> rfl

theorem foldl_squash_only (l : List Cmd) (c : Core) : c.CmdsOnly (l.foldl Core.squash c) := by
  induction l generalizing c with
  | nil => rfl
  | cons x l ih => exact (c.squash_only x).trans (ih _)

/-- A copy that can be squashed and has moved. -/
def Cmd.moving (y : Cmd) : Prop := y.kind.onChannel = true ∧ y.kind ≠ .cpyr ∧ y.phase = .started

/-- A squash leaves its own command queued, and makes no other one move. -/
theorem Core.squash_moving {c : Core} {x y : Cmd} (hy : y ∈ (c.squash x).cmds) (hm : y.moving) : y ∈ c.cmds ∧ y ≠ x := by
  obtain ⟨hch, hr, hph⟩ := hm
  unfold Core.squash at hy
  dsimp only at hy
  split at hy
  · next h =>
    refine ⟨hy, ?_⟩
    rintro rfl
    simp [hch, hr, hph] at h
  · obtain ⟨z, hz, e⟩ := List.mem_map.mp hy
    split at e
    · subst e
      cases hph
    · next h =>
      subst e
      exact ⟨hz, fun e => h (congrArg Cmd.id e)⟩

theorem foldl_squash_moving {l : List Cmd} {c : Core} {y : Cmd} (hy : y ∈ (l.foldl Core.squash c).cmds) (hm : y.moving) :
    y ∈ c.cmds ∧ y ∉ l := by
  induction l generalizing c with
  | nil => exact ⟨hy, List.not_mem_nil⟩
  | cons x l ih =>
    obtain ⟨kept, other⟩ := ih hy
    obtain ⟨held, ne⟩ := Core.squash_moving kept hm
    exact ⟨held, fun h => (List.mem_cons.mp h).elim ne other⟩

/-- What a save keeps of a core whose older results have completed; `joined` names the COLLs that have been performed. -/
def Core.halted (o : Core) (joined : Nat → Bool) : Core :=
  let d := o.cmds.foldl Core.squash o
  { d with
    cmds := d.cmds.map fun (x : Cmd) => if joined x.id then { x with phase := .queued } else x
    cur := none, point := false, stalled := none, room := [], loans := [] }

theorem Core.halted_eq (o : Core) (joined : Nat → Bool) : o.halted joined = { o with
    cmds := (o.halted joined).cmds, chans := (o.halted joined).chans, cur := none, point := false, stalled := none, room := [], loans := [] } := by
  have only := foldl_squash_only o.cmds o
  unfold Core.CmdsOnly at only
  unfold Core.halted
  generalize o.cmds.foldl Core.squash o = d at only
  rw [only]

theorem Core.halted_still (o : Core) (joined : Nat → Bool) {y : Cmd} (hy : y ∈ (o.halted joined).cmds) : ¬ y.moving := by
  intro hm
  obtain ⟨z, hz, e⟩ := List.mem_map.mp hy
  split at e
  · subst e
    cases hm.2.2
  · subst e
    obtain ⟨held, other⟩ := foldl_squash_moving hz hm
    exact other held

/-! ## The save -/

theorem State.passMarkers_launch (s : State) (k id : Nat) : (s.passMarkers k id).launch = s.launch := by
  unfold State.passMarkers
  split <;> rfl

theorem State.endRaces_launch (s : State) (k id : Nat) : (s.endRaces k id).launch = s.launch := by
  unfold State.endRaces
  split <;> rfl

theorem foldl_passed_launch (l : List Cmd) (s : State) (k : Nat) :
    (l.foldl (fun (s : State) x => (s.passMarkers k x.id).endRaces k x.id) s).launch = s.launch := by
  induction l generalizing s with
  | nil => rfl
  | cons x l ih => rw [List.foldl_cons, ih, State.endRaces_launch, State.passMarkers_launch]

/-- A core has nothing outstanding. -/
structure Core.Idle (c : Core) : Prop where
  accessed : c.accessed = false
  pending : c.pending = []
  vars : c.vars = []
  events : c.arr.events = []
  region : c.arr.region = none

theorem Core.Idle.completeOlder {c : Core} (h : c.Idle) : c.completeOlder = c := by
  have settledVars : c.settleVars = c := by rw [Core.settleVars_eq, h.vars]; rfl
  have settled : c.settle = c := by
    unfold Core.settle
    rw [h.pending]
    dsimp only [List.foldl_nil]
    rw [h.events, List.foldl_nil, ← h.events, ← h.pending]
  rw [Core.completeOlder_eq, Core.stamp_idle h.accessed, Core.abandon_none h.region, Core.older_eq, settledVars, settled]

/-- A completed core has nothing outstanding. -/
theorem Core.completeOlder_idle {b : Core} (h : b.sampled) : b.completeOlder.Idle := by
  refine ⟨?_, b.completeOlder_pending, Core.completeOlder_vars h, congrArg MxArray.events b.completeOlder_arr,
    (congrArg MxArray.region b.completeOlder_arr).trans b.stamp.abandon_region⟩
  have stamped := b.accessed_stamp
  rw [Core.completeOlder_eq]
  refine Core.accessed_older ?_
  cases hr : b.stamp.arr.region with
  | none => rwa [Core.abandon_none hr]
  | some r =>
    obtain ⟨t, e⟩ := Core.abandon_some hr
    rw [e]
    exact stamped

theorem Core.stamp_aside {a c : Core} : (c.aside a).stamp = c.stamp.aside a := ite_aside rfl rfl

theorem foldl_setToken_aside (a : Core) (l : List Nat) (c : Core) :
    l.foldl (fun (d : Core) k => d.setToken k .complete) (c.aside a) = (l.foldl (fun (d : Core) k => d.setToken k .complete) c).aside a :=
  foldl_aside (f := fun (d : Core) k => d.setToken k .complete) (fun _ _ => Core.setToken_aside ..) l c

theorem Core.abandon_aside {a c : Core} : (c.aside a).abandon = c.abandon.aside a := by
  cases h : c.arr.region with
  | none => rw [Core.abandon_none h, Core.abandon_none (c := c.aside a) h]
  | some r =>
    unfold Core.abandon
    rw [show (c.aside a).arr.region = some r from h, h]
    exact foldl_setToken_aside a _ (c.discard r)

/-- What completes does not depend on commands and arrivals. -/
theorem Core.completeOlder_aside {a c : Core} : (c.aside a).completeOlder = c.completeOlder.aside a := by
  rw [Core.completeOlder_eq, Core.stamp_aside, Core.abandon_aside, Core.older_aside, Core.completeOlder_eq]

/-! ## The save -/

/-- The package before a save takes the core, `colls` being the COLLs left. -/
def State.stopping (s : State) (k : Nat) : State :=
  ({ s with launch := { s.launch with colls := s.launch.colls.filter fun (y : CollCmd) => y.core != k } } : State).unarrive k

section
variable {s t : State} (h : s.UnarrivedOnly t)
include h

theorem State.UnarrivedOnly.core : t.core = { s.core with arrived := t.core.arrived } := by
  unfold State.UnarrivedOnly at h
  rw [h]

theorem State.UnarrivedOnly.launch : t.launch = { s.launch with barriers := t.launch.barriers } := by
  unfold State.UnarrivedOnly at h
  rw [h]

theorem State.UnarrivedOnly.saved : t.launch.saved = s.launch.saved := by
  rw [h.launch]

theorem State.UnarrivedOnly.nextId : t.launch.nextId = s.launch.nextId := by rw [h.launch]
theorem State.UnarrivedOnly.tasks : t.launch.tasks = s.launch.tasks := by rw [h.launch]

theorem State.UnarrivedOnly.mem : t.mem = s.mem := by
  unfold State.UnarrivedOnly at h
  rw [h]

end

theorem State.stopping_only (s : State) (k : Nat) : ({ s with launch := { s.launch with
    colls := s.launch.colls.filter fun (y : CollCmd) => y.core != k } } : State).UnarrivedOnly (s.stopping k) := State.unarrive_only ..

/-- The save of a core whose older results have completed; `r` is the package then, `o` the core. -/
def State.keep (r : State) (o : Core) (k slot : Nat) (forced : Bool) (t : Task) (joined : Nat → Bool) : State :=
  let d := o.halted joined
  let u := (d.cmds.filter fun x => x.stays && x.phase == .queued).foldl (fun (s : State) x => (s.passMarkers k x.id).endRaces k x.id) r
  { u with
    core := { d with run := .saving }
    launch := { u.launch with saved := u.launch.saved ++ [⟨u.launch.nextId, slot, forced, t, d, false⟩], nextId := u.launch.nextId + 1 } }

theorem State.beginSave_eq {s : State} {x : Task} {slot : Nat} (ht : s.taskOf s.core.kid = some x)
    (hs : s.freeSlot s.core.ctx = some slot) (forced : Bool) : s.beginSave forced =
      (s.sampleVars.stopping s.core.kid).keep (s.sampleVars.stopping s.core.kid).core.completeOlder s.core.kid slot forced x
        fun id => (s.sampleVars.collOf s.core.kid id).isSome := by
  unfold State.beginSave
  extract_lets k s1 joined src s2 s3 c d
  rw [ht, hs]
  have older : (s.sampleVars.stopping s.core.kid).core.completeOlder = d := rfl
  rw [older]
  clear_value d
  rfl

theorem State.keep_saved (r : State) (o : Core) (k slot : Nat) (forced : Bool) (t : Task) (joined : Nat → Bool) :
    (r.keep o k slot forced t joined).launch.saved = r.launch.saved ++ [⟨r.launch.nextId, slot, forced, t, o.halted joined, false⟩] := by
  unfold State.keep
  dsimp only
  rw [foldl_passed_launch]

/-- A save of a task keeps the core with its older results delivered, its copies squashed. -/
theorem State.beginSave_saves {s : State} {x : Task} {slot : Nat} (ht : s.taskOf s.core.kid = some x)
    (hs : s.freeSlot s.core.ctx = some slot) (forced : Bool) : ∃ (b : Core) (joined : Nat → Bool),
      b = { s.sampleVars.core with arrived := b.arrived } ∧
      (s.beginSave forced).core = { b.completeOlder.halted joined with run := .saving } ∧
      (s.beginSave forced).launch.saved =
        s.launch.saved ++ [⟨s.launch.nextId, slot, forced, x, b.completeOlder.halted joined, false⟩] := by
  have only := s.sampleVars.stopping_only s.core.kid
  have launch : s.sampleVars.launch = s.launch := s.looked_access.launch
  have saved : s.sampleVars.launch.saved = s.launch.saved := by rw [launch]
  have nextId : s.sampleVars.launch.nextId = s.launch.nextId := by rw [launch]
  refine ⟨(s.sampleVars.stopping s.core.kid).core, fun id => (s.sampleVars.collOf s.core.kid id).isSome, only.core, ?_⟩
  rw [State.beginSave_eq ht hs, State.keep_saved, only.saved, only.nextId, ← saved, ← nextId]
  exact ⟨rfl, rfl⟩

/-- The image of a stop is an earlier core but for its commands, channels and arrivals and for the bundle that it was to run. -/
def Core.stands (o d : Core) : Prop :=
  o.sameData d ∧ d = { o with
    cmds := d.cmds, chans := d.chans, arrived := d.arrived, cur := none, point := false, stalled := none, room := [], loans := [] }

theorem Core.halted_stands {c o b : Core} (hb : b = { c with arrived := b.arrived }) (ho : c.OlderOnly o) (joined : Nat → Bool) :
    o.stands ((o.aside b).halted joined) := by
  have seq : b.seq = o.seq := by rw [ho, hb]
  have ecHeld : b.ecHeld = o.ecHeld := by rw [ho, hb]
  have image := Core.halted_eq (o.aside b) joined
  generalize (o.aside b).halted joined = d at image
  unfold Core.aside at image
  rw [seq, ecHeld] at image
  rw [image]
  exact ⟨⟨rfl, rfl, rfl, rfl, rfl, rfl, rfl, rfl, rfl, rfl, rfl, rfl, rfl⟩, rfl⟩

theorem Core.Idle.halted {o : Core} (h : o.Idle) (joined : Nat → Bool) : (o.halted joined).stopped := by
  have still (y : Cmd) (hy : y ∈ (o.halted joined).cmds) := o.halted_still joined hy
  have image := Core.halted_eq o joined
  generalize o.halted joined = d at image still
  refine ⟨?_, ?_, ?_, ?_, ?_, ?_, fun y hy hch hr hph => still y hy ⟨hch, hr, hph⟩⟩
  all_goals rw [image]
  · exact h.pending
  · exact h.vars
  · exact h.events
  · exact h.region

theorem Core.Idle.aside {o : Core} (h : o.Idle) (a : Core) : (o.aside a).Idle := ⟨h.accessed, h.pending, h.vars, h.events, h.region⟩

/-- R32, R288: a save of a task keeps the core with its older results delivered. -/
theorem State.beginSave_image {s : State} {x : Task} {slot : Nat} (ht : s.taskOf s.core.kid = some x)
    (hs : s.freeSlot s.core.ctx = some slot) (forced : Bool) : ∃ image : Core,
      image.stopped ∧ s.sampleVars.core.completeOlder.stands image ∧ (s.beginSave forced).core = { image with run := .saving } ∧
      (s.beginSave forced).launch.saved = s.launch.saved ++ [⟨s.launch.nextId, slot, forced, x, image, false⟩] := by
  obtain ⟨b, joined, hb, core, saved⟩ := State.beginSave_saves ht hs forced
  have aside : b = s.sampleVars.core.aside b := by rw [hb]; rfl
  have older : b.completeOlder = s.sampleVars.core.completeOlder.aside b := by
    rw [← Core.completeOlder_aside, ← aside]
  have idle := Core.completeOlder_idle s.sampleVars_sampled
  have only := s.sampleVars.core.completeOlder_only
  generalize s.sampleVars.core.completeOlder = o at older idle only ⊢
  rw [older] at core saved
  exact ⟨_, (idle.aside b).halted joined, Core.halted_stands hb only joined, core, saved⟩

/-! ## Where the stop may be -/

theorem State.limitPassed_iff (s : State) (k : Nat) : s.limitPassed k = true ↔ ∃ y ∈ s.launch.claims, y.victim = k ∧ y.limit = true := by
  simp [State.limitPassed]

theorem Core.atBoundary_region {c : Core} (h : c.atBoundary = true) : c.arr.region = none := by
  simp only [Core.atBoundary, Bool.and_eq_true, Option.isNone_iff_eq_none] at h
  obtain ⟨⟨-, hr⟩, -⟩ := h
  exact hr

/-- A save of a core that has nothing outstanding keeps it as it is. -/
theorem State.beginSave_idle {s : State} (h : s.core.Idle) {x : Task} {slot : Nat} (ht : s.taskOf s.core.kid = some x)
    (hs : s.freeSlot s.core.ctx = some slot) (forced : Bool) : ∃ image : Core,
      image.stopped ∧ s.core.stands image ∧ (s.beginSave forced).core = { image with run := .saving } ∧
      (s.beginSave forced).launch.saved = s.launch.saved ++ [⟨s.launch.nextId, slot, forced, x, image, false⟩] := by
  have image := State.beginSave_image ht hs forced
  rwa [State.sampleVars_none h.vars, h.completeOlder] at image

theorem State.freeSlot_congr {s t : State} (hl : t.launch.saved = s.launch.saved) (hc : t.mem.ctxs = s.mem.ctxs) (ctx : Nat) :
    t.freeSlot ctx = s.freeSlot ctx := by
  unfold State.freeSlot MemState.ctx
  rw [hl, hc]

theorem State.taskOf_congr {s t : State} (h : t.launch.tasks = s.launch.tasks) (k : Nat) : t.taskOf k = s.taskOf k := by
  unfold State.taskOf
  rw [h]

/-! ## The escalations (R381) -/

/-- The core that stops at the MXOPEN bundle of the region it abandoned. -/
def Core.landed (d : Core) (r : Region) : Core :=
  { d with
    pc := r.pc, loops := r.loops, latches := Latches.empty, shadow := if d.intrap then d.shadow else Latches.empty, rptidx := 0
    cur := none, act := .none, raised := none, stalled := none, resumed := false, brkExempt := .none }

/-- The package in which a forced stop lands at the MXOPEN bundle of a region. -/
def State.landing (s : State) (r : Region) : State :=
  s.sampleVars.releaseHeld.withCore (s.sampleVars.releaseHeld.core.completeOlder.landed r)

section
variable {s : State} (hl : s.limitPassed s.core.kid = true) (hr : s.core.retiring = false) (hs : s.core.run ≠ .saving)
  (hw : s.core.entryWaits = false)
include hl hr hs hw

theorem State.escalate_region {r : Region} (h : s.core.arr.region = some r) : s.escalate = (s.landing r).beginSave true := by
  have pass : (!s.limitPassed s.core.kid || s.core.retiring || s.core.run == .saving || s.core.entryWaits) = false := by
    simp [hl, hr, hs, hw]
  unfold State.escalate State.landing
  extract_lets c released d
  have older : s.sampleVars.releaseHeld.core.completeOlder = d := rfl
  rw [older]
  clear_value d
  dsimp only [c]
  rw [pass, if_neg Bool.false_ne_true, h]
  have landed : ({ released with core := { d with
      pc := r.pc, loops := r.loops, latches := Latches.empty, shadow := if d.intrap then d.shadow else Latches.empty, rptidx := 0
      cur := none, act := .none, raised := none, stalled := none, resumed := false, brkExempt := .none } } : State) =
    released.withCore (d.landed r) := rfl
  exact congrArg (State.beginSave · true) landed

theorem State.escalate_stalled {u : Current} {y : Stall} (h : s.core.arr.region = none) (hu : s.core.cur = some u)
    (hy : s.core.stalled = some y) (he : u.exe ≠ 0) :
    s.escalate =
      let t := s.takeTrap ⟨0x05, false, y.slot, BitVec.ofNat 64 (2 ^ 63 + y.port % 256)⟩ u.addr u.exe (u.bundle.hdr.rpt != 0) u.startLoops
      if t.core.run == .running && t.mem.doomed.isEmpty then t.beginSave true else t := by
  have pass : (!s.limitPassed s.core.kid || s.core.retiring || s.core.run == .saving || s.core.entryWaits) = false := by
    simp [hl, hr, hs, hw]
  unfold State.escalate
  dsimp only
  rw [pass, h, hu, hy]
  simp only [if_neg he]
  rfl

end

section
variable (s : State) (r : Region)

theorem State.sampleVars_launch : s.sampleVars.launch = s.launch := s.looked_access.launch
theorem State.sampleVars_ctxs : s.sampleVars.mem.ctxs = s.mem.ctxs := s.looked_access.ctxs

theorem State.landing_launch : (s.landing r).launch = s.launch := by
  have released : s.sampleVars.releaseHeld.launch = s.sampleVars.launch := by rw [State.releaseHeld_eq]; rfl
  exact released.trans s.sampleVars_launch

theorem State.landing_ctxs : (s.landing r).mem.ctxs = s.mem.ctxs := by
  have released : s.sampleVars.releaseHeld.mem.ctxs = s.sampleVars.mem.ctxs := by rw [State.releaseHeld_eq]; rfl
  exact released.trans s.sampleVars_ctxs

/-- The core that lands is that of the results delivered, with the commands and counts of the bundle released. -/
theorem State.landing_core :
    (s.landing r).core = (s.sampleVars.core.completeOlder.aside s.sampleVars.releaseHeld.core).landed r := by
  have older : s.sampleVars.releaseHeld.core.completeOlder = s.sampleVars.core.completeOlder.aside s.sampleVars.releaseHeld.core := by
    rw [← Core.completeOlder_aside, ← State.releaseHeld_core]
  unfold State.landing
  rw [older]
  rfl

end

theorem Core.Idle.landed {o : Core} (h : o.Idle) (r : Region) : (o.landed r).Idle := ⟨h.accessed, h.pending, h.vars, h.events, h.region⟩

theorem State.releaseHeld_ecHeld (s : State) : s.releaseHeld.core.ecHeld = 0 := rfl

section
variable {o d : Core} (h : o.stands d)
include h

theorem Core.stands.pc : d.pc = o.pc := by rw [h.2]
theorem Core.stands.loops : d.loops = o.loops := by rw [h.2]
theorem Core.stands.point : d.point = false := by rw [h.2]

end

theorem Core.completeOlder_none {b : Core} (h : b.arr.region = none) : b.completeOlder = b.stamp.older := by
  rw [Core.completeOlder_eq, Core.abandon_none ((congrArg MxArray.region b.stamp_acted.arr).trans h)]

/-- Where no region is open, sampling and completion leave the core at its bundle and in its loops. -/
theorem State.stopped_place {s : State} (h : s.core.arr.region = none) : s.sampleVars.core.completeOlder = s.sampleVars.core.stamp.older ∧
    s.sampleVars.core.stamp.older.pc = s.core.pc ∧ s.sampleVars.core.stamp.older.loops = s.core.loops := by
  have ready := s.sampleVars_ready
  have only := s.sampleVars.core.completeOlder_only
  have older := Core.completeOlder_none ((congrArg MxArray.region ready.arr).trans h)
  rw [older] at only
  have pc : s.sampleVars.core.stamp.older.pc = s.sampleVars.core.pc := by rw [only]
  have loops : s.sampleVars.core.stamp.older.loops = s.sampleVars.core.loops := by rw [only]
  exact ⟨older, pc.trans (by rw [ready]), loops.trans (by rw [ready])⟩

/-- The core that lands is older data at the MXOPEN bundle of the region. -/
theorem Core.landed_stands {c o a image : Core} {r : Region} (hi : o.intrap = c.intrap) (hs : o.shadow = c.shadow) (ha : a.ecHeld = 0)
    (h : ((o.aside a).landed r).stands image) :
    Core.stands { o with
      seq := image.seq, ecHeld := 0, pc := r.pc, loops := r.loops, latches := Latches.empty
      shadow := if c.intrap then c.shadow else Latches.empty
      rptidx := 0, act := .none, raised := none, resumed := false, brkExempt := .none } image := by
  obtain ⟨same, eq⟩ := h
  have seq : image.seq = a.seq := by rw [eq]; rfl
  refine ⟨same, ?_⟩
  dsimp only [Core.landed, Core.aside] at eq
  rw [ha, ← seq] at eq
  rw [← hi, ← hs]
  exact eq

theorem State.landing_image {s : State} {r : Region} (hr : s.core.arr.region = some r) {image : Core} (h : (s.landing r).core.stands image) :
    Core.stands { s.sampleVars.core.stamp.abandon.older with
      seq := image.seq, ecHeld := 0, pc := r.pc, loops := r.loops, latches := Latches.empty
      shadow := if s.core.intrap then s.core.shadow else Latches.empty
      rptidx := 0, act := .none, raised := none, resumed := false, brkExempt := .none } image ∧
    image.pc = r.pc ∧ image.loops = r.loops ∧ image.rptidx = 0 ∧ image.latches = Latches.empty ∧ image.arr.abandoned.isSome = true := by
  have ready := s.sampleVars_ready
  have only := s.sampleVars.core.completeOlder_only
  have arr := Core.completeOlder_region ((congrArg MxArray.region ready.arr).trans hr)
  rw [State.landing_core] at h
  rw [← Core.completeOlder_eq]
  generalize s.sampleVars.core.completeOlder = o at only arr h
  have intrap : o.intrap = s.core.intrap := by rw [only, ready]
  have shadow : o.shadow = s.core.shadow := by rw [only, ready]
  refine ⟨Core.landed_stands intrap shadow s.sampleVars.releaseHeld_ecHeld h, ?_⟩
  rw [h.2]
  exact ⟨rfl, rfl, rfl, rfl, congrArg (fun z : MxArray => z.abandoned.isSome) arr⟩

/-! A repeat that traps (R381, R284). -/

section
variable {s : State} {t : TrapInfo} {pc : Word} {j : Nat} {rpt : Bool} {loops : List Level}

theorem State.readied_launch (s : State) : s.readied.launch.saved = s.launch.saved ∧ s.readied.launch.nextId = s.launch.nextId ∧
    s.readied.launch.tasks = s.launch.tasks := by
  have only := s.unarrive_only s.core.kid
  have same : s.readied.launch = (s.unarrive s.core.kid).launch := State.sampleVars_launch _
  exact ⟨by rw [same, only.saved], by rw [same, only.nextId], by rw [same, only.tasks]⟩

theorem State.readied_ctxs (s : State) : s.readied.mem.ctxs = s.mem.ctxs :=
  (State.sampleVars_ctxs _).trans (congrArg MemState.ctxs (s.unarrive_only s.core.kid).mem)

/-- A trap that a handler takes leaves nothing outstanding. -/
theorem Core.enterTrap_idle {b : Core} (h : b.sampled) (hc : t.cause ≠ 0x15) : (b.enterTrap t pc j rpt loops).Idle := by
  have idle := Core.completeOlder_idle h
  rw [Core.enterTrap_eq]
  generalize b.completeOlder = o at idle
  have arr : (b.trapped o t pc j rpt loops).arr = o.arr := if_neg hc
  exact ⟨idle.accessed, idle.pending, idle.vars, (congrArg MxArray.events arr).trans idle.events,
    (congrArg MxArray.region arr).trans idle.region⟩

/-- The core that a handler finds, outside any region. -/
theorem State.enterTrap_fields (h : s.core.arr.region = none) :
    let d := s.readied.releaseHeld.core.enterTrap t pc j rpt loops
    d.kid = s.core.kid ∧ d.ctx = s.core.ctx ∧ d.run = s.core.run ∧ d.pc = s.core.tvec ∧ d.intrap = true ∧ d.trappc = pc ∧ d.rptidx = j ∧
      d.trapcause = t.encode ∧ d.trapinfo = t.info := by
  have ready := s.readied_core
  have only := s.readied.releaseHeld.core.completeOlder_only
  have region := (congrArg MxArray.region ready.arr).trans h
  rw [Core.enterTrap_eq]
  generalize s.readied.releaseHeld.core = b at ready only region
  generalize b.completeOlder = o at only
  obtain ⟨htrappc, hrptidx, -⟩ := Core.trapped_none (o := o) (t := t) (pc := pc) (j := j) (rpt := rpt) (loops := loops) region
  have kid : o.kid = s.core.kid := by rw [only, ready]
  have ctx : o.ctx = s.core.ctx := by rw [only, ready]
  have run : o.run = s.core.run := by rw [only, ready]
  have tvec : o.tvec = s.core.tvec := by rw [only, ready]
  exact ⟨kid, ctx, run, tvec, rfl, htrappc, hrptidx, rfl, rfl⟩

/-- sr.trapcause of a stream deadlock of any slot (R27). -/
theorem TrapInfo.encode_deadlock (slot : Nat) (info : Word) :
    (TrapInfo.mk 0x05 false slot info).encode = BitVec.ofNat 64 (0x05 + 256 * (slot % 2 ^ 56)) := by
  apply BitVec.eq_of_toNat_eq
  simp [TrapInfo.encode, b2n]
  omega

end

/-- Settles O49: the image is that of `State.beginSave_image`; at an escalation the core has nothing outstanding any more. -/
theorem preemption : Obligations.Preemption := by
  intro k s x slot hk v c limit saves
  have kid : v.core.kid = k := (congrArg Core.kid (State.focus_core s hk)).trans (s.coreAt_kid k)
  have launch : v.launch = s.launch := State.focus_launch s k
  refine ⟨?_, fun hc ht hs hw => ?_⟩
  · rw [Happens, show exec (.preemptionLimitExpiry k) s = coreMeaning k (fun s => s.expireLimit k) s from rfl, coreMeaning_next hk]
    simp [State.expireLimit, v]
  intro stands older
  rw [← kid] at ht
  have passed (h : limit) : v.limitPassed v.core.kid = true := by
    rw [State.limitPassed_iff, kid, launch]
    exact h
  have keep {i : Instr} {u : State} {forced : Bool} {P Q : Core → Prop} (happens : Happens i s (u.beginSave forced))
      (held : ∃ image : Core, image.stopped ∧ Q image ∧ (u.beginSave forced).core = { image with run := .saving } ∧
        (u.beginSave forced).launch.saved = u.launch.saved ++ [⟨u.launch.nextId, slot, forced, x, image, false⟩])
      (saved : u.launch.saved = s.launch.saved) (nextId : u.launch.nextId = s.launch.nextId) (hP : ∀ image, Q image → P image) :
      saves i forced P := by
    obtain ⟨image, still, q, core, list⟩ := held
    exact ⟨_, image, happens, still, hP image q, core, by rw [list, saved, nextId]⟩
  have stop {i : Instr} {forced : Bool} {P : Core → Prop} (happens : Happens i s (v.beginSave forced)) (hr : c.arr.region = none)
      (hP : ∀ image, stands older image → image.pc = c.pc → image.loops = c.loops → P image) : saves i forced P := by
    obtain ⟨same, pc, loops⟩ := State.stopped_place hr
    refine keep happens (State.beginSave_image ht hs forced) (by rw [launch]) (by rw [launch]) fun image h => ?_
    rw [same] at h
    exact hP image h (h.pc.trans pc) (h.loops.trans loops)
  refine ⟨fun hrun hpoint hpreq hret hr => ?_, fun hl hb => ?_, fun r hl hr hret hrun => ?_, fun u y hl hr hret hrun hu he hy hi ht0 hd => ?_⟩
  · have happens : Happens (.preemptAtPoint k) s (v.beginSave false) := by
      have point : v.preemptPoint = v.beginSave false := by
        refine if_pos ?_
        simp [hrun, hpoint, hpreq, hret, hw, c, v]
      exact point ▸ happens_clocked (f := State.preemptPoint) rfl hk hc
    exact stop happens hr fun image h pc loops => ⟨h, pc, loops, Core.stands.point h⟩
  · have happens : Happens (.forcedStop k) s (v.beginSave true) := by
      have forced : v.forceStop = v.beginSave true := by
        refine if_pos ?_
        have boundary : v.core.atBoundary = true := hb
        have entered : v.core.entryWaits = false := hw
        simp [passed hl, boundary, entered]
      exact forced ▸ happens_clocked (f := State.forceStop) rfl hk hc
    exact stop happens (Core.atBoundary_region hb) fun image h pc loops => ⟨h, pc, loops⟩
  · have escalates := State.escalate_region (passed hl) hret hrun hw hr
    have happens : Happens (.forcedStopEscalation k) s ((v.landing r).beginSave true) :=
      escalates ▸ happens_clocked (f := State.escalate) rfl hk hc
    have idle : (v.landing r).core.Idle := by
      rw [State.landing_core]
      exact ((Core.completeOlder_idle v.sampleVars_sampled).aside _).landed r
    have viewed : (v.landing r).core.kid = v.core.kid ∧ (v.landing r).core.ctx = v.core.ctx := by
      have ready := v.sampleVars_ready
      have only := v.sampleVars.core.completeOlder_only
      rw [State.landing_core]
      generalize v.sampleVars.core.completeOlder = o at only
      exact ⟨show o.kid = _ by rw [only, ready], show o.ctx = _ by rw [only, ready]⟩
    have task : (v.landing r).taskOf (v.landing r).core.kid = some x := by
      rw [viewed.1, State.taskOf_congr (s := v) (by rw [State.landing_launch]), ht]
    have free : (v.landing r).freeSlot (v.landing r).core.ctx = some slot := by
      rw [viewed.2, State.freeSlot_congr (s := v) (by rw [State.landing_launch]) (State.landing_ctxs ..)]
      exact hs
    exact keep happens (State.beginSave_idle idle task free true) (by rw [State.landing_launch, launch])
      (by rw [State.landing_launch, launch]) fun image h => State.landing_image hr h
  · let t : TrapInfo := ⟨0x05, false, y.slot, BitVec.ofNat 64 (2 ^ 63 + y.port % 256)⟩
    have cause : t.cause ≠ 0x15 := show (5 : Nat) ≠ 0x15 by decide
    have taken := (State.takeTrap_single (t := t) (pc := u.addr) (j := u.exe) (rpt := u.bundle.hdr.rpt != 0) (loops := u.startLoops) hi
      (.inl cause)).trans (if_neg ht0)
    obtain ⟨hkid, hctx, hstill, hpc, hin, htrappc, hrptidx, hcause, hinfo⟩ :=
      State.enterTrap_fields (t := t) (pc := u.addr) (j := u.exe) (rpt := u.bundle.hdr.rpt != 0) (loops := u.startLoops) hr
    have idle := Core.enterTrap_idle (t := t) (pc := u.addr) (j := u.exe) (rpt := u.bundle.hdr.rpt != 0) (loops := u.startLoops)
      v.readied_sampled cause
    have escalates := State.escalate_stalled (passed hl) hret (by rw [hrun]; decide) hw hr hu hy he
    have deadlock := TrapInfo.encode_deadlock y.slot t.info
    obtain ⟨hsaved, hnext, htasks⟩ := v.readied_launch
    dsimp only at escalates
    rw [taken] at escalates ⊢
    generalize v.readied.releaseHeld.core.enterTrap t u.addr u.exe (u.bundle.hdr.rpt != 0) u.startLoops = d at *
    have happens : Happens (.forcedStopEscalation k) s ((v.readied.withCore d).beginSave true) := by
      have running : (d.run == .running && v.readied.mem.doomed.isEmpty) = true := by
        rw [hstill, show v.core.run = .running from hrun, show v.readied.mem.doomed = [] from hd]
        rfl
      exact (escalates.trans (if_pos running)) ▸ happens_clocked (f := State.escalate) rfl hk hc
    have task : (v.readied.withCore d).taskOf d.kid = some x := by
      rw [hkid]
      exact (State.taskOf_congr (s := v) htasks _).trans ht
    have free : (v.readied.withCore d).freeSlot d.ctx = some slot := by
      rw [hctx]
      exact (State.freeSlot_congr (s := v) hsaved v.readied_ctxs _).trans hs
    refine keep happens (State.beginSave_idle idle task free true) (by rw [← launch]; exact hsaved) (by rw [← launch]; exact hnext)
      fun image h => ⟨h, ?_⟩
    rw [h.2]
    exact ⟨hpc, hin, htrappc, hrptidx, hcause.trans deadlock, hinfo⟩

end Sys2Proof.Machine
end


section
/-! PROOF. Accesses that change the memories alone, and the slots of saved tasks (R383, R385). -/
namespace Sys2Proof.Machine

/-- Only the memories may differ, with the contexts as they were. -/
def State.MemOnly (s t : State) : Prop := t = { s with mem := t.mem } ∧ t.mem.ctxs = s.mem.ctxs

variable {s t u : State}

theorem State.MemOnly.refl (s : State) : s.MemOnly s := ⟨rfl, rfl⟩

theorem State.MemOnly.trans (h : s.MemOnly t) (h' : t.MemOnly u) : s.MemOnly u := by
  obtain ⟨ht, hc⟩ := h
  obtain ⟨hu, hc'⟩ := h'
  exact ⟨by rw [hu, ht], hc'.trans hc⟩

theorem State.MemOnly.core (h : s.MemOnly t) : t.core = s.core := by rw [h.1]
theorem State.MemOnly.launch (h : s.MemOnly t) : t.launch = s.launch := by rw [h.1]

theorem State.memOnly_mem {m : MemState} (h : m.ctxs = s.mem.ctxs) : s.MemOnly { s with mem := m } := ⟨rfl, h⟩

theorem State.translate_mem (s : State) (k ctx va : Nat) (a : Access) : s.MemOnly (s.translate k ctx va a).1 := by
  have h := s.mem.ctxs_translate (ctx := ctx) (va := va) (a := a)
  unfold State.translate
  split
  · next e => exact memOnly_mem (by rw [e] at h; exact h)
  · next e =>
    rw [e] at h
    split <;> exact memOnly_mem h

theorem State.slotFrames_mem (k ctx : Nat) (a : Word) (acc : Access) (n : Nat) : ∀ (s : State) (p : Nat),
    s.MemOnly (s.slotFrames k ctx a acc p n).1 := by
  induction n with
  | zero => exact fun s _ => .refl s
  | succ n ih =>
    intro s p
    have first := s.translate_mem k ctx (a.toNat + 65536 * p) acc
    unfold State.slotFrames
    split
    · next e => rw [e] at first; exact first
    · next s1 t e =>
      rw [e] at first
      have rest := first.trans (ih s1 (p + 1))
      split
      · exact first
      · split <;> next e => rw [e] at rest; exact rest

theorem MemState.ctxs_imageSound (m : MemState) (p frame key bytes : Nat) : (m.imageSound p frame key bytes).1.ctxs = m.ctxs := by
  have looked (l : List Nat) : ∀ r : MemState × Bool, (l.foldl (fun (r : MemState × Bool) x =>
      let (m, _, b) := r.1.look 0 x key
      (m, r.2 && b == .ok)) r).1.ctxs = r.1.ctxs := by
    induction l with
    | nil => exact fun _ => rfl
    | cons x l ih => exact fun r => (ih _).trans MemState.ctxs_look
  exact looked _ (m, true)

/-- A slot that is read leaves the package as it is, but for what the read finds in memory. -/
theorem State.readSlot_mem (s : State) (k : Nat) (x : Saved) : s.MemOnly (s.readSlot k x).1 := by
  unfold State.readSlot
  split
  · exact .refl s
  · next c _ =>
    have frames := State.slotFrames_mem k c.num (c.slotAddr x.slot) .read ((64 + x.bytes x.image + 65535) / 65536) s 0
    dsimp only
    split
    · next e => rw [e] at frames; exact frames
    · next s1 fs e =>
      rw [e] at frames
      have sounded (l : List (Nat × Nat × Nat)) : ∀ r : MemState × Bool, (l.foldl (fun (r : MemState × Bool) p =>
          let (m, b) := r.1.imageSound p.1 p.2.1 p.2.2 (x.bytes x.image)
          (m, r.2 && b)) r).1.ctxs = r.1.ctxs := by
        induction l with
        | nil => exact fun _ => rfl
        | cons y l ih => exact fun r => (ih _).trans (MemState.ctxs_imageSound ..)
      exact frames.trans (memOnly_mem (sounded _ (s1.mem, true)))

end Sys2Proof.Machine
end

section
/-! PROOF. What a save keeps of a core (R32, R57, R384). -/
namespace Sys2Proof.Machine

theorem Mem.get_filter (m : Mem) (q : Nat → Bool) (y : Nat) : Mem.get (m.filter fun x => q x.1) y = if q y then m.get y else 0 := by
  induction m with
  | nil => exact (ite_self 0).symm
  | cons e m ih =>
    obtain ⟨a, b⟩ := e
    by_cases hq : q a <;> by_cases hy : a = y <;> simp_all [Mem.get]

/-- A byte of the scratchpad is the byte kept over what the scratchpad is written over. -/
theorem Core.byteAt_eq (c : Core) (p : Nat) : c.byteAt p = (c.scratch.get p ^^^ c.baseByte p).toNat := by
  unfold Core.byteAt Core.scrValue Core.scrBytes Core.overBase Core.baseByte
  split <;> simp [Mem.getN, leValue, *]

theorem Core.length_scrBytes (c : Core) (a n : Nat) : (c.scrBytes a n).length = n := by
  unfold Core.scrBytes Core.overBase
  split <;> simp [Mem.length_getN]

theorem Core.getD_scrBytes (c : Core) {a n i : Nat} (h : i < n) : (c.scrBytes a n).getD i 0 = c.scratch.get (a + i) ^^^ c.baseByte (a + i) := by
  have held := c.scratch.getD_getN a n i h
  unfold Core.scrBytes Core.overBase
  split
  · next e => rw [held, Core.baseByte, e]; simp
  · have bound : i < (c.scratch.getN a n).length := by rwa [Mem.length_getN]
    rw [List.getD_eq_getElem _ _ bound] at held
    rw [List.getD_eq_getElem _ _ (by simpa using bound), List.getElem_mapIdx, held]

/-- Does a byte lie in one of the extents? -/
def inExtents (ext : List (Nat × Nat)) (p : Nat) : Bool := ext.any fun e => e.1 ≤ p && p < e.1 + e.2

theorem inExtents_iff {ext : List (Nat × Nat)} {p : Nat} : inExtents ext p = true ↔ ∃ e ∈ ext, e.1 ≤ p ∧ p < e.1 + e.2 := by
  simp [inExtents]

/-- Extents are copied byte by byte, and nothing else is written. -/
theorem Core.foldl_putN_get (c : Core) (p : Nat) : ∀ (ext : List (Nat × Nat)) (m : Mem),
    (ext.foldl (fun (m : Mem) e => m.putN e.1 (c.scrBytes e.1 e.2)) m).get p =
      if inExtents ext p then c.scratch.get p ^^^ c.baseByte p else m.get p := by
  intro ext
  induction ext with
  | nil => exact fun m => rfl
  | cons e ext ih =>
    intro m
    have any : inExtents (e :: ext) p = (decide (e.1 ≤ p ∧ p < e.1 + e.2) || inExtents ext p) := by simp [inExtents]
    rw [List.foldl_cons, ih, Mem.get_putN, Core.length_scrBytes, any]
    by_cases held : inExtents ext p = true
    · simp [held]
    · by_cases here : e.1 ≤ p ∧ p < e.1 + e.2
      · rw [Core.getD_scrBytes c (show p - e.1 < e.2 by omega), Nat.add_sub_cancel' here.1]
        simp [here]
      · simp [held, here]

theorem Core.keepExtents_get (c : Core) (ext : List (Nat × Nat)) (p : Nat) :
    (c.keepExtents ext).get p = if inExtents ext p then c.scratch.get p ^^^ c.baseByte p else 0 := by
  unfold Core.keepExtents
  split
  · next e =>
    have base : c.scratch.get p ^^^ c.baseByte p = c.scratch.get p := by
      rw [Core.baseByte, e]
      exact BitVec.xor_zero
    rw [base]
    exact c.scratch.get_filter (inExtents ext) p
  · exact c.foldl_putN_get p ext []

theorem Core.livePart_byteAt (c : Core) (p : Nat) : c.livePart.byteAt p = if inExtents c.kernel.extents p then c.byteAt p else 0 := by
  have kept : c.livePart.byteAt p = ((c.keepExtents c.kernel.extents).get p ^^^ 0).toNat := Core.byteAt_eq ..
  rw [kept, Core.keepExtents_get, Core.byteAt_eq]
  split
  · exact congrArg BitVec.toNat BitVec.xor_zero
  · rfl

theorem Core.livePart_getV (c : Core) (n : Fin 64) : c.livePart.getV n = if c.kernel.vlive.testBit n then c.getV n else 0 := by
  exact Vector.getElem_ofFn ..

theorem Core.livePart_getM (c : Core) {n : Fin 8} (h : n ≠ 0) : c.livePart.getM n = if c.kernel.mlive.testBit n then c.getM n else 0 := by
  unfold Core.getM Core.livePart
  simp [h]

theorem Core.mem_livePart_poison {c : Core} {p : Nat × Bool} :
    p ∈ c.livePart.poison ↔ p ∈ c.poison ∧ ∃ e ∈ c.liveRanges, 32 * p.1 < e.1 + e.2 ∧ e.1 < 32 * p.1 + 32 := by
  refine (List.mem_filter (as := c.poison)).trans (and_congr_right fun _ => ?_)
  simp

end Sys2Proof.Machine
end

section
/-! PROOF. A save that completes (R32, R383, R384). -/
namespace Sys2Proof.Machine

theorem State.focus_kid (s : State) {k : Nat} (h : inCores k = true) : (s.focus k).core.kid = k :=
  (congrArg Core.kid (State.focus_core s h)).trans (s.coreAt_kid k)

theorem State.coreAt_viewed {s : State} {k : Nat} (h : s.core.kid = k) : s.coreAt k = s.core := if_pos h.symm

theorem State.modCore_viewed {s : State} {k : Nat} (h : s.core.kid = k) {f : Core → Core} (hf : (f s.core).kid = s.core.kid) :
    s.modCore k f = { s with core := f s.core } := by
  unfold State.modCore
  rw [coreAt_viewed h, State.setCore, if_pos hf]

/-- What a save keeps of a core with everything in it (R384). -/
def Core.whole (c : Core) (r : RunState) : Core := { c with run := r, peerFail := [], recs := [], audits := [] }

/-- The image that a save puts into its entry. -/
def Saved.kept (x : Saved) (c : Core) : Core := if x.forced then c.whole x.image.run else (c.whole x.image.run).livePart

/-- The launch state when core k is freed by the save of x. -/
def LaunchState.freed (l : LaunchState) (k : Nat) (x : Saved) (image : Core) : LaunchState :=
  { l with
    saved := l.saved.map fun (z : Saved) => if z.id == x.id then { z with image := image, done := true } else z
    tasks := l.tasks.filter fun (t : Task) => t.core != k
    claims := l.claims.filter fun (z : Claim) => z.victim != k
    ranges := l.ranges.map fun (r : RangeTask) => if r.holder == some k then { r with holder := none } else r }

theorem State.completeSave_saves {v w : State} {k : Nat} {x : Saved} {y : Ctx} (kid : v.core.kid = k)
    (hx : v.launch.saved.find? (fun z => !z.done && z.task.core == k) = some x) (hy : v.mem.ctx v.core.ctx = some y)
    (hr : v.core.saveReady = true) (hl : v.core.latent = [])
    (hw : v.writeSlot k y x (v.launchRecord x.task.launch) v.core.pc (x.bytes v.core) = (w, 0)) (wkid : w.core.kid = k) :
    v.completeSave k = { w with core := w.core.endTask, launch := w.launch.freed k x (x.kept v.core) } := by
  have read : v.core.readSaved x.forced = v.core := by rw [Core.readSaved, hl]; rfl
  have same : v.setCore v.core = v := if_pos rfl
  have still : { v.core with run := x.image.run, peerFail := [], recs := [], audits := [], latent := [] } = v.core.whole x.image.run := by
    rw [← hl]; rfl
  unfold State.completeSave
  rw [coreAt_viewed kid]
  extract_lets c
  split
  · next x' y' ex ey =>
    obtain rfl : x' = x := Option.some.inj (ex.symm.trans hx)
    obtain rfl : y' = y := Option.some.inj (ey.symm.trans hy)
    rw [if_neg (by rw [hr]; decide)]
    rw [read]
    extract_lets full s image
    have imaged : image = x'.kept v.core := by
      have whole : full = v.core.whole x'.image.run := still
      rw [Saved.kept, ← whole]
    have viewed : s = v := same
    clear_value image s
    subst imaged viewed
    split
    · next w' e =>
      obtain rfl : w' = w := congrArg Prod.fst (e.symm.trans hw)
      let freed : State := { w' with launch := w'.launch.freed k x' (x'.kept s.core) }
      exact show freed.modCore k Core.endTask = _ from modCore_viewed (s := freed) (f := Core.endTask) wkid rfl
    · next w' n ne e =>
      have zero : n = 0 := congrArg Prod.snd (e.symm.trans hw)
      exact absurd zero ne
  · next e => exact absurd hy (e x y hx)

theorem Saved.bytes_eq (x : Saved) (c : Core) : x.bytes c = if x.forced then 917504
    else 65536 + 256 * (List.range 64).countP c.kernel.vlive.testBit + (c.kernel.extents.map (·.2)).foldl (· + ·) 0 := by
  rw [Saved.bytes, List.countP_eq_length_filter]

/-- A slot whose pages are found takes the image and the header (R383). -/
theorem State.writeSlot_found {s u : State} {k : Nat} {c : Ctx} {x : Saved} {l pc : Word} {bytes : Nat} {fs : List (Nat × Nat)}
    (hf : s.slotFrames k c.num (c.slotAddr x.slot) .write 0 ((64 + bytes + 65535) / 65536) = (u, some fs)) :
    s.writeSlot k c x l pc bytes = ({ u with
      mem := ((List.range fs.length).zip fs).foldl (fun (m : MemState) p => m.writeImage u.fresh p.1 p.2.1 bytes) u.mem
      fresh := u.fresh + 1 } : State).engWrite k c.num (c.slotAddr x.slot) (saveHeader (if x.forced then 2 else 1) l pc bytes) := by
  rw [State.writeSlot, hf]

/-! ## A restore (R385) -/

/-- A core on which a saved state is set. -/
theorem Core.restore_sound {c : Core} (h : c.latent = []) (image : Core) : c.restore image = { image with
    kid := c.kid, fresh := c.fresh, cycle := c.cycle, taken := c.taken, lgen := c.lgen + 1, preq := false, degr := c.degr
    nextId := max c.nextId image.nextId, peerStores := c.peerStores, peerFail := c.peerFail, refState := c.refState, refCnt := c.refCnt
    retWhy := c.retWhy, audits := c.audits, recs := c.recs, races := [], bankUe := c.bankUe, freeze := c.freeze, poolReqs := c.poolReqs
    groups := c.groups.map fun (g : Group) => { g with entries := [] } } := by
  have still : c.senseStripes = c := by rw [Core.senseStripes, h]; rfl
  unfold Core.restore
  rw [still]

/-- The launch state when a saved task is on core k again. -/
def LaunchState.restored (l : LaunchState) (k : Nat) (x : Saved) : LaunchState :=
  { l with
    saved := l.saved.filter fun (z : Saved) => z.id != x.id
    tasks := l.tasks ++ [{ x.task with core := k, order := l.order }]
    order := l.order + 1 }

theorem State.restoreOn_reads {v w : State} {k : Nat} {x : Saved} {y : Ctx} (kid : v.core.kid = k) (hl : v.core.latent = [])
    (hw : v.readSlot k x = (w, true)) (hy : v.mem.ctx x.image.ctx = some y) :
    v.restoreOn k x = (({ w with core := v.core.restore x.image, launch := v.launch.restored k x } : State).engWrite 0 y.num
      (y.slotAddr x.slot) (leBytes 1 0)).1 := by
  have only : v.MemOnly w := by simpa only [hw] using v.readSlot_mem k x
  have wkid : w.core.kid = k := by rw [only.core, kid]
  have found : w.mem.ctx x.image.ctx = some y := by rw [← hy, MemState.ctx, MemState.ctx, only.2]
  have set : w.modCore k (fun c => c.restore x.image) = { w with core := v.core.restore x.image } := by
    rw [modCore_viewed wkid (by rw [only.core, Core.restore_sound hl]), only.core]
  unfold State.restoreOn
  rw [hw]
  dsimp only
  rw [set]
  unfold State.clearSlot
  dsimp only
  rw [found, only.launch]
  rfl

theorem State.restoreTask_alone {v : State} {k : Nat} {x : Saved} (done : x.done = true) (alone : x.task.gang = none)
    (free : v.coreFree k = true) (unit : inUnit (v.unitFor x.task).1 (v.unitFor x.task).2 k = true)
    (runs : v.dispatches x.task.launch = true) (first : v.outranked k (v.prioOf x.task.launch) = false) :
    v.restoreTask k x = v.restoreOn k x := by
  have plan : v.restorePlan k x = some [(k, x)] := by
    unfold State.restorePlan
    rw [free, done, unit, runs, alone]
    rfl
  have now : v.restoreNow k x = some [(k, x)] := by
    rw [restoreNow, plan]
    simp only [Option.filter_some, List.any_cons, List.any_nil, first, Bool.or_false, Bool.not_false, if_true]
  unfold State.restoreTask
  split
  · next l e =>
    obtain rfl : l = [(k, x)] := Option.some.inj (e.symm.trans now)
    rw [List.foldl_cons, List.foldl_nil]
  · next e => cases e.symm.trans now

end Sys2Proof.Machine
end

section
/-! PROOF. A task that completes (R114, R330). -/
namespace Sys2Proof.Machine

/-- Cores, tasks and launches are as before, but for whether a core is claimed. -/
structure State.WorkKept (s t : State) : Prop where
  run : t.core.run = s.core.run
  tasks : t.launch.tasks = s.launch.tasks
  launches : t.launch.launches = s.launch.launches

variable {s t u : State}

theorem State.WorkKept.refl (s : State) : s.WorkKept s := ⟨rfl, rfl, rfl⟩

theorem State.WorkKept.trans (h : s.WorkKept t) (h' : t.WorkKept u) : s.WorkKept u :=
  ⟨h'.run.trans h.run, h'.tasks.trans h.tasks, h'.launches.trans h.launches⟩

theorem State.foldl_workKept {α : Type} {f : State → α → State} (hf : ∀ (s : State) x, s.WorkKept (f s x)) (l : List α) (s : State) :
    s.WorkKept (l.foldl f s) := by
  induction l generalizing s with
  | nil => exact .refl s
  | cons x l ih => exact (hf s x).trans (ih _)

theorem State.dropReleased_work (s : State) (h : Nat) : s.WorkKept (s.dropReleased h) := by
  unfold State.dropReleased
  dsimp only
  split <;> exact ⟨rfl, rfl, rfl⟩

theorem State.unpin_work (s : State) (t : Nat) (hs : List Nat) : s.WorkKept (s.unpin t hs) :=
  foldl_workKept (f := fun s h => (s.setHandle { s.handle h with pins := (s.handle h).pins.erase t }).dropReleased h)
    (fun s h => (show s.WorkKept (s.setHandle _) from ⟨rfl, rfl, rfl⟩).trans (dropReleased_work _ h)) hs s

theorem State.endTile_work (s : State) (t : TileTask) (poison : Option Nat) : s.WorkKept (s.endTile t poison) := by
  have unpinned := (show s.WorkKept (s.setTile { t with state := if poison.isNone then .done else .failed, pinned := [] }) from ⟨rfl, rfl, rfl⟩).trans
    (unpin_work _ t.id t.pinned)
  unfold State.endTile
  dsimp only
  split
  · split
    · exact ⟨unpinned.run, unpinned.tasks, unpinned.launches⟩
    · exact unpinned
  · exact unpinned

theorem State.closeTile_work (s : State) (t : Nat) : s.WorkKept (s.closeTile t) := by
  unfold State.closeTile
  split
  · split
    · exact endTile_work ..
    · exact .refl s
  · exact .refl s

theorem State.closeBarriers_work (s : State) (g : Nat) : s.WorkKept (s.closeBarriers g) := by
  unfold State.closeBarriers
  split <;> exact ⟨rfl, rfl, rfl⟩

/-- A claim that is withdrawn leaves what a core does. -/
theorem State.modCore_work (s : State) (k : Nat) {f : Core → Core} (kid : ∀ c, (f c).kid = c.kid) (run : ∀ c, (f c).run = c.run) :
    s.WorkKept (s.modCore k f) := by
  have held : (f (s.coreAt k)).kid = k := (kid _).trans (s.coreAt_kid k)
  unfold State.modCore State.setCore
  rw [held]
  split
  · next e => exact ⟨(run _).trans (by rw [State.coreAt, if_pos e]), rfl, rfl⟩
  · split <;> exact ⟨rfl, rfl, rfl⟩

theorem State.withdraw_work (s : State) : s.WorkKept s.withdraw := by
  unfold State.withdraw
  extract_lets busy dead l s1
  refine (show s.WorkKept s1 from ⟨rfl, rfl, rfl⟩).trans (foldl_workKept (fun s x => ?_) dead s1)
  split
  · exact .refl s
  · exact modCore_work s _ (fun c => by split <;> rfl) (fun c => by split <;> rfl)

/-- The launches when a task of one has ended. -/
def LaunchState.counted (l : LaunchState) (launch : Nat) : List Launch :=
  l.launches.map fun (x : Launch) => if x.id == launch then { x with tasks := x.tasks + 1 } else x

theorem State.leaveTask_viewed {x : Task} (kid : s.core.kid = x.core) : (s.leaveTask x).core.run = .idle ∧
    (s.leaveTask x).launch.tasks = s.launch.tasks.filter (fun y => y.core != x.core) ∧
    (s.leaveTask x).launch.launches = s.launch.counted x.launch := by
  have ended : s.modCore x.core Core.endTask = { s with core := s.core.endTask } := modCore_viewed kid rfl
  have left (v : State) : v.WorkKept (match x.tile with | some y => v.closeTile y | none => v) := by
    split
    · exact closeTile_work ..
    · exact .refl v
  have closed (v : State) : v.WorkKept (match x.gang with | some g => v.closeBarriers g | none => v) := by
    split
    · exact closeBarriers_work ..
    · exact .refl v
  unfold State.leaveTask
  rw [ended]
  extract_lets a b c
  have kept := (closed c).trans (left _)
  exact ⟨kept.run, kept.tasks, kept.launches⟩

theorem State.completeTask_ends {k : Nat} {x : Task} (kid : s.core.kid = k) (hx : s.taskOf k = some x) (exits : s.core.run = .exiting)
    (quiet : s.core.quiet = true) : s.completeTask k = (s.leaveTask x).withdraw := by
  unfold State.completeTask
  rw [hx, coreAt_viewed kid]
  exact if_pos (by rw [exits, quiet]; rfl)

theorem Core.quiet_of {c : Core} (retired : c.retiring = false) (cmds : c.cmds = []) (vars : c.vars = [])
    (tokens : ∀ n : Fin 32, c.tokens[n] ≠ .pending) : c.quiet = true := by
  have none : c.tokens.toList.contains .pending = false := by
    simp only [List.contains_eq_any_beq, List.any_eq_false, Vector.mem_toList_iff, beq_iff_eq]
    intro x hx e
    obtain ⟨n, hn, rfl⟩ := Vector.mem_iff_getElem.mp hx
    exact tokens ⟨n, hn⟩ e.symm
  rw [Core.quiet, retired, cmds, vars, none]
  rfl

theorem core_of_find? {l : List Task} {q : Task → Bool} {k : Nat} {x : Task} (h : l.find? (fun t => t.core == k && q t) = some x) :
    x.core = k := by
  have held := List.find?_some h
  simp only [Bool.and_eq_true, beq_iff_eq] at held
  exact held.1

theorem State.taskOf_core {k : Nat} {x : Task} (h : s.taskOf k = some x) : x.core = k := core_of_find? h

/-! ## The obligation -/

/-- Settles O50: a save is `State.completeSave_saves` with the image of `Core.livePart`, a restore `State.restoreOn_reads`, a completion
`State.leaveTask_viewed`. -/
theorem savesAndCompletion : Obligations.SavesAndCompletion := by
  intro k s hk hc v c
  have kid : v.core.kid = k := State.focus_kid s hk
  have launch : v.launch = s.launch := State.focus_launch s k
  have mem : v.mem = s.mem := State.focus_mem s k
  refine ⟨?_, fun x y w hx done alone free unit runs first hy hl hw => ?_, fun x hx exits retired cmds vars tokens => ?_⟩
  · intro x y u w fs hx hy hr hl a live size hf pages hw full ranges
    have sized : x.bytes c = size := Saved.bytes_eq x c
    have written : v.writeSlot k y x (v.launchRecord x.task.launch) c.pc (x.bytes c) = (w, 0) := by
      rw [sized, State.writeSlot_found hf]
      exact hw
    have wkid : w.core.kid = k := by
      have frames : v.MemOnly u := by simpa only [hf] using v.slotFrames_mem k y.num a .write ((64 + size + 65535) / 65536) 0
      have access := State.engWrite_access { u with mem := pages, fresh := u.fresh + 1 } k y.num a
        (leBytes 8 (if x.forced then 2 else 1) ++ leBytes 8 (v.launchRecord x.task.launch).toNat ++
          leBytes 8 c.pc.toNat ++ leBytes 4 size ++ leBytes 36 0)
      rw [hw] at access
      rw [access.kid, ← kid, ← frames.core]
    have saved := State.completeSave_saves kid (launch ▸ hx) (mem ▸ hy) hr hl written wkid
    refine ⟨x.kept c, ?_, saved ▸ happens_clocked (f := fun s => s.completeSave k) rfl hk hc⟩
    by_cases forced : x.forced = true
    · rw [if_pos forced]
      exact if_pos forced
    · rw [if_neg forced, show x.kept c = full.livePart from if_neg forced]
      refine ⟨rfl, fun p => Core.mem_livePart_poison, fun n => Core.livePart_getV full n, fun n hn => Core.livePart_getM full hn, fun p => ?_⟩
      exact (Core.livePart_byteAt full p).trans (if_congr inExtents_iff rfl rfl)
  · have restored : v.restoreById k x.id = v.restoreOn k x := by
      unfold State.restoreById
      rw [launch, hx]
      exact State.restoreTask_alone done alone free unit runs first
    refine ⟨c.restore x.image, _, happens_clocked (f := fun s => s.restoreById k x.id) rfl hk hc, Core.restore_sound hl x.image, ?_⟩
    exact restored.trans (State.restoreOn_reads kid hl hw (mem ▸ hy))
  · have core : x.core = k := State.taskOf_core hx
    have same : v.core = s.coreAt k := State.focus_core s hk
    have completed := State.completeTask_ends kid ((State.taskOf_congr (s := s) (by rw [launch]) k).trans hx) exits
      (Core.quiet_of retired cmds vars tokens)
    obtain ⟨run, tasks, launches⟩ := State.leaveTask_viewed (x := x) (kid.trans core.symm)
    have kept := (v.leaveTask x).withdraw_work
    refine ⟨_, happens_clocked (f := fun s => s.completeTask k) rfl hk hc, ?_⟩
    rw [completed]
    refine ⟨kept.run.trans run, by rw [kept.tasks, tasks, launch, core], fun l hl => ?_⟩
    refine ⟨if l.id == x.launch then { l with tasks := l.tasks + 1 } else l, ?_, ?_⟩
    · rw [kept.launches, launches, launch]
      exact List.mem_map.mpr ⟨l, hl, rfl⟩
    · by_cases e : l.id = x.launch <;> simp [e]

end Sys2Proof.Machine
end

section
/-! PROOF. The core at a dispatch (R31, R173). -/
namespace Sys2Proof.Machine

/-! ## Patterns (R173) -/

/-- Powers of 2^16 are one more than a multiple of 2^16 - 1. -/
theorem pow_mod_65535 (m : Nat) : 65536 ^ m = 65535 * ((65536 ^ m - 1) / 65535) + 1 := by
  induction m with
  | zero => rfl
  | succ m ih =>
    rw [pow_succ]
    omega

theorem repunit_succ (m : Nat) : (65536 ^ (m + 1) - 1) / 65535 = 65536 * ((65536 ^ m - 1) / 65535) + 1 := by
  have power := pow_mod_65535 m
  rw [pow_succ]
  omega

/-- A number that repeats an element of 16 bits n times has it at each of these places. -/
theorem elem_repeated {a : Nat} (ha : a < 65536) : ∀ {n k : Nat}, k < n → a * ((65536 ^ n - 1) / 65535) / 65536 ^ k % 65536 = a
  | n + 1, 0, _ => by
    rw [repunit_succ, pow_zero, Nat.div_one, Nat.mul_add, ← Nat.mul_assoc, Nat.mul_comm a 65536, Nat.mul_assoc]
    omega
  | n + 1, k + 1, h => by
    have shifted : a * (65536 * ((65536 ^ n - 1) / 65535) + 1) / 65536 = a * ((65536 ^ n - 1) / 65535) := by
      rw [Nat.mul_add, ← Nat.mul_assoc, Nat.mul_comm a 65536, Nat.mul_assoc]
      omega
    rw [repunit_succ, pow_succ, Nat.mul_comm (65536 ^ k), ← Nat.div_div_eq_div_mul, shifted]
    exact elem_repeated ha (Nat.lt_of_succ_lt_succ h)

/-- A register of n elements that holds the same one in all of them. -/
theorem elem_ofNat_repeated {w a n k : Nat} (hw : w = 16 * n) (ha : a < 65535) (h : k < n) :
    elem 16 (BitVec.ofNat w (a * ((2 ^ w - 1) / (2 ^ 16 - 1)))).toNat k = a := by
  have power := pow_mod_65535 n
  have fits : a * ((65536 ^ n - 1) / 65535) < 65536 ^ n := by
    have := Nat.mul_le_mul_right ((65536 ^ n - 1) / 65535) ha.le
    omega
  subst hw
  rw [elem, BitVec.toNat_ofNat, pow_mul, pow_mul]
  change a * ((65536 ^ n - 1) / 65535) % 65536 ^ n / 65536 ^ k % 65536 = a
  rw [Nat.mod_eq_of_lt fits]
  exact elem_repeated (by omega) h

theorem elem_patternZero {k : Nat} (h : k < 2048) : elem 16 patternZero.toNat k = 0x1000 := by
  unfold patternZero
  exact elem_ofNat_repeated (n := 2048) rfl (by decide) h

/-! ## The state of R31 -/

theorem Core.senseStripes_pool (c : Core) : c.PoolOnly c.senseStripes := by
  unfold Core.senseStripes
  split
  · exact .refl c
  · refine Core.PoolOnly.foldl (fun c i => ?_) _ c
    split
    · exact c.noteStripe_pool i
    · exact .refl c

theorem Core.byteAt_blank {c : Core} (scratch : c.scratch = []) (leftover : c.leftover = none) (p : Nat) : c.byteAt p = 0 := by
  rw [Core.byteAt_eq, Core.baseByte, scratch, leftover]
  simp [Mem.get]

/-- A core at a dispatch has the state of R31, whatever its pool's repairs and errors. -/
theorem Core.atDispatch_dispatched (d : Core) (ctx level : Nat) (kernel : List Byte) (entry : Word) :
    d.dispatched (d.atDispatch ctx level kernel entry) ctx level entry kernel := by
  have sensed (same : Bool) : d.PoolOnly (if same then d else d.senseStripes) := by
    split
    · exact .refl d
    · exact d.senseStripes_pool
  unfold Core.atDispatch
  extract_lets same c n fresh
  have only : d.PoolOnly c := sensed same
  have degr : c.degr = d.degr := by rw [only]
  have lgen : c.lgen = d.lgen := by rw [only]
  have other (h : d.ctx ≠ ctx) : same = false := beq_eq_false_iff_ne.mpr h
  clear_value same c
  refine ⟨rfl, rfl, rfl, fun n => ?_, fun n hn => ?_, fun n hn => ?_, fun n => Vector.getElem_replicate .., fun n => Vector.getElem_replicate ..,
    fun n => Vector.getElem_replicate .., rfl, rfl, rfl, rfl, rfl, rfl, fun n => Vector.getElem_replicate ..,
    fun n => Vector.getElem_replicate .., fun n => Vector.getElem_replicate .., fun p k hk => ?_, rfl, rfl, rfl, rfl, rfl, rfl, degr, rfl, rfl,
    congrArg (· + 1) lgen, rfl, rfl, fun h => ?_⟩
  · exact ite_eq_left_iff.mpr fun _ => Vector.getElem_replicate ..
  · exact (if_neg hn).trans (Vector.getElem_replicate ..)
  · simp [Core.getF, hn]
  · have zero : (Vector.replicate 8 patternZero)[p] = patternZero := Vector.getElem_replicate ..
    exact (congrArg (fun x : BitVec 32768 => elem 16 x.toNat k) zero).trans (elem_patternZero hk)
  · obtain rfl := other h
    exact ⟨fun n => Vector.getElem_replicate .., fun z => Vector.getElem_replicate .., fun p => Core.byteAt_blank rfl rfl p, rfl⟩

/-! ## The parameter registers (R329, R361) -/

theorem Core.setMany_cons (c : Core) (y : Nat × Nat) (l : List (Nat × Nat)) :
    c.setMany (y :: l) = (c.setS (Fin.ofNat 64 y.1) (BitVec.ofNat 64 y.2)).setMany l := rfl

theorem Core.setMany_only (l : List (Nat × Nat)) (c : Core) : c.setMany l = { c with sregs := (c.setMany l).sregs } := by
  induction l generalizing c with
  | nil => rfl
  | cons y l ih =>
    have one : c.setS (Fin.ofNat 64 y.1) (BitVec.ofNat 64 y.2) = { c with sregs := (c.setS (Fin.ofNat 64 y.1) (BitVec.ofNat 64 y.2)).sregs } := by
      unfold Core.setS
      split <;> rfl
    have rest := ih (c.setS (Fin.ofNat 64 y.1) (BitVec.ofNat 64 y.2))
    rw [Core.setMany_cons]
    generalize Core.setMany _ l = d at rest ⊢
    rw [rest, one]

/-- Registers that a list writes once each hold what it lists for them. -/
theorem Core.getS_setMany {n : Fin 64} (hn : n ≠ 0) : ∀ {l : List (Nat × Nat)} (c : Core), (l.map Prod.fst).Nodup →
    (∀ a ∈ l.map Prod.fst, a < 64) → (c.setMany l).getS n = ((l.lookup n.val).map (BitVec.ofNat 64)).getD (c.getS n)
  | [], _, _, _ => rfl
  | (k, v) :: l, c, once, small => by
    obtain ⟨fresh, once⟩ := List.nodup_cons.mp once
    have kept := Core.getS_setMany hn (l := l) (c.setS (Fin.ofNat 64 k) (BitVec.ofNat 64 v)) once fun a ha => small a (List.mem_cons_of_mem _ ha)
    have value : (Fin.ofNat 64 k).val = k := Nat.mod_eq_of_lt (small k List.mem_cons_self)
    rw [Core.setMany_cons, kept, Core.getS_setS, List.lookup_cons]
    by_cases h : n.val = k
    · have same : Fin.ofNat 64 k = n := Fin.ext (value.trans h.symm)
      have none : l.lookup n.val = none := List.lookup_eq_none_iff.mpr fun y hy => by
        rw [bne_iff_ne, h]
        exact fun e => fresh (List.mem_map.mpr ⟨y, hy, e.symm⟩)
      rw [none, if_pos ⟨same, hn⟩, beq_iff_eq.mpr h]
      rfl
    · have other : Fin.ofNat 64 k ≠ n := fun e => h (e ▸ value)
      rw [if_neg fun e => other e.1, beq_eq_false_iff_ne.mpr h]

/-! ## Parameter registers of launches and of GGEMM tiles -/

theorem launchRegs_keys (l : Launch) (coord path : List Nat) (rank : Nat) :
    (launchRegs l coord path rank).map Prod.fst = [48, 49, 50, 51, 52, 53, 54, 55, 56, 57, 58, 59, 60, 61] := rfl

theorem ggemmRegs_keys (g : Ggemm) (coord : List Nat) : (ggemmRegs g coord).map Prod.fst = [48, 49, 50, 51, 56, 57, 60, 61] := rfl

/-- What a dispatch writes to the parameter registers. -/
def State.taskRegs (s : State) (x : Task) (coord : List Nat) : List (Nat × Nat) :=
  match s.launch? x.launch with
  | some l => launchRegs l coord x.path x.rank
  | none => match s.ggemm? x.launch with | some g => ggemmRegs g coord | none => []

theorem State.taskRegs_keys (s : State) (x : Task) (coord : List Nat) : ((s.taskRegs x coord).map Prod.fst).Nodup ∧
    ∀ a ∈ (s.taskRegs x coord).map Prod.fst, 48 ≤ a ∧ a < 62 := by
  unfold State.taskRegs
  split
  · rw [launchRegs_keys]; decide
  · split
    · rw [ggemmRegs_keys]; decide
    · exact ⟨List.nodup_nil, fun a ha => absurd ha List.not_mem_nil⟩

theorem State.lookup_taskRegs (s : State) (x : Task) (coord : List Nat) {n : Nat} (h : 48 ≤ n) (h' : n < 62) :
    ((s.taskRegs x coord).lookup n).getD 0 = s.paramRule x coord n := by
  unfold State.taskRegs State.paramRule
  obtain below | rfl | above := Nat.lt_trichotomy n 56
  · cases s.launch? x.launch with
    | some l => interval_cases n <;> rfl
    | none => cases s.ggemm? x.launch with
      | some g => interval_cases n <;> rfl
      | none => rfl
  · cases s.launch? x.launch with
    | some l => exact Nat.add_comm _ _
    | none => cases s.ggemm? x.launch with
      | some g => exact Nat.add_comm _ _
      | none => rfl
  · cases s.launch? x.launch with
    | some l => interval_cases n <;> rfl
    | none => cases s.ggemm? x.launch with
      | some g => interval_cases n <;> rfl
      | none => rfl

end Sys2Proof.Machine
end

section
/-! PROOF. The dispatch of a task (R31, R322, R329). -/
namespace Sys2Proof.Machine

/-- The state in which a task has begun, before its parameter block is copied. -/
def State.begins (s : State) (x : Task) (p : Spec) (tile : Option TileTask) : State :=
  let c := s.modCore x.core fun c => c.atDispatch p.ctx (p.depthOf - 1) (s.kernelOf x.launch x.path).2 ((s.kernelOf x.launch x.path).1 + 64)
  let used := (match tile with | some y => c.tileHandles y | none => []).foldl State.useHandle c
  let set := used.setTask { x with begun := true, order := used.launch.order }
  { set with launch := { set.launch with order := set.launch.order + 1 } }

/-- The copy of the parameter block (R322), and the code of its failure or 0. -/
def State.copies (u : State) (k : Nat) (launch : Option Launch) (p : Spec) : State × Nat :=
  match launch with
  | some l =>
    let n := field l.bytes 0x24 4
    if n = 0 then (u, 0)
    else match u.engRead k p.ctx l.param n with
      | (w, .error e) => (w, e)
      | (w, .ok b) => w.engWrite k p.ctx (BitVec.ofNat 64 (2 ^ 60 + field l.bytes 0x20 4)) b
  | none => (u, 0)

/-- The coordinates of a tile; zeros where there is none. -/
def coordOf : Option TileTask → List Nat
  | some y => y.coord
  | none => [0, 0, 0]

/-- The check of the kernel record on the state whose parameters are written, and what a failing record leads to. -/
def State.enters (w : State) (k ctx : Nat) (kp : Word) : State :=
  match w.checkKernel k ctx kp with
  | (y, .ok _) => y
  | (y, .error f) => ((y.focus k).takeTrap f (kp + 64) 0 false []).focus y.core.kid

theorem State.enters_ok {w y : State} {k ctx : Nat} {kp : Word} {b : List Byte} (h : w.checkKernel k ctx kp = (y, .ok b)) :
    w.enters k ctx kp = y := by
  rw [State.enters, h]

theorem State.enters_error {w y : State} {k ctx : Nat} {kp : Word} {f : TrapInfo} (h : w.checkKernel k ctx kp = (y, .error f)) :
    w.enters k ctx kp = ((y.focus k).takeTrap f (kp + 64) 0 false []).focus y.core.kid := by
  rw [State.enters, h]

/-- A task that the copy of its parameters ends. -/
def State.unbegun (w : State) (x : Task) (tile : Option TileTask) (code : Nat) : State :=
  let e := w.modCore x.core Core.endTask
  let s := { e with launch := { e.launch with tasks := e.launch.tasks.filter fun y => y.core != x.core } }
  match tile with
  | some y => s.failTile ((s.tile? y.id).getD y) code 1
  | none => s

theorem State.startTask_eq {s : State} {x : Task} {p : Spec} (h : s.spec? x.launch = some p) :
    let u := s.begins x p (x.tile.bind s.tile?)
    s.startTask x = match u.copies x.core (u.launch? x.launch) p with
      | (w, 0) => (w.modCore x.core fun c => c.setMany (w.taskRegs x (coordOf (x.tile.bind s.tile?)))).enters
          x.core p.ctx (s.kernelOf x.launch x.path).1
      | (w, code) => w.unbegun x (x.tile.bind s.tile?) code := by
  unfold State.startTask
  generalize x.tile.bind s.tile? = tile
  intro v
  split
  · next e => rw [h] at e; cases e
  · next q e =>
    obtain rfl : q = p := Option.some.inj (e.symm.trans h)
    extract_lets t coord
    have coords : coord = coordOf tile := by cases tile <;> rfl
    split
    next kp kernel hk =>
    obtain rfl : (s.kernelOf x.launch x.path).1 = kp := by rw [hk]
    obtain rfl : (s.kernelOf x.launch x.path).2 = kernel := by rw [hk]
    extract_lets entry s1 hs s2 s3 l u
    have begun : v = u := by cases tile <;> rfl
    rw [begun, ← coords]
    clear_value u coord
    split
    next pdst plen param hl =>
    extract_lets copied
    have copies : copied = u.copies x.core (u.launch? x.launch) q := by
      generalize u.launch? x.launch = launch at hl
      cases launch with
      | some l =>
        obtain ⟨rfl, same⟩ := Prod.mk.inj hl
        obtain ⟨rfl, rfl⟩ := Prod.mk.inj same
        rfl
      | none =>
        obtain ⟨rfl, same⟩ := Prod.mk.inj hl
        obtain ⟨rfl, rfl⟩ := Prod.mk.inj same
        rfl
    rw [← copies]
    clear_value copied
    obtain ⟨w, _ | code⟩ := copied
    · change (match (w.modCore x.core fun c => c.setMany (w.taskRegs x coord)).checkKernel x.core q.ctx (s.kernelOf x.launch x.path).1 with
        | (y, .error f) => ((y.focus x.core).takeTrap f entry 0 false []).focus y.core.kid
        | (y, .ok _) => y) = (w.modCore x.core fun c => c.setMany (w.taskRegs x coord)).enters
          x.core q.ctx (s.kernelOf x.launch x.path).1
      unfold State.enters
      generalize State.checkKernel _ _ _ _ = checked
      obtain ⟨y, f | b⟩ := checked
      · rfl
      · rfl
    · cases tile <;> rfl

end Sys2Proof.Machine
end

section
/-! PROOF. The obligation on dispatches. -/
namespace Sys2Proof.Machine

variable {s u w : State} {x : Task} {p : Spec} {k : Nat}

theorem Core.atDispatch_kid (d : Core) (ctx level : Nat) (kernel : List Byte) (entry : Word) : (d.atDispatch ctx level kernel entry).kid = d.kid := by
  have sensed (same : Bool) : (if same then d else d.senseStripes).kid = d.kid := by
    split
    · rfl
    · rw [d.senseStripes_pool]
  exact sensed (d.ctx == ctx)

theorem State.foldl_useHandle (hs : List Nat) (s : State) : hs.foldl State.useHandle s = { s with expert := (hs.foldl State.useHandle s).expert } := by
  induction hs generalizing s with
  | nil => rfl
  | cons h hs ih =>
    rw [List.foldl_cons, ih]
    rfl

theorem State.begins_eq {tile : Option TileTask} (kid : s.core.kid = x.core) : s.begins x p tile = { s with
    core := s.core.atDispatch p.ctx (p.depthOf - 1) (s.kernelOf x.launch x.path).2 ((s.kernelOf x.launch x.path).1 + 64)
    expert := (s.begins x p tile).expert
    launch := { s.launch with
      tasks := s.launch.tasks.map fun (t : Task) => if t.core == x.core then { x with begun := true, order := s.launch.order } else t
      order := s.launch.order + 1 } } := by
  unfold State.begins
  rw [modCore_viewed kid (Core.atDispatch_kid ..)]
  extract_lets d used set
  obtain ⟨e, held⟩ : ∃ e, used = { d with expert := e } := ⟨_, foldl_useHandle _ d⟩
  clear_value used
  subst held
  rfl

theorem State.copies_access (u : State) (k : Nat) (launch : Option Launch) (p : Spec) : u.AccessOnly (u.copies k launch p).1 := by
  unfold State.copies
  split
  · next l =>
    extract_lets n
    split
    · exact .refl u
    · have read := u.engRead_access k p.ctx l.param n
      split
      · next e => rw [e] at read; exact read
      · next e => rw [e] at read; exact read.trans (State.engWrite_access ..)
  · exact .refl u

theorem State.takeTrap_kid (s : State) (t : TrapInfo) (pc : Word) (j : Nat) (rpt : Bool) (loops : List Level) :
    (s.takeTrap t pc j rpt loops).core.kid = s.core.kid := by
  have ready : s.readied.releaseHeld.core.kid = s.core.kid := s.readied_core.kid
  have only := s.readied.releaseHeld.core.completeOlder_only
  have trapped : (s.readied.releaseHeld.core.enterTrap t pc j rpt loops).kid = s.core.kid := by
    rw [← ready, Core.enterTrap_eq]
    generalize s.readied.releaseHeld.core.completeOlder = o at only
    exact show o.kid = _ by rw [only]
  have aborted : s.readied.releaseHeld.core.abort.kid = s.core.kid := by
    rw [← ready, Core.abort_eq]
    generalize s.readied.releaseHeld.core.completeOlder = o at only
    exact show o.kid = _ by rw [only]
  rw [State.takeTrap_eq]
  split
  · exact trapped
  · split
    · exact aborted
    · split <;> exact trapped

/-- The kernel record is checked by accesses alone. -/
theorem State.checkKernel_access (s : State) (k ctx : Nat) (kp : Word) : s.AccessOnly (s.checkKernel k ctx kp).1 := by
  have resolved := s.resolve_access k ctx kp 64 .read
  unfold State.checkKernel
  split
  · next e => rw [e] at resolved; exact resolved
  · next s1 r e =>
    rw [e] at resolved
    have read := s1.readRange_access r
    generalize s1.readRange r = found at read ⊢
    obtain ⟨s2, b, met⟩ := found
    dsimp only
    split
    · exact (resolved.trans read).trans (s2.engineMet_access ..)
    · split <;> exact resolved.trans read

/-- A tile that fails leaves what the core in view does, and gains no task. -/
theorem State.failTile_tasks (s : State) (t : TileTask) (code detail : Nat) :
    (s.failTile t code detail).core.run = s.core.run ∧ ∀ y ∈ (s.failTile t code detail).launch.tasks, y ∈ s.launch.tasks := by
  unfold State.failTile
  extract_lets l f
  have kept := (f.report t.launch ⟨code, detail, t.path⟩).endTile_work t (some 0xFFFF)
  exact ⟨kept.run, fun y hy => (List.mem_filter.mp (kept.tasks ▸ hy)).1⟩

theorem State.unbegun_ends {tile : Option TileTask} {code : Nat} (kid : w.core.kid = x.core) :
    (w.unbegun x tile code).core.run = .idle ∧ ∀ y ∈ (w.unbegun x tile code).launch.tasks, y.core ≠ x.core := by
  unfold State.unbegun
  rw [modCore_viewed (f := Core.endTask) kid rfl]
  extract_lets e l f
  have other : ∀ y ∈ f.launch.tasks, y.core ≠ x.core := fun y hy => bne_iff_ne.mp (List.mem_filter.mp hy).2
  split
  · obtain ⟨run, tasks⟩ := f.failTile_tasks _ code 1
    exact ⟨run, fun y hy => other y (tasks y hy)⟩
  · exact ⟨rfl, other⟩

/-! ## What depends on the launches alone -/

theorem State.launch?_congr (h : u.launch.launches = s.launch.launches) : u.launch? = s.launch? := by
  funext l
  rw [State.launch?, State.launch?, h]

theorem State.ggemm?_congr (h : u.launch.ggemms = s.launch.ggemms) : u.ggemm? = s.ggemm? := by
  funext l
  rw [State.ggemm?, State.ggemm?, h]

theorem State.spec?_congr (h : u.launch = s.launch) : u.spec? = s.spec? := by
  funext l
  rw [State.spec?, State.spec?, launch?_congr (u := u) (s := s) (by rw [h]), ggemm?_congr (u := u) (s := s) (by rw [h])]

theorem State.kernelOf_congr (h : u.launch = s.launch) : u.kernelOf = s.kernelOf := by
  funext l path
  rw [State.kernelOf, State.kernelOf, launch?_congr (u := u) (s := s) (by rw [h]), ggemm?_congr (u := u) (s := s) (by rw [h])]

theorem State.tile?_congr (h : u.launch = s.launch) : u.tile? = s.tile? := by
  funext t
  rw [State.tile?, State.tile?, h]

theorem State.dispatches_congr (h : u.launch = s.launch) (hm : u.mem = s.mem) : u.dispatches = s.dispatches := by
  funext l
  rw [State.dispatches, State.dispatches, spec?_congr h, hm]

theorem State.taskRegs_congr (h : u.launch.launches = s.launch.launches) (hg : u.launch.ggemms = s.launch.ggemms) (x : Task)
    (coord : List Nat) : u.taskRegs x coord = s.taskRegs x coord := by
  rw [State.taskRegs, State.taskRegs, launch?_congr h, ggemm?_congr hg]

/-! ## The dispatch -/

theorem State.focus_viewed (h : s.core.kid = k) : s.focus k = s := if_pos h.symm

theorem Core.BytesOnly.getS {c d : Core} (h : c.BytesOnly d) (n : Fin 64) : d.getS n = c.getS n := by
  unfold Core.BytesOnly at h
  rw [h]
  rfl

theorem Core.dispatched.getS {c d : Core} {ctx level : Nat} {entry : Word} {kernel : List Byte} (h : c.dispatched d ctx level entry kernel)
    (n : Fin 64) : d.getS n = 0 := by
  obtain ⟨-, -, -, zero, -⟩ := h
  exact zero n

/-- The task that waits for an idle core whose pool serves it is started. -/
theorem State.dispatchTask_starts (kid : s.core.kid = k)
    (hx : s.launch.tasks.find? (fun t => t.core == k && !t.begun) = some x) (idle : s.core.run = .idle) (still : s.core.freeze = 0)
    (sound : ∀ g : Fin 12, s.core.groups[g].state ≠ 1) (runs : s.dispatches x.launch = true) : s.dispatchTask k = s.startTask x := by
  have core : x.core = k := core_of_find? hx
  have served : (s.core.groups.toList.any fun g => g.state == 1) = false := by
    simp only [List.any_eq_false, Vector.mem_toList_iff, beq_iff_eq]
    intro g hg
    obtain ⟨n, hn, rfl⟩ := Vector.mem_iff_getElem.mp hg
    exact sound ⟨n, hn⟩
  have ready : s.dispatchable x = true := by
    unfold State.dispatchable
    rw [core, coreAt_viewed kid]
    change (s.core.run == .idle && s.core.freeze == 0 && !(s.core.groups.toList.any fun g => g.state == 1) && s.dispatches x.launch) = true
    rw [idle, still, served, runs]
    rfl
  unfold State.dispatchTask
  rw [hx]
  exact if_pos ready

/-- The registers of a core whose parameters are written (R322, R329, R361). -/
theorem State.taskRegs_written {c : Core} (zero : ∀ n, c.getS n = 0) (s : State) (x : Task) (coord : List Nat) :
    (∀ n : Fin 64, 48 ≤ n.val → n.val < 62 → (c.setMany (s.taskRegs x coord)).getS n = BitVec.ofNat 64 (s.paramRule x coord n)) ∧
    ∀ n : Fin 64, (n.val < 48 ∨ 62 ≤ n.val) → (c.setMany (s.taskRegs x coord)).getS n = 0 := by
  obtain ⟨once, range⟩ := s.taskRegs_keys x coord
  have small (a : Nat) (ha : a ∈ (s.taskRegs x coord).map Prod.fst) : a < 64 := by
    have := range a ha
    omega
  refine ⟨fun n h h' => ?_, fun n h => ?_⟩
  · have hn : n ≠ 0 := by
      rintro rfl
      exact absurd h (by decide)
    rw [Core.getS_setMany hn c once small, zero, ← s.lookup_taskRegs x coord h h']
    cases (s.taskRegs x coord).lookup n.val with
    | some a => rfl
    | none => rfl
  · by_cases hn : n = 0
    · subst hn
      rfl
    · have none : (s.taskRegs x coord).lookup n.val = none := List.lookup_eq_none_iff.mpr fun y hy => by
        have := range y.1 (List.mem_map_of_mem hy)
        rw [bne_iff_ne]
        omega
      rw [Core.getS_setMany hn c once small, none]
      exact zero n

/-- Settles O48: the stages of `State.startTask_eq`, with the registers of `State.taskRegs_written`. -/
theorem taskDispatch : Obligations.TaskDispatch := by
  intro k s x p hk hc hx idle still sound runs hp v kp kernel coord
  have kid : v.core.kid = k := State.focus_kid s hk
  have same : v.core = s.coreAt k := State.focus_core s hk
  have launch : v.launch = s.launch := State.focus_launch s k
  have mem : v.mem = s.mem := State.focus_mem s k
  have core : x.core = k := core_of_find? hx
  have coords : coord = coordOf (x.tile.bind v.tile?) := by
    rw [State.tile?_congr launch]
    cases h : x.tile.bind s.tile? <;> simp [coord, h, coordOf]
  have kernels : v.kernelOf x.launch x.path = (kp, kernel) := by rw [State.kernelOf_congr launch]
  have starts : v.dispatchTask k = v.startTask x := State.dispatchTask_starts kid (launch ▸ hx) (same ▸ idle) (same ▸ still)
    (same ▸ sound) (State.dispatches_congr launch mem ▸ runs)
  have started := State.startTask_eq (s := v) (State.spec?_congr launch ▸ hp)
  have happens : Happens (.taskDispatch k) s (v.dispatchTask k) := happens_clocked (f := fun s => s.dispatchTask k) rfl hk hc
  have begun := State.begins_eq (p := p) (tile := x.tile.bind v.tile?) (kid.trans core.symm)
  rw [starts, started, kernels, ← coords] at happens
  rw [kernels] at begun
  generalize v.begins x p (x.tile.bind v.tile?) = u at begun happens
  have ucore : u.core = v.core.atDispatch p.ctx (p.depthOf - 1) kernel (kp + 64) := by rw [begun]
  have ukid : u.core.kid = k := by rw [ucore, Core.atDispatch_kid, kid]
  have fresh : v.core.dispatched u.core p.ctx (p.depthOf - 1) (kp + 64) kernel := ucore ▸ Core.atDispatch_dispatched ..
  have ulaunch : u.launch = { s.launch with
      tasks := s.launch.tasks.map fun (t : Task) => if t.core == k then { x with begun := true, order := s.launch.order } else t
      order := s.launch.order + 1 } := by rw [begun, launch, core]
  have access := u.copies_access k (s.launch? x.launch) p
  refine ⟨u, ukid.trans kid.symm, fresh, by rw [begun]; exact mem, by rw [begun], ulaunch, ?_⟩
  intro copied
  have launches : u.launch? = s.launch? := State.launch?_congr (by rw [ulaunch])
  have copies : copied = u.copies k (s.launch? x.launch) p := rfl
  rw [launches, core] at happens
  clear_value copied
  subst copies
  generalize u.copies k (s.launch? x.launch) p = copy at access happens ⊢
  obtain ⟨c, n⟩ := copy
  have ckid : c.core.kid = k := access.kid.trans ukid
  refine ⟨?_, fun failed => ?_⟩
  · rintro rfl
    have zero (n : Fin 64) : c.core.getS n = 0 := (access.core.getS n).trans (fresh.getS n)
    have only := Core.setMany_only (c.taskRegs x coord) c.core
    have regs : c.taskRegs x coord = s.taskRegs x coord := State.taskRegs_congr (by rw [access.launch, ulaunch]) (by rw [access.launch, ulaunch]) x coord
    have written : c.modCore k (fun d => d.setMany (c.taskRegs x coord)) = c.withCore (c.core.setMany (s.taskRegs x coord)) := by
      rw [State.modCore_viewed ckid (by rw [only]), regs]
      rfl
    rw [regs] at only
    obtain ⟨named, others⟩ := State.taskRegs_written zero s x coord
    change Happens _ s (State.enters _ k p.ctx kp) at happens
    rw [written] at happens
    refine ⟨c.withCore (c.core.setMany (s.taskRegs x coord)), ?_, named, others, ?_⟩
    · exact congrArg c.withCore only
    · have checked := (c.withCore (c.core.setMany (s.taskRegs x coord))).checkKernel_access k p.ctx kp
      split
      · next y b e => exact State.enters_ok e ▸ happens
      · next y f e =>
        rw [e] at checked
        have ykid : y.core.kid = k := checked.kid.trans ((congrArg Core.kid only).trans ckid)
        rw [State.enters_error e, State.focus_viewed ykid, State.focus_viewed ((State.takeTrap_kid ..).trans rfl)] at happens
        exact happens
  · obtain ⟨m, rfl⟩ := Nat.exists_eq_succ_of_ne_zero failed
    obtain ⟨run, tasks⟩ := State.unbegun_ends (tile := x.tile.bind v.tile?) (code := m + 1) (ckid.trans core.symm)
    exact ⟨_, happens, run, core ▸ tasks⟩

end Sys2Proof.Machine
end

section
/-! PROOF. Port numbers and slot words (R44, R49). -/
namespace Sys2Proof

/-! ## Port numbers (R49) -/

theorem Port.ofNat_toNat (p : Port) : Port.ofNat p.toNat = some p := by
  cases p with
  | latch u a => cases u <;> revert a <;> decide
  | imm k => cases k <;> rfl
  | cq | zacc | lid | kid => rfl
  | s n | v n | m n | dq n | eq n | loop n | ap n | z n | f n | short n => revert n; decide

theorem Port.lt_of_ofNat {n : Nat} {p : Port} (h : Port.ofNat n = some p) : n < 256 := by
  by_contra hn
  have none : Port.ofNat n = none := by
    unfold Port.ofNat
    repeat rw [if_neg (by omega)]
  rw [none] at h
  cases h

/-- The port map over all port numbers. -/
theorem Port.toNat_of_mem_ofNat : ∀ n < 256, ∀ p ∈ Port.ofNat n, p.toNat = n := by
  decide +kernel

theorem Port.ofNat_eq_some_iff {n : Nat} {p : Port} : Port.ofNat n = some p ↔ p.toNat = n :=
  ⟨fun h => Port.toNat_of_mem_ofNat n (Port.lt_of_ofNat h) p h, fun h => h ▸ p.ofNat_toNat⟩

theorem Port.toNat_lt (p : Port) : p.toNat < 256 := Port.lt_of_ofNat p.ofNat_toNat

/-! ## The fields of a slot word (R44) -/

/-- The 48-bit word of raw fields (R44). -/
def RawOp.word (x : RawOp) : Nat :=
  b2n x.mod + 2 * b2n x.e3 + 4 * b2n x.e2 + 8 * b2n x.e1 + 2 ^ 4 * x.op3 + 2 ^ 12 * x.op2 +
  2 ^ 20 * x.op1 + 2 ^ 28 * x.dst + 2 ^ 36 * b2n x.gn + 2 ^ 37 * x.gf + 2 ^ 40 * x.opc

/-- The raw fields of an operation under an opcode. -/
@[simps]
def Op.raw (opc : Nat) (o : Op) : RawOp :=
  ⟨opc, o.gf.val, o.gn, o.dst.toNat, o.op1.toNat, o.op2.toNat, o.op3.toNat, o.e1, o.e2, o.e3, o.mod⟩

theorem encodeOp_eq (opc : Nat) (o : Op) : encodeOp opc o = (o.raw opc).word := rfl

theorem b2n_bitAt (x k : Nat) : b2n (bitAt x k) = x / 2 ^ k % 2 := by
  rw [← Nat.toNat_testBit, bitAt]
  cases x.testBit k <;> rfl

theorem b2n_le_one (b : Bool) : b2n b ≤ 1 := by cases b <;> decide

theorem bitAt_eq {x k : Nat} {b : Bool} (h : x / 2 ^ k % 2 = b2n b) : bitAt x k = b := by
  rw [← b2n_bitAt] at h
  revert h
  cases bitAt x k <;> cases b <;> decide

theorem RawOp.word_of {w : Nat} (h : w < 2 ^ 48) : (RawOp.of w).word = w := by
  simp only [RawOp.word, RawOp.of, b2n_bitAt, bits]
  omega

theorem RawOp.of_raw_word {opc : Nat} (h : opc < 256) (o : Op) : RawOp.of (o.raw opc).word = o.raw opc := by
  have hgf := o.gf.isLt
  have hdst := o.dst.toNat_lt
  have h1 := o.op1.toNat_lt
  have h2 := o.op2.toNat_lt
  have h3 := o.op3.toNat_lt
  have b1 := b2n_le_one o.e1
  have b2 := b2n_le_one o.e2
  have b3 := b2n_le_one o.e3
  have bm := b2n_le_one o.mod
  have bn := b2n_le_one o.gn
  simp only [RawOp.of, Op.raw, RawOp.mk.injEq]
  refine ⟨?_, ?_, bitAt_eq ?_, ?_, ?_, ?_, ?_, bitAt_eq ?_, bitAt_eq ?_, bitAt_eq ?_, bitAt_eq ?_⟩ <;>
    simp only [RawOp.word, bits] <;> omega

end Sys2Proof
end

section
/-! PROOF. The opcode maps: a row names its operation, and an opcode a row, whatever the operands (R85 to R97). -/
namespace Sys2Proof

/-! ## The opcode maps, slot by slot -/

/-- What is found in a map is kept if its type is one that its opcode allows. -/
theorem found_eq_filter (found : Option Instr) :
    (match found with
      | some i => if i.typeOk then some i else none
      | none => none) = found.filter Instr.typeOk := by
  cases found
  · rfl
  · rw [Option.filter_some]

theorem ctorOf_br (n : Nat) (m : Bool) (o : Op) : ctorOf .br n m o = (brOp m o n).filter Instr.typeOk := found_eq_filter _
theorem ctorOf_sc (n : Nat) (m : Bool) (o : Op) : ctorOf .sc n m o = (scOp o n).filter Instr.typeOk := found_eq_filter _
theorem ctorOf_lm (n : Nat) (m : Bool) (o : Op) : ctorOf .lm n m o = (lmOp m o n).filter Instr.typeOk := found_eq_filter _
theorem ctorOf_ec (n : Nat) (m : Bool) (o : Op) : ctorOf .ec n m o = (ecOp m o n).filter Instr.typeOk := found_eq_filter _
theorem ctorOf_mx (n : Nat) (m : Bool) (o : Op) : ctorOf .mx n m o = (mxOp m o n).filter Instr.typeOk := found_eq_filter _

theorem ctorOf_xn (n : Nat) (m : Bool) (o : Op) : ctorOf .xn n m o =
    (if n < 0x40 then xnUntyped m o n else xnTyped (ElemTy.ofCode (n % 8)) o (n / 8 * 8)).filter Instr.typeOk :=
  found_eq_filter _

/-- The typed operations of a vector slot: those of both slots, then those of VB alone (R92). -/
def vecSlotTyped (u : VU) (t : ElemTy) (m : Bool) (o : Op) (n : Nat) : Option Instr :=
  match vecTyped u t m o n with
  | some i => some i
  | none => if u = .b then vbTyped t m o n else none

theorem ctorOf_vec (u : VU) (n : Nat) (m : Bool) (o : Op) : ctorOf u.slot n m o =
    (if n < 8 then none
      else if n < 0xF0 then vecSlotTyped u (ElemTy.ofCode (n % 8)) m o (n / 8 * 8)
      else vecUntyped u o n).filter Instr.typeOk := by
  rw [← found_eq_filter]
  cases u <;> rfl

/-! ## Element types in opcodes (R44) -/

theorem ElemTy.code_lt (t : ElemTy) : t.code < 8 := by cases t <;> decide

theorem ElemTy.ofCode_code (t : ElemTy) : ElemTy.ofCode t.code = t := by cases t <;> rfl

theorem ElemTy.code_ofCode {n : Nat} (h : n < 8) : (ElemTy.ofCode n).code = n := by
  interval_cases n <;> rfl

/-- An opcode splits into the base of its operation and the code of its type. -/
theorem opcode_split {base : Nat} (h : base % 8 = 0) (t : ElemTy) :
    ElemTy.ofCode ((base + t.code) % 8) = t ∧ (base + t.code) / 8 * 8 = base := by
  have ht := t.code_lt
  have e : (base + t.code) % 8 = t.code := by omega
  exact ⟨by rw [e, t.ofCode_code], by omega⟩

theorem opcode_join (n : Nat) : n / 8 * 8 + (ElemTy.ofCode (n % 8)).code = n := by
  rw [ElemTy.code_ofCode (Nat.mod_lt _ (by decide))]
  omega

theorem VU.slot_ne_br (u : VU) : u.slot ≠ .br := by cases u <;> decide

/-! ## From a row of the opcode map to the operation -/

section
variable {u : VU} {t : ElemTy} {m : Bool} {o : Op} {i : Instr} {base : Nat}

theorem ctorOf_vecTyped (hb : base % 8 = 0) (h8 : 8 ≤ base) (hF : base < 0xF0) (ht : i.typeOk = true)
    (h : vecSlotTyped u t m o base = some i) : ctorOf u.slot (base + t.code) m o = some i := by
  obtain ⟨ty, op⟩ := opcode_split hb t
  have hc := t.code_lt
  rw [ctorOf_vec, if_neg (by omega), if_pos (by omega), ty, op, h, Option.filter_some, if_pos ht]

theorem ctorOf_xnTyped (hb : base % 8 = 0) (h4 : 0x40 ≤ base) (ht : i.typeOk = true) (h : xnTyped t o base = some i) :
    ctorOf .xn (base + t.code) m o = some i := by
  obtain ⟨ty, op⟩ := opcode_split hb t
  rw [ctorOf_xn, if_neg (by omega), ty, op, h, Option.filter_some, if_pos ht]

end

theorem ModUse.ok_is {b m : Bool} : (ModUse.is b).ok m = true ↔ m = b := beq_iff_eq

/-- The opcode of a row that fits an operation's MOD names the operation. -/
theorem ctorOf_of_info {i : Instr} {r : Row} {o : Op} (h : i.info = some (r, o)) (hm : r.mod.ok o.mod = true)
    (ht : i.typeOk = true) : ctorOf r.slot r.opc o.mod o = some i := by
  cases i
  case
      vadd | vsub | vmul | vmulh | vfma | vfms | vfnma | vmin | vmax | vadds | vsubs | vavg | vcmp | vshl | vcvt | vqnt
    | vdqnt | vdot4 | vbcst | viota =>
    cases h
    exact ctorOf_vecTyped rfl (by decide) (by decide) ht rfl
  case vabs | vneg | vshr | vsra | vfshl | vfshr | vclz | vpopc =>
    cases h
    rw [ModUse.ok_is.1 hm]
    exact ctorOf_vecTyped rfl (by decide) (by decide) ht rfl
  case vdiv | vsqrt =>
    cases h
    exact ctorOf_vecTyped (u := .b) rfl (by decide) (by decide) ht rfl
  case vrcp | vrsq | vexp2 | vlog2 | vtanh | vsigm =>
    cases h
    rw [ModUse.ok_is.1 hm]
    exact ctorOf_vecTyped (u := .b) rfl (by decide) (by decide) ht rfl
  case xred | xscan | xgmax | xgmin =>
    cases h
    exact ctorOf_xnTyped rfl (by decide) ht rfl
  case
      vand u _ | vor u _ | vxor u _ | vandn u _ | vnot u _ | vsel u _ | vmov u _ | vmand u _ | vmor u _
    | vmnot u _ | vmpopc u _ | vmfirst u _ =>
    cases h
    cases u <;> rfl
  case
      brc | brcZ | brq | brqN | twait | twaitAny | ldv | ldvt | stv | stvt | swait | swaitEmpty | sarr | sarrEmpty | flushl1
    | flushl1Inv | invl | invlAll | xrot | xrotDn | xzip | xzipHi | xunzip | xunzipOdd | mxzero | mxzeroAll =>
    cases h
    rw [ModUse.ok_is.1 hm]
    rfl
  all_goals cases h <;> rfl

theorem Row.opc_of_info {i : Instr} {r : Row} {o : Op} (h : i.info = some (r, o)) : 0 < r.opc ∧ r.opc < 256 := by
  cases i
  case
      vadd t _ | vsub t _ | vmul t _ | vmulh t _ | vfma t _ | vfms t _ | vfnma t _ | vmin t _ | vmax t _ | vadds t _ | vsubs t _
    | vavg t _ | vcmp t _ | vshl t _ | vcvt t _ | vqnt t _ | vdqnt t _ | vdot4 t _ | vbcst t _ | viota t _ | vabs t _ | vneg t _
    | vshr t _ | vsra t _ | vfshl t _ | vfshr t _ | vclz t _ | vpopc t _ | vdiv t _ | vsqrt t _ | vrcp t _ | vrsq t _ | vexp2 t _
    | vlog2 t _ | vtanh t _ | vsigm t _ | xred t _ | xscan t _ | xgmax t _ | xgmin t _ =>
    cases h
    have ht := t.code_lt
    simp only [Row.vx, Row.xn]
    omega
  all_goals
    cases h <;> exact ⟨Nat.le_of_ble_eq_true rfl, Nat.le_of_ble_eq_true rfl⟩

/-! ## One row for all operands

Decoding looks an opcode up three times: with no operand, with the second alone and with all of them. -/

/-- Two operations of one row of the opcode map, with fields `o` and `o'`. -/
structure Instr.SameRow (sl : Slot) (opc : Nat) (o o' : Op) (i i' : Instr) : Prop where
  row : ∃ r : Row, r.slot = sl ∧ r.opc = opc ∧ i.info = some (r, o) ∧ i'.info = some (r, o')
  typeOk : i.typeOk = i'.typeOk

section
variable {o o' : Op} {m : Bool} {n : Nat}

/-! Each map is looked at opcode by opcode, with and without MOD. -/

theorem brOp_sameRow : Option.Rel (Instr.SameRow .br n o o') (brOp m o n) (brOp m o' n) := by
  unfold brOp
  cases m <;> split <;> constructor <;> exact ⟨⟨_, rfl, rfl, rfl, rfl⟩, rfl⟩

theorem scOp_sameRow : Option.Rel (Instr.SameRow .sc n o o') (scOp o n) (scOp o' n) := by
  unfold scOp
  split <;> constructor <;> exact ⟨⟨_, rfl, rfl, rfl, rfl⟩, rfl⟩

theorem lmOp_sameRow : Option.Rel (Instr.SameRow .lm n o o') (lmOp m o n) (lmOp m o' n) := by
  unfold lmOp
  cases m <;> split <;> constructor <;> exact ⟨⟨_, rfl, rfl, rfl, rfl⟩, rfl⟩

theorem ecOp_sameRow : Option.Rel (Instr.SameRow .ec n o o') (ecOp m o n) (ecOp m o' n) := by
  unfold ecOp
  cases m <;> split <;> constructor <;> exact ⟨⟨_, rfl, rfl, rfl, rfl⟩, rfl⟩

theorem vecTyped_sameRow {u : VU} {t : ElemTy} :
    Option.Rel (Instr.SameRow u.slot (n + t.code) o o') (vecTyped u t m o n) (vecTyped u t m o' n) := by
  unfold vecTyped
  cases m <;> split <;> constructor <;> exact ⟨⟨_, rfl, rfl, rfl, rfl⟩, rfl⟩

theorem vbTyped_sameRow {t : ElemTy} :
    Option.Rel (Instr.SameRow .vb (n + t.code) o o') (vbTyped t m o n) (vbTyped t m o' n) := by
  unfold vbTyped
  cases m <;> split <;> constructor <;> exact ⟨⟨_, rfl, rfl, rfl, rfl⟩, rfl⟩

theorem vecSlotTyped_sameRow {u : VU} {t : ElemTy} :
    Option.Rel (Instr.SameRow u.slot (n + t.code) o o') (vecSlotTyped u t m o n) (vecSlotTyped u t m o' n) := by
  have h := vecTyped_sameRow (o := o) (o' := o') (m := m) (n := n) (u := u) (t := t)
  unfold vecSlotTyped
  generalize vecTyped u t m o n = x, vecTyped u t m o' n = y at h
  cases h with
  | some same => exact .some same
  | none =>
    cases u
    · exact .none
    · exact vbTyped_sameRow

theorem vecUntyped_sameRow {u : VU} : Option.Rel (Instr.SameRow u.slot n o o') (vecUntyped u o n) (vecUntyped u o' n) := by
  unfold vecUntyped
  split <;> constructor <;> exact ⟨⟨_, rfl, rfl, rfl, rfl⟩, rfl⟩

theorem xnUntyped_sameRow : Option.Rel (Instr.SameRow .xn n o o') (xnUntyped m o n) (xnUntyped m o' n) := by
  unfold xnUntyped
  cases m <;> split <;> constructor <;> exact ⟨⟨_, rfl, rfl, rfl, rfl⟩, rfl⟩

theorem xnTyped_sameRow {t : ElemTy} : Option.Rel (Instr.SameRow .xn (n + t.code) o o') (xnTyped t o n) (xnTyped t o' n) := by
  unfold xnTyped
  split <;> constructor <;> exact ⟨⟨_, rfl, rfl, rfl, rfl⟩, rfl⟩

/-- MOD of MXLDB chooses the class of its first operand. -/
theorem mxldb_sameRow (h : o.mod = o'.mod) : Instr.SameRow .mx 0x03 o o' (.mxldb o) (.mxldb o') :=
  ⟨⟨.mx 0x03 .none (if o.mod then .ad else .vm) .sx .none .any, rfl, rfl, rfl, by rw [h]; rfl⟩, rfl⟩

theorem mxOp_sameRow (h : o.mod = o'.mod) : Option.Rel (Instr.SameRow .mx n o o') (mxOp m o n) (mxOp m o' n) := by
  unfold mxOp
  split
  case h_3 => exact .some (mxldb_sameRow h)
  all_goals cases m <;> constructor <;> exact ⟨⟨_, rfl, rfl, rfl, rfl⟩, rfl⟩

theorem filter_sameRow {sl : Slot} {x y : Option Instr} (h : Option.Rel (Instr.SameRow sl n o o') x y) :
    Option.Rel (Instr.SameRow sl n o o') (x.filter Instr.typeOk) (y.filter Instr.typeOk) := by
  cases h with
  | none => exact .none
  | some same =>
    rw [Option.filter_some, Option.filter_some, same.typeOk]
    split
    · exact .some same
    · exact .none

theorem ctorOf_vec_sameRow {u : VU} :
    Option.Rel (Instr.SameRow u.slot n o o') (ctorOf u.slot n m o) (ctorOf u.slot n m o') := by
  rw [ctorOf_vec, ctorOf_vec]
  refine filter_sameRow ?_
  by_cases h8 : n < 8
  · rw [if_pos h8, if_pos h8]
    exact .none
  rw [if_neg h8, if_neg h8]
  by_cases hF : n < 0xF0
  · rw [if_pos hF, if_pos hF]
    have same := vecSlotTyped_sameRow (n := n / 8 * 8) (o := o) (o' := o') (m := m) (u := u) (t := ElemTy.ofCode (n % 8))
    rwa [opcode_join] at same
  · rw [if_neg hF, if_neg hF]
    exact vecUntyped_sameRow

theorem ctorOf_xn_sameRow : Option.Rel (Instr.SameRow .xn n o o') (ctorOf .xn n m o) (ctorOf .xn n m o') := by
  rw [ctorOf_xn, ctorOf_xn]
  refine filter_sameRow ?_
  by_cases h : n < 0x40
  · rw [if_pos h, if_pos h]
    exact xnUntyped_sameRow
  · rw [if_neg h, if_neg h]
    have same := xnTyped_sameRow (n := n / 8 * 8) (o := o) (o' := o') (t := ElemTy.ofCode (n % 8))
    rwa [opcode_join] at same

/-- With the same MOD, an opcode names operations of one row or none, whatever the operands. -/
theorem ctorOf_sameRow (sl : Slot) (h : o.mod = o'.mod) :
    Option.Rel (Instr.SameRow sl n o o') (ctorOf sl n m o) (ctorOf sl n m o') := by
  cases sl with
  | br => simpa only [ctorOf_br] using filter_sameRow brOp_sameRow
  | sc => simpa only [ctorOf_sc] using filter_sameRow scOp_sameRow
  | lm => simpa only [ctorOf_lm] using filter_sameRow lmOp_sameRow
  | ec => simpa only [ctorOf_ec] using filter_sameRow ecOp_sameRow
  | va => exact ctorOf_vec_sameRow (u := .a)
  | vb => exact ctorOf_vec_sameRow (u := .b)
  | xn => exact ctorOf_xn_sameRow
  | mx => simpa only [ctorOf_mx] using filter_sameRow (mxOp_sameRow h)

end

theorem ctorOf_typeOk {sl : Slot} {n : Nat} {m : Bool} {o : Op} {i : Instr} (h : ctorOf sl n m o = some i) :
    i.typeOk = true := by
  unfold ctorOf at h
  dsimp only at h
  split at h
  · split at h <;> cases h
    assumption
  · cases h

end Sys2Proof
end

section
/-! PROOF. The checks that decoding makes of a slot word (R60, R99). -/
namespace Sys2Proof

/-! ## The checks of a slot operation (R60) -/

section
variable {e : DecodeEnv} {sl : Slot} {var : Bool} {c : OpClass} {field n : Nat} {p : Port} {b : Bool}

theorem checkField_ok_iff : checkField e sl var c field n = .ok p ↔ p.toNat = n ∧ c.legal e sl var p = true := by
  rw [← Port.ofNat_eq_some_iff, checkField]
  cases hp : Port.ofNat n with
  | none => simp
  | some q =>
    by_cases hl : c.legal e sl var q = true
    · simp only [hl, if_true, Except.ok.injEq, Option.some.injEq]
      exact ⟨fun h => ⟨h, h ▸ hl⟩, And.left⟩
    · simp only [hl, Bool.false_eq_true, if_false, Option.some.injEq, reduceCtorEq, false_iff]
      rintro ⟨rfl, h⟩
      exact hl h

theorem checkSelector2_ok_iff {x : RawOp} : checkSelector2 sl x p = .ok () ↔
    (ctorOf sl x.opc x.mod { Op.blank x.mod with op2 := p }).bind Instr.selectorBad ≠ some 2 := by
  unfold checkSelector2
  split
  · simpa only [reduceCtorEq, false_iff, not_not]
  · next h => simpa only [true_iff]

/-- A field that an opcode does not use holds port 0x00. -/
theorem OpClass.toNat_of_legal_none (h : OpClass.legal e sl var .none p = true) : p.toNat = 0 := by
  have hp : p = .s 0 := eq_of_beq h
  rw [hp]
  rfl

/-- Of a legal field, R60's check for reserved bits asks no more than that its E bit is used. -/
theorem reserved_field_iff (h : c.legal e sl var p = true) :
    (c == .none && (p.toNat != 0 || b)) = false ↔ eBitOk c b = true := by
  by_cases hc : c = .none
  · subst hc
    simp [OpClass.toNat_of_legal_none h, eBitOk]
  · simp [beq_false_of_ne hc, eBitOk]

theorem reserved_dst (h : c.legal e sl var p = true) : (c == .none && p.toNat != 0) = false := by
  simpa using (reserved_field_iff (b := false) h).2 (by simp [eBitOk])

end

section
variable {e : DecodeEnv} {r : Row} {o : Op}

/-- Where each field is legal, the check for reserved bits is that of MOD and the E bits. -/
theorem Op.raw_reserved_iff (hd : r.dst.legal e r.slot (r.lat == .var) o.dst = true) (h1 : r.op1.legal e r.slot false o.op1 = true)
    (h2 : r.op2.legal e r.slot false o.op2 = true) (h3 : r.op3.legal e r.slot false o.op3 = true) :
    (o.raw r.opc).reservedBad r = false ↔
      r.mod.ok o.mod = true ∧ eBitOk r.op1 o.e1 = true ∧ eBitOk r.op2 o.e2 = true ∧ eBitOk r.op3 o.e3 = true := by
  simp only [RawOp.reservedBad, Op.raw, Bool.or_eq_false_iff, reserved_dst hd, reserved_field_iff h1, reserved_field_iff h2,
    reserved_field_iff h3, Bool.not_eq_false']
  tauto

/-- The fields fit the row when no reserved bit is set and each is legal. -/
theorem Row.fits_iff : r.fits e o = true ↔ (o.raw r.opc).reservedBad r = false ∧
    r.dst.legal e r.slot (r.lat == .var) o.dst = true ∧ r.op1.legal e r.slot false o.op1 = true ∧
    r.op2.legal e r.slot false o.op2 = true ∧ r.op3.legal e r.slot false o.op3 = true := by
  simp only [Row.fits, Bool.and_eq_true, and_assoc]
  constructor
  · rintro ⟨hm, e1, e2, e3, hd, h1, h2, h3⟩
    exact ⟨(Op.raw_reserved_iff hd h1 h2 h3).2 ⟨hm, e1, e2, e3⟩, hd, h1, h2, h3⟩
  · rintro ⟨hr, hd, h1, h2, h3⟩
    obtain ⟨hm, e1, e2, e3⟩ := (Op.raw_reserved_iff hd h1 h2 h3).1 hr
    exact ⟨hm, e1, e2, e3, hd, h1, h2, h3⟩

end

theorem Instr.wf_iff {e : DecodeEnv} {i : Instr} {r : Row} {o : Op} (h : i.info = some (r, o)) :
    i.wf e = true ↔ r.fits e o = true ∧ i.typeOk = true ∧ i.selectorBad = none := by
  simp only [Instr.wf, h, Bool.and_eq_true, beq_iff_eq, and_assoc]

/-- Only VCVT, XRED and XSCAN have second operands that a selector rule forbids. -/
theorem Instr.selectorBad_eq_two {i : Instr} (h : i.selectorBad = some 2) :
    (∃ u t o, i = .vcvt u t o) ∨ (∃ t o, i = .xred t o) ∨ ∃ t o, i = .xscan t o := by
  unfold Instr.selectorBad at h
  split at h
  case h_1 | h_2 | h_3 => split at h <;> cases h
  case h_4 => exact .inl ⟨_, _, _, rfl⟩
  case h_5 => exact .inr (.inl ⟨_, _, rfl⟩)
  case h_6 => exact .inr (.inr ⟨_, _, rfl⟩)
  case h_7 => cases h

/-- An opcode and MOD name one operation. -/
theorem Instr.eq_of_info {i j : Instr} {r : Row} {o : Op} (hi : i.info = some (r, o)) (hj : j.info = some (r, o))
    (hm : r.mod.ok o.mod = true) (hti : i.typeOk = true) (htj : j.typeOk = true) : i = j :=
  Option.some.inj ((ctorOf_of_info hi hm hti).symm.trans (ctorOf_of_info hj hm htj))

/-- The second operand alone decides whether a selector rule forbids it. -/
theorem Instr.selectorBad_second {i j : Instr} {r : Row} {o o' : Op} (hi : i.info = some (r, o)) (hj : j.info = some (r, o'))
    (hm : r.mod.ok o'.mod = true) (hti : i.typeOk = true) (htj : j.typeOk = true) (h2 : o.op2 = o'.op2)
    (hs : i.selectorBad = some 2) : j.selectorBad = some 2 := by
  obtain ⟨u, t, o, rfl⟩ | ⟨t, o, rfl⟩ | ⟨t, o, rfl⟩ := Instr.selectorBad_eq_two hs <;> cases hi
  · rw [Instr.eq_of_info (j := .vcvt u t o') hj rfl hm htj hti]
    simpa only [Instr.selectorBad, h2] using hs
  · rw [Instr.eq_of_info (j := .xred t o') hj rfl hm htj hti]
    simpa only [Instr.selectorBad, h2] using hs
  · rw [Instr.eq_of_info (j := .xscan t o') hj rfl hm htj hti]
    simpa only [Instr.selectorBad, h2] using hs

theorem RawOp.mod_of_reserved {r : Row} {x : RawOp} (h : x.reservedBad r = false) : r.mod.ok x.mod = true := by
  simpa using (Bool.or_eq_false_iff.1 h).2

/-! ## What decoding answers -/

theorem bits_lt (x hi lo : Nat) : bits x hi lo < 2 ^ (hi + 1 - lo) := Nat.mod_lt _ (Nat.two_pow_pos _)

/-- The fields of a word as an operation, where the ports are those that its numbers name. -/
theorem RawOp.of_eq_raw {w : Nat} {dst op1 op2 op3 : Port} (hd : dst.toNat = (RawOp.of w).dst) (h1 : op1.toNat = (RawOp.of w).op1)
    (h2 : op2.toNat = (RawOp.of w).op2) (h3 : op3.toNat = (RawOp.of w).op3) :
    RawOp.of w = Op.raw (RawOp.of w).opc ⟨Fin.ofNat 8 (RawOp.of w).gf, (RawOp.of w).gn, dst, op1, op2, op3, (RawOp.of w).e1,
      (RawOp.of w).e2, (RawOp.of w).e3, (RawOp.of w).mod⟩ := by
  have hgf : (Fin.ofNat 8 (RawOp.of w).gf).val = (RawOp.of w).gf := Nat.mod_eq_of_lt (bits_lt w 39 37)
  simp only [Op.raw, hgf, hd, h1, h2, h3]

/-- The row found without operands is the row of the operation. -/
theorem info_of_lookups {sl : Slot} {n : Nat} {m : Bool} {o b b' : Op} {i i0 : Instr} {r : Row}
    (h0 : ctorOf sl n m b = some i0) (hr : i0.info = some (r, b')) (hi : ctorOf sl n m o = some i) (h : b.mod = o.mod) :
    i.info = some (r, o) ∧ r.slot = sl ∧ r.opc = n := by
  have same := ctorOf_sameRow (n := n) (m := m) sl h
  rw [h0, hi] at same
  cases same with
  | some same =>
    obtain ⟨r', hsl, hn, hb, hinfo⟩ := same.row
    obtain rfl : r' = r := congrArg Prod.fst (Option.some.inj (hb.symm.trans hr))
    exact ⟨hinfo, hsl, hn⟩

/-- What a field decodes to is the port that it names, which is legal. -/
theorem checkField_bind_ok {α : Type} {e : DecodeEnv} {sl : Slot} {var : Bool} {c : OpClass} {field n : Nat}
    {f : Port → Except DecodeFail α} {x : α} (h : (checkField e sl var c field n >>= f) = .ok x) :
    ∃ p : Port, p.toNat = n ∧ c.legal e sl var p = true ∧ f p = .ok x := by
  obtain ⟨p, hp, h⟩ := Machine.Except.bind_ok h
  obtain ⟨hn, hl⟩ := checkField_ok_iff.1 hp
  exact ⟨p, hn, hl, h⟩

/-- A word decodes to the operation of the row that its opcode names, with the ports that its fields name. -/
theorem info_of_decodeSlot {e : DecodeEnv} {sl : Slot} {w : Nat} {i : Instr} (hopc : (RawOp.of w).opc ≠ 0)
    (h : decodeSlot e sl w = .ok i) : ∃ r o, i.info = some (r, o) ∧ r.slot = sl ∧ RawOp.of w = o.raw r.opc ∧
      i.wf e = true ∧ i.scheduleBad e = none := by
  unfold decodeSlot at h
  dsimp only at h
  rw [if_neg hopc] at h
  split at h
  case h_1 => cases h
  next i0 h0 =>
  split at h
  case h_1 => cases h
  next r _ hr =>
  split at h
  case isTrue => cases h
  next hres =>
  obtain ⟨dst, hdst, ld, h⟩ := checkField_bind_ok h
  obtain ⟨op1, hop1, l1, h⟩ := checkField_bind_ok h
  obtain ⟨op2, hop2, l2, h⟩ := checkField_bind_ok h
  obtain ⟨-, -, h⟩ := Machine.Except.bind_ok h
  obtain ⟨op3, hop3, l3, h⟩ := checkField_bind_ok h
  split at h
  case h_1 => cases h
  next i' hi =>
  split at h
  case h_1 => cases h
  next hsel =>
  split at h
  case h_1 => cases h
  next hsch =>
  cases h
  have raw := RawOp.of_eq_raw hdst hop1 hop2 hop3
  obtain ⟨info, slot, opc⟩ := info_of_lookups h0 hr hi rfl
  subst slot
  rw [← opc] at raw
  rw [raw] at hres
  exact ⟨r, _, info, rfl, raw,
    (Instr.wf_iff info).2 ⟨Row.fits_iff.2 ⟨Bool.eq_false_of_not_eq_true hres, ld, l1, l2, l3⟩, ctorOf_typeOk hi, hsel⟩, hsch⟩

/-- The opcode of a row names an operation of that row for all operands. -/
theorem ctorOf_other {i : Instr} {r : Row} {o : Op} (hi : i.info = some (r, o)) (hm : r.mod.ok o.mod = true) (ht : i.typeOk = true)
    {o' : Op} (h : o'.mod = o.mod) :
    ∃ j, ctorOf r.slot r.opc o.mod o' = some j ∧ j.info = some (r, o') ∧ j.typeOk = true := by
  have same := ctorOf_sameRow (n := r.opc) (m := o.mod) r.slot h.symm
  rw [ctorOf_of_info hi hm ht] at same
  generalize ctorOf r.slot r.opc o.mod o' = y at same
  cases same with
  | @some _ j same =>
    obtain ⟨r', -, -, h, h'⟩ := same.row
    obtain rfl : r = r' := congrArg Prod.fst (Option.some.inj (hi.symm.trans h))
    exact ⟨j, rfl, h', same.typeOk.symm.trans ht⟩

theorem checkSelector2_of_info {i : Instr} {r : Row} {o : Op} (hi : i.info = some (r, o)) (hm : r.mod.ok o.mod = true)
    (ht : i.typeOk = true) (hsel : i.selectorBad = none) : checkSelector2 r.slot (o.raw r.opc) o.op2 = .ok () := by
  obtain ⟨j, hj, info, htj⟩ := ctorOf_other hi hm ht (o' := { Op.blank o.mod with op2 := o.op2 }) rfl
  refine checkSelector2_ok_iff.2 fun bad => ?_
  have bad : j.selectorBad = some 2 := (congrArg (Option.bind · Instr.selectorBad) hj).symm.trans bad
  cases hsel.symm.trans (Instr.selectorBad_second info hi hm htj ht rfl bad)

/-- The fields of an operation are those of its raw form. -/
theorem Op.of_raw (o : Op) : (⟨Fin.ofNat 8 o.gf.val, o.gn, o.dst, o.op1, o.op2, o.op3, o.e1, o.e2, o.e3, o.mod⟩ : Op) = o := by
  rw [Fin.ofNat_eq_cast, Fin.cast_val_eq_self]

/-- An operation that fits its row and passes the checks decodes from any word with its fields. -/
theorem decodeSlot_of_info {e : DecodeEnv} {w : Nat} {i : Instr} {r : Row} {o : Op} (hi : i.info = some (r, o))
    (raw : RawOp.of w = o.raw r.opc) (hwf : i.wf e = true) (hsch : i.scheduleBad e = none) : decodeSlot e r.slot w = .ok i := by
  obtain ⟨hfits, ht, hsel⟩ := (Instr.wf_iff hi).1 hwf
  obtain ⟨hres, ld, l1, l2, l3⟩ := Row.fits_iff.1 hfits
  have hm : r.mod.ok o.mod = true := RawOp.mod_of_reserved hres
  obtain ⟨i0, h0, info0, -⟩ := ctorOf_other hi hm ht (o' := Op.blank o.mod) rfl
  have field {var : Bool} {c : OpClass} {n : Nat} {p : Port} (h : c.legal e r.slot var p = true) :
      checkField e r.slot var c n p.toNat = .ok p := checkField_ok_iff.2 ⟨rfl, h⟩
  have opc : r.opc ≠ 0 := (Row.opc_of_info hi).1.ne'
  simp only [decodeSlot, raw, Op.raw_opc, Op.raw_gf, Op.raw_gn, Op.raw_dst, Op.raw_op1, Op.raw_op2, Op.raw_op3, Op.raw_e1, Op.raw_e2,
    Op.raw_e3, Op.raw_mod, opc, if_false, h0, info0, hres, Bool.false_eq_true, field ld, field l1, field l2, field l3,
    checkSelector2_of_info hi hm ht hsel, bind, Except.bind, Op.of_raw, ctorOf_of_info hi hm ht, hsel, hsch]

theorem decodeSlot_nop_iff {e : DecodeEnv} {sl : Slot} {w : Nat} {i : Instr} (h : (RawOp.of w).opc = 0) :
    decodeSlot e sl w = .ok i ↔ w % 2 ^ 48 = 0 ∧ i = .nop sl := by
  simp only [decodeSlot, h, if_true]
  split <;> simp_all [eq_comm]

theorem encode_of_info {i : Instr} {r : Row} {o : Op} (h : i.info = some (r, o)) : encode i = some (r.slot, encodeOp r.opc o) := by
  unfold encode
  split
  · cases h
  · rw [h]

/-- A word encodes a NOP or an operation of the opcode map. -/
theorem encode_cases {i : Instr} {sl : Slot} {w : Nat} (h : encode i = some (sl, w)) :
    (i = .nop sl ∧ w = 0) ∨ ∃ r o, i.info = some (r, o) ∧ sl = r.slot ∧ w = encodeOp r.opc o := by
  unfold encode at h
  split at h
  · cases h
    exact .inl ⟨rfl, rfl⟩
  · split at h
    · next r o hi =>
      cases h
      exact .inr ⟨r, o, hi, rfl, rfl⟩
    · cases h

theorem decodeSlot_zero (e : DecodeEnv) (sl : Slot) : decodeSlot e sl 0 = .ok (.nop sl) := rfl

end Sys2Proof
end

section
/-! PROOF. The obligations on slot words. -/
namespace Sys2Proof.Machine

/-- Settles O38: the word's fields are those of the operation (`RawOp.of_raw_word`), whose row's opcode names it (`ctorOf_of_info`). -/
theorem decodeOfEncode : Obligations.DecodeOfEncode := by
  intro e i sl w hw hwf hsch
  obtain ⟨rfl, rfl⟩ | ⟨r, o, hi, rfl, rfl⟩ := encode_cases hw
  · exact decodeSlot_zero e sl
  · exact decodeSlot_of_info hi (RawOp.of_raw_word (Row.opc_of_info hi).2 o) hwf hsch

/-- Settles O39: a row gives back the fields that it was decoded from, and these make up the word (`RawOp.word_of`). -/
theorem encodeOfDecode : Obligations.EncodeOfDecode := by
  intro e i sl w hw h
  by_cases hopc : (RawOp.of w).opc = 0
  · obtain ⟨h0, rfl⟩ := (decodeSlot_nop_iff hopc).1 h
    obtain rfl : w = 0 := (Nat.mod_eq_of_lt hw).symm.trans h0
    exact ⟨rfl, rfl, rfl⟩
  · obtain ⟨r, o, hi, rfl, raw, hwf, hsch⟩ := info_of_decodeSlot hopc h
    refine ⟨?_, hwf, hsch⟩
    rw [encode_of_info hi, encodeOp_eq, ← raw, RawOp.word_of hw]

/-- Settles O37: the decoder runs on each word. -/
theorem decodeWords : Obligations.DecodeWords := ⟨rfl, rfl, rfl, rfl, rfl, rfl, rfl⟩

end Sys2Proof.Machine
end

section
/-! PROOF. Operations that do nothing, and sources that leave the core as it is (R45 to R47). -/
namespace Sys2Proof.Machine

theorem aloneRun_nop (sl : Slot) (s : State) : aloneRun (.nop sl) s = .ok s := rfl

/-- Without an action the bundle goes on in sequence. -/
theorem State.performBr_none {s : State} (h : s.core.act = .none) (addr : Word) :
    s.performBr addr = .ok (s.withCore (s.core.goesOn addr false)) :=
  State.performBr_core (fun _ => by simp [h]) (fun _ => by simp [h]) (fun _ => by simp [h]) (Core.perform_none h addr)

/-- A BR operation whose guard is false leaves the bundle to go on in sequence. -/
theorem aloneRun_br_off {i : Instr} {row : Row} {o : Op} {s : State} (h : i.info = some (row, o))
    (g : s.core.guardHolds o = false) (hb : i.scheduleBad s.core.env = none) (hs : row.slot = .br) :
    aloneRun i s = .ok (s.withCore (s.core.goesOn s.core.bundleAddr false)) := by
  have off : runGuarded i { s with core := { s.core with act := .none } } = .ok (s.withCore s.core.atBranch) := runGuarded_off h g
  have acts : (s.withCore s.core.atBranch).performBr s.core.bundleAddr = .ok (s.withCore (s.core.goesOn s.core.bundleAddr false)) :=
    State.performBr_none rfl _
  unfold aloneRun
  rw [h, hb]
  simp [hs, off, acts]

/-- Settles O33: what runs a NOP or a guarded operation answers the state it was given, on which a BR slot without an action goes on. -/
theorem nothingDone : Obligations.NothingDone := by
  refine ⟨fun sl s => completes_of_run rfl (aloneRun_nop sl s) id, fun i row o s hi hg hb => ?_⟩
  by_cases hs : row.slot = .br
  · rw [if_pos hs]
    exact completes_of_run (by rw [exec_slot hi]) (aloneRun_br_off hi hg hb hs) fun q => State.quiet_core q rfl rfl
  · rw [if_neg hs]
    exact completes_of_run (by rw [exec_slot hi]) (aloneRun_off hi hg hb hs) id

/-! ## Sources that are no queue (R47) -/

/-- A port that is no queue. -/
def NoQueue (p : Port) : Prop := (∀ n, p ≠ .dq n) ∧ (∀ n, p ≠ .eq n) ∧ p ≠ .cq

theorem Core.readPort_noQueue {c d : Core} {field : Nat} {p : Port} {e : Bool} {x : Val} (hp : NoQueue p)
    (h : c.readPort field p e = .ok (d, x)) : d = c := by
  obtain ⟨ndq, neq, ncq⟩ := hp
  cases p with
  | dq n => exact absurd rfl (ndq n)
  | eq n => exact absurd rfl (neq n)
  | cq => exact absurd rfl ncq
  | s n | v n | m n =>
    simp only [Core.readPort] at h
    split at h <;> cases h
    rfl
  | latch u a =>
    simp only [Core.readPort] at h
    split at h <;> cases h
    rfl
  | _ => cases h; rfl

theorem Core.readField_noQueue {c d : Core} {cls : OpClass} {field : Nat} {p : Port} {e : Bool} {x : Val} (hp : NoQueue p)
    (h : c.readField cls field p e = .ok (d, x)) : d = c := by
  unfold Core.readField at h
  split at h
  · cases h; rfl
  · split at h <;> cases h
    rfl
  · exact Core.readPort_noQueue hp h

theorem Core.sources_noQueue {i : Instr} {c d : Core} {x : Srcs} {row : Row} {o : Op} (hi : i.info = some (row, o))
    (h1 : NoQueue o.op1) (h2 : NoQueue o.op2) (h3 : NoQueue o.op3) (h : c.sources i = .ok (d, x)) : d = c := by
  unfold Core.sources at h
  rw [hi] at h
  obtain ⟨⟨c1, x1⟩, r1, h⟩ := Except.bind_ok h
  obtain ⟨⟨c2, x2⟩, r2, h⟩ := Except.bind_ok h
  obtain ⟨⟨c3, x3⟩, r3, h⟩ := Except.bind_ok h
  obtain ⟨-, -, h⟩ := Except.bind_ok h
  split at h
  · cases h
  obtain ⟨-, -, h⟩ := Except.bind_ok h
  cases h
  exact (Core.readField_noQueue h3 r3).trans ((Core.readField_noQueue h2 r2).trans (Core.readField_noQueue h1 r1))

/-- Settles O35: each of the three fields changes queues alone, and without a queue nothing. -/
theorem sourcesFrame : Obligations.SourcesFrame := by
  intro i c d x h
  have hs : c.sources i = .ok (d, x) := h.elim id fun h => (Core.operands_ok h).1
  refine ⟨Core.sources_queues hs, fun row o hi free => ?_⟩
  exact Core.sources_noQueue hi (free _ (by simp)) (free _ (by simp)) (free _ (by simp)) hs

end Sys2Proof.Machine
end

section
/-! PROOF. A bundle entered, or the trap of the check that fails (R60, R110, R286, R457). -/
namespace Sys2Proof.Machine

/-! ## Entering a bundle (R60, R110, R286) -/

/-- A core whose clock is stopped comes into view and does nothing. -/
theorem happens_stopped {i : Instr} {k : Nat} {f : State → State} {s : State} (hi : exec i s = clockedMeaning k f s)
    (hk : inCores k = true) (hc : s.clockRuns k = false) : Happens i s (s.focus k) := by
  rw [Happens, hi, clockedMeaning, coreMeaning_next hk, State.clockRuns_focus, hc]
  rfl

theorem happens_bundleExecution {k : Nat} {s : State} (hk : inCores k = true) (hc : s.clockRuns k = true) :
    Happens (.bundleExecution k) s (s.focus k).bundleStep := happens_clocked (f := State.bundleStep) rfl hk hc

theorem decodeHeader_ok_iff {w : Nat} {h : Header} :
    decodeHeader w = .ok h ↔ w % 2 ^ 4 = 0xA ∧ w / 2 ^ 50 % 2 ^ 14 = 0 ∧ h = Header.of w := by
  have magic : bits w 3 0 = w % 2 ^ 4 := by simp [bits]
  have reserved : bits w 63 50 = w / 2 ^ 50 % 2 ^ 14 := rfl
  rw [decodeHeader, magic, reserved]
  split
  · simp_all
  · split <;> simp_all [eq_comm]

/-- A bundle that decodes has the header of its word. -/
theorem decodeHeader_of_bundle {e : DecodeEnv} {x : Bool} {w : Nat} {b : Bundle} (h : decodeBundle e x w = .ok b) :
    decodeHeader w = .ok (Header.of w) := by
  unfold decodeBundle at h
  split at h
  · cases h
  · next hd hh => rw [hh, (decodeHeader_ok_iff.1 hh).2.2]

theorem decodeBundle_of_header_error {e : DecodeEnv} {x : Bool} {w : Nat} {f : BundleFail} (h : decodeHeader w = .error f) :
    decodeBundle e x w = .error f := by
  rw [decodeBundle, h]

section
variable {s s' : State} {w : Nat}

theorem State.beginBundle_unfetched {t : TrapInfo} (h : s.fetchBundle = (s', .error (some t))) :
    s.beginBundle = s'.failBundle t 0 false := by
  rw [State.beginBundle, h]

/-- The execution at which a bundle begins (R110). -/
def Core.entryIndex (c : Core) : Nat := if c.resumed then c.rptidx else 0

theorem State.beginBundle_ok {b : Bundle} (h : s.fetchBundle = (s', .ok w))
    (hb : decodeBundle s'.core.env (s.core.brkExempt != .none) w = .ok b) (hj : s.core.entryIndex ≤ (Header.of w).rpt) :
    s.beginBundle =
      (s'.withCore { s'.core with cur := some ⟨b, s.core.pc, s.core.entryIndex, s.core.loops⟩, resumed := false }, true) := by
  have hd := decodeHeader_of_bundle hb
  have within : ¬(Header.of w).rpt < if s.core.resumed then s.core.rptidx else 0 := Nat.not_lt.2 hj
  rw [State.beginBundle, h]
  dsimp only
  rw [hd, hb]
  dsimp only
  rw [if_neg within]
  rfl

theorem State.beginBundle_undecoded {f : BundleFail} (h : s.fetchBundle = (s', .ok w))
    (hb : decodeBundle s'.core.env (s.core.brkExempt != .none) w = .error f) (hj : s.core.entryIndex ≤ (Header.of w).rpt) :
    s.beginBundle = s'.failBundle ⟨f.cause, f.hdr, f.slot, BitVec.ofNat 64 f.info⟩ s.core.entryIndex ((Header.of w).rpt != 0) := by
  rw [State.beginBundle, h]
  dsimp only
  cases hd : decodeHeader w with
  | error g =>
    obtain rfl : g = f := Except.error.inj ((decodeBundle_of_header_error hd).symm.trans hb)
    rfl
  | ok g =>
    obtain rfl : g = Header.of w := (decodeHeader_ok_iff.1 hd).2.2
    have within : ¬(Header.of w).rpt < if s.core.resumed then s.core.rptidx else 0 := Nat.not_lt.2 hj
    dsimp only
    rw [if_neg within, hb]
    rfl

theorem State.beginBundle_beyond (h : s.fetchBundle = (s', .ok w)) (hh : decodeHeader w = .ok (Header.of w))
    (hj : (Header.of w).rpt < s.core.entryIndex) :
    s.beginBundle = s'.failBundle ⟨0x05, true, 0, BitVec.ofNat 64 s.core.entryIndex⟩ s.core.entryIndex ((Header.of w).rpt != 0) := by
  have beyond : (Header.of w).rpt < if s.core.resumed then s.core.rptidx else 0 := hj
  rw [State.beginBundle, h]
  dsimp only
  rw [hh]
  dsimp only
  rw [if_pos beyond]
  rfl

end

/-- The state in which a fault of fetch or decode leaves the core (R60, R286): its trap, or the wait for what is older. -/
def State.failed (s : State) (t : TrapInfo) (j : Nat) (rpt : Bool) : State :=
  if s.core.entryWaits then s.withCore { s.core with stalled := some ⟨0, 256, false, false⟩ }
  else s.takeTrap t s.core.pc j rpt s.core.loops

theorem State.failBundle_eq (s : State) (t : TrapInfo) (j : Nat) (rpt : Bool) : s.failBundle t j rpt = (s.failed t j rpt, false) := by
  unfold State.failBundle State.failed
  split <;> rfl

section
variable {s t : State}

/-- A core that may execute and has no bundle entered executes the bundle that it enters. -/
theorem State.bundleStep_entered {u : Current} (hx : s.core.canExecute = true) (hc : s.core.cur = none)
    (h : s.beginBundle = (t, true)) (hu : t.core.cur = some u) : s.bundleStep = t.execute u := by
  rw [State.bundleStep, hx, hc]
  dsimp only [Bool.not_true]
  rw [h]
  dsimp only
  rw [hu]
  rfl

theorem State.bundleStep_failed (hx : s.core.canExecute = true) (hc : s.core.cur = none) (h : s.beginBundle = (t, false)) :
    s.bundleStep = t := by
  rw [State.bundleStep, hx, hc]
  dsimp only [Bool.not_true]
  rw [h]
  rfl

/-- A core whose bundle is entered executes it. -/
theorem State.bundleStep_current {u : Current} (hx : s.core.canExecute = true) (hc : s.core.cur = some u) :
    s.bundleStep = s.execute u := by
  rw [State.bundleStep, hx, hc]
  rfl

end

/-- Settles O41: a bundle that passes the checks is entered and executed, and each check that fails leads to its own trap. -/
theorem bundleEntered : Obligations.BundleEntered := by
  intro k s s' hk v c
  refine ⟨happens_stopped (f := State.bundleStep) rfl hk, ?_⟩
  intro hclock hx hcur j trapped
  have happens {t : State} (h : v.bundleStep = t) : Happens (.bundleExecution k) s t := h ▸ happens_bundleExecution hk hclock
  have fails {t : TrapInfo} {n : Nat} {rpt : Bool} (h : v.beginBundle = s'.failBundle t n rpt) :
      Happens (.bundleExecution k) s (trapped t n rpt) :=
    happens (State.bundleStep_failed hx hcur (h.trans (State.failBundle_eq ..)))
  refine ⟨fun w hw => ⟨fun b hb hj => ?_, fun f hf hj => ?_, fun hmagic hres hj => ?_⟩, fun t ht => ?_⟩
  · exact happens (State.bundleStep_entered hx hcur (State.beginBundle_ok hw hb hj) rfl)
  · exact fails (State.beginBundle_undecoded hw hf hj)
  · exact fails (State.beginBundle_beyond hw (decodeHeader_ok_iff.2 ⟨hmagic, hres, rfl⟩) hj)
  · exact fails (State.beginBundle_unfetched ht)

end Sys2Proof.Machine
end

section
/-! PROOF. What an operation of the BR slot leaves of a token (R41). -/
namespace Sys2Proof.Machine

/-! ## BR operations keep the token of their bundle (R41)

A token that a BR operation does not take for its result stays with the core, so that without a token there is none after it. -/

theorem Core.QueuesOnly.prodTok {c d : Core} (h : c.QueuesOnly d) : d.prodTok = c.prodTok := by rw [h]

theorem liftRes_ok {α : Type} {r : Res α} {x : α} (h : liftRes r = .ok x) : r = .ok x := by
  cases r with
  | error e => cases h
  | ok y => cases h; rfl

theorem onCore_ok {f : Core → Res Core} {s t : State} (h : onCore f s = .ok t) : ∃ d, f s.core = .ok d ∧ t = s.withCore d := by
  obtain ⟨d, hd, h⟩ := Except.bind_ok h
  cases h
  exact ⟨d, liftRes_ok hd, rfl⟩

section
variable {c d : Core} {i : Instr}

theorem brAct_prodTok {f : Word → Word → Core → BrAction} (h : brAct i f c = .ok d) : d.prodTok = c.prodTok := by
  obtain ⟨⟨c', x⟩, hc, h⟩ := Except.bind_ok h
  cases h
  exact (Core.operands_queues hc).prodTok

theorem brActOutside_prodTok {f : Word → Word → Core → BrAction} (h : brActOutside i f c = .ok d) : d.prodTok = c.prodTok := by
  obtain ⟨⟨c', x⟩, hc, h⟩ := Except.bind_ok h
  obtain ⟨-, -, h⟩ := Except.bind_ok h
  cases h
  exact (Core.operands_queues hc).prodTok

theorem tokenAct_prodTok {o : Op} {all wait : Bool} (h : tokenAct i o all wait c = .ok d) : d.prodTok = 0 := by
  obtain ⟨⟨c', x⟩, hc, h⟩ := Except.bind_ok h
  cases h
  rfl

theorem issueCall_prodTok {o : Op} (h : issueCall o c = .ok d) : d.prodTok = 0 := by
  obtain ⟨⟨c', x⟩, hc, h⟩ := Except.bind_ok h
  cases h
  dsimp only
  rw [Core.issueResult_fixed rfl 0 rfl (crossStream_br _), Core.owes_prodTok]

theorem issueMfsr_prodTok {o : Op} (h : issueMfsr o c = .ok d) : d.prodTok = 0 := by
  obtain ⟨⟨c', x⟩, hc, h⟩ := Except.bind_ok h
  dsimp only at h
  split at h <;> cases h
  rw [Core.issueResult_fixed rfl 0 rfl (crossStream_br _), Core.owes_prodTok]

theorem issueMtsr_prodTok {o : Op} (h : issueMtsr o c = .ok d) : d.prodTok = c.prodTok := by
  obtain ⟨⟨c', x⟩, hc, h⟩ := Except.bind_ok h
  dsimp only at h
  split at h <;> cases h
  exact (Core.operands_queues hc).prodTok

theorem barAct_prodTok {f : Nat → BrAction} {s t : State} (h : barAct i f s = .ok t) : t.core.prodTok = s.core.prodTok := by
  obtain ⟨⟨c', x⟩, hc, h⟩ := Except.bind_ok h
  obtain ⟨-, -, h⟩ := Except.bind_ok h
  obtain ⟨y, -, h⟩ := Except.bind_ok h
  dsimp only at h
  split at h <;> cases h
  exact (Core.operands_queues (liftRes_ok hc)).prodTok

end

/-- An operation of the BR slot issued without a token leaves none. -/
theorem issue_br_prodTok {i : Instr} {row : Row} {o : Op} {s t : State} (hi : i.info = some (row, o)) (hs : row.slot = .br)
    (h0 : s.core.prodTok = 0) (h : issue i s = .ok t) : t.core.prodTok = 0 := by
  have core {f : Core → Res Core} (hf : ∀ d, f s.core = .ok d → d.prodTok = 0) (h : onCore f s = .ok t) : t.core.prodTok = 0 := by
    obtain ⟨d, hd, rfl⟩ := onCore_ok h
    exact hf d hd
  cases i
  case bra | brc | brcZ | brq | brqN | ret | loop | lbrk | yield | tret | fence | icinv =>
    exact core (fun d hd => (brAct_prodTok hd).trans h0) h
  case trap | bkpt | exit | halt => exact core (fun d hd => (brActOutside_prodTok hd).trans h0) h
  case twait | twaitAny | tstat => exact core (fun d => tokenAct_prodTok) h
  case call => exact core (fun d => issueCall_prodTok) h
  case mfsr => exact core (fun d => issueMfsr_prodTok) h
  case mtsr => exact core (fun d hd => (issueMtsr_prodTok hd).trans h0) h
  case bar | bara => exact (barAct_prodTok h).trans h0
  all_goals
    cases hi <;> simp only [Row.sc, Row.lm, Row.ec, Row.vx, Row.vu, Row.xn, Row.mx, VU.slot_ne_br, reduceCtorEq] at hs

end Sys2Proof.Machine
end

section
/-! PROOF. A bundle of one operation (R34, R38, R101). -/
namespace Sys2Proof.Machine

/-! ## A step at which nothing is due (R52, R225) -/

/-- A core at a step at which nothing is due, without an action or a token that an execution left. -/
structure Core.AtRest (c : Core) : Prop where
  pending : ∀ p ∈ c.pending, c.step < p.due
  events : ∀ e ∈ c.arr.events, c.step < e.due
  act : c.act = .none
  prodTok : c.prodTok = 0

section
variable {c : Core} (h : c.AtRest)
include h

theorem Core.AtRest.dueHeld : c.dueHeld = false := by
  have pend : (c.pending.any fun p => p.due ≤ c.step && match p.dst with | .v n => c.holds (c.vregOff n) 256 | _ => false) = false := by
    simp only [List.any_eq_false, Bool.and_eq_true, decide_eq_true_eq, not_and]
    exact fun p hp hd => absurd hd (Nat.not_le.2 (h.pending p hp))
  have events : (c.arr.events.any fun e => e.due ≤ c.step && c.holds (c.tileOff e.tile 0 0) 32768) = false := by
    simp only [List.any_eq_false, Bool.and_eq_true, decide_eq_true_eq, not_and]
    exact fun e he hd => absurd hd (Nat.not_le.2 (h.events e he))
  rw [Core.dueHeld, events, Bool.or_false]
  exact Bool.and_eq_false_imp.2 fun _ => pend

theorem Core.AtRest.beginStep : c.beginStep = c := by
  have pend : (c.pending.filter fun p => p.due ≤ c.step) = [] := by
    simpa only [List.filter_eq_nil_iff, decide_eq_true_eq, Nat.not_le] using h.pending
  have events : (c.arr.events.filter fun e => e.due ≤ c.step) = [] := by
    simpa only [List.filter_eq_nil_iff, decide_eq_true_eq, Nat.not_le] using h.events
  have deliver : c.deliverDue = c := by
    unfold Core.deliverDue
    rw [pend]
    rfl
  have act : c.actDue = c := by
    unfold Core.actDue
    rw [events]
    rfl
  rw [Core.beginStep, deliver, act, ← h.act]

end

/-! ## A slot of a bundle with a plain header -/

/-- A slot clears the token of its bundle, or notes that no result took it. -/
def Core.leaveToken (c : Core) : Core :=
  { c with prodTok := 0, leftTok := if c.prodTok = 0 then c.leftTok else c.prodTok }

theorem Core.leaveToken_eq {c : Core} (h : c.prodTok = 0) : c.leaveToken = c := by
  rw [Core.leaveToken, if_pos h, ← h]

theorem Core.stepped_plain (c : Core) (sl : Slot) (j : Nat) (i : Instr) : c.stepped Header.plain sl j i = i := by
  unfold Core.stepped
  split
  · rfl
  · exact if_neg (by simp [Header.plain])

theorem runSlot_plain_eq (sl : Slot) (i : Instr) (s : State) : runSlot Header.plain 0 sl i s =
    runGuarded (({ s.core with prodTok := 0 } : Core).stepped Header.plain sl 0 i) (s.withCore { s.core with prodTok := 0 }) >>=
      fun t => .ok (t.withCore t.core.leaveToken) := by
  cases sl <;> rfl

/-- Where no token is asked for, a slot runs its operation under its guard. -/
theorem runSlot_plain {sl : Slot} {i : Instr} {s t : State} (h0 : s.core.prodTok = 0) (h : runGuarded i s = .ok t)
    (ht : t.core.prodTok = 0) : runSlot Header.plain 0 sl i s = .ok t := by
  have same : s.withCore { s.core with prodTok := 0 } = s := by rw [← h0]; rfl
  rw [runSlot_plain_eq, Core.stepped_plain, same, h]
  change Except.ok (t.withCore t.core.leaveToken) = _
  rw [Core.leaveToken_eq ht]
  rfl

theorem runSlot_nop {sl : Slot} {s : State} (h0 : s.core.prodTok = 0) : runSlot Header.plain 0 sl (.nop sl) s = .ok s :=
  runSlot_plain h0 rfl h0

/-- The slots of a bundle that holds one operation besides NOPs leave what that operation leaves. -/
theorem runSlots_alone {sl : Slot} {i : Instr} {s t : State} (h0 : s.core.prodTok = 0) (h : runGuarded i s = .ok t)
    (ht : t.core.prodTok = 0) :
    runSlots Header.plain 0 (Slot.all.zip (Slot.all.map fun x => if x = sl then i else .nop x)) s = .ok t := by
  cases sl <;> simp [Slot.all, runSlots, runSlot_nop h0, runSlot_plain h0 h ht, runSlot_nop ht]

/-! ## The operation alone, and then the bundle -/

/-- What runs an operation alone runs it under its guard and, in the BR slot, then performs its action. -/
theorem runGuarded_of_aloneRun {i : Instr} {row : Row} {o : Op} {s t : State} (hi : i.info = some (row, o)) (ha : s.core.act = .none)
    (h : aloneRun i s = .ok t) : (row.slot ≠ .br ∧ runGuarded i s = .ok t) ∨
      row.slot = .br ∧ ∃ s1, runGuarded i s = .ok s1 ∧ s1.performBr s.core.bundleAddr = .ok t := by
  have same : ({ s with core := { s.core with act := .none } } : State) = s := by rw [← ha]
  unfold aloneRun at h
  rw [hi, same] at h
  cases hb : i.scheduleBad s.core.env with
  | some cause => rw [hb] at h; cases h
  | none =>
    rw [hb] at h
    dsimp only at h
    split at h
    · next hs =>
      split at h
      · cases h
      · next s1 hr =>
        split at h <;> cases h
        next ha => exact .inr ⟨hs, s1, hr, ha⟩
    · next hs =>
      split at h <;> cases h
      next hr => exact .inl ⟨hs, hr⟩

theorem State.execute_of_slots {u : Current} {s t : State} (h : executeSlots u s = .ok t) :
    s.execute u = t.withCore { t.core with room := [] } := by
  have tries : s.tryExecution u 16 s = (s, [], .ok t, false) := by
    rw [State.tryExecution, attempt_ok h]
  rw [State.execute, tries]
  rfl

/-- A bundle at its one execution, of one operation besides NOPs, whose header asks for nothing. -/
structure Current.Alone (u : Current) (sl : Slot) (i : Instr) : Prop where
  hdr : u.bundle.hdr = Header.plain
  ops : u.bundle.ops = Slot.all.map fun x => if x = sl then i else .nop x
  exe : u.exe = 0

/-- The slots of the bundle leave what the operation leaves, on which the action of the BR slot, or going on in sequence, is performed
(R101). -/
theorem executeSlots_alone {u : Current} {sl : Slot} {i : Instr} {s t1 t : State} (hu : u.Alone sl i) (hs : s.core.AtRest)
    (h : runGuarded i (s.withCore (s.core.noteAccess u)) = .ok t1) (ht : t1.core.prodTok = 0)
    (hb : t1.performBr u.addr = .ok t) : executeSlots u s = .ok (t.withCore (t.core.nextExecution u 0)) := by
  have slots : runSlots Header.plain 0 (Slot.all.zip u.bundle.ops) { s with core := s.core.noteAccess u } = .ok t1 :=
    hu.ops ▸ runSlots_alone hs.prodTok h ht
  have acts : State.performBr { t1 with core := t1.core.endRepeat Header.plain } u.addr = .ok t := hb
  have last : ¬(0 ≠ Header.plain.rpt) := not_not.2 rfl
  unfold executeSlots
  dsimp only
  rw [hs.dueHeld, hs.beginStep, hu.hdr, hu.exe, slots]
  dsimp only
  rw [if_neg last, acts]
  rfl

/-- An operation of the BR slot that runs without a token leaves none. -/
theorem runGuarded_br_prodTok {i : Instr} {row : Row} {o : Op} {s t : State} (hi : i.info = some (row, o)) (hs : row.slot = .br)
    (h0 : s.core.prodTok = 0) (h : runGuarded i s = .ok t) : t.core.prodTok = 0 := by
  cases g : s.core.guardHolds o with
  | true => exact issue_br_prodTok hi hs h0 ((runGuarded_on hi g).symm.trans h)
  | false =>
    cases (runGuarded_off hi g).symm.trans h
    exact h0

/-- After its one execution a bundle with a plain header waits for its retirement. -/
theorem Core.nextExecution_plain {c : Core} {u : Current} (h : u.bundle.hdr = Header.plain) : c.nextExecution u 0 =
    { c with step := c.step + 1, stalled := none, taken := [], cur := some { u with exe := 1 }, retiring := true } := by
  rw [Core.nextExecution, h]
  rfl

/-- Settles O42: the slots of the bundle leave what the operation alone leaves (`runSlots_alone`), and after the one execution the
bundle waits for its retirement. -/
theorem bundleAlone : Obligations.BundleAlone := by
  intro k s t u i row o hk hclock v c hi hh hops hj hcur hx hp he ha h0 hrun ht hact d
  obtain ⟨t1, h1, ht1, hbr⟩ : ∃ t1, runGuarded i (v.withCore (c.noteAccess u)) = .ok t1 ∧ t1.core.prodTok = 0 ∧
      t1.performBr u.addr = .ok (t.withCore d) := by
    obtain ⟨hs, h⟩ | ⟨hs, t1, h1, hb⟩ := runGuarded_of_aloneRun (s := v.withCore (c.noteAccess u)) hi ha hrun
    · refine ⟨t, h, ht, ?_⟩
      rw [State.performBr_none (hact hs), show d = t.core.goesOn u.addr false from if_neg hs]
    · have addr : (v.withCore (c.noteAccess u)).core.bundleAddr = u.addr := by
        simp [Core.bundleAddr, Core.noteAccess, hcur]
      refine ⟨t1, h1, runGuarded_br_prodTok (s := v.withCore (c.noteAccess u)) hi hs h0 h1, ?_⟩
      rw [← addr, hb, show d = t.core from if_pos hs]
      rfl
  have executed := State.execute_of_slots (executeSlots_alone ⟨hh, hops, hj⟩ ⟨hp, he, ha, h0⟩ h1 ht1 hbr)
  have happens := happens_bundleExecution hk hclock
  rw [State.bundleStep_current hx hcur, executed, Core.nextExecution_plain hh] at happens
  exact happens

end Sys2Proof.Machine
end

section
/-! PROOF. The elements of a vector (R64, R65). -/
namespace Sys2Proof.Machine

theorem packElems_lt (w : Nat) (l : List Nat) : packElems w l < 2 ^ (w * l.length) := by
  induction l with
  | nil => exact Nat.two_pow_pos _
  | cons x l ih =>
    have low : x % 2 ^ w < 2 ^ w := Nat.mod_lt _ (Nat.two_pow_pos w)
    calc x % 2 ^ w + 2 ^ w * packElems w l < 2 ^ w * (packElems w l + 1) := by rw [Nat.mul_add_one]; omega
      _ ≤ 2 ^ w * 2 ^ (w * l.length) := Nat.mul_le_mul_left _ ih
      _ = 2 ^ (w * (l.length + 1)) := by rw [← Nat.pow_add, Nat.mul_add_one, Nat.add_comm]

theorem elem_packElems (w : Nat) (l : List Nat) (k : Nat) : elem w (packElems w l) k = l.getD k 0 % 2 ^ w := by
  induction l generalizing k with
  | nil => simp [packElems, elem]
  | cons x l ih =>
    cases k with
    | zero => simp [packElems, elem]
    | succ k =>
      have upper : packElems w (x :: l) / 2 ^ w = packElems w l := by
        rw [packElems, Nat.add_mul_div_left _ _ (Nat.two_pow_pos w), Nat.div_eq_of_lt (Nat.mod_lt _ (Nat.two_pow_pos w)), Nat.zero_add]
      rw [List.getD_cons_succ, ← ih, elem, Nat.mul_add_one, Nat.add_comm, Nat.pow_add, ← Nat.div_div_eq_div_mul, upper, elem]

/-- The elements of a register that the list fills. -/
theorem elem_ofNat_packElems {w m : Nat} {l : List Nat} (h : w * l.length = m) (k : Nat) :
    elem w (BitVec.ofNat m (packElems w l)).toNat k = l.getD k 0 % 2 ^ w := by
  rw [BitVec.toNat_ofNat, Nat.mod_eq_of_lt (h ▸ packElems_lt w l), elem_packElems]

theorem elem_ofLanes (f : Nat → Nat) {n : Nat} (h : n < 64) : elem 32 (ofLanes f).toNat n = f n % 2 ^ 32 := by
  rw [ofLanes, elem_ofNat_packElems (by simp)]
  simp [h]

theorem lane_eq_elem (v : Vec) (n : Nat) : lane v n = elem 32 v.toNat n := by
  rw [lane, bits, show 32 * n + 31 + 1 - 32 * n = 32 by omega, elem]

/-- The sign extension of R72, of a number that is an element already. -/
theorem sextN_eq_num {w x : Nat} (hw : 0 < w) (h : x < 2 ^ w) : sextN w x = num w false x := by
  have top : x.testBit (w - 1) = !decide (x < 2 ^ (w - 1)) := by
    by_cases below : x < 2 ^ (w - 1)
    · simp [below, Nat.testBit_lt_two_pow below]
    · have next : x < 2 ^ (w - 1 + 1) := by rwa [Nat.sub_add_cancel hw]
      simp [below, Nat.testBit_of_two_pow_le_and_two_pow_add_one_gt (Nat.le_of_not_lt below) next]
  rw [sextN, Nat.mod_eq_of_lt h, top]
  by_cases below : x < 2 ^ (w - 1) <;> simp [num, below]

theorem wrap_lt (w : Nat) (x : Int) : wrap w x < 2 ^ w := by
  have positive : (0 : Int) < (2 ^ w : Nat) := by exact_mod_cast Nat.two_pow_pos w
  rw [wrap, Int.toNat_lt (Int.emod_nonneg _ positive.ne')]
  exact Int.emod_lt_of_pos _ positive

theorem elem_lt (w v k : Nat) : elem w v k < 2 ^ w := Nat.mod_lt _ (Nat.two_pow_pos w)

theorem getD_zero_lt {l : List Nat} {m : Nat} (hm : 0 < m) (h : ∀ y ∈ l, y < m) (k : Nat) : l.getD k 0 < m := by
  rw [List.getD_eq_getElem?_getD]
  cases hk : l[k]? with
  | none => exact hm
  | some y => exact h y (List.mem_of_getElem? hk)

end Sys2Proof.Machine
end

section
/-! PROOF. What a beat adds to a row, and the down-converter (R79 to R82, R231). -/
namespace Sys2Proof.Machine

variable {p : Nat} {b : BBuf} {a : List Nat} {carry : Option (Vec × Vec)}

/-! ## Sums -/

theorem addF32_eq_plusRule : addF32 = plusRule := rfl

/-- The model's tree over a list is that of R80 over its eight values. -/
theorem oct8_eq_octetRule (f : Nat → FVal) : oct8 ((List.range 8).map f) = octetRule f := rfl

theorem joinOcts_none (f : Nat → Nat) (k n : Nat) : joinOcts none f k n = joinRule f k n := by
  rw [joinOcts, joinRule, List.foldl_map, addF32_eq_plusRule]

theorem joinOcts_some (x : Nat) (f : Nat → Nat) (n : Nat) :
    joinOcts (some x) f 0 n = (List.range n).foldl (fun acc o => plusRule acc (f o)) x := by
  simp only [joinOcts, List.foldl_map, addF32_eq_plusRule, Nat.zero_add]

theorem addTerm_int (row term : Vec) {n : Nat} (h : n < 64) :
    elem 32 (addTerm true row term).toNat n = (elem 32 row.toNat n + elem 32 term.toNat n) % 2 ^ 32 := by
  rw [addTerm, elem_ofLanes _ h, if_pos rfl, lane_eq_elem, lane_eq_elem]

theorem addTerm_float (row term : Vec) {n : Nat} (h : n < 64) :
    elem 32 (addTerm false row term).toNat n = plusRule (elem 32 row.toNat n) (elem 32 term.toNat n) % 2 ^ 32 := by
  rw [addTerm, elem_ofLanes _ h, if_neg Bool.false_ne_true, lane_eq_elem, lane_eq_elem, addF32_eq_plusRule]

/-! ## Integer and float pairs -/

theorem pairInt_iff : pairInt p = true ↔ p ≤ 1 := decide_eq_true_iff

theorem beatTerms_int (hp : p ≤ 1) : beatTerms p b a carry = ([ofLanes fun n => wrap 32 (intSum p b a n)], carry) :=
  if_pos (pairInt_iff.2 hp)

theorem intSum_eq (hp : p ≤ 1) (ha : ∀ y ∈ a, y < 2 ^ pairABits p) (n : Nat) :
    intSum p b a n = ((List.range (pairKB p)).map fun k =>
      num (pairABits p) false (a.getD k 0) * num 8 false (elem 8 (b.rows.toList.getD k 0).toNat n)).sum := by
  have width : 0 < pairABits p ∧ pairBBits p = 8 := by interval_cases p <;> decide
  have row (k : Nat) : sextN (pairABits p) (a.getD k 0) = num (pairABits p) false (a.getD k 0) :=
    sextN_eq_num width.1 (getD_zero_lt (Nat.two_pow_pos _) ha k)
  have column (k : Nat) : sextN 8 (b.at p k n) = num 8 false (elem 8 (b.rows.toList.getD k 0).toNat n) := by
    rw [BBuf.at, width.2]
    exact sextN_eq_num (by decide) (elem_lt ..)
  simp only [intSum, row, column, List.sum_eq_foldl]

theorem beatTerms_float (hp : p = 2 ∨ p = 3) :
    beatTerms p b a carry = ((List.range 4).map fun o => ofLanes (floatOct p b a o), carry) := by
  obtain rfl | rfl := hp <;> rfl

theorem floatOct_eq (hp : p = 2 ∨ p = 3) (o n : Nat) :
    floatOct p b a o n = octetRule fun i => Fmt.f32.val (Fmt.f32.round 0
      (((if p = 3 then Fmt.f16 else .bf16).val (a.getD (8 * o + i) 0)).mul
        ((if p = 3 then Fmt.f16 else .bf16).val (elem 16 (b.rows.toList.getD (8 * o + i) 0).toNat n)))) := by
  have width : pairBBits p = 16 := by obtain rfl | rfl := hp <;> rfl
  rw [floatOct, oct8_eq_octetRule]
  simp only [BBuf.at, width, pairFmt]

/-! ## Grouped pairs -/

/-- The two sums of a group in each column: of products and of activations, over `n` octets from octet `k` on. -/
def groupSums (p : Nat) (b : BBuf) (a : List Nat) (start : Option (Vec × Vec)) (k n : Nat) : Vec × Vec :=
  (ofLanes fun i => joinOcts (start.map fun x => lane x.1 i) (fun o => codeOct p b a o i) k n,
    ofLanes fun i => joinOcts (start.map fun x => lane x.2 i) (actOct a) k n)

/-- The term of a group in each column, from its sums. -/
def groupRow (b : BBuf) (g : Nat) (x : Vec × Vec) : Vec :=
  ofLanes fun n => groupTerm (b.scale g n) (b.zeroPt g n) (lane x.1 n) (lane x.2 n)

theorem beatTerms_grouped (hp : p = 4 ∨ p = 5) : beatTerms p b a carry = match b.gs with
    | 0 => ([groupRow b 0 (groupSums p b a none 0 4), groupRow b 1 (groupSums p b a none 4 4)], carry)
    | 1 => ([groupRow b 0 (groupSums p b a none 0 8)], carry)
    | _ => if b.half = 0 then ([], some (groupSums p b a none 0 8)) else ([groupRow b 0 (groupSums p b a carry 0 8)], none) := by
  obtain rfl | rfl := hp <;> rfl

theorem codeOct_eq (hp : p = 4 ∨ p = 5) (o n : Nat) :
    codeOct p b a o n = octetRule fun i =>
      (FVal.ofInt (elem (if p = 4 then 4 else 8) (b.rows.toList.getD (8 * o + i) 0).toNat n)).mul
        (Fmt.bf16.val (a.getD (8 * o + i) 0)) := by
  obtain rfl | rfl := hp <;> rfl

theorem elem_groupSums_none (k m : Nat) {n : Nat} (h : n < 64) :
    elem 32 (groupSums p b a none k m).1.toNat n = joinRule (fun o => codeOct p b a o n) k m % 2 ^ 32 ∧
    elem 32 (groupSums p b a none k m).2.toNat n = joinRule (actOct a) k m % 2 ^ 32 := by
  simp only [groupSums, elem_ofLanes _ h, Option.map_none, joinOcts_none, and_self]

theorem elem_groupSums_some (x y : Vec) (m : Nat) {n : Nat} (h : n < 64) :
    elem 32 (groupSums p b a (some (x, y)) 0 m).1.toNat n =
      (List.range m).foldl (fun acc o => plusRule acc (codeOct p b a o n)) (elem 32 x.toNat n) % 2 ^ 32 ∧
    elem 32 (groupSums p b a (some (x, y)) 0 m).2.toNat n =
      (List.range m).foldl (fun acc o => plusRule acc (actOct a o)) (elem 32 y.toNat n) % 2 ^ 32 := by
  simp only [groupSums, elem_ofLanes _ h, Option.map_some, joinOcts_some, lane_eq_elem, and_self]

theorem elem_groupRow (g : Nat) (x : Vec × Vec) {n : Nat} (h : n < 64) :
    elem 32 (groupRow b g x).toNat n = termRule (Fmt.f16.val (elem 16 b.scales.toNat (64 * g + n)))
      (elem 8 b.zeros.toNat (64 * g + n)) (elem 32 x.1.toNat n) (elem 32 x.2.toNat n) % 2 ^ 32 := by
  rw [groupRow, elem_ofLanes _ h, lane_eq_elem, lane_eq_elem]
  rfl

/-! ## The down-converter -/

theorem downConvert_eq {int : Bool} {m : BitVec 32} {x : Nat} (hx : x < 2 ^ 32) :
    let v := (if int then FVal.ofInt (num 32 false x) else Fmt.f32.val x).mul (Fmt.f32.val m.toNat)
    downConvert p int m x = if p ≤ 1 then wrap (pairABits p) (satRound 0 (pairABits p) false v) else (pairFmt p).round 0 v := by
  simp only [downConvert, sextN_eq_num (by decide) hx, pairInt_iff]

end Sys2Proof.Machine
end

section
/-! PROOF. What an accumulator event does to its tile (R225, R233, R236, R237). -/
namespace Sys2Proof.Machine

/-- A tile after an accumulator event has acted on it. -/
def Tile.acted (t : Tile) : AccAct → Tile
  | .opens => t.setShadow t.committed
  | .push row int terms => t.setShadow (t.shadow.setIfInBounds row (terms.foldl (addTerm int) (t.shadow.toList.getD row 0)))
  | .zero => t.setShadow (Vector.replicate 64 0)
  | .zeroAll int => ⟨Vector.replicate 64 0, Vector.replicate 64 0, t.commit1, int⟩
  | .commit .. => { t with commit1 := !t.commit1 }

/-- The event's own tile takes a value, and its token completes; every other tile and token is as before. -/
def Core.TileSet (c : Core) (e : AccEvent) (t : Tile) (d : Core) : Prop :=
  d.tiles = c.tiles.setIfInBounds e.tile t ∧ d.tokens = (c.setToken e.tok .complete).tokens

section
variable {c d : Core} {e : AccEvent} {t : Tile}

theorem Core.TileSet.completed (tiles : d.tiles = c.tiles.setIfInBounds e.tile t) (tokens : d.tokens = c.tokens) :
    c.TileSet e t (d.setToken e.tok .complete) := by
  rw [Core.setToken_of_tokens tokens]
  exact ⟨tiles, rfl⟩

/-- What the pool does about parity, poison and errors ahead of the write changes neither tiles nor tokens. -/
theorem Core.TileSet.of_pool (h : c.PoolOnly d) : c.TileSet e t ((d.setTile e.tile t).setToken e.tok .complete) := by
  rw [h]
  exact .completed rfl rfl

/-- The arrivals at the bound stages and the log of the region (R243, R422) change neither tiles nor tokens. -/
theorem Core.TileSet.of_commit (bs : List Binding) (u : Tile) (pair : Nat) (log : Option (List LogItem)) :
    c.TileSet e t ((((c.setTile e.tile t).arriveStages bs).logCommit u pair log).setToken e.tok .complete) := by
  have logged (f : Core) : (f.logCommit u pair log).tiles = f.tiles ∧ (f.logCommit u pair log).tokens = f.tokens := by
    cases log <;> exact ⟨rfl, rfl⟩
  have arrived : ((c.setTile e.tile t).arriveStages bs).tiles = c.tiles.setIfInBounds e.tile t ∧
      ((c.setTile e.tile t).arriveStages bs).tokens = c.tokens := by
    obtain ⟨f, hf, eq | eq⟩ := (c.setTile e.tile t).arriveStages_bytes bs <;> rw [eq, hf] <;> exact ⟨rfl, rfl⟩
  exact .completed ((logged _).1.trans arrived.1) ((logged _).2.trans arrived.2)

end

/-- What an event does to its tile, whatever the pool meets in its reads and writes. -/
theorem Core.actEvent_tileSet (c : Core) (e : AccEvent) : c.TileSet e ((c.tile e.tile).acted e.act) (c.actEvent e) := by
  cases h : e.act with
  | opens => rw [Core.actEvent_opens h]; exact .of_pool (c.copyPoison_pool ..)
  | push row int terms =>
    rw [Core.actEvent_push h]
    exact .of_pool (((c.detect_pool _ _ _).trans (Core.notePushed_pool ..)).trans (Core.rewriteRow_pool ..))
  | zero => rw [Core.actEvent_zero h]; exact .of_pool (c.noteRows_pool ..)
  | zeroAll int => rw [Core.actEvent_zeroAll h]; exact .of_pool (c.noteRows_pool ..)
  | commit bs log pair => rw [Core.actEvent_commit h]; exact .of_commit bs _ pair log

theorem Core.tile_val (c : Core) (z : Fin 8) : c.tile z = c.tiles[z] := by
  simp [Core.tile]

theorem Core.TileSet.own {c d : Core} {e : AccEvent} {t : Tile} {z : Fin 8} (h : c.TileSet e t d) (hz : e.tile = z.val) :
    d.tiles[z] = t := by
  simp [h.1, hz]

theorem Core.TileSet.other {c d : Core} {e : AccEvent} {t : Tile} {z y : Fin 8} (h : c.TileSet e t d) (hz : e.tile = z.val)
    (hy : y ≠ z) : d.tiles[y] = c.tiles[y] := by
  have apart : z.val ≠ y.val := fun same => hy (Fin.ext same.symm)
  simp [h.1, hz, apart]

section
variable {c d : Core} {e : AccEvent}

theorem Core.EventOnly.sregs (h : c.EventOnly d) : d.sregs = c.sregs := by rw [h]
theorem Core.EventOnly.vregs (h : c.EventOnly d) : d.vregs = c.vregs := by rw [h]
theorem Core.EventOnly.mregs (h : c.EventOnly d) : d.mregs = c.mregs := by rw [h]

end

/-- Settles O22: every element of a term and of a row is the value that R79 to R82 give it (`elem_ofLanes`), and an event leaves its own
tile as `Tile.acted` says, whatever the stages bound to a commit. -/
theorem beatsAndAccumulatorEvents : Obligations.BeatsAndAccumulatorEvents := by
  refine ⟨?integer, ?float, ?grouped, ?adds, ?down, ?acts⟩
  case integer =>
    intro p b a carry hp _ ha
    refine ⟨_, beatTerms_int hp, fun n hn => ?_⟩
    rw [elem_ofLanes _ hn, intSum_eq hp ha, Nat.mod_eq_of_lt (wrap_lt ..)]
  case float =>
    intro p b a carry hp f
    refine ⟨fun o => ofLanes (floatOct p b a o), beatTerms_float hp, fun o n hn => ?_⟩
    rw [elem_ofLanes _ hn, floatOct_eq hp]
  case grouped =>
    intro p b a carry hp code act P A term size half
    have terms := beatTerms_grouped (b := b) (a := a) (carry := carry) hp
    have products (n : Nat) : (fun o => codeOct p b a o n) = P n := funext fun o => codeOct_eq hp o n
    have first (k m : Nat) {n : Nat} (hn : n < 64) := products n ▸ elem_groupSums_none (p := p) (b := b) (a := a) k m hn
    have whole (g k m : Nat) {n : Nat} (hn : n < 64) :
        elem 32 (groupRow b g (groupSums p b a none k m)).toNat n = term g n (joinRule (P n) k m) (joinRule A k m) := by
      rw [elem_groupRow _ _ hn, (first k m hn).1, (first k m hn).2]
      rfl
    refine ⟨fun hs => ?two, fun hs => ?one, fun hs hh => ?left, fun x y hs hh hc => ?right⟩
    all_goals rw [terms, show b.gs = _ from hs]
    case two => exact ⟨fun g => groupRow b g (groupSums p b a none (4 * g) 4), rfl, fun g n hn => whole g (4 * g) 4 hn⟩
    case one => exact ⟨_, rfl, fun n hn => whole 0 0 8 hn⟩
    case left => exact ⟨_, _, if_pos hh, fun n hn => first 0 8 hn⟩
    case right =>
      refine ⟨_, if_neg hh, fun n hn => ?_⟩
      obtain ⟨sumP, sumA⟩ := elem_groupSums_some (p := p) (b := b) (a := a) x y 8 hn
      rw [hc, elem_groupRow _ _ hn, sumP, sumA]
      simp only [codeOct_eq hp]
      rfl
  case adds => exact fun row term n hn => ⟨addTerm_int row term hn, addTerm_float row term hn⟩
  case down =>
    intro p int m x hx v
    rw [downConvert_eq hx]
    match p with
    | 0 | 1 | 2 | 3 => rfl
    | p + 4 => rw [if_neg (by omega), show pairFmt (p + 4) = .bf16 from if_neg (by omega)]; rfl
  case acts =>
    intro c e z hz _ _ t shadow withShadow d
    have frame := c.actEvent_event e
    have acted := c.actEvent_tileSet e
    have own : d.tiles[z] = t.acted e.act := by rw [acted.own hz, hz, Core.tile_val]
    refine ⟨acted.2, frame.sregs, frame.vregs, frame.mregs, fun y hy => acted.other hz hy, ?_⟩
    generalize e.act = act at own ⊢
    cases act with
    | opens => exact own
    | push row int terms => exact fun _ => own
    | zero => exact own
    | zeroAll int => exact own
    | commit bs log pair => exact fun _ => own

end Sys2Proof.Machine
end

section
/-! PROOF. Operations of fixed latency whose destination lies in their own stream (R52, R60). -/
namespace Sys2Proof.Machine

section
variable {i : Instr} {row : Row} {o : Op}

/-- Sources that could be read are those of an operation whose destination is legal. -/
theorem Core.operands_legal {c d : Core} {x : Srcs} (hi : i.info = some (row, o)) (h : c.operands i = .ok (d, x)) :
    row.dst.legal d.env row.slot (row.lat == .var) o.dst = true := by
  have hs := (Core.operands_ok h).1
  unfold Core.sources at hs
  rw [hi] at hs
  obtain ⟨⟨c1, y1⟩, -, hs⟩ := Except.bind_ok hs
  obtain ⟨⟨c2, y2⟩, -, hs⟩ := Except.bind_ok hs
  obtain ⟨⟨c3, y3⟩, -, hs⟩ := Except.bind_ok hs
  obtain ⟨_, legal, hs⟩ := Except.bind_ok hs
  split at hs
  · cases hs
  obtain ⟨-, -, hs⟩ := Except.bind_ok hs
  cases hs
  unfold Core.checkLegal at legal
  split at legal
  · cases legal
  · next allowed => simpa using allowed

/-- A vector destination is no scalar register, so that a write to it does not cross streams (R276). -/
theorem crossStream_of_vd {e : DecodeEnv} {sl sl' : Slot} {var : Bool} {p : Port} (h : OpClass.vd.legal e sl var p = true) :
    crossStream sl' p = false := by
  cases p with
  | s n => cases var <;> cases h
  | _ => cases sl' <;> rfl

/-- Of what the crossbar writes, only a scalar register lies in another stream. -/
theorem crossStream_xn {p : Port} (h : ∀ n, p ≠ .s n) : crossStream .xn p = false := by
  cases p with
  | s n => exact absurd rfl (h n)
  | _ => rfl

variable {s : State} {c : Core} {x : Srcs} {f : Core → Res Core}

/-- An operation that touches its core alone and issues its value as a result of a fixed class owes it. -/
theorem completes_owes (hi : i.info = some (row, o)) (g : s.core.guardHolds o = true) (hb : i.scheduleBad s.core.env = none)
    (hs : row.slot ≠ .br) (hf : issue i s = onCore f s) (h : s.core.operands i = .ok (c, x)) {k : Nat} (hl : row.lat = .cls k)
    (hx : crossStream row.slot o.dst = false) {v : Val} (hv : f s.core = .ok (c.issueResult i v)) :
    Completes i s (s.withCore (c.owes k row.slot o.dst v)) := by
  have read := Core.operands_queues h
  rw [Core.issueResult_fixed hi k hl hx] at hv
  exact completes_onCore hi g hb hs hf hv read.recs read.audits

/-- The same with a write across streams: the destination waits for it (R276). -/
theorem completes_awaits (hi : i.info = some (row, o)) (g : s.core.guardHolds o = true) (hb : i.scheduleBad s.core.env = none)
    (hs : row.slot ≠ .br) (hf : issue i s = onCore f s) (h : s.core.operands i = .ok (c, x)) {k : Nat} (hl : row.lat = .cls k)
    (hx : crossStream row.slot o.dst = true) {v : Val} (hv : f s.core = .ok (c.issueResult i v)) :
    Completes i s (s.withCore (c.awaits row.slot o.dst (.value v))) := by
  have read := Core.operands_queues h
  rw [Core.issueResult_cross hi k hl hx] at hv
  exact completes_onCore hi g hb hs hf hv read.recs read.audits
end

end Sys2Proof.Machine
end

section
/-! PROOF. The elements that a vector source supplies, and what the operators of reductions make of them (R64, R65, R96, R133). -/
namespace Sys2Proof.Machine

/-! ## Elements of sources -/

theorem elems_eq_map (w v n : Nat) : elems w v n = (List.range n).map (elem w v) := by
  induction n generalizing v with
  | zero => rfl
  | succ n ih =>
    have shift (k : Nat) : elem w (v / 2 ^ w) k = elem w v (k + 1) := by
      rw [elem, elem, Nat.div_div_eq_div_mul, ← Nat.pow_add, Nat.mul_add_one, Nat.add_comm]
    rw [elems, ih, List.range_succ_eq_map, List.map_cons, List.map_map]
    congr 1
    · simp [elem]
    · exact List.map_congr_left fun k _ => shift k

theorem elem_srcVec {w : Nat} (p : Port) (x : Val) {e : Nat} (h : e < 2048 / w) : elem w (srcVec w p x) e = srcElem w p x e := by
  unfold srcVec srcElem
  split
  · simp [elem_packElems, h]
  · split
    · rfl
    · simp [elem_packElems, h]

theorem elems_srcVec (w : Nat) (p : Port) (x : Val) :
    elems w (srcVec w p x) (2048 / w) = (List.range (2048 / w)).map (srcElem w p x) := by
  rw [elems_eq_map]
  exact List.map_congr_left fun e he => elem_srcVec p x (List.mem_range.1 he)

theorem srcElem_lt (w : Nat) (p : Port) (x : Val) (e : Nat) : srcElem w p x e < 2 ^ w := by
  unfold srcElem
  split
  · exact Nat.mod_lt _ (Nat.two_pow_pos w)
  · split
    · exact elem_lt ..
    · exact Nat.mod_lt _ (Nat.two_pow_pos w)

theorem elemWidth_pos (t : ElemTy) : 0 < t.width := by cases t <;> decide

/-- A register holds a power of two of elements. -/
theorem elemCount_eq (t : ElemTy) : 2048 / t.width = 2 ^ treeDepth t := by cases t <;> decide

theorem elemWidth_mul_count (t : ElemTy) : t.width * (2048 / t.width) = 2048 := by cases t <;> decide

/-- A register of elements of a type. -/
def ofElems (t : ElemTy) (l : List Nat) : Vec := BitVec.ofNat 2048 (packElems t.width l)

/-- Element e of a register that a list fills. -/
theorem elem_ofElems {t : ElemTy} {l : List Nat} (hl : l.length = 2048 / t.width) {e r : Nat} (he : l.getD e 0 = r)
    (hr : r < 2 ^ t.width) : elem t.width (ofElems t l).toNat e = r := by
  rw [ofElems, elem_ofNat_packElems (by rw [hl, elemWidth_mul_count]), he, Nat.mod_eq_of_lt hr]

/-! ## Rounded values and extrema (R70, R71) -/

theorem Fmt.two_le_precision (t : ElemTy) : 2 ≤ (Fmt.of t).p := by cases t <;> decide

theorem Fmt.of_bits {t : ElemTy} (h : t.isFloat = true) : (Fmt.of t).bits = t.width := by
  cases t with
  | bf16 | f16 | f32 => rfl
  | _ => cases h

section
variable {f : Fmt}

/-- The default NaN without a sign bit. -/
theorem Fmt.nan_lt_sign (hp : 2 ≤ f.p) : f.nan < 2 ^ (f.bits - 1) := by
  have low : 2 ^ (f.p - 2) < 2 ^ (f.p - 1) := Nat.pow_lt_pow_right (by decide) (by omega)
  calc f.nan < (2 ^ f.ebits - 1) * 2 ^ (f.p - 1) + 2 ^ (f.p - 1) := Nat.add_lt_add_left low _
    _ = 2 ^ f.ebits * 2 ^ (f.p - 1) := by rw [← Nat.succ_mul, Nat.succ_eq_add_one, Nat.sub_add_cancel Nat.one_le_two_pow]
    _ = 2 ^ (f.bits - 1) := by rw [← Nat.pow_add, Fmt.bits, ← Nat.add_sub_assoc (by omega), Nat.add_comm]

/-- A sign and a magnitude not above infinity make an encoding of the format. -/
theorem Fmt.signed_lt (hp : 2 ≤ f.p) (neg : Bool) {m : Nat} (h : m ≤ f.inf) : f.sign neg + m < 2 ^ f.bits := by
  have magnitude : m < 2 ^ (f.bits - 1) := (h.trans (Nat.le_add_right _ _)).trans_lt (Fmt.nan_lt_sign hp)
  have sign : f.sign neg ≤ 2 ^ (f.bits - 1) := by cases neg <;> simp [Fmt.sign]
  calc f.sign neg + m < 2 ^ (f.bits - 1) + 2 ^ (f.bits - 1) := Nat.add_lt_add_of_le_of_lt sign magnitude
    _ = 2 ^ f.bits := by rw [← Nat.mul_two, ← Nat.pow_succ, Nat.succ_eq_add_one, Nat.sub_add_cancel (by unfold Fmt.bits; omega)]

theorem Fmt.nan_lt (hp : 2 ≤ f.p) : f.nan < 2 ^ f.bits :=
  (Fmt.nan_lt_sign hp).trans_le (Nat.pow_le_pow_right (by decide) (Nat.sub_le _ _))

/-- What overflows becomes infinity or the largest finite magnitude (R71). -/
theorem clamped_le (top m : Nat) (toInf : Bool) : (if top ≤ m then (if toInf then top else top - 1) else m) ≤ top := by
  split_ifs <;> omega

theorem Fmt.roundFin_lt (hp : 2 ≤ f.p) (rm : Nat) (neg : Bool) (m : Nat) (e : Int) (sticky : Bool) :
    f.roundFin rm neg m e sticky < 2 ^ f.bits := by
  unfold Fmt.roundFin
  split
  · exact Fmt.signed_lt hp neg (Nat.zero_le _)
  · exact Fmt.signed_lt hp neg (clamped_le ..)

theorem Fmt.round_lt (hp : 2 ≤ f.p) (rm : Nat) (v : FVal) : f.round rm v < 2 ^ f.bits := by
  cases v with
  | nan => exact Fmt.nan_lt hp
  | inf neg => exact Fmt.signed_lt hp neg le_rfl
  | fin neg m e => exact Fmt.roundFin_lt hp rm neg m e false

theorem Fmt.minmax_lt (hp : 2 ≤ f.p) (isMax : Bool) {a b : Nat} (ha : a < 2 ^ f.bits) (hb : b < 2 ^ f.bits) :
    f.minmax isMax a b < 2 ^ f.bits := by
  have nan := Fmt.nan_lt hp
  unfold Fmt.minmax
  dsimp only
  split_ifs <;> assumption
end

/-! ## The operators (R96, R137, R140, R170) -/

theorem intVal_eq_num {w x : Nat} (hw : 0 < w) (u : Bool) (h : x < 2 ^ w) : intVal w u x = num w u x := by
  cases u with
  | true => simp [intVal, num, Nat.mod_eq_of_lt h]
  | false => exact sextN_eq_num hw h

/-- Elements of one value are the same. -/
theorem num_injOn {w : Nat} (u : Bool) {a b : Nat} (ha : a < 2 ^ w) (hb : b < 2 ^ w) (h : num w u a = num w u b) : a = b := by
  zify at ha hb
  unfold num at h
  split at h <;> split at h <;> omega

/-- Below m two operators agree, and stay below m. -/
def AgreeBelow (m : Nat) (f g : Nat → Nat → Nat) : Prop := ∀ a b, a < m → b < m → f a b = g a b ∧ g a b < m

section
variable {t : ElemTy} (u : Bool)

theorem minmaxElem_int (ht : t.isFloat = false) {a b : Nat} (ha : a < 2 ^ t.width) (hb : b < 2 ^ t.width) :
    minmaxElem t u false a b = (if num t.width u a ≤ num t.width u b then a else b) ∧
    minmaxElem t u true a b = if num t.width u a ≤ num t.width u b then b else a := by
  have same := num_injOn u ha hb
  simp only [minmaxElem, ht, Bool.false_eq_true, if_false, intVal_eq_num (elemWidth_pos t) u ha, intVal_eq_num (elemWidth_pos t) u hb]
  rcases lt_trichotomy (num t.width u a) (num t.width u b) with h | h | h
  · simp [h, h.le]
  · simp [same h]
  · simp [h.not_gt, h.not_ge]

theorem redElem_agrees_add : AgreeBelow (2 ^ t.width) (redElem t u 0) (reduceRule t u 0) := by
  intro a b ha hb
  cases ht : t.isFloat with
  | true =>
    have small := Fmt.of_bits ht ▸ Fmt.round_lt (Fmt.two_le_precision t) 0 (((Fmt.of t).val a).add false ((Fmt.of t).val b))
    simp [redElem, reduceRule, addElem, ht, rmOf, small, Nat.mod_eq_of_lt]
  | false => simp [redElem, reduceRule, addElem, ht, Nat.mod_lt]

theorem minmaxElem_agrees (isMax : Bool) :
    AgreeBelow (2 ^ t.width) (minmaxElem t u isMax) (reduceRule t u (if isMax then 2 else 1)) := by
  intro a b ha hb
  cases ht : t.isFloat with
  | true =>
    have bits := Fmt.of_bits ht
    have small := bits ▸ Fmt.minmax_lt (Fmt.two_le_precision t) isMax (bits.symm ▸ ha) (bits.symm ▸ hb)
    cases isMax <;> simpa [reduceRule, minmaxElem, ht] using small
  | false =>
    obtain ⟨low, high⟩ := minmaxElem_int u ht ha hb
    cases isMax
    · simp only [low, reduceRule, ht, Bool.false_eq_true, if_false, true_and]
      split <;> assumption
    · simp only [high, reduceRule, ht, Bool.false_eq_true, if_true, if_false, true_and]
      split <;> assumption

/-- The model's operators are those of the rules, on elements of the type. -/
theorem redElem_agrees (k : Nat) : AgreeBelow (2 ^ t.width) (redElem t u k) (reduceRule t u k) := by
  match k with
  | 0 => exact redElem_agrees_add u
  | 1 => exact minmaxElem_agrees u false
  | 2 => exact minmaxElem_agrees u true
  | 3 => exact fun a b _ hb => ⟨rfl, Nat.and_lt_two_pow a hb⟩
  | 4 => exact fun a b ha hb => ⟨rfl, Nat.or_lt_two_pow ha hb⟩
  | k + 5 => exact fun a b ha hb => ⟨rfl, Nat.xor_lt_two_pow ha hb⟩
end

end Sys2Proof.Machine
end

section
/-! PROOF. Trees, scans and groups of elements (R170 to R172). -/
namespace Sys2Proof.Machine

section
variable {f g : Nat → Nat → Nat} {m : Nat} {a : Nat → Nat}

/-! ## Operators that agree give the same trees and folds -/

theorem AgreeBelow.tree (h : AgreeBelow m f g) (ha : ∀ i, a i < m) (k j : Nat) :
    treeRule f a k j = treeRule g a k j ∧ treeRule g a k j < m := by
  induction k generalizing j with
  | zero => exact ⟨rfl, ha j⟩
  | succ k ih =>
    obtain ⟨left, leftSmall⟩ := ih (2 * j)
    obtain ⟨right, rightSmall⟩ := ih (2 * j + 1)
    rw [treeRule, left, right]
    exact h _ _ leftSmall rightSmall

theorem AgreeBelow.fold (h : AgreeBelow m f g) (ha : ∀ i, a i < m) {z : Nat} (hz : z < m) (n : Nat) :
    (List.range n).foldl (fun acc j => f acc (a j)) z = (List.range n).foldl (fun acc j => g acc (a j)) z ∧
    (List.range n).foldl (fun acc j => g acc (a j)) z < m := by
  induction n with
  | zero => exact ⟨rfl, hz⟩
  | succ n ih =>
    obtain ⟨same, small⟩ := ih
    simp only [List.range_succ, List.foldl_append, List.foldl_cons, List.foldl_nil, same]
    exact h _ _ small (ha n)

/-! ## The fixed tree (R170) -/

/-- A tree over one more level of leaves is the tree over the pairs of leaves. -/
theorem treeRule_pairs (f : Nat → Nat → Nat) (a : Nat → Nat) (k j : Nat) :
    treeRule f a (k + 1) j = treeRule f (fun i => f (a (2 * i)) (a (2 * i + 1))) k j := by
  induction k generalizing j with
  | zero => rfl
  | succ k ih => rw [treeRule, ih, ih, treeRule]

theorem pairUp_map_range (f : Nat → Nat → Nat) (a : Nat → Nat) (n : Nat) :
    pairUp f ((List.range (2 * n)).map a) = (List.range n).map fun i => f (a (2 * i)) (a (2 * i + 1)) := by
  induction n generalizing a with
  | zero => rfl
  | succ n ih =>
    rw [Nat.mul_add_one, List.range_succ_eq_map, List.range_succ_eq_map, List.range_succ_eq_map]
    simp only [List.map_cons, List.map_map, pairUp]
    exact congrArg _ (ih fun i => a (i + 2))

theorem treeFold_singleton (f : Nat → Nat → Nat) (n x : Nat) : treeFold f n [x] = x := by
  induction n with
  | zero => rfl
  | succ n ih => exact ih

/-- Levels beyond those that the elements need change nothing. -/
theorem treeFold_map_range (f : Nat → Nat → Nat) (a : Nat → Nat) (k extra : Nat) :
    treeFold f (k + extra) ((List.range (2 ^ k)).map a) = treeRule f a k 0 := by
  induction k generalizing a with
  | zero => exact treeFold_singleton f _ _
  | succ k ih => rw [Nat.succ_add, treeFold, Nat.pow_succ', pairUp_map_range, ih, treeRule_pairs]

/-! ## Scans (R171) -/

theorem cons_scanFrom (f : Nat → Nat → Nat) (acc : Nat) (l : List Nat) : acc :: scanFrom f acc l = l.scanl f acc := by
  induction l generalizing acc with
  | nil => rfl
  | cons x l ih => rw [scanFrom, ih, List.scanl_cons]

/-- What a scan makes of a list of elements: the first as it stands, then the rest combined into it (R171). -/
def scanList (f : Nat → Nat → Nat) : List Nat → List Nat
  | [] => []
  | x :: l => x :: scanFrom f x l

theorem scanList_map_range (f : Nat → Nat → Nat) (a : Nat → Nat) (n : Nat) :
    (scanList f ((List.range n).map a)).length = n ∧
    ∀ e, e < n → (scanList f ((List.range n).map a)).getD e 0 = (List.range e).foldl (fun acc j => f acc (a (j + 1))) (a 0) := by
  cases n with
  | zero => exact ⟨rfl, nofun⟩
  | succ n =>
    have scan : scanList f ((List.range (n + 1)).map a) = ((List.range n).map fun j => a (j + 1)).scanl f (a 0) := by
      rw [List.range_succ_eq_map, List.map_cons, List.map_map, scanList, cons_scanFrom]
      rfl
    refine ⟨by simp [scan], fun e he => ?_⟩
    have within : e ≤ n := Nat.le_of_lt_succ he
    simp [scan, List.getD_eq_getElem?_getD, within, ← List.map_take, List.take_range, List.foldl_map]

/-! ## Groups (R172) -/

theorem length_groupExt (f : Nat → Nat → Nat) {g : Nat} (n : Nat) (l : List Nat) (h : l.length ≤ n * g) :
    (groupExt f g n l).length = l.length := by
  induction n generalizing l with
  | zero =>
    have empty : l = [] := by simpa using h
    rw [empty, groupExt]
  | succ n ih =>
    have rest := ih (l.drop g) (by rw [List.length_drop, Nat.succ_mul] at *; omega)
    simp only [groupExt, List.length_append, List.length_replicate, List.length_take, rest, List.length_drop]
    omega

theorem headD_take {g : Nat} (hg : 0 < g) (l : List Nat) : (l.take g).headD 0 = l.getD 0 0 := by
  obtain ⟨g, rfl⟩ := Nat.exists_eq_add_one.2 hg
  cases l <;> rfl

/-- Element e of the extrema is that of the g elements from the start of its group. -/
theorem getD_groupExt (f : Nat → Nat → Nat) {g : Nat} (hg : 0 < g) (n : Nat) (l : List Nat) (h : l.length ≤ n * g) {e : Nat}
    (he : e < l.length) :
    (groupExt f g n l).getD e 0 = ((l.drop (e / g * g)).take g).foldl f (l.getD (e / g * g) 0) := by
  induction n generalizing l e with
  | zero => omega
  | succ n ih =>
    rw [groupExt]
    by_cases first : e < g
    · have inside : e < (l.take g).length := by rw [List.length_take]; omega
      rw [List.getD_append _ _ _ _ (by simpa using inside), List.getD_replicate _ inside, headD_take hg, Nat.div_eq_of_lt first,
        Nat.zero_mul, List.drop_zero]
    · have beyond : g ≤ e := Nat.le_of_not_lt first
      have full : (l.take g).length = g := by rw [List.length_take]; omega
      have start : g + (e - g) / g * g = e / g * g := by
        rw [Nat.div_eq_sub_div hg beyond, Nat.add_one_mul, Nat.add_comm]
      have rest := ih (l.drop g) (by rw [List.length_drop, Nat.succ_mul] at *; omega) (e := e - g) (by rw [List.length_drop]; omega)
      rw [List.drop_drop, List.getD_eq_getElem?_getD (l := l.drop g), List.getElem?_drop, start, ← List.getD_eq_getElem?_getD] at rest
      rw [List.getD_append_right _ _ _ _ (by rw [List.length_replicate, full]; exact beyond), List.length_replicate, full, rest]

/-- The same where groups of g fill the list. -/
theorem getD_groupExt_map_range (f : Nat → Nat → Nat) (a : Nat → Nat) {g n e : Nat} (hg : 0 < g) (hd : g ∣ n) (he : e < n) :
    (groupExt f g n ((List.range n).map a)).getD e 0 =
      (List.range g).foldl (fun acc j => f acc (a (e / g * g + j))) (a (e / g * g)) := by
  obtain ⟨q, rfl⟩ := hd
  have group : e / g + 1 ≤ q := Nat.div_lt_of_lt_mul he
  have inside : e / g * g + g ≤ g * q := by
    calc e / g * g + g = g * (e / g + 1) := by ring
      _ ≤ g * q := Nat.mul_le_mul_left g group
  have members : (((List.range (g * q)).map a).drop (e / g * g)).take g = (List.range g).map fun j => a (e / g * g + j) := by
    apply List.ext_getElem
    · simp only [List.length_take, List.length_drop, List.length_map, List.length_range]
      omega
    · intro j _ _
      simp
  have first : ((List.range (g * q)).map a).getD (e / g * g) 0 = a (e / g * g) := by
    have start : e / g * g < g * q := by omega
    simp [start]
  rw [getD_groupExt f hg _ _ (by simpa using Nat.le_mul_of_pos_right _ hg) (by simpa using he), members, first, List.foldl_map]
end

end Sys2Proof.Machine
end

section
/-! PROOF. The obligation on reductions, scans and extrema. -/
namespace Sys2Proof.Machine

theorem info_xred (t : ElemTy) (o : Op) :
    (Instr.xred t o).info = some (.xn (0x40 + t.code) .vdxs .vs (.k 0 5) .none (modI t) (.cls 6), o) := rfl
theorem info_xscan (t : ElemTy) (o : Op) :
    (Instr.xscan t o).info = some (.xn (0x48 + t.code) .vd .vs (.k 0 5) .none (modI t) (.cls 6), o) := rfl
theorem info_xgmax (t : ElemTy) (o : Op) :
    (Instr.xgmax t o).info = some (.xn (0x50 + t.code) .vd .vs (.k 0 6) .none (modI t) (.cls 6), o) := rfl
theorem info_xgmin (t : ElemTy) (o : Op) :
    (Instr.xgmin t o).info = some (.xn (0x58 + t.code) .vd .vs (.k 0 6) .none (modI t) (.cls 6), o) := rfl

/-! ## What the operations compute -/

section
variable {t : ElemTy} (u : Bool) (k : Nat) (p : Port) (y : Val)

/-- The levels of the model's tree suffice for every type that a reduction allows. -/
theorem treeFold_elems (ht : TyClass.iF.has t = true) :
    treeFold (redElem t u k) 8 (elems t.width (srcVec t.width p y) (2048 / t.width)) =
      treeRule (reduceRule t u k) (srcElem t.width p y) (treeDepth t) 0 := by
  have levels : treeDepth t + (8 - treeDepth t) = 8 := by
    cases t with
    | i4 => cases ht
    | _ => decide
  rw [elems_srcVec, elemCount_eq, ← levels, treeFold_map_range]
  exact ((redElem_agrees u k).tree (srcElem_lt t.width p y) _ _).1

theorem treeRule_lt (n j : Nat) : treeRule (reduceRule t u k) (srcElem t.width p y) n j < 2 ^ t.width :=
  ((redElem_agrees u k).tree (srcElem_lt t.width p y) n j).2

theorem elem_replicate {r e : Nat} (hr : r < 2 ^ t.width) (he : e < 2048 / t.width) :
    elem t.width (ofElems t (List.replicate (2048 / t.width) r)).toNat e = r :=
  elem_ofElems List.length_replicate (List.getD_replicate _ he) hr

theorem elem_scan {e : Nat} (he : e < 2048 / t.width) :
    elem t.width (ofElems t (scanList (redElem t u k) (elems t.width (srcVec t.width p y) (2048 / t.width)))).toNat e =
      (List.range e).foldl (fun acc j => reduceRule t u k acc (srcElem t.width p y (j + 1))) (srcElem t.width p y 0) := by
  obtain ⟨length, values⟩ := scanList_map_range (redElem t u k) (srcElem t.width p y) (2048 / t.width)
  obtain ⟨same, small⟩ := (redElem_agrees u k).fold (fun j => srcElem_lt t.width p y (j + 1)) (srcElem_lt t.width p y 0) e
  rw [elems_srcVec]
  exact elem_ofElems length ((values e he).trans same) small

/-- The size of a group in elements. -/
def groupSize (t : ElemTy) (n : Nat) : Nat := min (2 ^ n) (2048 / t.width)

theorem groupSize_pos (t : ElemTy) (n : Nat) : 0 < groupSize t n := by
  rw [groupSize, elemCount_eq]
  exact Nat.lt_min.2 ⟨Nat.two_pow_pos _, Nat.two_pow_pos _⟩

/-- Groups fill the register. -/
theorem groupSize_dvd (t : ElemTy) (n : Nat) : groupSize t n ∣ 2048 / t.width := by
  rw [groupSize, elemCount_eq]
  rcases Nat.le_total n (treeDepth t) with h | h
  · rw [Nat.min_eq_left (Nat.pow_le_pow_right (by decide) h)]
    exact Nat.pow_dvd_pow 2 h
  · rw [Nat.min_eq_right (Nat.pow_le_pow_right (by decide) h)]

theorem elem_group (n : Nat) {e : Nat} (he : e < 2048 / t.width) :
    elem t.width (ofElems t (groupExt (redElem t u k) (groupSize t n) (2048 / t.width)
      (elems t.width (srcVec t.width p y) (2048 / t.width)))).toNat e =
      (List.range (groupSize t n)).foldl
        (fun acc j => reduceRule t u k acc (srcElem t.width p y (e / groupSize t n * groupSize t n + j)))
        (srcElem t.width p y (e / groupSize t n * groupSize t n)) := by
  have positive := groupSize_pos t n
  obtain ⟨same, small⟩ := (redElem_agrees u k).fold
    (fun j => srcElem_lt t.width p y (e / groupSize t n * groupSize t n + j))
    (srcElem_lt t.width p y (e / groupSize t n * groupSize t n)) (groupSize t n)
  rw [elems_srcVec]
  refine elem_ofElems ?_ ((getD_groupExt_map_range _ _ positive (groupSize_dvd t n) he).trans same) small
  rw [length_groupExt _ _ _ (by simpa using Nat.le_mul_of_pos_right _ positive), List.length_map, List.length_range]
end

/-! ## What the operations issue -/

section
variable {t : ElemTy} {o : Op} {c d : Core} {x : Srcs}

/-- The value of the tree that XRED reduces its first source by. -/
def Srcs.reduced (x : Srcs) (t : ElemTy) (o : Op) : Nat :=
  treeRule (reduceRule t o.mod x.b.toWord.toNat) (srcElem t.width o.op1 x.a) (treeDepth t) 0

theorem Srcs.reduced_lt (x : Srcs) (t : ElemTy) (o : Op) : x.reduced t o < 2 ^ t.width := treeRule_lt ..

/-- Every element of the vector form. -/
def Srcs.reducedVec (x : Srcs) (t : ElemTy) (o : Op) : Vec := ofElems t (List.replicate (2048 / t.width) (x.reduced t o))

theorem issueXred_scalar (ht : TyClass.iF.has t = true) (h : c.operands (.xred t o) = .ok (d, x)) {n : Fin 64} (hd : o.dst = .s n) :
    issueXred t o c = .ok (d.issueResult (.xred t o) (.word
      (if t.isFloat then BitVec.ofNat 64 (x.reduced t o) else BitVec.ofInt 64 (num t.width o.mod (x.reduced t o))))) := by
  have value := treeFold_elems o.mod x.b.toWord.toNat o.op1 x.a ht
  have word : (if t.isFloat || o.mod then BitVec.ofNat 64 (x.reduced t o) else BitVec.ofInt 64 (sextN t.width (x.reduced t o))) =
      if t.isFloat then BitVec.ofNat 64 (x.reduced t o) else BitVec.ofInt 64 (num t.width o.mod (x.reduced t o)) := by
    rw [sextN_eq_num (elemWidth_pos t) (x.reduced_lt t o)]
    cases t.isFloat <;> cases o.mod <;> simp [num]
  rw [← word]
  simp only [issueXred, h, hd, bind, Except.bind, value, Srcs.reduced]

theorem issueXred_cq (ht : TyClass.iF.has t = true) (h : c.operands (.xred t o) = .ok (d, x)) (hd : o.dst = .cq) :
    issueXred t o c = .ok (d.owesBoth 6 .xn .cq (.vec (x.reducedVec t o)) (.vec (x.reducedVec t o))) := by
  have value := treeFold_elems o.mod x.b.toWord.toNat o.op1 x.a ht
  simp only [issueXred, h, hd, bind, Except.bind, value]
  exact congrArg _ (Core.issueBoth_eq _ _ _ .cq _ _)

/-- Neither a scalar register nor cq: what is left is the vector form. -/
theorem issueXred_vector (ht : TyClass.iF.has t = true) (h : c.operands (.xred t o) = .ok (d, x)) (hs : ∀ n, o.dst ≠ .s n)
    (hq : o.dst ≠ .cq) : issueXred t o c = .ok (d.issueResult (.xred t o) (.vec (x.reducedVec t o))) := by
  have value := treeFold_elems o.mod x.b.toWord.toNat o.op1 x.a ht
  simp only [issueXred, h, bind, Except.bind, value]
  rfl

theorem issueXscan_ok (h : c.operands (.xscan t o) = .ok (d, x)) : issueXscan t o c = .ok (d.issueResult (.xscan t o)
    (.vec (ofElems t (scanList (redElem t o.mod x.b.toWord.toNat) (elems t.width (srcVec t.width o.op1 x.a) (2048 / t.width)))))) := by
  simp only [issueXscan, h, bind, Except.bind]
  rfl

/-- The extremum of a group is a reduction by the operator of its code (R96). -/
theorem groupOp_ok {i : Instr} (isMax : Bool) (h : c.operands i = .ok (d, x)) : groupOp i t o isMax c = .ok (d.issueResult i
    (.vec (ofElems t (groupExt (redElem t o.mod (if isMax then 2 else 1)) (groupSize t x.b.toWord.toNat) (2048 / t.width)
      (elems t.width (srcVec t.width o.op1 x.a) (2048 / t.width)))))) := by
  cases isMax <;> simp only [groupOp, h, bind, Except.bind] <;> rfl
end

/-- Settles O11: on elements the model's operators are those of the rules (`redElem_agrees`), and its lists are combined in the tree, from
left to right and by groups as the rules say (`treeFold_elems`, `elem_scan`, `elem_group`). -/
theorem reductions : Obligations.Reductions := by
  intro t o s c x g ht w n a op leaves group
  refine ⟨?_, ?_, ?_, ?_⟩
  · split
    · next k hd =>
      intro h _ r
      have crossing : crossStream .xn o.dst = true := by rw [hd]; rfl
      exact completes_awaits (f := issueXred t o) (info_xred t o) g rfl nofun rfl h rfl crossing (issueXred_scalar ht h hd)
    · next hd =>
      intro h _
      have read := Core.operands_queues h
      refine ⟨x.reducedVec t o, fun e he => elem_replicate (x.reduced_lt t o) he, ?_⟩
      exact completes_onCore (f := issueXred t o) (info_xred t o) g rfl nofun rfl (issueXred_cq ht h hd) read.recs read.audits
    · next hs hq =>
      intro h _
      refine ⟨x.reducedVec t o, fun e he => elem_replicate (x.reduced_lt t o) he, ?_⟩
      exact completes_owes (f := issueXred t o) (info_xred t o) g rfl nofun rfl h rfl (crossStream_xn hs)
        (issueXred_vector ht h hs hq)
  · intro h _
    have stream : crossStream .xn o.dst = false := crossStream_of_vd (Core.operands_legal (info_xscan t o) h)
    refine ⟨_, fun e he => elem_scan o.mod _ o.op1 x.a he, ?_⟩
    exact completes_owes (f := issueXscan t o) (info_xscan t o) g rfl nofun rfl h rfl stream (issueXscan_ok h)
  · intro h _
    have stream : crossStream .xn o.dst = false := crossStream_of_vd (Core.operands_legal (info_xgmax t o) h)
    refine ⟨_, fun e he => elem_group o.mod 2 o.op1 x.a _ he, ?_⟩
    exact completes_owes (f := issueXgmax t o) (info_xgmax t o) g rfl nofun rfl h rfl stream (groupOp_ok true h)
  · intro h _
    have stream : crossStream .xn o.dst = false := crossStream_of_vd (Core.operands_legal (info_xgmin t o) h)
    refine ⟨_, fun e he => elem_group o.mod 1 o.op1 x.a _ he, ?_⟩
    exact completes_owes (f := issueXgmin t o) (info_xgmin t o) g rfl nofun rfl h rfl stream (groupOp_ok false h)

end Sys2Proof.Machine
end

section
/-! PROOF. Scalar integer and bit operations: the words that the model computes are those of the rules (R67, R119 to R127). -/
namespace Sys2Proof.Machine

/-! ## Arithmetic (R67, R119) -/

/-- The upper half of a double-width product of two's complement integers. -/
theorem upperHalf_ofInt (p : Int) : (BitVec.ofInt 128 p >>> 64).setWidth 64 = BitVec.ofInt 64 (p / (2 ^ 64 : Nat)) := by
  apply BitVec.eq_of_toNat_eq
  rw [BitVec.toNat_setWidth, BitVec.toNat_ushiftRight, Nat.shiftRight_eq_div_pow, BitVec.toNat_ofInt, BitVec.toNat_ofInt]
  omega

theorem mulHigh_eq (unsigned : Bool) (a b : Word) : mulHigh unsigned a b =
    ((if unsigned then (a.setWidth 128 * b.setWidth 128) >>> 64 else (a.signExtend 128 * b.signExtend 128) >>> 64).setWidth 64) := by
  cases unsigned with
  | true =>
    have wide (y : Word) : y.setWidth 128 = BitVec.ofInt 128 y.toNat := by
      rw [BitVec.ofInt_natCast, BitVec.ofNat_toNat]
    have high : (a.toNat : Int) * b.toNat / (2 ^ 64 : Nat) = (a.toNat * b.toNat / 2 ^ 64 : Nat) := by push_cast; rfl
    simp only [mulHigh, if_true]
    rw [wide, wide, ← BitVec.ofInt_mul, upperHalf_ofInt, high, BitVec.ofInt_natCast]
  | false =>
    simp only [mulHigh, Bool.false_eq_true, if_false]
    rw [BitVec.signExtend, BitVec.signExtend, ← BitVec.ofInt_mul, upperHalf_ofInt]

theorem divWord_eq (unsigned : Bool) (a b : Word) : divWord unsigned a b = (divRule unsigned a b).1 := by
  have signed : BitVec.ofInt 64 (a.toInt.tdiv b.toInt) = a.sdiv b := by
    apply BitVec.eq_of_toInt_eq
    rw [BitVec.toInt_ofInt, BitVec.toInt_sdiv]
  have plain : BitVec.ofNat 64 (a.toNat / b.toNat) = a.udiv b := BitVec.udiv_def.symm
  unfold divWord divRule
  split_ifs
  · rfl
  · exact plain
  · exact signed

theorem remWord_eq (unsigned : Bool) (a b : Word) : remWord unsigned a b = (divRule unsigned a b).2 := by
  have signed : BitVec.ofInt 64 (a.toInt.tmod b.toInt) = a.srem b := by
    rw [← BitVec.toInt_srem, BitVec.ofInt_toInt]
  have plain : BitVec.ofNat 64 (a.toNat % b.toNat) = a.umod b := BitVec.umod_def.symm
  unfold remWord divRule
  split_ifs
  · rfl
  · exact plain
  · exact signed

theorem sub_word (a b : Word) : a - b = BitVec.ofInt 64 (a.toNat - b.toNat) := by
  apply BitVec.eq_of_toNat_eq
  rw [BitVec.toNat_sub, BitVec.toNat_ofInt]
  omega

theorem andn_bits (a b : Word) (k : Nat) : (a &&& ~~~b).getLsbD k = (a.getLsbD k && !b.getLsbD k) := by
  rw [BitVec.getLsbD_and, BitVec.getLsbD_not]
  by_cases inside : k < 64
  · rw [decide_eq_true inside, Bool.true_and]
  · rw [BitVec.getLsbD_of_ge a k (Nat.le_of_not_lt inside), Bool.false_and, Bool.false_and]

/-- Of two equal words the rule and the model may take either. -/
theorem minWord_eq (unsigned : Bool) (a b : Word) :
    let le := if unsigned then a.ule b else a.sle b
    minWord unsigned false a b = (if le then a else b) ∧ minWord unsigned true a b = if le then b else a := by
  have natural : a.toNat = b.toNat → a = b := BitVec.eq_of_toNat_eq
  have integer : a.toInt = b.toInt → a = b := BitVec.eq_of_toInt_eq
  cases unsigned
  · rcases lt_trichotomy a.toInt b.toInt with h | h | h
    · simp [minWord, BitVec.sle_eq_decide, h, h.le]
    · simp [minWord, integer h]
    · simp [minWord, BitVec.sle_eq_decide, h.not_ge, h.not_gt]
  · rcases lt_trichotomy a.toNat b.toNat with h | h | h
    · simp [minWord, BitVec.ule_eq_decide, h, h.le]
    · simp [minWord, natural h]
    · simp [minWord, BitVec.ule_eq_decide, h.not_ge, h.not_gt]

/-! ## Shifts (R120) -/

theorem shlWord_eq (a b : Word) : shlWord a b = BitVec.ofNat 64 (a.toNat * 2 ^ (b.toNat % 256)) := by
  unfold shlWord
  generalize b.toNat % 256 = n
  apply BitVec.eq_of_toNat_eq
  split_ifs with h
  · have gone : a.toNat * 2 ^ n % 2 ^ 64 = 0 := Nat.mod_eq_zero_of_dvd ((pow_dvd_pow 2 h).mul_left _)
    rw [BitVec.toNat_ofNat, gone]
    rfl
  · rw [BitVec.toNat_shiftLeft, BitVec.toNat_ofNat, Nat.shiftLeft_eq]

theorem shrWord_eq (a b : Word) : shrWord a b = BitVec.ofNat 64 (a.toNat / 2 ^ (b.toNat % 256)) := by
  unfold shrWord
  generalize b.toNat % 256 = n
  split_ifs with h
  · have gone : a.toNat / 2 ^ n = 0 := Nat.div_eq_of_lt (a.isLt.trans_le (Nat.pow_le_pow_right (by decide) h))
    rw [gone]
    rfl
  · apply BitVec.eq_of_toNat_eq
    have small : a.toNat / 2 ^ n < 2 ^ 64 := (Nat.div_le_self _ _).trans_lt a.isLt
    rw [BitVec.toNat_ushiftRight, BitVec.toNat_ofNat, Nat.shiftRight_eq_div_pow, Nat.mod_eq_of_lt small]

/-- A shift by the whole width or more leaves the sign alone. -/
theorem quotient_of_wide {a : Word} {n : Nat} (h : 64 ≤ n) : a.toInt / (2 ^ n : Nat) = if a.msb then -1 else 0 := by
  have low : -2 ^ 63 ≤ a.toInt := a.le_toInt
  have high : a.toInt < 2 ^ 63 := a.toInt_lt
  have wide : 2 ^ 64 ≤ 2 ^ n := Nat.pow_le_pow_right (by decide) h
  generalize 2 ^ n = m at wide
  rw [BitVec.msb_eq_toInt, Int.ediv_eq_iff_of_pos (by omega)]
  split <;> simp_all <;> omega

theorem sraWord_eq (a b : Word) : sraWord a b = BitVec.ofInt 64 (a.toInt / (2 ^ (b.toNat % 256) : Nat)) := by
  unfold sraWord
  generalize b.toNat % 256 = n
  split_ifs with h hs
  · rw [quotient_of_wide h, if_pos hs]
    rfl
  · rw [quotient_of_wide h, if_neg hs]
    rfl
  · rw [BitVec.sshiftRight, Int.shiftRight_eq_div_pow]

theorem rotlWord_eq (a b : Word) : rotlWord a b = a.rotateLeft (b.toNat % 256 % 64) := by
  rw [BitVec.rotateLeft_def, rotlWord]
  simp only [Nat.mod_mod_of_dvd b.toNat (by decide : 64 ∣ 256), Nat.mod_mod]

/-! ## Funnel shifts (R121, R148) -/

section
variable {w m hi lo : Nat}

/-- The pair of two words as one value of twice the width. -/
theorem pair_lt (hh : hi < 2 ^ w) (hl : lo < 2 ^ w) : hi * 2 ^ w + lo < 2 ^ (2 * w) := by
  calc hi * 2 ^ w + lo < hi * 2 ^ w + 2 ^ w := Nat.add_lt_add_left hl _
    _ = (hi + 1) * 2 ^ w := (Nat.succ_mul ..).symm
    _ ≤ 2 ^ w * 2 ^ w := Nat.mul_le_mul_right _ hh
    _ = 2 ^ (2 * w) := by rw [← Nat.pow_add, Nat.two_mul]

/-- What leaves a value of n bits at one end enters it at the other: the two parts have no bit in common. -/
theorem wrapped_eq_or {n x : Nat} (hx : x < 2 ^ n) (hm : m ≤ n) : x * 2 ^ m + x / 2 ^ (n - m) = x <<< m ||| x >>> (n - m) := by
  have small : x / 2 ^ (n - m) < 2 ^ m := by
    rw [Nat.div_lt_iff_lt_mul (Nat.two_pow_pos _), ← Nat.pow_add, Nat.add_sub_cancel' hm]
    exact hx
  rw [Nat.shiftLeft_eq, Nat.shiftRight_eq_div_pow, Nat.mul_comm, Nat.two_pow_add_eq_or_of_lt small]

theorem funnelLeft_eq (hh : hi < 2 ^ w) (hl : lo < 2 ^ w) (hm : m < 2 * w) :
    funnelLeft w hi lo m = ((BitVec.ofNat (2 * w) (hi * 2 ^ w + lo)).rotateLeft m).toNat % 2 ^ w := by
  have small := pair_lt hh hl
  have within : 2 ^ w ∣ 2 ^ (2 * w) := pow_dvd_pow 2 (by omega)
  rw [BitVec.toNat_rotateLeft, BitVec.toNat_ofNat, Nat.mod_eq_of_lt small, Nat.mod_eq_of_lt hm, Nat.or_mod_two_pow,
    Nat.mod_mod_of_dvd _ within, ← Nat.or_mod_two_pow, ← wrapped_eq_or small hm.le]
  simp only [funnelLeft, Nat.mod_eq_of_lt hh, Nat.mod_eq_of_lt hl]

theorem funnelRight_eq (hh : hi < 2 ^ w) (hl : lo < 2 ^ w) (hm : m < 2 * w) :
    funnelRight w hi lo m = ((BitVec.ofNat (2 * w) (hi * 2 ^ w + lo)).rotateRight m).toNat / 2 ^ w := by
  have small := pair_lt hh hl
  have back : 2 * w - (2 * w - m) = m := by omega
  have parts := wrapped_eq_or small (Nat.sub_le (2 * w) m)
  rw [back] at parts
  have rotated : ((BitVec.ofNat (2 * w) (hi * 2 ^ w + lo)).rotateRight m).toNat =
      ((hi * 2 ^ w + lo) * 2 ^ (2 * w - m) + (hi * 2 ^ w + lo) / 2 ^ m) % 2 ^ (2 * w) := by
    have kept : (hi * 2 ^ w + lo) >>> m < 2 ^ (2 * w) := (Nat.shiftRight_le _ _).trans_lt small
    rw [BitVec.toNat_rotateRight, BitVec.toNat_ofNat, Nat.mod_eq_of_lt small, Nat.mod_eq_of_lt hm, parts, Nat.or_mod_two_pow,
      Nat.mod_eq_of_lt kept, Nat.or_comm]
  have upper (z : Nat) : z % 2 ^ (2 * w) / 2 ^ w = z / 2 ^ w % 2 ^ w := by
    rw [Nat.two_mul, Nat.pow_add, Nat.mod_mul_right_div_self]
  rw [rotated, upper, Nat.add_comm]
  simp only [funnelRight, Nat.mod_eq_of_lt hh, Nat.mod_eq_of_lt hl]

end

/-- Two words side by side. -/
theorem append_eq_pair (a b : Word) : a ++ b = BitVec.ofNat (2 * 64) (a.toNat * 2 ^ 64 + b.toNat) := by
  apply BitVec.eq_of_toNat_eq
  rw [BitVec.toNat_append, BitVec.toNat_ofNat, Nat.mod_eq_of_lt (pair_lt a.isLt b.isLt), Nat.shiftLeft_eq, Nat.mul_comm,
    Nat.two_pow_add_eq_or_of_lt b.isLt]

theorem funnelLeft_word (a b : Word) {m : Nat} (hm : m < 128) :
    BitVec.ofNat 64 (funnelLeft 64 a.toNat b.toNat m) = ((a ++ b).rotateLeft m).setWidth 64 := by
  rw [funnelLeft_eq a.isLt b.isLt hm, append_eq_pair]
  apply BitVec.eq_of_toNat_eq
  rw [BitVec.toNat_ofNat, Nat.mod_mod, BitVec.toNat_setWidth]

theorem funnelRight_word (a b : Word) {m : Nat} (hm : m < 128) :
    BitVec.ofNat 64 (funnelRight 64 a.toNat b.toNat m) = ((a ++ b).rotateRight m >>> 64).setWidth 64 := by
  rw [funnelRight_eq a.isLt b.isLt hm, append_eq_pair]
  apply BitVec.eq_of_toNat_eq
  rw [BitVec.toNat_ofNat, BitVec.toNat_setWidth, BitVec.toNat_ushiftRight, Nat.shiftRight_eq_div_pow]

/-! ## Counts (R122) -/

/-- The leading zeros of a value of w bits: none is above the bit that ends them. -/
theorem clzNat_spec {w x : Nat} (hx : x < 2 ^ w) : clzNat w x ≤ w ∧ (∀ k, k < clzNat w x → x.testBit (w - 1 - k) = false) ∧
    (clzNat w x < w → x.testBit (w - 1 - clzNat w x) = true) := by
  unfold clzNat
  rw [Nat.mod_eq_of_lt hx]
  split_ifs with zero
  · simp [zero]
  · have top : x.log2 < w := (Nat.log2_lt zero).2 hx
    refine ⟨by omega, fun k hk => ?_, fun _ => ?_⟩
    · have above : x < 2 ^ (w - 1 - k) := (Nat.log2_lt zero).1 (by omega)
      exact Nat.testBit_lt_two_pow above
    · have place : w - 1 - (w - 1 - x.log2) = x.log2 := by omega
      rw [place, Nat.testBit_log2 zero]

theorem ctzNat_spec (n x : Nat) : ctzNat n x ≤ n ∧ (∀ k, k < ctzNat n x → x.testBit k = false) ∧
    (ctzNat n x < n → x.testBit (ctzNat n x) = true) := by
  induction n generalizing x with
  | zero => simp [ctzNat]
  | succ n ih =>
    obtain ⟨bound, zeros, one⟩ := ih (x / 2)
    unfold ctzNat
    split_ifs with odd
    · simp [Nat.testBit_zero, odd]
    · refine ⟨by omega, fun k hk => ?_, fun h => ?_⟩
      · cases k with
        | zero => simpa [Nat.testBit_zero] using odd
        | succ k => rw [Nat.testBit_succ]; exact zeros k (by omega)
      · rw [Nat.add_comm, Nat.testBit_succ]
        exact one (by omega)

theorem popNat_eq (n x : Nat) : popNat n x = (List.range n).countP x.testBit := by
  induction n generalizing x with
  | zero => rfl
  | succ n ih =>
    have low : x % 2 = if x.testBit 0 then 1 else 0 := by
      rw [Nat.testBit_zero]
      rcases Nat.mod_two_eq_zero_or_one x with h | h <;> simp [h]
    have shifted : x.testBit ∘ Nat.succ = (x / 2).testBit := funext fun k => Nat.testBit_succ x k
    rw [popNat, List.range_succ_eq_map, List.countP_cons, List.countP_map, shifted, ih, low, Nat.add_comm]

/-- A count of the bits of a word fits the word. -/
theorem count_toNat {n : Nat} (h : n ≤ 64) : (BitVec.ofNat 64 n).toNat = n := by
  rw [BitVec.toNat_ofNat]
  omega

theorem clz_word (a : Word) :
    let r := BitVec.ofNat 64 (clzNat 64 a.toNat)
    r.toNat ≤ 64 ∧ (∀ k, k < r.toNat → a.getMsbD k = false) ∧ (r.toNat < 64 → a.getMsbD r.toNat = true) := by
  obtain ⟨bound, zeros, one⟩ := clzNat_spec a.isLt
  have bit (k : Nat) (h : k < 64) : a.getMsbD k = a.toNat.testBit (64 - 1 - k) := by
    simp [BitVec.getMsbD_eq_getLsbD, h, BitVec.testBit_toNat]
  intro r
  rw [count_toNat bound]
  refine ⟨bound, fun k hk => ?_, fun h => ?_⟩
  · rw [bit k (hk.trans_le bound), zeros k hk]
  · rw [bit _ h, one h]

theorem ctz_word (a : Word) :
    let r := BitVec.ofNat 64 (ctzNat 64 a.toNat)
    r.toNat ≤ 64 ∧ (∀ k, k < r.toNat → a.getLsbD k = false) ∧ (r.toNat < 64 → a.getLsbD r.toNat = true) := by
  obtain ⟨bound, zeros, one⟩ := ctzNat_spec 64 a.toNat
  intro r
  rw [count_toNat bound]
  exact ⟨bound, zeros, one⟩

theorem popc_word (a : Word) : (BitVec.ofNat 64 (popNat 64 a.toNat)).toNat = (List.range 64).countP fun k => a.getLsbD k := by
  rw [popNat_eq]
  exact count_toNat ((List.countP_le_length).trans_eq List.length_range)

/-! ## Bit fields (R125, R126) -/

/-- A field of l bits with its sign spread over a word. -/
theorem getLsbD_ofInt_sextN {l : Nat} (hl : 0 < l) (x : Nat) {k : Nat} (hk : k < 64) :
    (BitVec.ofInt 64 (sextN l x)).getLsbD k = if k < l then x.testBit k else x.testBit (l - 1) := by
  have field : sextN l x = (BitVec.ofNat l x).toInt := by
    have cut : sextN l x = sextN l (x % 2 ^ l) := by simp only [sextN, Nat.mod_mod]
    rw [cut, sextN_eq_num hl (Nat.mod_lt _ (Nat.two_pow_pos l)), toInt_eq_num hl, BitVec.toNat_ofNat]
  have extended : BitVec.ofInt 64 (BitVec.ofNat l x).toInt = (BitVec.ofNat l x).signExtend 64 := rfl
  have last : l - 1 < l := by omega
  rw [field, extended, BitVec.getLsbD_signExtend, BitVec.msb_eq_getLsbD_last, BitVec.getLsbD_ofNat, BitVec.getLsbD_ofNat]
  by_cases inside : k < l <;> simp [hk, inside, last]

theorem bfxWord_bits (signed : Bool) (a pos len : Word) {k : Nat} (hk : k < 64) :
    let p := pos.toNat % 64
    let l := min (len.toNat % 128) (64 - p)
    (bfxWord signed a pos len).getLsbD k = if k < l then a.getLsbD (p + k) else signed && l != 0 && a.getLsbD (p + l - 1) := by
  intro p l
  have field (j : Nat) : (a.toNat / 2 ^ p % 2 ^ l).testBit j = (decide (j < l) && a.getLsbD (p + j)) := by
    rw [Nat.testBit_mod_two_pow, Nat.testBit_div_two_pow, Nat.add_comm, BitVec.testBit_toNat]
  have unfolded : bfxWord signed a pos len = if l = 0 then 0 else
      if signed then BitVec.ofInt 64 (sextN l (a.toNat / 2 ^ p % 2 ^ l)) else BitVec.ofNat 64 (a.toNat / 2 ^ p % 2 ^ l) := rfl
  rw [unfolded]
  by_cases none : l = 0
  · simp [none]
  · have some : 0 < l := Nat.pos_of_ne_zero none
    have last : p + (l - 1) = p + l - 1 := by omega
    rw [if_neg none]
    cases signed
    · rw [if_neg Bool.false_ne_true, BitVec.getLsbD_ofNat, field]
      by_cases inside : k < l <;> simp [inside, hk]
    · rw [if_pos rfl, getLsbD_ofInt_sextN some _ hk, field, field, last]
      by_cases inside : k < l <;> simp [inside, none, some]

theorem bfiWord_bits (base field pl : Word) {k : Nat} (hk : k < 64) :
    let p := pl.toNat % 64
    let l := min (pl.toNat / 256 % 128) (64 - p)
    (bfiWord base field pl).getLsbD k = if p ≤ k ∧ k < p + l then field.getLsbD (k - p) else base.getLsbD k := by
  intro p l
  have mask : (BitVec.ofNat 64 ((2 ^ l - 1) * 2 ^ p)).getLsbD k = decide (p ≤ k ∧ k < p + l) := by
    rw [BitVec.getLsbD_ofNat, Nat.testBit_mul_two_pow, Nat.testBit_two_pow_sub_one]
    simp only [hk, decide_true, Bool.true_and, Bool.decide_and]
    by_cases above : p ≤ k
    · have place : k - p < l ↔ k < p + l := by omega
      simp [above, place]
    · simp [above]
  have unfolded : bfiWord base field pl = (base &&& ~~~BitVec.ofNat 64 ((2 ^ l - 1) * 2 ^ p)) |||
      ((field <<< p) &&& BitVec.ofNat 64 ((2 ^ l - 1) * 2 ^ p)) := rfl
  simp only [unfolded, BitVec.getLsbD_or, BitVec.getLsbD_and, BitVec.getLsbD_not, BitVec.getLsbD_shiftLeft, mask, hk]
  by_cases inside : p ≤ k ∧ k < p + l
  · simp [inside, inside.1.not_gt]
  · simp [inside]

theorem extWord_signed_bits (a n : Word) {k : Nat} (hk : k < 64) :
    let l := min (n.toNat % 128) 64
    (extWord true a n).getLsbD k = if k < l then a.getLsbD k else l != 0 && a.getLsbD (l - 1) := by
  intro l
  have unfolded : extWord true a n = if n.toNat % 128 = 0 then 0 else if 64 ≤ n.toNat % 128 then a else
      BitVec.ofInt 64 (sextN (n.toNat % 128) a.toNat) := rfl
  rw [unfolded]
  by_cases none : n.toNat % 128 = 0
  · simp [l, none]
  rw [if_neg none]
  by_cases all : 64 ≤ n.toNat % 128
  · have whole : k < l := by omega
    rw [if_pos all, if_pos whole]
  · have width : l = n.toNat % 128 := by omega
    have some : l ≠ 0 := by omega
    rw [if_neg all, ← width, getLsbD_ofInt_sextN (Nat.pos_of_ne_zero some) _ hk, BitVec.testBit_toNat, BitVec.testBit_toNat,
      bne_iff_ne.2 some, Bool.true_and]

theorem extWord_unsigned_bits (a n : Word) {k : Nat} (hk : k < 64) :
    (extWord false a n).getLsbD k = (decide (k < n.toNat % 128) && a.getLsbD k) := by
  simp only [extWord, Bool.false_eq_true, if_false]
  split_ifs with none all
  · simp [none]
  · rw [decide_eq_true (hk.trans_le all), Bool.true_and]
  · rw [BitVec.getLsbD_ofNat, Nat.testBit_mod_two_pow, BitVec.testBit_toNat, decide_eq_true hk, Bool.true_and]

end Sys2Proof.Machine
end

section
/-! PROOF. How an operation alone in its bundle traps, at its issue or when its action is performed (R101, R284, R285). -/
namespace Sys2Proof.Machine

/-- The trap that a stop is: with a word of its own, or with the slot word of the operation (R285). -/
inductive Stop.IsTrap (i : Instr) (cause : Nat) : Stop → Word → Prop where
  | given (info : Word) : IsTrap i cause (.trap cause info) info
  | word : IsTrap i cause (.wordTrap cause) (Instr.slotWord i)

section
variable {i : Instr} {row : Row} {o : Op} {s : State} {cause : Nat} {info : Word} {e : Stop}

/-- An operation that stops with a trap, with a cause other than poison and having touched no memory, takes it. -/
theorem traps_run {sl : Nat} (hi : i.info = some (row, o)) (he : e.IsTrap i cause info)
    (run : aloneRun i s = .error (sl, e, none)) (hc : cause ≠ 0x0C) : TrapsWith i s sl cause info := by
  rw [TrapsWith, exec_slot hi, slotMeaning]
  cases he with
  | given =>
    rw [runAlone_error run nofun]
    simp only [State.stop, Stop.trapOf, Core.notePoison_other _ hc, State.trapped, State.withCore]
  | word =>
    rw [runAlone_error run nofun]
    rfl

theorem onCore_error {f : Core → Res Core} (hf : f s.core = .error e) : onCore f s = .error (e, none) := by
  simp only [onCore, liftRes, hf, bind, Except.bind]

/-- A trap at the issue of an operation outside the BR slot. -/
theorem traps_issue {f : Core → Res Core} (hi : i.info = some (row, o)) (g : s.core.guardHolds o = true)
    (hb : i.scheduleBad s.core.env = none) (hs : row.slot ≠ .br) {sl : Nat} (hn : row.slot.num = sl) (hf : issue i s = onCore f s)
    (stop : f s.core = .error e) (he : e.IsTrap i cause info) (hc : cause ≠ 0x0C) : TrapsWith i s sl cause info :=
  traps_run hi he (hn ▸ aloneRun_error hi g hb hs (hf.trans (onCore_error stop))) hc

/-- A trap at the issue of an operation of the BR slot. -/
theorem traps_issueBr (hi : i.info = some (row, o)) (g : s.core.guardHolds o = true) (hb : i.scheduleBad s.core.env = none)
    (hs : row.slot = .br) (stop : issue i (s.withCore s.core.atBranch) = .error (e, none)) (he : e.IsTrap i cause info)
    (hc : cause ≠ 0x0C) : TrapsWith i s 0 cause info :=
  traps_run hi he (aloneRun_br_error hi g hb hs stop) hc

/-- A trap of the action of a BR operation. -/
theorem traps_action {t : State} (hi : i.info = some (row, o)) (g : s.core.guardHolds o = true)
    (hb : i.scheduleBad s.core.env = none) (hs : row.slot = .br) (hf : issue i (s.withCore s.core.atBranch) = .ok t)
    (stop : t.performBr s.core.bundleAddr = .error (e, none)) (he : e.IsTrap i cause info) (hc : cause ≠ 0x0C) :
    TrapsWith i s 0 cause info := by
  refine traps_run hi he ?_ hc
  have guard : (s.withCore s.core.atBranch).core.guardHolds o = true := g
  have issued : runGuarded i { s with core := { s.core with act := .none } } = .ok t := (runGuarded_on hi guard).trans hf
  unfold aloneRun
  rw [hi, hb]
  simp only [hs, if_true, issued, stop]

end

end Sys2Proof.Machine
end

section
/-! PROOF. The obligations on scalar operations (R119 to R131). -/
namespace Sys2Proof.Machine

/-! ## Operations from three words to a word -/

/-- An operation of the SC slot of latency class k that issues the word that f makes of its sources. -/
structure Computes (i : Instr) (k : Nat) (f : Word → Word → Word → Word) : Prop where
  issues : ∀ s, issue i s = onCore (scalarOp i f) s := by intro; rfl
  row : ∃ r o, i.info = some (r, o) ∧ r.slot = .sc ∧ r.lat = .cls k := by exact ⟨_, _, rfl, rfl, rfl⟩
  free : ∀ e, i.scheduleBad e = none := by intro; rfl

/-- Such an operation owes its word. -/
theorem Computes.completes {i : Instr} {k : Nat} {f : Word → Word → Word → Word} {row : Row} {o : Op} {s : State} {c : Core}
    {x : Srcs} (hf : Computes i k f) (hi : i.info = some (row, o)) (g : s.core.guardHolds o = true)
    (h : s.core.operands i = .ok (c, x)) :
    Completes i s (s.withCore (c.owes k .sc o.dst (.word (f x.a.toWord x.b.toWord x.c.toWord)))) := by
  obtain ⟨r, o', hi', slot, lat⟩ := hf.row
  obtain ⟨rfl, rfl⟩ : row = r ∧ o = o' := by simpa [hi] using hi'
  rw [← slot]
  exact completes_owes hi g (hf.free _) (by rw [slot]; decide) (hf.issues s) h lat (by rw [slot]; rfl) (scalarOp_ok h)

/-- The word of every operation that R119 to R122 and R124 to R126 name satisfies its rule. -/
theorem scalarRule_computes {i : Instr} {a b x : Word} {k : Nat} {P : Word → Prop} (h : scalarRule i a b x = some (k, P)) :
    ∃ f, Computes i k f ∧ P (f a b x) := by
  have amount : x.toNat % 256 % 128 < 128 := Nat.mod_lt _ (by decide)
  cases i
  case add => cases h; refine ⟨_, {}, ?_⟩; exact BitVec.add_def a b
  case sub => cases h; refine ⟨_, {}, ?_⟩; exact sub_word a b
  case mul => cases h; refine ⟨_, {}, ?_⟩; exact BitVec.mul_def
  case mulh o => cases h; refine ⟨_, {}, ?_⟩; exact mulHigh_eq o.mod a b
  case and => cases h; refine ⟨_, {}, ?_⟩; exact fun _ => BitVec.getLsbD_and
  case or => cases h; refine ⟨_, {}, ?_⟩; exact fun _ => BitVec.getLsbD_or
  case xor => cases h; refine ⟨_, {}, ?_⟩; exact fun _ => BitVec.getLsbD_xor
  case andn => cases h; refine ⟨_, {}, ?_⟩; exact andn_bits a b
  case shl => cases h; refine ⟨_, {}, ?_⟩; exact shlWord_eq a b
  case shr => cases h; refine ⟨_, {}, ?_⟩; exact shrWord_eq a b
  case sra => cases h; refine ⟨_, {}, ?_⟩; exact sraWord_eq a b
  case rotl => cases h; refine ⟨_, {}, ?_⟩; exact rotlWord_eq a b
  case fshl => cases h; refine ⟨_, {}, ?_⟩; exact funnelLeft_word a b amount
  case fshr => cases h; refine ⟨_, {}, ?_⟩; exact funnelRight_word a b amount
  case clz => cases h; refine ⟨_, {}, ?_⟩; exact clz_word a
  case ctz => cases h; refine ⟨_, {}, ?_⟩; exact ctz_word a
  case popc => cases h; refine ⟨_, {}, ?_⟩; exact popc_word a
  case min o => cases h; refine ⟨_, {}, ?_⟩; exact (minWord_eq o.mod a b).1
  case max o => cases h; refine ⟨_, {}, ?_⟩; exact (minWord_eq o.mod a b).2
  case sel => cases h; refine ⟨_, {}, ?_⟩; exact rfl
  case mov => cases h; refine ⟨_, {}, ?_⟩; exact rfl
  case bfx o => cases h; refine ⟨_, {}, ?_⟩; exact fun k hk => bfxWord_bits o.mod a b x hk
  case bfi => cases h; refine ⟨_, {}, ?_⟩; exact fun k hk => bfiWord_bits a b x hk
  case sext => cases h; refine ⟨_, {}, ?_⟩; exact fun k hk => extWord_signed_bits a b hk
  case zext => cases h; refine ⟨_, {}, ?_⟩; exact fun k hk => extWord_unsigned_bits a b hk
  all_goals cases h

/-- Settles O1: each operation computes the word of its rule (`scalarRule_computes`). -/
theorem scalarIntegers : Obligations.ScalarIntegers := by
  intro i row o s c x k P hi g h rule
  obtain ⟨f, computes, holds⟩ := scalarRule_computes rule
  exact ⟨_, holds, computes.completes hi g h⟩

/-! ## Floating point (R128, R130) -/

theorem f32Of_eq (a : Word) : f32Of a = single a := by rw [f32Of, single, BitVec.toNat_setWidth]

theorem fminWord_eq (isMax : Bool) (a b : Word) :
    fminWord isMax a b = BitVec.ofNat 64 (Fmt.f32.minmax isMax (a.setWidth 32).toNat (b.setWidth 32).toNat) := by
  rw [fminWord, BitVec.toNat_setWidth, BitVec.toNat_setWidth]

/-- The integer that ICVT converts. -/
theorem intVal_word (unsigned : Bool) (a : Word) : intVal 64 unsigned a.toNat = if unsigned then (a.toNat : Int) else a.toInt := by
  rw [intVal_eq_num (by decide) unsigned a.isLt]
  cases unsigned
  · exact (toInt_eq_num (by decide) a).symm
  · rfl

/-- The word of every operation that R128 and R130 name is that of its rule. -/
theorem floatRule_computes {i : Instr} {a b x : Word} {k : Nat} {r : Word} (h : floatRule i a b x = some (k, r)) :
    ∃ f, Computes i k f ∧ f a b x = r := by
  cases i
  case fadd => cases h; refine ⟨_, {}, ?_⟩; rw [faddWord, f32Of_eq, f32Of_eq]; rfl
  case fsub => cases h; refine ⟨_, {}, ?_⟩; rw [fsubWord, f32Of_eq, f32Of_eq]; rfl
  case fmul => cases h; refine ⟨_, {}, ?_⟩; rw [fmulWord, f32Of_eq, f32Of_eq]; rfl
  case ffma => cases h; refine ⟨_, {}, ?_⟩; rw [ffmaWord, f32Of_eq, f32Of_eq, f32Of_eq]; rfl
  case fmin => cases h; refine ⟨_, {}, ?_⟩; exact fminWord_eq false a b
  case fmax => cases h; refine ⟨_, {}, ?_⟩; exact fminWord_eq true a b
  case fcvt =>
    cases h
    refine ⟨_, {}, ?_⟩
    simp only [fcvtWord, single, BitVec.toNat_setWidth]
  case icvt o =>
    cases h
    refine ⟨_, {}, ?_⟩
    simp only [icvtWord, intVal_word]
    match b.toNat with
    | 0 | 1 | 2 | 3 | 4 | 5 | 6 => rfl
    | n + 7 => rfl
  all_goals cases h

/-- Settles O3: each operation computes the value of its rule (`floatRule_computes`). -/
theorem scalarFloats : Obligations.ScalarFloats := by
  intro i row o s c x k r hi g h rule
  obtain ⟨f, computes, rfl⟩ := floatRule_computes rule
  exact computes.completes hi g h

/-! ## Quotients and flags (R67, R123, R127, R129) -/

/-- A scalar operation of variable latency leaves its destination to wait for the word that it computes. -/
theorem completes_scalarVar {i : Instr} {row : Row} {o : Op} {s : State} {c : Core} {x : Srcs} {f : Word → Word → Word → Word}
    (hi : i.info = some (row, o)) (hs : row.slot = .sc) (hl : row.lat = .var) (hf : ∀ s, issue i s = onCore (scalarOp i f) s)
    (hb : ∀ e, i.scheduleBad e = none) (g : s.core.guardHolds o = true) (h : s.core.operands i = .ok (c, x)) :
    Completes i s (s.withCore (c.awaits .sc o.dst (.value (.word (f x.a.toWord x.b.toWord x.c.toWord))))) := by
  have read := Core.operands_queues h
  have issued := scalarOp_ok (f := f) h
  rw [Core.issueResult_var hi hl, hs] at issued
  exact completes_onCore hi g (hb _) (by rw [hs]; decide) (hf s) issued read.recs read.audits

/-- An operation that writes a flag owes it at class 0. -/
theorem completes_flag {i : Instr} {row : Row} {o : Op} {s : State} {c : Core} {x : Srcs} {f : Word → Word → Word → Bool}
    (hi : i.info = some (row, o)) (hs : row.slot = .sc) (hl : row.lat = .cls 0) (hf : ∀ s, issue i s = onCore (flagResult i f) s)
    (hb : ∀ e, i.scheduleBad e = none) (g : s.core.guardHolds o = true) (h : s.core.operands i = .ok (c, x)) :
    Completes i s (s.withCore (c.owes 0 .sc o.dst (.flag (f x.a.toWord x.b.toWord x.c.toWord)))) := by
  rw [← hs]
  exact completes_owes hi g (hb _) (by rw [hs]; decide) (hf s) h hl (by rw [hs]; rfl) (flagResult_ok h)

theorem intCond_eq (code : Nat) (a b : Word) : intCond 64 code a.toNat b.toNat = compareRule code a b := by
  have same : a.toNat = b.toNat ↔ a = b := BitVec.toNat_inj
  have sign (y : Word) : sextN 64 y.toNat = y.toInt := (sextN_eq_num (by decide) y.isLt).trans (toInt_eq_num (by decide) y).symm
  have whole (y : Word) : y.toNat % 2 ^ 64 = y.toNat := Nat.mod_eq_of_lt y.isLt
  simp only [intCond, compareRule, sign, whole]
  match code with
  | 0 => simp [same]
  | 1 => simp [bne, same]
  | 2 => exact BitVec.slt_eq_decide.symm
  | 3 => exact BitVec.sle_eq_decide.symm
  | 4 => exact BitVec.ult_eq_decide.symm
  | n + 5 => exact BitVec.ule_eq_decide.symm

theorem flagTable_eq (table : Nat) (a b : Word) :
    flagTable table (a != 0) (b != 0) = table.testBit ((if a = 0 then 0 else 2) + if b = 0 then 0 else 1) := by
  by_cases ha : a = 0 <;> by_cases hb : b = 0 <;> simp [flagTable, b2n, ha, hb]

theorem floatCond_eq (code a b : Nat) : floatCond Fmt.f32 code a b = elemCondRule .f32 code a b := by
  have number (v : FVal) : decide (v ≠ .nan) = !v.isNan := by cases v <;> rfl
  have format : Fmt.of .f32 = .f32 := rfl
  simp only [floatCond, elemCondRule, FVal.cond, ElemTy.isFloat, if_true, number, format, ← Bool.not_or, Bool.not_not]

/-- Settles O2: quotients by `divWord_eq` and `remWord_eq`, conditions by `intCond_eq`, `flagTable_eq` and `floatCond_eq`. -/
theorem divisionsAndFlags : Obligations.DivisionsAndFlags := by
  refine ⟨fun o s c x g => ⟨fun h => ?_, fun h => ?_⟩, fun o s c x g => ?_⟩
  · rw [← divWord_eq]
    exact completes_scalarVar (f := fun a b _ => divWord o.mod a b) rfl rfl rfl (fun _ => rfl) (fun _ => rfl) g h
  · rw [← remWord_eq]
    exact completes_scalarVar (f := fun a b _ => remWord o.mod a b) rfl rfl rfl (fun _ => rfl) (fun _ => rfl) g h
  · intro leaves
    refine ⟨fun h => ?_, fun h => ?_, fun h => ?_⟩
    · rw [← intCond_eq]
      exact completes_flag (f := fun a b k => intCond 64 k.toNat a.toNat b.toNat) rfl rfl rfl (fun _ => rfl) (fun _ => rfl) g h
    · rw [← flagTable_eq]
      exact completes_flag (f := fun a b t => flagTable t.toNat (a != 0) (b != 0)) rfl rfl rfl (fun _ => rfl) (fun _ => rfl) g h
    · rw [← floatCond_eq, BitVec.toNat_setWidth, BitVec.toNat_setWidth]
      exact completes_flag (f := fun a b k => floatCond Fmt.f32 k.toNat (a.toNat % 2 ^ 32) (b.toNat % 2 ^ 32)) rfl rfl rfl
        (fun _ => rfl) (fun _ => rfl) g h

/-! ## Address patterns (R18, R131) -/

/-- The three words of a pattern, the highest first. -/
theorem toNat_pattern (w2 w1 w0 : Word) : (w2 ++ w1 ++ w0).toNat = (w2.toNat * 2 ^ 64 + w1.toNat) * 2 ^ 64 + w0.toNat := by
  have join {n : Nat} (u : BitVec n) (v : Word) : (u ++ v).toNat = u.toNat * 2 ^ 64 + v.toNat := by
    rw [BitVec.toNat_append, Nat.shiftLeft_eq, Nat.mul_comm, Nat.two_pow_add_eq_or_of_lt v.isLt]
  rw [join, join]

theorem apLegal_iff (w2 w1 w0 : Word) : apLegal (w2 ++ w1 ++ w0) = true ↔
    w0.toNat / 2 ^ 20 % 2 ^ 4 ≤ 8 ∧ w0.toNat / 2 ^ 44 = 0 ∧ w2.toNat / 2 ^ 56 = 0 := by
  have high := w2.isLt
  have middle := w1.isLt
  have low := w0.isLt
  simp only [apLegal, bits, apEsize_eq, toNat_pattern, Bool.and_eq_true, beq_iff_eq, decide_eq_true_eq]
  omega

theorem info_apset (o : Op) : (Instr.apset o).info = some (.sc 0x30 .ap .sa .sa .sa, o) := rfl
theorem info_apget (o : Op) : (Instr.apget o).info = some (.sc 0x31 .sd .ap (.k 0 2) .none, o) := rfl

section
variable {o : Op} {c d : Core} {x : Srcs}

theorem issueApset_legal (h : c.operands (.apset o) = .ok (d, x)) (hl : apLegal (x.c.toWord ++ x.b.toWord ++ x.a.toWord) = true) :
    issueApset o c = .ok (d.issueResult (.apset o) (.vec ((x.c.toWord ++ x.b.toWord ++ x.a.toWord).setWidth 2048))) := by
  simp only [issueApset, h, bind, Except.bind, hl, if_true]

theorem issueApset_illegal (h : c.operands (.apset o) = .ok (d, x))
    (hl : apLegal (x.c.toWord ++ x.b.toWord ++ x.a.toWord) = false) : issueApset o c = .error (.wordTrap 0x02) := by
  simp only [issueApset, h, bind, Except.bind, hl, Bool.false_eq_true, if_false]

theorem issueApget_ok (h : c.operands (.apget o) = .ok (d, x)) {n : Fin 8} (hn : o.op1 = .ap n) :
    issueApget o c = .ok (d.issueResult (.apget o) (.word ((d.aps[n] >>> (64 * x.b.toWord.toNat)).setWidth 64))) := by
  simp only [issueApget, h, bind, Except.bind, hn]

end

/-- Settles O4: the fields of a pattern are those of its words (`apLegal_iff`); an illegal one stops its operation
(`traps_issue`). -/
theorem addressPatterns : Obligations.AddressPatterns := by
  intro o s c x g
  refine ⟨fun h => ?_, fun n hn h => ?_⟩
  · intro w0 legal
    have same : apLegal (x.c.toWord ++ x.b.toWord ++ w0) = true ↔ legal := apLegal_iff ..
    refine ⟨fun hl => ?_, fun hl => ?_⟩
    · exact completes_owes (f := issueApset o) (info_apset o) g rfl nofun rfl h rfl rfl (issueApset_legal h (same.2 hl))
    · exact traps_issue (info_apset o) g rfl nofun rfl rfl (issueApset_illegal h (Bool.eq_false_iff.2 (mt same.1 hl))) .word
        (by decide)
  · refine ⟨_, fun k hk => ?_, completes_owes (f := issueApget o) (info_apget o) g rfl nofun rfl h rfl rfl (issueApget_ok h hn)⟩
    rw [BitVec.getLsbD_setWidth, BitVec.getLsbD_ushiftRight, decide_eq_true hk, Bool.true_and]

end Sys2Proof.Machine
end

section
/-! PROOF. Loop ends and pre-emption points (R106, R108, R287). -/
namespace Sys2Proof.Machine

/-! ## The levels that end at an address, innermost first -/

section
variable {addr : Word} {l : Level} {ls : List Level}

/-- An innermost level that ends elsewhere stops the processing. -/
theorem loopEnd_other (h : ∀ y, ls.head? = some y → y.fin ≠ addr) : loopEnd addr ls = (ls, none, 0) := by
  cases ls with
  | nil => rfl
  | cons y ls => rw [loopEnd, if_pos (h y rfl)]

/-- A level whose count is not reached branches back. -/
theorem loopEnd_again (hf : l.fin = addr) (hc : l.index.toNat + 1 < l.count.toNat) :
    loopEnd addr (l :: ls) = ({ l with index := l.index + 1 } :: ls, some l.start, 1) := by
  rw [loopEnd, if_neg (not_not.2 hf), if_pos hc]

/-- A level whose count is reached is popped, and the next one out is looked at. -/
theorem loopEnd_popped (hf : l.fin = addr) (hc : l.count.toNat ≤ l.index.toNat + 1) : loopEnd addr (l :: ls) =
    ((loopEnd addr ls).1, (loopEnd addr ls).2.1, (loopEnd addr ls).2.2 + 1) := by
  rw [loopEnd, if_neg (not_not.2 hf), if_neg (Nat.not_lt.2 hc)]

end

/-- The iteration boundary of level r, counted from the innermost, passes at an address: the level ends there, and every level within it
does so with its count reached. -/
def PassesFrom (addr : Word) (ls : List Level) (r : Nat) : Prop :=
  (∃ y, ls[r]? = some y ∧ y.fin = addr) ∧ ∀ j y, j < r → ls[j]? = some y → y.fin = addr ∧ y.count.toNat ≤ y.index.toNat + 1

/-- The levels processed are those whose iteration boundary passes. -/
theorem passesFrom_iff (addr : Word) (ls : List Level) (r : Nat) : PassesFrom addr ls r ↔ r < (loopEnd addr ls).2.2 := by
  induction ls generalizing r with
  | nil => simp [PassesFrom, loopEnd]
  | cons l ls ih =>
    by_cases hf : l.fin = addr
    · by_cases hc : l.index.toNat + 1 < l.count.toNat
      · rw [loopEnd_again hf hc]
        refine ⟨fun ⟨_, within⟩ => ?_, fun hr => ?_⟩
        · by_contra hr
          have := (within 0 l (Nat.pos_of_ne_zero (by simpa using hr)) rfl).2
          omega
        · obtain rfl : r = 0 := by simpa using hr
          exact ⟨⟨l, rfl, hf⟩, nofun⟩
      · have popped := Nat.le_of_not_lt hc
        rw [loopEnd_popped hf popped]
        cases r with
        | zero => simp [PassesFrom, hf]
        | succ r =>
          rw [Nat.add_lt_add_iff_right, ← ih r]
          refine and_congr Iff.rfl ⟨fun within j y hj hy => within (j + 1) y (by omega) hy, fun within j y hj hy => ?_⟩
          cases j with
          | zero => cases hy; exact ⟨hf, popped⟩
          | succ j => exact within j y (by omega) hy
    · rw [loopEnd_other (by simpa using hf)]
      refine ⟨fun ⟨⟨y, hy, hfin⟩, within⟩ => ?_, nofun⟩
      cases r with
      | zero => cases hy; exact absurd hfin hf
      | succ r => exact absurd (within 0 l (by omega) rfl).1 hf

theorem loopEnd_count_le (addr : Word) (ls : List Level) : (loopEnd addr ls).2.2 ≤ ls.length := by
  by_contra h
  obtain ⟨⟨y, hy, -⟩, -⟩ := (passesFrom_iff addr ls ls.length).2 (Nat.lt_of_not_le h)
  simp at hy

/-! ## Going on in sequence -/

section
variable {c : Core} {pc : Word} {yields : Bool}

theorem Core.advance_loops : (c.advance pc yields).loops = (loopEnd pc c.loops.reverse).1.reverse := rfl

theorem Core.advance_pc : (c.advance pc yields).pc = (loopEnd pc c.loops.reverse).2.1.getD (pc + 64) := rfl

/-- The outermost level processed decides, for the boundaries of the levels within it pass too. -/
theorem Core.advance_point : (c.advance pc yields).point = true ↔
    (yields = true ∨ ∃ r, PassesFrom pc c.loops.reverse r ∧ c.loops.length - 1 - r ≤ c.kernel.plevel ∧ c.kernel.plevel ≠ 7) ∧
      c.pointTaken = true := by
  have count := loopEnd_count_le pc c.loops.reverse
  have point : (c.advance pc yields).point = ((yields || match (if (loopEnd pc c.loops.reverse).2.2 = 0 then none else
      some (c.loops.length - (loopEnd pc c.loops.reverse).2.2)) with
    | some k => decide (k ≤ c.kernel.plevel) && c.kernel.plevel != 7
    | none => false) && c.pointTaken) := rfl
  rw [point]
  simp only [passesFrom_iff]
  generalize (loopEnd pc c.loops.reverse).2.2 = n at count
  rw [List.length_reverse] at count
  simp only [Bool.and_eq_true, Bool.or_eq_true]
  refine and_congr_left fun _ => or_congr_right ?_
  by_cases none : n = 0
  · simp [none]
  · simp only [none, if_false, Bool.and_eq_true, decide_eq_true_eq, bne_iff_ne]
    constructor
    · rintro ⟨outermost, allowed⟩
      exact ⟨n - 1, by omega, by omega, allowed⟩
    · rintro ⟨r, hr, level, allowed⟩
      exact ⟨by omega, allowed⟩

end

/-- A level counted from the outermost and from the innermost. -/
theorem passesFrom_reverse {addr : Word} {ls : List Level} {k : Nat} (hk : k < ls.length) :
    PassesFrom addr ls.reverse (ls.length - 1 - k) ↔ (∃ y, ls[k]? = some y ∧ y.fin = addr) ∧
      ∀ j y, k < j → ls[j]? = some y → y.fin = addr ∧ y.count.toNat ≤ y.index.toNat + 1 := by
  have turned (j : Nat) (hj : j < ls.length) : ls.reverse[ls.length - 1 - j]? = ls[j]? := by
    rw [List.getElem?_reverse (by omega)]
    congr 1
    omega
  rw [PassesFrom, turned k hk]
  refine and_congr Iff.rfl ⟨fun within j y hj hy => ?_, fun within j y hj hy => ?_⟩
  · have inside := (List.getElem?_eq_some_iff.1 hy).1
    exact within (ls.length - 1 - j) y (by omega) ((turned j inside).trans hy)
  · have inside : j < ls.length := by omega
    rw [List.getElem?_reverse inside] at hy
    exact within _ y (by omega) hy

/-- Settles O27: the cases of `loopEnd`, and a point where the boundary of the outermost level processed may be one
(`Core.advance_point`). -/
theorem loopEnds : Obligations.LoopEnds := by
  intro c pc yields outer l d
  refine ⟨fun h => ?_, fun hl hf hc => ?_, fun hl hf hc => ?_, rfl, ?_⟩
  · have other := loopEnd_other (addr := pc) (ls := c.loops.reverse) (by simpa using h)
    simp only [d, Core.advance_loops, Core.advance_pc, other, List.reverse_reverse, Option.getD_none, and_self]
  · have reversed : c.loops.reverse = l :: outer.reverse := by simp [hl]
    simp only [d, Core.advance_loops, Core.advance_pc, reversed, loopEnd_again hf hc, List.reverse_cons, List.reverse_reverse,
      Option.getD_some, and_self]
  · have reversed : c.loops.reverse = l :: outer.reverse := by simp [hl]
    simp only [d, Core.advance_loops, Core.advance_pc, reversed, loopEnd_popped hf hc, and_self]
  · intro passes
    have levels : (∃ k, passes k ∧ k ≤ c.kernel.plevel ∧ c.kernel.plevel ≠ 7) ↔
        ∃ r, PassesFrom pc c.loops.reverse r ∧ c.loops.length - 1 - r ≤ c.kernel.plevel ∧ c.kernel.plevel ≠ 7 := by
      constructor
      · rintro ⟨k, hk, level⟩
        obtain ⟨y, hy, -⟩ := hk.1
        have inside := (List.getElem?_eq_some_iff.1 hy).1
        refine ⟨c.loops.length - 1 - k, (passesFrom_reverse inside).2 hk, ?_⟩
        rwa [show c.loops.length - 1 - (c.loops.length - 1 - k) = k by omega]
      · rintro ⟨r, hr, level⟩
        obtain ⟨y, hy, -⟩ := hr.1
        have inside : r < c.loops.length := by simpa using (List.getElem?_eq_some_iff.1 hy).1
        have back : c.loops.length - 1 - (c.loops.length - 1 - r) = r := by omega
        exact ⟨c.loops.length - 1 - r, (passesFrom_reverse (by omega)).1 (back.symm ▸ hr), level⟩
    rw [levels, Core.advance_point]
    simp [Core.pointTaken, and_assoc]

end Sys2Proof.Machine
end

section
/-! PROOF. The actions of BR operations, one equation each, and the operations that leave them (R101 to R110, R114, R115). -/
namespace Sys2Proof.Machine

/-! ## The actions -/

/-- A core whose action is taken from it, with no point offered. -/
def Core.cleared (c : Core) : Core := { c with act := .none, point := false }

@[simp] theorem Core.cleared_loops (c : Core) : c.cleared.loops = c.loops := rfl

section
variable {c : Core} (addr : Word)

theorem Core.perform_yield (h : c.act = .yield) : c.perform addr = .ok (c.goesOn addr true) := by
  simp only [Core.perform, h, Core.goesOn]

theorem Core.perform_icinv (h : c.act = .icinv) : c.perform addr = .ok (c.goesOn addr false) := by
  simp only [Core.perform, h, Core.goesOn]

theorem checkTarget_aligned {t : Word} (ha : t.toNat % 64 = 0) : checkTarget t = .ok () := if_pos ha

theorem checkTarget_misaligned {t : Word} (ha : t.toNat % 64 ≠ 0) : checkTarget t = .error (.trap 0x0B t) := if_neg ha

theorem Core.perform_jump {t : Word} {unwinds : Bool} (h : c.act = .jump t unwinds) (ha : t.toNat % 64 = 0) :
    c.perform addr = .ok (c.goesTo t (if unwinds then c.loops.filter (·.holds t) else c.loops)) := by
  simp only [Core.perform, h, checkTarget_aligned ha, bind, Except.bind, Core.goesTo]

theorem Core.perform_jump_misaligned {t : Word} {unwinds : Bool} (h : c.act = .jump t unwinds) (ha : t.toNat % 64 ≠ 0) :
    c.perform addr = .error (.trap 0x0B t) := by
  simp only [Core.perform, h, checkTarget_misaligned ha, bind, Except.bind]

theorem Core.perform_call {t : Word} (h : c.act = .call t) (ha : t.toNat % 64 = 0) :
    c.perform addr = .ok { c.goesOn addr false with pc := t } := by
  simp only [Core.perform, h, checkTarget_aligned ha, bind, Except.bind, Core.goesOn]

theorem Core.perform_call_misaligned {t : Word} (h : c.act = .call t) (ha : t.toNat % 64 ≠ 0) :
    c.perform addr = .error (.trap 0x0B t) := by
  simp only [Core.perform, h, checkTarget_misaligned ha, bind, Except.bind]

theorem Core.perform_loop {count : BitVec 32} {fin : Word} (h : c.act = .loop count fin) :
    c.perform addr = c.cleared.pushLoop addr count fin := by
  simp only [Core.perform, h, Core.cleared]

theorem Core.perform_lbrk {outer inner : List Level} {l : Level} {n : Nat} (h : c.act = .lbrk n) (hl : c.loops = outer ++ l :: inner)
    (hn : n = inner.length + 1) : c.perform addr = .ok (c.goesTo (l.fin + 64) outer) := by
  have left : c.loops.length - n = outer.length := by rw [hl, List.length_append, List.length_cons]; omega
  have enough : ¬c.loops.length < n := by rw [hl, List.length_append, List.length_cons]; omega
  have last : c.loops[outer.length]? = some l := by simp [hl]
  have kept : c.loops.take outer.length = outer := by simp [hl]
  simp only [Core.perform, h, enough, if_false, left, last, kept, Core.goesTo]

theorem Core.perform_lbrk_short {n : Nat} (h : c.act = .lbrk n) (hn : c.loops.length < n) :
    c.perform addr = .error (.wordTrap 0x05) := by
  simp only [Core.perform, h, hn, if_true]

theorem Core.perform_raise {cause : Nat} {info : Word} (h : c.act = .raise cause info) :
    c.perform addr = .ok { c.goesOn addr false with raised := some ⟨cause, false, 0, info⟩, point := false } := by
  simp only [Core.perform, h, Core.goesOn]

theorem Core.perform_exit (h : c.act = .exit) : c.perform addr = .ok { c.goesTo (addr + 64) c.loops with run := .exiting } := by
  simp only [Core.perform, h, Core.goesTo]

theorem Core.perform_halt (h : c.act = .halt) : c.perform addr = .ok { c.goesTo (addr + 64) c.loops with run := .halting } := by
  simp only [Core.perform, h, Core.goesTo]

theorem Core.perform_tret (h : c.act = .tret) (ht : c.intrap = true) :
    c.perform addr = .ok c.cleared.returnTrap := by
  simp only [Core.perform, h, ht, if_true, Core.cleared]

theorem Core.perform_tret_outside (h : c.act = .tret) (ht : c.intrap = false) : c.perform addr = .error (.wordTrap 0x05) := by
  simp only [Core.perform, h, ht, Bool.false_eq_true, if_false]

end

/-! ### The tests of LOOP in their order (R105) -/

/-- Does a loop that ends at an address reach beyond the innermost level, or does that level end at the bundle itself (R105)? -/
def Core.beyond (c : Core) (addr fin : Word) : Prop := ∃ l, c.loops.getLast? = some l ∧ (l.fin.toNat < fin.toNat ∨ l.fin = addr)

section
variable {c : Core} {addr fin : Word} {count : BitVec 32}

theorem Core.pushLoop_misaligned (ha : fin.toNat % 64 ≠ 0) : c.pushLoop addr count fin = .error (.trap 0x0B fin) := if_pos ha

/-- A body that ends before it begins, or beyond the level around it, is refused. -/
theorem Core.pushLoop_wrong (ha : fin.toNat % 64 = 0) (hw : fin.toNat < addr.toNat + 64 ∨ c.beyond addr fin) :
    c.pushLoop addr count fin = .error (.wordTrap 0x05) := by
  unfold Core.beyond at hw
  cases hl : c.loops.getLast? with
  | none =>
    have short : fin.toNat < addr.toNat + 64 := by simpa [hl] using hw
    simp [Core.pushLoop, ha, hl, short]
  | some l =>
    have refused : fin.toNat < addr.toNat + 64 ∨ l.fin.toNat < fin.toNat ∨ l.fin = addr := by simpa [hl] using hw
    simp [Core.pushLoop, ha, hl, refused]

/-- A body that fits is passed over, or its level pushed where there is room. -/
theorem Core.pushLoop_fits (ha : fin.toNat % 64 = 0) (hw : ¬(fin.toNat < addr.toNat + 64 ∨ c.beyond addr fin)) :
    c.pushLoop addr count fin = if count = 0 then .ok { c with pc := fin + 64 }
      else if 6 ≤ c.loops.length then .error (.trap 0x0E (count.setWidth 64))
      else .ok { c with loops := c.loops ++ [⟨addr + 64, fin, count, 0⟩], pc := addr + 64 } := by
  unfold Core.beyond at hw
  cases hl : c.loops.getLast? with
  | none =>
    have fits : ¬fin.toNat < addr.toNat + 64 := by simpa [hl] using hw
    simp only [Core.pushLoop, ha, hl, fits, ne_eq, not_true, decide_false, Bool.or_false, Bool.false_eq_true, if_false]
  | some l =>
    have fits : ¬(fin.toNat < addr.toNat + 64 ∨ l.fin.toNat < fin.toNat ∨ l.fin = addr) := by simpa [hl] using hw
    simp only [not_or] at fits
    simp [Core.pushLoop, ha, hl, fits]

end

/-! ## The operations -/

/-- Does an action touch the core alone? -/
def BrAction.onCore : BrAction → Bool
  | .bar _ | .bara _ | .fence _ => false
  | _ => true

theorem State.performBr_onCore {s : State} (h : s.core.act.onCore = true) (addr : Word) :
    s.performBr addr = onCore (fun c => c.perform addr) s := by
  unfold State.performBr
  split
  case h_1 e | h_2 e | h_3 e => rw [e] at h; cases h
  case h_4 => rfl

theorem onCore_of_ok {f : Core → Res Core} {s : State} {d : Core} (hf : f s.core = .ok d) : onCore f s = .ok (s.withCore d) := by
  simp only [onCore, liftRes, hf, bind, Except.bind, State.withCore]

/-- An operation of the BR slot that touches its core alone at its issue. -/
structure BrOp (i : Instr) (o : Op) (f : Core → Res Core) : Prop where
  issues : ∀ s, issue i s = onCore f s := by intro; rfl
  row : ∃ r, i.info = some (r, o) ∧ r.slot = .br := by exact ⟨_, rfl, rfl⟩
  free : ∀ e, i.scheduleBad e = none := by intro; rfl

section
variable {i : Instr} {o : Op} {s : State} {c d : Core} {x : Srcs} {f : Core → Res Core} (hop : BrOp i o f)
  (g : s.core.guardHolds o = true)
include hop g

/-- An operation whose issue leaves the core c completes as the action left there does. -/
theorem BrOp.completes (issued : f s.core.atBranch = .ok c) (plain : c.act.onCore = true)
    (hp : c.perform s.core.bundleAddr = .ok d) (hr : d.recs = s.core.recs) (ha : d.audits = s.core.audits) :
    Completes i s (s.withCore d) := by
  obtain ⟨r, hi, hs⟩ := hop.row
  have other {a : BrAction} (h : a.onCore = false) : c.act ≠ a := fun e => by rw [e, h] at plain; cases plain
  exact completes_branch hi g (hop.free _) hs hop.issues issued (fun _ => other rfl) (fun _ => other rfl) (fun _ => other rfl)
    hp hr ha

/-- It traps as that action does. -/
theorem BrOp.traps (issued : f s.core.atBranch = .ok c) (plain : c.act.onCore = true) {e : Stop} {cause : Nat} {info : Word}
    (hp : c.perform s.core.bundleAddr = .error e) (he : e.IsTrap i cause info) (hc : cause ≠ 0x0C) : TrapsWith i s 0 cause info := by
  obtain ⟨r, hi, hs⟩ := hop.row
  have left : issue i (s.withCore s.core.atBranch) = .ok (s.withCore c) := (hop.issues _).trans (onCore_of_ok issued)
  have stop : (s.withCore c).performBr s.core.bundleAddr = .error (e, none) := by
    rw [State.performBr_onCore plain]
    exact onCore_error hp
  exact traps_action hi g (hop.free _) hs left stop he hc

/-- It traps at its issue. -/
theorem BrOp.refuses {e : Stop} {cause : Nat} {info : Word} (stop : f s.core.atBranch = .error e) (he : e.IsTrap i cause info)
    (hc : cause ≠ 0x0C) : TrapsWith i s 0 cause info := by
  obtain ⟨r, hi, hs⟩ := hop.row
  exact traps_issueBr hi g (hop.free _) hs ((hop.issues _).trans (onCore_error stop)) he hc

end

theorem Core.QueuesOnly.bundleAddr {c d : Core} (h : c.QueuesOnly d) : d.bundleAddr = c.bundleAddr := by rw [h]; rfl

section
variable {i : Instr} {c d : Core} {x : Srcs} {f : Word → Word → Core → BrAction} (h : c.operands i = .ok (d, x))
include h

/-- With no region open an operation that R238 forbids in one leaves its action. -/
theorem brActOutside_closed (hr : d.arr.region = none) : brActOutside i f c = .ok { d with act := f x.a.toWord x.b.toWord d } := by
  simp only [brActOutside, h, Core.outsideRegion, hr, Option.isSome_none, Bool.false_eq_true, if_false, bind, Except.bind]

theorem brActOutside_open {r : Region} (hr : d.arr.region = some r) : brActOutside i f c = .error (.wordTrap 0x05) := by
  simp only [brActOutside, h, Core.outsideRegion, hr, Option.isSome_some, if_true, bind, Except.bind]

end

end Sys2Proof.Machine
end

section
/-! PROOF. The obligations on branches, calls, loops and the operations that end a kernel or a handler. -/
namespace Sys2Proof.Machine

/-! ## Branches (R102, R104) -/

section
variable {i : Instr} {o : Op} {s : State} {c : Core} {x : Srcs} {f : Core → Res Core} {taken : Bool} {offset : Word}

/-- An operation that leaves a branch to an offset from its bundle. -/
theorem branches_of (hop : BrOp i o f) (g : s.core.guardHolds o = true) (h : s.core.atBranch.operands i = .ok (c, x))
    (issued : f s.core.atBranch = .ok { c with act := branch taken offset c }) :
    let pc := s.core.bundleAddr
    let t := pc + offset
    (taken = true → t.toNat % 64 = 0 →
      Completes i s (s.withCore (c.goesTo t (c.loops.filter fun l => l.start.toNat ≤ t.toNat && t.toNat ≤ l.fin.toNat)))) ∧
    (taken = true → t.toNat % 64 ≠ 0 → TrapsWith i s 0 0x0B t) ∧
    (taken = false → Completes i s (s.withCore (c.goesOn pc false))) := by
  have read := Core.operands_queues h
  have place : c.bundleAddr = s.core.bundleAddr := read.bundleAddr
  rw [branch, place] at issued
  refine ⟨fun ht ha => ?_, fun ht ha => ?_, fun ht => ?_⟩
  · rw [ht, if_pos rfl] at issued
    exact hop.completes g issued rfl (Core.perform_jump (unwinds := true) _ rfl ha) read.recs read.audits
  · rw [ht, if_pos rfl] at issued
    exact hop.traps g issued rfl (Core.perform_jump_misaligned _ rfl ha) (.given _) (by decide)
  · rw [ht, if_neg Bool.false_ne_true] at issued
    exact hop.completes g issued rfl (Core.perform_none rfl _) read.recs read.audits

end

/-- Settles O26: each branch leaves the action of `branch` (`branches_of`). -/
theorem branches : Obligations.Branches := by
  intro o s c x i taken offset g h
  dsimp only
  rintro (e | e | e | e | e) <;> cases e
  · exact branches_of (f := issueBra o) {} g h (brAct_ok h)
  · exact branches_of (f := issueBrc o) {} g h (brAct_ok h)
  · exact branches_of (f := issueBrcZ o) {} g h (brAct_ok h)
  · exact branches_of (f := issueBrq o) {} g h (brAct_ok h)
  · exact branches_of (f := issueBrqN o) {} g h (brAct_ok h)

/-! ## Calls and loops (R103, R105, R107) -/

section
variable {o : Op} {s : State} {c d : Core} {x : Srcs}

theorem info_call (o : Op) : (Instr.call o).info = some (.br 0x04 .sd .sa .none .none .none (.cls 0), o) := rfl

/-- CALL owes the address that would run next, and leaves its target. -/
theorem issueCall_ok (h : c.operands (.call o) = .ok (d, x)) : issueCall o c =
    .ok { d.owes 0 .br o.dst (.word (d.goesOn d.bundleAddr false).pc) with act := .call (d.bundleAddr + x.a.toWord) } := by
  simp only [issueCall, h, bind, Except.bind, Core.issueResult_fixed (info_call o) 0 rfl (crossStream_br _)]
  rfl

section
variable (g : s.core.guardHolds o = true)
include g

theorem call_spec (h : s.core.atBranch.operands (.call o) = .ok (c, x)) :
    let pc := s.core.bundleAddr
    let a := x.a.toWord
    let d := (c.owes 0 .br o.dst (.word (c.goesOn pc false).pc)).goesOn pc false
    ((pc + a).toNat % 64 = 0 → Completes (.call o) s (s.withCore { d with pc := pc + a })) ∧
    ((pc + a).toNat % 64 ≠ 0 → TrapsWith (.call o) s 0 0x0B (pc + a)) := by
  have hop : BrOp (.call o) o (issueCall o) := {}
  have read := Core.operands_queues h
  have issued := issueCall_ok h
  have place : c.bundleAddr = s.core.bundleAddr := read.bundleAddr
  rw [place] at issued
  exact ⟨fun ha => hop.completes g issued rfl (Core.perform_call _ rfl ha) read.recs read.audits,
    fun ha => hop.traps g issued rfl (Core.perform_call_misaligned _ rfl ha) (.given _) (by decide)⟩

theorem ret_spec (h : s.core.atBranch.operands (.ret o) = .ok (c, x)) :
    let a := x.a.toWord
    (a.toNat % 64 = 0 → Completes (.ret o) s (s.withCore (c.goesTo a c.loops))) ∧
    (a.toNat % 64 ≠ 0 → TrapsWith (.ret o) s 0 0x0B a) := by
  have hop : BrOp (.ret o) o (issueRet o) := {}
  have read := Core.operands_queues h
  exact ⟨fun ha => hop.completes g (brAct_ok h) rfl (Core.perform_jump (unwinds := false) _ rfl ha) read.recs read.audits,
    fun ha => hop.traps g (brAct_ok h) rfl (Core.perform_jump_misaligned _ rfl ha) (.given _) (by decide)⟩

theorem loop_spec (h : s.core.atBranch.operands (.loop o) = .ok (c, x)) :
    let pc := s.core.bundleAddr
    let count := x.a.toWord.setWidth 32
    let fin := pc + x.b.toWord
    let wrong : Prop := fin.toNat < pc.toNat + 64 ∨ c.beyond pc fin
    (fin.toNat % 64 ≠ 0 → TrapsWith (.loop o) s 0 0x0B fin) ∧
    (fin.toNat % 64 = 0 → wrong → TrapsWith (.loop o) s 0 0x05 (Instr.slotWord (.loop o))) ∧
    (fin.toNat % 64 = 0 → ¬wrong →
      (count = 0 → Completes (.loop o) s (s.withCore (c.goesTo (fin + 64) c.loops))) ∧
      (count ≠ 0 → 6 ≤ c.loops.length → TrapsWith (.loop o) s 0 0x0E (count.setWidth 64)) ∧
      (count ≠ 0 → c.loops.length < 6 →
        Completes (.loop o) s (s.withCore (c.goesTo (pc + 64) (c.loops ++ [⟨pc + 64, fin, count, 0⟩]))))) := by
  intro pc count fin wrong
  have hop : BrOp (.loop o) o (issueLoop o) := {}
  have read := Core.operands_queues h
  have place : c.bundleAddr = pc := read.bundleAddr
  have issued : issueLoop o s.core.atBranch = .ok { c with act := .loop count (c.bundleAddr + x.b.toWord) } := brAct_ok h
  rw [place] at issued
  have tests : ({ c with act := .loop count fin } : Core).perform pc = c.cleared.pushLoop pc count fin := Core.perform_loop pc rfl
  refine ⟨fun ha => ?_, fun ha hw => ?_, fun ha hw => ⟨fun hc => ?_, fun hc hl => ?_, fun hc hl => ?_⟩⟩
  · exact hop.traps g issued rfl (tests.trans (Core.pushLoop_misaligned ha)) (.given _) (by decide)
  · exact hop.traps g issued rfl (tests.trans (Core.pushLoop_wrong ha hw)) .word (by decide)
  · rw [Core.pushLoop_fits (c := c.cleared) ha hw, if_pos hc] at tests
    exact hop.completes g issued rfl tests read.recs read.audits
  · rw [Core.pushLoop_fits (c := c.cleared) ha hw, if_neg hc, Core.cleared_loops, if_pos hl] at tests
    exact hop.traps g issued rfl tests (.given _) (by decide)
  · rw [Core.pushLoop_fits (c := c.cleared) ha hw, if_neg hc, Core.cleared_loops, if_neg (Nat.not_le.2 hl)] at tests
    exact hop.completes g issued rfl tests read.recs read.audits

theorem lbrk_spec (h : s.core.atBranch.operands (.lbrk o) = .ok (c, x)) :
    let a := x.a.toWord
    (∀ (outer inner : List Level) (l : Level), c.loops = outer ++ l :: inner → a.toNat = inner.length + 1 →
      Completes (.lbrk o) s (s.withCore (c.goesTo (l.fin + 64) outer))) ∧
    (c.loops.length < a.toNat → TrapsWith (.lbrk o) s 0 0x05 (Instr.slotWord (.lbrk o))) := by
  have hop : BrOp (.lbrk o) o (issueLbrk o) := {}
  have read := Core.operands_queues h
  exact ⟨fun outer inner l hl hn => hop.completes g (brAct_ok h) rfl (Core.perform_lbrk _ rfl hl hn) read.recs read.audits,
    fun hn => hop.traps g (brAct_ok h) rfl (Core.perform_lbrk_short _ rfl hn) .word (by decide)⟩

end

/-- Settles O28, operation by operation. -/
theorem callsAndLoops : Obligations.CallsAndLoops :=
  fun _ _ _ _ g => ⟨call_spec g, ret_spec g, loop_spec g, lbrk_spec g⟩

/-! ## Endings and the return from a trap (R108 to R110, R114, R115, R117, R238) -/

section
variable (g : s.core.guardHolds o = true)
include g

/-- An operation that leaves an action whatever is open. -/
theorem ends_of {i : Instr} {f : Core → Res Core} {a : BrAction} (hop : BrOp i o f) (h : s.core.atBranch.operands i = .ok (c, x))
    (issued : f s.core.atBranch = .ok { c with act := a }) (plain : a.onCore = true)
    (hp : ({ c with act := a } : Core).perform s.core.bundleAddr = .ok d) (hr : d.recs = c.recs) (ha : d.audits = c.audits) :
    Completes i s (s.withCore d) := by
  have read := Core.operands_queues h
  exact hop.completes g issued plain hp (hr.trans read.recs) (ha.trans read.audits)

/-- An operation that R238 forbids in a region traps there. -/
theorem traps_inRegion {i : Instr} {f : Word → Word → Core → BrAction} (hop : BrOp i o (brActOutside i f))
    (h : s.core.atBranch.operands i = .ok (c, x)) {r : Region} (hr : c.arr.region = some r) :
    TrapsWith i s 0 0x05 (Instr.slotWord i) :=
  hop.refuses g (brActOutside_open h hr) .word (by decide)

end

theorem tlsDepth_prefix {live rest : List Level} (hl : ∀ l ∈ live, l.count ≠ 0) (hr : ∀ l, rest.head? = some l → l.count = 0) :
    tlsDepth (live ++ rest) = live := by
  induction live with
  | nil =>
    cases rest with
    | nil => rfl
    | cons l rest => exact if_pos (hr l rfl)
  | cons l live ih =>
    obtain ⟨first, others⟩ := List.forall_mem_cons.1 hl
    rw [List.cons_append, tlsDepth, if_neg first, ih others]

/-- Settles O29: each operation by its action, TRET by `tlsDepth_prefix`. -/
theorem endingsAndReturn : Obligations.EndingsAndReturn := by
  refine ⟨fun o s c x g => ?_, fun o s c x g h => ⟨fun outside => ?_, fun inside => ?_⟩⟩
  · intro pc leaves closed
    refine ⟨fun h _ => ?_, fun h _ => ?_, fun h hc => ?_, fun h hc => ?_, fun h hc => ?_, fun h hc => ?_, ?_⟩
    · exact ends_of (f := issueYield o) g {} h (brAct_ok h) rfl (Core.perform_yield _ rfl) rfl rfl
    · exact ends_of (f := issueIcinv o) g {} h (brAct_ok h) rfl (Core.perform_icinv _ rfl) rfl rfl
    · exact ends_of (f := issueTrap o) g {} h (brActOutside_closed h hc) rfl (Core.perform_raise _ rfl) rfl rfl
    · exact ends_of (f := issueBkpt o) g {} h (brActOutside_closed h hc) rfl (Core.perform_raise _ rfl) rfl rfl
    · exact ends_of (f := issueExit o) g {} h (brActOutside_closed h hc) rfl (Core.perform_exit _ rfl) rfl rfl
    · exact ends_of (f := issueHalt o) g {} h (brActOutside_closed h hc) rfl (Core.perform_halt _ rfl) rfl rfl
    · rintro ⟨r, hr⟩ i (rfl | rfl | rfl | rfl) h
      · exact traps_inRegion g {} h hr
      · exact traps_inRegion g {} h hr
      · exact traps_inRegion g {} h hr
      · exact traps_inRegion g {} h hr
  · have hop : BrOp (.tret o) o (issueTret o) := {}
    have read := Core.operands_queues h
    have handler : c.intrap = s.core.intrap := by rw [read]; rfl
    exact hop.traps g (brAct_ok h) rfl (Core.perform_tret_outside _ rfl (handler.trans outside)) .word (by decide)
  · have read := Core.operands_queues h
    have handler : c.intrap = s.core.intrap := by rw [read]; rfl
    refine ⟨c.cleared.returnTrap,
      ends_of (f := issueTret o) g {} h (brAct_ok h) rfl (Core.perform_tret _ rfl (handler.trans inside)) rfl rfl,
      rfl, rfl, rfl, rfl, rfl, fun live rest ht hl hr => ?_, rfl⟩
    have restored : c.cleared.returnTrap.loops = tlsDepth c.tls := rfl
    rw [restored, ht, tlsDepth_prefix hl hr]

end

end Sys2Proof.Machine
end

section
/-! PROOF. Tokens as bits, and what TWAIT, TWAIT.ANY, TSTAT and FENCE leave (R111, R112, R302). -/
namespace Sys2Proof.Machine

/-! ## Sets of tokens -/

/-- The number below 2^n whose bits are those places that p picks. -/
def bitSum (p : Nat → Bool) (n : Nat) : Nat := ((List.range n).filter p).foldl (fun x k => x + 2 ^ k) 0

theorem bitSum_succ (p : Nat → Bool) (n : Nat) : bitSum p (n + 1) = bitSum p n + if p n then 2 ^ n else 0 := by
  unfold bitSum
  rw [List.range_succ, List.filter_append, List.foldl_append]
  cases hn : p n <;> simp [hn]

theorem bitSum_lt (p : Nat → Bool) (n : Nat) : bitSum p n < 2 ^ n := by
  induction n with
  | zero => exact Nat.one_pos
  | succ n ih =>
    rw [bitSum_succ, Nat.pow_succ]
    split <;> omega

theorem testBit_bitSum (p : Nat → Bool) (n j : Nat) : (bitSum p n).testBit j = (decide (j < n) && p j) := by
  induction n with
  | zero => simp [bitSum]
  | succ n ih =>
    have top : bitSum p (n + 1) = (if p n then 2 ^ n else 0) ||| bitSum p n := by
      rw [bitSum_succ, Nat.add_comm]
      split
      · have apart := Nat.two_pow_add_eq_or_of_lt (bitSum_lt p n) 1
        rwa [Nat.mul_one] at apart
      · rw [Nat.zero_add, Nat.zero_or]
    have bit : (if p n then 2 ^ n else 0).testBit j = (decide (n = j) && p j) := by
      by_cases same : n = j
      · subst same
        cases p n <;> simp
      · cases p n <;> simp [same]
    rw [top, Nat.testBit_or, bit, ih, ← Bool.and_or_distrib_right]
    congr 1
    rw [← Bool.decide_or]
    exact decide_eq_decide.2 (by omega)

section
variable (c : Core) (set : Word)

/-- A token of a set that has a state (R111). -/
def Core.named (t : Token) (k : Nat) : Bool := k != 0 && set.getLsbD k && c.token k == t

theorem Core.tokenBits_eq (t : Token) : c.tokenBits set t = bitSum (c.named set t) 32 := rfl

theorem Core.named_iff (t : Token) (k : Fin 32) :
    c.named set t k = true ↔ (k ≠ 0 ∧ set.getLsbD k = true) ∧ c.tokens[k] = t := by
  have zero : (k : Nat) = 0 ↔ k = 0 := Fin.val_eq_zero_iff
  by_cases hk : k = 0
  · simp [Core.named, hk]
  · have place : c.token k = c.tokens[k] := by simp [Core.token, zero, hk]
    simp [Core.named, place, zero, hk]

/-- Some token of the set has the state. -/
theorem Core.tokenBits_ne_zero (t : Token) :
    c.tokenBits set t ≠ 0 ↔ ∃ k : Fin 32, (k ≠ 0 ∧ set.getLsbD k = true) ∧ c.tokens[k] = t := by
  rw [Core.tokenBits_eq]
  constructor
  · intro h
    by_contra none
    refine h (Nat.eq_of_testBit_eq fun j => ?_)
    rw [testBit_bitSum, Nat.zero_testBit]
    by_cases hj : j < 32
    · have unnamed := mt (c.named_iff set t ⟨j, hj⟩).1 fun h => none ⟨_, h⟩
      simpa [hj] using unnamed
    · simp [hj]
  · rintro ⟨k, hk⟩ empty
    have bit := testBit_bitSum (c.named set t) 32 k
    rw [empty, (c.named_iff set t k).2 hk, Nat.zero_testBit, decide_eq_true k.isLt] at bit
    cases bit

/-- The result of the token operations: complete tokens in bits [31:0], failed ones above them. -/
theorem Core.tokenStatus_bits (k : Fin 32) :
    ((c.tokenStatus set).getLsbD k = true ↔ (k ≠ 0 ∧ set.getLsbD k = true) ∧ c.tokens[k] = .complete) ∧
    ((c.tokenStatus set).getLsbD (32 + k) = true ↔ (k ≠ 0 ∧ set.getLsbD k = true) ∧ c.tokens[k] = .failed) := by
  have low := bitSum_lt (c.named set .complete) 32
  have inside := k.isLt
  have status (j : Nat) (hj : j < 64) : (c.tokenStatus set).getLsbD j = if j < 32 then (bitSum (c.named set .complete) 32).testBit j
      else (bitSum (c.named set .failed) 32).testBit (j - 32) := by
    rw [Core.tokenStatus, BitVec.getLsbD_ofNat, decide_eq_true hj, Bool.true_and, Core.tokenBits_eq, Core.tokenBits_eq,
      Nat.testBit_two_pow_mul_add _ low]
  rw [status _ (by omega), status _ (by omega), if_pos inside, if_neg (by omega), Nat.add_sub_cancel_left, testBit_bitSum,
    testBit_bitSum, decide_eq_true inside, Bool.true_and, Bool.true_and]
  exact ⟨c.named_iff set _ k, c.named_iff set _ k⟩

/-- A token that is not pending shows in the result. -/
theorem Core.tokenStatus_ne_zero {k : Fin 32} (h : k ≠ 0 ∧ set.getLsbD k = true) (hk : c.tokens[k] ≠ .pending) :
    c.tokenStatus set ≠ 0#64 := by
  obtain ⟨complete, failed⟩ := c.tokenStatus_bits set k
  intro zero
  rw [zero] at complete failed
  have unset (j : Nat) : (0#64).getLsbD j = false := BitVec.getLsbD_zero
  rw [unset] at complete failed
  cases ht : c.tokens[k] with
  | complete => exact Bool.false_ne_true (complete.2 ⟨h, ht⟩)
  | pending => exact hk ht
  | failed => exact Bool.false_ne_true (failed.2 ⟨h, ht⟩)

end

/-! ## The token operations (R111) -/

/-- Does a token operation wait: for every named token, or for one of them (R111)? -/
def Core.tokensWait (c : Core) (all wait : Bool) (set : Word) : Bool :=
  wait && c.tokenBits set .pending ≠ 0 && (all || c.tokenStatus set == 0)

section
variable {i : Instr} {o : Op} {s : State} {c d : Core} {x : Srcs} {all wait : Bool}

theorem tokenAct_ok (h : c.operands i = .ok (d, x)) : tokenAct i o all wait c =
    .ok { d with act := .tokens all wait x.a.toWord (portDest o.dst) d.prodTok, prodTok := 0 } := by
  simp only [tokenAct, h, bind, Except.bind]

/-- A token operation that does not wait owes the states of its tokens, with the token of its bundle that it held back (R41). -/
theorem Core.perform_tokens (set : Word) (p : Port) (addr : Word) (hw : c.tokensWait all wait set = false) :
    ({ c with act := .tokens all wait set (portDest p) c.prodTok, prodTok := 0 } : Core).perform addr =
      .ok ((c.owes 0 .br p (.word (c.tokenStatus set))).goesOn addr false) := by
  have goes : (wait && decide (c.tokenBits set .pending ≠ 0) && (all || c.tokenStatus set == 0)) = false := hw
  have passed : ({ c with act := .tokens all wait set (portDest p) c.prodTok, prodTok := 0 } : Core).perform addr =
      if (wait && decide (c.tokenBits set .pending ≠ 0) && (all || c.tokenStatus set == 0)) = true then .error (.stall 256 false)
      else .ok (({ c.goesOn addr false with prodTok := c.prodTok } : Core).issueFixed 0 .br (portDest p)
        (.word (c.tokenStatus set))) := rfl
  rw [passed, goes, Core.issueFixed_eq]
  rfl

/-- The operations whose issue is `tokenAct`. -/
theorem completes_tokens (hop : BrOp i o (tokenAct i o all wait)) (g : s.core.guardHolds o = true)
    (h : s.core.atBranch.operands i = .ok (c, x)) (hw : c.tokensWait all wait x.a.toWord = false) :
    Completes i s (s.withCore ((c.owes 0 .br o.dst (.word (c.tokenStatus x.a.toWord))).goesOn s.core.bundleAddr false)) := by
  have read := Core.operands_queues h
  exact hop.completes g (tokenAct_ok h) rfl (Core.perform_tokens _ _ _ hw) read.recs read.audits

end

/-! ## Actions that touch more than the core (R101, R112, R113) -/

theorem leaves_of_run {i : Instr} {s t : State} (hm : exec i s = slotMeaning i s) (h : aloneRun i s = .ok t) : Leaves i s t := by
  have e : exec i s = .next t.finish := by rw [hm, slotMeaning, State.runAlone_ok h]
  exact ⟨e, fun q => by rw [e, State.finish_quiet q]⟩

theorem State.performBr_fence {s : State} {scope : Word} (h : s.core.act = .fence scope) (addr : Word) :
    s.performBr addr = onCore (fun c => c.perform addr) (s.actFence scope) := by
  simp only [State.performBr, h]
  rfl

theorem Core.perform_fence {c : Core} {scope : Word} (h : c.act = .fence scope) (addr : Word) :
    c.perform addr = .ok (c.goesOn addr false) := by
  simp only [Core.perform, h, Core.goesOn]

/-- The core after a fence: at peer scope its bundle waits for the stores to other packages (R302). -/
def Core.fenced (c : Core) (scope : Word) : Core :=
  { c with fenceWait := c.fenceWait || scope == 5 && !c.peerStores.isEmpty }

/-- A fence releases from system scope on. -/
theorem State.actFence_eq (s : State) (scope : Word) :
    s.actFence scope = (if scope = 4 ∨ scope = 5 then s.systemRelease else s).withCore (s.core.fenced scope) := by
  have core : (if scope = 4 ∨ scope = 5 then s.systemRelease else s).core = s.core := by split <;> rfl
  have released : (if (decide (scope = 4) || decide (scope = 5)) = true then s.systemRelease else s) =
      if scope = 4 ∨ scope = 5 then s.systemRelease else s := by simp only [Bool.or_eq_true, decide_eq_true_eq]
  simp only [State.actFence, released]
  generalize (if scope = 4 ∨ scope = 5 then s.systemRelease else s) = t at core
  by_cases waits : (decide (scope = 5) && !s.core.peerStores.isEmpty) = true
  · have held : s.core.fenced scope = { s.core with fenceWait := true } := by
      simp only [Core.fenced, beq_eq_decide, waits, Bool.or_true]
    rw [if_pos waits, held, core]
    rfl
  · have same : s.core.fenced scope = s.core := by
      simp only [Core.fenced, beq_eq_decide, Bool.eq_false_iff.2 waits, Bool.or_false]
    rw [if_neg waits, same, ← core]
    rfl

section
variable {o : Op} {s : State} {c : Core} {x : Srcs}

theorem info_fence (o : Op) : (Instr.fence o).info = some (.br 0x0D .none (.k 0 5) .none .none, o) := rfl

/-- FENCE goes on, having released what its scope covers. -/
theorem aloneRun_fence (g : s.core.guardHolds o = true) (h : s.core.atBranch.operands (.fence o) = .ok (c, x)) :
    aloneRun (.fence o) s = .ok ((if x.a.toWord = 4 ∨ x.a.toWord = 5 then s.systemRelease else s).withCore
      ((c.fenced x.a.toWord).goesOn s.core.bundleAddr false)) := by
  have left : issueFence o s.core.atBranch = .ok { c with act := .fence x.a.toWord } := brAct_ok h
  have issued : issue (.fence o) (s.withCore s.core.atBranch) = .ok (s.withCore { c with act := .fence x.a.toWord }) :=
    onCore_of_ok left
  refine aloneRun_br (info_fence o) g rfl rfl issued ?_
  rw [State.performBr_fence rfl, State.actFence_eq, onCore_of_ok (Core.perform_fence rfl _)]
  split <;> rfl

end

/-- Settles O30: a token operation that need not wait owes what `Core.tokenStatus_bits` says, FENCE does as `aloneRun_fence` says. -/
theorem tokenWaits : Obligations.TokenWaits := by
  intro o s c x g named waits leaves
  have pending : c.tokenBits x.a.toWord .pending ≠ 0 ↔ waits := c.tokenBits_ne_zero _ _
  refine ⟨fun h hw => ?_, fun h hw => ?_, fun h _ => ?_, fun h => ?_⟩
  · have free : c.tokensWait true true x.a.toWord = false := by simp [Core.tokensWait, pending, hw]
    exact ⟨_, c.tokenStatus_bits _, completes_tokens (all := true) (wait := true) {} g h free⟩
  · have free : c.tokensWait false true x.a.toWord = false := by
      by_cases some : waits
      · obtain ⟨k, hk, other⟩ := hw some
        simp [Core.tokensWait, c.tokenStatus_ne_zero _ hk other]
      · simp [Core.tokensWait, pending, some]
    exact ⟨_, c.tokenStatus_bits _, completes_tokens (all := false) (wait := true) {} g h free⟩
  · exact ⟨_, c.tokenStatus_bits _, completes_tokens (all := true) (wait := false) {} g h rfl⟩
  · intro d
    have read := Core.operands_queues h
    have run := aloneRun_fence g h
    refine ⟨fun h4 h5 => ?_, fun hx => ?_⟩
    · rw [if_neg (not_or.2 ⟨h4, h5⟩)] at run
      exact completes_of_run (exec_slot (info_fence o) ▸ rfl) run fun q => State.quiet_core q read.recs read.audits
    · rw [if_pos hx] at run
      exact leaves_of_run (exec_slot (info_fence o) ▸ rfl) run

end Sys2Proof.Machine
end

section
/-! PROOF. Barriers (R113, R285, R299, R328). -/
namespace Sys2Proof.Machine

/-! ## What a barrier's operations read of the core -/

section
variable (s : State) (c : Core) (t : Task) (g : Gang) (level : Nat)

theorem State.barTask_withCore (h : c.kid = s.core.kid) : (s.withCore c).barTask level = s.barTask level := by
  unfold State.barTask
  rw [State.withCore_core, h]
  rfl

/-- An arrival leaves the core. -/
theorem State.arriveAt_core : (s.arriveAt t g level).core = s.core := by
  simp only [State.arriveAt]
  split <;> rfl

/-- It does not read the core either. -/
theorem State.arriveAt_withCore : (s.withCore c).arriveAt t g level = (s.arriveAt t g level).withCore c := by
  have same : (s.withCore c).arriveAt t g level =
      if 4 ≤ s.scopeOf t level then ((s.setBarrier ((s.barrier g.id level t.path).arrive g t.rank)).withCore c).systemRelease
      else (s.setBarrier ((s.barrier g.id level t.path).arrive g t.rank)).withCore c := rfl
  have plain : s.arriveAt t g level =
      if 4 ≤ s.scopeOf t level then (s.setBarrier ((s.barrier g.id level t.path).arrive g t.rank)).systemRelease
      else s.setBarrier ((s.barrier g.id level t.path).arrive g t.rank) := rfl
  rw [same, plain]
  split <;> rfl

/-- The port and the field of a level that a launch record does not have (R285). -/
theorem levelInfo_eq (h : level < 8) : emptyInfo 1 (levelPort level) = BitVec.ofNat 64 (2 ^ 8 + 0xF0 + level) := by
  interval_cases level <;> rfl

/-- A level beyond the depth of the task's launch. -/
theorem State.barTask_beyond {s : State} {t : Task} {p : Spec} {level : Nat} (ht : s.taskOf s.core.kid = some t)
    (hp : s.spec? t.launch = some p) (hl : p.depthOf ≤ level) :
    s.barTask level = .error (.trap 0x04 (emptyInfo 1 (levelPort level))) := by
  simp only [State.barTask, ht, hp, hl, if_true]

end

/-! ## The issue of BAR and BARA -/

section
variable {i : Instr} {f : Nat → BrAction} {s : State} {c : Core} {x : Srcs} (h : s.core.operands i = .ok (c, x))
include h

theorem barAct_inRegion {r : Region} (hr : c.arr.region = some r) : barAct i f s = .error (.wordTrap 0x05, none) := by
  simp only [barAct, h, liftRes, Core.outsideRegion, hr, Option.isSome_some, if_true, bind, Except.bind]

variable (hr : c.arr.region = none)
include hr

theorem barAct_noTask {e : Stop} (hb : (s.withCore c).barTask x.a.toWord.toNat = .error e) : barAct i f s = .error (e, none) := by
  have task : ({ s with core := c } : State).barTask x.a.toWord.toNat = .error e := hb
  simp only [barAct, h, liftRes, Core.outsideRegion, hr, Option.isSome_none, Bool.false_eq_true, if_false, bind, Except.bind, task]

/-- For a task of a gang, with no store to wait for, the action is left. -/
theorem barAct_ok {t : Task} {g : Gang} (hb : (s.withCore c).barTask x.a.toWord.toNat = .ok (t, g))
    (hw : s.scopeOf t x.a.toWord.toNat = 5 → c.peerStores = []) :
    barAct i f s = .ok (s.withCore { c with act := f x.a.toWord.toNat }) := by
  have task : ({ s with core := c } : State).barTask x.a.toWord.toNat = .ok (t, g) := hb
  have free : ({ s with core := c } : State).releaseWaits t x.a.toWord.toNat = false := by
    have scope : ({ s with core := c } : State).scopeOf t x.a.toWord.toNat = s.scopeOf t x.a.toWord.toNat := rfl
    by_cases peers : s.scopeOf t x.a.toWord.toNat = 5
    · simp [State.releaseWaits, hw peers]
    · simp [State.releaseWaits, scope, peers]
  simp only [barAct, h, liftRes, Core.outsideRegion, hr, Option.isSome_none, Bool.false_eq_true, if_false, bind, Except.bind, task,
    free]
  rfl

end

/-! ## The actions -/

section
variable {s : State} {level : Nat} (addr : Word)

theorem State.performBr_bara {u : State} (h : s.core.act = .bara level) (hu : s.actBara level = .ok u) :
    s.performBr addr = onCore (fun c => c.perform addr) u := by
  simp only [State.performBr, h, hu]
  rfl

theorem State.performBr_bar {u : State} (h : s.core.act = .bar level) (hu : s.actBar level = .ok u) :
    s.performBr addr = onCore (fun c => c.perform addr) u := by
  simp only [State.performBr, h, hu]
  rfl

theorem Core.perform_bar {c : Core} (h : c.act = .bar level ∨ c.act = .bara level) :
    c.perform addr = .ok (c.goesOn addr false) := by
  rcases h with h | h <;> simp only [Core.perform, h, Core.goesOn]

end

/-- The state in which a BAR has arrived, by itself or by a BARA before it. -/
def State.barArrived (s : State) (t : Task) (g : Gang) (level : Nat) : State :=
  if 8 + level ∈ s.core.arrived ∨ 16 + level ∈ s.core.arrived ∨
    (s.barrier g.id level t.path).last t.rank = some (s.barrier g.id level t.path).phase then s else s.arriveAt t g level

theorem State.barArrived_core (s : State) (t : Task) (g : Gang) (level : Nat) : (s.barArrived t g level).core = s.core := by
  unfold State.barArrived
  split
  · rfl
  · exact s.arriveAt_core t g level

/-- The action of the bundle is nothing that an arrival reads. -/
theorem State.barArrived_act (s : State) (c : Core) (a : BrAction) (t : Task) (g : Gang) (level : Nat) :
    (s.withCore { c with act := a }).barArrived t g level =
      ((s.withCore c).barArrived t g level).withCore { c with act := a } := by
  have alone : ∀ d : Core, (s.withCore d).barArrived t g level =
      if 8 + level ∈ d.arrived ∨ 16 + level ∈ d.arrived ∨
        (s.barrier g.id level t.path).last t.rank = some (s.barrier g.id level t.path).phase
      then s.withCore d else (s.arriveAt t g level).withCore d := fun d => by
    rw [← State.arriveAt_withCore]
    rfl
  rw [alone, alone]
  split <;> rfl

section
variable {s : State} {t : Task} {g : Gang} {level : Nat} (hb : s.barTask level = .ok (t, g))
include hb

/-- A rank that has arrived at the current phase does not arrive again. -/
theorem State.actBara_arrived
    (h : (s.barrier g.id level t.path).last t.rank = some (s.barrier g.id level t.path).phase) : s.actBara level = .ok s := by
  simp only [State.actBara, hb, liftRes, bind, Except.bind, h, if_true]

theorem State.actBara_absent
    (h : (s.barrier g.id level t.path).last t.rank ≠ some (s.barrier g.id level t.path).phase) :
    s.actBara level = .ok (s.arriveAt t g level) := by
  simp only [State.actBara, hb, liftRes, bind, Except.bind, h, if_false]

/-- BAR goes on when the phase at which it has arrived is complete. -/
theorem State.actBar_complete {p : Nat} (hp : ((s.barArrived t g level).barrier g.id level t.path).last t.rank = some p)
    (hq : p < ((s.barArrived t g level).barrier g.id level t.path).phase) :
    s.actBar level = .ok ((s.barArrived t g level).withCore (s.core.dropMarks level)) := by
  have arrived : (if (s.core.barMark level || decide ((s.barrier g.id level t.path).last t.rank =
      some (s.barrier g.id level t.path).phase)) = true then s else s.arriveAt t g level) = s.barArrived t g level := by
    simp [State.barArrived, Core.barMark, or_assoc]
  simp only [State.actBar, hb, liftRes, bind, Except.bind, arrived, hp, hq, if_true, State.barArrived_core, State.withCore]

end

/-! ## BAR and BARA in a bundle -/

/-- BAR or BARA, with the action that it leaves for a level. -/
structure BarOp (i : Instr) (o : Op) (f : Nat → BrAction) : Prop where
  issues : ∀ s, issue i s = barAct i f s := by intro; rfl
  row : ∃ r, i.info = some (r, o) ∧ r.slot = .br := by exact ⟨_, rfl, rfl⟩
  free : ∀ e, i.scheduleBad e = none := by intro; rfl

section
variable {i : Instr} {o : Op} {f : Nat → BrAction} {s : State} {c : Core} {x : Srcs} (hop : BarOp i o f)
  (g : s.core.guardHolds o = true) (h : s.core.atBranch.operands i = .ok (c, x))
include hop g h

theorem BarOp.traps_inRegion {r : Region} (hr : c.arr.region = some r) : TrapsWith i s 0 0x05 (Instr.slotWord i) := by
  obtain ⟨row, hi, hs⟩ := hop.row
  exact traps_issueBr hi g (hop.free _) hs ((hop.issues _).trans (barAct_inRegion h hr)) .word (by decide)

theorem BarOp.traps_beyond {t : Task} {p : Spec} (hr : c.arr.region = none) (hl : x.a.toWord.toNat < 8)
    (ht : s.taskOf c.kid = some t) (hp : s.spec? t.launch = some p) (hd : p.depthOf ≤ x.a.toWord.toNat) :
    TrapsWith i s 0 0x04 (BitVec.ofNat 64 (2 ^ 8 + 0xF0 + x.a.toWord.toNat)) := by
  obtain ⟨row, hi, hs⟩ := hop.row
  have missing : (s.withCore c).barTask x.a.toWord.toNat = .error (.trap 0x04 (emptyInfo 1 (levelPort x.a.toWord.toNat))) :=
    State.barTask_beyond (s := s.withCore c) ht hp hd
  rw [levelInfo_eq _ hl] at missing
  exact traps_issueBr hi g (hop.free _) hs ((hop.issues _).trans (barAct_noTask h hr missing)) (.given _) (by decide)

/-- Where its task may use the barrier, the operation goes on once its action `u` is performed. -/
theorem BarOp.aloneRun_ok {t : Task} {gang : Gang} {u : State} (hr : c.arr.region = none)
    (hb : s.barTask x.a.toWord.toNat = .ok (t, gang)) (hw : s.scopeOf t x.a.toWord.toNat = 5 → c.peerStores = [])
    (hu : (s.withCore { c with act := f x.a.toWord.toNat }).performBr s.core.bundleAddr = .ok u) : aloneRun i s = .ok u := by
  obtain ⟨row, hi, hs⟩ := hop.row
  have read := Core.operands_queues h
  have own : c.kid = s.core.kid := by rw [read]; rfl
  have task : (s.withCore c).barTask x.a.toWord.toNat = .ok (t, gang) := (s.barTask_withCore c _ own).trans hb
  exact aloneRun_br hi g (hop.free _) hs ((hop.issues _).trans (barAct_ok h hr task hw)) hu

end

section
variable {o : Op} {s : State} {c : Core} {x : Srcs} {t : Task} {g : Gang} (guard : s.core.guardHolds o = true)
  (hr : c.arr.region = none) (hb : s.barTask x.a.toWord.toNat = .ok (t, g))
  (hw : s.scopeOf t x.a.toWord.toNat = 5 → c.peerStores = [])
include guard hr hb hw

theorem bara_spec (h : s.core.atBranch.operands (.bara o) = .ok (c, x)) :
    let level := x.a.toWord.toNat
    let pc := s.core.bundleAddr
    let b := s.barrier g.id level t.path
    (b.last t.rank = some b.phase → Completes (.bara o) s (s.withCore (c.goesOn pc false))) ∧
    (b.last t.rank ≠ some b.phase →
      let u := (s.withCore c).arriveAt t g level
      Leaves (.bara o) s (u.withCore (u.core.goesOn pc false))) := by
  intro level pc b
  have hop : BarOp (.bara o) o .bara := {}
  have read := Core.operands_queues h
  have own : c.kid = s.core.kid := by rw [read]; rfl
  let v := s.withCore { c with act := .bara level }
  have task : v.barTask level = .ok (t, g) := (s.barTask_withCore _ _ own).trans hb
  have action {u : State} (hu : v.actBara level = .ok u) (core : u.core = { c with act := .bara level }) :
      v.performBr pc = .ok (u.withCore (c.goesOn pc false)) := by
    rw [State.performBr_bara _ rfl hu]
    exact onCore_of_ok (core ▸ Core.perform_bar _ (.inr rfl))
  refine ⟨fun arrived => ?_, fun absent => ?_⟩
  · have run := hop.aloneRun_ok guard h hr hb hw (action (State.actBara_arrived task arrived) rfl)
    exact completes_of_run rfl run fun q => State.quiet_core q read.recs read.audits
  · intro u
    have core : u.core = c := State.arriveAt_core ..
    have run := hop.aloneRun_ok guard h hr hb hw (action (State.actBara_absent task absent) (State.arriveAt_core ..))
    have same : (v.arriveAt t g level).withCore (c.goesOn pc false) = u.withCore (u.core.goesOn pc false) := by
      rw [core]
      simp only [v, u, State.arriveAt_withCore]
      rfl
    rw [same] at run
    exact leaves_of_run rfl run

theorem bar_spec (h : s.core.atBranch.operands (.bar o) = .ok (c, x)) :
    let level := x.a.toWord.toNat
    let u := (s.withCore c).barArrived t g level
    let q := u.barrier g.id level t.path
    (∃ p, q.last t.rank = some p ∧ p < q.phase) →
    Leaves (.bar o) s (u.withCore ((u.core.dropMarks level).goesOn s.core.bundleAddr false)) := by
  rintro level u q ⟨p, arrived, complete⟩
  have hop : BarOp (.bar o) o .bar := {}
  have read := Core.operands_queues h
  have own : c.kid = s.core.kid := by rw [read]; rfl
  let v := s.withCore { c with act := .bar level }
  have task : v.barTask level = .ok (t, g) := (s.barTask_withCore _ _ own).trans hb
  have core : u.core = c := State.barArrived_core ..
  have same : v.barArrived t g level = u.withCore { c with act := .bar level } := State.barArrived_act ..
  have acts := State.actBar_complete (p := p) task (by rw [same]; exact arrived) (by rw [same]; exact complete)
  have action : v.performBr s.core.bundleAddr =
      .ok (u.withCore ((u.core.dropMarks level).goesOn s.core.bundleAddr false)) := by
    rw [State.performBr_bar _ rfl acts, same, core]
    exact onCore_of_ok (Core.perform_bar _ (.inl rfl))
  exact leaves_of_run rfl (hop.aloneRun_ok guard h hr hb hw action)

end

/-- Settles O32: the traps are those of the issue; at the retirement of the bundle the arrival and the core's way on are apart,
since an arrival neither reads nor changes the core. -/
theorem barriers : Obligations.Barriers := by
  refine ⟨fun o s c x i guard hi h => ?_, ?_⟩
  · have traps {f : Nat → BrAction} (hop : BarOp i o f) :
        ((∃ r, c.arr.region = some r) → TrapsWith i s 0 0x05 (Machine.Instr.slotWord i)) ∧
        (∀ t p, c.arr.region = none → x.a.toWord.toNat < 8 → s.taskOf c.kid = some t → s.spec? t.launch = some p →
          p.depthOf ≤ x.a.toWord.toNat → TrapsWith i s 0 0x04 (BitVec.ofNat 64 (2 ^ 8 + 0xF0 + x.a.toWord.toNat))) :=
      ⟨fun ⟨_, hr⟩ => hop.traps_inRegion guard h hr,
        fun _ _ hr hl ht hp hd => hop.traps_beyond guard h hr hl ht hp hd⟩
    rcases hi with rfl | rfl
    · exact traps (f := .bar) {}
    · exact traps (f := .bara) {}
  · intro o s c x t g guard hr level pc hb hw b s'
    exact ⟨bara_spec guard hr hb hw, bar_spec guard hr hb hw⟩

end Sys2Proof.Machine
end

section
/-! PROOF. The vector that an operation of VA or VB issues, and the result that it owes (R132, R133). -/
namespace Sys2Proof.Machine

/-! ## Registers made of elements -/

/-- A register whose lowest n elements are given, the others zero. -/
def packedVec (w n : Nat) (f : Nat → Nat) : Vec := BitVec.ofNat 2048 (packElems w ((List.range n).map f))

theorem elem_packedVec {w n : Nat} (f : Nat → Nat) (h : w * n ≤ 2048) (e : Nat) :
    elem w (packedVec w n f).toNat e = if e < n then f e % 2 ^ w else 0 := by
  have length : ((List.range n).map f).length = n := by rw [List.length_map, List.length_range]
  have small := (packElems_lt w ((List.range n).map f)).trans_le (Nat.pow_le_pow_right (by decide) (length.symm ▸ h))
  rw [packedVec, BitVec.toNat_ofNat, Nat.mod_eq_of_lt small, elem_packElems]
  split_ifs with inside
  · simp [inside]
  · rw [List.getD_eq_default _ _ (by rw [length]; exact Nat.le_of_not_lt inside), Nat.zero_mod]

/-- A bit lies in the element that it falls into. -/
theorem testBit_eq_elem {w : Nat} (hw : 0 < w) (v k : Nat) : v.testBit k = (elem w v (k / w)).testBit (k % w) := by
  rw [elem, Nat.testBit_mod_two_pow, Nat.testBit_div_two_pow, decide_eq_true (Nat.mod_lt k hw), Bool.true_and, Nat.mod_add_div]

/-- The elements of an element are elements of the whole. -/
theorem elem_elem {w m : Nat} (v e : Nat) {j : Nat} (hj : j < m) : elem w (elem (w * m) v e) j = elem w v (m * e + j) := by
  have inside : w * (j + 1) ≤ w * m := Nat.mul_le_mul_left w hj
  have split : w * m = w * j + (w * m - w * j) := by rw [Nat.add_sub_cancel' (Nat.mul_le_mul_left w hj.le)]
  have low : w ≤ w * m - w * j := by rw [Nat.mul_succ] at inside; omega
  have place : w * m * e + w * j = w * (m * e + j) := by ring
  rw [elem, elem, elem]
  nth_rewrite 2 [split]
  rw [Nat.pow_add, Nat.mod_mul_right_div_self, Nat.mod_mod_of_dvd _ (pow_dvd_pow 2 low), Nat.div_div_eq_div_mul, ← Nat.pow_add, place]

theorem map3_map (f : Nat → Nat → Nat → Nat) (a b c : Nat → Nat) (l : List Nat) :
    map3 f (l.map a) (l.map b) (l.map c) = l.map fun e => f (a e) (b e) (c e) := by
  induction l with
  | nil => rfl
  | cons x l ih => exact congrArg (_ :: ·) ih

theorem zipWith_map_same {α : Type} (f : Nat → Nat → α) (a b : Nat → Nat) (l : List Nat) :
    List.zipWith f (l.map a) (l.map b) = l.map fun e => f (a e) (b e) := by
  rw [List.zipWith_map, List.zipWith_self]

theorem elem_mapElems (w : Nat) (f : Nat → Nat → Nat → Nat) (a b c : Nat) {e : Nat} (he : e < 2048 / w) :
    elem w (mapElems w f a b c).toNat e = f (elem w a e) (elem w b e) (elem w c e) % 2 ^ w := by
  simp only [mapElems, elems_eq_map, map3_map]
  exact (elem_packedVec _ (Nat.mul_div_le 2048 w) e).trans (if_pos he)

/-! ## Operations of VA and VB -/

theorem crossStream_vector_s (u : VU) (n : Fin 64) : crossStream u.slot (.s n) = true := by cases u <;> rfl

/-- Only a scalar register lies in another stream (R276). -/
theorem crossStream_of_ne_s {sl : Slot} {p : Port} (h : ∀ n, p ≠ .s n) : crossStream sl p = false := by
  cases p with
  | s n => exact absurd rfl (h n)
  | _ => cases sl <;> rfl

theorem crossStream_of_md {e : DecodeEnv} {sl sl' : Slot} {var : Bool} {p : Port} (h : OpClass.md.legal e sl var p = true) :
    crossStream sl' p = false := by
  refine crossStream_of_ne_s fun n hn => ?_
  subst hn
  cases h

/-- An operation of VA or VB that touches its core alone, as f says. -/
structure VectorOp (i : Instr) (u : VU) (row : Row) (o : Op) (f : Core → Res Core) : Prop where
  info : i.info = some (row, o) := by rfl
  slot : row.slot = u.slot := by rfl
  issues : ∀ s, issue i s = onCore f s := by intro; rfl
  free : ∀ e, i.scheduleBad e = none := by intro; rfl

section
variable {i : Instr} {u : VU} {row : Row} {o : Op} {f : Core → Res Core} {s : State} {c : Core} {x : Srcs} {k : Nat} {v : Val}

theorem VectorOp.not_br (op : VectorOp i u row o f) : row.slot ≠ .br := op.slot ▸ u.slot_ne_br

theorem VectorOp.owes (op : VectorOp i u row o f) (g : s.core.guardHolds o = true) (h : s.core.operands i = .ok (c, x))
    (lat : row.lat = .cls k) (stream : crossStream row.slot o.dst = false) (value : f s.core = .ok (c.issueResult i v)) :
    Completes i s (s.withCore (c.owes k row.slot o.dst v)) :=
  completes_owes op.info g (op.free _) op.not_br (op.issues s) h lat stream value

/-- The destination of an operation whose row names a vector or a mask is in its own stream. -/
theorem VectorOp.owes_own (op : VectorOp i u row o f) (g : s.core.guardHolds o = true) (h : s.core.operands i = .ok (c, x))
    (dst : row.dst = .vd ∨ row.dst = .md) (lat : row.lat = .cls k) (value : f s.core = .ok (c.issueResult i v)) :
    Completes i s (s.withCore (c.owes k row.slot o.dst v)) := by
  have legal := Core.operands_legal op.info h
  refine op.owes g h lat ?_ value
  rcases dst with vd | md
  · exact crossStream_of_vd (vd ▸ legal)
  · exact crossStream_of_md (md ▸ legal)

theorem VectorOp.awaits_var (op : VectorOp i u row o f) (g : s.core.guardHolds o = true) (h : s.core.operands i = .ok (c, x))
    (lat : row.lat = .var) (value : f s.core = .ok (c.issueResult i v)) :
    Completes i s (s.withCore (c.awaits row.slot o.dst (.value v))) := by
  have read := Core.operands_queues h
  rw [Core.issueResult_var op.info lat] at value
  exact completes_onCore op.info g (op.free _) op.not_br (op.issues s) value read.recs read.audits

end

/-! ## Elementwise operations -/

theorem elemOp_ok {i : Instr} {t : ElemTy} {o : Op} {f : Nat → Nat → Nat → Nat} {c d : Core} {x : Srcs}
    (h : c.operands i = .ok (d, x)) : elemOp i t o f c = .ok (d.issueResult i (.vec
      (mapElems t.width f (srcVec t.width o.op1 x.a) (srcVec t.width o.op2 x.b) (srcVec t.width o.op3 x.c)))) := by
  simp only [elemOp, h, bind, Except.bind]

/-- An elementwise operation with a vector destination. Its latency class is l, none where the latency varies, and on the elements of
its type it computes r. -/
structure Elementwise (i : Instr) (t : ElemTy) (row : Row) (o : Op) (l : Option Nat) (r : Nat → Nat → Nat → Nat) : Prop where
  op : ∃ u f, VectorOp i u row o (elemOp i t o f) ∧
    ∀ a b d, a < 2 ^ t.width → b < 2 ^ t.width → d < 2 ^ t.width → f a b d % 2 ^ t.width = r a b d
  dst : row.dst = .vd := by rfl
  lat : row.lat = l.elim .var .cls := by rfl

section
variable {i : Instr} {t : ElemTy} {row : Row} {o : Op} {r : Nat → Nat → Nat → Nat} {s : State} {c : Core} {x : Srcs}

/-- The elements that the sources of an operation give to r are those of the vector v. -/
def Srcs.GivesElems (x : Srcs) (t : ElemTy) (o : Op) (r : Nat → Nat → Nat → Nat) (v : Vec) : Prop :=
  ∀ e, e < 2048 / t.width → elem t.width v.toNat e =
    r (srcElem t.width o.op1 x.a e) (srcElem t.width o.op2 x.b e) (srcElem t.width o.op3 x.c e)

theorem givesElems_mapElems {f : Nat → Nat → Nat → Nat}
    (agrees : ∀ a b d, a < 2 ^ t.width → b < 2 ^ t.width → d < 2 ^ t.width → f a b d % 2 ^ t.width = r a b d) :
    x.GivesElems t o r
      (mapElems t.width f (srcVec t.width o.op1 x.a) (srcVec t.width o.op2 x.b) (srcVec t.width o.op3 x.c)) := by
  intro e he
  rw [elem_mapElems _ _ _ _ _ he, elem_srcVec _ _ he, elem_srcVec _ _ he, elem_srcVec _ _ he]
  exact agrees _ _ _ (srcElem_lt ..) (srcElem_lt ..) (srcElem_lt ..)

theorem Elementwise.owes {k : Nat} (hop : Elementwise i t row o (some k) r) (g : s.core.guardHolds o = true)
    (h : s.core.operands i = .ok (c, x)) :
    ∃ v : Vec, x.GivesElems t o r v ∧ Completes i s (s.withCore (c.owes k row.slot o.dst (.vec v))) := by
  obtain ⟨u, f, op, agrees⟩ := hop.op
  exact ⟨_, givesElems_mapElems agrees, op.owes_own g h (.inl hop.dst) hop.lat (elemOp_ok h)⟩

theorem Elementwise.awaits (hop : Elementwise i t row o none r) (g : s.core.guardHolds o = true)
    (h : s.core.operands i = .ok (c, x)) :
    ∃ v : Vec, x.GivesElems t o r v ∧ Completes i s (s.withCore (c.awaits row.slot o.dst (.value (.vec v)))) := by
  obtain ⟨u, f, op, agrees⟩ := hop.op
  exact ⟨_, givesElems_mapElems agrees, op.awaits_var g h hop.lat (elemOp_ok h)⟩

end

/-- A rule that names one class and one function of its operands names no other. -/
theorem rule_unique {α β : Type} {k k' : α} {f f' : Nat → Nat → Nat → β} (h : ∀ a b d, some (k, f a b d) = some (k', f' a b d)) :
    k = k' ∧ f = f' := by
  have parts (a b d : Nat) : k = k' ∧ f a b d = f' a b d := by simpa using h a b d
  exact ⟨(parts 0 0 0).1, funext fun a => funext fun b => funext fun d => (parts a b d).2⟩

end Sys2Proof.Machine
end

section
/-! PROOF. Elementwise operations on integer elements (R137 to R143, R147 to R149). -/
namespace Sys2Proof.Machine

/-! ## Patterns modulo 2^w (R64, R72) -/

section
variable {w : Nat}

/-- A pattern that differs from a number by multiples of 2^w is its pattern. -/
theorem mod_eq_wrap {n : Nat} {x : Int} (h : (n : Int) % (2 ^ w : Nat) = x % (2 ^ w : Nat)) : n % 2 ^ w = wrap w x := by
  rw [wrap, ← h, ← Int.natCast_emod, Int.toNat_natCast]

theorem mod_eq_wrap_natCast (n : Nat) : n % 2 ^ w = wrap w n := mod_eq_wrap rfl

theorem wrap_mod (x : Int) : wrap w x % 2 ^ w = wrap w x := Nat.mod_eq_of_lt (wrap_lt w x)

theorem wrap_num (u : Bool) {x : Nat} (h : x < 2 ^ w) : wrap w (num w u x) = x := by
  have pattern : (x : Int) % (2 ^ w : Nat) = num w u x % (2 ^ w : Nat) := by
    unfold num
    split
    · rfl
    · push_cast
      rw [Int.sub_emod_right]
  rw [← mod_eq_wrap pattern, Nat.mod_eq_of_lt h]

theorem satInt_eq_limit (u : Bool) (x : Int) : satInt w u x = limit w u x := by
  have half : (0 : Int) < 2 ^ (w - 1) := by positivity
  have full : (0 : Int) < 2 ^ w := by positivity
  simp only [satInt, limit, intMin, intMax]
  push_cast
  generalize (2 : Int) ^ (w - 1) = h at half
  generalize (2 : Int) ^ w = m at full
  cases u <;> simp only [Bool.false_eq_true, if_true, if_false] <;> split_ifs <;> omega

theorem num_bounds {x : Nat} (h : x < 2 ^ w) : -2 ^ w ≤ num w false x ∧ num w false x < 2 ^ w := by
  unfold num
  zify at h
  split <;> omega

/-- A shift by the whole width or more leaves the sign alone. -/
theorem num_div_wide {x n : Nat} (h : x < 2 ^ w) (hn : w ≤ n) :
    num w false x / (2 ^ n : Nat) = if num w false x < 0 then -1 else 0 := by
  obtain ⟨low, high⟩ := num_bounds h
  have wide : (2 : Int) ^ w ≤ (2 ^ n : Nat) := by exact_mod_cast Nat.pow_le_pow_right (by decide) hn
  have positive : (0 : Int) < 2 ^ w := by positivity
  generalize ((2 ^ n : Nat) : Int) = m at wide
  rw [Int.ediv_eq_iff_of_pos (by omega)]
  split <;> constructor <;> omega

/-- The number of places of a pattern above its highest one. -/
theorem clzNat_eq {a : Nat} (ha : a < 2 ^ w) : clzNat w a = (List.range w).countP fun k => a < 2 ^ k := by
  have above (m n : Nat) : (List.range n).countP (fun k => m < k) = n - (m + 1) := by
    induction n with
    | zero => exact (Nat.zero_sub _).symm
    | succ n ih =>
      rw [List.range_succ, List.countP_append, ih]
      by_cases h : m < n <;> simp [h] <;> omega
  unfold clzNat
  rw [Nat.mod_eq_of_lt ha]
  split_ifs with zero
  · simp [zero]
  · simp only [← Nat.log2_lt zero, above]
    omega

end

/-! ## The operations -/

section
variable {t : ElemTy} (u : Bool) {a b : Nat}

theorem addElem_int (ht : t.isFloat = false) (hb : b < 2 ^ t.width) :
    addElem t u false a b % 2 ^ t.width = wrap t.width (a + b) ∧ addElem t u true a b % 2 ^ t.width = wrap t.width (a - b) := by
  simp only [addElem, ht, Bool.false_eq_true, if_true, if_false]
  refine ⟨mod_eq_wrap_natCast (a + b), mod_eq_wrap ?_⟩
  have shifted : ((a + 2 ^ t.width - b : Nat) : Int) = a - b + (2 ^ t.width : Nat) := by omega
  rw [shifted, Int.add_emod_right]

theorem mulElem_int (ht : t.isFloat = false) : mulElem t u a b % 2 ^ t.width = wrap t.width (a * b) := by
  simp only [mulElem, ht, Bool.false_eq_true, if_false]
  exact mod_eq_wrap_natCast (a * b)

theorem fmaElem_int (ht : t.isFloat = false) (negP negC : Bool) (c : Nat) :
    fmaElem t u negP negC a b c % 2 ^ t.width =
      wrap t.width ((if negP then -(a * b : Int) else a * b) + if negC then -(c : Int) else c) := by
  simp only [fmaElem, ht, Bool.false_eq_true, if_false, wrap_mod]

theorem minmaxElem_wrap (ht : t.isFloat = false) (ha : a < 2 ^ t.width) (hb : b < 2 ^ t.width) :
    minmaxElem t u false a b % 2 ^ t.width = wrap t.width (min (num t.width u a) (num t.width u b)) ∧
    minmaxElem t u true a b % 2 ^ t.width = wrap t.width (max (num t.width u a) (num t.width u b)) := by
  obtain ⟨low, high⟩ := minmaxElem_int u ht ha hb
  rw [low, high, min_def, max_def]
  split_ifs <;> simp only [wrap_num u, ha, hb, Nat.mod_eq_of_lt, and_self]

theorem absElem_int (ht : t.isFloat = false) (ha : a < 2 ^ t.width) :
    absElem t a % 2 ^ t.width = wrap t.width (num t.width false a).natAbs := by
  simp only [absElem, ht, Bool.false_eq_true, if_false, sextN_eq_num (elemWidth_pos t) ha, mod_eq_wrap_natCast]

theorem negElem_int (ht : t.isFloat = false) (ha : a < 2 ^ t.width) : negElem t a % 2 ^ t.width = wrap t.width (-a) := by
  have shifted : ((2 ^ t.width - a : Nat) : Int) = -a + (2 ^ t.width : Nat) := by omega
  simp only [negElem, ht, Bool.false_eq_true, if_false]
  exact mod_eq_wrap (by rw [shifted, Int.add_emod_right])

theorem mulhElem_eq (ha : a < 2 ^ t.width) (hb : b < 2 ^ t.width) :
    mulhElem t.width u a b % 2 ^ t.width = wrap t.width (num t.width u a * num t.width u b / 2 ^ t.width) := by
  rw [mulhElem, wrap_mod, intVal_eq_num (elemWidth_pos t) u ha, intVal_eq_num (elemWidth_pos t) u hb, Nat.cast_pow, Nat.cast_ofNat]

theorem satElem_eq (ha : a < 2 ^ t.width) (hb : b < 2 ^ t.width) (sub : Bool) :
    satElem t.width u sub a b % 2 ^ t.width = wrap t.width (limit t.width u
      (if sub then num t.width u a - num t.width u b else num t.width u a + num t.width u b)) := by
  rw [satElem, wrap_mod, satInt_eq_limit, intVal_eq_num (elemWidth_pos t) u ha, intVal_eq_num (elemWidth_pos t) u hb]

theorem avgElem_eq (ha : a < 2 ^ t.width) (hb : b < 2 ^ t.width) :
    avgElem t.width u a b % 2 ^ t.width = wrap t.width ((num t.width u a + num t.width u b + 1) / 2) := by
  rw [avgElem, wrap_mod, intVal_eq_num (elemWidth_pos t) u ha, intVal_eq_num (elemWidth_pos t) u hb]

theorem shlElem_eq (w amt : Nat) :
    shlElem w a amt % 2 ^ w = wrap w (if amt % 256 < w then (a * 2 ^ (amt % 256) : Nat) else 0) := by
  unfold shlElem
  by_cases h : amt % 256 < w
  · rw [if_neg h.not_ge, if_pos h, mod_eq_wrap_natCast]
  · rw [if_pos (Nat.le_of_not_lt h), if_neg h, mod_eq_wrap_natCast, Nat.cast_zero]

theorem shrElem_eq (w amt : Nat) :
    shrElem w a amt % 2 ^ w = wrap w (if amt % 256 < w then (a / 2 ^ (amt % 256) : Nat) else 0) := by
  unfold shrElem
  by_cases h : amt % 256 < w
  · rw [if_neg h.not_ge, if_pos h, mod_eq_wrap_natCast]
  · rw [if_pos (Nat.le_of_not_lt h), if_neg h, mod_eq_wrap_natCast, Nat.cast_zero]

theorem sraElem_eq {w : Nat} (hw : 0 < w) (ha : a < 2 ^ w) (amt : Nat) :
    sraElem w a amt % 2 ^ w = wrap w (num w false a / (2 ^ (amt % 256) : Nat)) := by
  rw [sraElem, wrap_mod, sextN_eq_num hw ha]
  rcases Nat.le_total (amt % 256) w with h | h
  · rw [Nat.min_eq_left h]
  · rw [Nat.min_eq_right h, num_div_wide ha le_rfl, num_div_wide ha h]

theorem funnelLeft_wrap {w c : Nat} (hw : 0 < w) (ha : a < 2 ^ w) (hb : b < 2 ^ w) :
    funnelLeft w a b (c % 256 % (2 * w)) % 2 ^ w =
      wrap w ((BitVec.ofNat (2 * w) (a * 2 ^ w + b)).rotateLeft (c % 256 % (2 * w))).toNat := by
  rw [funnelLeft_eq ha hb (Nat.mod_lt _ (by omega)), Nat.mod_mod, mod_eq_wrap_natCast]

theorem funnelRight_wrap {w c : Nat} (hw : 0 < w) (ha : a < 2 ^ w) (hb : b < 2 ^ w) :
    funnelRight w a b (c % 256 % (2 * w)) % 2 ^ w =
      wrap w (((BitVec.ofNat (2 * w) (a * 2 ^ w + b)).rotateRight (c % 256 % (2 * w))).toNat / 2 ^ w : Nat) := by
  rw [funnelRight_eq ha hb (Nat.mod_lt _ (by omega)), mod_eq_wrap_natCast]

end

/-- Every operation of R137 to R143 and R147 to R149 is elementwise with the elements of its rule. -/
theorem integerElem_elementwise {i : Instr} {row : Row} {o : Op} {t : ElemTy} {k : Nat} {f : Nat → Nat → Nat → Int}
    (hi : i.info = some (row, o)) (ht : elemTyOf i = some t) (int : t.isFloat = false)
    (rule : ∀ a b d, integerElem i a b d = some (k, f a b d)) :
    Elementwise i t row o (some k) fun a b d => wrap t.width (f a b d) := by
  have width := elemWidth_pos t
  cases i
  all_goals cases ht
  case vdiv | vsqrt | vrcp | vrsq | vexp2 | vlog2 | vtanh | vsigm => cases rule 0 0 0
  all_goals cases hi
  all_goals obtain ⟨rfl, rfl⟩ := rule_unique rule
  all_goals refine { op := ⟨_, _, {}, ?_⟩ }
  case vadd => exact fun _ _ _ _ hb _ => (addElem_int _ int hb).1
  case vsub => exact fun _ _ _ _ hb _ => (addElem_int _ int hb).2
  case vmul => exact fun _ _ _ _ _ _ => mulElem_int _ int
  case vmulh => exact fun _ _ _ ha hb _ => mulhElem_eq _ ha hb
  case vfma => exact fun _ _ d _ _ _ => fmaElem_int _ int false false d
  case vfms => exact fun _ _ d _ _ _ => fmaElem_int _ int false true d
  case vfnma => exact fun _ _ d _ _ _ => (fmaElem_int _ int true false d).trans (congrArg _ (neg_add_eq_sub ..))
  case vmin => exact fun _ _ _ ha hb _ => (minmaxElem_wrap _ int ha hb).1
  case vmax => exact fun _ _ _ ha hb _ => (minmaxElem_wrap _ int ha hb).2
  case vabs => exact fun _ _ _ ha _ _ => absElem_int int ha
  case vneg => exact fun _ _ _ ha _ _ => negElem_int int ha
  case vadds => exact fun _ _ _ ha hb _ => satElem_eq _ ha hb false
  case vsubs => exact fun _ _ _ ha hb _ => satElem_eq _ ha hb true
  case vavg => exact fun _ _ _ ha hb _ => avgElem_eq _ ha hb
  case vshl => exact fun _ b _ _ _ _ => shlElem_eq _ b
  case vshr => exact fun _ b _ _ _ _ => shrElem_eq _ b
  case vsra => exact fun _ b _ ha _ _ => sraElem_eq width ha b
  case vfshl => exact fun _ _ _ ha hb _ => funnelLeft_wrap width ha hb
  case vfshr => exact fun _ _ _ ha hb _ => funnelRight_wrap width ha hb
  case vclz => exact fun _ _ _ ha _ _ => by rw [clzNat_eq ha, mod_eq_wrap_natCast]
  case vpopc => exact fun _ _ _ _ _ _ => by rw [popNat_eq, mod_eq_wrap_natCast]

/-- Settles O5: each operation is elementwise, and its elements are those of its rule (`integerElem_elementwise`). -/
theorem vectorIntegers : Obligations.VectorIntegers := by
  intro i row o s c x t k f hi g h ht _ int rule
  exact (integerElem_elementwise hi ht int rule).owes g h

end Sys2Proof.Machine
end

section
/-! PROOF. Elementwise operations on floating-point elements (R137 to R141, R159, R161). -/
namespace Sys2Proof.Machine

theorem FVal.isNan_iff (v : FVal) : v.isNan = true ↔ v = .nan := by cases v <;> simp [FVal.isNan]

/-- To turn the highest bit over is to add it. -/
theorem xor_sign {w a : Nat} (hw : 0 < w) (ha : a < 2 ^ w) : a ^^^ 2 ^ (w - 1) = (a + 2 ^ (w - 1)) % 2 ^ w := by
  obtain ⟨m, rfl⟩ : ∃ m, w = m + 1 := ⟨w - 1, by omega⟩
  have positive := Nat.two_pow_pos m
  have low : (a ^^^ 2 ^ m) % 2 ^ m = a % 2 ^ m := by rw [Nat.xor_mod_two_pow, Nat.mod_self, Nat.xor_zero]
  have high : (a ^^^ 2 ^ m) / 2 ^ m = a / 2 ^ m ^^^ 1 := by rw [Nat.xor_div_two_pow, Nat.div_self positive]
  rw [Nat.add_sub_cancel, ← Nat.div_add_mod (a ^^^ 2 ^ m) (2 ^ m), low, high]
  rw [Nat.pow_succ] at ha ⊢
  rcases Nat.lt_or_ge a (2 ^ m) with below | above
  · rw [Nat.div_eq_of_lt below, Nat.mod_eq_of_lt below, Nat.mod_eq_of_lt (by omega), Nat.zero_xor, Nat.mul_one, Nat.add_comm]
  · have digit : a / 2 ^ m = 1 := Nat.div_eq_of_lt_le (by omega) (by omega)
    have rest : a + 2 ^ m = a - 2 ^ m + 2 ^ m * 2 := by omega
    have small : a - 2 ^ m < 2 ^ m := by omega
    rw [digit, Nat.mod_eq_sub_mod above, Nat.mod_eq_of_lt small, rest, Nat.add_mod_right, Nat.mod_eq_of_lt (by omega),
      Nat.xor_self, Nat.mul_zero, Nat.zero_add]

section
variable {t : ElemTy} (m : Bool) {a b : Nat}

theorem addElem_float (ht : t.isFloat = true) (a b : Nat) :
    addElem t m false a b = (Fmt.of t).round (rmOf m) (((Fmt.of t).val a).add false ((Fmt.of t).val b)) ∧
    addElem t m true a b = (Fmt.of t).round (rmOf m) (((Fmt.of t).val a).add false ((Fmt.of t).val b).neg) := by
  simp only [addElem, ht, Bool.false_eq_true, if_true, if_false, and_self]

theorem mulElem_float (ht : t.isFloat = true) (a b : Nat) :
    mulElem t m a b = (Fmt.of t).round (rmOf m) (((Fmt.of t).val a).mul ((Fmt.of t).val b)) := if_pos ht

theorem fmaElem_float (ht : t.isFloat = true) (negP negC : Bool) (a b c : Nat) :
    let x := (Fmt.of t).val a
    let z := (Fmt.of t).val c
    fmaElem t m negP negC a b c = (Fmt.of t).round (rmOf m)
      (((if negP then x.neg else x).mul ((Fmt.of t).val b)).add false (if negC then z.neg else z)) := if_pos ht

theorem minmaxElem_float (ht : t.isFloat = true) (isMax : Bool) (a b : Nat) :
    minmaxElem t m isMax a b = (Fmt.of t).minmax isMax a b := if_pos ht

theorem absElem_float (ht : t.isFloat = true) (a : Nat) :
    absElem t a = if (Fmt.of t).val a = .nan then (Fmt.of t).nan else a % 2 ^ (t.width - 1) := by
  simp only [absElem, ht, if_true, FVal.isNan_iff]

theorem negElem_float (ht : t.isFloat = true) (ha : a < 2 ^ t.width) :
    negElem t a = if (Fmt.of t).val a = .nan then (Fmt.of t).nan else (a + 2 ^ (t.width - 1)) % 2 ^ t.width := by
  simp only [negElem, ht, if_true, FVal.isNan_iff, xor_sign (elemWidth_pos t) ha]

end

/-- Every operation of R137 to R141, R159 and R161 is elementwise with the elements of its rule. -/
theorem floatElem_elementwise {i : Instr} {row : Row} {o : Op} {t : ElemTy} {l : Option Nat} {f : Nat → Nat → Nat → Nat}
    (hi : i.info = some (row, o)) (ht : elemTyOf i = some t) (float : t.isFloat = true)
    (rule : ∀ a b d, floatElem i a b d = some (l, f a b d)) :
    Elementwise i t row o l fun a b d => f a b d % 2 ^ t.width := by
  cases i
  all_goals cases ht
  case vmulh | vadds | vsubs | vavg | vshl | vshr | vsra | vfshl | vfshr | vclz | vpopc => cases rule 0 0 0
  all_goals cases hi
  all_goals obtain ⟨rfl, rfl⟩ := rule_unique rule
  case vdiv | vsqrt | vrcp | vrsq | vexp2 | vlog2 | vtanh | vsigm => exact { op := ⟨.b, _, {}, fun _ _ _ _ _ _ => rfl⟩ }
  all_goals refine { op := ⟨_, _, {}, fun a b d ha _ _ => congrArg (· % _) ?_⟩ }
  case vadd => exact (addElem_float _ float a b).1
  case vsub => exact (addElem_float _ float a b).2
  case vmul => exact mulElem_float _ float a b
  case vfma => exact fmaElem_float _ float false false a b d
  case vfms => exact fmaElem_float _ float false true a b d
  case vfnma => exact fmaElem_float _ float true false a b d
  case vmin => exact minmaxElem_float _ float false a b
  case vmax => exact minmaxElem_float _ float true a b
  case vabs => exact absElem_float float a
  case vneg => exact negElem_float float ha

/-- Settles O6: each operation is elementwise, and its elements are those of its rule (`floatElem_elementwise`). -/
theorem vectorFloats : Obligations.VectorFloats := by
  intro i row o s c x t l f hi g h ht _ float rule
  have elementwise := floatElem_elementwise hi ht float rule
  cases l with
  | some k => exact elementwise.owes g h
  | none => exact elementwise.awaits g h

end Sys2Proof.Machine
end

section
/-! PROOF. Conversions, quantisation and dot products (R150 to R154). -/
namespace Sys2Proof.Machine

/-! ## Elements -/

/-- A float result is an element as it stands, an integer one after wrapping. -/
theorem cvtElem_eq (st : ElemTy) (su : Bool) (t : ElemTy) (tu : Bool) (rm : Nat) {x : Nat} (hx : x < 2 ^ st.width) :
    cvtElem st su t tu rm x % 2 ^ t.width = wrap t.width (convertRule st su t tu rm x) := by
  have source := intVal_eq_num (elemWidth_pos st) su hx
  unfold cvtElem convertRule
  cases t.isFloat
  · cases st.isFloat <;> simp only [source, satInt_eq_limit, wrap_mod, Bool.false_eq_true, if_true, if_false]
  · cases st.isFloat <;> simp only [source, mod_eq_wrap_natCast, Bool.false_eq_true, if_true, if_false]

/-- An infinity lies beyond every limit (R152). -/
theorem limit_infinity {w : Nat} (hw : 0 < w) (u neg : Bool) :
    limit w u (if neg then -2 ^ w else 2 ^ w) = if neg then intMin w u else intMax w u := by
  have half : (0 : Int) < 2 ^ (w - 1) := by positivity
  have whole : (2 : Int) ^ w = 2 * 2 ^ (w - 1) := by rw [← pow_succ', Nat.sub_add_cancel hw]
  simp only [limit, intMin, intMax, whole]
  push_cast [whole]
  generalize (2 : Int) ^ (w - 1) = h at half
  cases u <;> cases neg <;> simp only [Bool.false_eq_true, if_true, if_false] <;> split_ifs <;> omega

theorem qntElem_eq (t : ElemTy) (u : Bool) (rm x m : Nat) : qntElem t u rm x m = wrap t.width (quantRule t u rm x m) := by
  unfold qntElem quantRule
  dsimp only
  cases (Fmt.f32.val x).mul (Fmt.f32.val m) with
  | nan => rfl
  | inf neg => exact congrArg (wrap t.width) (limit_infinity (elemWidth_pos t) u neg).symm
  | fin neg k e => exact congrArg (wrap t.width) (satInt_eq_limit u _)

theorem dqntElem_eq {w : Nat} (hw : 0 < w) (u : Bool) {q z : Nat} (m : Nat) (hq : q < 2 ^ w) (hz : z < 2 ^ 32) :
    dqntElem w u q m z = Fmt.f32.round 0 ((Fmt.f32.val m).mul (.ofInt (num w u q - num 32 false z))) := by
  rw [dqntElem, intVal_eq_num hw u hq, sextN_eq_num (by decide) hz]

/-- The four bytes of a lane are those of the register from byte 4 e on. -/
theorem dot4Elem_lanes (u : Bool) (a b c e : Nat) :
    let p (j : Nat) : Int := num 8 u (elem 8 a (4 * e + j)) * num 8 u (elem 8 b (4 * e + j))
    dot4Elem u (elem 32 a e) (elem 32 b e) c = wrap 32 (c + p 0 + p 1 + p 2 + p 3) := by
  have byte (v : Nat) {j : Nat} (hj : j < 4) : intVal 8 u (elem 8 (elem 32 v e) j) = num 8 u (elem 8 v (4 * e + j)) := by
    rw [intVal_eq_num (by decide) u (elem_lt ..)]
    exact congrArg _ (elem_elem (w := 8) (m := 4) v e hj)
  simp only [dot4Elem, byte, Nat.reduceLT]

/-! ## What the operations issue -/

/-- The lowest n elements that a source supplies. -/
theorem elems_srcVec_le {w n : Nat} (p : Port) (x : Val) (h : n ≤ 2048 / w) :
    elems w (srcVec w p x) n = (List.range n).map (srcElem w p x) := by
  rw [elems_eq_map]
  exact List.map_congr_left fun e he => elem_srcVec p x ((List.mem_range.1 he).trans_le h)

theorem elems_srcVec_lanes (p : Port) (x : Val) :
    elems 32 (srcVec 32 p x) 64 = (List.range 64).map (srcElem 32 p x) := elems_srcVec 32 p x

section
variable {u : VU} {t : ElemTy} {o : Op} {c d : Core} {x : Srcs}

theorem issueVcvt_ok (h : c.operands (.vcvt u t o) = .ok (d, x)) :
    let st := ElemTy.ofCode (x.b.toWord.toNat % 8)
    issueVcvt u t o c = .ok (d.issueResult (.vcvt u t o) (.vec (packedVec t.width (2048 / max st.width t.width) fun e =>
      cvtElem st (8 ≤ x.b.toWord.toNat) t o.mod x.c.toWord.toNat (srcElem st.width o.op1 x.a e)))) := by
  intro st
  have fits : 2048 / max st.width t.width ≤ 2048 / st.width := Nat.div_le_div_left (le_max_left ..) (elemWidth_pos st)
  have source := elems_srcVec_le o.op1 x.a fits
  simp only [issueVcvt, h, bind, Except.bind]
  rw [source, List.map_map]
  rfl

theorem issueVqnt_ok (h : c.operands (.vqnt u t o) = .ok (d, x)) :
    issueVqnt u t o c = .ok (d.issueResult (.vqnt u t o) (.vec (packedVec t.width 64 fun e =>
      qntElem t o.mod x.c.toWord.toNat (srcElem 32 o.op1 x.a e) (srcElem 32 o.op2 x.b e)))) := by
  simp only [issueVqnt, h, bind, Except.bind]
  rw [elems_srcVec_lanes, elems_srcVec_lanes, zipWith_map_same]
  rfl

theorem issueVdqnt_ok (fits : 64 ≤ 2048 / t.width) (h : c.operands (.vdqnt u t o) = .ok (d, x)) :
    issueVdqnt u t o c = .ok (d.issueResult (.vdqnt u t o) (.vec (packedVec 32 64 fun e =>
      dqntElem t.width o.mod (srcElem t.width o.op1 x.a e) (srcElem 32 o.op2 x.b e) (srcElem 32 o.op3 x.c e)))) := by
  simp only [issueVdqnt, h, bind, Except.bind]
  rw [elems_srcVec_lanes, elems_srcVec_lanes, elems_srcVec_le _ _ fits, map3_map]
  rfl

theorem issueVdot4_ok (h : c.operands (.vdot4 u t o) = .ok (d, x)) :
    issueVdot4 u t o c = .ok (d.issueResult (.vdot4 u t o) (.vec
      (mapElems 32 (dot4Elem o.mod) (srcVec 8 o.op1 x.a) (srcVec 8 o.op2 x.b) (srcVec 32 o.op3 x.c)))) := by
  simp only [issueVdot4, h, bind, Except.bind]

end

/-- A code is 4 or 8 bits wide (R152). -/
theorem codes_fit {t : ElemTy} (h : TyClass.codes.has t = true) : t.width * 64 ≤ 2048 ∧ 64 ≤ 2048 / t.width := by
  cases t with
  | i4 | i8 => decide
  | _ => cases h

/-- Settles O7: the elements are those of the rules (`cvtElem_eq`, `qntElem_eq`, `dqntElem_eq`, `dot4Elem_lanes`), and what a list does
not fill is zero (`elem_packedVec`). -/
theorem vectorConversions : Obligations.VectorConversions := by
  intro u t o s c x g leaves
  refine ⟨fun h _ => ?_, fun h codes => ?_, fun h codes => ?_, fun h byte => ?_⟩
  · have op : VectorOp (.vcvt u t o) u _ o (issueVcvt u t o) := {}
    refine ⟨_, fun e _ => ?_, op.owes_own g h (.inl rfl) rfl (issueVcvt_ok h)⟩
    have fits := (Nat.mul_le_mul_right _ (le_max_right (ElemTy.ofCode (x.b.toWord.toNat % 8)).width t.width)).trans
      (Nat.mul_div_le 2048 _)
    simp only [elem_packedVec _ fits, cvtElem_eq _ _ _ _ _ (srcElem_lt ..)]
  · have op : VectorOp (.vqnt u t o) u _ o (issueVqnt u t o) := {}
    refine ⟨_, fun e _ => ?_, op.owes_own g h (.inl rfl) rfl (issueVqnt_ok h)⟩
    simp only [elem_packedVec _ (codes_fit codes).1, qntElem_eq, wrap_mod]
  · have op : VectorOp (.vdqnt u t o) u _ o (issueVdqnt u t o) := {}
    refine ⟨_, fun e he => ?_, op.owes_own g h (.inl rfl) rfl (issueVdqnt_ok (codes_fit codes).2 h)⟩
    have small (v : FVal) : Fmt.f32.round 0 v < 2 ^ 32 := Fmt.round_lt (by decide) 0 v
    rw [elem_packedVec _ (by decide), if_pos he,
      dqntElem_eq (elemWidth_pos t) o.mod _ (srcElem_lt ..) (srcElem_lt ..), Nat.mod_eq_of_lt (small _)]
  · have op : VectorOp (.vdot4 u t o) u _ o (issueVdot4 u t o) := {}
    refine ⟨_, fun e he => ?_, op.owes_own g h (.inl rfl) rfl (issueVdot4_ok h)⟩
    have source (p : Port) (y : Val) {j : Nat} (hj : j < 4) : elem 8 (srcVec 8 p y) (4 * e + j) = srcElem 8 p y (4 * e + j) :=
      elem_srcVec p y (by omega)
    rw [elem_mapElems _ _ _ _ _ he, dot4Elem_lanes, wrap_mod, elem_srcVec _ _ he]
    simp only [source, Nat.reduceLT]

end Sys2Proof.Machine
end

section
/-! PROOF. Compares, masks and their counts (R144, R157, R158). -/
namespace Sys2Proof.Machine

/-! ## Conditions (R144) -/

theorem elemCond_eq {t : ElemTy} (code : Nat) {a b : Nat} (ha : a < 2 ^ t.width) (hb : b < 2 ^ t.width) :
    elemCond t code a b = elemCondRule t code a b := by
  have number (v : FVal) : decide (v ≠ .nan) = !v.isNan := by cases v <;> rfl
  unfold elemCond elemCondRule
  cases t.isFloat with
  | true =>
    match code with
    | 0 | 1 | 2 | 3 | n + 4 => simp only [floatCond, FVal.cond, number, if_true, ← Bool.not_or, Bool.not_not]
  | false =>
    match code with
    | 0 | 1 | 2 | 3 | 4 | n + 5 =>
      simp only [intCond, Bool.false_eq_true, if_false, Nat.mod_eq_of_lt ha, Nat.mod_eq_of_lt hb,
        sextN_eq_num (elemWidth_pos t) ha, sextN_eq_num (elemWidth_pos t) hb]

theorem maskOf_eq_packedVec (k n : Nat) (p : Nat → Bool) :
    maskOf k ((List.range n).map p) = packedVec k n fun e => if p e then 2 ^ k - 1 else 0 := by
  rw [maskOf, List.map_map]
  rfl

/-- The byte lanes of an element all have its outcome. -/
theorem maskOf_bits {k n : Nat} (hk : 0 < k) (h : k * n ≤ 2048) (p : Nat → Bool) (j : Nat) :
    (maskOf k ((List.range n).map p)).getLsbD j = (decide (j < k * n) && p (j / k)) := by
  have inside : j / k < n ↔ j < k * n := by rw [Nat.div_lt_iff_lt_mul hk, Nat.mul_comm]
  have lane : ((if p (j / k) then 2 ^ k - 1 else 0) % 2 ^ k).testBit (j % k) = p (j / k) := by
    cases p (j / k) <;> simp [Nat.mod_lt j hk]
  rw [maskOf_eq_packedVec, ← BitVec.testBit_toNat, testBit_eq_elem hk, elem_packedVec _ h]
  by_cases hj : j < k * n
  · rw [if_pos (inside.2 hj), decide_eq_true hj, Bool.true_and, lane]
  · rw [if_neg (mt inside.1 hj), decide_eq_false hj, Bool.false_and, Nat.zero_testBit]

/-- The elements of every type but i4 are whole bytes. -/
theorem width_bytes {t : ElemTy} (h : TyClass.iF.has t = true) :
    0 < t.width / 8 ∧ 8 * (t.width / 8) = t.width ∧ t.width / 8 * (2048 / t.width) = 256 := by
  cases t with
  | i4 => cases h
  | _ => decide

/-! ## What the operations issue -/

section
variable {i : Instr} {u : VU} {t : ElemTy} {row : Row} {o : Op} {s : State} {c d : Core} {x : Srcs}

theorem issueVcmp_ok (h : c.operands (.vcmp u t o) = .ok (d, x)) :
    issueVcmp u t o c = .ok (d.issueResult (.vcmp u t o) (.vec (maskOf (t.width / 8) ((List.range (2048 / t.width)).map fun e =>
      elemCond t x.c.toWord.toNat (srcElem t.width o.op1 x.a e) (srcElem t.width o.op2 x.b e))))) := by
  simp only [issueVcmp, h, bind, Except.bind]
  rw [elems_srcVec, elems_srcVec]
  exact congrArg (fun l => Except.ok (d.issueResult _ (.vec (maskOf _ l)))) (zipWith_map_same ..)

theorem vcmp_bits (ht : TyClass.iF.has t = true) (j : Nat) :
    (maskOf (t.width / 8) ((List.range (2048 / t.width)).map fun e =>
      elemCond t x.c.toWord.toNat (srcElem t.width o.op1 x.a e) (srcElem t.width o.op2 x.b e))).getLsbD j =
    (decide (j < 256) && elemCondRule t x.c.toWord.toNat (srcElem t.width o.op1 x.a (8 * j / t.width))
      (srcElem t.width o.op2 x.b (8 * j / t.width))) := by
  obtain ⟨positive, whole, all⟩ := width_bytes ht
  have place : 8 * j / t.width = j / (t.width / 8) := by
    conv_lhs => rw [← whole, Nat.mul_div_mul_left _ _ (by decide)]
  rw [maskOf_bits positive (by rw [all]; decide), all, place, elemCond_eq _ (srcElem_lt ..) (srcElem_lt ..)]

theorem maskOp_ok {f : Mask → Mask → Mask} (h : c.operands i = .ok (d, x)) : maskOp i f c =
    .ok (d.issueResult i (.vec ((f (x.a.bits.setWidth 256) (x.b.bits.setWidth 256)).setWidth 2048))) := by
  simp only [maskOp, h, bind, Except.bind]

/-- An operation on masks gives what its function makes of each of the 256 bits. -/
theorem VectorOp.mask {f : Mask → Mask → Mask} {r : Bool → Bool → Bool} (op : VectorOp i u row o (maskOp i f))
    (g : s.core.guardHolds o = true) (h : s.core.operands i = .ok (c, x)) (dst : row.dst = .md) (lat : row.lat = .cls 2)
    (bits : ∀ (a b : Mask) j, j < 256 → (f a b).getLsbD j = r (a.getLsbD j) (b.getLsbD j)) :
    ∃ v : Vec, (∀ j, v.getLsbD j = (decide (j < 256) && r (x.a.bits.getLsbD j) (x.b.bits.getLsbD j))) ∧
      Completes i s (s.withCore (c.owes 2 u.slot o.dst (.vec v))) := by
  refine ⟨_, fun j => ?_, op.slot ▸ op.owes_own g h (.inr dst) lat (maskOp_ok h)⟩
  rw [BitVec.getLsbD_setWidth]
  by_cases inside : j < 256
  · have wide : j < 2048 := by omega
    simp only [bits _ _ j inside, BitVec.getLsbD_setWidth, inside, wide, decide_true, Bool.true_and]
  · rw [BitVec.getLsbD_of_ge _ j (Nat.le_of_not_lt inside), decide_eq_false inside, Bool.and_false, Bool.false_and]

/-! ## Counts (R158) -/

theorem ctzNat_eq (n y : Nat) : ctzNat n y = ((List.range n).find? y.testBit).getD n := by
  obtain ⟨bound, zeros, one⟩ := ctzNat_spec n y
  rcases Nat.lt_or_ge (ctzNat n y) n with found | none
  · have first : (List.range n).find? y.testBit = some (ctzNat n y) :=
      List.find?_range_eq_some.2 ⟨one found, List.mem_range.2 found, fun j hj => by rw [zeros j hj]; rfl⟩
    rw [first, Option.getD_some]
  · have all : ctzNat n y = n := Nat.le_antisymm bound none
    have nothing : (List.range n).find? y.testBit = .none :=
      List.find?_range_eq_none.2 fun j hj => by rw [zeros j (by omega)]; rfl
    rw [nothing, all, Option.getD_none]

/-- A count goes to a scalar register across streams, to anything else in its own (R134, R276). -/
theorem VectorOp.counts {f : Core → Res Core} {v : Val} (op : VectorOp i u row o f) (g : s.core.guardHolds o = true)
    (h : s.core.operands i = .ok (c, x)) (lat : row.lat = .cls 2) (value : f s.core = .ok (c.issueResult i v)) :
    Completes i s (s.withCore (match o.dst with
      | .s _ => c.awaits u.slot o.dst (.value v)
      | _ => c.owes 2 u.slot o.dst v)) := by
  rw [← op.slot]
  split
  · next n hd =>
    have crossing : crossStream row.slot o.dst = true := by rw [op.slot, hd, crossStream_vector_s]
    exact completes_awaits op.info g (op.free _) op.not_br (op.issues s) h lat crossing value
  · next hd => exact op.owes g h lat (crossStream_of_ne_s hd) value

theorem issueVmpopc_ok (h : c.operands (.vmpopc u o) = .ok (d, x)) : issueVmpopc u o c =
    .ok (d.issueResult (.vmpopc u o) (.word (BitVec.ofNat 64 ((List.range 256).countP fun j => x.a.bits.getLsbD j)))) := by
  simp only [issueVmpopc, h, bind, Except.bind, popNat_eq]
  rfl

theorem issueVmfirst_ok (h : c.operands (.vmfirst u o) = .ok (d, x)) : issueVmfirst u o c =
    .ok (d.issueResult (.vmfirst u o) (.word (BitVec.ofNat 64
      (((List.range 256).find? fun j => x.a.bits.getLsbD j).getD 256)))) := by
  simp only [issueVmfirst, h, bind, Except.bind, ctzNat_eq]
  rfl

end

/-- Settles O8: a compare spreads each condition over the byte lanes of its element (`vcmp_bits`), the algebra works on every bit
(`VectorOp.mask`), and the counts are those of the bits (`popNat_eq`, `ctzNat_eq`). -/
theorem vectorMasks : Obligations.VectorMasks := by
  intro u t o s c x g masks counts
  refine ⟨fun h ht _ => ?_, fun h _ _ => ?_, fun h _ _ => ?_, fun h _ _ => ?_, fun h => ?_, fun h => ?_⟩
  · have op : VectorOp (.vcmp u t o) u _ o (issueVcmp u t o) := {}
    exact ⟨_, vcmp_bits ht, op.owes_own g h (.inr rfl) rfl (issueVcmp_ok h)⟩
  · have op : VectorOp (.vmand u o) u _ o (issueVmand u o) := {}
    exact op.mask (r := and) g h rfl rfl fun _ _ _ _ => BitVec.getLsbD_and
  · have op : VectorOp (.vmor u o) u _ o (issueVmor u o) := {}
    exact op.mask (r := or) g h rfl rfl fun _ _ _ _ => BitVec.getLsbD_or
  · have op : VectorOp (.vmnot u o) u _ o (issueVmnot u o) := {}
    exact op.mask (r := fun a _ => !a) g h rfl rfl fun a _ j hj => by
      rw [BitVec.getLsbD_not, decide_eq_true hj, Bool.true_and]
  · have op : VectorOp (.vmpopc u o) u _ o (issueVmpopc u o) := {}
    exact op.counts g h rfl (issueVmpopc_ok h)
  · have op : VectorOp (.vmfirst u o) u _ o (issueVmfirst u o) := {}
    exact op.counts g h rfl (issueVmfirst_ok h)

end Sys2Proof.Machine
end

section
/-! PROOF. Bitwise operations, selection by byte, broadcasts and index vectors (R145, R146, R155, R156). -/
namespace Sys2Proof.Machine

/-! ## Bits of sources (R133) -/

theorem testBit_srcBits (p : Port) (y : Val) {k : Nat} (hk : k < 2048) : (srcBits p y).testBit k = srcBit p y k := by
  have lane : k % 32 < 32 := Nat.mod_lt k (by decide)
  have piece : k % 64 < 64 := Nat.mod_lt k (by decide)
  unfold srcBits srcBit
  split
  · rw [testBit_eq_elem (w := 32) (by decide), elem_srcVec _ _ (by omega)]
    simp only [srcElem, Nat.testBit_mod_two_pow, lane, decide_true, Bool.true_and]
  · next other =>
    have element : srcElem 64 p y (k / 64) = if y.wide then elem 64 y.bits.toNat (k / 64) else y.toWord.toNat % 2 ^ 64 := by
      unfold srcElem
      split
      · exact absurd rfl other
      · rfl
    rw [testBit_eq_elem (w := 64) (by decide), elem_srcVec _ _ (by omega), element]
    split_ifs
    · exact (testBit_eq_elem (by decide) ..).symm
    · rw [Nat.testBit_mod_two_pow, decide_eq_true piece, Bool.true_and, BitVec.testBit_toNat]

/-- The register that a source of an untyped operation stands for. -/
def srcReg (p : Port) (y : Val) : Vec := BitVec.ofNat 2048 (srcBits p y)

theorem getLsbD_srcReg (p : Port) (y : Val) {k : Nat} (hk : k < 2048) : (srcReg p y).getLsbD k = srcBit p y k := by
  rw [srcReg, BitVec.getLsbD_ofNat, decide_eq_true hk, Bool.true_and, testBit_srcBits p y hk]

/-! ## What the operations issue -/

section
variable {i : Instr} {u : VU} {t : ElemTy} {row : Row} {o : Op} {s : State} {c d : Core} {x : Srcs}

theorem bitOp_ok {f : Vec → Vec → Vec} (h : c.operands i = .ok (d, x)) :
    bitOp i o f c = .ok (d.issueResult i (.vec (f (srcReg o.op1 x.a) (srcReg o.op2 x.b)))) := by
  simp only [bitOp, h, bind, Except.bind]
  rfl

/-- A bitwise operation gives what its function makes of each of the 2048 bits. -/
theorem VectorOp.bitwise {f : Vec → Vec → Vec} {r : Bool → Bool → Bool} (op : VectorOp i u row o (bitOp i o f))
    (g : s.core.guardHolds o = true) (h : s.core.operands i = .ok (c, x)) (dst : row.dst = .vd) (lat : row.lat = .cls 2)
    (bits : ∀ (a b : Vec) k, k < 2048 → (f a b).getLsbD k = r (a.getLsbD k) (b.getLsbD k)) :
    ∃ v : Vec, (∀ k, k < 2048 → v.getLsbD k = r (srcBit o.op1 x.a k) (srcBit o.op2 x.b k)) ∧
      Completes i s (s.withCore (c.owes 2 u.slot o.dst (.vec v))) := by
  refine ⟨_, fun k hk => ?_, op.slot ▸ op.owes_own g h (.inl dst) lat (bitOp_ok h)⟩
  rw [bits _ _ k hk, getLsbD_srcReg _ _ hk, getLsbD_srcReg _ _ hk]

/-- The byte of a selection: of a where the mask has its bit, else of b. -/
def selectedByte (m a b j : Nat) : Nat := if m.testBit j then elem 8 a j else elem 8 b j

theorem issueVsel_ok (h : c.operands (.vsel u o) = .ok (d, x)) : issueVsel u o c = .ok (d.issueResult (.vsel u o)
    (.vec (packedVec 8 256 (selectedByte x.a.bits.toNat (srcBits o.op2 x.b) (srcBits o.op3 x.c))))) := by
  have bit (j : Nat) : elem 1 x.a.bits.toNat j = 1 ↔ x.a.bits.toNat.testBit j = true := by
    rw [elem, Nat.one_mul, Nat.testBit_eq_decide_div_mod_eq, decide_eq_true_iff, Nat.pow_one]
  simp only [issueVsel, h, bind, Except.bind, elems_eq_map, map3_map, bit]
  rfl

theorem selected_bits {k : Nat} (hk : k < 2048) (m a b : Nat) :
    (packedVec 8 256 (selectedByte m a b)).getLsbD k = if m.testBit (k / 8) then a.testBit k else b.testBit k := by
  have lane : k / 8 < 256 := by omega
  have small (v : Nat) : elem 8 v (k / 8) % 2 ^ 8 = elem 8 v (k / 8) := Nat.mod_eq_of_lt (elem_lt ..)
  rw [← BitVec.testBit_toNat, testBit_eq_elem (w := 8) (by decide), elem_packedVec _ (by decide), if_pos lane, selectedByte]
  split_ifs <;> rw [small, ← testBit_eq_elem (by decide)]

theorem issueVbcst_ok (h : c.operands (.vbcst u t o) = .ok (d, x)) : issueVbcst u t o c = .ok (d.issueResult (.vbcst u t o)
    (.vec (ofElems t (List.replicate (2048 / t.width)
      (elem t.width (srcVec t.width o.op1 x.a) (x.b.toWord.toNat % (2048 / t.width))))))) := by
  simp only [issueVbcst, h, bind, Except.bind]
  rfl

theorem issueViota_ok (h : c.operands (.viota u t o) = .ok (d, x)) : issueViota u t o c = .ok (d.issueResult (.viota u t o)
    (.vec (packedVec t.width (2048 / t.width) fun e => x.a.toWord.toNat + e * x.b.toWord.toNat))) := by
  simp only [issueViota, h, bind, Except.bind]
  rfl

end

theorem elemCount_pos (t : ElemTy) : 0 < 2048 / t.width := elemCount_eq t ▸ Nat.two_pow_pos _

/-- Settles O9: the bitwise operations work on every bit (`VectorOp.bitwise`), a selection on the bits of each byte (`selected_bits`); the
elements of a broadcast and of an index vector fill the register. -/
theorem vectorBits : Obligations.VectorBits := by
  intro u t o s c x g a b leaves bits
  refine ⟨fun h _ => ?_, fun h _ => ?_, fun h _ => ?_, fun h _ => ?_, fun h _ => ?_, fun h _ => ?_, fun h _ => ?_, fun h _ => ?_,
    fun h _ => ?_⟩
  · have op : VectorOp (.vand u o) u _ o (issueVand u o) := {}
    exact op.bitwise (r := and) g h rfl rfl fun _ _ _ _ => BitVec.getLsbD_and
  · have op : VectorOp (.vor u o) u _ o (issueVor u o) := {}
    exact op.bitwise (r := or) g h rfl rfl fun _ _ _ _ => BitVec.getLsbD_or
  · have op : VectorOp (.vxor u o) u _ o (issueVxor u o) := {}
    exact op.bitwise (r := bne) g h rfl rfl fun _ _ _ _ => BitVec.getLsbD_xor
  · have op : VectorOp (.vandn u o) u _ o (issueVandn u o) := {}
    exact op.bitwise (r := fun a b => a && !b) g h rfl rfl fun _ _ _ hk => by
      rw [BitVec.getLsbD_and, BitVec.getLsbD_not, decide_eq_true hk, Bool.true_and]
  · have op : VectorOp (.vnot u o) u _ o (issueVnot u o) := {}
    exact op.bitwise (r := fun a _ => !a) g h rfl rfl fun _ _ _ hk => by
      rw [BitVec.getLsbD_not, decide_eq_true hk, Bool.true_and]
  · have op : VectorOp (.vmov u o) u _ o (issueVmov u o) := {}
    exact op.bitwise (r := fun a _ => a) g h rfl rfl fun _ _ _ _ => rfl
  · have op : VectorOp (.vsel u o) u _ o (issueVsel u o) := {}
    refine ⟨_, fun k hk => ?_, op.owes_own g h (.inl rfl) rfl (issueVsel_ok h)⟩
    rw [selected_bits hk, BitVec.testBit_toNat, testBit_srcBits _ _ hk, testBit_srcBits _ _ hk]
  · have op : VectorOp (.vbcst u t o) u _ o (issueVbcst u t o) := {}
    refine ⟨_, fun e he => ?_, op.owes_own g h (.inl rfl) rfl (issueVbcst_ok h)⟩
    rw [elem_replicate (elem_lt ..) he, elem_srcVec _ _ (Nat.mod_lt _ (elemCount_pos t))]
  · have op : VectorOp (.viota u t o) u _ o (issueViota u t o) := {}
    refine ⟨_, fun e he => ?_, op.owes_own g h (.inl rfl) rfl (issueViota_ok h)⟩
    rw [elem_packedVec _ (Nat.mul_div_le 2048 _), if_pos he]

end Sys2Proof.Machine
end
